-- ==== Sys2Proof/Word.lean ====
section
/-! DEFINITION. The word types of the Celanafel and their plainest arithmetic. -/

namespace Sys2Proof

/-- A byte of memory. -/
abbrev Byte := BitVec 8

/-- A scalar register, an address, a payload: 64 bits (R50, R69, R151). -/
abbrev Word := BitVec 64

/-- A vector register: 512 bits (R50). -/
abbrev Vec := BitVec 512

/-- An element register or predicate set of a signature tile uses `Word` and `BitVec 8` (R72). -/
abbrev Preds := BitVec 8

end Sys2Proof
end

