-- ==== Sys2Proof/Config.lean ====
section
/-! DEFINITION. What an implementation fixes and what the spec leaves open: sizes of the device, and free values as
constants without a body, so that no proof can see what they are. -/

namespace Sys2Proof.Config

/-- Quires, cores per quire, threads per core (R12, R13, R18). -/
def quires : Nat := 16
def coresPerQuire : Nat := 192
def threadsPerCore : Nat := 4
def cores : Nat := 3072
def threads : Nat := 12288
def folios : Nat := 4
def contexts : Nat := 64

/-- The scratchpad window of a quire (R55). -/
def windowBytes : Nat := 0x03000000
/-- One core's SRAM and one bank (R53, R55). -/
def coreBytes : Nat := 262144
def bankBytes : Nat := 65536

/-- Core-clock cycles that pass beyond the first in the n-th step (R10, R15): a free value (log 8). -/
opaque extraCycles : Nat → Nat

/-- Nanoseconds that pass in the n-th step (R51): a free value (log 8). -/
opaque nanos : Nat → Nat

/-- How far a core's TIME is ahead, at most 1 µs (R51): a free value (log 8). -/
opaque timeSkew : Nat → Nat

/-- The n-th free 64-bit value (logs 9 and 10). -/
opaque freeWord : Nat → Word

/-- The n-th word of a state that the device gives in a form of its own (R242): a free value of what the state holds (log 146). -/
opaque privateWord : List Nat → Nat → Word

/-- The floor of MXRAMP's field UP, or DOWN, that main firmware takes from configuration blocks, where they set one (R49): a free value
of their bytes (log 147). -/
opaque rampFloor : List Byte → Bool → Option (BitVec 12)

/-- The n-th free byte (log 10). -/
opaque freeByte : Nat → Byte

/-- The SM3 digest of a message and the SM2 signature by the device key (R255, R256): the spec names the functions and
does not define them (log 11). -/
opaque sm3 : List Byte → BitVec 256
opaque sm2Sign : List Byte → BitVec 512

/-- Dipraken's public key, of which the boot ROM holds the digest, and the signatures that a public key accepts for a digest: one
and any others (R255, log 129). -/
opaque vendorKey : List Byte
opaque sm2One : List Byte → BitVec 256 → BitVec 512
opaque sm2More : List Byte → BitVec 256 → List (BitVec 512)

/-- The device certificate, signed by Dipraken (R256): the spec gives no form of it (log 92). -/
opaque certificate : List Byte

/-- Which home slice, and so which quire's L2, a line has (R162): implementation behaviour (log 12). -/
opaque homeOf : Nat → Nat

end Sys2Proof.Config
end

