-- ==== Sys2Proof/Forms.lean ====
section
/-! DEFINITION. The names of operand forms: register numbers, semantics and scope annotations, conditions,
types, and the request records of the host's commands. -/

namespace Sys2Proof

/-- A scalar register number s0 to s63 (R50). -/
abbrev SReg := Fin 64

/-- A vector register number v0 to v31 (R50). -/
abbrev VReg := Fin 32

/-- A predicate register number p0 to p7 (R50). -/
abbrev PReg := Fin 8

/-- The semantics field of an access instruction (R176). -/
inductive Sem where
  | plain | acquire | release | acqRel
deriving DecidableEq, Repr

/-- The scope field of an access instruction (R176). -/
inductive Scope where
  | thread | quire | device | system
deriving DecidableEq, Repr

/-- The access sizes of LDX and STX (R284). -/
inductive XSize where
  | b | h | w | d | nb | nh | nw | q
deriving DecidableEq, Repr

/-- The branch modes of BP (R283). -/
inductive BpMode where
  | any | all | none | notall
deriving DecidableEq, Repr

/-- The fence kinds (R181). -/
inductive FenceKind where
  | acq | rel | ar | full
deriving DecidableEq, Repr

/-- The engines that ENQ and DEQ name (R60). -/
inductive Engine where
  | copy | gather | collective
deriving DecidableEq, Repr

/-- The precision of a scalar floating-point instruction (R286): fn[6] or P. -/
inductive FPrec where
  | f64 | f32
deriving DecidableEq, Repr

/-- The type codes of F.CVT (R286). -/
inductive CvtType where
  | f64 | f32 | f16 | bf16 | i64 | n64 | i32 | n32
deriving DecidableEq, Repr

/-- The vector type codes (R287). -/
inductive VType where
  | i8 | i16 | i32 | i64 | n32 | bf16 | f32 | f64
deriving DecidableEq, Repr

/-- The types of V.FMA (R147): bf16 pairs into f32, f32, f64, i32. -/
inductive FmaType where
  | bf16f32 | f32 | f64 | i32
deriving DecidableEq, Repr

/-- The conditions of V.CMP (R288). -/
inductive VCond where
  | eq | ne | lt | le | gt | ge
deriving DecidableEq, Repr

/-- The conditions of PCMP (R290). -/
inductive PCond where
  | eq | ne | lt | ge | ltn | gen
deriving DecidableEq, Repr

/-- The element widths of V.PERM and V.MOV (R286, R289). -/
inductive EWidth where
  | w8 | w16 | w32 | w64
deriving DecidableEq, Repr

/-- What stands behind a chain of IMM prefixes (R279, R280): one of the six immediate-bearing
instructions with its own 13-bit immediate, or anything else. -/
inductive ImmTail where
  | addi (d a : SReg) (i : BitVec 13)
  | andi (d a : SReg) (i : BitVec 13)
  | ori (d a : SReg) (i : BitVec 13)
  | xori (d a : SReg) (i : BitVec 13)
  | slti (d a : SReg) (i : BitVec 13)
  | sltni (d a : SReg) (i : BitVec 13)
  | notBearing
deriving DecidableEq, Repr

/-- The pool of a context in one quire: window offset and slot count (R20, R43). -/
structure PoolReq where
  quire : Nat
  base  : Nat
  slots : Nat
deriving DecidableEq, Repr

/-- The resources a Create context request names (R20, R258).
DESIGN CHOICE: the spec gives no layout of the request words past word 0 (log 7). -/
structure CreateReq where
  root        : Nat
  allowed     : BitVec 16
  reserve     : Bool
  stackBase   : Word
  stackStride : Word
  framePool   : Word
  saveBase    : Word
  fifoArea    : Word
  trapvec     : Word
  debug       : Bool
  pools       : List PoolReq
deriving DecidableEq, Repr

/-- One entry of a requested region table (R82, R246). -/
structure RegionEntry where
  first : Nat
  width : Nat
  owner : Nat
  east  : Bool
  debug : Bool
deriving DecidableEq, Repr

/-- A Set region table request: the new table of one folio (R82, R258). -/
structure RegionReq where
  folio   : Nat
  entries : List RegionEntry
deriving DecidableEq, Repr

/-- A Repair request (R261, R262): a quire with its failing logical cores and the physical address of the buffer that main
firmware reserves in Tier-1, or a spare column replacing a logical one. -/
inductive RepairReq where
  | quire (q : Nat) (failing : List Nat) (buffer : Nat)
  | column (folio : Nat) (logical : Nat)
deriving DecidableEq, Repr

/-- A firmware image or a configuration block as flash holds it: its bytes, the public key that comes with it, and its signature
(R255). -/
structure Signed where
  body : List Byte
  key  : List Byte
  sig  : List Byte
deriving DecidableEq, Repr

/-- The key and the signature that come with an image (R255). -/
structure Seal where
  key : List Byte
  sig : List Byte
deriving DecidableEq, Repr

/-- A host access through one of the two ports: the BAR0 offset or physical address it names (R248, R250). -/
structure PortAddr where
  port : Nat
  addr : Nat
deriving DecidableEq, Repr

/-- What a host port trained to (R249): lanes, and the PCI Express generation of its rate, 6 at 64 GT/s. -/
structure PortLink where
  lanes : Nat
  gen   : Nat
deriving DecidableEq, Repr

/-- How one start of the device went (R249 to R252, R259): whether Tier-2 trains, which quires and fields pass their self-tests,
which host ports train, to which width and rate, and which of them train CXL, which Zorey links come up, and the device number
and peer table (peer, first byte, length) that clasp firmware assigns. -/
structure StartOutcome where
  tier2   : Bool
  quires  : BitVec 16
  fields  : BitVec 4
  ports   : BitVec 2
  portLinks : List PortLink
  cxl     : BitVec 2
  links   : BitVec 18
  zorey   : Option Nat
  peers   : List (Nat × Nat × Nat)
deriving DecidableEq, Repr

/-- What another device's ALLRED hands this device's collective engine (R354): the member's device number, whether that device
could not be reached or failed its part, the group, operation, type and sequence number of its command, and its SRC words. -/
structure Partial where
  dev    : Nat
  failed : Bool
  group  : List Nat
  op     : Nat
  ty     : Nat
  seq    : Nat
  data   : List Word
deriving DecidableEq, Repr

end Sys2Proof
end

