-- ==== Sys2Proof/Syntax.lean ====
section
/-! DEFINITION. The instructions: one constructor per row of the opcode table, quire instructions with their
operands, rule firings of signature code with the tile and slot that fires, and the events of the device and the host. -/

namespace Sys2Proof

/-- The steps of the device (spec/opcode_table.json, one constructor a row). -/
inductive Instr where
  /-- ADD: Adds two scalar registers modulo 2^64 (R324). -/
  | add (d : SReg) (a : SReg) (b : SReg)
  /-- ADD_W: Adds the low 32 bits of two registers and sign-extends the 32-bit sum (R324). -/
  | addW (d : SReg) (a : SReg) (b : SReg)
  /-- SUB: Subtracts two scalar registers modulo 2^64 (R411). -/
  | sub (d : SReg) (a : SReg) (b : SReg)
  /-- SUB_W: Subtracts the low 32 bits and sign-extends the result (R411). -/
  | subW (d : SReg) (a : SReg) (b : SReg)
  /-- AND: Bitwise AND of two scalar registers (R327). -/
  | and (d : SReg) (a : SReg) (b : SReg)
  /-- AND_W: Bitwise AND with the 32-bit result sign-extended (R327). -/
  | andW (d : SReg) (a : SReg) (b : SReg)
  /-- OR: Bitwise OR of two scalar registers (R383). -/
  | or (d : SReg) (a : SReg) (b : SReg)
  /-- OR_W: Bitwise OR with the 32-bit result sign-extended (R383). -/
  | orW (d : SReg) (a : SReg) (b : SReg)
  /-- XOR: Bitwise exclusive OR of two scalar registers (R434). -/
  | xor (d : SReg) (a : SReg) (b : SReg)
  /-- XOR_W: Bitwise exclusive OR with the 32-bit result sign-extended (R434). -/
  | xorW (d : SReg) (a : SReg) (b : SReg)
  /-- ANDN: Computes a AND NOT b (R327). -/
  | andn (d : SReg) (a : SReg) (b : SReg)
  /-- ANDN_W: Computes a AND NOT b with the 32-bit result sign-extended (R327). -/
  | andnW (d : SReg) (a : SReg) (b : SReg)
  /-- SHL: Shifts left by b[5:0] (R401). -/
  | shl (d : SReg) (a : SReg) (b : SReg)
  /-- SHL_W: Shifts the low 32 bits left by b[4:0] and sign-extends (R401). -/
  | shlW (d : SReg) (a : SReg) (b : SReg)
  /-- SHR: Shifts logically right by b[5:0] (R401). -/
  | shr (d : SReg) (a : SReg) (b : SReg)
  /-- SHR_W: Shifts the low 32 bits logically right and sign-extends (R401). -/
  | shrW (d : SReg) (a : SReg) (b : SReg)
  /-- SHA: Shifts arithmetically right by b[5:0] (R401). -/
  | sha (d : SReg) (a : SReg) (b : SReg)
  /-- SHA_W: Shifts the low 32 bits arithmetically right and sign-extends (R401). -/
  | shaW (d : SReg) (a : SReg) (b : SReg)
  /-- SLT: Writes 1 when a is less than b, signed (R404). -/
  | slt (d : SReg) (a : SReg) (b : SReg)
  /-- SLT_W: Signed less-than on the low 32 bits (R404). -/
  | sltW (d : SReg) (a : SReg) (b : SReg)
  /-- SLTN: Writes 1 when a is less than b, unsigned (R404). -/
  | sltn (d : SReg) (a : SReg) (b : SReg)
  /-- SLTN_W: Unsigned less-than on the low 32 bits (R404). -/
  | sltnW (d : SReg) (a : SReg) (b : SReg)
  /-- MIN: Signed 64-bit minimum (R375). -/
  | min (d : SReg) (a : SReg) (b : SReg)
  /-- MIN_W: Signed 32-bit minimum, sign-extended (R375). -/
  | minW (d : SReg) (a : SReg) (b : SReg)
  /-- MAX: Signed 64-bit maximum (R375). -/
  | max (d : SReg) (a : SReg) (b : SReg)
  /-- MAX_W: Signed 32-bit maximum, sign-extended (R375). -/
  | maxW (d : SReg) (a : SReg) (b : SReg)
  /-- MINN: Unsigned 64-bit minimum (R375). -/
  | minn (d : SReg) (a : SReg) (b : SReg)
  /-- MINN_W: Unsigned 32-bit minimum, sign-extended (R375). -/
  | minnW (d : SReg) (a : SReg) (b : SReg)
  /-- MAXN: Unsigned 64-bit maximum (R375). -/
  | maxn (d : SReg) (a : SReg) (b : SReg)
  /-- MAXN_W: Unsigned 32-bit maximum, sign-extended (R375). -/
  | maxnW (d : SReg) (a : SReg) (b : SReg)
  /-- CLZ: Counts leading zero bits of a, giving 64 for zero (R341). -/
  | clz (d : SReg) (a : SReg)
  /-- CTZ: Counts trailing zero bits of a, giving 64 for zero (R341). -/
  | ctz (d : SReg) (a : SReg)
  /-- POPC: Counts the one bits of a (R341). -/
  | popc (d : SReg) (a : SReg)
  /-- BREV: Reverses the bit order of a (R341). -/
  | brev (d : SReg) (a : SReg)
  /-- BSWAP: Reverses the byte order of a (R341). -/
  | bswap (d : SReg) (a : SReg)
  /-- SEL: Copies s[a] into d when bit 0 of the named predicate is 1, else leaves d (R392). -/
  | sel (d : SReg) (a : SReg) (p : PReg)
  /-- MUL: Low 64 bits of the product (R378). -/
  | mul (d : SReg) (a : SReg) (b : SReg)
  /-- MUL_W: 32-bit product, sign-extended (R378). -/
  | mulW (d : SReg) (a : SReg) (b : SReg)
  /-- MULH: High 64 bits of the signed by signed product (R378). -/
  | mulh (d : SReg) (a : SReg) (b : SReg)
  /-- MULHN: High 64 bits of the unsigned by unsigned product (R378). -/
  | mulhn (d : SReg) (a : SReg) (b : SReg)
  /-- MULHSN: High 64 bits of signed a by unsigned b (R378). -/
  | mulhsn (d : SReg) (a : SReg) (b : SReg)
  /-- DIV: Signed division truncating toward zero, never trapping (R345). -/
  | div (d : SReg) (a : SReg) (b : SReg)
  /-- DIV_W: Signed 32-bit division, sign-extended (R345). -/
  | divW (d : SReg) (a : SReg) (b : SReg)
  /-- DIVN: Unsigned division (R345). -/
  | divn (d : SReg) (a : SReg) (b : SReg)
  /-- DIVN_W: Unsigned 32-bit division, sign-extended (R345). -/
  | divnW (d : SReg) (a : SReg) (b : SReg)
  /-- REM: Signed remainder with the sign of the dividend (R345). -/
  | rem (d : SReg) (a : SReg) (b : SReg)
  /-- REM_W: Signed 32-bit remainder, sign-extended (R345). -/
  | remW (d : SReg) (a : SReg) (b : SReg)
  /-- REMN: Unsigned remainder (R345). -/
  | remn (d : SReg) (a : SReg) (b : SReg)
  /-- REMN_W: Unsigned 32-bit remainder, sign-extended (R345). -/
  | remnW (d : SReg) (a : SReg) (b : SReg)
  /-- ADDI: Adds a sign-extended immediate to a register (R324). -/
  | addi (d : SReg) (a : SReg) (imm : BitVec 13)
  /-- ANDI: ANDs a register with a sign-extended immediate (R327). -/
  | andi (d : SReg) (a : SReg) (imm : BitVec 13)
  /-- ORI: ORs a register with a sign-extended immediate (R383). -/
  | ori (d : SReg) (a : SReg) (imm : BitVec 13)
  /-- XORI: Exclusive-ORs a register with a sign-extended immediate (R434). -/
  | xori (d : SReg) (a : SReg) (imm : BitVec 13)
  /-- SHLI: Shifts left by an immediate count (R401). -/
  | shli (d : SReg) (a : SReg) (n : BitVec 6)
  /-- SHRI: Shifts logically right by an immediate count (R401). -/
  | shri (d : SReg) (a : SReg) (n : BitVec 6)
  /-- SHAI: Shifts arithmetically right by an immediate count (R401). -/
  | shai (d : SReg) (a : SReg) (n : BitVec 6)
  /-- SLTI: Writes 1 when a is less than the immediate, signed (R404). -/
  | slti (d : SReg) (a : SReg) (imm : BitVec 13)
  /-- SLTNI: Writes 1 when a is less than the immediate, unsigned (R404). -/
  | sltni (d : SReg) (a : SReg) (imm : BitVec 13)
  /-- LIH: Loads a 19-bit immediate shifted left by 13 (R373). -/
  | lih (d : SReg) (imm : BitVec 19)
  /-- ADDPC: Writes pc plus an unscaled signed offset (R326). -/
  | addpc (d : SReg) (imm : BitVec 19)
  /-- IMM: Prefix word that widens the immediate of the following immediate-bearing instruction (R366). -/
  | imm (first : BitVec 25) (second : Option (BitVec 25)) (tail : ImmTail)
  /-- B_EQ: Branches when the two registers are equal (R334). -/
  | bEq (a : SReg) (b : SReg) (imm : BitVec 13)
  /-- B_NE: Branches when the two registers differ (R334). -/
  | bNe (a : SReg) (b : SReg) (imm : BitVec 13)
  /-- B_LT: Branches on signed less-than (R334). -/
  | bLt (a : SReg) (b : SReg) (imm : BitVec 13)
  /-- B_GE: Branches on signed greater-or-equal (R334). -/
  | bGe (a : SReg) (b : SReg) (imm : BitVec 13)
  /-- B_LTN: Branches on unsigned less-than (R334). -/
  | bLtn (a : SReg) (b : SReg) (imm : BitVec 13)
  /-- B_GEN: Branches on unsigned greater-or-equal (R334). -/
  | bGen (a : SReg) (b : SReg) (imm : BitVec 13)
  /-- BP: Branches on a predicate test selected by mode: any, all, none or not all (R338). -/
  | bp (p : PReg) (mode : BpMode) (imm : BitVec 19)
  /-- J: Jumps PC-relative (R368). -/
  | j (imm : BitVec 19)
  /-- CALL: Writes the link and jumps PC-relative to quire code (R339). -/
  | call (d : SReg) (imm : BitVec 19)
  /-- CALLR: Calls through a tagged pointer; tag 00 branches, tag 01 pops a frame, writes it and enqueues a signature activation, suspending the thread (R103). -/
  | callr (d : SReg) (a : SReg) (argc : Fin 16)
  /-- CALLR_V: CALLR that also passes v0-v7 in the frame (R103). -/
  | callrV (d : SReg) (a : SReg) (argc : Fin 16)
  /-- JR: Jumps to the target in a register, or returns through a crossing return link (R369). -/
  | jr (a : SReg)
  /-- RET: Returns through a register, ending a callback task when the link is a crossing return link (R389). -/
  | ret (a : SReg)
  /-- TRAP: Raises system call with TRAPVAL n after completion (R412). -/
  | trap (n : BitVec 6)
  /-- BRK: Raises breakpoint at the BRK with TRAPVAL 4 (R412). -/
  | brk
  /-- ERET: Leaves supervisor mode and resumes at TRAPPC (R228). -/
  | eret
  /-- ISYNC: Discards the thread's fetched and buffered instruction words (R193). -/
  | isync
  /-- YIELD: The issue picker passes over the thread once (R412). -/
  | yield
  /-- HALT: Ends the thread's WID as a device-scope release and frees the thread (R29). -/
  | halt
  /-- WAITE: Waits for a packet of the context, a context event or WAITLIMIT expiry (R414). -/
  | waite
  /-- LD_B: Loads a sign-extended byte (R370). -/
  | ldB (t : SReg) (base : SReg) (sem : Sem) (scope : Scope) (off : BitVec 9)
  /-- LD_H: Loads a sign-extended halfword (R370). -/
  | ldH (t : SReg) (base : SReg) (sem : Sem) (scope : Scope) (off : BitVec 9)
  /-- LD_W: Loads a sign-extended word (R370). -/
  | ldW (t : SReg) (base : SReg) (sem : Sem) (scope : Scope) (off : BitVec 9)
  /-- LD_D: Loads a doubleword (R370). -/
  | ldD (t : SReg) (base : SReg) (sem : Sem) (scope : Scope) (off : BitVec 9)
  /-- LD_NB: Loads a zero-extended byte (R370). -/
  | ldNb (t : SReg) (base : SReg) (sem : Sem) (scope : Scope) (off : BitVec 9)
  /-- LD_NH: Loads a zero-extended halfword (R370). -/
  | ldNh (t : SReg) (base : SReg) (sem : Sem) (scope : Scope) (off : BitVec 9)
  /-- LD_NW: Loads a zero-extended word (R370). -/
  | ldNw (t : SReg) (base : SReg) (sem : Sem) (scope : Scope) (off : BitVec 9)
  /-- LD_Q: Loads 16 bytes into an even register pair (R370). -/
  | ldQ (t : SReg) (base : SReg) (sem : Sem) (scope : Scope) (off : BitVec 9)
  /-- ST_B: Stores a byte (R407). -/
  | stB (t : SReg) (base : SReg) (sem : Sem) (scope : Scope) (off : BitVec 9)
  /-- ST_H: Stores a halfword (R407). -/
  | stH (t : SReg) (base : SReg) (sem : Sem) (scope : Scope) (off : BitVec 9)
  /-- ST_W: Stores a word (R407). -/
  | stW (t : SReg) (base : SReg) (sem : Sem) (scope : Scope) (off : BitVec 9)
  /-- ST_D: Stores a doubleword (R407). -/
  | stD (t : SReg) (base : SReg) (sem : Sem) (scope : Scope) (off : BitVec 9)
  /-- ST_Q: Stores an even register pair as 16 bytes (R407). -/
  | stQ (t : SReg) (base : SReg) (sem : Sem) (scope : Scope) (off : BitVec 9)
  /-- LDX: Indexed load with size, semantics and scope in fn (R372). -/
  | ldx (d : SReg) (a : SReg) (b : SReg) (size : XSize) (sem : Sem) (scope : Scope)
  /-- STX: Indexed store with size, semantics and scope in fn (R410). -/
  | stx (d : SReg) (a : SReg) (b : SReg) (size : XSize) (sem : Sem) (scope : Scope)
  /-- PF: Prefetch hint with no visible effect (R386). -/
  | pf (hint : BitVec 2) (base : SReg) (off : BitVec 9)
  /-- AT_A_ADD: 64-bit atomic add returning the old value (R328). -/
  | atAAdd (d : SReg) (a : SReg) (b : SReg) (sem : Sem) (scope : Scope)
  /-- AT_A_AND: 64-bit atomic AND (R328). -/
  | atAAnd (d : SReg) (a : SReg) (b : SReg) (sem : Sem) (scope : Scope)
  /-- AT_A_OR: 64-bit atomic OR (R328). -/
  | atAOr (d : SReg) (a : SReg) (b : SReg) (sem : Sem) (scope : Scope)
  /-- AT_A_XOR: 64-bit atomic XOR (R328). -/
  | atAXor (d : SReg) (a : SReg) (b : SReg) (sem : Sem) (scope : Scope)
  /-- AT_A_SWAP: 64-bit atomic swap (R328). -/
  | atASwap (d : SReg) (a : SReg) (b : SReg) (sem : Sem) (scope : Scope)
  /-- AT_A_MIN: 64-bit atomic signed minimum (R328). -/
  | atAMin (d : SReg) (a : SReg) (b : SReg) (sem : Sem) (scope : Scope)
  /-- AT_A_MAX: 64-bit atomic signed maximum (R328). -/
  | atAMax (d : SReg) (a : SReg) (b : SReg) (sem : Sem) (scope : Scope)
  /-- AT_A_FADD: 64-bit atomic FP64 add under RNE, no flags (R328). -/
  | atAFadd (d : SReg) (a : SReg) (b : SReg) (sem : Sem) (scope : Scope)
  /-- AT_W_ADD: 32-bit atomic add (R328). -/
  | atWAdd (d : SReg) (a : SReg) (b : SReg) (sem : Sem) (scope : Scope)
  /-- AT_W_AND: 32-bit atomic AND (R328). -/
  | atWAnd (d : SReg) (a : SReg) (b : SReg) (sem : Sem) (scope : Scope)
  /-- AT_W_OR: 32-bit atomic OR (R328). -/
  | atWOr (d : SReg) (a : SReg) (b : SReg) (sem : Sem) (scope : Scope)
  /-- AT_W_XOR: 32-bit atomic XOR (R328). -/
  | atWXor (d : SReg) (a : SReg) (b : SReg) (sem : Sem) (scope : Scope)
  /-- AT_W_SWAP: 32-bit atomic swap (R328). -/
  | atWSwap (d : SReg) (a : SReg) (b : SReg) (sem : Sem) (scope : Scope)
  /-- AT_W_MIN: 32-bit atomic signed minimum (R328). -/
  | atWMin (d : SReg) (a : SReg) (b : SReg) (sem : Sem) (scope : Scope)
  /-- AT_W_MAX: 32-bit atomic signed maximum (R328). -/
  | atWMax (d : SReg) (a : SReg) (b : SReg) (sem : Sem) (scope : Scope)
  /-- AT_W_FADD: 32-bit atomic FP32 add under RNE, no flags (R328). -/
  | atWFadd (d : SReg) (a : SReg) (b : SReg) (sem : Sem) (scope : Scope)
  /-- AT_N_MINN: 64-bit atomic unsigned minimum (R328). -/
  | atNMinn (d : SReg) (a : SReg) (b : SReg) (sem : Sem) (scope : Scope)
  /-- AT_N_MAXN: 64-bit atomic unsigned maximum (R328). -/
  | atNMaxn (d : SReg) (a : SReg) (b : SReg) (sem : Sem) (scope : Scope)
  /-- AT_N_INCW: 32-bit wrapping atomic increment with bound (R328). -/
  | atNIncw (d : SReg) (a : SReg) (b : SReg) (sem : Sem) (scope : Scope)
  /-- AT_N_DECW: 32-bit wrapping atomic decrement with bound (R328). -/
  | atNDecw (d : SReg) (a : SReg) (b : SReg) (sem : Sem) (scope : Scope)
  /-- AT_N_FMIN: 64-bit atomic FP64 minimum (R328). -/
  | atNFmin (d : SReg) (a : SReg) (b : SReg) (sem : Sem) (scope : Scope)
  /-- AT_N_FMAX: 64-bit atomic FP64 maximum (R328). -/
  | atNFmax (d : SReg) (a : SReg) (b : SReg) (sem : Sem) (scope : Scope)
  /-- AT_CAS: 64-bit compare-and-swap returning the old value (R328). -/
  | atCas (d : SReg) (a : SReg) (b : SReg) (sem : Sem) (scope : Scope)
  /-- AT_CAS2: 128-bit compare-and-swap on even register pairs (R332). -/
  | atCas2 (d : SReg) (a : SReg) (b : SReg) (sem : Sem) (scope : Scope)
  /-- FENCE: Orders earlier and later accesses by kind and scope, clearing L1 or draining the write-through buffer (R181). -/
  | fence (kind : FenceKind) (scope : Scope)
  /-- WAITV: 64-bit compare and arm of the thread's monitor, returning at once on mismatch (R432). -/
  | waitv (d : SReg) (a : SReg) (b : SReg) (sem : Sem) (scope : Scope)
  /-- WAITV_W: 32-bit compare and arm of the thread's monitor (R432). -/
  | waitvW (d : SReg) (a : SReg) (b : SReg) (sem : Sem) (scope : Scope)
  /-- BAR_INIT: Initialises a barrier object with its expected count (R63). -/
  | barInit (a : SReg) (b : SReg)
  /-- BAR_ARRIVE: Arrives at a barrier as a release and may advance its phase (R63). -/
  | barArrive (d : SReg) (a : SReg)
  /-- BAR_WAIT: Waits until the barrier's phase differs from b, as an acquire (R63). -/
  | barWait (d : SReg) (a : SReg) (b : SReg)
  /-- BAR_EXPECT: Adds a signed byte delta to PENDING and may advance (R63). -/
  | barExpect (a : SReg) (b : SReg)
  /-- BAR_ARRIVEX: Arrives and adds bytes owed to PENDING (R63). -/
  | barArrivex (d : SReg) (a : SReg) (b : SReg)
  /-- BAR_LVL: Arrives at the quire's wired barrier for a level group and waits (R336). -/
  | barLvl (b : SReg)
  /-- GANG: Asks to join the row's gang g as the core's member, waiting until the gang forms (R115). -/
  | gang (g : Fin 4096)
  /-- GANG_LEAVE: GANG 0: waits as MX.WAIT and ends the thread's membership (R127). -/
  | gangLeave
  /-- MSG: Sends a one- or two-word packet to a logical core as a release (R377). -/
  | msg (d : SReg) (a : SReg) (b : SReg)
  /-- HBIND: Binds or unbinds a handler label on the core for the context (R365). -/
  | hbind (a : SReg) (b : SReg)
  /-- TEND: Ends a handler or heap task and frees the thread (R417). -/
  | tend
  /-- SPAWN: Releases and pushes a header address onto a launch queue, waiting while it is full (R405). -/
  | spawn (a : SReg) (q : Fin 16)
  /-- ENQ: Pushes a two-word command to an engine FIFO as a release, moving named tiles (R350). -/
  | enq (e : Engine) (a : SReg) (b : SReg)
  /-- DEQ: Waits for and pops the oldest command's result word as an acquire (R344). -/
  | deq (d : SReg) (e : Engine)
  /-- TL_ALLOC: Allocates a free tile descriptor with an extent (R419). -/
  | tlAlloc (a : SReg) (b : SReg)
  /-- TL_FREE: Frees a tile, waiting through filling or draining (R419). -/
  | tlFree (a : SReg)
  /-- TL_STATE: Returns a tile's state at once (R419). -/
  | tlState (d : SReg) (a : SReg)
  /-- TL_WAIT: Waits until a tile reaches a named state, as an acquire (R419). -/
  | tlWait (a : SReg) (b : SReg)
  /-- F_ADD: Floating-point add in FP64 or FP32 (R357). -/
  | fAdd (d : SReg) (a : SReg) (b : SReg) (p : FPrec)
  /-- F_SUB: Floating-point subtract (R357). -/
  | fSub (d : SReg) (a : SReg) (b : SReg) (p : FPrec)
  /-- F_MUL: Floating-point multiply (R357). -/
  | fMul (d : SReg) (a : SReg) (b : SReg) (p : FPrec)
  /-- F_DIV: Floating-point divide (R357). -/
  | fDiv (d : SReg) (a : SReg) (b : SReg) (p : FPrec)
  /-- F_SQRT: Floating-point square root (R357). -/
  | fSqrt (d : SReg) (a : SReg) (p : FPrec)
  /-- F_MIN: Floating-point minimum per R138 (R375). -/
  | fMin (d : SReg) (a : SReg) (b : SReg) (p : FPrec)
  /-- F_MAX: Floating-point maximum per R138 (R375). -/
  | fMax (d : SReg) (a : SReg) (b : SReg) (p : FPrec)
  /-- F_CLASS: Writes a one-hot class mask of a floating-point value (R357). -/
  | fClass (d : SReg) (a : SReg) (p : FPrec)
  /-- F_CEQ: Floating-point equality compare writing 1 or 0 (R357). -/
  | fCeq (d : SReg) (a : SReg) (b : SReg) (p : FPrec)
  /-- F_CLT: Floating-point less-than compare (R357). -/
  | fClt (d : SReg) (a : SReg) (b : SReg) (p : FPrec)
  /-- F_CLE: Floating-point less-or-equal compare (R357). -/
  | fCle (d : SReg) (a : SReg) (b : SReg) (p : FPrec)
  /-- F_FMA: Fused multiply-add with one rounding (R359). -/
  | fFma (d : SReg) (a : SReg) (b : SReg) (c : SReg) (p : FPrec)
  /-- F_CVT: Converts between scalar float and integer formats (R358). -/
  | fCvt (d : SReg) (a : SReg) (frm : CvtType) (tgt : CvtType)
  /-- V_LD: Loads 64 bytes under a byte predicate (R422). -/
  | vLd (vd : VReg) (base : SReg) (pm : PReg) (sem : Sem) (scope : Scope) (off : BitVec 7)
  /-- V_ST: Stores 64 bytes under a byte predicate (R422). -/
  | vSt (vd : VReg) (base : SReg) (pm : PReg) (sem : Sem) (scope : Scope) (off : BitVec 7)
  /-- V_LDX: Gathers elements at base plus index lanes (R423). -/
  | vLdx (vd : VReg) (vi : VReg) (pm : PReg) (base : SReg) (wide : Bool)
  /-- V_STX: Scatters elements to base plus index lanes (R423). -/
  | vStx (vd : VReg) (vi : VReg) (pm : PReg) (base : SReg) (wide : Bool)
  /-- V_ADD: Lanewise add (R424). -/
  | vAdd (vd : VReg) (va : VReg) (vb : VReg) (pm : PReg) (ty : VType)
  /-- V_SUB: Lanewise subtract (R424). -/
  | vSub (vd : VReg) (va : VReg) (vb : VReg) (pm : PReg) (ty : VType)
  /-- V_MUL: Lanewise multiply (R424). -/
  | vMul (vd : VReg) (va : VReg) (vb : VReg) (pm : PReg) (ty : VType)
  /-- V_MIN: Lanewise minimum (R424). -/
  | vMin (vd : VReg) (va : VReg) (vb : VReg) (pm : PReg) (ty : VType)
  /-- V_MAX: Lanewise maximum (R424). -/
  | vMax (vd : VReg) (va : VReg) (vb : VReg) (pm : PReg) (ty : VType)
  /-- V_AND: Lanewise AND on integer types (R424). -/
  | vAnd (vd : VReg) (va : VReg) (vb : VReg) (pm : PReg) (ty : VType)
  /-- V_OR: Lanewise OR on integer types (R424). -/
  | vOr (vd : VReg) (va : VReg) (vb : VReg) (pm : PReg) (ty : VType)
  /-- V_XOR: Lanewise XOR on integer types (R424). -/
  | vXor (vd : VReg) (va : VReg) (vb : VReg) (pm : PReg) (ty : VType)
  /-- V_SHL: Lanewise shift left (R424). -/
  | vShl (vd : VReg) (va : VReg) (vb : VReg) (pm : PReg) (ty : VType)
  /-- V_SHR: Lanewise logical shift right (R424). -/
  | vShr (vd : VReg) (va : VReg) (vb : VReg) (pm : PReg) (ty : VType)
  /-- V_SHA: Lanewise arithmetic shift right (R424). -/
  | vSha (vd : VReg) (va : VReg) (vb : VReg) (pm : PReg) (ty : VType)
  /-- V_ABS: Lanewise absolute value (R424). -/
  | vAbs (vd : VReg) (va : VReg) (pm : PReg) (ty : VType)
  /-- V_NEG: Lanewise negation (R424). -/
  | vNeg (vd : VReg) (va : VReg) (pm : PReg) (ty : VType)
  /-- V_DIV: Lanewise floating-point divide (R424). -/
  | vDiv (vd : VReg) (va : VReg) (vb : VReg) (pm : PReg) (ty : VType)
  /-- V_MULH: Lanewise high half of the integer product (R424). -/
  | vMulh (vd : VReg) (va : VReg) (vb : VReg) (pm : PReg) (ty : VType)
  /-- V_FMA: Lanewise fused multiply-add, including the BF16 pair-dot form (R425). -/
  | vFma (vd : VReg) (va : VReg) (vb : VReg) (vc : VReg) (pm : PReg) (ty : FmaType)
  /-- V_CMP: Lanewise compare writing byte bits of a predicate (R426). -/
  | vCmp (pd : PReg) (va : VReg) (vb : VReg) (pm : PReg) (ty : VType) (cond : VCond)
  /-- V_CVT: Lanewise format conversion (R427). -/
  | vCvt (vd : VReg) (va : VReg) (pm : PReg) (frm : VType) (tgt : VType)
  /-- V_RED_ADD: Pairwise-tree add reduction into lane 0 (R428). -/
  | vRedAdd (vd : VReg) (va : VReg) (pm : PReg) (ty : VType)
  /-- V_RED_MIN: Pairwise-tree minimum reduction (R428). -/
  | vRedMin (vd : VReg) (va : VReg) (pm : PReg) (ty : VType)
  /-- V_RED_MAX: Pairwise-tree maximum reduction (R428). -/
  | vRedMax (vd : VReg) (va : VReg) (pm : PReg) (ty : VType)
  /-- V_RED_AND: Pairwise-tree AND reduction (R428). -/
  | vRedAnd (vd : VReg) (va : VReg) (pm : PReg) (ty : VType)
  /-- V_RED_OR: Pairwise-tree OR reduction (R428). -/
  | vRedOr (vd : VReg) (va : VReg) (pm : PReg) (ty : VType)
  /-- V_RED_XOR: Pairwise-tree XOR reduction (R428). -/
  | vRedXor (vd : VReg) (va : VReg) (pm : PReg) (ty : VType)
  /-- V_PERM: Permutes lanes of va by index lanes of vb (R429). -/
  | vPerm (vd : VReg) (va : VReg) (vb : VReg) (pm : PReg) (w : EWidth)
  /-- V_MOV_BCST: Broadcasts a scalar into every lane (R430). -/
  | vMovBcst (vd : VReg) (s : SReg) (w : EWidth)
  /-- V_MOV_MOVS: Moves one lane to a scalar register, zero-extended (R430). -/
  | vMovMovs (vd : VReg) (s : SReg) (idx : Fin 64) (w : EWidth)
  /-- V_MOV_INS: Inserts a scalar into one lane (R430). -/
  | vMovIns (vd : VReg) (s : SReg) (idx : Fin 64) (w : EWidth)
  /-- V_MOV_P2S: Copies a predicate register to a scalar register (R430). -/
  | vMovP2s (p : PReg) (s : SReg)
  /-- V_MOV_S2P: Copies a scalar register to a predicate register (R430). -/
  | vMovS2p (p : PReg) (s : SReg)
  /-- V_SF_RCP: FP32 reciprocal per lane (R431). -/
  | vSfRcp (vd : VReg) (va : VReg) (pm : PReg)
  /-- V_SF_RSQRT: FP32 reciprocal square root per lane (R431). -/
  | vSfRsqrt (vd : VReg) (va : VReg) (pm : PReg)
  /-- V_SF_EXP2: FP32 base-2 exponential per lane (R431). -/
  | vSfExp2 (vd : VReg) (va : VReg) (pm : PReg)
  /-- V_SF_LOG2: FP32 base-2 logarithm per lane (R431). -/
  | vSfLog2 (vd : VReg) (va : VReg) (pm : PReg)
  /-- MX_CFG: Contributes a configuration word and XOFF to the gang's next joint operation (R118). -/
  | mxCfg (a : SReg) (b : SReg)
  /-- MX_ZERO: Contributes a zeroing of an accumulator set (R121). -/
  | mxZero (d : SReg)
  /-- MX_MMA: Contributes an A slice to a matrix multiply-accumulate after issue checks (R120). -/
  | mxMma (d : SReg) (a : SReg) (b : SReg)
  /-- MX_DRAIN: Contributes a drain of a set to the member's tile or to the field (R124). -/
  | mxDrain (d : SReg)
  /-- MX_WAIT: Waits for the member's joint operations, acquires, ORs flags and reports failures (R126). -/
  | mxWait
  /-- SG_LOAD: Starts fetching a signature image into a region's shadow planes and waits for it (R395). -/
  | sgLoad (a : SReg) (b : SReg)
  /-- SG_COMMIT: Makes a complete shadow configuration active once the region is idle or drained (R396). -/
  | sgCommit (a : SReg)
  /-- SG_STREAM: Releases and binds a stream descriptor to an edge port's scoreboard (R397). -/
  | sgStream (a : SReg) (b : SReg)
  /-- SG_SBAR: Waits until the thread's earlier SG commands to the region are complete (R398). -/
  | sgSbar (a : SReg)
  /-- SG_WAIT: Waits for stream work to end, reports a fault or writes and returns the stream status (R399). -/
  | sgWait (d : SReg) (a : SReg) (b : SReg)
  /-- SG_FREEZE: Freezes a debug-mode region in place (R400). -/
  | sgFreeze (a : SReg)
  /-- SG_THAW: Resumes a frozen region (R400). -/
  | sgThaw (a : SReg)
  /-- PL_AND: Predicate AND (R387). -/
  | plAnd (pd : PReg) (pa : PReg) (pb : PReg)
  /-- PL_OR: Predicate OR (R387). -/
  | plOr (pd : PReg) (pa : PReg) (pb : PReg)
  /-- PL_XOR: Predicate XOR (R387). -/
  | plXor (pd : PReg) (pa : PReg) (pb : PReg)
  /-- PL_ANDN: Predicate AND NOT (R387). -/
  | plAndn (pd : PReg) (pa : PReg) (pb : PReg)
  /-- PL_NOT: Predicate NOT (R387). -/
  | plNot (pd : PReg) (pa : PReg)
  /-- PL_SET: Sets a predicate to all ones (R387). -/
  | plSet (pd : PReg)
  /-- PL_CLR: Clears a predicate to zero (R387). -/
  | plClr (pd : PReg)
  /-- PCMP: Sets a predicate to all ones or zero from a scalar comparison (R384). -/
  | pcmp (pd : PReg) (cond : PCond) (a : SReg) (b : SReg)
  /-- GH_PUSH: Sets or inserts a key's value and payload, or its running side value (R203). -/
  | ghPush (d : SReg) (a : SReg) (b : SReg) (rel : Bool)
  /-- GH_ADD: Adds a delta to a key's value or side value, inserting when absent (R203). -/
  | ghAdd (d : SReg) (a : SReg) (b : SReg) (rel : Bool)
  /-- GH_SET: Sets a key's value, keeping its payload, and returns the old value (R203). -/
  | ghSet (d : SReg) (a : SReg) (b : SReg) (rel : Bool)
  /-- GH_DONE: Ends the task key's running record, reinserting a non-zero side value (R206). -/
  | ghDone (rel : Bool)
  /-- GH_SUM: Returns the exact residual of this quire or the whole heap, rounded to FP64 (R207). -/
  | ghSum (d : SReg) (a : SReg)
  /-- GH_CFG: Changes FLOOR or TOL at every engine of the heap (R205). -/
  | ghCfg (a : SReg) (b : SReg)
  /-- GH_DUMP: Writes dump records of the heap in key order and returns the count (R210). -/
  | ghDump (d : SReg) (a : SReg) (b : SReg)
  /-- TK_OPEN: Opens a free sequence record and returns its identifier (R218). -/
  | tkOpen (d : SReg) (a : SReg)
  /-- TK_RELEASE: Closes a record and advances its generation (R218). -/
  | tkRelease (a : SReg)
  /-- TK_ARM: Reads a bookmark descriptor and arms a bookmark (R218). -/
  | tkArm (a : SReg) (b : SReg)
  /-- TK_DISARM: Disarms masked bookmarks and optionally clears the stop (R218). -/
  | tkDisarm (a : SReg)
  /-- TK_BUDGET: Sets a counter's token range and clears the counter (R218). -/
  | tkBudget (a : SReg) (b : SReg)
  /-- TK_COMMIT: Commits tokens, evaluating bookmarks and acting on the winning hit (R219). -/
  | tkCommit (d : SReg) (a : SReg) (vb : Fin 64)
  /-- TK_PEEK: Evaluates tokens as a commit would without changing the record (R222). -/
  | tkPeek (d : SReg) (a : SReg) (vb : Fin 64)
  /-- TK_READ: Returns a selected field of a sequence record (R223). -/
  | tkRead (d : SReg) (a : SReg) (b : SReg)
  /-- SYSR: Reads a system register after the access checks (R415). -/
  | sysr (d : SReg) (reg : BitVec 12)
  /-- SYSW: Writes a system register after the access checks and its own rules (R415). -/
  | sysw (a : SReg) (reg : BitVec 12)
  /-- SYSX: Exchanges a system register with a scalar register in one act (R415). -/
  | sysx (d : SReg) (a : SReg) (reg : BitVec 12)
  /-- XL_INV_VA: Removes the context's translations of one page from every translation cache (R433). -/
  | xlInvVa (a : SReg)
  /-- XL_INV_CTX: Removes every non-global translation of the context (R433). -/
  | xlInvCtx
  /-- XL_SYNC: Waits until earlier invalidations took effect and old-translation accesses performed (R159). -/
  | xlSync
  /-- SIG_NOP: Rule that only dequeues and writes predicates (R381). -/
  | sigNop (folio : Nat) (col : Nat) (row : Nat) (slot : Nat)
  /-- SIG_MOV: Rule that moves A to a register or outputs (R376). -/
  | sigMov (folio : Nat) (col : Nat) (row : Nat) (slot : Nat)
  /-- SIG_DUP: Rule that writes A to a register and to every ENQ output (R347). -/
  | sigDup (folio : Nat) (col : Nat) (row : Nat) (slot : Nat)
  /-- SIG_EMIT: Rule that emits a token packed from A and B with kind OKIND (R348). -/
  | sigEmit (folio : Nat) (col : Nat) (row : Nat) (slot : Nat)
  /-- SIG_ADD: PE rule adding A and B under the PE type (R325). -/
  | sigAdd (folio : Nat) (col : Nat) (row : Nat) (slot : Nat)
  /-- SIG_SUB: PE rule subtracting B from A (R411). -/
  | sigSub (folio : Nat) (col : Nat) (row : Nat) (slot : Nat)
  /-- SIG_MUL: PE rule multiplying A and B (R379). -/
  | sigMul (folio : Nat) (col : Nat) (row : Nat) (slot : Nat)
  /-- SIG_FMA: PE rule computing A times B plus C with one rounding (R361). -/
  | sigFma (folio : Nat) (col : Nat) (row : Nat) (slot : Nat)
  /-- SIG_MIN: PE rule taking the minimum (R375). -/
  | sigMin (folio : Nat) (col : Nat) (row : Nat) (slot : Nat)
  /-- SIG_MAX: PE rule taking the maximum (R375). -/
  | sigMax (folio : Nat) (col : Nat) (row : Nat) (slot : Nat)
  /-- SIG_AND: PE rule computing A AND B (R327). -/
  | sigAnd (folio : Nat) (col : Nat) (row : Nat) (slot : Nat)
  /-- SIG_OR: PE rule computing A OR B (R383). -/
  | sigOr (folio : Nat) (col : Nat) (row : Nat) (slot : Nat)
  /-- SIG_XOR: PE rule computing A XOR B (R434). -/
  | sigXor (folio : Nat) (col : Nat) (row : Nat) (slot : Nat)
  /-- SIG_SHL: PE rule shifting A left (R402). -/
  | sigShl (folio : Nat) (col : Nat) (row : Nat) (slot : Nat)
  /-- SIG_SHR: PE rule shifting A logically right (R402). -/
  | sigShr (folio : Nat) (col : Nat) (row : Nat) (slot : Nat)
  /-- SIG_SHA: PE rule shifting A arithmetically right (R402). -/
  | sigSha (folio : Nat) (col : Nat) (row : Nat) (slot : Nat)
  /-- SIG_PCMP: PE rule writing a predicate from a comparison of A and B (R385). -/
  | sigPcmp (folio : Nat) (col : Nat) (row : Nat) (slot : Nat)
  /-- SIG_SEL: PE rule selecting A or B by a predicate (R393). -/
  | sigSel (folio : Nat) (col : Nat) (row : Nat) (slot : Nat)
  /-- SIG_STEER: PE rule sending A to one of two outputs by B (R409). -/
  | sigSteer (folio : Nat) (col : Nat) (row : Nat) (slot : Nat)
  /-- SIG_GATE: PE rule sending A only when B is non-zero (R363). -/
  | sigGate (folio : Nat) (col : Nat) (row : Nat) (slot : Nat)
  /-- SIG_MERGE: PE rule forwarding the head of the lowest-numbered non-empty input (R374). -/
  | sigMerge (folio : Nat) (col : Nat) (row : Nat) (slot : Nat)
  /-- SIG_ITER: PE rule reading an iteration counter of the invocation (R367). -/
  | sigIter (folio : Nat) (col : Nat) (row : Nat) (slot : Nat)
  /-- SIG_ACC: PE rule adding A into an element register (R323). -/
  | sigAcc (folio : Nat) (col : Nat) (row : Nat) (slot : Nat)
  /-- SIG_NZSEND: PE rule sending A only when it is non-zero (R382). -/
  | sigNzsend (folio : Nat) (col : Nat) (row : Nat) (slot : Nat)
  /-- SIG_SINK: Rule consuming tokens and counting EOS toward its sink report (R403). -/
  | sigSink (folio : Nat) (col : Nat) (row : Nat) (slot : Nat)
  /-- SIG_CVT: Converter-node rule performing one step of the conversion sequencer (R343). -/
  | sigCvt (folio : Nat) (col : Nat) (row : Nat) (slot : Nat)
  /-- SIG_LD: Memory or edge tile rule loading from tile SRAM, FIFO, cache bank or memory (R371). -/
  | sigLd (folio : Nat) (col : Nat) (row : Nat) (slot : Nat)
  /-- SIG_ST: Memory or edge tile rule storing to tile SRAM, pushing a FIFO or holding a store (R408). -/
  | sigSt (folio : Nat) (col : Nat) (row : Nat) (slot : Nat)
  /-- SIG_AT_ADD: Signature atomic add, local in a buffer tile or held at a storer (R331). -/
  | sigAtAdd (folio : Nat) (col : Nat) (row : Nat) (slot : Nat)
  /-- SIG_AT_MIN: Signature atomic signed minimum (R331). -/
  | sigAtMin (folio : Nat) (col : Nat) (row : Nat) (slot : Nat)
  /-- SIG_AT_MAX: Signature atomic signed maximum (R331). -/
  | sigAtMax (folio : Nat) (col : Nat) (row : Nat) (slot : Nat)
  /-- SIG_AT_OR: Signature atomic OR (R331). -/
  | sigAtOr (folio : Nat) (col : Nat) (row : Nat) (slot : Nat)
  /-- SIG_AT_AND: Signature atomic AND (R331). -/
  | sigAtAnd (folio : Nat) (col : Nat) (row : Nat) (slot : Nat)
  /-- SIG_AT_XOR: Signature atomic XOR (R331). -/
  | sigAtXor (folio : Nat) (col : Nat) (row : Nat) (slot : Nat)
  /-- SIG_AT_SWAP: Signature atomic swap (R331). -/
  | sigAtSwap (folio : Nat) (col : Nat) (row : Nat) (slot : Nat)
  /-- SIG_AT_CAS: Signature atomic compare-and-swap (R331). -/
  | sigAtCas (folio : Nat) (col : Nat) (row : Nat) (slot : Nat)
  /-- SIG_AT_TAS: Signature test-and-set returning the old value and writing 1 (R333). -/
  | sigAtTas (folio : Nat) (col : Nat) (row : Nat) (slot : Nat)
  /-- SIG_CALL: CALL node rule that checks the callee, pops a frame, holds live values and ends the data phase (R105). -/
  | sigCall (folio : Nat) (col : Nat) (row : Nat) (slot : Nat)
  /-- SIG_RET: RET node rule that holds the two results and ends the data phase (R390). -/
  | sigRet (folio : Nat) (col : Nat) (row : Nat) (slot : Nat)
  /-- SIG_RED: N-beat reduction rule over a fixed pairwise tree (R388). -/
  | sigRed (folio : Nat) (col : Nat) (row : Nat) (slot : Nat)
  /-- SIG_DIV: PE rule dividing A by B (R346). -/
  | sigDiv (folio : Nat) (col : Nat) (row : Nat) (slot : Nat)
  /-- SIG_SQRT: PE rule taking the square root of A (R406). -/
  | sigSqrt (folio : Nat) (col : Nat) (row : Nat) (slot : Nat)
  /-- N_BEAT_RULE_BEAT: A later beat of an N-beat rule proceeds once its input holds a token and its output has room (R75). -/
  | nBeatRuleBeat (folio : Nat) (col : Nat) (row : Nat) (path : Bool)
  /-- LQPUSH: A store to LQPUSH releases and enqueues a header address, or is dropped and halts the queue when full (R32). -/
  | lqpush (ctx : Nat) (q : Nat) (hdr : Word)
  /-- LQCTL_ABORT: A write of 1 to LQCTL.ABORT stops or removes the head launch (R35). -/
  | lqctlAbort (ctx : Nat) (q : Nat)
  /-- LQSTAT_CLEAR: A W1C write to LQSTAT clears REJ, OVF or ABORTED, releasing a halted queue (R34). -/
  | lqstatClear (ctx : Nat) (q : Nat) (v : Word)
  /-- REGISTER_WRITE: A write to a register field with no behaviour of its own sets RW fields and ignores the rest (R5). -/
  | registerWrite (off : PortAddr) (v : Word)
  /-- BANK_SWITCH_DONE: A switching bank takes its new role and its BUSY bit clears, completing the SYSW (R54). -/
  | bankSwitchDone (core : Nat)
  /-- RAMP_RATE_UPDATE: The ramp limiter moves its permitted MMA rate toward demand each microsecond (R48). -/
  | rampRateUpdate (quire : Nat) (slots : Nat)
  /-- LAUNCH_HEAD: A launch reaches the head of its queue and its header is read and validated (R34). -/
  | launchHead (ctx : Nat) (q : Nat)
  /-- LAUNCH_WAIT_SATISFIED: A monitored store makes a launch wait's word reach its minimum (R30). -/
  | launchWaitSatisfied (launch : Nat) (k : Nat)
  /-- KIND3_WAIT_POLL: The poll interval for a kind-3 wait expires and the dispatcher rereads the word (R30). -/
  | kind3WaitPoll (launch : Nat) (k : Nat)
  /-- HEAP_BIND: A validated heap-bound launch binds its engines once all are unbound, emptying them and loading FLOOR and TOL (R198). -/
  | heapBind (launch : Nat)
  /-- GROUP_START: A reserved level-c group, having gathered all its threads, starts its WIDs as one act (R37). -/
  | groupStart (launch : Nat) (quire : Nat)
  /-- WID_START: A free thread starts a single WID with its initial register state (R28). -/
  | widStart (launch : Nat) (thread : Nat)
  /-- HANDLER_START: The handler picker starts a ready label's handler on a free thread, consuming the oldest packet (R44). -/
  | handlerStart (thread : Nat)
  /-- CALLBACK_TASK_START: A queued callback packet starts a callback task at the callee address with the frame's arguments (R106). -/
  | callbackTaskStart (thread : Nat)
  /-- HEAP_DISPATCH: A gain-heap engine removes its highest-priority entry above FLOOR and starts a heap task (R204). -/
  | heapDispatch (thread : Nat)
  /-- LAUNCH_COMPLETE: When all WIDs have halted (and a heap has terminated), the completion increment is added as a system release (R31). -/
  | launchComplete (launch : Nat)
  /-- PACKET_ARRIVAL: A packet joins the destination core's message queue, borrowing pool slots when full (R42). -/
  | packetArrival (idx : Nat)
  /-- PACKET_DEFERRED_ACCEPT: A packet held in the network for an absent context is accepted once the context can take it (R244). -/
  | packetDeferredAccept (ctx : Nat) (core : Nat)
  /-- FIFO_POP_COMPLETE: A load waiting on an empty scratchpad FIFO completes when an entry arrives (R56). -/
  | fifoPopComplete (thread : Nat)
  /-- FIFO_PUSH_COMPLETE: A store held on a full scratchpad FIFO pushes when a slot frees (R56). -/
  | fifoPushComplete (thread : Nat)
  /-- TILE_READY: A producer's last write completes and the tile moves from filling to ready as a release (R58). -/
  | tileReady (core : Nat) (tile : Nat)
  /-- TILE_EMPTY: A consumer's last read completes and the tile moves from draining to empty as a release (R58). -/
  | tileEmpty (core : Nat) (tile : Nat)
  /-- WAITV_WAKE: A write to the monitor unit or a context event wakes an armed WAITV with a fresh read (R65). -/
  | waitvWake (thread : Nat)
  /-- WAITLIMIT_EXPIRY: WAITLIMIT expires and a waiting WAITV or WAITE returns (R65). -/
  | waitlimitExpiry (thread : Nat)
  /-- WAITE_WAKE: A packet of the context joins the core's queue and a waiting WAITE returns (R414). -/
  | waiteWake (thread : Nat)
  /-- BAR_WAIT_RETURN: A barrier phase advance makes waiting BAR.WAITs return the new phase (R63). -/
  | barWaitReturn (thread : Nat)
  /-- COPY: Copy engine command that moves LEN bytes between memory or tiles and subtracts landed bytes from a barrier (R352). -/
  | copy (thread : Nat)
  /-- FILL: Copy engine command that writes a 64-bit pattern over a destination (R352). -/
  | fill (thread : Nat)
  /-- GATHER: Gather engine command that reads indexed elements into a dense array (R353). -/
  | gather (thread : Nat)
  /-- SCATTER: Gather engine command that writes a dense array to indexed elements (R353). -/
  | scatter (thread : Nat)
  /-- COLLATE: Collective engine command that reads a WID's partial into a collation object (R150). -/
  | collate (thread : Nat)
  /-- ALLRED: Collective engine command that reduces partials across devices by rank and writes every member's result (R354). -/
  | allred (thread : Nat) (partials : List Partial)
  /-- IMAGE_LOAD_COMPLETE: Every tile acknowledges a complete shadow plane and the waiting SG.LOAD completes (R84). -/
  | imageLoadComplete (folio : Nat) (region : Nat)
  /-- COMMIT_BROADCAST: Once the region is idle or drained, the shadow planes become active in one broadcast (R84). -/
  | commitBroadcast (folio : Nat) (region : Nat)
  /-- INVOCATION_START: A free region takes an activation or stream command, sets its iteration vector and enqueues the entry tokens (R437). -/
  | invocationStart (folio : Nat) (region : Nat)
  /-- LOADER_READ_RESPONSE: Memory data returns to a loader, which emits DATA tokens, ERR on poison, and EOS at pattern end (R81). -/
  | loaderReadResponse (folio : Nat) (col : Nat) (row : Nat)
  /-- STORER_ACCEPT: A storer takes a token from its data input and holds, counts, orders or discards by kind (R81). -/
  | storerAccept (folio : Nat) (col : Nat) (row : Nat)
  /-- GUTTER_DROP: A token reaching a closed gutter is dropped and counted, the first ending the sender's data phase (R83). -/
  | gutterDrop (folio : Nat) (col : Nat) (row : Nat) (out : Nat)
  /-- INVOCATION_END: Every storer has passed DRAIN and released its entries, and the controller makes the completion release (R90). -/
  | invocationEnd (folio : Nat) (region : Nat)
  /-- DRAIN_BOUND_EXPIRY: A data phase not ended within the drain bound discards the invocation with no completion (R89). -/
  | drainBoundExpiry (folio : Nat) (region : Nat)
  /-- CROSSING_CALL: After the caller region drains, the crossing unit writes the callee frame and enqueues or sends the callee (R105). -/
  | crossingCall (folio : Nat) (region : Nat)
  /-- ACTIVATION_ENQUEUE: A held activation or continuation enters its FIFO when an entry is free (R102). -/
  | activationEnqueue (ctx : Nat) (fifo : Nat)
  /-- CALLBACK_PACKET_SEND: The crossing unit sends a callback packet to a quire of the callback pool once a slot is free (R106). -/
  | callbackPacketSend (idx : Nat) (core : Nat)
  /-- RETURN_DELIVERY: A return sets STATE 2 and resumes the quire caller or enqueues the caller's continuation (R107). -/
  | returnDelivery (idx : Nat)
  /-- JOINT_CFG: All 16 CFG contributions have arrived and the array takes its configuration, zeroing sets on a type change (R119). -/
  | jointCfg (quire : Nat) (array : Nat)
  /-- JOINT_ZERO: All 16 ZERO contributions have arrived and the set is cleared (R121). -/
  | jointZero (quire : Nat) (array : Nat)
  /-- JOINT_MMA: All 16 MMA contributions have arrived and the array accumulates the product in the fixed order (R121). -/
  | jointMma (quire : Nat) (array : Nat)
  /-- JOINT_DRAIN: All 16 DRAIN contributions have arrived and the set is converted into tiles or sent to the field (R124). -/
  | jointDrain (quire : Nat) (array : Nat)
  /-- TERMINATION_WAVE: The heap coordinator reads every engine's counts and accumulator in one wave (R208). -/
  | terminationWave (launch : Nat)
  /-- HEAP_ABORT_UNBIND: After an abort, once all tasks and WIDs end, the heap discards its entries, writes OUTCOME 3 and unbinds (R211). -/
  | heapAbortUnbind (launch : Nat)
  /-- GETS: The home serves a shared read request for a coherence unit (R164). -/
  | gets (req : Nat) (unit : Nat) (grain : Nat)
  /-- GETM: The home serves an exclusive request, invalidating sharers (R164). -/
  | getm (req : Nat) (unit : Nat) (grain : Nat)
  /-- UPGRADE: The home grants a sharer exclusive access or treats the request as GetM (R164). -/
  | upgrade (req : Nat) (unit : Nat) (grain : Nat)
  /-- PUTM: The home accepts or discards a dirty write-back from an M holder (R164). -/
  | putm (req : Nat) (unit : Nat)
  /-- PUTO: The home accepts or discards a write-back from an O owner (R164). -/
  | puto (req : Nat) (unit : Nat)
  /-- FWD_GETS: A quire L2 supplies data for a forwarded read and moves to S or O (R163). -/
  | fwdGets (cache : Nat) (unit : Nat)
  /-- FWD_GETM: A quire L2 supplies data for a forwarded exclusive request and invalidates (R163). -/
  | fwdGetm (cache : Nat) (unit : Nat)
  /-- INV: A quire L2 acknowledges an invalidation and drops its copy (R163). -/
  | inv (cache : Nat) (unit : Nat)
  /-- L2_EVICTION: A quire L2 evicts a unit silently or with PutM or PutO (R163). -/
  | l2Eviction (cache : Nat) (unit : Nat)
  /-- HOME_TAG_EVICTION: A home tag eviction recalls every copy and writes dirty data to memory (R166). -/
  | homeTagEviction (line : Nat)
  /-- SNPDATA: A host SnpData brings device copies of a host line to S, writing dirty data back (R170). -/
  | snpdata (pa : Nat)
  /-- SNPINV: A host SnpInv invalidates every device copy and returns dirty data (R170). -/
  | snpinv (pa : Nat)
  /-- SNPCUR: A host SnpCur returns current data without a state change (R170). -/
  | snpcur (pa : Nat)
  /-- HOST_CXL_MEM_ACCESS: A host CXL.mem read or write of exported device memory is serialised at the home (R172). -/
  | hostCxlMemAccess (pa : PortAddr) (data : Option (List Byte))
  /-- PEER_ACCESS: A kind-4 access from a peer device executes at this device's home slice or is refused (R175). -/
  | peerAccess (peer : Nat) (pa : Nat) (data : Option (List Byte))
  /-- KIND4_STORE_FAILURE: A posted peer store fails, is dropped and counted for report at the next system release (R175). -/
  | kind4StoreFailure (core : Nat) (idx : Nat)
  /-- POISON_DETECT: An uncorrectable or soft error marks a poison unit as poisoned (R168). -/
  | poisonDetect (key : Nat) (grain : Nat)
  /-- ZOREY_LINK_DOWN: A Zorey link goes down and its traffic moves to the other links (R252). -/
  | zoreyLinkDown (link : Nat)
  /-- HOST_PORT_TRAINING_LOSS: A host port loses training and every access in flight through it fails (R251). -/
  | hostPortTrainingLoss (port : Nat)
  /-- DEVICE_START: At each start the device runs the bring-up steps in order, recording each (R259). -/
  | deviceStart (outcome : StartOutcome)
  /-- CREATE_CONTEXT: Mailbox command that creates a context with its resources, or refuses it (R258). -/
  | createContext (req : CreateReq)
  /-- DESTROY_CONTEXT: Mailbox command that destroys a context, freeing its records and heaps (R258). -/
  | destroyContext
  /-- SWITCH_OUT: Mailbox command that pre-empts a context and writes its save area (R234). -/
  | switchOut
  /-- SWITCH_IN: Mailbox command that restores a switched-out context and its frozen regions (R237). -/
  | switchIn (slices : List (Nat × Nat)) (moves : List (Nat × Nat))
  /-- SUPERVISOR_BOUND_EXPIRY: A thread still in supervisor mode at the bound makes the pre-emption fail (R234). -/
  | supervisorBoundExpiry (ctx : Nat)
  /-- PREEMPTION_BOUND_EXPIRY: A region not at an invocation boundary by the pre-emption bound is frozen in place and scanned out (R236). -/
  | preemptionBoundExpiry (folio : Nat) (region : Nat)
  /-- SET_REGION_TABLE: Mailbox command that changes regions and gutter guards (R82). -/
  | setRegionTable (req : RegionReq)
  /-- ATTEST: Mailbox command that returns a signed attestation report for a nonce (R256). -/
  | attest
  /-- REPAIR: Mailbox command that repairs a quire or remaps a spare field column in service (R261). -/
  | repair (req : RepairReq)
  /-- UPDATE_MAIN_FIRMWARE: Mailbox command that replaces the main firmware image without stopping contexts (R262). -/
  | updateMainFirmware (image : List Byte) (auth : Seal)
  /-- UNKNOWN_COMMAND: A mailbox request with an unlisted command code completes with RESULT 0xFF (R258). -/
  | unknownCommand
  /-- DEBUG_HALT_THREAD: Debug operation that halts a thread at its next user-mode boundary (R245). -/
  | debugHaltThread (thread : Nat)
  /-- DEBUG_RESUME_THREAD: Debug operation that clears a halt, for a double trap at a written PC (R245). -/
  | debugResumeThread (thread : Nat) (pc : Word)
  /-- DEBUG_READ_THREAD: Debug operation that reads a halted thread's registers (R245). -/
  | debugReadThread (thread : Nat) (off : Nat)
  /-- DEBUG_WRITE_THREAD: Debug operation that writes a halted thread's registers (R245). -/
  | debugWriteThread (thread : Nat) (off : Nat) (v : Word)
  /-- DEBUG_WRITE_STEP_STATE: Debug operation that writes STEPCTL and BRKADDR of any thread (R245). -/
  | debugWriteStepState (thread : Nat) (step : Word) (brk : List Word)
  /-- DEBUG_FREEZE_REGION: Debug operation that freezes a debug-mode region (R246). -/
  | debugFreezeRegion (folio : Nat) (region : Nat)
  /-- DEBUG_STEP_REGION: Debug operation that runs one firing cycle of every tile of a frozen region (R246). -/
  | debugStepRegion (folio : Nat) (region : Nat)
  /-- DEBUG_THAW_REGION: Debug operation that resumes a frozen region (R246). -/
  | debugThawRegion (folio : Nat) (region : Nat)
  /-- DEBUG_READ_REGION: Debug operation that reads a frozen region's state (R245). -/
  | debugReadRegion (folio : Nat) (region : Nat) (off : Nat)
  /-- DEBUG_WRITE_REGION: Debug operation that writes a frozen region's state (R245). -/
  | debugWriteRegion (folio : Nat) (region : Nat) (off : Nat) (v : Word)
  /-- ILLEGAL_INSTRUCTION: A thread issues a word whose OP, fn or fields are unassigned or illegal, and it raises illegal instruction precisely (R281). -/
  | illegalInstruction
  /-- INSTRUCTION_FETCH_FAULT: A thread's fetch at its PC faults (misaligned, not present, permission or poisoned), for example a return through ln = 0 (R229). -/
  | instructionFetchFault
  /-- TOKEN_HOP: A token moves one hop along a route from an output buffer, through pass-through tiles, toward its receiver's input, holding back its sender when full (R70). -/
  | tokenHop (folio : Nat) (col : Nat) (row : Nat) (out : Nat) (pos : Nat)
  /-- QFLAGS_UPDATE: QFLAGS takes up a change in some thread's FCTL flags, up to 64 core-clock cycles after it (R52). -/
  | qflagsUpdate (quire : Nat) (ctx : Nat)
  /-- POWER_FAIL: Power fails, leaving a bring-up step with a start entry and no finish entry, so that step is failed (R259). -/
  | powerFail (step : Nat) (sub : Nat)
  /-- MBDOOR_WRITE_WHILE_BUSY: A write to MBDOOR while MBSTAT.BUSY = 1 is ignored and sets OVR (R257). -/
  | mbdoorWriteWhileBusy
deriving DecidableEq, Repr

end Sys2Proof
end

