-- ==== Sys2Proof/WellFormed.lean ====
section
/-! DEFINITION. Which instructions are well formed: the combinations of fields that the encoding chapters call illegal
are refused here (R103, R114, R176, R216, R279, R280, R284 to R289, R428). -/

namespace Sys2Proof

/-- Semantics and scope of a load, of V.LD and of WAITV (R176). -/
def loadSemOk : Sem → Scope → Bool
  | .plain, .thread => true
  | .acquire, _ => true
  | _, _ => false

/-- Semantics and scope of a store and of V.ST (R176). -/
def storeSemOk : Sem → Scope → Bool
  | .plain, .thread => true
  | .release, _ => true
  | _, _ => false

/-- A register that names the lower of a pair is even (R279, R284, R285). -/
def pairOk (r : SReg) : Bool := r.val % 2 == 0

/-- STX has no zero-extending sizes (R284). -/
def storeSizeOk : XSize → Bool
  | .nb => false
  | .nh => false
  | .nw => false
  | .b => true
  | .h => true
  | .w => true
  | .d => true
  | .q => true

/-- ARGC of CALLR is 0 to 8 (R103). -/
def argcOk (n : Fin 16) : Bool := n.val ≤ 8

/-- The integer types of F.CVT (R286). -/
def CvtType.isInt : CvtType → Bool
  | .i64 => true
  | .n64 => true
  | .i32 => true
  | .n32 => true
  | .f64 => false
  | .f32 => false
  | .f16 => false
  | .bf16 => false

/-- F.CVT converts between two different codes, not both integers (R286). -/
def cvtOk (a b : CvtType) : Bool := a != b && !(a.isInt && b.isInt)

/-- The floating-point vector types (R287). -/
def VType.isFloat : VType → Bool
  | .bf16 => true
  | .f32 => true
  | .f64 => true
  | .i8 => false
  | .i16 => false
  | .i32 => false
  | .i64 => false
  | .n32 => false

/-- The element width in bits (R286, R289). -/
def EWidth.bits : EWidth → Nat
  | .w8 => 8
  | .w16 => 16
  | .w32 => 32
  | .w64 => 64

/-- A lane index of V.MOV lies below 512 divided by the width (R289). -/
def idxOk (w : EWidth) (i : Fin 64) : Bool := i.val < 512 / w.bits

/-- The instruction is well formed: no combination of its fields is illegal. A step of the device or the host
has no encoding and is always well formed. -/
def Instr.wellFormed : Instr → Bool
  | .add _ _ _ => true
  | .addW _ _ _ => true
  | .sub _ _ _ => true
  | .subW _ _ _ => true
  | .and _ _ _ => true
  | .andW _ _ _ => true
  | .or _ _ _ => true
  | .orW _ _ _ => true
  | .xor _ _ _ => true
  | .xorW _ _ _ => true
  | .andn _ _ _ => true
  | .andnW _ _ _ => true
  | .shl _ _ _ => true
  | .shlW _ _ _ => true
  | .shr _ _ _ => true
  | .shrW _ _ _ => true
  | .sha _ _ _ => true
  | .shaW _ _ _ => true
  | .slt _ _ _ => true
  | .sltW _ _ _ => true
  | .sltn _ _ _ => true
  | .sltnW _ _ _ => true
  | .min _ _ _ => true
  | .minW _ _ _ => true
  | .max _ _ _ => true
  | .maxW _ _ _ => true
  | .minn _ _ _ => true
  | .minnW _ _ _ => true
  | .maxn _ _ _ => true
  | .maxnW _ _ _ => true
  | .clz _ _ => true
  | .ctz _ _ => true
  | .popc _ _ => true
  | .brev _ _ => true
  | .bswap _ _ => true
  | .sel _ _ _ => true
  | .mul _ _ _ => true
  | .mulW _ _ _ => true
  | .mulh _ _ _ => true
  | .mulhn _ _ _ => true
  | .mulhsn _ _ _ => true
  | .div _ _ _ => true
  | .divW _ _ _ => true
  | .divn _ _ _ => true
  | .divnW _ _ _ => true
  | .rem _ _ _ => true
  | .remW _ _ _ => true
  | .remn _ _ _ => true
  | .remnW _ _ _ => true
  | .addi _ _ _ => true
  | .andi _ _ _ => true
  | .ori _ _ _ => true
  | .xori _ _ _ => true
  | .shli _ _ _ => true
  | .shri _ _ _ => true
  | .shai _ _ _ => true
  | .slti _ _ _ => true
  | .sltni _ _ _ => true
  | .lih _ _ => true
  | .addpc _ _ => true
  | .imm _ _ tail => tail != .notBearing
  | .bEq _ _ _ => true
  | .bNe _ _ _ => true
  | .bLt _ _ _ => true
  | .bGe _ _ _ => true
  | .bLtn _ _ _ => true
  | .bGen _ _ _ => true
  | .bp _ _ _ => true
  | .j _ => true
  | .call _ _ => true
  | .callr _ _ argc => argcOk argc
  | .callrV _ _ argc => argcOk argc
  | .jr _ => true
  | .ret _ => true
  | .trap _ => true
  | .brk => true
  | .eret => true
  | .isync => true
  | .yield => true
  | .halt => true
  | .waite => true
  | .ldB _ _ sem scope _ => loadSemOk sem scope
  | .ldH _ _ sem scope _ => loadSemOk sem scope
  | .ldW _ _ sem scope _ => loadSemOk sem scope
  | .ldD _ _ sem scope _ => loadSemOk sem scope
  | .ldNb _ _ sem scope _ => loadSemOk sem scope
  | .ldNh _ _ sem scope _ => loadSemOk sem scope
  | .ldNw _ _ sem scope _ => loadSemOk sem scope
  | .ldQ t _ sem scope _ => loadSemOk sem scope && pairOk t && t != 0
  | .stB _ _ sem scope _ => storeSemOk sem scope
  | .stH _ _ sem scope _ => storeSemOk sem scope
  | .stW _ _ sem scope _ => storeSemOk sem scope
  | .stD _ _ sem scope _ => storeSemOk sem scope
  | .stQ t _ sem scope _ => storeSemOk sem scope && pairOk t && t != 0
  | .ldx d _ _ size sem scope => loadSemOk sem scope && (size != .q || (pairOk d && d != 0))
  | .stx d _ _ size sem scope => storeSemOk sem scope && storeSizeOk size && (size != .q || (pairOk d && d != 0))
  | .pf _ _ _ => true
  | .atAAdd _ _ _ _ _ => true
  | .atAAnd _ _ _ _ _ => true
  | .atAOr _ _ _ _ _ => true
  | .atAXor _ _ _ _ _ => true
  | .atASwap _ _ _ _ _ => true
  | .atAMin _ _ _ _ _ => true
  | .atAMax _ _ _ _ _ => true
  | .atAFadd _ _ _ _ _ => true
  | .atWAdd _ _ _ _ _ => true
  | .atWAnd _ _ _ _ _ => true
  | .atWOr _ _ _ _ _ => true
  | .atWXor _ _ _ _ _ => true
  | .atWSwap _ _ _ _ _ => true
  | .atWMin _ _ _ _ _ => true
  | .atWMax _ _ _ _ _ => true
  | .atWFadd _ _ _ _ _ => true
  | .atNMinn _ _ _ _ _ => true
  | .atNMaxn _ _ _ _ _ => true
  | .atNIncw _ _ _ _ _ => true
  | .atNDecw _ _ _ _ _ => true
  | .atNFmin _ _ _ _ _ => true
  | .atNFmax _ _ _ _ _ => true
  | .atCas _ _ _ _ _ => true
  | .atCas2 d _ b _ _ => pairOk d && pairOk b && d != 0 && b != 0
  | .fence _ _ => true
  | .waitv _ _ _ sem scope => loadSemOk sem scope
  | .waitvW _ _ _ sem scope => loadSemOk sem scope
  | .barInit _ _ => true
  | .barArrive _ _ => true
  | .barWait _ _ _ => true
  | .barExpect _ _ => true
  | .barArrivex _ _ _ => true
  | .barLvl _ => true
  | .gang g => g != 0
  | .gangLeave => true
  | .msg _ _ _ => true
  | .hbind _ _ => true
  | .tend => true
  | .spawn _ _ => true
  | .enq _ _ _ => true
  | .deq _ _ => true
  | .tlAlloc _ _ => true
  | .tlFree _ => true
  | .tlState _ _ => true
  | .tlWait _ _ => true
  | .fAdd _ _ _ _ => true
  | .fSub _ _ _ _ => true
  | .fMul _ _ _ _ => true
  | .fDiv _ _ _ _ => true
  | .fSqrt _ _ _ => true
  | .fMin _ _ _ _ => true
  | .fMax _ _ _ _ => true
  | .fClass _ _ _ => true
  | .fCeq _ _ _ _ => true
  | .fClt _ _ _ _ => true
  | .fCle _ _ _ _ => true
  | .fFma _ _ _ _ _ => true
  | .fCvt _ _ frm tgt => cvtOk frm tgt
  | .vLd _ _ _ sem scope _ => loadSemOk sem scope
  | .vSt _ _ _ sem scope _ => storeSemOk sem scope
  | .vLdx _ _ _ _ _ => true
  | .vStx _ _ _ _ _ => true
  | .vAdd _ _ _ _ _ => true
  | .vSub _ _ _ _ _ => true
  | .vMul _ _ _ _ _ => true
  | .vMin _ _ _ _ _ => true
  | .vMax _ _ _ _ _ => true
  | .vAnd _ _ _ _ ty => !ty.isFloat
  | .vOr _ _ _ _ ty => !ty.isFloat
  | .vXor _ _ _ _ ty => !ty.isFloat
  | .vShl _ _ _ _ ty => !ty.isFloat
  | .vShr _ _ _ _ ty => !ty.isFloat
  | .vSha _ _ _ _ ty => !ty.isFloat
  | .vAbs _ _ _ ty => ty != .n32
  | .vNeg _ _ _ _ => true
  | .vDiv _ _ _ _ ty => ty.isFloat
  | .vMulh _ _ _ _ ty => !ty.isFloat
  | .vFma _ _ _ _ _ _ => true
  | .vCmp _ _ _ _ _ _ => true
  | .vCvt _ _ _ frm tgt => frm != tgt
  | .vRedAdd _ _ _ _ => true
  | .vRedMin _ _ _ _ => true
  | .vRedMax _ _ _ _ => true
  | .vRedAnd _ _ _ ty => !ty.isFloat
  | .vRedOr _ _ _ ty => !ty.isFloat
  | .vRedXor _ _ _ ty => !ty.isFloat
  | .vPerm _ _ _ _ _ => true
  | .vMovBcst _ _ _ => true
  | .vMovMovs _ _ idx w => idxOk w idx
  | .vMovIns _ _ idx w => idxOk w idx
  | .vMovP2s _ _ => true
  | .vMovS2p _ _ => true
  | .vSfRcp _ _ _ => true
  | .vSfRsqrt _ _ _ => true
  | .vSfExp2 _ _ _ => true
  | .vSfLog2 _ _ _ => true
  | .mxCfg _ _ => true
  | .mxZero _ => true
  | .mxMma _ _ _ => true
  | .mxDrain _ => true
  | .mxWait => true
  | .sgLoad _ _ => true
  | .sgCommit _ => true
  | .sgStream _ _ => true
  | .sgSbar _ => true
  | .sgWait _ _ _ => true
  | .sgFreeze _ => true
  | .sgThaw _ => true
  | .plAnd _ _ _ => true
  | .plOr _ _ _ => true
  | .plXor _ _ _ => true
  | .plAndn _ _ _ => true
  | .plNot _ _ => true
  | .plSet _ => true
  | .plClr _ => true
  | .pcmp _ _ _ _ => true
  | .ghPush _ _ _ _ => true
  | .ghAdd _ _ _ _ => true
  | .ghSet _ _ _ _ => true
  | .ghDone _ => true
  | .ghSum _ _ => true
  | .ghCfg _ _ => true
  | .ghDump _ _ _ => true
  | .tkOpen _ _ => true
  | .tkRelease _ => true
  | .tkArm _ _ => true
  | .tkDisarm _ => true
  | .tkBudget _ _ => true
  | .tkCommit _ _ vb => vb.val < 32
  | .tkPeek _ _ vb => vb.val < 32
  | .tkRead _ _ _ => true
  | .sysr _ _ => true
  | .sysw _ _ => true
  | .sysx _ _ _ => true
  | .xlInvVa _ => true
  | .xlInvCtx => true
  | .xlSync => true
  | .sigNop _ _ _ _ => true
  | .sigMov _ _ _ _ => true
  | .sigDup _ _ _ _ => true
  | .sigEmit _ _ _ _ => true
  | .sigAdd _ _ _ _ => true
  | .sigSub _ _ _ _ => true
  | .sigMul _ _ _ _ => true
  | .sigFma _ _ _ _ => true
  | .sigMin _ _ _ _ => true
  | .sigMax _ _ _ _ => true
  | .sigAnd _ _ _ _ => true
  | .sigOr _ _ _ _ => true
  | .sigXor _ _ _ _ => true
  | .sigShl _ _ _ _ => true
  | .sigShr _ _ _ _ => true
  | .sigSha _ _ _ _ => true
  | .sigPcmp _ _ _ _ => true
  | .sigSel _ _ _ _ => true
  | .sigSteer _ _ _ _ => true
  | .sigGate _ _ _ _ => true
  | .sigMerge _ _ _ _ => true
  | .sigIter _ _ _ _ => true
  | .sigAcc _ _ _ _ => true
  | .sigNzsend _ _ _ _ => true
  | .sigSink _ _ _ _ => true
  | .sigCvt _ _ _ _ => true
  | .sigLd _ _ _ _ => true
  | .sigSt _ _ _ _ => true
  | .sigAtAdd _ _ _ _ => true
  | .sigAtMin _ _ _ _ => true
  | .sigAtMax _ _ _ _ => true
  | .sigAtOr _ _ _ _ => true
  | .sigAtAnd _ _ _ _ => true
  | .sigAtXor _ _ _ _ => true
  | .sigAtSwap _ _ _ _ => true
  | .sigAtCas _ _ _ _ => true
  | .sigAtTas _ _ _ _ => true
  | .sigCall _ _ _ _ => true
  | .sigRet _ _ _ _ => true
  | .sigRed _ _ _ _ => true
  | .sigDiv _ _ _ _ => true
  | .sigSqrt _ _ _ _ => true
  | .nBeatRuleBeat _ _ _ _ => true
  | .lqpush _ _ _ => true
  | .lqctlAbort _ _ => true
  | .lqstatClear _ _ _ => true
  | .registerWrite _ _ => true
  | .bankSwitchDone _ => true
  | .rampRateUpdate _ _ => true
  | .launchHead _ _ => true
  | .launchWaitSatisfied _ _ => true
  | .kind3WaitPoll _ _ => true
  | .heapBind _ => true
  | .groupStart _ _ => true
  | .widStart _ _ => true
  | .handlerStart _ => true
  | .callbackTaskStart _ => true
  | .heapDispatch _ => true
  | .launchComplete _ => true
  | .packetArrival _ => true
  | .packetDeferredAccept _ _ => true
  | .fifoPopComplete _ => true
  | .fifoPushComplete _ => true
  | .tileReady _ _ => true
  | .tileEmpty _ _ => true
  | .waitvWake _ => true
  | .waitlimitExpiry _ => true
  | .waiteWake _ => true
  | .barWaitReturn _ => true
  | .copy _ => true
  | .fill _ => true
  | .gather _ => true
  | .scatter _ => true
  | .collate _ => true
  | .allred _ _ => true
  | .imageLoadComplete _ _ => true
  | .commitBroadcast _ _ => true
  | .invocationStart _ _ => true
  | .loaderReadResponse _ _ _ => true
  | .storerAccept _ _ _ => true
  | .gutterDrop _ _ _ _ => true
  | .invocationEnd _ _ => true
  | .drainBoundExpiry _ _ => true
  | .crossingCall _ _ => true
  | .activationEnqueue _ _ => true
  | .callbackPacketSend _ _ => true
  | .returnDelivery _ => true
  | .jointCfg _ _ => true
  | .jointZero _ _ => true
  | .jointMma _ _ => true
  | .jointDrain _ _ => true
  | .terminationWave _ => true
  | .heapAbortUnbind _ => true
  | .gets _ _ _ => true
  | .getm _ _ _ => true
  | .upgrade _ _ _ => true
  | .putm _ _ => true
  | .puto _ _ => true
  | .fwdGets _ _ => true
  | .fwdGetm _ _ => true
  | .inv _ _ => true
  | .l2Eviction _ _ => true
  | .homeTagEviction _ => true
  | .snpdata _ => true
  | .snpinv _ => true
  | .snpcur _ => true
  | .hostCxlMemAccess _ _ => true
  | .peerAccess _ _ _ => true
  | .kind4StoreFailure _ _ => true
  | .poisonDetect _ _ => true
  | .zoreyLinkDown _ => true
  | .hostPortTrainingLoss _ => true
  | .deviceStart _ => true
  | .createContext _ => true
  | .destroyContext => true
  | .switchOut => true
  | .switchIn _ _ => true
  | .supervisorBoundExpiry _ => true
  | .preemptionBoundExpiry _ _ => true
  | .setRegionTable _ => true
  | .attest => true
  | .repair _ => true
  | .updateMainFirmware _ _ => true
  | .unknownCommand => true
  | .debugHaltThread _ => true
  | .debugResumeThread _ _ => true
  | .debugReadThread _ _ => true
  | .debugWriteThread _ _ _ => true
  | .debugWriteStepState _ _ _ => true
  | .debugFreezeRegion _ _ => true
  | .debugStepRegion _ _ => true
  | .debugThawRegion _ _ => true
  | .debugReadRegion _ _ _ => true
  | .debugWriteRegion _ _ _ _ => true
  | .illegalInstruction => true
  | .instructionFetchFault => true
  | .tokenHop _ _ _ _ _ => true
  | .qflagsUpdate _ _ => true
  | .powerFail _ _ => true
  | .mbdoorWriteWhileBusy => true

end Sys2Proof
end

