-- ==== Sys2Proof/Decode.lean ====
section
/-! DEFINITION. The decoder of quire words (R277 to R290), total on any bytes and refusing by name, and the encoder
of well-formed instructions, both from the encoding tables of the spec. -/

namespace Sys2Proof

/-- Why a word is no instruction (R279, R281). Each of these makes the issuing thread raise illegal instruction. -/
inductive Reject where
  /-- Fewer bytes than the instruction has. -/
  | truncated
  /-- OP is unassigned (R281). -/
  | unassignedOp
  /-- The function or mode code is unassigned. -/
  | unassignedFn
  /-- A field that must be zero is not. -/
  | reservedField
  /-- The combination of fields is illegal (`Instr.wellFormed`). -/
  | illFormed
deriving DecidableEq, Repr

/-- Bits lo + n - 1 down to lo of a word (R4). -/
def fld (w lo n : Nat) : Nat := w / 2 ^ lo % 2 ^ n

/-- The scalar register whose field starts at lo (R278). -/
def sreg (w lo : Nat) : SReg := Fin.ofNat 64 (w / 2 ^ lo)

/-- The vector register whose field starts at lo (R278). -/
def vreg (w lo : Nat) : VReg := Fin.ofNat 32 (w / 2 ^ lo)

/-- The predicate register whose field starts at lo (R278). -/
def preg (w lo : Nat) : PReg := Fin.ofNat 8 (w / 2 ^ lo)

/-- The code of Sem in an instruction word (R176). -/
def Sem.code : Sem → Nat
  | .plain => 0
  | .acquire => 1
  | .release => 2
  | .acqRel => 3

/-- The Sem of a code, the last name for the last code (R176). -/
def Sem.ofCode : Nat → Sem
  | 0 => .plain
  | 1 => .acquire
  | 2 => .release
  | _ => .acqRel

/-- The code of Scope in an instruction word (R176). -/
def Scope.code : Scope → Nat
  | .thread => 0
  | .quire => 1
  | .device => 2
  | .system => 3

/-- The Scope of a code, the last name for the last code (R176). -/
def Scope.ofCode : Nat → Scope
  | 0 => .thread
  | 1 => .quire
  | 2 => .device
  | _ => .system

/-- The code of XSize in an instruction word (R284). -/
def XSize.code : XSize → Nat
  | .b => 0
  | .h => 1
  | .w => 2
  | .d => 3
  | .nb => 4
  | .nh => 5
  | .nw => 6
  | .q => 7

/-- The XSize of a code, the last name for the last code (R284). -/
def XSize.ofCode : Nat → XSize
  | 0 => .b
  | 1 => .h
  | 2 => .w
  | 3 => .d
  | 4 => .nb
  | 5 => .nh
  | 6 => .nw
  | _ => .q

/-- The code of FPrec in an instruction word (R286). -/
def FPrec.code : FPrec → Nat
  | .f64 => 0
  | .f32 => 1

/-- The FPrec of a code, the last name for the last code (R286). -/
def FPrec.ofCode : Nat → FPrec
  | 0 => .f64
  | _ => .f32

/-- The code of CvtType in an instruction word (R286). -/
def CvtType.code : CvtType → Nat
  | .f64 => 0
  | .f32 => 1
  | .f16 => 2
  | .bf16 => 3
  | .i64 => 4
  | .n64 => 5
  | .i32 => 6
  | .n32 => 7

/-- The CvtType of a code, the last name for the last code (R286). -/
def CvtType.ofCode : Nat → CvtType
  | 0 => .f64
  | 1 => .f32
  | 2 => .f16
  | 3 => .bf16
  | 4 => .i64
  | 5 => .n64
  | 6 => .i32
  | _ => .n32

/-- The code of VType in an instruction word (R287). -/
def VType.code : VType → Nat
  | .i8 => 0
  | .i16 => 1
  | .i32 => 2
  | .i64 => 3
  | .n32 => 4
  | .bf16 => 5
  | .f32 => 6
  | .f64 => 7

/-- The VType of a code, the last name for the last code (R287). -/
def VType.ofCode : Nat → VType
  | 0 => .i8
  | 1 => .i16
  | 2 => .i32
  | 3 => .i64
  | 4 => .n32
  | 5 => .bf16
  | 6 => .f32
  | _ => .f64

/-- The code of FmaType in an instruction word (R147). -/
def FmaType.code : FmaType → Nat
  | .bf16f32 => 0
  | .f32 => 1
  | .f64 => 2
  | .i32 => 3

/-- The FmaType of a code, the last name for the last code (R147). -/
def FmaType.ofCode : Nat → FmaType
  | 0 => .bf16f32
  | 1 => .f32
  | 2 => .f64
  | _ => .i32

/-- The code of EWidth in an instruction word (R286, R289). -/
def EWidth.code : EWidth → Nat
  | .w8 => 0
  | .w16 => 1
  | .w32 => 2
  | .w64 => 3

/-- The EWidth of a code, the last name for the last code (R286, R289). -/
def EWidth.ofCode : Nat → EWidth
  | 0 => .w8
  | 1 => .w16
  | 2 => .w32
  | _ => .w64

/-- The code of BpMode in an instruction word (R283). -/
def BpMode.code : BpMode → Nat
  | .any => 0
  | .all => 1
  | .none => 2
  | .notall => 3

/-- The BpMode of a code, none where the code is unassigned (R283). -/
def BpMode.ofCode? : Nat → Option BpMode
  | 0 => some .any
  | 1 => some .all
  | 2 => some .none
  | 3 => some .notall
  | _ => Option.none

/-- The code of FenceKind in an instruction word (R181). -/
def FenceKind.code : FenceKind → Nat
  | .acq => 0
  | .rel => 1
  | .ar => 2
  | .full => 3

/-- The FenceKind of a code, none where the code is unassigned (R181). -/
def FenceKind.ofCode? : Nat → Option FenceKind
  | 0 => some .acq
  | 1 => some .rel
  | 2 => some .ar
  | 3 => some .full
  | _ => Option.none

/-- The code of Engine in an instruction word (R60). -/
def Engine.code : Engine → Nat
  | .copy => 0
  | .gather => 1
  | .collective => 2

/-- The Engine of a code, none where the code is unassigned (R60). -/
def Engine.ofCode? : Nat → Option Engine
  | 0 => some .copy
  | 1 => some .gather
  | 2 => some .collective
  | _ => Option.none

/-- The code of VCond in an instruction word (R288). -/
def VCond.code : VCond → Nat
  | .eq => 0
  | .ne => 1
  | .lt => 2
  | .le => 3
  | .gt => 4
  | .ge => 5

/-- The VCond of a code, none where the code is unassigned (R288). -/
def VCond.ofCode? : Nat → Option VCond
  | 0 => some .eq
  | 1 => some .ne
  | 2 => some .lt
  | 3 => some .le
  | 4 => some .gt
  | 5 => some .ge
  | _ => Option.none

/-- The code of PCond in an instruction word (R290). -/
def PCond.code : PCond → Nat
  | .eq => 0
  | .ne => 1
  | .lt => 2
  | .ge => 3
  | .ltn => 4
  | .gen => 5

/-- The PCond of a code, none where the code is unassigned (R290). -/
def PCond.ofCode? : Nat → Option PCond
  | 0 => some .eq
  | 1 => some .ne
  | 2 => some .lt
  | 3 => some .ge
  | 4 => some .ltn
  | 5 => some .gen
  | _ => Option.none

/-- The functions of OP 0x00 by their code. -/
def decodeIntaBy (fn w : Nat) : Except Reject Instr :=
  match fn with
  | 0 => .ok (.add (sreg w 7) (sreg w 13) (sreg w 19))
  | 1 => .ok (.sub (sreg w 7) (sreg w 13) (sreg w 19))
  | 2 => .ok (.and (sreg w 7) (sreg w 13) (sreg w 19))
  | 3 => .ok (.or (sreg w 7) (sreg w 13) (sreg w 19))
  | 4 => .ok (.xor (sreg w 7) (sreg w 13) (sreg w 19))
  | 5 => .ok (.andn (sreg w 7) (sreg w 13) (sreg w 19))
  | 6 => .ok (.shl (sreg w 7) (sreg w 13) (sreg w 19))
  | 7 => .ok (.shr (sreg w 7) (sreg w 13) (sreg w 19))
  | 8 => .ok (.sha (sreg w 7) (sreg w 13) (sreg w 19))
  | 9 => .ok (.slt (sreg w 7) (sreg w 13) (sreg w 19))
  | 10 => .ok (.sltn (sreg w 7) (sreg w 13) (sreg w 19))
  | 11 => .ok (.min (sreg w 7) (sreg w 13) (sreg w 19))
  | 12 => .ok (.max (sreg w 7) (sreg w 13) (sreg w 19))
  | 13 => .ok (.minn (sreg w 7) (sreg w 13) (sreg w 19))
  | 14 => .ok (.maxn (sreg w 7) (sreg w 13) (sreg w 19))
  | 15 => if fld w 19 6 == 0 then .ok (.clz (sreg w 7) (sreg w 13)) else .error .reservedField
  | 16 => if fld w 19 6 == 0 then .ok (.ctz (sreg w 7) (sreg w 13)) else .error .reservedField
  | 17 => if fld w 19 6 == 0 then .ok (.popc (sreg w 7) (sreg w 13)) else .error .reservedField
  | 18 => if fld w 19 6 == 0 then .ok (.brev (sreg w 7) (sreg w 13)) else .error .reservedField
  | 19 => if fld w 19 6 == 0 then .ok (.bswap (sreg w 7) (sreg w 13)) else .error .reservedField
  | 20 => if fld w 22 3 == 0 then .ok (.sel (sreg w 7) (sreg w 13) (preg w 19)) else .error .reservedField
  | 64 => .ok (.addW (sreg w 7) (sreg w 13) (sreg w 19))
  | 65 => .ok (.subW (sreg w 7) (sreg w 13) (sreg w 19))
  | 66 => .ok (.andW (sreg w 7) (sreg w 13) (sreg w 19))
  | 67 => .ok (.orW (sreg w 7) (sreg w 13) (sreg w 19))
  | 68 => .ok (.xorW (sreg w 7) (sreg w 13) (sreg w 19))
  | 69 => .ok (.andnW (sreg w 7) (sreg w 13) (sreg w 19))
  | 70 => .ok (.shlW (sreg w 7) (sreg w 13) (sreg w 19))
  | 71 => .ok (.shrW (sreg w 7) (sreg w 13) (sreg w 19))
  | 72 => .ok (.shaW (sreg w 7) (sreg w 13) (sreg w 19))
  | 73 => .ok (.sltW (sreg w 7) (sreg w 13) (sreg w 19))
  | 74 => .ok (.sltnW (sreg w 7) (sreg w 13) (sreg w 19))
  | 75 => .ok (.minW (sreg w 7) (sreg w 13) (sreg w 19))
  | 76 => .ok (.maxW (sreg w 7) (sreg w 13) (sreg w 19))
  | 77 => .ok (.minnW (sreg w 7) (sreg w 13) (sreg w 19))
  | 78 => .ok (.maxnW (sreg w 7) (sreg w 13) (sreg w 19))
  | _ => .error .unassignedFn

/-- OP 0x00. -/
def decodeInta (w : Nat) : Except Reject Instr := decodeIntaBy (fld w 25 7) w

/-- The functions of OP 0x01 by their code. -/
def decodeIntmBy (fn w : Nat) : Except Reject Instr :=
  match fn with
  | 0 => .ok (.mul (sreg w 7) (sreg w 13) (sreg w 19))
  | 1 => .ok (.mulh (sreg w 7) (sreg w 13) (sreg w 19))
  | 2 => .ok (.mulhn (sreg w 7) (sreg w 13) (sreg w 19))
  | 3 => .ok (.mulhsn (sreg w 7) (sreg w 13) (sreg w 19))
  | 4 => .ok (.div (sreg w 7) (sreg w 13) (sreg w 19))
  | 5 => .ok (.divn (sreg w 7) (sreg w 13) (sreg w 19))
  | 6 => .ok (.rem (sreg w 7) (sreg w 13) (sreg w 19))
  | 7 => .ok (.remn (sreg w 7) (sreg w 13) (sreg w 19))
  | 64 => .ok (.mulW (sreg w 7) (sreg w 13) (sreg w 19))
  | 68 => .ok (.divW (sreg w 7) (sreg w 13) (sreg w 19))
  | 69 => .ok (.divnW (sreg w 7) (sreg w 13) (sreg w 19))
  | 70 => .ok (.remW (sreg w 7) (sreg w 13) (sreg w 19))
  | 71 => .ok (.remnW (sreg w 7) (sreg w 13) (sreg w 19))
  | _ => .error .unassignedFn

/-- OP 0x01. -/
def decodeIntm (w : Nat) : Except Reject Instr := decodeIntmBy (fld w 25 7) w

/-- The functions of OP 0x19 by their code. -/
def decodeCallrBy (fn w : Nat) : Except Reject Instr :=
  match fn with
  | 0 => if fld w 19 6 == 0 && fld w 30 2 == 0 then .ok (.callr (sreg w 7) (sreg w 13) (Fin.ofNat 16 (w / 2 ^ 25))) else .error .reservedField
  | _ => if fld w 19 6 == 0 && fld w 30 2 == 0 then .ok (.callrV (sreg w 7) (sreg w 13) (Fin.ofNat 16 (w / 2 ^ 25))) else .error .reservedField

/-- OP 0x19. -/
def decodeCallr (w : Nat) : Except Reject Instr := decodeCallrBy (fld w 29 1) w

/-- The functions of OP 0x1C by their code. -/
def decodeSysBy (fn w : Nat) : Except Reject Instr :=
  match fn with
  | 0 => if fld w 7 12 == 0 then .ok (.trap (BitVec.ofNat 6 (w / 2 ^ 19))) else .error .reservedField
  | 1 => if fld w 7 18 == 0 then .ok (.brk) else .error .reservedField
  | 2 => if fld w 7 18 == 0 then .ok (.eret) else .error .reservedField
  | 3 => if fld w 7 18 == 0 then .ok (.isync) else .error .reservedField
  | 4 => if fld w 7 18 == 0 then .ok (.yield) else .error .reservedField
  | 5 => if fld w 7 18 == 0 then .ok (.halt) else .error .reservedField
  | 6 => if fld w 7 18 == 0 then .ok (.waite) else .error .reservedField
  | _ => .error .unassignedFn

/-- OP 0x1C. -/
def decodeSys (w : Nat) : Except Reject Instr := decodeSysBy (fld w 25 7) w

/-- The functions of OP 0x30 by their code. -/
def decodeAtABy (fn w : Nat) : Except Reject Instr :=
  match fn with
  | 0 => .ok (.atAAdd (sreg w 7) (sreg w 13) (sreg w 19) (Sem.ofCode (fld w 25 2)) (Scope.ofCode (fld w 27 2)))
  | 1 => .ok (.atAAnd (sreg w 7) (sreg w 13) (sreg w 19) (Sem.ofCode (fld w 25 2)) (Scope.ofCode (fld w 27 2)))
  | 2 => .ok (.atAOr (sreg w 7) (sreg w 13) (sreg w 19) (Sem.ofCode (fld w 25 2)) (Scope.ofCode (fld w 27 2)))
  | 3 => .ok (.atAXor (sreg w 7) (sreg w 13) (sreg w 19) (Sem.ofCode (fld w 25 2)) (Scope.ofCode (fld w 27 2)))
  | 4 => .ok (.atASwap (sreg w 7) (sreg w 13) (sreg w 19) (Sem.ofCode (fld w 25 2)) (Scope.ofCode (fld w 27 2)))
  | 5 => .ok (.atAMin (sreg w 7) (sreg w 13) (sreg w 19) (Sem.ofCode (fld w 25 2)) (Scope.ofCode (fld w 27 2)))
  | 6 => .ok (.atAMax (sreg w 7) (sreg w 13) (sreg w 19) (Sem.ofCode (fld w 25 2)) (Scope.ofCode (fld w 27 2)))
  | _ => .ok (.atAFadd (sreg w 7) (sreg w 13) (sreg w 19) (Sem.ofCode (fld w 25 2)) (Scope.ofCode (fld w 27 2)))

/-- OP 0x30. -/
def decodeAtA (w : Nat) : Except Reject Instr := decodeAtABy (fld w 29 3) w

/-- The functions of OP 0x31 by their code. -/
def decodeAtWBy (fn w : Nat) : Except Reject Instr :=
  match fn with
  | 0 => .ok (.atWAdd (sreg w 7) (sreg w 13) (sreg w 19) (Sem.ofCode (fld w 25 2)) (Scope.ofCode (fld w 27 2)))
  | 1 => .ok (.atWAnd (sreg w 7) (sreg w 13) (sreg w 19) (Sem.ofCode (fld w 25 2)) (Scope.ofCode (fld w 27 2)))
  | 2 => .ok (.atWOr (sreg w 7) (sreg w 13) (sreg w 19) (Sem.ofCode (fld w 25 2)) (Scope.ofCode (fld w 27 2)))
  | 3 => .ok (.atWXor (sreg w 7) (sreg w 13) (sreg w 19) (Sem.ofCode (fld w 25 2)) (Scope.ofCode (fld w 27 2)))
  | 4 => .ok (.atWSwap (sreg w 7) (sreg w 13) (sreg w 19) (Sem.ofCode (fld w 25 2)) (Scope.ofCode (fld w 27 2)))
  | 5 => .ok (.atWMin (sreg w 7) (sreg w 13) (sreg w 19) (Sem.ofCode (fld w 25 2)) (Scope.ofCode (fld w 27 2)))
  | 6 => .ok (.atWMax (sreg w 7) (sreg w 13) (sreg w 19) (Sem.ofCode (fld w 25 2)) (Scope.ofCode (fld w 27 2)))
  | _ => .ok (.atWFadd (sreg w 7) (sreg w 13) (sreg w 19) (Sem.ofCode (fld w 25 2)) (Scope.ofCode (fld w 27 2)))

/-- OP 0x31. -/
def decodeAtW (w : Nat) : Except Reject Instr := decodeAtWBy (fld w 29 3) w

/-- The functions of OP 0x32 by their code. -/
def decodeAtNBy (fn w : Nat) : Except Reject Instr :=
  match fn with
  | 0 => .ok (.atNMinn (sreg w 7) (sreg w 13) (sreg w 19) (Sem.ofCode (fld w 25 2)) (Scope.ofCode (fld w 27 2)))
  | 1 => .ok (.atNMaxn (sreg w 7) (sreg w 13) (sreg w 19) (Sem.ofCode (fld w 25 2)) (Scope.ofCode (fld w 27 2)))
  | 2 => .ok (.atNIncw (sreg w 7) (sreg w 13) (sreg w 19) (Sem.ofCode (fld w 25 2)) (Scope.ofCode (fld w 27 2)))
  | 3 => .ok (.atNDecw (sreg w 7) (sreg w 13) (sreg w 19) (Sem.ofCode (fld w 25 2)) (Scope.ofCode (fld w 27 2)))
  | 4 => .ok (.atNFmin (sreg w 7) (sreg w 13) (sreg w 19) (Sem.ofCode (fld w 25 2)) (Scope.ofCode (fld w 27 2)))
  | 5 => .ok (.atNFmax (sreg w 7) (sreg w 13) (sreg w 19) (Sem.ofCode (fld w 25 2)) (Scope.ofCode (fld w 27 2)))
  | _ => .error .unassignedFn

/-- OP 0x32. -/
def decodeAtN (w : Nat) : Except Reject Instr := decodeAtNBy (fld w 29 3) w

/-- The functions of OP 0x36 by their code. -/
def decodeWaitvBy (fn w : Nat) : Except Reject Instr :=
  match fn with
  | 0 => .ok (.waitv (sreg w 7) (sreg w 13) (sreg w 19) (Sem.ofCode (fld w 25 2)) (Scope.ofCode (fld w 27 2)))
  | 1 => .ok (.waitvW (sreg w 7) (sreg w 13) (sreg w 19) (Sem.ofCode (fld w 25 2)) (Scope.ofCode (fld w 27 2)))
  | _ => .error .unassignedFn

/-- OP 0x36. -/
def decodeWaitv (w : Nat) : Except Reject Instr := decodeWaitvBy (fld w 29 3) w

/-- The functions of OP 0x37 by their code. -/
def decodeBarBy (fn w : Nat) : Except Reject Instr :=
  match fn with
  | 0 => if fld w 7 6 == 0 then .ok (.barInit (sreg w 13) (sreg w 19)) else .error .reservedField
  | 1 => if fld w 19 6 == 0 then .ok (.barArrive (sreg w 7) (sreg w 13)) else .error .reservedField
  | 2 => .ok (.barWait (sreg w 7) (sreg w 13) (sreg w 19))
  | 3 => if fld w 7 6 == 0 then .ok (.barExpect (sreg w 13) (sreg w 19)) else .error .reservedField
  | 4 => .ok (.barArrivex (sreg w 7) (sreg w 13) (sreg w 19))
  | 5 => if fld w 7 12 == 0 then .ok (.barLvl (sreg w 19)) else .error .reservedField
  | _ => .error .unassignedFn

/-- OP 0x37. -/
def decodeBar (w : Nat) : Except Reject Instr := decodeBarBy (fld w 25 7) w

/-- OP 0x38 (R114): identifier 0 leaves the gang. -/
def decodeGang (w : Nat) : Except Reject Instr :=
  if fld w 7 12 == 0 && fld w 31 1 == 0 then
    if fld w 19 12 == 0 then .ok .gangLeave else .ok (.gang (Fin.ofNat 4096 (w / 2 ^ 19)))
  else .error .reservedField

/-- The functions of OP 0x3F by their code. -/
def decodeTlBy (fn w : Nat) : Except Reject Instr :=
  match fn with
  | 0 => if fld w 7 6 == 0 then .ok (.tlAlloc (sreg w 13) (sreg w 19)) else .error .reservedField
  | 1 => if fld w 7 6 == 0 && fld w 19 6 == 0 then .ok (.tlFree (sreg w 13)) else .error .reservedField
  | 2 => if fld w 19 6 == 0 then .ok (.tlState (sreg w 7) (sreg w 13)) else .error .reservedField
  | 3 => if fld w 7 6 == 0 then .ok (.tlWait (sreg w 13) (sreg w 19)) else .error .reservedField
  | _ => .error .unassignedFn

/-- OP 0x3F. -/
def decodeTl (w : Nat) : Except Reject Instr := decodeTlBy (fld w 25 7) w

/-- The functions of OP 0x40 by their code. -/
def decodeFaBy (fn w : Nat) : Except Reject Instr :=
  match fn with
  | 0 => .ok (.fAdd (sreg w 7) (sreg w 13) (sreg w 19) (FPrec.ofCode (fld w 31 1)))
  | 1 => .ok (.fSub (sreg w 7) (sreg w 13) (sreg w 19) (FPrec.ofCode (fld w 31 1)))
  | 2 => .ok (.fMul (sreg w 7) (sreg w 13) (sreg w 19) (FPrec.ofCode (fld w 31 1)))
  | 3 => .ok (.fDiv (sreg w 7) (sreg w 13) (sreg w 19) (FPrec.ofCode (fld w 31 1)))
  | 4 => if fld w 19 6 == 0 then .ok (.fSqrt (sreg w 7) (sreg w 13) (FPrec.ofCode (fld w 31 1))) else .error .reservedField
  | 5 => .ok (.fMin (sreg w 7) (sreg w 13) (sreg w 19) (FPrec.ofCode (fld w 31 1)))
  | 6 => .ok (.fMax (sreg w 7) (sreg w 13) (sreg w 19) (FPrec.ofCode (fld w 31 1)))
  | 7 => if fld w 19 6 == 0 then .ok (.fClass (sreg w 7) (sreg w 13) (FPrec.ofCode (fld w 31 1))) else .error .reservedField
  | 8 => .ok (.fCeq (sreg w 7) (sreg w 13) (sreg w 19) (FPrec.ofCode (fld w 31 1)))
  | 9 => .ok (.fClt (sreg w 7) (sreg w 13) (sreg w 19) (FPrec.ofCode (fld w 31 1)))
  | 10 => .ok (.fCle (sreg w 7) (sreg w 13) (sreg w 19) (FPrec.ofCode (fld w 31 1)))
  | _ => .error .unassignedFn

/-- OP 0x40. -/
def decodeFa (w : Nat) : Except Reject Instr := decodeFaBy (fld w 25 6) w

/-- The functions of OP 0x48 by their code. -/
def decodeVaBy (fn w : Nat) : Except Reject Instr :=
  match fn with
  | 0 => .ok (.vAdd (vreg w 7) (vreg w 12) (vreg w 17) (preg w 22) (VType.ofCode (fld w 25 3)))
  | 1 => .ok (.vSub (vreg w 7) (vreg w 12) (vreg w 17) (preg w 22) (VType.ofCode (fld w 25 3)))
  | 2 => .ok (.vMul (vreg w 7) (vreg w 12) (vreg w 17) (preg w 22) (VType.ofCode (fld w 25 3)))
  | 3 => .ok (.vMin (vreg w 7) (vreg w 12) (vreg w 17) (preg w 22) (VType.ofCode (fld w 25 3)))
  | 4 => .ok (.vMax (vreg w 7) (vreg w 12) (vreg w 17) (preg w 22) (VType.ofCode (fld w 25 3)))
  | 5 => .ok (.vAnd (vreg w 7) (vreg w 12) (vreg w 17) (preg w 22) (VType.ofCode (fld w 25 3)))
  | 6 => .ok (.vOr (vreg w 7) (vreg w 12) (vreg w 17) (preg w 22) (VType.ofCode (fld w 25 3)))
  | 7 => .ok (.vXor (vreg w 7) (vreg w 12) (vreg w 17) (preg w 22) (VType.ofCode (fld w 25 3)))
  | 8 => .ok (.vShl (vreg w 7) (vreg w 12) (vreg w 17) (preg w 22) (VType.ofCode (fld w 25 3)))
  | 9 => .ok (.vShr (vreg w 7) (vreg w 12) (vreg w 17) (preg w 22) (VType.ofCode (fld w 25 3)))
  | 10 => .ok (.vSha (vreg w 7) (vreg w 12) (vreg w 17) (preg w 22) (VType.ofCode (fld w 25 3)))
  | 11 => if fld w 17 5 == 0 then .ok (.vAbs (vreg w 7) (vreg w 12) (preg w 22) (VType.ofCode (fld w 25 3))) else .error .reservedField
  | 12 => if fld w 17 5 == 0 then .ok (.vNeg (vreg w 7) (vreg w 12) (preg w 22) (VType.ofCode (fld w 25 3))) else .error .reservedField
  | 13 => .ok (.vDiv (vreg w 7) (vreg w 12) (vreg w 17) (preg w 22) (VType.ofCode (fld w 25 3)))
  | 14 => .ok (.vMulh (vreg w 7) (vreg w 12) (vreg w 17) (preg w 22) (VType.ofCode (fld w 25 3)))
  | _ => .error .unassignedFn

/-- OP 0x48. -/
def decodeVa (w : Nat) : Except Reject Instr := decodeVaBy (fld w 28 4) w

/-- The functions of OP 0x4C by their code. -/
def decodeVredBy (fn w : Nat) : Except Reject Instr :=
  match fn with
  | 0 => if fld w 17 5 == 0 then .ok (.vRedAdd (vreg w 7) (vreg w 12) (preg w 22) (VType.ofCode (fld w 25 3))) else .error .reservedField
  | 1 => if fld w 17 5 == 0 then .ok (.vRedMin (vreg w 7) (vreg w 12) (preg w 22) (VType.ofCode (fld w 25 3))) else .error .reservedField
  | 2 => if fld w 17 5 == 0 then .ok (.vRedMax (vreg w 7) (vreg w 12) (preg w 22) (VType.ofCode (fld w 25 3))) else .error .reservedField
  | 3 => if fld w 17 5 == 0 then .ok (.vRedAnd (vreg w 7) (vreg w 12) (preg w 22) (VType.ofCode (fld w 25 3))) else .error .reservedField
  | 4 => if fld w 17 5 == 0 then .ok (.vRedOr (vreg w 7) (vreg w 12) (preg w 22) (VType.ofCode (fld w 25 3))) else .error .reservedField
  | 5 => if fld w 17 5 == 0 then .ok (.vRedXor (vreg w 7) (vreg w 12) (preg w 22) (VType.ofCode (fld w 25 3))) else .error .reservedField
  | _ => .error .unassignedFn

/-- OP 0x4C. -/
def decodeVred (w : Nat) : Except Reject Instr := decodeVredBy (fld w 28 4) w

/-- The functions of OP 0x4E by their code. -/
def decodeVmovBy (fn w : Nat) : Except Reject Instr :=
  match fn with
  | 0 => if fld w 18 6 == 0 && fld w 29 3 == 0 then .ok (.vMovBcst (vreg w 7) (sreg w 12) (EWidth.ofCode (fld w 27 2))) else .error .reservedField
  | 1 => if fld w 29 3 == 0 then .ok (.vMovMovs (vreg w 7) (sreg w 12) (Fin.ofNat 64 (w / 2 ^ 18)) (EWidth.ofCode (fld w 27 2))) else .error .reservedField
  | 2 => if fld w 29 3 == 0 then .ok (.vMovIns (vreg w 7) (sreg w 12) (Fin.ofNat 64 (w / 2 ^ 18)) (EWidth.ofCode (fld w 27 2))) else .error .reservedField
  | 3 => if fld w 10 2 == 0 && fld w 18 6 == 0 && fld w 27 5 == 0 then .ok (.vMovP2s (preg w 7) (sreg w 12)) else .error .reservedField
  | 4 => if fld w 10 2 == 0 && fld w 18 6 == 0 && fld w 27 5 == 0 then .ok (.vMovS2p (preg w 7) (sreg w 12)) else .error .reservedField
  | _ => .error .unassignedFn

/-- OP 0x4E. -/
def decodeVmov (w : Nat) : Except Reject Instr := decodeVmovBy (fld w 24 3) w

/-- The functions of OP 0x4F by their code. -/
def decodeVsfBy (fn w : Nat) : Except Reject Instr :=
  match fn with
  | 0 => if fld w 17 5 == 0 then .ok (.vSfRcp (vreg w 7) (vreg w 12) (preg w 22)) else .error .reservedField
  | 1 => if fld w 17 5 == 0 then .ok (.vSfRsqrt (vreg w 7) (vreg w 12) (preg w 22)) else .error .reservedField
  | 2 => if fld w 17 5 == 0 then .ok (.vSfExp2 (vreg w 7) (vreg w 12) (preg w 22)) else .error .reservedField
  | 3 => if fld w 17 5 == 0 then .ok (.vSfLog2 (vreg w 7) (vreg w 12) (preg w 22)) else .error .reservedField
  | _ => .error .unassignedFn

/-- OP 0x4F. -/
def decodeVsf (w : Nat) : Except Reject Instr := decodeVsfBy (fld w 25 7) w

/-- The functions of OP 0x50 by their code. -/
def decodeMxBy (fn w : Nat) : Except Reject Instr :=
  match fn with
  | 0 => if fld w 7 6 == 0 then .ok (.mxCfg (sreg w 13) (sreg w 19)) else .error .reservedField
  | 1 => if fld w 13 12 == 0 then .ok (.mxZero (sreg w 7)) else .error .reservedField
  | 2 => .ok (.mxMma (sreg w 7) (sreg w 13) (sreg w 19))
  | 3 => if fld w 13 12 == 0 then .ok (.mxDrain (sreg w 7)) else .error .reservedField
  | 4 => if fld w 7 18 == 0 then .ok (.mxWait) else .error .reservedField
  | _ => .error .unassignedFn

/-- OP 0x50. -/
def decodeMx (w : Nat) : Except Reject Instr := decodeMxBy (fld w 25 7) w

/-- The functions of OP 0x51 by their code. -/
def decodeSgBy (fn w : Nat) : Except Reject Instr :=
  match fn with
  | 0 => if fld w 7 6 == 0 then .ok (.sgLoad (sreg w 13) (sreg w 19)) else .error .reservedField
  | 1 => if fld w 7 6 == 0 && fld w 19 6 == 0 then .ok (.sgCommit (sreg w 13)) else .error .reservedField
  | 2 => if fld w 7 6 == 0 then .ok (.sgStream (sreg w 13) (sreg w 19)) else .error .reservedField
  | 3 => if fld w 7 6 == 0 && fld w 19 6 == 0 then .ok (.sgSbar (sreg w 13)) else .error .reservedField
  | 4 => .ok (.sgWait (sreg w 7) (sreg w 13) (sreg w 19))
  | 5 => if fld w 7 6 == 0 && fld w 19 6 == 0 then .ok (.sgFreeze (sreg w 13)) else .error .reservedField
  | 6 => if fld w 7 6 == 0 && fld w 19 6 == 0 then .ok (.sgThaw (sreg w 13)) else .error .reservedField
  | _ => .error .unassignedFn

/-- OP 0x51. -/
def decodeSg (w : Nat) : Except Reject Instr := decodeSgBy (fld w 25 7) w

/-- The functions of OP 0x52 by their code. -/
def decodePlBy (fn w : Nat) : Except Reject Instr :=
  match fn with
  | 0 => if fld w 19 13 == 0 then .ok (.plAnd (preg w 7) (preg w 10) (preg w 13)) else .error .reservedField
  | 1 => if fld w 19 13 == 0 then .ok (.plOr (preg w 7) (preg w 10) (preg w 13)) else .error .reservedField
  | 2 => if fld w 19 13 == 0 then .ok (.plXor (preg w 7) (preg w 10) (preg w 13)) else .error .reservedField
  | 3 => if fld w 19 13 == 0 then .ok (.plAndn (preg w 7) (preg w 10) (preg w 13)) else .error .reservedField
  | 4 => if fld w 13 3 == 0 && fld w 19 13 == 0 then .ok (.plNot (preg w 7) (preg w 10)) else .error .reservedField
  | 5 => if fld w 10 6 == 0 && fld w 19 13 == 0 then .ok (.plSet (preg w 7)) else .error .reservedField
  | 6 => if fld w 10 6 == 0 && fld w 19 13 == 0 then .ok (.plClr (preg w 7)) else .error .reservedField
  | _ => .error .unassignedFn

/-- OP 0x52. -/
def decodePl (w : Nat) : Except Reject Instr := decodePlBy (fld w 16 3) w

/-- The functions of OP 0x60 by their code. -/
def decodeGhBy (fn w : Nat) : Except Reject Instr :=
  match fn with
  | 0 => .ok (.ghPush (sreg w 7) (sreg w 13) (sreg w 19) (fld w 31 1 == 1))
  | 1 => .ok (.ghAdd (sreg w 7) (sreg w 13) (sreg w 19) (fld w 31 1 == 1))
  | 2 => .ok (.ghSet (sreg w 7) (sreg w 13) (sreg w 19) (fld w 31 1 == 1))
  | 3 => if fld w 7 18 == 0 then .ok (.ghDone (fld w 31 1 == 1)) else .error .reservedField
  | 4 => if fld w 19 6 == 0 && fld w 31 1 == 0 then .ok (.ghSum (sreg w 7) (sreg w 13)) else .error .reservedField
  | 5 => if fld w 7 6 == 0 && fld w 31 1 == 0 then .ok (.ghCfg (sreg w 13) (sreg w 19)) else .error .reservedField
  | 6 => if fld w 31 1 == 0 then .ok (.ghDump (sreg w 7) (sreg w 13) (sreg w 19)) else .error .reservedField
  | _ => .error .unassignedFn

/-- OP 0x60. -/
def decodeGh (w : Nat) : Except Reject Instr := decodeGhBy (fld w 25 6) w

/-- The functions of OP 0x61 by their code. -/
def decodeTkBy (fn w : Nat) : Except Reject Instr :=
  match fn with
  | 0 => if fld w 19 6 == 0 then .ok (.tkOpen (sreg w 7) (sreg w 13)) else .error .reservedField
  | 1 => if fld w 7 6 == 0 && fld w 19 6 == 0 then .ok (.tkRelease (sreg w 13)) else .error .reservedField
  | 2 => if fld w 7 6 == 0 then .ok (.tkArm (sreg w 13) (sreg w 19)) else .error .reservedField
  | 3 => if fld w 7 6 == 0 && fld w 19 6 == 0 then .ok (.tkDisarm (sreg w 13)) else .error .reservedField
  | 4 => if fld w 7 6 == 0 then .ok (.tkBudget (sreg w 13) (sreg w 19)) else .error .reservedField
  | 5 => .ok (.tkCommit (sreg w 7) (sreg w 13) (Fin.ofNat 64 (w / 2 ^ 19)))
  | 6 => .ok (.tkPeek (sreg w 7) (sreg w 13) (Fin.ofNat 64 (w / 2 ^ 19)))
  | 7 => .ok (.tkRead (sreg w 7) (sreg w 13) (sreg w 19))
  | _ => .error .unassignedFn

/-- OP 0x61. -/
def decodeTk (w : Nat) : Except Reject Instr := decodeTkBy (fld w 25 7) w

/-- The functions of OP 0x73 by their code. -/
def decodeXlBy (fn w : Nat) : Except Reject Instr :=
  match fn with
  | 0 => if fld w 7 6 == 0 && fld w 19 6 == 0 then .ok (.xlInvVa (sreg w 13)) else .error .reservedField
  | 1 => if fld w 7 18 == 0 then .ok (.xlInvCtx) else .error .reservedField
  | 2 => if fld w 7 18 == 0 then .ok (.xlSync) else .error .reservedField
  | _ => .error .unassignedFn

/-- OP 0x73. -/
def decodeXl (w : Nat) : Except Reject Instr := decodeXlBy (fld w 25 7) w

/-- The instructions of each OP (R281). IMM (0x7F) is no instruction alone. -/
def decodeOpBy (op w : Nat) : Except Reject Instr :=
  match op with
  | 0 => decodeInta w
  | 1 => decodeIntm w
  | 2 => .ok (.addi (sreg w 7) (sreg w 13) (BitVec.ofNat 13 (w / 2 ^ 19)))
  | 3 => .ok (.andi (sreg w 7) (sreg w 13) (BitVec.ofNat 13 (w / 2 ^ 19)))
  | 4 => .ok (.ori (sreg w 7) (sreg w 13) (BitVec.ofNat 13 (w / 2 ^ 19)))
  | 5 => .ok (.xori (sreg w 7) (sreg w 13) (BitVec.ofNat 13 (w / 2 ^ 19)))
  | 6 => if fld w 25 7 == 0 then .ok (.shli (sreg w 7) (sreg w 13) (BitVec.ofNat 6 (w / 2 ^ 19))) else .error .reservedField
  | 7 => if fld w 25 7 == 0 then .ok (.shri (sreg w 7) (sreg w 13) (BitVec.ofNat 6 (w / 2 ^ 19))) else .error .reservedField
  | 8 => if fld w 25 7 == 0 then .ok (.shai (sreg w 7) (sreg w 13) (BitVec.ofNat 6 (w / 2 ^ 19))) else .error .reservedField
  | 9 => .ok (.slti (sreg w 7) (sreg w 13) (BitVec.ofNat 13 (w / 2 ^ 19)))
  | 10 => .ok (.sltni (sreg w 7) (sreg w 13) (BitVec.ofNat 13 (w / 2 ^ 19)))
  | 11 => .ok (.lih (sreg w 7) (BitVec.ofNat 19 (w / 2 ^ 13)))
  | 12 => .ok (.addpc (sreg w 7) (BitVec.ofNat 19 (w / 2 ^ 13)))
  | 16 => .ok (.bEq (sreg w 7) (sreg w 13) (BitVec.ofNat 13 (w / 2 ^ 19)))
  | 17 => .ok (.bNe (sreg w 7) (sreg w 13) (BitVec.ofNat 13 (w / 2 ^ 19)))
  | 18 => .ok (.bLt (sreg w 7) (sreg w 13) (BitVec.ofNat 13 (w / 2 ^ 19)))
  | 19 => .ok (.bGe (sreg w 7) (sreg w 13) (BitVec.ofNat 13 (w / 2 ^ 19)))
  | 20 => .ok (.bLtn (sreg w 7) (sreg w 13) (BitVec.ofNat 13 (w / 2 ^ 19)))
  | 21 => .ok (.bGen (sreg w 7) (sreg w 13) (BitVec.ofNat 13 (w / 2 ^ 19)))
  | 22 => match BpMode.ofCode? (fld w 10 3) with | some mode => .ok (.bp (preg w 7) mode (BitVec.ofNat 19 (w / 2 ^ 13))) | none => .error .unassignedFn
  | 23 => if fld w 7 6 == 0 then .ok (.j (BitVec.ofNat 19 (w / 2 ^ 13))) else .error .reservedField
  | 24 => .ok (.call (sreg w 7) (BitVec.ofNat 19 (w / 2 ^ 13)))
  | 25 => decodeCallr w
  | 26 => if fld w 7 6 == 0 && fld w 19 13 == 0 then .ok (.jr (sreg w 13)) else .error .reservedField
  | 27 => if fld w 7 6 == 0 && fld w 19 13 == 0 then .ok (.ret (sreg w 13)) else .error .reservedField
  | 28 => decodeSys w
  | 32 => .ok (.ldB (sreg w 7) (sreg w 13) (Sem.ofCode (fld w 19 2)) (Scope.ofCode (fld w 21 2)) (BitVec.ofNat 9 (w / 2 ^ 23)))
  | 33 => .ok (.ldH (sreg w 7) (sreg w 13) (Sem.ofCode (fld w 19 2)) (Scope.ofCode (fld w 21 2)) (BitVec.ofNat 9 (w / 2 ^ 23)))
  | 34 => .ok (.ldW (sreg w 7) (sreg w 13) (Sem.ofCode (fld w 19 2)) (Scope.ofCode (fld w 21 2)) (BitVec.ofNat 9 (w / 2 ^ 23)))
  | 35 => .ok (.ldD (sreg w 7) (sreg w 13) (Sem.ofCode (fld w 19 2)) (Scope.ofCode (fld w 21 2)) (BitVec.ofNat 9 (w / 2 ^ 23)))
  | 36 => .ok (.ldNb (sreg w 7) (sreg w 13) (Sem.ofCode (fld w 19 2)) (Scope.ofCode (fld w 21 2)) (BitVec.ofNat 9 (w / 2 ^ 23)))
  | 37 => .ok (.ldNh (sreg w 7) (sreg w 13) (Sem.ofCode (fld w 19 2)) (Scope.ofCode (fld w 21 2)) (BitVec.ofNat 9 (w / 2 ^ 23)))
  | 38 => .ok (.ldNw (sreg w 7) (sreg w 13) (Sem.ofCode (fld w 19 2)) (Scope.ofCode (fld w 21 2)) (BitVec.ofNat 9 (w / 2 ^ 23)))
  | 39 => .ok (.ldQ (sreg w 7) (sreg w 13) (Sem.ofCode (fld w 19 2)) (Scope.ofCode (fld w 21 2)) (BitVec.ofNat 9 (w / 2 ^ 23)))
  | 40 => .ok (.stB (sreg w 7) (sreg w 13) (Sem.ofCode (fld w 19 2)) (Scope.ofCode (fld w 21 2)) (BitVec.ofNat 9 (w / 2 ^ 23)))
  | 41 => .ok (.stH (sreg w 7) (sreg w 13) (Sem.ofCode (fld w 19 2)) (Scope.ofCode (fld w 21 2)) (BitVec.ofNat 9 (w / 2 ^ 23)))
  | 42 => .ok (.stW (sreg w 7) (sreg w 13) (Sem.ofCode (fld w 19 2)) (Scope.ofCode (fld w 21 2)) (BitVec.ofNat 9 (w / 2 ^ 23)))
  | 43 => .ok (.stD (sreg w 7) (sreg w 13) (Sem.ofCode (fld w 19 2)) (Scope.ofCode (fld w 21 2)) (BitVec.ofNat 9 (w / 2 ^ 23)))
  | 44 => .ok (.stQ (sreg w 7) (sreg w 13) (Sem.ofCode (fld w 19 2)) (Scope.ofCode (fld w 21 2)) (BitVec.ofNat 9 (w / 2 ^ 23)))
  | 45 => .ok (.ldx (sreg w 7) (sreg w 13) (sreg w 19) (XSize.ofCode (fld w 25 3)) (Sem.ofCode (fld w 28 2)) (Scope.ofCode (fld w 30 2)))
  | 46 => .ok (.stx (sreg w 7) (sreg w 13) (sreg w 19) (XSize.ofCode (fld w 25 3)) (Sem.ofCode (fld w 28 2)) (Scope.ofCode (fld w 30 2)))
  | 47 => if fld w 9 4 == 0 && fld w 19 4 == 0 then .ok (.pf (BitVec.ofNat 2 (w / 2 ^ 7)) (sreg w 13) (BitVec.ofNat 9 (w / 2 ^ 23))) else .error .reservedField
  | 48 => decodeAtA w
  | 49 => decodeAtW w
  | 50 => decodeAtN w
  | 51 => if fld w 29 3 == 0 then .ok (.atCas (sreg w 7) (sreg w 13) (sreg w 19) (Sem.ofCode (fld w 25 2)) (Scope.ofCode (fld w 27 2))) else .error .reservedField
  | 52 => if fld w 29 3 == 0 then .ok (.atCas2 (sreg w 7) (sreg w 13) (sreg w 19) (Sem.ofCode (fld w 25 2)) (Scope.ofCode (fld w 27 2))) else .error .reservedField
  | 53 => if fld w 12 20 == 0 then match FenceKind.ofCode? (fld w 7 3) with | some kind => .ok (.fence kind (Scope.ofCode (fld w 10 2))) | none => .error .unassignedFn else .error .reservedField
  | 54 => decodeWaitv w
  | 55 => decodeBar w
  | 56 => decodeGang w
  | 57 => if fld w 25 7 == 0 then .ok (.msg (sreg w 7) (sreg w 13) (sreg w 19)) else .error .reservedField
  | 58 => if fld w 7 6 == 0 && fld w 25 7 == 0 then .ok (.hbind (sreg w 13) (sreg w 19)) else .error .reservedField
  | 59 => if fld w 7 25 == 0 then .ok (.tend) else .error .reservedField
  | 60 => if fld w 7 6 == 0 && fld w 19 6 == 0 && fld w 29 3 == 0 then .ok (.spawn (sreg w 13) (Fin.ofNat 16 (w / 2 ^ 25))) else .error .reservedField
  | 61 => if fld w 25 7 == 0 then match Engine.ofCode? (fld w 7 6) with | some e => .ok (.enq e (sreg w 13) (sreg w 19)) | none => .error .unassignedFn else .error .reservedField
  | 62 => if fld w 13 12 == 0 && fld w 27 5 == 0 then match Engine.ofCode? (fld w 25 2) with | some e => .ok (.deq (sreg w 7) e) | none => .error .unassignedFn else .error .reservedField
  | 63 => decodeTl w
  | 64 => decodeFa w
  | 65 => .ok (.fFma (sreg w 7) (sreg w 13) (sreg w 19) (sreg w 25) (FPrec.ofCode (fld w 31 1)))
  | 66 => if fld w 19 6 == 0 && fld w 31 1 == 0 then .ok (.fCvt (sreg w 7) (sreg w 13) (CvtType.ofCode (fld w 25 3)) (CvtType.ofCode (fld w 28 3))) else .error .reservedField
  | 68 => .ok (.vLd (vreg w 7) (sreg w 12) (preg w 18) (Sem.ofCode (fld w 21 2)) (Scope.ofCode (fld w 23 2)) (BitVec.ofNat 7 (w / 2 ^ 25)))
  | 69 => .ok (.vSt (vreg w 7) (sreg w 12) (preg w 18) (Sem.ofCode (fld w 21 2)) (Scope.ofCode (fld w 23 2)) (BitVec.ofNat 7 (w / 2 ^ 25)))
  | 70 => if fld w 17 5 == 0 then .ok (.vLdx (vreg w 7) (vreg w 12) (preg w 22) (sreg w 25) (fld w 31 1 == 1)) else .error .reservedField
  | 71 => if fld w 17 5 == 0 then .ok (.vStx (vreg w 7) (vreg w 12) (preg w 22) (sreg w 25) (fld w 31 1 == 1)) else .error .reservedField
  | 72 => decodeVa w
  | 73 => .ok (.vFma (vreg w 7) (vreg w 12) (vreg w 17) (vreg w 22) (preg w 27) (FmaType.ofCode (fld w 30 2)))
  | 74 => if fld w 10 2 == 0 && fld w 31 1 == 0 then match VCond.ofCode? (fld w 28 3) with | some cond => .ok (.vCmp (preg w 7) (vreg w 12) (vreg w 17) (preg w 22) (VType.ofCode (fld w 25 3)) cond) | none => .error .unassignedFn else .error .reservedField
  | 75 => if fld w 17 5 == 0 && fld w 31 1 == 0 then .ok (.vCvt (vreg w 7) (vreg w 12) (preg w 22) (VType.ofCode (fld w 25 3)) (VType.ofCode (fld w 28 3))) else .error .reservedField
  | 76 => decodeVred w
  | 77 => if fld w 27 5 == 0 then .ok (.vPerm (vreg w 7) (vreg w 12) (vreg w 17) (preg w 22) (EWidth.ofCode (fld w 25 2))) else .error .reservedField
  | 78 => decodeVmov w
  | 79 => decodeVsf w
  | 80 => decodeMx w
  | 81 => decodeSg w
  | 82 => decodePl w
  | 83 => if fld w 25 7 == 0 then match PCond.ofCode? (fld w 10 3) with | some cond => .ok (.pcmp (preg w 7) cond (sreg w 13) (sreg w 19)) | none => .error .unassignedFn else .error .reservedField
  | 96 => decodeGh w
  | 97 => decodeTk w
  | 112 => if fld w 13 6 == 0 && fld w 31 1 == 0 then .ok (.sysr (sreg w 7) (BitVec.ofNat 12 (w / 2 ^ 19))) else .error .reservedField
  | 113 => if fld w 7 6 == 0 && fld w 31 1 == 0 then .ok (.sysw (sreg w 13) (BitVec.ofNat 12 (w / 2 ^ 19))) else .error .reservedField
  | 114 => if fld w 31 1 == 0 then .ok (.sysx (sreg w 7) (sreg w 13) (BitVec.ofNat 12 (w / 2 ^ 19))) else .error .reservedField
  | 115 => decodeXl w
  | _ => .error .unassignedOp

/-- One word that stands alone, by the opcode map (R281). -/
def decodeOp (w : Nat) : Except Reject Instr := decodeOpBy (fld w 0 7) w

/-- One word that stands alone, well formed or refused (R279). -/
def decodeWord (w : Nat) : Except Reject Instr :=
  match decodeOp w with
  | .ok i => if i.wellFormed then .ok i else .error .illFormed
  | .error e => .error e

/-- What an instruction is as the tail of an IMM chain (R279, R280). -/
def ImmTail.ofInstr : Instr → ImmTail
  | .addi d a i => .addi d a i
  | .andi d a i => .andi d a i
  | .ori d a i => .ori d a i
  | .xori d a i => .xori d a i
  | .slti d a i => .slti d a i
  | .sltni d a i => .sltni d a i
  | _ => .notBearing

/-- The tail of an IMM chain from its word. -/
def immTail (w : Nat) : ImmTail :=
  match decodeWord w with
  | .ok i => ImmTail.ofInstr i
  | .error _ => .notBearing

/-- The little-endian 32-bit word at the head of a list of bytes (R3, R277). -/
def takeWord : List Byte → Option (Nat × List Byte)
  | b0 :: b1 :: b2 :: b3 :: rest => some (b0.toNat + b1.toNat * 256 + b2.toNat * 65536 + b3.toNat * 16777216, rest)
  | _ => none

/-- The instruction at the head of a list of bytes and the bytes behind it (R279). A chain whose tail is not
immediate-bearing, a third prefix among them, is `.imm` with `.notBearing`: it raises illegal instruction at the IMM (R280). -/
def decode (bs : List Byte) : Except Reject (Instr × List Byte) :=
  match takeWord bs with
  | none => .error .truncated
  | some (w0, r0) =>
    if fld w0 0 7 == 127 then
      match takeWord r0 with
      | none => .error .truncated
      | some (w1, r1) =>
        if fld w1 0 7 == 127 then
          match takeWord r1 with
          | none => .error .truncated
          | some (w2, r2) => .ok (.imm (BitVec.ofNat 25 (w0 / 2 ^ 7)) (some (BitVec.ofNat 25 (w1 / 2 ^ 7))) (immTail w2), r2)
        else .ok (.imm (BitVec.ofNat 25 (w0 / 2 ^ 7)) none (immTail w1), r1)
    else
      match decodeWord w0 with
      | .ok i => .ok (i, r0)
      | .error e => .error e

/-- The words of an instruction that is one word, as the encoding tables give them (R278 to R290); 0 for a chain and
for a step of the device, which have none. -/
def encodeWord : Instr → Nat
  | .add d a b => 0x00000000 + d.val * 128 + a.val * 8192 + b.val * 524288
  | .addW d a b => 0x80000000 + d.val * 128 + a.val * 8192 + b.val * 524288
  | .sub d a b => 0x02000000 + d.val * 128 + a.val * 8192 + b.val * 524288
  | .subW d a b => 0x82000000 + d.val * 128 + a.val * 8192 + b.val * 524288
  | .and d a b => 0x04000000 + d.val * 128 + a.val * 8192 + b.val * 524288
  | .andW d a b => 0x84000000 + d.val * 128 + a.val * 8192 + b.val * 524288
  | .or d a b => 0x06000000 + d.val * 128 + a.val * 8192 + b.val * 524288
  | .orW d a b => 0x86000000 + d.val * 128 + a.val * 8192 + b.val * 524288
  | .xor d a b => 0x08000000 + d.val * 128 + a.val * 8192 + b.val * 524288
  | .xorW d a b => 0x88000000 + d.val * 128 + a.val * 8192 + b.val * 524288
  | .andn d a b => 0x0A000000 + d.val * 128 + a.val * 8192 + b.val * 524288
  | .andnW d a b => 0x8A000000 + d.val * 128 + a.val * 8192 + b.val * 524288
  | .shl d a b => 0x0C000000 + d.val * 128 + a.val * 8192 + b.val * 524288
  | .shlW d a b => 0x8C000000 + d.val * 128 + a.val * 8192 + b.val * 524288
  | .shr d a b => 0x0E000000 + d.val * 128 + a.val * 8192 + b.val * 524288
  | .shrW d a b => 0x8E000000 + d.val * 128 + a.val * 8192 + b.val * 524288
  | .sha d a b => 0x10000000 + d.val * 128 + a.val * 8192 + b.val * 524288
  | .shaW d a b => 0x90000000 + d.val * 128 + a.val * 8192 + b.val * 524288
  | .slt d a b => 0x12000000 + d.val * 128 + a.val * 8192 + b.val * 524288
  | .sltW d a b => 0x92000000 + d.val * 128 + a.val * 8192 + b.val * 524288
  | .sltn d a b => 0x14000000 + d.val * 128 + a.val * 8192 + b.val * 524288
  | .sltnW d a b => 0x94000000 + d.val * 128 + a.val * 8192 + b.val * 524288
  | .min d a b => 0x16000000 + d.val * 128 + a.val * 8192 + b.val * 524288
  | .minW d a b => 0x96000000 + d.val * 128 + a.val * 8192 + b.val * 524288
  | .max d a b => 0x18000000 + d.val * 128 + a.val * 8192 + b.val * 524288
  | .maxW d a b => 0x98000000 + d.val * 128 + a.val * 8192 + b.val * 524288
  | .minn d a b => 0x1A000000 + d.val * 128 + a.val * 8192 + b.val * 524288
  | .minnW d a b => 0x9A000000 + d.val * 128 + a.val * 8192 + b.val * 524288
  | .maxn d a b => 0x1C000000 + d.val * 128 + a.val * 8192 + b.val * 524288
  | .maxnW d a b => 0x9C000000 + d.val * 128 + a.val * 8192 + b.val * 524288
  | .clz d a => 0x1E000000 + d.val * 128 + a.val * 8192
  | .ctz d a => 0x20000000 + d.val * 128 + a.val * 8192
  | .popc d a => 0x22000000 + d.val * 128 + a.val * 8192
  | .brev d a => 0x24000000 + d.val * 128 + a.val * 8192
  | .bswap d a => 0x26000000 + d.val * 128 + a.val * 8192
  | .sel d a p => 0x28000000 + d.val * 128 + a.val * 8192 + p.val * 524288
  | .mul d a b => 0x00000001 + d.val * 128 + a.val * 8192 + b.val * 524288
  | .mulW d a b => 0x80000001 + d.val * 128 + a.val * 8192 + b.val * 524288
  | .mulh d a b => 0x02000001 + d.val * 128 + a.val * 8192 + b.val * 524288
  | .mulhn d a b => 0x04000001 + d.val * 128 + a.val * 8192 + b.val * 524288
  | .mulhsn d a b => 0x06000001 + d.val * 128 + a.val * 8192 + b.val * 524288
  | .div d a b => 0x08000001 + d.val * 128 + a.val * 8192 + b.val * 524288
  | .divW d a b => 0x88000001 + d.val * 128 + a.val * 8192 + b.val * 524288
  | .divn d a b => 0x0A000001 + d.val * 128 + a.val * 8192 + b.val * 524288
  | .divnW d a b => 0x8A000001 + d.val * 128 + a.val * 8192 + b.val * 524288
  | .rem d a b => 0x0C000001 + d.val * 128 + a.val * 8192 + b.val * 524288
  | .remW d a b => 0x8C000001 + d.val * 128 + a.val * 8192 + b.val * 524288
  | .remn d a b => 0x0E000001 + d.val * 128 + a.val * 8192 + b.val * 524288
  | .remnW d a b => 0x8E000001 + d.val * 128 + a.val * 8192 + b.val * 524288
  | .addi d a imm => 0x00000002 + d.val * 128 + a.val * 8192 + imm.toNat * 524288
  | .andi d a imm => 0x00000003 + d.val * 128 + a.val * 8192 + imm.toNat * 524288
  | .ori d a imm => 0x00000004 + d.val * 128 + a.val * 8192 + imm.toNat * 524288
  | .xori d a imm => 0x00000005 + d.val * 128 + a.val * 8192 + imm.toNat * 524288
  | .shli d a n => 0x00000006 + d.val * 128 + a.val * 8192 + n.toNat * 524288
  | .shri d a n => 0x00000007 + d.val * 128 + a.val * 8192 + n.toNat * 524288
  | .shai d a n => 0x00000008 + d.val * 128 + a.val * 8192 + n.toNat * 524288
  | .slti d a imm => 0x00000009 + d.val * 128 + a.val * 8192 + imm.toNat * 524288
  | .sltni d a imm => 0x0000000A + d.val * 128 + a.val * 8192 + imm.toNat * 524288
  | .lih d imm => 0x0000000B + d.val * 128 + imm.toNat * 8192
  | .addpc d imm => 0x0000000C + d.val * 128 + imm.toNat * 8192
  | .imm _ _ _ => 0
  | .bEq a b imm => 0x00000010 + a.val * 128 + b.val * 8192 + imm.toNat * 524288
  | .bNe a b imm => 0x00000011 + a.val * 128 + b.val * 8192 + imm.toNat * 524288
  | .bLt a b imm => 0x00000012 + a.val * 128 + b.val * 8192 + imm.toNat * 524288
  | .bGe a b imm => 0x00000013 + a.val * 128 + b.val * 8192 + imm.toNat * 524288
  | .bLtn a b imm => 0x00000014 + a.val * 128 + b.val * 8192 + imm.toNat * 524288
  | .bGen a b imm => 0x00000015 + a.val * 128 + b.val * 8192 + imm.toNat * 524288
  | .bp p mode imm => 0x00000016 + p.val * 128 + mode.code * 1024 + imm.toNat * 8192
  | .j imm => 0x00000017 + imm.toNat * 8192
  | .call d imm => 0x00000018 + d.val * 128 + imm.toNat * 8192
  | .callr d a argc => 0x00000019 + d.val * 128 + a.val * 8192 + argc.val * 33554432
  | .callrV d a argc => 0x20000019 + d.val * 128 + a.val * 8192 + argc.val * 33554432
  | .jr a => 0x0000001A + a.val * 8192
  | .ret a => 0x0000001B + a.val * 8192
  | .trap n => 0x0000001C + n.toNat * 524288
  | .brk => 0x0200001C
  | .eret => 0x0400001C
  | .isync => 0x0600001C
  | .yield => 0x0800001C
  | .halt => 0x0A00001C
  | .waite => 0x0C00001C
  | .ldB t base sem scope off => 0x00000020 + t.val * 128 + base.val * 8192 + sem.code * 524288 + scope.code * 2097152 + off.toNat * 8388608
  | .ldH t base sem scope off => 0x00000021 + t.val * 128 + base.val * 8192 + sem.code * 524288 + scope.code * 2097152 + off.toNat * 8388608
  | .ldW t base sem scope off => 0x00000022 + t.val * 128 + base.val * 8192 + sem.code * 524288 + scope.code * 2097152 + off.toNat * 8388608
  | .ldD t base sem scope off => 0x00000023 + t.val * 128 + base.val * 8192 + sem.code * 524288 + scope.code * 2097152 + off.toNat * 8388608
  | .ldNb t base sem scope off => 0x00000024 + t.val * 128 + base.val * 8192 + sem.code * 524288 + scope.code * 2097152 + off.toNat * 8388608
  | .ldNh t base sem scope off => 0x00000025 + t.val * 128 + base.val * 8192 + sem.code * 524288 + scope.code * 2097152 + off.toNat * 8388608
  | .ldNw t base sem scope off => 0x00000026 + t.val * 128 + base.val * 8192 + sem.code * 524288 + scope.code * 2097152 + off.toNat * 8388608
  | .ldQ t base sem scope off => 0x00000027 + t.val * 128 + base.val * 8192 + sem.code * 524288 + scope.code * 2097152 + off.toNat * 8388608
  | .stB t base sem scope off => 0x00000028 + t.val * 128 + base.val * 8192 + sem.code * 524288 + scope.code * 2097152 + off.toNat * 8388608
  | .stH t base sem scope off => 0x00000029 + t.val * 128 + base.val * 8192 + sem.code * 524288 + scope.code * 2097152 + off.toNat * 8388608
  | .stW t base sem scope off => 0x0000002A + t.val * 128 + base.val * 8192 + sem.code * 524288 + scope.code * 2097152 + off.toNat * 8388608
  | .stD t base sem scope off => 0x0000002B + t.val * 128 + base.val * 8192 + sem.code * 524288 + scope.code * 2097152 + off.toNat * 8388608
  | .stQ t base sem scope off => 0x0000002C + t.val * 128 + base.val * 8192 + sem.code * 524288 + scope.code * 2097152 + off.toNat * 8388608
  | .ldx d a b size sem scope => 0x0000002D + d.val * 128 + a.val * 8192 + b.val * 524288 + size.code * 33554432 + sem.code * 268435456 + scope.code * 1073741824
  | .stx d a b size sem scope => 0x0000002E + d.val * 128 + a.val * 8192 + b.val * 524288 + size.code * 33554432 + sem.code * 268435456 + scope.code * 1073741824
  | .pf hint base off => 0x0000002F + hint.toNat * 128 + base.val * 8192 + off.toNat * 8388608
  | .atAAdd d a b sem scope => 0x00000030 + d.val * 128 + a.val * 8192 + b.val * 524288 + sem.code * 33554432 + scope.code * 134217728
  | .atAAnd d a b sem scope => 0x20000030 + d.val * 128 + a.val * 8192 + b.val * 524288 + sem.code * 33554432 + scope.code * 134217728
  | .atAOr d a b sem scope => 0x40000030 + d.val * 128 + a.val * 8192 + b.val * 524288 + sem.code * 33554432 + scope.code * 134217728
  | .atAXor d a b sem scope => 0x60000030 + d.val * 128 + a.val * 8192 + b.val * 524288 + sem.code * 33554432 + scope.code * 134217728
  | .atASwap d a b sem scope => 0x80000030 + d.val * 128 + a.val * 8192 + b.val * 524288 + sem.code * 33554432 + scope.code * 134217728
  | .atAMin d a b sem scope => 0xA0000030 + d.val * 128 + a.val * 8192 + b.val * 524288 + sem.code * 33554432 + scope.code * 134217728
  | .atAMax d a b sem scope => 0xC0000030 + d.val * 128 + a.val * 8192 + b.val * 524288 + sem.code * 33554432 + scope.code * 134217728
  | .atAFadd d a b sem scope => 0xE0000030 + d.val * 128 + a.val * 8192 + b.val * 524288 + sem.code * 33554432 + scope.code * 134217728
  | .atWAdd d a b sem scope => 0x00000031 + d.val * 128 + a.val * 8192 + b.val * 524288 + sem.code * 33554432 + scope.code * 134217728
  | .atWAnd d a b sem scope => 0x20000031 + d.val * 128 + a.val * 8192 + b.val * 524288 + sem.code * 33554432 + scope.code * 134217728
  | .atWOr d a b sem scope => 0x40000031 + d.val * 128 + a.val * 8192 + b.val * 524288 + sem.code * 33554432 + scope.code * 134217728
  | .atWXor d a b sem scope => 0x60000031 + d.val * 128 + a.val * 8192 + b.val * 524288 + sem.code * 33554432 + scope.code * 134217728
  | .atWSwap d a b sem scope => 0x80000031 + d.val * 128 + a.val * 8192 + b.val * 524288 + sem.code * 33554432 + scope.code * 134217728
  | .atWMin d a b sem scope => 0xA0000031 + d.val * 128 + a.val * 8192 + b.val * 524288 + sem.code * 33554432 + scope.code * 134217728
  | .atWMax d a b sem scope => 0xC0000031 + d.val * 128 + a.val * 8192 + b.val * 524288 + sem.code * 33554432 + scope.code * 134217728
  | .atWFadd d a b sem scope => 0xE0000031 + d.val * 128 + a.val * 8192 + b.val * 524288 + sem.code * 33554432 + scope.code * 134217728
  | .atNMinn d a b sem scope => 0x00000032 + d.val * 128 + a.val * 8192 + b.val * 524288 + sem.code * 33554432 + scope.code * 134217728
  | .atNMaxn d a b sem scope => 0x20000032 + d.val * 128 + a.val * 8192 + b.val * 524288 + sem.code * 33554432 + scope.code * 134217728
  | .atNIncw d a b sem scope => 0x40000032 + d.val * 128 + a.val * 8192 + b.val * 524288 + sem.code * 33554432 + scope.code * 134217728
  | .atNDecw d a b sem scope => 0x60000032 + d.val * 128 + a.val * 8192 + b.val * 524288 + sem.code * 33554432 + scope.code * 134217728
  | .atNFmin d a b sem scope => 0x80000032 + d.val * 128 + a.val * 8192 + b.val * 524288 + sem.code * 33554432 + scope.code * 134217728
  | .atNFmax d a b sem scope => 0xA0000032 + d.val * 128 + a.val * 8192 + b.val * 524288 + sem.code * 33554432 + scope.code * 134217728
  | .atCas d a b sem scope => 0x00000033 + d.val * 128 + a.val * 8192 + b.val * 524288 + sem.code * 33554432 + scope.code * 134217728
  | .atCas2 d a b sem scope => 0x00000034 + d.val * 128 + a.val * 8192 + b.val * 524288 + sem.code * 33554432 + scope.code * 134217728
  | .fence kind scope => 0x00000035 + kind.code * 128 + scope.code * 1024
  | .waitv d a b sem scope => 0x00000036 + d.val * 128 + a.val * 8192 + b.val * 524288 + sem.code * 33554432 + scope.code * 134217728
  | .waitvW d a b sem scope => 0x20000036 + d.val * 128 + a.val * 8192 + b.val * 524288 + sem.code * 33554432 + scope.code * 134217728
  | .barInit a b => 0x00000037 + a.val * 8192 + b.val * 524288
  | .barArrive d a => 0x02000037 + d.val * 128 + a.val * 8192
  | .barWait d a b => 0x04000037 + d.val * 128 + a.val * 8192 + b.val * 524288
  | .barExpect a b => 0x06000037 + a.val * 8192 + b.val * 524288
  | .barArrivex d a b => 0x08000037 + d.val * 128 + a.val * 8192 + b.val * 524288
  | .barLvl b => 0x0A000037 + b.val * 524288
  | .gang g => 0x00000038 + g.val * 524288
  | .gangLeave => 0x00000038
  | .msg d a b => 0x00000039 + d.val * 128 + a.val * 8192 + b.val * 524288
  | .hbind a b => 0x0000003A + a.val * 8192 + b.val * 524288
  | .tend => 0x0000003B
  | .spawn a q => 0x0000003C + a.val * 8192 + q.val * 33554432
  | .enq e a b => 0x0000003D + e.code * 128 + a.val * 8192 + b.val * 524288
  | .deq d e => 0x0000003E + d.val * 128 + e.code * 33554432
  | .tlAlloc a b => 0x0000003F + a.val * 8192 + b.val * 524288
  | .tlFree a => 0x0200003F + a.val * 8192
  | .tlState d a => 0x0400003F + d.val * 128 + a.val * 8192
  | .tlWait a b => 0x0600003F + a.val * 8192 + b.val * 524288
  | .fAdd d a b p => 0x00000040 + d.val * 128 + a.val * 8192 + b.val * 524288 + p.code * 2147483648
  | .fSub d a b p => 0x02000040 + d.val * 128 + a.val * 8192 + b.val * 524288 + p.code * 2147483648
  | .fMul d a b p => 0x04000040 + d.val * 128 + a.val * 8192 + b.val * 524288 + p.code * 2147483648
  | .fDiv d a b p => 0x06000040 + d.val * 128 + a.val * 8192 + b.val * 524288 + p.code * 2147483648
  | .fSqrt d a p => 0x08000040 + d.val * 128 + a.val * 8192 + p.code * 2147483648
  | .fMin d a b p => 0x0A000040 + d.val * 128 + a.val * 8192 + b.val * 524288 + p.code * 2147483648
  | .fMax d a b p => 0x0C000040 + d.val * 128 + a.val * 8192 + b.val * 524288 + p.code * 2147483648
  | .fClass d a p => 0x0E000040 + d.val * 128 + a.val * 8192 + p.code * 2147483648
  | .fCeq d a b p => 0x10000040 + d.val * 128 + a.val * 8192 + b.val * 524288 + p.code * 2147483648
  | .fClt d a b p => 0x12000040 + d.val * 128 + a.val * 8192 + b.val * 524288 + p.code * 2147483648
  | .fCle d a b p => 0x14000040 + d.val * 128 + a.val * 8192 + b.val * 524288 + p.code * 2147483648
  | .fFma d a b c p => 0x00000041 + d.val * 128 + a.val * 8192 + b.val * 524288 + c.val * 33554432 + p.code * 2147483648
  | .fCvt d a frm tgt => 0x00000042 + d.val * 128 + a.val * 8192 + frm.code * 33554432 + tgt.code * 268435456
  | .vLd vd base pm sem scope off => 0x00000044 + vd.val * 128 + base.val * 4096 + pm.val * 262144 + sem.code * 2097152 + scope.code * 8388608 + off.toNat * 33554432
  | .vSt vd base pm sem scope off => 0x00000045 + vd.val * 128 + base.val * 4096 + pm.val * 262144 + sem.code * 2097152 + scope.code * 8388608 + off.toNat * 33554432
  | .vLdx vd vi pm base wide => 0x00000046 + vd.val * 128 + vi.val * 4096 + pm.val * 4194304 + base.val * 33554432 + wide.toNat * 2147483648
  | .vStx vd vi pm base wide => 0x00000047 + vd.val * 128 + vi.val * 4096 + pm.val * 4194304 + base.val * 33554432 + wide.toNat * 2147483648
  | .vAdd vd va vb pm ty => 0x00000048 + vd.val * 128 + va.val * 4096 + vb.val * 131072 + pm.val * 4194304 + ty.code * 33554432
  | .vSub vd va vb pm ty => 0x10000048 + vd.val * 128 + va.val * 4096 + vb.val * 131072 + pm.val * 4194304 + ty.code * 33554432
  | .vMul vd va vb pm ty => 0x20000048 + vd.val * 128 + va.val * 4096 + vb.val * 131072 + pm.val * 4194304 + ty.code * 33554432
  | .vMin vd va vb pm ty => 0x30000048 + vd.val * 128 + va.val * 4096 + vb.val * 131072 + pm.val * 4194304 + ty.code * 33554432
  | .vMax vd va vb pm ty => 0x40000048 + vd.val * 128 + va.val * 4096 + vb.val * 131072 + pm.val * 4194304 + ty.code * 33554432
  | .vAnd vd va vb pm ty => 0x50000048 + vd.val * 128 + va.val * 4096 + vb.val * 131072 + pm.val * 4194304 + ty.code * 33554432
  | .vOr vd va vb pm ty => 0x60000048 + vd.val * 128 + va.val * 4096 + vb.val * 131072 + pm.val * 4194304 + ty.code * 33554432
  | .vXor vd va vb pm ty => 0x70000048 + vd.val * 128 + va.val * 4096 + vb.val * 131072 + pm.val * 4194304 + ty.code * 33554432
  | .vShl vd va vb pm ty => 0x80000048 + vd.val * 128 + va.val * 4096 + vb.val * 131072 + pm.val * 4194304 + ty.code * 33554432
  | .vShr vd va vb pm ty => 0x90000048 + vd.val * 128 + va.val * 4096 + vb.val * 131072 + pm.val * 4194304 + ty.code * 33554432
  | .vSha vd va vb pm ty => 0xA0000048 + vd.val * 128 + va.val * 4096 + vb.val * 131072 + pm.val * 4194304 + ty.code * 33554432
  | .vAbs vd va pm ty => 0xB0000048 + vd.val * 128 + va.val * 4096 + pm.val * 4194304 + ty.code * 33554432
  | .vNeg vd va pm ty => 0xC0000048 + vd.val * 128 + va.val * 4096 + pm.val * 4194304 + ty.code * 33554432
  | .vDiv vd va vb pm ty => 0xD0000048 + vd.val * 128 + va.val * 4096 + vb.val * 131072 + pm.val * 4194304 + ty.code * 33554432
  | .vMulh vd va vb pm ty => 0xE0000048 + vd.val * 128 + va.val * 4096 + vb.val * 131072 + pm.val * 4194304 + ty.code * 33554432
  | .vFma vd va vb vc pm ty => 0x00000049 + vd.val * 128 + va.val * 4096 + vb.val * 131072 + vc.val * 4194304 + pm.val * 134217728 + ty.code * 1073741824
  | .vCmp pd va vb pm ty cond => 0x0000004A + pd.val * 128 + va.val * 4096 + vb.val * 131072 + pm.val * 4194304 + ty.code * 33554432 + cond.code * 268435456
  | .vCvt vd va pm frm tgt => 0x0000004B + vd.val * 128 + va.val * 4096 + pm.val * 4194304 + frm.code * 33554432 + tgt.code * 268435456
  | .vRedAdd vd va pm ty => 0x0000004C + vd.val * 128 + va.val * 4096 + pm.val * 4194304 + ty.code * 33554432
  | .vRedMin vd va pm ty => 0x1000004C + vd.val * 128 + va.val * 4096 + pm.val * 4194304 + ty.code * 33554432
  | .vRedMax vd va pm ty => 0x2000004C + vd.val * 128 + va.val * 4096 + pm.val * 4194304 + ty.code * 33554432
  | .vRedAnd vd va pm ty => 0x3000004C + vd.val * 128 + va.val * 4096 + pm.val * 4194304 + ty.code * 33554432
  | .vRedOr vd va pm ty => 0x4000004C + vd.val * 128 + va.val * 4096 + pm.val * 4194304 + ty.code * 33554432
  | .vRedXor vd va pm ty => 0x5000004C + vd.val * 128 + va.val * 4096 + pm.val * 4194304 + ty.code * 33554432
  | .vPerm vd va vb pm w => 0x0000004D + vd.val * 128 + va.val * 4096 + vb.val * 131072 + pm.val * 4194304 + w.code * 33554432
  | .vMovBcst vd s w => 0x0000004E + vd.val * 128 + s.val * 4096 + w.code * 134217728
  | .vMovMovs vd s idx w => 0x0100004E + vd.val * 128 + s.val * 4096 + idx.val * 262144 + w.code * 134217728
  | .vMovIns vd s idx w => 0x0200004E + vd.val * 128 + s.val * 4096 + idx.val * 262144 + w.code * 134217728
  | .vMovP2s p s => 0x0300004E + p.val * 128 + s.val * 4096
  | .vMovS2p p s => 0x0400004E + p.val * 128 + s.val * 4096
  | .vSfRcp vd va pm => 0x0000004F + vd.val * 128 + va.val * 4096 + pm.val * 4194304
  | .vSfRsqrt vd va pm => 0x0200004F + vd.val * 128 + va.val * 4096 + pm.val * 4194304
  | .vSfExp2 vd va pm => 0x0400004F + vd.val * 128 + va.val * 4096 + pm.val * 4194304
  | .vSfLog2 vd va pm => 0x0600004F + vd.val * 128 + va.val * 4096 + pm.val * 4194304
  | .mxCfg a b => 0x00000050 + a.val * 8192 + b.val * 524288
  | .mxZero d => 0x02000050 + d.val * 128
  | .mxMma d a b => 0x04000050 + d.val * 128 + a.val * 8192 + b.val * 524288
  | .mxDrain d => 0x06000050 + d.val * 128
  | .mxWait => 0x08000050
  | .sgLoad a b => 0x00000051 + a.val * 8192 + b.val * 524288
  | .sgCommit a => 0x02000051 + a.val * 8192
  | .sgStream a b => 0x04000051 + a.val * 8192 + b.val * 524288
  | .sgSbar a => 0x06000051 + a.val * 8192
  | .sgWait d a b => 0x08000051 + d.val * 128 + a.val * 8192 + b.val * 524288
  | .sgFreeze a => 0x0A000051 + a.val * 8192
  | .sgThaw a => 0x0C000051 + a.val * 8192
  | .plAnd pd pa pb => 0x00000052 + pd.val * 128 + pa.val * 1024 + pb.val * 8192
  | .plOr pd pa pb => 0x00010052 + pd.val * 128 + pa.val * 1024 + pb.val * 8192
  | .plXor pd pa pb => 0x00020052 + pd.val * 128 + pa.val * 1024 + pb.val * 8192
  | .plAndn pd pa pb => 0x00030052 + pd.val * 128 + pa.val * 1024 + pb.val * 8192
  | .plNot pd pa => 0x00040052 + pd.val * 128 + pa.val * 1024
  | .plSet pd => 0x00050052 + pd.val * 128
  | .plClr pd => 0x00060052 + pd.val * 128
  | .pcmp pd cond a b => 0x00000053 + pd.val * 128 + cond.code * 1024 + a.val * 8192 + b.val * 524288
  | .ghPush d a b rel => 0x00000060 + d.val * 128 + a.val * 8192 + b.val * 524288 + rel.toNat * 2147483648
  | .ghAdd d a b rel => 0x02000060 + d.val * 128 + a.val * 8192 + b.val * 524288 + rel.toNat * 2147483648
  | .ghSet d a b rel => 0x04000060 + d.val * 128 + a.val * 8192 + b.val * 524288 + rel.toNat * 2147483648
  | .ghDone rel => 0x06000060 + rel.toNat * 2147483648
  | .ghSum d a => 0x08000060 + d.val * 128 + a.val * 8192
  | .ghCfg a b => 0x0A000060 + a.val * 8192 + b.val * 524288
  | .ghDump d a b => 0x0C000060 + d.val * 128 + a.val * 8192 + b.val * 524288
  | .tkOpen d a => 0x00000061 + d.val * 128 + a.val * 8192
  | .tkRelease a => 0x02000061 + a.val * 8192
  | .tkArm a b => 0x04000061 + a.val * 8192 + b.val * 524288
  | .tkDisarm a => 0x06000061 + a.val * 8192
  | .tkBudget a b => 0x08000061 + a.val * 8192 + b.val * 524288
  | .tkCommit d a vb => 0x0A000061 + d.val * 128 + a.val * 8192 + vb.val * 524288
  | .tkPeek d a vb => 0x0C000061 + d.val * 128 + a.val * 8192 + vb.val * 524288
  | .tkRead d a b => 0x0E000061 + d.val * 128 + a.val * 8192 + b.val * 524288
  | .sysr d reg => 0x00000070 + d.val * 128 + reg.toNat * 524288
  | .sysw a reg => 0x00000071 + a.val * 8192 + reg.toNat * 524288
  | .sysx d a reg => 0x00000072 + d.val * 128 + a.val * 8192 + reg.toNat * 524288
  | .xlInvVa a => 0x00000073 + a.val * 8192
  | .xlInvCtx => 0x02000073
  | .xlSync => 0x04000073
  | .sigNop _ _ _ _ => 0
  | .sigMov _ _ _ _ => 0
  | .sigDup _ _ _ _ => 0
  | .sigEmit _ _ _ _ => 0
  | .sigAdd _ _ _ _ => 0
  | .sigSub _ _ _ _ => 0
  | .sigMul _ _ _ _ => 0
  | .sigFma _ _ _ _ => 0
  | .sigMin _ _ _ _ => 0
  | .sigMax _ _ _ _ => 0
  | .sigAnd _ _ _ _ => 0
  | .sigOr _ _ _ _ => 0
  | .sigXor _ _ _ _ => 0
  | .sigShl _ _ _ _ => 0
  | .sigShr _ _ _ _ => 0
  | .sigSha _ _ _ _ => 0
  | .sigPcmp _ _ _ _ => 0
  | .sigSel _ _ _ _ => 0
  | .sigSteer _ _ _ _ => 0
  | .sigGate _ _ _ _ => 0
  | .sigMerge _ _ _ _ => 0
  | .sigIter _ _ _ _ => 0
  | .sigAcc _ _ _ _ => 0
  | .sigNzsend _ _ _ _ => 0
  | .sigSink _ _ _ _ => 0
  | .sigCvt _ _ _ _ => 0
  | .sigLd _ _ _ _ => 0
  | .sigSt _ _ _ _ => 0
  | .sigAtAdd _ _ _ _ => 0
  | .sigAtMin _ _ _ _ => 0
  | .sigAtMax _ _ _ _ => 0
  | .sigAtOr _ _ _ _ => 0
  | .sigAtAnd _ _ _ _ => 0
  | .sigAtXor _ _ _ _ => 0
  | .sigAtSwap _ _ _ _ => 0
  | .sigAtCas _ _ _ _ => 0
  | .sigAtTas _ _ _ _ => 0
  | .sigCall _ _ _ _ => 0
  | .sigRet _ _ _ _ => 0
  | .sigRed _ _ _ _ => 0
  | .sigDiv _ _ _ _ => 0
  | .sigSqrt _ _ _ _ => 0
  | .nBeatRuleBeat _ _ _ _ => 0
  | .lqpush _ _ _ => 0
  | .lqctlAbort _ _ => 0
  | .lqstatClear _ _ _ => 0
  | .registerWrite _ _ => 0
  | .bankSwitchDone _ => 0
  | .rampRateUpdate _ _ => 0
  | .launchHead _ _ => 0
  | .launchWaitSatisfied _ _ => 0
  | .kind3WaitPoll _ _ => 0
  | .heapBind _ => 0
  | .groupStart _ _ => 0
  | .widStart _ _ => 0
  | .handlerStart _ => 0
  | .callbackTaskStart _ => 0
  | .heapDispatch _ => 0
  | .launchComplete _ => 0
  | .packetArrival _ => 0
  | .packetDeferredAccept _ _ => 0
  | .fifoPopComplete _ => 0
  | .fifoPushComplete _ => 0
  | .tileReady _ _ => 0
  | .tileEmpty _ _ => 0
  | .waitvWake _ => 0
  | .waitlimitExpiry _ => 0
  | .waiteWake _ => 0
  | .barWaitReturn _ => 0
  | .copy _ => 0
  | .fill _ => 0
  | .gather _ => 0
  | .scatter _ => 0
  | .collate _ => 0
  | .allred _ _ => 0
  | .imageLoadComplete _ _ => 0
  | .commitBroadcast _ _ => 0
  | .invocationStart _ _ => 0
  | .loaderReadResponse _ _ _ => 0
  | .storerAccept _ _ _ => 0
  | .gutterDrop _ _ _ _ => 0
  | .invocationEnd _ _ => 0
  | .drainBoundExpiry _ _ => 0
  | .crossingCall _ _ => 0
  | .activationEnqueue _ _ => 0
  | .callbackPacketSend _ _ => 0
  | .returnDelivery _ => 0
  | .jointCfg _ _ => 0
  | .jointZero _ _ => 0
  | .jointMma _ _ => 0
  | .jointDrain _ _ => 0
  | .terminationWave _ => 0
  | .heapAbortUnbind _ => 0
  | .gets _ _ _ => 0
  | .getm _ _ _ => 0
  | .upgrade _ _ _ => 0
  | .putm _ _ => 0
  | .puto _ _ => 0
  | .fwdGets _ _ => 0
  | .fwdGetm _ _ => 0
  | .inv _ _ => 0
  | .l2Eviction _ _ => 0
  | .homeTagEviction _ => 0
  | .snpdata _ => 0
  | .snpinv _ => 0
  | .snpcur _ => 0
  | .hostCxlMemAccess _ _ => 0
  | .peerAccess _ _ _ => 0
  | .kind4StoreFailure _ _ => 0
  | .poisonDetect _ _ => 0
  | .zoreyLinkDown _ => 0
  | .hostPortTrainingLoss _ => 0
  | .deviceStart _ => 0
  | .createContext _ => 0
  | .destroyContext => 0
  | .switchOut => 0
  | .switchIn _ _ => 0
  | .supervisorBoundExpiry _ => 0
  | .preemptionBoundExpiry _ _ => 0
  | .setRegionTable _ => 0
  | .attest => 0
  | .repair _ => 0
  | .updateMainFirmware _ _ => 0
  | .unknownCommand => 0
  | .debugHaltThread _ => 0
  | .debugResumeThread _ _ => 0
  | .debugReadThread _ _ => 0
  | .debugWriteThread _ _ _ => 0
  | .debugWriteStepState _ _ _ => 0
  | .debugFreezeRegion _ _ => 0
  | .debugStepRegion _ _ => 0
  | .debugThawRegion _ _ => 0
  | .debugReadRegion _ _ _ => 0
  | .debugWriteRegion _ _ _ _ => 0
  | .illegalInstruction => 0
  | .instructionFetchFault => 0
  | .tokenHop _ _ _ _ _ => 0
  | .qflagsUpdate _ _ => 0
  | .powerFail _ _ => 0
  | .mbdoorWriteWhileBusy => 0

/-- The word of the tail of a chain. -/
def ImmTail.word : ImmTail → Nat
  | .addi d a i => encodeWord (.addi d a i)
  | .andi d a i => encodeWord (.andi d a i)
  | .ori d a i => encodeWord (.ori d a i)
  | .xori d a i => encodeWord (.xori d a i)
  | .slti d a i => encodeWord (.slti d a i)
  | .sltni d a i => encodeWord (.sltni d a i)
  | .notBearing => 0

/-- The 32-bit words of an instruction, first word first: a chain has two or three, a quire instruction one,
a step of the device none (R277). -/
def encode : Instr → List Nat
  | .imm p none t => [127 + p.toNat * 128, t.word]
  | .imm p (some q) t => [127 + p.toNat * 128, 127 + q.toNat * 128, t.word]
  | .add d a b => [encodeWord (.add d a b)]
  | .addW d a b => [encodeWord (.addW d a b)]
  | .sub d a b => [encodeWord (.sub d a b)]
  | .subW d a b => [encodeWord (.subW d a b)]
  | .and d a b => [encodeWord (.and d a b)]
  | .andW d a b => [encodeWord (.andW d a b)]
  | .or d a b => [encodeWord (.or d a b)]
  | .orW d a b => [encodeWord (.orW d a b)]
  | .xor d a b => [encodeWord (.xor d a b)]
  | .xorW d a b => [encodeWord (.xorW d a b)]
  | .andn d a b => [encodeWord (.andn d a b)]
  | .andnW d a b => [encodeWord (.andnW d a b)]
  | .shl d a b => [encodeWord (.shl d a b)]
  | .shlW d a b => [encodeWord (.shlW d a b)]
  | .shr d a b => [encodeWord (.shr d a b)]
  | .shrW d a b => [encodeWord (.shrW d a b)]
  | .sha d a b => [encodeWord (.sha d a b)]
  | .shaW d a b => [encodeWord (.shaW d a b)]
  | .slt d a b => [encodeWord (.slt d a b)]
  | .sltW d a b => [encodeWord (.sltW d a b)]
  | .sltn d a b => [encodeWord (.sltn d a b)]
  | .sltnW d a b => [encodeWord (.sltnW d a b)]
  | .min d a b => [encodeWord (.min d a b)]
  | .minW d a b => [encodeWord (.minW d a b)]
  | .max d a b => [encodeWord (.max d a b)]
  | .maxW d a b => [encodeWord (.maxW d a b)]
  | .minn d a b => [encodeWord (.minn d a b)]
  | .minnW d a b => [encodeWord (.minnW d a b)]
  | .maxn d a b => [encodeWord (.maxn d a b)]
  | .maxnW d a b => [encodeWord (.maxnW d a b)]
  | .clz d a => [encodeWord (.clz d a)]
  | .ctz d a => [encodeWord (.ctz d a)]
  | .popc d a => [encodeWord (.popc d a)]
  | .brev d a => [encodeWord (.brev d a)]
  | .bswap d a => [encodeWord (.bswap d a)]
  | .sel d a p => [encodeWord (.sel d a p)]
  | .mul d a b => [encodeWord (.mul d a b)]
  | .mulW d a b => [encodeWord (.mulW d a b)]
  | .mulh d a b => [encodeWord (.mulh d a b)]
  | .mulhn d a b => [encodeWord (.mulhn d a b)]
  | .mulhsn d a b => [encodeWord (.mulhsn d a b)]
  | .div d a b => [encodeWord (.div d a b)]
  | .divW d a b => [encodeWord (.divW d a b)]
  | .divn d a b => [encodeWord (.divn d a b)]
  | .divnW d a b => [encodeWord (.divnW d a b)]
  | .rem d a b => [encodeWord (.rem d a b)]
  | .remW d a b => [encodeWord (.remW d a b)]
  | .remn d a b => [encodeWord (.remn d a b)]
  | .remnW d a b => [encodeWord (.remnW d a b)]
  | .addi d a imm => [encodeWord (.addi d a imm)]
  | .andi d a imm => [encodeWord (.andi d a imm)]
  | .ori d a imm => [encodeWord (.ori d a imm)]
  | .xori d a imm => [encodeWord (.xori d a imm)]
  | .shli d a n => [encodeWord (.shli d a n)]
  | .shri d a n => [encodeWord (.shri d a n)]
  | .shai d a n => [encodeWord (.shai d a n)]
  | .slti d a imm => [encodeWord (.slti d a imm)]
  | .sltni d a imm => [encodeWord (.sltni d a imm)]
  | .lih d imm => [encodeWord (.lih d imm)]
  | .addpc d imm => [encodeWord (.addpc d imm)]
  | .bEq a b imm => [encodeWord (.bEq a b imm)]
  | .bNe a b imm => [encodeWord (.bNe a b imm)]
  | .bLt a b imm => [encodeWord (.bLt a b imm)]
  | .bGe a b imm => [encodeWord (.bGe a b imm)]
  | .bLtn a b imm => [encodeWord (.bLtn a b imm)]
  | .bGen a b imm => [encodeWord (.bGen a b imm)]
  | .bp p mode imm => [encodeWord (.bp p mode imm)]
  | .j imm => [encodeWord (.j imm)]
  | .call d imm => [encodeWord (.call d imm)]
  | .callr d a argc => [encodeWord (.callr d a argc)]
  | .callrV d a argc => [encodeWord (.callrV d a argc)]
  | .jr a => [encodeWord (.jr a)]
  | .ret a => [encodeWord (.ret a)]
  | .trap n => [encodeWord (.trap n)]
  | .brk => [encodeWord (.brk)]
  | .eret => [encodeWord (.eret)]
  | .isync => [encodeWord (.isync)]
  | .yield => [encodeWord (.yield)]
  | .halt => [encodeWord (.halt)]
  | .waite => [encodeWord (.waite)]
  | .ldB t base sem scope off => [encodeWord (.ldB t base sem scope off)]
  | .ldH t base sem scope off => [encodeWord (.ldH t base sem scope off)]
  | .ldW t base sem scope off => [encodeWord (.ldW t base sem scope off)]
  | .ldD t base sem scope off => [encodeWord (.ldD t base sem scope off)]
  | .ldNb t base sem scope off => [encodeWord (.ldNb t base sem scope off)]
  | .ldNh t base sem scope off => [encodeWord (.ldNh t base sem scope off)]
  | .ldNw t base sem scope off => [encodeWord (.ldNw t base sem scope off)]
  | .ldQ t base sem scope off => [encodeWord (.ldQ t base sem scope off)]
  | .stB t base sem scope off => [encodeWord (.stB t base sem scope off)]
  | .stH t base sem scope off => [encodeWord (.stH t base sem scope off)]
  | .stW t base sem scope off => [encodeWord (.stW t base sem scope off)]
  | .stD t base sem scope off => [encodeWord (.stD t base sem scope off)]
  | .stQ t base sem scope off => [encodeWord (.stQ t base sem scope off)]
  | .ldx d a b size sem scope => [encodeWord (.ldx d a b size sem scope)]
  | .stx d a b size sem scope => [encodeWord (.stx d a b size sem scope)]
  | .pf hint base off => [encodeWord (.pf hint base off)]
  | .atAAdd d a b sem scope => [encodeWord (.atAAdd d a b sem scope)]
  | .atAAnd d a b sem scope => [encodeWord (.atAAnd d a b sem scope)]
  | .atAOr d a b sem scope => [encodeWord (.atAOr d a b sem scope)]
  | .atAXor d a b sem scope => [encodeWord (.atAXor d a b sem scope)]
  | .atASwap d a b sem scope => [encodeWord (.atASwap d a b sem scope)]
  | .atAMin d a b sem scope => [encodeWord (.atAMin d a b sem scope)]
  | .atAMax d a b sem scope => [encodeWord (.atAMax d a b sem scope)]
  | .atAFadd d a b sem scope => [encodeWord (.atAFadd d a b sem scope)]
  | .atWAdd d a b sem scope => [encodeWord (.atWAdd d a b sem scope)]
  | .atWAnd d a b sem scope => [encodeWord (.atWAnd d a b sem scope)]
  | .atWOr d a b sem scope => [encodeWord (.atWOr d a b sem scope)]
  | .atWXor d a b sem scope => [encodeWord (.atWXor d a b sem scope)]
  | .atWSwap d a b sem scope => [encodeWord (.atWSwap d a b sem scope)]
  | .atWMin d a b sem scope => [encodeWord (.atWMin d a b sem scope)]
  | .atWMax d a b sem scope => [encodeWord (.atWMax d a b sem scope)]
  | .atWFadd d a b sem scope => [encodeWord (.atWFadd d a b sem scope)]
  | .atNMinn d a b sem scope => [encodeWord (.atNMinn d a b sem scope)]
  | .atNMaxn d a b sem scope => [encodeWord (.atNMaxn d a b sem scope)]
  | .atNIncw d a b sem scope => [encodeWord (.atNIncw d a b sem scope)]
  | .atNDecw d a b sem scope => [encodeWord (.atNDecw d a b sem scope)]
  | .atNFmin d a b sem scope => [encodeWord (.atNFmin d a b sem scope)]
  | .atNFmax d a b sem scope => [encodeWord (.atNFmax d a b sem scope)]
  | .atCas d a b sem scope => [encodeWord (.atCas d a b sem scope)]
  | .atCas2 d a b sem scope => [encodeWord (.atCas2 d a b sem scope)]
  | .fence kind scope => [encodeWord (.fence kind scope)]
  | .waitv d a b sem scope => [encodeWord (.waitv d a b sem scope)]
  | .waitvW d a b sem scope => [encodeWord (.waitvW d a b sem scope)]
  | .barInit a b => [encodeWord (.barInit a b)]
  | .barArrive d a => [encodeWord (.barArrive d a)]
  | .barWait d a b => [encodeWord (.barWait d a b)]
  | .barExpect a b => [encodeWord (.barExpect a b)]
  | .barArrivex d a b => [encodeWord (.barArrivex d a b)]
  | .barLvl b => [encodeWord (.barLvl b)]
  | .gang g => [encodeWord (.gang g)]
  | .gangLeave => [encodeWord (.gangLeave)]
  | .msg d a b => [encodeWord (.msg d a b)]
  | .hbind a b => [encodeWord (.hbind a b)]
  | .tend => [encodeWord (.tend)]
  | .spawn a q => [encodeWord (.spawn a q)]
  | .enq e a b => [encodeWord (.enq e a b)]
  | .deq d e => [encodeWord (.deq d e)]
  | .tlAlloc a b => [encodeWord (.tlAlloc a b)]
  | .tlFree a => [encodeWord (.tlFree a)]
  | .tlState d a => [encodeWord (.tlState d a)]
  | .tlWait a b => [encodeWord (.tlWait a b)]
  | .fAdd d a b p => [encodeWord (.fAdd d a b p)]
  | .fSub d a b p => [encodeWord (.fSub d a b p)]
  | .fMul d a b p => [encodeWord (.fMul d a b p)]
  | .fDiv d a b p => [encodeWord (.fDiv d a b p)]
  | .fSqrt d a p => [encodeWord (.fSqrt d a p)]
  | .fMin d a b p => [encodeWord (.fMin d a b p)]
  | .fMax d a b p => [encodeWord (.fMax d a b p)]
  | .fClass d a p => [encodeWord (.fClass d a p)]
  | .fCeq d a b p => [encodeWord (.fCeq d a b p)]
  | .fClt d a b p => [encodeWord (.fClt d a b p)]
  | .fCle d a b p => [encodeWord (.fCle d a b p)]
  | .fFma d a b c p => [encodeWord (.fFma d a b c p)]
  | .fCvt d a frm tgt => [encodeWord (.fCvt d a frm tgt)]
  | .vLd vd base pm sem scope off => [encodeWord (.vLd vd base pm sem scope off)]
  | .vSt vd base pm sem scope off => [encodeWord (.vSt vd base pm sem scope off)]
  | .vLdx vd vi pm base wide => [encodeWord (.vLdx vd vi pm base wide)]
  | .vStx vd vi pm base wide => [encodeWord (.vStx vd vi pm base wide)]
  | .vAdd vd va vb pm ty => [encodeWord (.vAdd vd va vb pm ty)]
  | .vSub vd va vb pm ty => [encodeWord (.vSub vd va vb pm ty)]
  | .vMul vd va vb pm ty => [encodeWord (.vMul vd va vb pm ty)]
  | .vMin vd va vb pm ty => [encodeWord (.vMin vd va vb pm ty)]
  | .vMax vd va vb pm ty => [encodeWord (.vMax vd va vb pm ty)]
  | .vAnd vd va vb pm ty => [encodeWord (.vAnd vd va vb pm ty)]
  | .vOr vd va vb pm ty => [encodeWord (.vOr vd va vb pm ty)]
  | .vXor vd va vb pm ty => [encodeWord (.vXor vd va vb pm ty)]
  | .vShl vd va vb pm ty => [encodeWord (.vShl vd va vb pm ty)]
  | .vShr vd va vb pm ty => [encodeWord (.vShr vd va vb pm ty)]
  | .vSha vd va vb pm ty => [encodeWord (.vSha vd va vb pm ty)]
  | .vAbs vd va pm ty => [encodeWord (.vAbs vd va pm ty)]
  | .vNeg vd va pm ty => [encodeWord (.vNeg vd va pm ty)]
  | .vDiv vd va vb pm ty => [encodeWord (.vDiv vd va vb pm ty)]
  | .vMulh vd va vb pm ty => [encodeWord (.vMulh vd va vb pm ty)]
  | .vFma vd va vb vc pm ty => [encodeWord (.vFma vd va vb vc pm ty)]
  | .vCmp pd va vb pm ty cond => [encodeWord (.vCmp pd va vb pm ty cond)]
  | .vCvt vd va pm frm tgt => [encodeWord (.vCvt vd va pm frm tgt)]
  | .vRedAdd vd va pm ty => [encodeWord (.vRedAdd vd va pm ty)]
  | .vRedMin vd va pm ty => [encodeWord (.vRedMin vd va pm ty)]
  | .vRedMax vd va pm ty => [encodeWord (.vRedMax vd va pm ty)]
  | .vRedAnd vd va pm ty => [encodeWord (.vRedAnd vd va pm ty)]
  | .vRedOr vd va pm ty => [encodeWord (.vRedOr vd va pm ty)]
  | .vRedXor vd va pm ty => [encodeWord (.vRedXor vd va pm ty)]
  | .vPerm vd va vb pm w => [encodeWord (.vPerm vd va vb pm w)]
  | .vMovBcst vd s w => [encodeWord (.vMovBcst vd s w)]
  | .vMovMovs vd s idx w => [encodeWord (.vMovMovs vd s idx w)]
  | .vMovIns vd s idx w => [encodeWord (.vMovIns vd s idx w)]
  | .vMovP2s p s => [encodeWord (.vMovP2s p s)]
  | .vMovS2p p s => [encodeWord (.vMovS2p p s)]
  | .vSfRcp vd va pm => [encodeWord (.vSfRcp vd va pm)]
  | .vSfRsqrt vd va pm => [encodeWord (.vSfRsqrt vd va pm)]
  | .vSfExp2 vd va pm => [encodeWord (.vSfExp2 vd va pm)]
  | .vSfLog2 vd va pm => [encodeWord (.vSfLog2 vd va pm)]
  | .mxCfg a b => [encodeWord (.mxCfg a b)]
  | .mxZero d => [encodeWord (.mxZero d)]
  | .mxMma d a b => [encodeWord (.mxMma d a b)]
  | .mxDrain d => [encodeWord (.mxDrain d)]
  | .mxWait => [encodeWord (.mxWait)]
  | .sgLoad a b => [encodeWord (.sgLoad a b)]
  | .sgCommit a => [encodeWord (.sgCommit a)]
  | .sgStream a b => [encodeWord (.sgStream a b)]
  | .sgSbar a => [encodeWord (.sgSbar a)]
  | .sgWait d a b => [encodeWord (.sgWait d a b)]
  | .sgFreeze a => [encodeWord (.sgFreeze a)]
  | .sgThaw a => [encodeWord (.sgThaw a)]
  | .plAnd pd pa pb => [encodeWord (.plAnd pd pa pb)]
  | .plOr pd pa pb => [encodeWord (.plOr pd pa pb)]
  | .plXor pd pa pb => [encodeWord (.plXor pd pa pb)]
  | .plAndn pd pa pb => [encodeWord (.plAndn pd pa pb)]
  | .plNot pd pa => [encodeWord (.plNot pd pa)]
  | .plSet pd => [encodeWord (.plSet pd)]
  | .plClr pd => [encodeWord (.plClr pd)]
  | .pcmp pd cond a b => [encodeWord (.pcmp pd cond a b)]
  | .ghPush d a b rel => [encodeWord (.ghPush d a b rel)]
  | .ghAdd d a b rel => [encodeWord (.ghAdd d a b rel)]
  | .ghSet d a b rel => [encodeWord (.ghSet d a b rel)]
  | .ghDone rel => [encodeWord (.ghDone rel)]
  | .ghSum d a => [encodeWord (.ghSum d a)]
  | .ghCfg a b => [encodeWord (.ghCfg a b)]
  | .ghDump d a b => [encodeWord (.ghDump d a b)]
  | .tkOpen d a => [encodeWord (.tkOpen d a)]
  | .tkRelease a => [encodeWord (.tkRelease a)]
  | .tkArm a b => [encodeWord (.tkArm a b)]
  | .tkDisarm a => [encodeWord (.tkDisarm a)]
  | .tkBudget a b => [encodeWord (.tkBudget a b)]
  | .tkCommit d a vb => [encodeWord (.tkCommit d a vb)]
  | .tkPeek d a vb => [encodeWord (.tkPeek d a vb)]
  | .tkRead d a b => [encodeWord (.tkRead d a b)]
  | .sysr d reg => [encodeWord (.sysr d reg)]
  | .sysw a reg => [encodeWord (.sysw a reg)]
  | .sysx d a reg => [encodeWord (.sysx d a reg)]
  | .xlInvVa a => [encodeWord (.xlInvVa a)]
  | .xlInvCtx => [encodeWord (.xlInvCtx)]
  | .xlSync => [encodeWord (.xlSync)]
  | .sigNop _ _ _ _ => []
  | .sigMov _ _ _ _ => []
  | .sigDup _ _ _ _ => []
  | .sigEmit _ _ _ _ => []
  | .sigAdd _ _ _ _ => []
  | .sigSub _ _ _ _ => []
  | .sigMul _ _ _ _ => []
  | .sigFma _ _ _ _ => []
  | .sigMin _ _ _ _ => []
  | .sigMax _ _ _ _ => []
  | .sigAnd _ _ _ _ => []
  | .sigOr _ _ _ _ => []
  | .sigXor _ _ _ _ => []
  | .sigShl _ _ _ _ => []
  | .sigShr _ _ _ _ => []
  | .sigSha _ _ _ _ => []
  | .sigPcmp _ _ _ _ => []
  | .sigSel _ _ _ _ => []
  | .sigSteer _ _ _ _ => []
  | .sigGate _ _ _ _ => []
  | .sigMerge _ _ _ _ => []
  | .sigIter _ _ _ _ => []
  | .sigAcc _ _ _ _ => []
  | .sigNzsend _ _ _ _ => []
  | .sigSink _ _ _ _ => []
  | .sigCvt _ _ _ _ => []
  | .sigLd _ _ _ _ => []
  | .sigSt _ _ _ _ => []
  | .sigAtAdd _ _ _ _ => []
  | .sigAtMin _ _ _ _ => []
  | .sigAtMax _ _ _ _ => []
  | .sigAtOr _ _ _ _ => []
  | .sigAtAnd _ _ _ _ => []
  | .sigAtXor _ _ _ _ => []
  | .sigAtSwap _ _ _ _ => []
  | .sigAtCas _ _ _ _ => []
  | .sigAtTas _ _ _ _ => []
  | .sigCall _ _ _ _ => []
  | .sigRet _ _ _ _ => []
  | .sigRed _ _ _ _ => []
  | .sigDiv _ _ _ _ => []
  | .sigSqrt _ _ _ _ => []
  | .nBeatRuleBeat _ _ _ _ => []
  | .lqpush _ _ _ => []
  | .lqctlAbort _ _ => []
  | .lqstatClear _ _ _ => []
  | .registerWrite _ _ => []
  | .bankSwitchDone _ => []
  | .rampRateUpdate _ _ => []
  | .launchHead _ _ => []
  | .launchWaitSatisfied _ _ => []
  | .kind3WaitPoll _ _ => []
  | .heapBind _ => []
  | .groupStart _ _ => []
  | .widStart _ _ => []
  | .handlerStart _ => []
  | .callbackTaskStart _ => []
  | .heapDispatch _ => []
  | .launchComplete _ => []
  | .packetArrival _ => []
  | .packetDeferredAccept _ _ => []
  | .fifoPopComplete _ => []
  | .fifoPushComplete _ => []
  | .tileReady _ _ => []
  | .tileEmpty _ _ => []
  | .waitvWake _ => []
  | .waitlimitExpiry _ => []
  | .waiteWake _ => []
  | .barWaitReturn _ => []
  | .copy _ => []
  | .fill _ => []
  | .gather _ => []
  | .scatter _ => []
  | .collate _ => []
  | .allred _ _ => []
  | .imageLoadComplete _ _ => []
  | .commitBroadcast _ _ => []
  | .invocationStart _ _ => []
  | .loaderReadResponse _ _ _ => []
  | .storerAccept _ _ _ => []
  | .gutterDrop _ _ _ _ => []
  | .invocationEnd _ _ => []
  | .drainBoundExpiry _ _ => []
  | .crossingCall _ _ => []
  | .activationEnqueue _ _ => []
  | .callbackPacketSend _ _ => []
  | .returnDelivery _ => []
  | .jointCfg _ _ => []
  | .jointZero _ _ => []
  | .jointMma _ _ => []
  | .jointDrain _ _ => []
  | .terminationWave _ => []
  | .heapAbortUnbind _ => []
  | .gets _ _ _ => []
  | .getm _ _ _ => []
  | .upgrade _ _ _ => []
  | .putm _ _ => []
  | .puto _ _ => []
  | .fwdGets _ _ => []
  | .fwdGetm _ _ => []
  | .inv _ _ => []
  | .l2Eviction _ _ => []
  | .homeTagEviction _ => []
  | .snpdata _ => []
  | .snpinv _ => []
  | .snpcur _ => []
  | .hostCxlMemAccess _ _ => []
  | .peerAccess _ _ _ => []
  | .kind4StoreFailure _ _ => []
  | .poisonDetect _ _ => []
  | .zoreyLinkDown _ => []
  | .hostPortTrainingLoss _ => []
  | .deviceStart _ => []
  | .createContext _ => []
  | .destroyContext => []
  | .switchOut => []
  | .switchIn _ _ => []
  | .supervisorBoundExpiry _ => []
  | .preemptionBoundExpiry _ _ => []
  | .setRegionTable _ => []
  | .attest => []
  | .repair _ => []
  | .updateMainFirmware _ _ => []
  | .unknownCommand => []
  | .debugHaltThread _ => []
  | .debugResumeThread _ _ => []
  | .debugReadThread _ _ => []
  | .debugWriteThread _ _ _ => []
  | .debugWriteStepState _ _ _ => []
  | .debugFreezeRegion _ _ => []
  | .debugStepRegion _ _ => []
  | .debugThawRegion _ _ => []
  | .debugReadRegion _ _ _ => []
  | .debugWriteRegion _ _ _ _ => []
  | .illegalInstruction => []
  | .instructionFetchFault => []
  | .tokenHop _ _ _ _ _ => []
  | .qflagsUpdate _ _ => []
  | .powerFail _ _ => []
  | .mbdoorWriteWhileBusy => []

/-- The bytes of one word, little-endian (R3). -/
def wordBytes (w : Nat) : List Byte :=
  [BitVec.ofNat 8 w, BitVec.ofNat 8 (w / 256), BitVec.ofNat 8 (w / 65536), BitVec.ofNat 8 (w / 16777216)]

/-- The bytes of a list of words in memory order. -/
def wordsBytes : List Nat → List Byte
  | [] => []
  | w :: ws => wordBytes w ++ wordsBytes ws

/-- The instruction the decoder reads from the bits w, bit 0 the least significant bit of the first word: the word
and the zero words behind it, up to the longest instruction, stored little-endian and decoded. -/
def decodeTableWord (nbits w : Nat) : Option Instr :=
  match decode (wordsBytes [w % 2 ^ nbits, w % 2 ^ nbits / 2 ^ 32, w % 2 ^ nbits / 2 ^ 64]) with
  | .ok (i, _) => some i
  | .error _ => none

end Sys2Proof
end

