-- ==== Sys2Proof/Machine/State.lean ====
section
/-! DEFINITION. The state of the device as plain data: threads, cores, quires, contexts, launches, memory and caches,
signature regions, joint arrays, sequence records, the mailbox and firmware's tables, and the model's own schedule. -/

namespace Sys2Proof.Machine

/-- A sparse table by number: keys strictly rising, no entry equal to the default that a missing key reads as. -/
abbrev Table (α : Type) := List (Nat × α)

/-- Why the machine stops. -/
inductive Fault where
  /-- Raised by `step` when power is off (POWER_FAIL) and the schedule names no start of the device; safe. -/
  | noPower
deriving DecidableEq, Repr

/-- Why an instruction has no meaning in the model. -/
inductive Refusal where
  /-- Raised by an arm of `exec` for an instruction not modelled yet, by its mnemonic; safe. -/
  | notModelled (mnemonic : String)
deriving DecidableEq, Repr

/-- The mode of a thread (R51). -/
inductive Mode where
  | user | supervisor
deriving DecidableEq, Repr

/-- What a thread holds (R28, R44, R106, R204, R241). -/
inductive Work where
  /-- The thread is free. -/
  | free
  /-- A WID: its launch, the linear index of the WID (R26), and the level-c group it lies in (R27). -/
  | wid (launch linear : Nat)
  /-- A handler task (R44). -/
  | handler
  /-- A heap task: its launch, its key, and whether it has executed GH.DONE (R204, R206). -/
  | heapTask (launch key : Nat) (done : Bool)
  /-- A callback task and its frame (R106). -/
  | callback (frame : Nat)
deriving DecidableEq, Repr

/-- The translation that an access goes through (R159): the virtual address, the bits of the page, and G. -/
structure Via where
  va   : Word
  bits : Nat
  glob : Bool
deriving DecidableEq, Repr

/-- A pattern of an edge port (R81): a stream descriptor's fields. -/
structure Pattern where
  base     : Word
  esize    : Nat
  dims     : Nat
  indirect : Bool
  storer   : Bool
  scope    : Nat
  counts   : List Nat
  strides  : List Int
deriving DecidableEq, Repr

/-- What a thread waits for. `retry`: its instruction issues again when it could complete (R39, R59);
the other waits are ended by the step that the spec names. -/
inductive Wait where
  | none
  | retry
  /-- WAITV armed (R65): destination, virtual address, size in bytes, site key, semantics and scope, deadline. -/
  | waitv (d : SReg) (va : Word) (size : Nat) (sem : Sem) (scope : Scope) (deadline : Option Nat)
  /-- LD.Q of memory kind 3 or 4 between its two 8-byte reads (R177): whether the high half was read first, and its value. -/
  | half (high : Bool) (v : Nat)
  /-- WAITE (R283, R414) and its deadline. -/
  | waite (deadline : Option Nat)
  /-- BAR.WAIT on the object at an address, whose site key it last read, with the phase it leaves (R63). -/
  | barWait (d : SReg) (va : Word) (key : Nat) (phase : Nat)
  /-- A load waiting on an empty FIFO (R56), with the translation it was accepted through (R159). -/
  | fifoLoad (t : SReg) (fifo : Nat) (via : Via)
  /-- SG.LOAD until its load ends, SG.COMMIT until its broadcast (R84). -/
  | sgLoad (region : Nat)
  | sgCommit (region : Nat)
  /-- A member waits for its gang to form (R115). -/
  | gang (array : Nat)
  /-- A crossing call waits for its return (R103). -/
  | crossing (frame : Nat)
  /-- BAR.LVL (R63, R336). -/
  | level (k : Nat)
  /-- A SYSW of BANKROLE waits for the bank switch it began (R54). -/
  | bank (core : Nat)
  /-- SG.STREAM waits for room at its port's scoreboard, with the pattern it copied at issue (R397). -/
  | stream (folio region : Nat) (port : Nat) (p : Pattern)
deriving DecidableEq, Repr

/-- One entry of a thread's engine command FIFOs (R60): a command is pending, accepted, or complete with a status. -/
inductive CmdState where
  | pending | accepted
  | complete (status : Nat)
deriving DecidableEq, Repr

/-- A command of a thread to an engine (R60). `orphan` marks one left unpopped by work that has ended: it completes and
its result word is discarded (R355); `work` is the work that pushed it. -/
structure Cmd where
  engine : Engine
  ctx    : Nat
  work   : Work
  a      : Word
  b      : Word
  st     : CmdState
  orphan : Bool
deriving DecidableEq, Repr

/-- One hardware thread (R50, R51, R226). -/
structure Thread where
  work       : Work
  s          : Vector Word 64
  v          : Vector Vec 32
  p          : Vector Word 8
  sStamp     : Vector Nat 64
  vStamp     : Vector Nat 32
  pStamp     : Vector Nat 8
  pc         : Word
  mode       : Mode
  fctl       : BitVec 8
  wid        : Word
  widShape   : Word
  waitLimit  : Word
  heapId     : Word
  trapCause  : BitVec 8
  trapPc     : Word
  trapVal    : Word
  trapFrame  : Word
  trapIter   : Word
  trapScratch : Word
  dcause     : BitVec 8
  trapSub    : BitVec 8
  trapFrec   : Bool
  trapKind   : BitVec 3
  trapDbl    : Bool
  trapPost   : Bool
  stepctl    : BitVec 7
  brk        : Vector Word 4
  /-- Halted for the debug port (R67, R230). -/
  halted     : Bool
  /-- A halt the debug port asked for, taken at the next user-mode boundary (R245). -/
  haltAsked  : Bool
  /-- YIELD: the picker passes over the thread at its next turn (R283). -/
  yielded    : Bool
  /-- A packet of the thread's context joined the core's queue since its work started or its last WAITE returned (R414). -/
  packet     : Bool
  ctx        : Nat
  wait       : Wait
  /-- Fetched instruction words by virtual address, kept until ISYNC (R193). -/
  ibuf       : Table Nat
  cmds       : List Cmd
  /-- The first dropped kind-4 store not yet reported, and how many were dropped (R175). -/
  peerFail   : Option Word
  peerDrops  : Nat
  /-- Translations removed by XL.INV since the last XL.SYNC: those of an address, or every non-global one (R159). -/
  removed    : List (Option Word)
deriving DecidableEq, Repr

/-- The state of a tile descriptor (R57, R58). -/
inductive TileSt where
  | free | empty | filling | ready | draining
deriving DecidableEq, Repr

/-- A tile descriptor (R57): `landed` marks that the producer's last write or the consumer's last read is done,
`waiters` the threads that wait and the states in which each of them issues, oldest first (R58). -/
structure Tile where
  base    : Nat
  len     : Nat
  st      : TileSt
  landed  : Bool
  waiters : List (Nat × List TileSt)
deriving DecidableEq, Repr

/-- One L1 line: 64 bytes and the cycle of its fill (R160), and for each thread of the core that has stored to it since, the cycle
of its last store (log 141). -/
structure L1Line where
  line   : Nat
  fill   : Nat
  stored : Table Nat
  data   : BitVec 512
deriving DecidableEq, Repr

/-- One store in a core's write-through buffer, not yet at its site (R160, R173, R175). -/
structure Pending where
  thread : Nat
  ctx    : Nat
  via    : Via
  kind   : Nat
  grain  : Nat
  policy : Nat
  cells  : List Host.Cell
deriving DecidableEq, Repr

/-- A hardware FIFO of a bank (R56), with the threads whose loads wait on it in the order they reached the bank. -/
structure Fifo where
  entries : List Word
  loads   : List Nat
deriving DecidableEq, Repr

/-- A push that a full FIFO holds in the store path of the core that issued it (R56, R407): the FIFO is numbered 64 times
its core plus its number there. -/
structure HeldPush where
  thread : Nat
  ctx    : Nat
  via    : Via
  fifo   : Nat
  v      : Word
deriving DecidableEq, Repr

/-- A core (R53, R57, R160). Roles are the codes of BANKROLE. -/
structure Core where
  role0    : BitVec 2
  role1    : BitVec 2
  role2    : BitVec 2
  busy     : BitVec 4
  /-- The bank switch in progress: the new roles of banks 0 to 2 and the thread that wrote them (R54). -/
  switching : Option (BitVec 2 × BitVec 2 × BitVec 2 × Nat)
  /-- Tile descriptor n of context c at 32 c + n: every context finds its own 32 (R57, R234; log 131). -/
  tiles    : Table Tile
  fifos    : Table Fifo
  l1       : List L1Line
  wbuf     : List Pending
  /-- Pushes held by full FIFOs, in issue order (R56). -/
  pushes   : List HeldPush
  /-- The thread selected last by the issue picker (R39). -/
  lastIssue : Nat
  /-- The source that takes the next freed thread: 0 handler picker, 1 gain-heap engine, 2 dispatcher (R38). -/
  source   : Nat
  /-- The context whose handler was started last (R44). -/
  lastCtx  : Nat
deriving DecidableEq, Repr

/-- A cached translation of a core (R158). -/
structure Tlb where
  core : Nat
  ctx  : Nat
  /-- Virtual page number in units of 2^bits, and bits: 12, 16, 21 or 30. -/
  page : Nat
  bits : Nat
  pte  : BitVec 64
deriving DecidableEq, Repr

/-- A packet (R40, R42). `frame` marks a callback packet (R106). -/
structure Packet where
  ctx    : Nat
  thread : Nat
  dst    : Nat
  label  : Nat
  w0     : Word
  w1     : Word
  two    : Bool
  frame  : Option Nat
deriving DecidableEq, Repr

/-- The message queue and handler table of a context on a core (R42, R44, R45, R244). -/
structure Mail where
  queue     : List Packet
  deferred  : List Packet
  /-- Bound handlers by label. -/
  handlers  : Table Word
  lastLabel : Nat
  /-- Handler starts on the core that passed the context over while it had a ready label (R46; log 143). -/
  passed    : Nat
deriving DecidableEq, Repr

/-- A launch queue (R32 to R34). -/
structure LQueue where
  pending : List Word
  /-- The launch that holds the head slot. -/
  head    : Option Nat
  enable  : Bool
  serial  : Bool
  reason  : BitVec 8
  aborted : Bool
  ovf     : Bool
  rej     : Bool
  errHdr  : Word
  done    : Word
deriving DecidableEq, Repr

/-- One wave of the heap coordinator (R208). -/
structure Wave where
  sent  : Nat
  recv  : Nat
  accs  : List Nat
  good  : Bool
deriving DecidableEq, Repr

/-- The heap of a heap-bound launch (R196, R198, R208, R211). -/
structure HeapBinding where
  desc     : Word
  template : Word
  tpayload : Word
  floor    : BitVec 32
  tol      : BitVec 64
  map      : List Nat
  dumpAddr : Word
  dumpCap  : Word
  bound    : Bool
  ended    : Bool
  wave     : Option Wave
deriving DecidableEq, Repr

/-- A launch whose header has been read (R22, R30, R31). -/
structure Launch where
  ctx      : Nat
  q        : Nat
  hdr      : Word
  entry    : Word
  flags    : Word
  extents  : List Nat
  mask     : BitVec 16
  arg      : Word
  compl    : Word
  incr     : Word
  slice    : Nat
  waits    : List (Word × Word)
  seen     : List Bool
  /-- Placement units handed out, and WIDs running and halted. -/
  nextUnit : Nat
  running  : Nat
  halted   : Nat
  aborted  : Bool
  /-- The dispatcher's slot (R241). -/
  slot     : Nat
  heap     : Option HeapBinding
deriving DecidableEq, Repr

/-- A group in reservation (R37). -/
structure Resv where
  launch  : Nat
  unit    : Nat
  threads : List Nat
deriving DecidableEq, Repr

/-- A stored entry of a gain heap (R199). -/
structure HEntry where
  key     : Nat
  v       : BitVec 32
  payload : Word
deriving DecidableEq, Repr

/-- A gain-heap engine (R198, R199, R204, R207, R208). Entries are in increasing key order. -/
structure HeapEng where
  launch  : Option Nat
  entries : List HEntry
  running : List HEntry
  acc     : Nat
  floor   : BitVec 32
  tol     : BitVec 64
  sent    : Nat
  recv    : Nat
deriving DecidableEq, Repr

/-- The wired barrier of a level-k group: the launch, the level, the group and the threads that have arrived (R63, R336). -/
structure LvlBar where
  launch  : Nat
  level   : Nat
  group   : Nat
  threads : List Nat
deriving DecidableEq, Repr

/-- A quire (R12, R37, R48, R53). -/
structure Quire where
  resv     : Option Resv
  heap     : HeapEng
  levels   : List LvlBar
  rampSlots : BitVec 32
  rampUp   : BitVec 12
  rampDown : BitVec 12
  /-- Contexts that hold queue slices here (R53). -/
  slices   : List Nat
  /-- Dispatch stopped for repair (R261). -/
  stopped  : Bool
  /-- QFLAGS by context (R51, R52). -/
  qflags   : Table (BitVec 5)
deriving DecidableEq, Repr

/-- A context (R20, R226, R238). -/
structure Ctx where
  live     : Bool
  inn      : Bool
  /-- A pre-emption in progress (R234). -/
  leaving  : Bool
  root     : Nat
  allowed  : BitVec 16
  reserve  : Bool
  stackBase : Word
  stackStride : Word
  framePool : Word
  saveBase : Word
  fifoArea : Word
  trapvec  : Word
  debug    : Bool
  pools    : List PoolReq
  queues   : Table LQueue
  /-- The queue whose launch was served last (R36). -/
  lastQ    : Nat
deriving DecidableEq, Repr

/-- A contribution to a collation object (R150): the linear index and the 64 bytes. -/
structure Contribution where
  linear : Nat
  data   : Vec
deriving DecidableEq, Repr

/-- A collation object bound to a launch (R150). -/
structure Collation where
  key     : Nat
  va      : Word
  ctx     : Nat
  launch  : Nat
  parts   : List Contribution
deriving DecidableEq, Repr

/-- The kind of a token (R69). -/
inductive TokKind where
  | data | eos | drain | mark | ord | err
deriving DecidableEq, Repr

/-- A token (R69). `src` names the storers whose ORD tokens it descends from (R182), each with the number of the latest held entry
that such an ORD came of; `arr` is the number of held entries the receiving region had made when it reached its input (R87). -/
structure Token where
  kind    : TokKind
  payload : Word
  src     : Table Nat
  arr     : Nat
deriving DecidableEq, Repr

/-- A rule of a tile (R291, R292). Operations are named by their OP code (R294). -/
structure Rule where
  imm16  : BitVec 16
  nmin   : Nat
  outreq : BitVec 4
  inkind : List Nat
  inreq  : BitVec 4
  qval   : Preds
  qcare  : Preds
  pcmpt  : Nat
  qv     : Preds
  qw     : Preds
  okind  : Nat
  enq    : BitVec 4
  deq    : BitVec 4
  srcC   : Nat
  srcB   : Nat
  srcA   : Nat
  dst    : Nat
  op     : Nat
deriving DecidableEq, Repr

/-- A route word (R299); columns are relative to the region and may lie outside it. -/
structure Route where
  dcol : Int
  drow : Nat
  din  : Nat
  lane : Nat
  sfmt : Nat
  rfmt : Nat
deriving DecidableEq, Repr

/-- A tile record of an image (R296 to R298). -/
structure TileRec where
  col     : Nat
  row     : Nat
  kind    : Nat
  sink    : Bool
  sinkN   : Nat
  cfg     : Word
  e       : List Word
  memInit : Table Byte
  pattern : Option Pattern
  iterStrides : List Int
  routes  : List (Option Route)
  conflict : BitVec 256
  rules   : List Rule
deriving DecidableEq, Repr

/-- A configuration plane (R84, R101): the descriptor it came from and the image's records. -/
structure Plane where
  desc    : Word
  width   : Nat
  ecol    : Nat
  erow    : Nat
  fifo    : Nat
  recs    : List TileRec
deriving DecidableEq, Repr

/-- The shadow plane of a region (R84, R85). A load in progress holds its descriptor's fields, the address of the image, its length,
and whether the device issued it again at a restore (R243, R395). -/
inductive Shadow where
  | none
  | loading (p : Plane) (image : Word) (len : Nat) (again : Bool)
  | complete (p : Plane)
deriving DecidableEq, Repr

/-- A stream command at a port scoreboard (R91, R397). -/
structure Stream where
  thread  : Nat
  port    : Nat
  pattern : Pattern
  /-- Its number in the region and the cycle of its arrival (R436). -/
  num     : Nat
  cycle   : Nat
deriving DecidableEq, Repr

/-- What an invocation runs for (R86, R437). -/
inductive InvKind where
  | activation (frame : Nat)
  | stream
deriving DecidableEq, Repr

/-- The phase of a region (R86 to R90): its data phase runs, or it drains and ends as the reason says. -/
inductive Phase where
  | idle | running | draining
deriving DecidableEq, Repr

/-- Why an invocation is discarded: underlying cause, column, row, slot and address where valid (R231). -/
structure Discard where
  cause : Nat
  col   : Nat
  row   : Nat
  slot  : Option Nat
  addr  : Option Word
deriving DecidableEq, Repr

/-- What a CALL or RET node left for the crossing unit (R105, R107): of a call the callee pointer, the frame popped for it,
the caller's frame, the resume point, the callee's FIFO (0 in quire code), the arguments and the live values. -/
inductive Crossing where
  | call (callee : Word) (frame caller resume fifo : Nat) (args live : List Word)
  | ret (a0 a1 : Word)
deriving DecidableEq, Repr

/-- A region and its controller (R82 to R92, R246, R436, R437). -/
structure Region where
  first   : Nat
  width   : Nat
  owner   : Nat
  east    : Bool
  debug   : Bool
  active  : Option Plane
  shadow  : Shadow
  fifo    : Nat
  phase   : Phase
  inv     : Option InvKind
  iter    : List Nat
  invNo   : Nat
  stray   : Nat
  flags   : BitVec 5
  drops   : Nat
  dropTok : Option (Word × Nat × Nat)
  bad     : Option Discard
  crossing : Option Crossing
  callFrame : Option Nat
  /-- Tiles whose sink has reported in this invocation, as column times 36 plus row (R88). -/
  reported : List Nat
  frozen  : Bool
  /-- The freeze is that of a pre-emption (R236), not of the debug port or SG.FREEZE (R246). -/
  preempted : Bool
  /-- Stream commands that are not complete, oldest first, and the number of the next one (R91, R397). -/
  streams : List Stream
  nextStream : Nat
  /-- The stream status (R399); the latest fault's underlying cause and iteration word, and whether it is still to be
  reported (R233). -/
  status  : Word
  fault   : Nat
  faultIter : Word
  faultNew : Bool
  /-- Held entries made in this invocation (R87), and the flags it has raised, which `flags` keeps (R72, R135, R399). -/
  seq     : Nat
  invFlags : BitVec 5
  /-- Held stores of kind 4, or through a lost host port, that failed when they were released (R175, R251). -/
  peerDrops : Nat
deriving DecidableEq, Repr

/-- An N-beat rule in progress on a datapath (R75): slot, next beat, the values it has gathered, the first poison it has
dequeued (R71), and the storers its tokens descend from. -/
structure Beat where
  slot : Nat
  next : Nat
  vals : List Word
  err  : Option Word
  src  : Table Nat
deriving DecidableEq, Repr

/-- A held entry of a storer (R87): bytes of one 64-byte segment, or an atomic with its OP code and operands. `seq` is its
place among the region's entries, `via` the translation taken at acceptance, `more` those of the stores merged into it (R159). -/
structure Held where
  seq    : Nat
  via    : Via
  more   : List Via
  key    : Nat
  kind   : Nat
  grain  : Nat
  bytes  : List Host.Cell
  atomic : Option (Nat × Word × Word)
deriving DecidableEq, Repr

/-- A token that a replaced configuration left on its way over an open gutter, with the input that its route ends at and the stage of
the route at which it stands (R70). -/
structure Late where
  col : Nat
  row : Nat
  inp : Nat
  pos : Nat
  tok : Token
deriving DecidableEq, Repr

/-- The running state of a field tile (R70, R72, R75 to R78, R81, R435). -/
structure FTile where
  e      : List Word
  q      : Preds
  ins    : List (List Token)
  outs   : List (List Token)
  /-- Tokens on the hops of each output's route between the two tiles it joins, nearest hop first. A freeze may leave one token more
  than a channel or a hop takes otherwise: it stands in the slack entry of its receiver (R236). -/
  hops   : List (List (List Token))
  /-- Tokens of earlier configurations still on their way, in the order they were sent on each route. -/
  late   : List Late
  beatA  : Option Beat
  beatB  : Option Beat
  mem    : Table Byte
  /-- The entries of a token FIFO (R76), each with what its token descended from (R182). -/
  fifo   : List (Word × Table Nat)
  /-- The slot whose operation a bank conflict made enter one cycle later (R77). -/
  owed   : Option Nat
  cache  : Table (BitVec 512)
  /-- Converter (R343): elements collected of the current block, the exponent token it took, and converted tokens not yet
  sent, exponent tokens marked. -/
  conv   : List Nat
  convE  : Option Word
  convO  : List (Bool × Word)
  /-- The storers that the collected elements descend from (R182). -/
  convSrc : Table Nat
  /-- Edge port (R81): the pattern it runs with the stream command it came from, whether its latest pattern is indirect, elements done,
  and whether the pattern of the image has ended. -/
  cmd    : Option (Pattern × Option Nat)
  indexed : Bool
  /-- The port has taken a stream command in this invocation (R397). -/
  taken  : Bool
  pos    : Nat
  fin    : Bool
  /-- EOS tokens counted (R88). -/
  eos    : Nat
  held   : List Held
  /-- The latest entry that the stores since the last ORD were accepted into (R182). -/
  ordSeq : Nat
  /-- Entries made before this number take no later store of the pattern (R81, R87). -/
  fence  : Nat
deriving DecidableEq, Repr

/-- A contribution of a member to a joint operation (R116): function code and the three operand words. -/
structure Contrib where
  fn : Nat
  d  : Word
  a  : Word
  b  : Word
deriving DecidableEq, Repr

/-- A coherence unit that the tile fetch unit has pinned (R122): the operation that reads it, the site key and the translation of
its first byte, the bytes read, and whether they were poisoned. `taken` says that the array has taken the bytes in, so that the line is
pinned no longer (log 171). -/
structure Pin where
  op    : Nat
  key   : Nat
  via   : Via
  bytes : List Byte
  bad   : Bool
  taken : Bool
deriving DecidableEq, Repr

/-- A drain to the field in progress (R123, R125): its operation number, its set, the running invocation that its latest token went to,
and the number of tokens sent. -/
structure FieldDrain where
  op   : Nat
  set  : Nat
  inv  : Option Nat
  sent : Nat
deriving DecidableEq, Repr

/-- A joint array (R113 to R127). Accumulator entries are numbered 128 times the row plus the column. -/
structure JArray where
  gang     : Nat
  ctx      : Nat
  formed   : Bool
  /-- Member thread by position, and positions whose membership has ended. -/
  members  : Table Nat
  left     : List Nat
  /-- Positions that wait in GANG 0 (R127). -/
  leaving  : List Nat
  cfg      : Word
  xoff     : Word
  set0     : Table Word
  set1     : Table Word
  /-- Contributions not yet performed, by position, oldest first; and how many each has issued. -/
  contribs : Table (List Contrib)
  issued   : Table Nat
  /-- Operations performed, or begun in the case of the drain to the field that is in progress. -/
  performed : Nat
  /-- Failures by position: operation number and status (R126). -/
  fails    : Table (List (Nat × Nat))
  flags    : Table (BitVec 5)
  /-- Entries of a set left unspecified by poison: the counter of its free values (R126). -/
  spoiled0 : Option Nat
  spoiled1 : Option Nat
  draining : Option FieldDrain
  pins     : List Pin
  /-- The configuration and XOFF that contexts left behind (R118). -/
  past     : Table (Word × Word)
deriving DecidableEq, Repr

/-- A bookmark of a sequence record (R214, R218). -/
structure Bookmark where
  armed   : Bool
  hits    : Nat
  kind    : Nat
  action  : Nat
  trap    : Bool
  oneshot : Bool
  len     : Nat
  wild    : BitVec 8
  ctr     : Nat
  limit   : Nat
  pat     : List Nat
  forced  : List Nat
  addr    : Word
  value   : Word
deriving DecidableEq, Repr

/-- A record of a sequence unit (R213, R214). -/
structure SeqRec where
  isOpen  : Bool
  ctx     : Nat
  gen     : Nat
  pos     : Nat
  h       : List Nat
  hlen    : Nat
  stopped : Bool
  stopBm  : Nat
  cnt     : List Nat
  lo      : List Nat
  hi      : List Nat
  /-- The counters whose range TK.BUDGET has set: with no other does a token count (R214). -/
  ranged  : List Bool
  bms     : List Bookmark
deriving DecidableEq, Repr

/-- The state of a coherence unit in an L2 (R163). -/
inductive Moesi where
  | m | o | e | s | i
deriving DecidableEq, Repr

/-- The directory state at a home (R162). -/
inductive Dir where
  | u | s | x | o
deriving DecidableEq, Repr

/-- A message from the home that a cache has yet to answer (R163, R165). -/
inductive HomeMsg where
  | fwdGetS | fwdGetM | inv
deriving DecidableEq, Repr

/-- A coherence unit (R161 to R166): the directory, the caches' states, a write-back in flight, and the messages a
request in service waits for. Sharer numbers are those of R162. -/
structure CUnit where
  dir     : Dir
  owner   : Nat
  vec     : BitVec 24
  caches  : Table Moesi
  /-- Caches whose PutM or PutO is not yet acknowledged, with the state they left, and those whose write-back a forwarded
  request has made stale (R165). -/
  writing : Table Moesi
  stale   : List Nat
  /-- Messages sent and not yet answered, by cache. -/
  msgs    : List (Nat × HomeMsg)
  /-- The request that waits for them: requester and the state it is granted. -/
  serving : Option (Nat × Moesi)
  /-- In which state the home holds a host-home unit toward the host home agent (R170, R171). -/
  host    : Moesi
deriving DecidableEq, Repr

/-- The mailbox (R257): buffers by byte offset, the certificate that an attestation returns with its report (R256), and MBSTAT. -/
structure Mailbox where
  req    : Table Byte
  resp   : Table Byte
  cert   : List Byte
  result : BitVec 8
  ovr    : Bool
  done   : Bool
  busy   : Bool
deriving DecidableEq, Repr

/-- An entry of the bring-up record (R259): a step, the sub-step of step 6 or 7, and whether it finished. -/
structure BringUp where
  step     : Nat
  sub      : Nat
  finished : Bool
deriving DecidableEq, Repr

/-- The ordering codes (R1). -/
inductive Product where
  | a4p | a4m
deriving DecidableEq, Repr

/-- Firmware's tables and what bring-up found (R14, R249 to R264). -/
structure Device where
  product   : Product
  power     : Bool
  /-- Tier-2 has backing (R2, R259). -/
  tier2     : Bool
  /-- `device.state`: 0 normal, 1 degraded, 2 minimal (R260, R264). -/
  state     : Nat
  present   : BitVec 16
  fields    : BitVec 4
  failrun   : Nat
  record    : List BringUp
  generation : Nat
  /-- Which host ports trained CXL, and which are trained at all (R250, R251). -/
  cxl       : BitVec 2
  ports     : BitVec 2
  /-- Width and rate of each trained port (R249). -/
  portLinks : Table PortLink
  /-- HDM decoder k of port p at 2 p + k, as first byte and length, and the ranges of device memory that supervisor code exports
  (R172, R250). -/
  decoders  : Table (Nat × Nat)
  exported  : List (Nat × Nat)
  links     : BitVec 18
  zorey     : Option Nat
  peers     : List (Nat × Nat × Nat)
  coreTable : Table Nat
  colTable  : Table Nat
  /-- Spare cores that each quire has used (R12, R261). -/
  spares    : Table Nat
  conservative : Bool
  spineSlow : Bool
  claspSlot : Nat
  mainSlot  : Nat
  /-- The images in the two flash slots of each, and the images that run (R255, R256, R262). -/
  claspImages : List Signed
  mainImages : List Signed
  claspImage : List Byte
  mainImage : List Byte
  /-- The configuration blocks, in block order (R254 to R256). -/
  blocks    : List Signed
  rampFloorUp : BitVec 12
  rampFloorDown : BitVec 12
deriving DecidableEq, Repr

/-- An enqueue that the crossing unit holds for an activation FIFO (R102). -/
structure Enqueue where
  ctx    : Nat
  fifo   : Nat
  frame  : Nat
  resume : Nat
  cont   : Bool
  a0     : Word
  a1     : Word
deriving DecidableEq, Repr

/-- The state of a switched-out context as the device saved it (R127, R234, R239, R242): what its save area holds in a form
private to the device, the groups it had in reservation by quire, and the packets of reclaimed queue slices by core (R53). -/
structure Saved where
  threads : Table Thread
  arrays  : Table JArray
  regions : Table Region
  tiles   : Table FTile
  resvs   : Table Resv
  packets : Table (List Packet)
deriving DecidableEq, Repr

/-- A thread's armed monitor (R65): the site key of the monitored word, and whether its monitor unit has been written. -/
structure Monitor where
  key : Nat
  hit : Bool
deriving DecidableEq, Repr

/-- The dispatcher's monitor on a wait of a launch (R30): the wait's number, the site key of its word, the minimum, and whether a store
has satisfied it. -/
structure Watch where
  launch : Nat
  k      : Nat
  key    : Nat
  min    : Word
  hit    : Bool
deriving DecidableEq, Repr

/-- A range of host or peer memory whose owner turns accesses away: AtomicOps of kind 3 (R174), only those of 128 bits where
`wide` is set (R302), and every access of kind 4 (R175). -/
structure Turned where
  lo   : Nat
  len  : Nat
  wide : Bool
deriving DecidableEq, Repr

/-- An act of the model's schedule: a step of the device or the host, the issue of one instruction at a core, or a
choice the spec leaves to the caches. -/
inductive Act where
  | event (i : Instr)
  | issue (core : Nat)
  /-- A core's L1 gives up a line, a buffered store is delivered, a translation or a fetched word is dropped. -/
  | evictL1 (core line : Nat)
  | deliver (core index : Nat)
  | evictTlb (index : Nat)
  | dropFetched (thread va : Nat)
  /-- A host agent or a peer device writes memory of its own, kinds 2 to 4. -/
  | outsideWrite (pa : Nat) (bytes : List Byte)
  /-- A host or a peer will report damaged data for bytes of its memory (R168, R175, R251). -/
  | outsideDamage (pa n : Nat)
  /-- A root complex or a peer turns away accesses to a range of its memory from now on, or takes every access again
  (R174, R175). -/
  | outsideTurn (r : Turned)
  | outsideTake
  /-- The tile fetch unit pins a coherence unit for an operation of an array (R122). -/
  | pin (array op : Nat) (va : Word)
  /-- The host reads a register through a port (R247 to R249). -/
  | hostRead (port off : Nat)
  /-- The host sets decoder k of a port; supervisor code exports a range of device memory, or takes every range back (R172,
  R250). -/
  | setDecoder (port k lo len : Nat)
  | exportRange (lo len : Nat)
  | exportNothing
  /-- An image is put into a flash slot, of clasp or of main firmware; the configuration blocks are replaced (R255). -/
  | flash (main : Bool) (slot : Nat) (image : Signed)
  | flashBlocks (blocks : List Signed)
deriving DecidableEq, Repr

/-- The state of the machine. -/
structure State where
  /-- Physical bytes below 2^52; quire SRAM byte W of quire q at 2^52 + q times 0x0300_0000 + W. -/
  mem      : List Host.Cell
  /-- Poisoned units: first byte and length (R168). -/
  poison   : List (Nat × Nat)
  threads  : Table Thread
  cores    : Table Core
  quires   : Table Quire
  ctxs     : Table Ctx
  launches : Table Launch
  nextLaunch : Nat
  /-- The context served last by the dispatchers (R36). -/
  lastServed : Nat
  /-- Message state of context c on core k at 3072 c + k. -/
  mails    : Table Mail
  net      : List Packet
  tlbs     : List Tlb
  collations : List Collation
  /-- Region n of folio f at 16 f + n; tile (c, r) of folio f at 1440 f + 36 c + r. -/
  regions  : Table Region
  ftiles   : Table FTile
  arrays   : Table JArray
  seqs     : Table SeqRec
  /-- Coherence units by number of their first 32-byte sector, and the grain of each 512-byte line. -/
  units    : Table CUnit
  grains   : Table Nat
  enqueues : List Enqueue
  /-- Callback packets and returns that wait in the crossing units: context and frame (R106, R107). -/
  callbacks : List (Nat × Nat)
  returns  : List (Nat × Nat)
  /-- Callee frames whose push back to the pool waits for a continuation's start: context, caller frame, callee frame
  (R107). -/
  freeAtStart : List (Nat × Nat × Nat)
  /-- The cycles in which the entries of activation FIFO n of context c arrived, at 4096 c + n (R436). -/
  arrivals : Table (List Nat)
  saved    : Table Saved
  mailbox  : Mailbox
  dev      : Device
  cycle    : Nat
  time     : Nat
  /-- The thread that issues, or issued last. -/
  cur      : Nat
  /-- The model's own: what happens next, and the counter of its free values. -/
  agenda   : List Act
  free     : Nat
  /-- Armed monitors by thread (R65). -/
  monitors : Table Monitor
  /-- The dispatchers' monitors (R30). -/
  watches  : List Watch
  /-- What hosts and peers turn away (R174, R175). -/
  turned   : List Turned
  /-- What the host's last read of the register space returned, none where it was not completed (R247, R248). -/
  hostData : Option Word
deriving DecidableEq, Repr

/-- A free thread after reset (R50 to R52, R66, R226): registers whose reset value the spec does not give are 0
(DESIGN CHOICE, log 4). -/
def Thread.reset : Thread where
  s := Vector.replicate 64 0
  v := Vector.replicate 32 0
  p := Vector.replicate 8 0
  sStamp := Vector.replicate 64 0
  vStamp := Vector.replicate 32 0
  pStamp := Vector.replicate 8 0
  pc := 0
  mode := .user
  fctl := 0
  wid := 0
  widShape := 0
  waitLimit := 0
  heapId := 0
  trapCause := 0
  trapPc := 0
  trapVal := 0
  trapFrame := 0
  trapIter := 0
  trapScratch := 0
  dcause := 0
  trapSub := 0
  trapFrec := false
  trapKind := 0
  trapDbl := false
  trapPost := false
  stepctl := 0
  brk := Vector.replicate 4 0
  halted := false
  haltAsked := false
  yielded := false
  packet := false
  work := .free
  ctx := 0
  wait := .none
  ibuf := []
  cmds := []
  peerFail := none
  peerDrops := 0
  removed := []

/-- A core after reset: bank 0 is cache, banks 1 and 2 scratchpad (R53); the rotations start before their first
member (DESIGN CHOICE, log 3). -/
def Core.reset : Core where
  role0 := 0
  role1 := 1
  role2 := 1
  busy := 0
  switching := none
  tiles := []
  fifos := []
  l1 := []
  wbuf := []
  pushes := []
  lastIssue := 3
  source := 0
  lastCtx := 63

/-- An unbound, empty gain-heap engine (R198). -/
def HeapEng.reset : HeapEng where
  launch := none
  entries := []
  running := []
  acc := 0
  floor := 0
  tol := 0
  sent := 0
  recv := 0

/-- A quire after reset (R48, R53). -/
def Quire.reset : Quire where
  resv := none
  heap := HeapEng.reset
  levels := []
  rampSlots := 0
  rampUp := 800
  rampDown := 800
  slices := []
  stopped := false
  qflags := []

/-- An empty launch queue (R33). -/
def LQueue.reset : LQueue where
  pending := []
  head := none
  enable := false
  serial := false
  reason := 0
  aborted := false
  ovf := false
  rej := false
  errHdr := 0
  done := 0

/-- A context that is not live. -/
def Ctx.reset : Ctx where
  live := false
  inn := false
  leaving := false
  root := 0
  allowed := 0
  reserve := false
  stackBase := 0
  stackStride := 0
  framePool := 0
  saveBase := 0
  fifoArea := 0
  trapvec := 0
  debug := false
  pools := []
  queues := []
  lastQ := 15

/-- An empty message queue with nothing bound (R44). -/
def Mail.reset : Mail where
  queue := []
  deferred := []
  handlers := []
  lastLabel := 127
  passed := 0

/-- A free tile descriptor (R57). -/
def Tile.reset : Tile where
  base := 0
  len := 0
  st := .free
  landed := false
  waiters := []

/-- An empty hardware FIFO (R54, R56). -/
def Fifo.reset : Fifo where
  entries := []
  loads := []

/-- A region number that no region has (R82): width 0. -/
def Region.reset : Region where
  first := 0
  width := 0
  owner := 0
  east := false
  debug := false
  active := none
  shadow := .none
  fifo := 0
  phase := .idle
  inv := none
  iter := [0, 0, 0, 0]
  invNo := 0
  stray := 0
  flags := 0
  drops := 0
  dropTok := none
  bad := none
  crossing := none
  callFrame := none
  reported := []
  frozen := false
  preempted := false
  streams := []
  nextStream := 0
  status := 0
  fault := 0
  faultIter := 0
  faultNew := false
  seq := 0
  invFlags := 0
  peerDrops := 0

/-- A field tile with nothing in it (R435). -/
def FTile.reset : FTile where
  e := [0, 0, 0, 0, 0, 0, 0, 0]
  q := 0
  ins := [[], [], [], []]
  outs := [[], [], [], []]
  hops := [[], [], [], []]
  late := []
  beatA := none
  beatB := none
  mem := []
  fifo := []
  owed := none
  cache := []
  conv := []
  convE := none
  convO := []
  convSrc := []
  cmd := none
  indexed := false
  taken := false
  pos := 0
  fin := false
  eos := 0
  held := []
  ordSeq := 0
  fence := 0

/-- A joint array with no gang (R113, R118). -/
def JArray.reset : JArray where
  gang := 0
  ctx := 0
  formed := false
  members := []
  left := []
  leaving := []
  cfg := 0
  xoff := 0
  set0 := []
  set1 := []
  contribs := []
  issued := []
  performed := 0
  fails := []
  flags := []
  spoiled0 := none
  spoiled1 := none
  draining := none
  pins := []
  past := []

/-- A disarmed bookmark (R214). -/
def Bookmark.reset : Bookmark where
  armed := false
  hits := 0
  kind := 0
  action := 0
  trap := false
  oneshot := false
  len := 0
  wild := 0
  ctr := 0
  limit := 0
  pat := []
  forced := []
  addr := 0
  value := 0

/-- A closed sequence record of generation 0 (R213). -/
def SeqRec.reset : SeqRec where
  isOpen := false
  ctx := 0
  gen := 0
  pos := 0
  h := [0, 0, 0, 0, 0, 0, 0, 0]
  hlen := 0
  stopped := false
  stopBm := 0
  cnt := [0, 0, 0, 0]
  lo := [0, 0, 0, 0]
  hi := [0, 0, 0, 0]
  ranged := [false, false, false, false]
  bms := List.replicate 8 Bookmark.reset

/-- A coherence unit that no one holds (R162). -/
def CUnit.reset : CUnit where
  dir := .u
  owner := 0
  vec := 0
  caches := []
  writing := []
  stale := []
  msgs := []
  serving := none
  host := .i

/-- The mailbox after reset (R257). -/
def Mailbox.reset : Mailbox where
  req := []
  resp := []
  cert := []
  result := 0
  ovr := false
  done := false
  busy := false

/-- A CLF-A4M whose last start was clean and found every part (R12, R259, R264; DESIGN CHOICE, log 2). -/
def Device.reset : Device where
  product := .a4m
  power := true
  tier2 := true
  state := 0
  present := 0xFFFF
  fields := 0xF
  failrun := 0
  record := []
  generation := 0
  cxl := 3
  ports := 3
  portLinks := [(0, { lanes := 16, gen := 6 }), (1, { lanes := 16, gen := 6 })]
  decoders := []
  exported := []
  links := 0x3FFFF
  zorey := none
  peers := []
  coreTable := []
  colTable := []
  spares := []
  conservative := false
  spineSlow := false
  claspSlot := 0
  mainSlot := 0
  claspImages := []
  mainImages := []
  claspImage := []
  mainImage := []
  blocks := []
  rampFloorUp := 800
  rampFloorDown := 800

/-- The machine right after reset: no context is live, every thread is free, nothing is in memory that was written
(R6; the choices are in logs 2 to 5). -/
def State.reset : State where
  mem := []
  poison := []
  threads := []
  cores := []
  quires := []
  ctxs := []
  launches := []
  nextLaunch := 0
  lastServed := 63
  mails := []
  net := []
  tlbs := []
  collations := []
  regions := []
  ftiles := []
  arrays := []
  seqs := []
  units := []
  grains := []
  enqueues := []
  callbacks := []
  returns := []
  freeAtStart := []
  arrivals := []
  saved := []
  mailbox := Mailbox.reset
  dev := Device.reset
  cycle := 0
  time := 0
  cur := 0
  agenda := []
  free := 0
  monitors := []
  watches := []
  turned := []
  hostData := none

end Sys2Proof.Machine
end

