-- ==== Sys2Proof/Machine/Ops.lean ====
section
/-! DEFINITION. The named operations over tables, registers and bytes of memory, and the taking of a trap and the return
from one (R228, R230), the completion of an instruction and its waits. -/

namespace Sys2Proof.Machine

open Host (Outcome)

/-- What one step answers. -/
abbrev Out := Outcome State Fault Refusal

/-- The value of a key, the default where the table lists none. -/
def tget {α : Type} (d : α) : Table α → Nat → α
  | [], _ => d
  | (j, v) :: t, k => if j = k then v else tget d t k

/-- The table without a key. -/
def terase {α : Type} : Table α → Nat → Table α
  | [], _ => []
  | (j, v) :: t, k => if j = k then terase t k else (j, v) :: terase t k

/-- The table with a value put in at its place. -/
def tput {α : Type} : Table α → Nat → α → Table α
  | [], k, v => [(k, v)]
  | (j, w) :: t, k, v => if k < j then (k, v) :: (j, w) :: t else if j = k then (k, v) :: t else (j, w) :: tput t k v

/-- Writes a key; writing the default removes the entry, so that equal tables are equal data. -/
def tset {α : Type} [DecidableEq α] (d : α) (t : Table α) (k : Nat) (v : α) : Table α :=
  if v = d then terase t k else tput t k v

/-- Changes every value of a table that is listed; entries that become the default go. -/
def tmap {α : Type} [DecidableEq α] (d : α) (f : α → α) (t : Table α) : Table α :=
  (t.map fun e => (e.1, f e.2)).filter fun e => e.2 ≠ d

/-- Keys strictly rise from a bound. -/
def tsorted {α : Type} : Nat → Table α → Bool
  | _, [] => true
  | lo, (j, _) :: t => lo ≤ j && tsorted (j + 1) t

/-- The canonical form of a table. -/
def twf {α : Type} [DecidableEq α] (d : α) (t : Table α) : Bool := tsorted 0 t && t.all (fun e => e.2 ≠ d)

/-- The canonical form of memory: addresses strictly rise and no listed byte is 0, which an unlisted byte reads as
(DESIGN CHOICE, log 5). -/
def Memory.wf (m : List Host.Cell) : Bool := twf 0 m

/-- One byte of memory at a site key. -/
def byteAt (m : List Host.Cell) (k : Nat) : Byte := tget 0 m k

/-- Writes one byte of memory. -/
def setByte (m : List Host.Cell) (k : Nat) (b : Byte) : List Host.Cell := tset 0 m k b

/-- Writes a list of bytes, the first at the lowest key. -/
def setBytes : List Host.Cell → Nat → List Byte → List Host.Cell
  | m, _, [] => m
  | m, k, b :: bs => setBytes (setByte m k b) (k + 1) bs

/-- Writes a list of cells. -/
def setCells : List Host.Cell → List Host.Cell → List Host.Cell
  | m, [] => m
  | m, (k, b) :: cs => setCells (setByte m k b) cs

/-- n bytes from a key upward. -/
def bytesAt (m : List Host.Cell) (k : Nat) : Nat → List Byte
  | 0 => []
  | n + 1 => byteAt m k :: bytesAt m (k + 1) n

/-- The little-endian value of a list of bytes (R3). -/
def leNat : List Byte → Nat
  | [] => 0
  | b :: bs => b.toNat + 256 * leNat bs

/-- The n bytes of a value, lowest first (R3). -/
def leBytes : Nat → Nat → List Byte
  | 0, _ => []
  | n + 1, x => BitVec.ofNat 8 x :: leBytes n (x / 256)

/-- The little-endian value of n bytes at a key. -/
def natAt (m : List Host.Cell) (k n : Nat) : Nat := leNat (bytesAt m k n)

/-- The 64-bit word at a key. -/
def wordAt (m : List Host.Cell) (k : Nat) : Word := BitVec.ofNat 64 (natAt m k 8)

/-- Bits hi down to lo of a word (R8). -/
def bits (w : Word) (hi lo : Nat) : Nat := w.toNat / 2 ^ lo % 2 ^ (hi + 1 - lo)

/-- One bit of a word. -/
def bit (w : Word) (n : Nat) : Bool := w.getLsbD n

/-- sext(x, n) (R8). -/
def sextN (n : Nat) (x : Nat) : Word := (BitVec.ofNat n x).signExtend 64

/-- zext(x, n) (R8). -/
def zextN (n : Nat) (x : Nat) : Word := BitVec.ofNat 64 (x % 2 ^ n)

/-- The i-th element of a list, a default beyond its end. -/
def nth {α : Type} (d : α) : List α → Nat → α
  | [], _ => d
  | x :: _, 0 => x
  | _ :: xs, n + 1 => nth d xs n

/-- A list with its i-th element replaced. -/
def setNth {α : Type} : List α → Nat → α → List α
  | [], _, _ => []
  | _ :: xs, 0, v => v :: xs
  | x :: xs, n + 1, v => x :: setNth xs n v

/-- A list without its i-th element. -/
def dropNth {α : Type} : List α → Nat → List α
  | [], _ => []
  | _ :: xs, 0 => xs
  | x :: xs, n + 1 => x :: dropNth xs n

/-- The numbers 0 to n - 1. -/
def upto (n : Nat) : List Nat := List.range n

/-! Parts of the state by number. -/

/-- Thread n (R28). -/
def State.thr (s : State) (n : Nat) : Thread := tget Thread.reset s.threads n
def State.setThr (s : State) (n : Nat) (t : Thread) : State := { s with threads := tset Thread.reset s.threads n t }
/-- The thread that issues. -/
def State.th (s : State) : Thread := s.thr s.cur
def State.setTh (s : State) (t : Thread) : State := s.setThr s.cur t
/-- The core of a thread and the quire and folio of a core (R13). -/
def coreOf (n : Nat) : Nat := n / 4
def quireOf (c : Nat) : Nat := c / 192
def folioOf (q : Nat) : Nat := q / 4
/-- Where the issuing thread stands. -/
def State.myCore (s : State) : Nat := coreOf s.cur
def State.myQuire (s : State) : Nat := quireOf s.myCore
def State.core (s : State) (c : Nat) : Core := tget Core.reset s.cores c
def State.setCore (s : State) (c : Nat) (x : Core) : State := { s with cores := tset Core.reset s.cores c x }
def State.quire (s : State) (q : Nat) : Quire := tget Quire.reset s.quires q
def State.setQuire (s : State) (q : Nat) (x : Quire) : State := { s with quires := tset Quire.reset s.quires q x }
def State.ctx (s : State) (c : Nat) : Ctx := tget Ctx.reset s.ctxs c
def State.setCtx (s : State) (c : Nat) (x : Ctx) : State := { s with ctxs := tset Ctx.reset s.ctxs c x }
def State.mail (s : State) (c k : Nat) : Mail := tget Mail.reset s.mails (3072 * c + k)
def State.setMail (s : State) (c k : Nat) (x : Mail) : State := { s with mails := tset Mail.reset s.mails (3072 * c + k) x }
/-- The context of the issuing thread. -/
def State.myCtx (s : State) : Ctx := s.ctx s.th.ctx
/-- A launch queue of a context (R32). -/
def State.lq (s : State) (c q : Nat) : LQueue := tget LQueue.reset (s.ctx c).queues q
def State.setLq (s : State) (c q : Nat) (x : LQueue) : State :=
  s.setCtx c { s.ctx c with queues := tset LQueue.reset (s.ctx c).queues q x }
/-- A launch by its number, none once it is gone. -/
def State.launch (s : State) (l : Nat) : Option Launch := tget none (s.launches.map fun e => (e.1, some e.2)) l
def State.setLaunch (s : State) (l : Nat) (x : Launch) : State := { s with launches := tput s.launches l x }
/-- A launch is gone, with the watches on its waits. A collation object bound to it stays bound, for the spec unbinds one only at a
launch's end, which an aborted launch does not reach (DESIGN CHOICE, log 166). -/
def State.dropLaunch (s : State) (l : Nat) : State :=
  { s with launches := terase s.launches l, watches := s.watches.filter fun w => w.launch != l }
/-- A quire is present when its mask bit is set (R14). -/
def State.present (s : State) (q : Nat) : Bool := q < 16 && s.dev.present.getLsbD q
def State.region (s : State) (f n : Nat) : Region := tget Region.reset s.regions (16 * f + n)
def State.setRegion (s : State) (f n : Nat) (x : Region) : State := { s with regions := tset Region.reset s.regions (16 * f + n) x }
def State.ftile (s : State) (f c r : Nat) : FTile := tget FTile.reset s.ftiles (1440 * f + 36 * c + r)
def State.setFtile (s : State) (f c r : Nat) (x : FTile) : State :=
  { s with ftiles := tset FTile.reset s.ftiles (1440 * f + 36 * c + r) x }
def State.array (s : State) (q j : Nat) : JArray := tget JArray.reset s.arrays (12 * q + j)
def State.setArray (s : State) (q j : Nat) (x : JArray) : State := { s with arrays := tset JArray.reset s.arrays (12 * q + j) x }
def State.seqRec (s : State) (f r : Nat) : SeqRec := tget SeqRec.reset s.seqs (16384 * f + r)
def State.setSeqRec (s : State) (f r : Nat) (x : SeqRec) : State := { s with seqs := tset SeqRec.reset s.seqs (16384 * f + r) x }
/-- Tile descriptor n of a context (R57). -/
def Core.tile (c : Core) (ctx n : Nat) : Tile := tget Tile.reset c.tiles (32 * ctx + n)
def Core.setTile (c : Core) (ctx n : Nat) (t : Tile) : Core := { c with tiles := tset Tile.reset c.tiles (32 * ctx + n) t }
def Core.fifo (c : Core) (n : Nat) : Fifo := tget Fifo.reset c.fifos n
def Core.setFifo (c : Core) (n : Nat) (t : Fifo) : Core := { c with fifos := tset Fifo.reset c.fifos n t }

/-! Registers of the issuing thread (R50): s0 and p0 are hard-wired, writes to them are discarded. Each write carries
the dependence stamp of R160. -/

/-- A scalar register; s0 reads 0. -/
def Thread.rs (t : Thread) (r : SReg) : Word := if r = 0 then 0 else t.s[r]
/-- A vector register. -/
def Thread.rv (t : Thread) (r : VReg) : Vec := t.v[r]
/-- A predicate register; p0 reads all ones. -/
def Thread.rp (t : Thread) (r : PReg) : Word := if r = 0 then BitVec.allOnes 64 else t.p[r]
/-- The stamps of the registers. -/
def Thread.ss (t : Thread) (r : SReg) : Nat := if r = 0 then 0 else t.sStamp[r]
def Thread.vs (t : Thread) (r : VReg) : Nat := t.vStamp[r]
def Thread.ps (t : Thread) (r : PReg) : Nat := if r = 0 then 0 else t.pStamp[r]
/-- Writes a scalar register with its stamp; s0 discards. -/
def Thread.ws (t : Thread) (r : SReg) (x : Word) (st : Nat) : Thread :=
  if r = 0 then t else { t with s := t.s.set r x, sStamp := t.sStamp.set r st }
/-- Writes a vector register with its stamp. -/
def Thread.wv (t : Thread) (r : VReg) (x : Vec) (st : Nat) : Thread :=
  { t with v := t.v.set r x, vStamp := t.vStamp.set r st }
/-- Writes a predicate register with its stamp; p0 discards. -/
def Thread.wp (t : Thread) (r : PReg) (x : Word) (st : Nat) : Thread :=
  if r = 0 then t else { t with p := t.p.set r x, pStamp := t.pStamp.set r st }

def State.rs (s : State) (r : SReg) : Word := s.th.rs r
def State.rv (s : State) (r : VReg) : Vec := s.th.rv r
def State.rp (s : State) (r : PReg) : Word := s.th.rp r
def State.ss (s : State) (r : SReg) : Nat := s.th.ss r
def State.vs (s : State) (r : VReg) : Nat := s.th.vs r
def State.ps (s : State) (r : PReg) : Nat := s.th.ps r
def State.ws (s : State) (r : SReg) (x : Word) (st : Nat) : State := s.setTh (s.th.ws r x st)
def State.wv (s : State) (r : VReg) (x : Vec) (st : Nat) : State := s.setTh (s.th.wv r x st)
def State.wp (s : State) (r : PReg) (x : Word) (st : Nat) : State := s.setTh (s.th.wp r x st)

/-- The pair register above an even register (R284, R285). -/
def pairReg (r : SReg) : SReg := r + 1

/-! Fields of FCTL and STEPCTL (R52, R66). -/

def Thread.rm (t : Thread) : Nat := t.fctl.toNat / 32
def Thread.flags (t : Thread) : BitVec 5 := t.fctl.setWidth 5
/-- ORs flags into FCTL; they are sticky (R52, R135). -/
def Thread.orFlags (t : Thread) (f : BitVec 5) : Thread := { t with fctl := t.fctl ||| f.setWidth 8 }
def State.orFlags (s : State) (f : BitVec 5) : State := s.setTh (s.th.orFlags f)
def Thread.stepping (t : Thread) : Bool := t.stepctl.getLsbD 0
def Thread.stepHalts (t : Thread) : Bool := t.stepctl.getLsbD 1
def Thread.brkEnabled (t : Thread) (n : Nat) : Bool := t.stepctl.getLsbD (2 + n)
def Thread.skips (t : Thread) : Bool := t.stepctl.getLsbD 6
def Thread.clearSkip (t : Thread) : Thread := { t with stepctl := t.stepctl &&& 0x3F }

/-- The code of the work a thread runs (R241). -/
def Work.code : Work → BitVec 3
  | .free => 0
  | .wid _ _ => 1
  | .handler => 2
  | .heapTask _ _ _ => 3
  | .callback _ => 4

/-! Taking a trap (R225, R228, R230). -/

/-- What a trap writes: cause, value, whether TRAPPC is past the instruction, and the fields the raising rule states. -/
structure TrapInfo where
  cause : Nat
  val   : Word
  post  : Bool
  pc    : Word
  frame : Word
  iter  : Word
  sub   : Nat
  frec  : Bool

/-- The trap registers as TrapEntry writes them (R228). -/
def Thread.trapRegs (t : Thread) (i : TrapInfo) : Thread :=
  { t with
    trapCause := BitVec.ofNat 8 i.cause, trapVal := i.val, trapPc := i.pc, trapFrame := i.frame, trapIter := i.iter
    trapSub := BitVec.ofNat 8 i.sub, trapFrec := i.frec, trapPost := i.post, trapKind := t.work.code
    dcause := 0, trapDbl := false }

/-- TrapEntry (R228) for one thread under its context's TRAPVEC, double traps included (R230). -/
def Thread.takeTrap (t : Thread) (vec : Word) (i : TrapInfo) : Thread :=
  match t.mode with
  | .supervisor => { t with dcause := BitVec.ofNat 8 i.cause, trapDbl := true, halted := true, wait := .none }
  | .user =>
    if vec = 0 then
      { t.trapRegs i with dcause := BitVec.ofNat 8 i.cause, trapDbl := true, halted := true, wait := .none }
    else { t.trapRegs i with mode := .supervisor, pc := vec, wait := .none }

/-- Takes a trap in thread n. -/
def State.takeTrap (s : State) (n : Nat) (i : TrapInfo) : State :=
  s.setThr n ((s.thr n).takeTrap (s.ctx (s.thr n).ctx).trapvec i)

/-- ERET in supervisor mode (R228): back to user mode at TRAPPC. -/
def Thread.eret (t : Thread) : Thread := { t with mode := .user, pc := t.trapPc, wait := .none }

/-! Completing an instruction. -/

/-- Why an instruction does not complete: a precise trap, or a wait that leaves the pc at it (R39, R228).
A wait may carry state changes: arming, joining, suspending. -/
inductive Stop where
  | trap (cause : Nat) (val : Word) (sub : Nat)
  /-- A precise trap that leaves changes outside the instruction's own effect behind (R175, R203). -/
  | trapIn (s : State) (cause : Nat) (val : Word)
  | wait (w : Wait)

/-- The result of an instruction's own effect. -/
abbrev Act? := Except Stop State

/-- A precise trap with a value (R225). -/
def trapV {α : Type} (cause : Nat) (val : Word) : Except Stop α := .error (.trap cause val 0)
/-- Illegal instruction with TRAPVAL 0. -/
def illegal {α : Type} : Except Stop α := trapV 0x01 0
/-- The instruction waits and issues again later. -/
def block {α : Type} : Except Stop α := .error (.wait .retry)
/-- Goes on only where a condition holds, else the trap. -/
def need (c : Bool) (cause : Nat) (val : Word) : Except Stop Unit := if c then .ok () else trapV cause val
/-- Goes on only where a condition holds, else waits. -/
def needOrWait (c : Bool) : Except Stop Unit := if c then .ok () else block

/-- The trap of an instruction that had no effect: TRAPPC is its address. -/
def atTrap (t : Thread) (cause : Nat) (val : Word) (sub : Nat) : TrapInfo :=
  { cause := cause, val := val, post := false, pc := t.pc, frame := 0, iter := 0, sub := sub, frec := false }

/-- After an instruction of thread n has completed with its next pc in place (R67): with STEP set in user mode, the step
trap, or the halt when MODE = 1. `was` is the mode in which it issued. -/
def State.afterStep (s : State) (n : Nat) (was : Mode) : State :=
  let t := s.thr n
  if was = .user ∧ t.stepping = true then
    if t.stepHalts then s.setThr n { t with halted := true }
    else s.takeTrap n { cause := 0x0D, val := 0, post := true, pc := t.pc, frame := 0, iter := 0, sub := 0, frec := false }
  else s

/-- SKIP ends with the first user-mode instruction after ERET (R66). -/
def Thread.endSkip (t : Thread) : Thread := if t.mode = .user then t.clearSkip else t

/-- The issuing thread completes an instruction of n words: the pc moves on, the wait ends, the step trap follows. -/
def State.retire (s : State) (words : Nat) : State :=
  let t := s.th
  (s.setTh { t.endSkip with pc := t.pc + BitVec.ofNat 64 (4 * words), wait := .none }).afterStep s.cur t.mode

/-- The issuing thread completes a jump. -/
def State.jump (s : State) (target : Word) : State :=
  let t := s.th
  (s.setTh { t.endSkip with pc := target, wait := .none }).afterStep s.cur t.mode

/-- The issuing thread completes an instruction of one word and takes a trap that follows completion, in place of its
step trap (R225 "Next", R229 step 7). -/
def State.retireTrap (s : State) (cause : Nat) (val : Word) : State :=
  let t := s.th
  let s' := s.setTh { t.endSkip with pc := t.pc + 4, wait := .none }
  s'.takeTrap s.cur
    { cause := cause, val := val, post := true, pc := t.pc + 4, frame := 0, iter := 0, sub := 0, frec := false }

/-- What a step answers for an instruction: its effect, its precise trap on the state before it, or its wait. SKIP is left as it is
where the first instruction after ERET raises a precise trap of its own (DESIGN CHOICE, log 135). -/
def finish (s : State) : Act? → Outcome State Fault Refusal
  | .ok s' => .next s'
  | .error (.trap c v sub) => .next (s.takeTrap s.cur (atTrap s.th c v sub))
  | .error (.trapIn s' c v) => .next (s'.takeTrap s'.cur (atTrap s'.th c v 0))
  | .error (.wait w) => .next (s.setTh { s.th with wait := w })

/-- A step of the device that the state does not allow leaves everything as it is. -/
def stutter (s : State) : Out := .next s

/-- A step of the device: its effect where it may happen, else nothing. -/
def event (s : State) (r : Option State) : Out :=
  match r with
  | some s' => .next s'
  | none => .next s

/-- The next free value, and the state that has used it (log 9). -/
def State.freeWord (s : State) : Word × State := (Config.freeWord s.free, { s with free := s.free + 1 })

end Sys2Proof.Machine
end

