-- ==== Sys2Proof/Machine/Coherence.lean ====
section
/-! DEFINITION. The directory protocol of the quire L2s (R161 to R166, R170 to R172). A copy holds no data of its own in
the model: every copy of a unit holds the unit's one coherent value, which stands in memory (DEDUCED, log 13). -/

namespace Sys2Proof.Machine

/-- Sectors in one coherence unit of a grain (R161). -/
def grainSectors : Nat → Nat
  | 0 => 1
  | 1 => 4
  | _ => 16

/-- The grain fixed for a line at its home, 3 while no copy of the line exists (R161). -/
def State.grainOf (s : State) (line : Nat) : Nat := tget 3 s.grains line

/-- A physical address in Tier-1, or in Tier-2 where it has backing (R152, R154). -/
def State.tierPa (s : State) (pa : Nat) : Bool := pa < 2 ^ 39 || (pa < 2 ^ 41 && s.dev.tier2)

/-- Device memory at a physical address span (R152). -/
def State.deviceSpan (s : State) (pa n : Nat) : Bool :=
  decide (0 < n) && s.tierPa pa && s.tierPa (pa + n - 1)

/-- Whether a range (first byte and length) holds a span. -/
def holdsSpan (r : Nat × Nat) (pa n : Nat) : Bool := decide (r.1 ≤ pa ∧ pa + n ≤ r.1 + r.2)

/-- Whether CXL.mem reaches a span of device memory through a port (R172, R250, R251): the port trained CXL, one of its two HDM
decoders names the span, and supervisor code exports it. -/
def State.cxlMem (s : State) (port pa n : Nat) : Bool :=
  s.dev.cxl.getLsbD port && s.deviceSpan pa n &&
  (s.dev.decoders.any fun e => e.1 / 2 == port && holdsSpan e.2 pa n) && s.dev.exported.any fun r => holdsSpan r pa n

/-- The coherence unit of a physical address: the number of its first sector, under the line's grain, the given
page grain while the line is not cached. -/
def State.unitOf (s : State) (pa pageGrain : Nat) : Nat :=
  let g := if s.grainOf (pa / 512) = 3 then pageGrain else s.grainOf (pa / 512)
  pa / 32 / grainSectors g * grainSectors g

def State.cunit (s : State) (u : Nat) : CUnit := tget CUnit.reset s.units u
def State.setCunit (s : State) (u : Nat) (x : CUnit) : State := { s with units := tset CUnit.reset s.units u x }

/-- A unit of a host-home line: kinds 2 and 3 lie in the upper half of the physical map (R152). -/
def hostHome (u : Nat) : Bool := 2 ^ 51 ≤ 32 * u

def CUnit.cache (x : CUnit) (c : Nat) : Moesi := tget .i x.caches c
def CUnit.setCache (x : CUnit) (c : Nat) (st : Moesi) : CUnit := { x with caches := tset .i x.caches c st }
def CUnit.holds (x : CUnit) (r : Nat) : Bool := x.vec.getLsbD r
def CUnit.addVec (x : CUnit) (r : Nat) : CUnit := { x with vec := x.vec ||| BitVec.ofNat 24 (2 ^ r) }

/-- The home obtains a host-home unit from the host home agent: RdOwn, to E, for a copy that may be written, RdShared, to S,
for any other (R170). -/
def State.hostObtain (s : State) (u : Nat) (own : Bool) : State :=
  let x := s.cunit u
  if hostHome u ∧ (x.host = .i ∨ (own = true ∧ x.host = .s)) then s.setCunit u { x with host := if own then .e else .s } else s

/-- Written data has reached the home: it holds a host-home unit in M (R170). -/
def CUnit.dirtied (x : CUnit) (u : Nat) : CUnit := if hostHome u ∧ x.host ≠ .i then { x with host := .m } else x

/-- The home gives a host-home unit up: CleanEvict from S or E, DirtyEvict from M (R170). -/
def State.hostGiveUp (s : State) (u : Nat) : State := s.setCunit u { s.cunit u with host := .i }

/-- The sharers of a vector, one excepted (R164). -/
def sharersBut (v : BitVec 24) (r : Nat) : List Nat := (upto 21).filter fun i => v.getLsbD i && i ≠ r

/-- Whether a line of any folio's cache banks lies in a unit. -/
def lineInUnit (u n line : Nat) : Bool := 32 * u < 64 * line + 64 && 64 * line < 32 * (u + n)

/-- An invalidation at a sharer: a quire L2 goes to I; for the fabric banks of a folio the lines leave every bank
(R76, R162, R163). -/
def State.dropCopy (s : State) (u c : Nat) : State :=
  let n := grainSectors (s.grainOf (u / 16))
  let s := s.setCunit u ((s.cunit u).setCache c .i)
  if 16 ≤ c ∧ c < 20 then
    let drop := fun e : Nat × FTile =>
      if e.1 / 1440 = c - 16 then (e.1, { e.2 with cache := e.2.cache.filter fun l => !lineInUnit u n l.1 }) else e
    { s with ftiles := (s.ftiles.map drop).filter (·.2 ≠ FTile.reset) }
  else s

/-- A cache answers a message from the home (R163, R165): a write-back in flight serves it from its buffer. -/
def State.answer (s : State) (c u : Nat) (m : HomeMsg) : State :=
  let x := s.cunit u
  let x := { x with msgs := x.msgs.erase (c, m) }
  let y := if tget Moesi.i x.writing c = .i then x else { x with stale := c :: x.stale.erase c }
  match m with
  | .inv => (s.setCunit u x).dropCopy u c
  | .fwdGetM => s.setCunit u (y.setCache c .i)
  | .fwdGetS =>
    match x.cache c with
    | .m => s.setCunit u (if hostHome u then (x.setCache c .s).dirtied u else x.setCache c .o)
    | .e => s.setCunit u (x.setCache c .s)
    | .o => s.setCunit u x
    | .s => s.setCunit u x
    | .i => s.setCunit u (if tget Moesi.i x.writing c = .m then y.dirtied u else y)

/-- Whether the owner of a unit in X answered a Fwd-GetS as a cache in M, from its copy or from its write-back buffer, and so
owns the unit from then on; a host-home unit never enters O (R163 to R165). -/
def CUnit.ownerWasM (x : CUnit) (u : Nat) : Bool :=
  x.cache x.owner == .o || (!hostHome u && tget Moesi.i x.writing x.owner == .m && x.stale.contains x.owner)

/-- The home ends the request it serves once every message is answered (R164): the new directory state follows from
what the owner became. -/
def State.grant (s : State) (u : Nat) : State :=
  let x := s.cunit u
  match x.serving with
  | none => s
  | some (r, want) =>
    if x.msgs ≠ [] then s
    else
      let x := { x with serving := none }
      match want with
      | .m => s.setCunit u { (x.setCache r .m) with dir := .x, owner := r, vec := 0 }
      | _ =>
        let y := if r < 16 then x.setCache r .s else x
        match x.dir with
        | .x =>
          if x.ownerWasM u then s.setCunit u ({ y with dir := .o, vec := 0 }.addVec r)
          else s.setCunit u (({ y with dir := .s, vec := 0 }.addVec x.owner).addVec r)
        | .o => s.setCunit u (y.addVec r)
        | .s => s.setCunit u (y.addVec r)
        | .u => s.setCunit u ({ y with dir := .s, vec := 0 }.addVec r)

/-- Every outstanding message of a unit is answered, and its request ends. -/
def State.settle (s : State) (u : Nat) : State :=
  (((s.cunit u).msgs.foldl (fun s m => s.answer m.1 u m.2) s)).grant u

/-- The home brings one unit to U by Fwd-GetM to the holder and Inv to every sharer (R166); write-backs in flight become
stale (R165). -/
def State.recallUnit (s : State) (u : Nat) : State :=
  let s := s.settle u
  let x := s.cunit u
  let cs := (if x.dir = .x ∨ x.dir = .o then [x.owner] else []) ++ sharersBut x.vec 24
  let s := cs.foldl (fun s c => s.dropCopy u c) s
  let y := if x.cache x.owner = .m ∨ tget Moesi.i x.writing x.owner = .m then (s.cunit u).dirtied u else s.cunit u
  s.setCunit u { y with dir := .u, owner := 0, vec := 0, caches := [], stale := y.writing.map (·.1) }

/-- The units of a line under its grain. -/
def State.unitsOfLine (s : State) (line : Nat) : List Nat :=
  if s.grainOf line = 3 then [] else (upto (16 / grainSectors (s.grainOf line))).map fun i => 16 * line + i * grainSectors (s.grainOf line)

/-- The home evicts a tag: every unit of the line is recalled, dirty data is in memory, or given back to the host, and the
grain is free (R161, R166, R170). -/
def State.recallLine (s : State) (line : Nat) : State :=
  let s := (s.unitsOfLine line).foldl (fun s u => (s.recallUnit u).hostGiveUp u) s
  { s with grains := terase s.grains line }

/-- When a line's grain changes every new unit that holds a byte of a poisoned unit is poisoned (R168). -/
def State.spreadPoison (s : State) (line g : Nat) : State :=
  let n := 32 * grainSectors g
  let grow := fun (p : Nat × Nat) =>
    if p.1 / 512 = line ∧ p.1 < 2 ^ 52 then
      (upto ((p.1 + p.2 - 1) / n - p.1 / n + 1)).map fun i => ((p.1 / n + i) * n, n)
    else [p]
  { s with poison := (s.poison.flatMap grow).eraseDups }

/-- A request that carries a grain: the line adopts it, after a recall when it had another (R161). -/
def State.adoptGrain (s : State) (line g : Nat) : State :=
  if s.grainOf line = g then s
  else
    let s := if s.grainOf line = 3 then s else s.recallLine line
    let s := s.spreadPoison line g
    { s with grains := tput s.grains line g }

/-- The 32-byte sectors that hold a byte of a span, by the address of their first byte (R161). -/
def sectorsOf (pa n : Nat) : List Nat := (upto ((pa + n - 1) / 32 - pa / 32 + 1)).map fun i => 32 * (pa / 32 + i)

/-- A request for the coherence unit of every sector of a span. A unit asked for again is found as the first request left it. -/
def State.overSectors (s : State) (f : State → Nat → State) (pa n : Nat) : State := (sectorsOf pa n).foldl f s

/-- GetS at the home (R164): data at once, or a Fwd-GetS to the owner first. An owner that asks again has given its copy up,
an E copy silently; the home serves it from its own copy, as it would in U or S (DEDUCED, log 107). -/
def State.homeGetS (s : State) (r u : Nat) : State :=
  let s := s.hostObtain u ((s.cunit u).dir == .u && r < 16)
  let x := s.cunit u
  match x.dir with
  | .u =>
    if r < 16 then s.setCunit u { (x.setCache r .e) with dir := .x, owner := r, vec := 0 }
    else s.setCunit u ({ x with dir := .s, vec := 0 }.addVec r)
  | .s => s.setCunit u ((if r < 16 then x.setCache r .s else x).addVec r)
  | .x =>
    if x.owner = r then s.setCunit u (x.setCache r .e)
    else s.setCunit u { x with serving := some (r, .s), msgs := [(x.owner, .fwdGetS)] }
  | .o =>
    if x.owner = r then s.setCunit u ({ (x.setCache r .s) with dir := .s, owner := 0 }.addVec r)
    else s.setCunit u { x with serving := some (r, .s), msgs := [(x.owner, .fwdGetS)] }

/-- GetM at the home (R164). -/
def State.homeGetM (s : State) (r u : Nat) : State :=
  let s := s.hostObtain u true
  let x := s.cunit u
  let fwd := if (x.dir = .x ∨ x.dir = .o) ∧ x.owner ≠ r then [(x.owner, HomeMsg.fwdGetM)] else []
  let invs := if x.dir = .s ∨ x.dir = .o then (sharersBut x.vec r).map fun c => (c, HomeMsg.inv) else []
  (s.setCunit u { x with serving := some (r, .m), msgs := fwd ++ invs }).grant u

/-- Upgrade at the home (R164, R165): a sharer in the vector or the owner gets its grant without data, any other is
served as GetM. The invalidations are the same ones. -/
def State.homeUpgrade (s : State) (r u : Nat) : State := s.homeGetM r u

/-- PutM and PutO at the home (R164, R165): from the owner the data is written and the unit goes to U or S, from any
other cache, or after a forwarded request was served from the write-back buffer, the message is stale. -/
def State.homePut (s : State) (r u : Nat) : State :=
  let x := s.cunit u
  let old := x.stale.contains r
  let x := { x with writing := tset Moesi.i x.writing r .i, stale := x.stale.erase r }
  if old = false ∧ x.owner = r ∧ x.cache r = .i then
    match x.dir with
    | .x => s.setCunit u ({ x with dir := .u, owner := 0, vec := 0 }.dirtied u)
    | .o => s.setCunit u { x with dir := (if x.vec = 0 then .u else .s), owner := 0 }
    | .s => s.setCunit u x
    | .u => s.setCunit u x
  else s.setCunit u x

/-- A write-back of the cache in flight reaches the home before the cache's next request. -/
def State.flushPut (s : State) (r u : Nat) : State :=
  if tget Moesi.i (s.cunit u).writing r = .i then s else s.homePut r u

/-- A quire L2 reads a unit (R163, R164), as one transaction. -/
def State.loadUnit (s : State) (q grain pa : Nat) : State :=
  let s := s.adoptGrain (pa / 512) grain
  let u := s.unitOf pa grain
  let s := (s.settle u).flushPut q u
  match (s.cunit u).cache q with
  | .i => (s.homeGetS q u).settle u
  | _ => s

/-- A quire L2 writes a unit: E becomes M silently, S and O ask for an upgrade, I for GetM (R163). -/
def State.storeUnit (s : State) (q grain pa : Nat) : State :=
  let s := s.adoptGrain (pa / 512) grain
  let u := s.unitOf pa grain
  let s := (s.settle u).flushPut q u
  match (s.cunit u).cache q with
  | .m => s
  | .e => s.setCunit u ((s.cunit u).setCache q .m)
  | .s => (s.homeUpgrade q u).settle u
  | .o => (s.homeUpgrade q u).settle u
  | .i => (s.homeGetM q u).settle u

/-- A quire L2 reads, or writes, every unit that holds a byte of a span. -/
def State.cohLoad (s : State) (q pa n grain : Nat) : State := s.overSectors (fun s a => s.loadUnit q grain a) pa n
def State.cohStore (s : State) (q pa n grain : Nat) : State := s.overSectors (fun s a => s.storeUnit q grain a) pa n

/-- The fabric banks of a folio read a unit (R76, R162). -/
def State.cohFabric (s : State) (f pa grain : Nat) : State :=
  let s := s.adoptGrain (pa / 512) grain
  let u := s.unitOf pa grain
  (s.settle u).homeGetS (16 + f) u |>.settle u

/-- An access at the home is performed on its own copy of a unit, held in E or M from the host where the line is the host's
(R166, R171). -/
def State.atomicUnit (s : State) (grain pa : Nat) : State :=
  let s := s.adoptGrain (pa / 512) grain
  (s.recallUnit (s.unitOf pa grain)).hostObtain (s.unitOf pa grain) true

/-- An access at the home that writes its copy of a unit. -/
def State.writeUnit (s : State) (grain pa : Nat) : State :=
  let s := s.atomicUnit grain pa
  s.setCunit (s.unitOf pa grain) ((s.cunit (s.unitOf pa grain)).dirtied (s.unitOf pa grain))

/-- An atomic at the home that writes nothing, as a WAITV and a BAR.WAIT are: every unit of its span goes to U. -/
def State.cohAtomic (s : State) (pa n grain : Nat) : State := s.overSectors (fun s a => s.atomicUnit grain a) pa n

/-- An atomic or an uncached store, which writes the home's copy of every unit of its span. -/
def State.cohWrite (s : State) (pa n grain : Nat) : State := s.overSectors (fun s a => s.writeUnit grain a) pa n

/-! The steps of the protocol by themselves. A request of a cache for a unit while the home serves another request of
that unit waits (R164). -/

/-- Whether a request may be served now: an existing sharer number, no request in service, the unit numbered under the
line's grain. -/
def State.mayServe (s : State) (r u g : Nat) : Bool :=
  (s.cunit u).serving = none && r ≤ 20 && (!hostHome u || s.dev.cxl == 3) && tget Moesi.i (s.cunit u).writing r = .i && g ≤ 2 && u % grainSectors g = 0 && 32 * u < 2 ^ 52

/-- What a cache holds of a unit once the line has the grain of its request (R161, R163). -/
def State.copyAt (s : State) (r u g : Nat) : Moesi := ((s.adoptGrain (u / 16) g).cunit u).cache r

/-- Whether a requester may ask for a unit: the host only for device memory that it reaches over CXL.mem through some port (R172), a
quire L2 only for a unit it does not hold (R163). -/
def State.mayAsk (s : State) (r u g : Nat) : Bool :=
  if r = 20 then (upto 2).any fun p => s.cxlMem p (32 * u) (32 * grainSectors g)
  else 16 ≤ r || s.copyAt r u g == .i

/-- GetS from a quire L2, the fabric banks of a folio or the host (R164). -/
def execGets (req unit grain : Nat) (s : State) : Out :=
  event s <|
    if s.mayServe req unit grain ∧ s.mayAsk req unit grain then some ((s.adoptGrain (unit / 16) grain).homeGetS req unit)
    else none

/-- GetM from a quire L2 that holds no copy (R163); fabric banks and the host are never granted X by a device request (R162). -/
def execGetm (req unit grain : Nat) (s : State) : Out :=
  event s <|
    if s.mayServe req unit grain ∧ req < 16 ∧ s.copyAt req unit grain = .i then
      some ((s.adoptGrain (unit / 16) grain).homeGetM req unit)
    else none

/-- Upgrade from a quire L2 (R163, R164): of a copy in S or O, or of one that has gone while the request was on its way (R165). -/
def execUpgrade (req unit grain : Nat) (s : State) : Out :=
  event s <|
    if s.mayServe req unit grain ∧ req < 16 ∧ s.copyAt req unit grain ≠ .m ∧ s.copyAt req unit grain ≠ .e then
      some ((s.adoptGrain (unit / 16) grain).homeUpgrade req unit)
    else none

/-- PutM from a cache with a write-back of an M unit in flight (R164). -/
def execPutm (req unit : Nat) (s : State) : Out :=
  event s <|
    if (s.cunit unit).serving = none ∧ tget Moesi.i (s.cunit unit).writing req = .m then some (s.homePut req unit) else none

/-- PutO from a cache with a write-back of an O unit in flight (R164). -/
def execPuto (req unit : Nat) (s : State) : Out :=
  event s <|
    if (s.cunit unit).serving = none ∧ tget Moesi.i (s.cunit unit).writing req = .o then some (s.homePut req unit) else none

/-- A quire L2 answers a Fwd-GetS (R163); a PutM in flight becomes stale (R165). -/
def execFwdGets (cache unit : Nat) (s : State) : Out :=
  event s <|
    if (cache, HomeMsg.fwdGetS) ∈ (s.cunit unit).msgs then some ((s.answer cache unit .fwdGetS).grant unit) else none

/-- A quire L2 answers a Fwd-GetM (R163). -/
def execFwdGetm (cache unit : Nat) (s : State) : Out :=
  event s <|
    if (cache, HomeMsg.fwdGetM) ∈ (s.cunit unit).msgs then some ((s.answer cache unit .fwdGetM).grant unit) else none

/-- A sharer acknowledges an invalidation (R163, R165). -/
def execInv (cache unit : Nat) (s : State) : Out :=
  event s <|
    if (cache, HomeMsg.inv) ∈ (s.cunit unit).msgs then some ((s.answer cache unit .inv).grant unit) else none

/-- A quire L2 evicts a unit: S and E silently, M and O with a write-back (R163). -/
def execL2Eviction (cache unit : Nat) (s : State) : Out :=
  event s <|
    let x := s.cunit unit
    match x.cache cache with
    | .i => none
    | .s => some (s.setCunit unit (x.setCache cache .i))
    | .e => some (s.setCunit unit (x.setCache cache .i))
    | .m => some (s.setCunit unit { (x.setCache cache .i) with writing := tput x.writing cache .m })
    | .o => some (s.setCunit unit { (x.setCache cache .i) with writing := tput x.writing cache .o })

/-- A home tag is evicted: every copy is recalled (R166). -/
def execHomeTagEviction (line : Nat) (s : State) : Out :=
  event s (some (s.recallLine line))

/-- The unit of a host line at its device home (R170). -/
def State.hostUnit (s : State) (pa : Nat) : Nat := s.unitOf pa 1

/-- SnpData: M and E copies of the whole unit go to S, dirty data is written back (R170). -/
def execSnpdata (pa : Nat) (s : State) : Out :=
  event s <|
    let u := s.hostUnit pa
    let s := s.settle u
    let x : CUnit := { s.cunit u with host := if (s.cunit u).host = .i then .i else .s }
    if hostHome u = false ∨ s.dev.cxl ≠ 3 then none
    else if x.dir = .x then
      some (s.setCunit u ({ (x.setCache x.owner (if x.cache x.owner = Moesi.i then Moesi.i else Moesi.s)) with dir := .s, vec := 0 }.addVec x.owner))
    else some (s.setCunit u x)

/-- SnpInv: every device copy is invalidated and dirty data returned (R170). -/
def execSnpinv (pa : Nat) (s : State) : Out :=
  event s <|
    if hostHome (s.hostUnit pa) = false ∨ s.dev.cxl ≠ 3 then none
    else some ((s.recallUnit (s.hostUnit pa)).hostGiveUp (s.hostUnit pa))

/-- SnpCur: current data is returned and no state changes (R170). -/
def execSnpcur (pa : Nat) (s : State) : Out :=
  event s <|
    if hostHome (s.hostUnit pa) = false ∨ s.dev.cxl ≠ 3 then none else some (s.settle (s.hostUnit pa))

end Sys2Proof.Machine
end

