-- ==== Sys2Proof/Machine/Translate.lean ====
section
/-! DEFINITION. Translation and permission (R151 to R159), the sites of accesses and their requests at the homes (R161), the
fate of scratchpad accesses (R53 to R56), poison (R168) and monitors (R65). -/

namespace Sys2Proof.Machine

/-- What an access does, for its permission (R156). -/
inductive Acc where
  | load | store | atomic | fetch
deriving DecidableEq, Repr

/-! Fields of a page table entry (R155). -/

def pteKind (e : Word) : Nat := bits e 59 57
def pteGrain (e : Word) : Nat := bits e 56 55
def ptePolicy (e : Word) : Nat := bits e 54 53
def ptePa (e : Word) : Nat := bits e 51 12 * 4096
def pteSz64 (e : Word) : Bool := bit e 8
def pteLeaf (e : Word) : Bool := bit e 7
def pteG (e : Word) : Bool := bit e 5
def pteU (e : Word) : Bool := bit e 4
def pteX (e : Word) : Bool := bit e 3
def pteW (e : Word) : Bool := bit e 2
def pteR (e : Word) : Bool := bit e 1
def pteV (e : Word) : Bool := bit e 0

/-- A pointer entry of the tree that names a legal table (R156). -/
def State.ptrOk (s : State) (e : Word) : Bool :=
  bits e 59 52 == 0 && bits e 8 1 == 0 && s.tierPa (ptePa e)

/-- Bits of the page a leaf at a level maps (R154, R157). -/
def leafBits (shift : Nat) (e : Word) : Nat := if shift = 12 ∧ pteSz64 e = true then 16 else shift

/-- A well-formed leaf at a level (R156). -/
def leafOk (shift : Nat) (e : Word) : Bool :=
  pteGrain e != 3 && ptePolicy e != 3 && bits e 63 60 == 0 && !bit e 52 && !bit e 6 &&
  !(pteW e && !pteR e) && (!pteSz64 e || shift == 12) && !(pteGrain e == 0 && pteKind e == 2) &&
  ptePa e % 2 ^ leafBits shift e == 0

/-- The levels below a table: shift and index bits (R154). -/
def walkLevels : List (Nat × Nat) := [(39, 17), (30, 9), (21, 9), (12, 9)]

/-- A walk from a table (R154, R156): the leaf entry and the bits of its page, none where the walk fails. It reads entries in poisoned
units as they stand, and its reads leave the directory and the grain of their lines as they are: the spec says neither (DESIGN CHOICE,
log 168). -/
def State.walkFrom (s : State) (va : Nat) : List (Nat × Nat) → Nat → Option (Word × Nat)
  | [], _ => none
  | (shift, ib) :: rest, table =>
    let e := wordAt s.mem (table + va / 2 ^ shift % 2 ^ ib * 8)
    if pteV e = false then none
    else if pteLeaf e then
      if shift = 39 then none else if leafOk shift e then some (e, leafBits shift e) else none
    else if shift = 12 then none
    else if s.ptrOk e then s.walkFrom va rest (ptePa e) else none

/-- A walk of a context's tree (R154, R156). -/
def State.walk (s : State) (root va : Nat) : Option (Word × Nat) :=
  if s.tierPa root then s.walkFrom va walkLevels root else none

/-- Whether the device itself is the peer that an address names (R175, R252). -/
def State.ownPeer (s : State) (pa : Nat) : Bool := s.dev.zorey == some (pa / 2 ^ 41 % 512)

/-- The kind an address is reached through: 7 where the physical address lies outside the kind's range or has no
backing, under the device's own peer number too (R2, R152, R153, R169, R175, R252). -/
def State.kindAt (s : State) (k pa : Nat) : Nat :=
  match k with
  | 0 => if pa < 2 ^ 39 then 0 else 7
  | 1 => if 2 ^ 39 ≤ pa ∧ pa < 2 ^ 41 ∧ s.dev.tier2 = true then 1 else 7
  | 2 => if 2 ^ 51 ≤ pa ∧ s.dev.cxl = 3 then 2 else 7
  | 3 => if 2 ^ 51 ≤ pa then 3 else 7
  | 4 => if 2 ^ 50 ≤ pa ∧ pa < 2 ^ 51 ∧ pa / 2 ^ 41 % 512 < 288 ∧ (s.ownPeer pa = false ∨ s.tierPa (pa % 2 ^ 41) = true) then 4 else 7
  | 5 => if 0x03F0000000000 ≤ pa ∧ pa < 0x0400000000000 then 5 else 7
  | 6 => 6
  | _ => 7

/-- A translated access: the memory key of its site, the page's attributes, its size in bits and G; for kind 6 the window
offset. -/
structure Site where
  key    : Nat
  kind   : Nat
  grain  : Nat
  policy : Nat
  off    : Nat
  bits   : Nat
  glob   : Bool

/-- Whether a site lies in a home slice of this device: kinds 0 to 2, and kind 4 under the device's own number (R175). -/
def Site.atHome (site : Site) : Bool := site.kind ≤ 2 || (site.kind == 4 && site.key < 2 ^ 41)

/-- The translation an access to a site went through. -/
def Site.via (site : Site) (va : Word) : Via := { va := va, bits := site.bits, glob := site.glob }

/-- Whether the bits of a virtual address above 55 repeat bit 55 (R151). -/
def canonical (va : Word) : Bool := va == (va.setWidth 56).signExtend 64

/-- Whether a peer can be reached (R175, R252). -/
def State.peerUp (s : State) (pa : Nat) : Bool := s.ownPeer pa || (s.dev.zorey != none && s.dev.links != 0)

/-- Whether the owner of host or peer memory turns away an access of n bytes; a range turned away for 128-bit operations alone
matters to those (R174, R175, R302). -/
def State.turnsAway (s : State) (pa n : Nat) (wide : Bool) : Bool :=
  s.turned.any fun r => (!r.wide || wide) && pa < r.lo + r.len && r.lo < pa + n

/-- Whether a peer serves an access (R175): it can be reached, and it does not turn the access away. -/
def State.peerServes (s : State) (site : Site) (n : Nat) : Bool :=
  s.peerUp site.off && !(!site.atHome && s.turnsAway site.key n false)

/-- The site of a virtual address under a leaf (R152, R153): kind 6 at the window of a quire. -/
def State.siteOf (s : State) (q : Nat) (va : Nat) (e : Word) (pb : Nat) : Site :=
  let pa := ptePa e + va % 2 ^ pb
  let k := s.kindAt (pteKind e) pa
  { key := if k = 6 then 2 ^ 52 + q * Config.windowBytes + pa
           else if k = 4 ∧ s.ownPeer pa = true then pa % 2 ^ 41 else pa
    kind := k, grain := pteGrain e, policy := ptePolicy e, off := pa, bits := pb, glob := pteG e }

/-- Permission of an access under a leaf (R156); supervisor mode may access every page. -/
def permitted (acc : Acc) (m : Mode) (e : Word) (kind : Nat) : Bool :=
  (match acc with
   | .load => pteR e
   | .store => pteW e
   | .atomic => pteR e && pteW e
   | .fetch => pteX e && kind ≤ 2) &&
  (pteU e || m == .supervisor) && kind != 7

/-- The cached translation of an address at a core (R158). -/
def findTlb (ts : List Tlb) (core ctx va : Nat) : Option Tlb :=
  ts.find? fun t => t.core == core && t.ctx == ctx && t.page == va / 2 ^ t.bits

/-- A successful walk is cached at the core, in the place of what the core cached of the address (R158). Units that are no core
(number 3072 and above) cache nothing. -/
def State.cacheLeaf (s : State) (core ctx va : Nat) (e : Word) (pb : Nat) : State :=
  if core < 3072 then
    { s with tlbs := { core := core, ctx := ctx, page := va / 2 ^ pb, bits := pb, pte := e } ::
      s.tlbs.filter fun t => !(t.core == core && t.ctx == ctx && t.page == va / 2 ^ t.bits) }
  else s

/-- The leaf for an address: the core's cached translation where it allows the access, or a walk, which caches a success. A
cached translation that refuses an access is walked again before the access faults, so that no fault outlives the entry that
caused it (R158; DEDUCED, log 108). -/
def State.leafFor (s : State) (core ctx va : Nat) (ok : Word → Nat → Bool) : Option (Word × Nat × State) :=
  let walked := match s.walk (s.ctx ctx).root va with
    | none => none
    | some (e, pb) => some (e, pb, s.cacheLeaf core ctx va e pb)
  match findTlb s.tlbs core ctx va with
  | some t => if ok t.pte t.bits then some (t.pte, t.bits, s) else walked
  | none => walked

/-- Translation of one address (R151, R156): the cause of its fault, or its site. -/
def State.translateFor (s : State) (core q ctx : Nat) (m : Mode) (acc : Acc) (va : Word) : Except Nat (Site × State) :=
  if canonical va = false then .error 0x05
  else
    let v := va.toNat % 2 ^ 56
    let ok := fun e pb => permitted acc m e (s.siteOf q v e pb).kind
    match s.leafFor core ctx v ok with
    | none => .error 0x04
    | some (e, pb, s') => if ok e pb then .ok (s.siteOf q v e pb, s') else .error 0x05

/-- Translation for the issuing thread. -/
def State.translate (s : State) (acc : Acc) (va : Word) : Except Stop (Site × State) :=
  match s.translateFor s.myCore s.myQuire s.th.ctx s.th.mode acc va with
  | .ok r => .ok r
  | .error c => trapV c va

/-! Scratchpad banks (R53 to R56). -/

/-- Core, bank and FIFO of a window offset of a quire (R55, R56). -/
def winCore (q off : Nat) : Nat := 192 * q + off / Config.coreBytes
def winBank (off : Nat) : Nat := off / Config.bankBytes % 4
def winFifo (off : Nat) : Nat := winBank off * 16 + off % Config.bankBytes / 4096

/-- The role of a bank (R53); bank 3 always holds message queues. -/
def Core.role (c : Core) (b : Nat) : Nat :=
  match b with
  | 0 => c.role0.toNat
  | 1 => c.role1.toNat
  | 2 => c.role2.toNat
  | _ => 3

/-- Whether a span of a quire's window holds a byte of a live context's message pool (R43). -/
def State.inPool (s : State) (q off n : Nat) : Bool :=
  s.ctxs.any fun e => e.2.live && e.2.pools.any fun p =>
    p.quire == q && p.slots != 0 && off < p.base + 32 * p.slots && p.base < off + n

/-- What a kind-6 access finds (R55). -/
inductive Bank where
  | scratch | fifo | refused | busy
deriving DecidableEq, Repr

/-- The fate of a kind-6 access of n bytes by the role of its bank (R54, R55). -/
def State.bankAt (s : State) (q off n : Nat) : Bank :=
  if Config.windowBytes ≤ off then .refused
  else
    let c := s.core (winCore q off)
    if c.busy.getLsbD (winBank off) then .busy
    else if s.inPool q off n then .refused
    else match c.role (winBank off) with
      | 1 => .scratch
      | 2 => .fifo
      | _ => .refused

/-! Units that are no thread: engines, dispatcher, crossing unit, controllers. They act at the sites, with user rights of their
context unless the rule says otherwise (R156). -/

/-- Translation for a unit (number 3072 and above) on behalf of a context. -/
def State.unitSite (s : State) (ctx : Nat) (m : Mode) (acc : Acc) (q : Nat) (va : Word) : Except Nat Site :=
  match s.translateFor 3072 q ctx m acc va with
  | .ok (site, _) => .ok site
  | .error c => .error c

/-- A request that carries the grain of its page reaches the line's home (R161). -/
def State.request (s : State) (site : Site) : State :=
  if site.atHome then s.adoptGrain (site.key / 512) site.grain else s

/-! Poison (R168). -/

/-- Whether any byte of a span lies in a poisoned unit. -/
def State.poisoned (s : State) (key n : Nat) : Bool := s.poison.any fun p => key < p.1 + p.2 && p.1 < key + n

/-- A store clears the mark of a unit only when it writes every byte of it. -/
def clearPoison (ps : List (Nat × Nat)) (cells : List Host.Cell) : List (Nat × Nat) :=
  ps.filter fun p => !(p.2 ≤ cells.length && (upto p.2).all fun i => cells.any fun c => c.1 == p.1 + i)

/-! Monitors (R65). -/

/-- The monitor unit of a site key: the coherence unit under the line's grain, the whole line while no copy of it fixes one,
and of a bank the 8-byte word. -/
def State.monUnit (s : State) (key : Nat) : Nat := if 2 ^ 52 ≤ key then key / 8 * 8 else 32 * s.unitOf key 2

/-- Whether a write of cells satisfies a wait that a dispatcher watches: the word reaches its minimum (R30). -/
def Watch.satisfied (w : Watch) (mem cells : List Host.Cell) : Bool :=
  w.hit || ((cells.any fun c => decide (w.key ≤ c.1 ∧ c.1 < w.key + 8)) && decide (w.min ≤ wordAt (setCells mem cells) w.key))

/-- A write of cells hits every armed monitor whose unit it writes a byte of, and every watched wait that it satisfies (R30). -/
def State.touch (s : State) (cells : List Host.Cell) : State :=
  if s.monitors = [] ∧ s.watches = [] then s
  else
    let hit := fun m : Monitor => m.hit || cells.any fun c => s.monUnit c.1 == s.monUnit m.key
    { s with monitors := s.monitors.map fun e => (e.1, { e.2 with hit := hit e.2 })
             watches := s.watches.map fun w => { w with hit := w.satisfied s.mem cells } }

/-- A write at its site: monitors are hit, the bytes change, marks of units written whole are cleared (R65, R168). -/
def State.writeCells (s : State) (cells : List Host.Cell) : State :=
  let s := s.touch cells
  { s with mem := setCells s.mem cells, poison := clearPoison s.poison cells }

end Sys2Proof.Machine
end

