-- ==== Sys2Proof/Machine/Buffer.lean ====
section
/-! DEFINITION. The write-through buffer of a core and the delivery of its stores to their sites (R160, R163, R173, R175). -/

namespace Sys2Proof.Machine

/-- The 64-byte line of a buffered store. -/
def Pending.line (e : Pending) : Nat :=
  match e.cells with
  | [] => 0
  | c :: _ => c.1 / 64

/-- A posted store of thread n fails: it is dropped and counted, the first one's address kept (R175). -/
def State.countDrop (s : State) (n : Nat) (va : Word) : State :=
  let t := s.thr n
  s.setThr n { t with peerFail := some (t.peerFail.getD va), peerDrops := t.peerDrops + 1 }
def State.peerDrop (s : State) (e : Pending) : State := s.countDrop e.thread e.via.va

/-- Whether the host port of a kind-3 address is trained (R173, R251). -/
def State.portUp (s : State) (pa : Nat) : Bool := s.dev.ports.getLsbD (pa / 4096 % 2)

/-- A store that cannot be performed: kind 4 at a peer that cannot be reached or turns it away, kind 3 through a port that lost
training, kind 2 without CXL.cache (R169, R175, R251). -/
def State.storeFails (s : State) (kind key n : Nat) : Bool :=
  (kind == 4 && decide (2 ^ 50 ≤ key) && (!s.peerUp key || s.turnsAway key n false)) ||
  (kind == 3 && !s.portUp key) || (kind == 2 && s.dev.cxl != 3)

/-- The key past the last of a list of cells, which rise. -/
def spanEnd : List Host.Cell → Nat
  | [] => 0
  | [c] => c.1 + 1
  | _ :: cs => spanEnd cs

/-- A store is performed at its site: bytes written, poison cleared, the copy of every unit it writes in made exclusive (R163,
R168). -/
def State.performStore (s : State) (q : Nat) (e : Pending) : State :=
  match e.cells with
  | [] => s
  | c :: _ =>
    if s.storeFails e.kind c.1 e.cells.length then s.peerDrop e
    else
      let n := (spanEnd e.cells) - c.1
      let s := if e.kind ≤ 2 then (if e.policy = 2 then s.cohWrite c.1 n e.grain else s.cohStore q c.1 n e.grain)
        else if e.kind = 4 ∧ c.1 < 2 ^ 41 then s.cohWrite c.1 n e.grain else s
      s.writeCells e.cells

/-- Delivers, in order, the buffered stores of a core whose line a test selects (R160). -/
def State.deliverWhere (s : State) (core : Nat) (sel : Nat → Bool) : State :=
  let c := s.core core
  let go := c.wbuf.filter fun e => sel e.line
  let s := s.setCore core { c with wbuf := c.wbuf.filter fun e => !sel e.line }
  go.foldl (fun s e => s.performStore (quireOf core) e) s

/-- Whether two buffered stores write a common byte. -/
def Pending.meets (a b : Pending) : Bool := a.cells.any fun c => b.cells.any fun d => c.1 == d.1

/-- Which of the stores before a chosen one, latest first, must be delivered before it: those that share bytes with a chosen
one. -/
def mustPrecede : List Pending → List Pending → List Bool
  | [], _ => []
  | e :: es, chosen =>
    if chosen.any e.meets then true :: mustPrecede es (e :: chosen) else false :: mustPrecede es chosen

/-- Delivers one buffered store, after the earlier ones that share bytes with it (R160, R191). -/
def State.deliverEntry (s : State) (core i : Nat) : State :=
  let c := s.core core
  match c.wbuf[i]? with
  | none => s
  | some e =>
    let early := (c.wbuf.take i).zip (mustPrecede (c.wbuf.take i).reverse [e]).reverse
    let go := (early.filter (·.2)).map (·.1) ++ [e]
    let s := s.setCore core { c with wbuf := (early.filter fun x => !x.2).map (·.1) ++ c.wbuf.drop (i + 1) }
    go.foldl (fun s e => s.performStore (quireOf core) e) s

/-- Delivers every buffered store of a context, on every core, with the stores of those cores to the same lines that went
before. -/
def State.deliverCtx (s : State) (ctx : Nat) : State :=
  s.cores.foldl (fun s e =>
    let mine := ((s.core e.1).wbuf.filter fun p => p.ctx == ctx).map Pending.line
    if mine = [] then s else s.deliverWhere e.1 fun l => mine.contains l) s

/-- Delivers a core's buffered stores to one line. -/
def State.deliverLine (s : State) (core key : Nat) : State :=
  if (s.core core).wbuf = [] then s else s.deliverWhere core fun l => l == key / 64

end Sys2Proof.Machine
end

