-- ==== Sys2Proof/Machine/Pins.lean ====
section
/-! DEFINITION. The operands of joint MMAs in memory (R118, R120) and the tile fetch unit's reads of them, which pin coherence
units until the array has consumed them (R122). -/

namespace Sys2Proof.Machine

/-- The row of a core in its quire and its position in the row (R113). -/
def rowOf (core : Nat) : Nat := core % 192 / 16
def posOf (core : Nat) : Nat := core % 16

/-- A gang member: its membership in an array has not ended (R115, R127). -/
def JArray.hasMember (j : JArray) (n : Nat) : Bool := j.members.any fun e => e.2 == n && !j.left.contains e.1

/-- Fields of a configuration word (R118). -/
def cfgIn (w : Word) : Nat := bits w 3 0
def cfgOut (w : Word) : Nat := bits w 7 4
def cfgRm (w : Word) : Nat := bits w 10 8
def cfgGap (w : Word) : Nat := bits w 13 11
def cfgLda (w : Word) : Nat := bits w 39 24
def cfgLdb (w : Word) : Nat := bits w 55 40

/-- Bytes of k elements of an input format (R120). -/
def rowBytes (i k : Nat) : Nat :=
  match i with
  | 0 => 2 * k
  | 1 => 2 * k
  | 2 => 4 * k
  | 3 => 8 * k
  | 6 => k / 2
  | _ => k

/-- Whether an input format is a block format. -/
def inBlock (i : Nat) : Bool := i == 5 || i == 6

/-- The rows of an operand: element bytes, and exponent bytes of block formats at XOFF (R120). -/
def operandSpans (i k : Nat) (xoff base : Word) (rows ld : Nat) : List (Word × Nat) :=
  (upto rows).flatMap fun r =>
    let start := base + BitVec.ofNat 64 (r * ld * 64)
    (start, rowBytes i k) :: (if inBlock i then [(start + xoff, k / 16)] else [])

/-- The configuration under which a contribution of a position is checked and read: the last MX.CFG among the position's first n
contributions not yet performed, or the array's. -/
def JArray.cfgAt (x : JArray) (p n : Nat) : Word × Word :=
  ((tget [] x.contribs p).take n).foldl (fun c k => if k.fn = 0 then (k.a, k.b) else c) (x.cfg, x.xoff)

/-- The spans of memory that the n-th contribution of a position not yet performed reads: its slice of A, and B; none where it is
no MMA (R120). -/
def JArray.spansOf (x : JArray) (p n : Nat) : List (Word × Nat) :=
  match (tget [] x.contribs p)[n]? with
  | none => []
  | some k =>
    if k.fn = 2 then
      let (cfg, xoff) := x.cfgAt p n
      operandSpans (cfgIn cfg) (bits k.d 15 0) xoff k.a 8 (cfgLda cfg) ++
        operandSpans (cfgIn cfg) (bits k.d 15 0) xoff k.b 128 (cfgLdb cfg)
    else []

/-- The tile fetch unit may read an address: user rights, kinds 0 to 2 (R120, R156). -/
def State.fetchable (s : State) (ctx : Nat) (va : Word) : Except Nat Site :=
  match s.unitSite ctx .user .load 0 va with
  | .error c => .error c
  | .ok site => if site.kind ≤ 2 then .ok site else .error 0x05

/-- Whether a pin of an operation holds an address. -/
def Pin.holds (x : Pin) (op : Nat) (va : Word) : Bool := x.op == op && (va - x.via.va).toNat < x.bytes.length

/-- A core's L1 gives up its lines of one 512-byte line. -/
def State.l1Leave (s : State) (core line : Nat) : State :=
  let c := s.core core
  if c.l1.any fun l => l.line / 8 == line then s.setCore core { c with l1 := c.l1.filter fun l => l.line / 8 != line } else s

/-- What an operation's read at a site meets (R122, R160, R161, R186): the members' stores to the line have reached their sites, the
line has the grain of the page, and no member keeps an older copy of it in its L1, since the read counts as its plain load. A
store that came after the MMA in its thread finds the read made already (State.pinTouched). -/
def State.meetOperand (s : State) (q j : Nat) (site : Site) : State :=
  ((upto 16).foldl (fun s p =>
    let core := 192 * q + 16 * j + p
    ((upto 8).foldl (fun s i => s.deliverLine core (site.key / 512 * 512 + 64 * i)) s).l1Leave core (site.key / 512)) s).request site

/-- The fetch unit pins the coherence unit of an address for an operation, which is the operation's read of it (R122); an address
that is pinned already, or cannot be read any more, stays as it is. -/
def State.pinUnit (s : State) (q j op : Nat) (va : Word) : State :=
  if (s.array q j).pins.any fun y => y.holds op va then s
  else
    match s.fetchable (s.array q j).ctx va with
    | .error _ => s
    | .ok site =>
      let s := s.meetOperand q j site
      let x := s.array q j
      let n := 32 * grainSectors (s.grainOf (site.key / 512))
      let start := site.key / n * n
      let pin : Pin :=
        { op := op, key := start, via := site.via (va - BitVec.ofNat 64 (site.key - start)), bytes := bytesAt s.mem start n
          bad := s.poisoned start n, taken := false }
      s.setArray q j { x with pins := pin :: x.pins }

/-- An operation that is performed reads, now, what no pin of its own holds (R122). -/
def State.readyUnit (s : State) (q j op : Nat) (va : Word) : State :=
  if (s.array q j).pins.any fun y => y.holds op va then s
  else
    match s.fetchable (s.array q j).ctx va with
    | .error _ => s
    | .ok site => s.meetOperand q j site

/-- The addresses that stand for the units of a span; no unit is smaller than 32 bytes. -/
def spanUnits (span : Word × Nat) : List Word :=
  let first := span.1.toNat % 32
  (upto ((first + span.2 + 31) / 32)).map fun i => if i = 0 then span.1 else span.1 + BitVec.ofNat 64 (32 * i - first)

/-- Pins the units of a span whose addresses a test selects. -/
def State.pinSpan (s : State) (q j op : Nat) (sel : Word → Bool) (span : Word × Nat) : State :=
  ((spanUnits span).filter sel).foldl (fun s va => s.pinUnit q j op va) s

/-- Pins the selected units of every MMA that a thread has contributed and the array has not performed. -/
def State.pinWhere (s : State) (n : Nat) (sel : Word → Bool) : State :=
  let core := coreOf n
  let q := quireOf core
  let j := rowOf core
  let p := posOf core
  let x := s.array q j
  if x.hasMember n then
    (upto (tget [] x.contribs p).length).foldl (fun s i =>
      (x.spansOf p i).foldl (fun s span => s.pinSpan q j (x.performed + 1 + i) sel span) s) s
  else s

/-- What a thread does before a release: its MMAs' reads, which count as its own loads, are made (R122, R180). -/
def State.pinAll (s : State) (n : Nat) : State := s.pinWhere n fun _ => true

/-- What a thread does before it writes or reads bytes: its MMAs' reads of those bytes, which are its earlier loads, come first (R122,
R186). Pages share their low 12 address bits, so these select every alias. -/
def State.pinTouched (s : State) (n : Nat) (va : Word) : State := s.pinWhere n fun x => x.toNat % 4096 / 512 == va.toNat % 4096 / 512

/-- The fetch unit reads ahead: it pins a unit that an operation not yet performed reads (R122). -/
def State.pinAhead (s : State) (array op : Nat) (va : Word) : State :=
  let q := array / 12
  let j := array % 12
  let x := s.array q j
  let reads := fun p => x.performed < op && (x.spansOf p (op - x.performed - 1)).any fun e => (va - e.1).toNat < e.2
  if (upto 16).any reads then s.pinUnit q j op va else s

/-- Whether two memories differ in a byte of a pin's 512-byte line. -/
def Pin.differs (p : Pin) (m m' : List Host.Cell) : Bool :=
  bytesAt m (p.key / 512 * 512) 512 != bytesAt m' (p.key / 512 * 512) 512

/-- Whether a change of memory meets a pin that stands after it: a byte of a pinned 512-byte line differs. A store by any agent to
a pinned line is ordered after the pinned read and completes once the line is unpinned (R122), so a step that would do this waits
(log 137). The pins of a context that is switched out stand with what is saved of its arrays. -/
def State.hitsPin (s s' : State) : Bool :=
  let hit := fun e : Nat × JArray => e.2.pins.any fun p => !p.taken && p.differs s.mem s'.mem
  s'.arrays.any hit || s'.saved.any fun e => e.2.arrays.any hit

/-- Whether an array holds a unit pinned through a removed translation (R159). -/
def State.pinnedBy (s : State) (ctx : Nat) (gone : Via → Bool) : Bool :=
  s.arrays.any fun e => e.2.ctx == ctx && e.2.pins.any fun p => gone p.via

end Sys2Proof.Machine
end

