-- ==== Sys2Proof/Machine/Access.lean ====
section
/-! DEFINITION. Acquires and releases and the L1 (R160), loads, stores and atomics at their sites (R153, R168, R173 to
R177), and the fetch of a word (R193). -/

namespace Sys2Proof.Machine

/-! Acquires and releases (R160, R176). -/

/-- What orders a thread's accesses before a release: its MMAs have read their operands (R122), and every buffered store of it is
delivered, with the stores of its core to the same lines that went before. -/
def State.drain (s : State) (n : Nat) : State :=
  let s := s.pinAll n
  let mine := ((s.core (coreOf n)).wbuf.filter fun e => e.thread == n).map Pending.line
  if mine = [] then s else s.deliverWhere (coreOf n) fun l => mine.contains l

/-- Clears the L1 of a core (R160). -/
def State.clearL1 (s : State) (core : Nat) : State :=
  if (s.core core).l1 = [] then s else s.setCore core { s.core core with l1 := [] }

/-- An acquire by the issuing thread at a scope (R160): at quire scope or wider its core's L1 is cleared. -/
def State.acquire (s : State) (sc : Scope) : State := if sc = .thread then s else s.clearL1 s.myCore

/-- Whether the store path of a thread's core holds a push that its context issued in it (R56). -/
def State.holdsPush (s : State) (n : Nat) : Bool :=
  (s.core (coreOf n)).pushes.any fun p => p.thread == n && p.ctx == (s.thr n).ctx

/-- A release by the issuing thread at a scope (R160, R173, R175): it waits while a full FIFO holds an earlier push of the
thread, and its stores are delivered; at system scope a dropped kind-4 store is reported, once, before the release. -/
def State.release (s : State) (sc : Scope) : Except Stop State :=
  if sc = .thread then .ok s
  else if s.holdsPush s.cur then block
  else
    let s := s.drain s.cur
    match sc, s.th.peerFail with
    | .system, some a => .error (.trapIn (s.setTh { s.th with peerFail := none, peerDrops := 0 }) 0x16 a)
    | _, _ => .ok s

/-- Acquires and releases as a semantics field asks (R176). -/
def State.acquireIf (s : State) (sem : Sem) (sc : Scope) : State :=
  match sem with
  | .acquire => s.acquire sc
  | .acqRel => s.acquire sc
  | .plain => s
  | .release => s
def State.releaseIf (s : State) (sem : Sem) (sc : Scope) : Except Stop State :=
  match sem with
  | .release => s.release sc
  | .acqRel => s.release sc
  | .plain => .ok s
  | .acquire => .ok s

/-! The L1 (R160). -/

/-- Puts one byte into a line's data. -/
def lineSet (d : BitVec 512) (i : Nat) (b : Byte) : BitVec 512 :=
  (d &&& ~~~(BitVec.ofNat 512 (255 * 2 ^ (8 * i)))) ||| BitVec.ofNat 512 (b.toNat * 2 ^ (8 * i))

/-- The bytes of a line's data from an offset. -/
def lineBytes (d : BitVec 512) (i n : Nat) : List Byte := leBytes n (d.toNat / 2 ^ (8 * i))

/-- A store of a thread updates the core's L1 line that holds its bytes. -/
def l1Store (thread cycle : Nat) (ls : List L1Line) (cells : List Host.Cell) : List L1Line :=
  ls.map fun l =>
    if cells.any fun c => c.1 / 64 == l.line then
      { l with stored := tput l.stored thread cycle
               data := cells.foldl (fun d c => if c.1 / 64 = l.line then lineSet d (c.1 % 64) c.2 else d) l.data }
    else l

/-- The stamp that a hit of a line gives a thread: the cycle of its fill, or of a later store of another thread of the core, whose value
the line has held since (R160, R188; DEDUCED, log 141). -/
def L1Line.stamp (l : L1Line) (thread : Nat) : Nat := l.stored.foldl (fun m e => if e.1 = thread then m else max m e.2) l.fill

/-- Whether a core has a bank in the cache role (R54). -/
def Core.hasL1 (c : Core) : Bool := c.role0 == 0 || c.role1 == 0 || c.role2 == 0

/-- How many lines a core's L1 holds: 64 KiB for each bank in the cache role (R54). -/
def Core.l1Lines (c : Core) : Nat :=
  1024 * ((if c.role0 = 0 then 1 else 0) + (if c.role1 = 0 then 1 else 0) + (if c.role2 = 0 then 1 else 0))

/-- The issuing core's L1 gives up a line. -/
def State.l1Drop (s : State) (core key : Nat) : State :=
  let c := s.core core
  if c.l1.any fun l => l.line == key / 64 then s.setCore core { c with l1 := c.l1.filter fun l => l.line != key / 64 } else s

/-! Loads, stores and atomics of the issuing thread at a translated site. All of them lie in one 64-byte line. -/

/-- Reads n bytes at the site (R160): the core's buffered stores to the line are delivered first. A read of a POLICY 2 page, or
of kind 4 under the device's own number, is performed at the home and leaves no copy (R155, R175). -/
def State.readSite (s : State) (site : Site) (n : Nat) : List Byte × Nat × State :=
  let s := s.deliverLine s.myCore site.key
  let s := if site.kind ≤ 2 ∧ site.policy ≤ 1 then s.cohLoad s.myQuire site.key n site.grain else s.request site
  (bytesAt s.mem site.key n, s.cycle, s)

/-- Reads n bytes past the L1, which keeps no copy of the line: a later load of the thread finds no older value in it (R186). -/
def State.readPast (s : State) (site : Site) (n : Nat) : List Byte × Nat × State :=
  let r := s.readSite site n
  (r.1, r.2.1, r.2.2.l1Drop s.myCore site.key)

/-- Whether a buffered store of another thread of the issuing core lies in a line. -/
def State.siblingStore (s : State) (key : Nat) : Bool :=
  (s.core s.myCore).wbuf.any fun e => e.thread != s.cur && e.line == key / 64

/-- Loads n bytes at a site, through the L1 where the page says so, with the stamp of the address (R160). The answer is
the bytes, their stamp and the state. A store of another thread of the core that the load may see is delivered first, since a
store becomes visible to every other agent at one moment (R188). The thread's MMAs have read the line before (R122, R186). An L1
that is full gives up its oldest line (log 109). -/
def State.loadAt (s : State) (site : Site) (n stamp : Nat) : List Byte × Nat × State :=
  let s := s.pinTouched s.cur (BitVec.ofNat 64 site.key)
  let s := if s.siblingStore site.key then s.deliverLine s.myCore site.key else s
  let c := s.core s.myCore
  if site.kind ≤ 2 ∧ site.policy = 0 ∧ c.hasL1 = true then
    match c.l1.find? fun l => l.line == site.key / 64 && stamp ≤ l.fill with
    | some l => (lineBytes l.data (site.key % 64) n, l.stamp s.cur, s)
    | none =>
      let r := s.readSite { site with key := site.key / 64 * 64 } 64
      let s := r.2.2
      let c := s.core s.myCore
      let l : L1Line := { line := site.key / 64, fill := s.cycle, stored := [], data := BitVec.ofNat 512 (leNat r.1) }
      (lineBytes l.data (site.key % 64) n, s.cycle,
        s.setCore s.myCore { c with l1 := (l :: c.l1.filter fun x => x.line != l.line).take c.l1Lines })
  else s.readPast site n

/-- The units in which a scalar store of cells is performed (R177): one, but for 16 bytes of kind 3 or 4, which are two halves. -/
def storeUnits (kind : Nat) (cells : List Host.Cell) : List (List Host.Cell) :=
  if cells.length = 16 ∧ (kind = 3 ∨ kind = 4) then [cells.take 8, cells.drop 8] else [cells]

/-- A store of units of cells at a site: the L1 is updated and the units are buffered (R160). -/
def State.storeUnitsAt (s : State) (va : Word) (site : Site) (units : List (List Host.Cell)) : State :=
  let s := s.pinTouched s.cur va
  let c := s.core s.myCore
  let entry := fun cs : List Host.Cell =>
    ({ thread := s.cur, ctx := s.th.ctx, via := site.via va, kind := site.kind, grain := site.grain,
       policy := site.policy, cells := cs } : Pending)
  s.setCore s.myCore { c with l1 := units.foldl (l1Store s.cur s.cycle) c.l1, wbuf := c.wbuf ++ units.map entry }

/-- A scalar store of cells at a site. -/
def State.storeAt (s : State) (va : Word) (site : Site) (cells : List Host.Cell) : State :=
  s.storeUnitsAt va site (storeUnits site.kind cells)

/-- The cells of a list of bytes from a key. -/
def cellsFrom : Nat → List Byte → List Host.Cell
  | _, [] => []
  | k, b :: bs => (k, b) :: cellsFrom (k + 1) bs

/-- What an access of the issuing thread meets at its site: its core's stores to the line are delivered, and the line has the
grain of the page (R160, R161, R168). -/
def State.meets (s : State) (site : Site) : State := (s.deliverLine s.myCore site.key).request site

/-- Refuses what the site's own state refuses, for a load or an atomic: a peer that cannot be reached or turns the access away,
a host port that lost training, and poison or damaged data (R168, R175, R251). A request that finds poison has reached the home and
leaves what it met there; an access that goes on makes its request itself. -/
def State.siteReadable (s : State) (va : Word) (site : Site) (n : Nat) : Except Stop Unit :=
  if site.kind = 4 ∧ s.peerServes site n = false then trapV 0x05 va
  else if site.kind = 3 ∧ s.portUp site.key = false then trapV 0x16 va
  else if (s.meets site).poisoned site.key n then .error (.trapIn (s.meets site) 0x16 va)
  else .ok ()

/-- An atomic read-modify-write of n bytes by the issuing thread (R153, R160, R166, R174, R175, R176): the old value and
the state. `pcie` says whether the operation has an AtomicOp. -/
def State.rmw (s : State) (va : Word) (n : Nat) (sem : Sem) (sc : Scope) (pcie : Bool) (f : Nat → Nat) :
    Except Stop (Nat × State) := do
  need (va.toNat % n == 0) 0x03 va
  let (site, s) ← s.translate .atomic va
  match site.kind with
  | 5 => trapV 0x06 va
  | 3 => need (pcie && !s.turnsAway site.key n (n == 16)) 0x06 va
  | 6 =>
    match s.bankAt s.myQuire site.off n with
    | .scratch => .ok ()
    | .fifo => trapV 0x06 va
    | .refused => trapV 0x05 va
    | .busy => block
  | _ => .ok ()
  s.siteReadable va site n
  let s ← s.releaseIf sem sc
  let s := (s.pinTouched s.cur va).deliverLine s.myCore site.key
  let s := if site.atHome then s.cohWrite site.key n site.grain else s
  let old := natAt s.mem site.key n
  let s := s.touch (cellsFrom site.key (leBytes n (f old)))
  let s := { s with mem := setBytes s.mem site.key (leBytes n (f old)) }
  let s := s.l1Drop s.myCore site.key
  .ok (old, s.acquireIf sem sc)

/-! Accesses of units that are no thread. -/

/-- A unit writes bytes at a site, coherently. -/
def State.unitWrite (s : State) (site : Site) (bs : List Byte) : State :=
  let s := if site.atHome then s.cohWrite site.key bs.length site.grain else s
  let s := s.touch (cellsFrom site.key bs)
  { s with mem := setBytes s.mem site.key bs, poison := clearPoison s.poison (cellsFrom site.key bs) }

/-- The requests of a unit that reads blocks of 64 bytes of a context's memory from an address, of a kind that a test allows: the lines
have the grain of their pages (R161, R168). -/
def State.meetUnit (s : State) (ctx : Nat) (m : Mode) (acc : Acc) (q : Nat) (kindOk : Nat → Bool) (va : Word) (blocks : Nat) : State :=
  (upto blocks).foldl (fun s i =>
    match s.unitSite ctx m acc q (va + BitVec.ofNat 64 (64 * i)) with
    | .ok site => if kindOk site.kind then s.request site else s
    | .error _ => s) s

/-- A unit reads a 64-bit word of a context's memory, of a kind that a test allows; the state is what its request met (R161, R168). -/
def State.unitFetch (s : State) (ctx : Nat) (m : Mode) (va : Word) (kindOk : Nat → Bool) : Except Nat Word × State :=
  match s.unitSite ctx m .load 0 va with
  | .error c => (.error c, s)
  | .ok site =>
    if kindOk site.kind = false ∨ (site.kind = 4 ∧ s.peerServes site 8 = false) then (.error 0x05, s)
    else if site.kind = 3 ∧ s.portUp site.key = false then (.error 0x16, s)
    else
      let s := s.request site
      (if s.poisoned site.key 8 then .error 0x16 else .ok (wordAt s.mem site.key), s)

/-- The word that a unit reads. -/
def State.unitWord (s : State) (ctx : Nat) (m : Mode) (va : Word) (kindOk : Nat → Bool) : Except Nat Word :=
  (s.unitFetch ctx m va kindOk).1

/-! Instruction fetch (R193, R229). -/

/-- Fetches one word for the issuing thread: a word it has fetched since its last ISYNC, or a read of memory, which the core's
own stores to the line have reached. The fault is its cause, with what the fetch met. -/
def State.fetchWord (s : State) (va : Word) : Except (Nat × State) (Nat × State) :=
  if va.toNat % 4 ≠ 0 then .error (0x03, s)
  else
    match tget none (s.th.ibuf.map fun e => (e.1, some e.2)) va.toNat with
    | some w => .ok (w, s)
    | none =>
      match s.translateFor s.myCore s.myQuire s.th.ctx s.th.mode .fetch va with
      | .error c => .error (c, s)
      | .ok (site, s) =>
        if (s.meets site).poisoned site.key 4 then .error (0x16, s.meets site)
        else
          let (bs, _, s) := s.readSite site 4
          .ok (leNat bs, s.setTh { s.th with ibuf := tput s.th.ibuf va.toNat (leNat bs) })

end Sys2Proof.Machine
end

