-- ==== Sys2Proof/Machine/Operands.lean ====
section
/-! DEFINITION. The operand forms of quire instructions: immediates and IMM chains (R279), branch targets (R283), the
addresses of FM, FVM, LDX and V.LDX (R284, R286, R288), and the shapes of register instructions. -/

namespace Sys2Proof.Machine

/-- A bare 13-bit immediate (R279). -/
def imm13 (i : BitVec 13) : Word := i.signExtend 64

/-- The immediate of a chain (R279): sext((hi << 13) | imm13, 13 + 25 n) for n prefixes, the first the highest. -/
def chainImm (first : BitVec 25) (second : Option (BitVec 25)) (i : BitVec 13) : Word :=
  match second with
  | none => (first ++ i).signExtend 64
  | some q => (first ++ q ++ i).signExtend 64

/-- Words in a chain (R277). -/
def chainWords (second : Option (BitVec 25)) : Nat :=
  match second with
  | none => 2
  | some _ => 3

/-- The target of a branch: pc + sext(displacement) × 4 (R283). -/
def target13 (pc : Word) (i : BitVec 13) : Word := pc + i.signExtend 64 * 4
def target19 (pc : Word) (i : BitVec 19) : Word := pc + i.signExtend 64 * 4

/-- The effective address of an FM instruction: s[base] + sext(off9, 9) × n (R284). -/
def State.eaFm (s : State) (base : SReg) (off : BitVec 9) (n : Nat) : Word :=
  s.rs base + off.signExtend 64 * BitVec.ofNat 64 n

/-- The effective address of V.LD and V.ST: s[base] + sext(off7, 7) × 64 (R286). -/
def State.eaFvm (s : State) (base : SReg) (off : BitVec 7) : Word := s.rs base + off.signExtend 64 * 64

/-- Bytes and log2 of the bytes of an LDX or STX size (R284). -/
def xsLog2 : XSize → Nat
  | .b => 0
  | .h => 1
  | .w => 2
  | .d => 3
  | .nb => 0
  | .nh => 1
  | .nw => 2
  | .q => 4
def xsBytes (z : XSize) : Nat := 2 ^ xsLog2 z
/-- Whether a size sign-extends its value (R284). -/
def xsSigned : XSize → Bool
  | .b => true
  | .h => true
  | .w => true
  | .d => true
  | .nb => false
  | .nh => false
  | .nw => false
  | .q => false

/-- The effective address of LDX and STX: s[a] + (s[b] << log2 n) (R284). -/
def State.eaX (s : State) (a b : SReg) (z : XSize) : Word := s.rs a + s.rs b <<< xsLog2 z

/-- Sign-extends the low 32 bits: the result of a .W form (R282). -/
def sext32 (x : Word) : Word := (x.setWidth 32).signExtend 64

/-- The low 32 bits of an operand. -/
def low32 (x : Word) : BitVec 32 := x.setWidth 32

/-- The latest stamp of sources (R160). -/
def stamp2 (s : State) (a b : SReg) : Nat := max (s.ss a) (s.ss b)

/-- A register instruction d ← f(s[a], s[b]) of one word (R282). -/
def alu3 (f : Word → Word → Word) (d a b : SReg) (s : State) : Out :=
  finish s (.ok ((s.ws d (f (s.rs a) (s.rs b)) (stamp2 s a b)).retire 1))

/-- A .W register instruction: f on the low 32 bits, the 32-bit result sign-extended (R282). -/
def alu3w (f : BitVec 32 → BitVec 32 → BitVec 32) (d a b : SReg) (s : State) : Out :=
  alu3 (fun x y => (f (low32 x) (low32 y)).signExtend 64) d a b s

/-- A register instruction of one source d ← f(s[a]). -/
def alu2 (f : Word → Word) (d a : SReg) (s : State) : Out :=
  finish s (.ok ((s.ws d (f (s.rs a)) (s.ss a)).retire 1))

/-- An immediate instruction of n words d ← f(s[a], imm). -/
def aluImm (f : Word → Word → Word) (d a : SReg) (i : Word) (words : Nat) (s : State) : Out :=
  finish s (.ok ((s.ws d (f (s.rs a) i) (s.ss a)).retire words))

/-- 1 for true, 0 for false. -/
def ofBool (b : Bool) : Word := if b then 1 else 0

end Sys2Proof.Machine
end

