-- ==== Sys2Proof/Machine/Flags.lean ====
section
/-! DEFINITION. Floating-point arithmetic and its flags: exact values, one rounding (R129 to R148), conversions, the
duplex-block formats (R131, R132, R143, R144) and the special functions of V.SF (R139). -/

namespace Sys2Proof.Machine

/-- A flag set in FCTL order: NV, DZ, OF, UF, NX from bit 4 down (R52). -/
abbrev FFlags := BitVec 5

def fNV : FFlags := 16
def fDZ : FFlags := 8
def fOF : FFlags := 4
def fUF : FFlags := 2
def fNX : FFlags := 1

/-- A result and the flags it raises. -/
abbrev FRes := Nat × FFlags

/-- A binary format: exponent bits and fraction bits (R129). -/
structure Fmt where
  eb : Nat
  fb : Nat
deriving DecidableEq, Repr

def fp64 : Fmt := { eb := 11, fb := 52 }
def fp32 : Fmt := { eb := 8, fb := 23 }
def fp16 : Fmt := { eb := 5, fb := 10 }
def bf16 : Fmt := { eb := 8, fb := 7 }

namespace Fmt
def bias (f : Fmt) : Nat := 2 ^ (f.eb - 1) - 1
def width (f : Fmt) : Nat := 1 + f.eb + f.fb
/-- The exponent of the unit in the last place of subnormals. -/
def qmin (f : Fmt) : Int := 1 - (f.bias : Int) - (f.fb : Int)
def signBit (f : Fmt) (neg : Bool) : Nat := if neg then 2 ^ (f.eb + f.fb) else 0
/-- The magnitude bits of +∞. -/
def infMag (f : Fmt) : Nat := (2 ^ f.eb - 1) * 2 ^ f.fb
def inf (f : Fmt) (neg : Bool) : Nat := f.signBit neg + f.infMag
def zero (f : Fmt) (neg : Bool) : Nat := f.signBit neg
def quietBit (f : Fmt) : Nat := 2 ^ (f.fb - 1)
/-- The canonical NaN (R129). -/
def nan (f : Fmt) : Nat := f.infMag + f.quietBit
end Fmt

/-- A value: a NaN with its fraction, an infinity, or (−1)^neg × m × 2^e. -/
inductive FVal where
  | nan (neg : Bool) (frac : Nat) (signalling : Bool)
  | inf (neg : Bool)
  | fin (neg : Bool) (m : Nat) (e : Int)
deriving DecidableEq, Repr

/-- The value of the bits of a format (R129). -/
def FVal.of (f : Fmt) (x : Nat) : FVal :=
  let x := x % 2 ^ f.width
  let neg := 2 ^ (f.eb + f.fb) ≤ x
  let ex := x / 2 ^ f.fb % 2 ^ f.eb
  let fr := x % 2 ^ f.fb
  if ex = 2 ^ f.eb - 1 then (if fr = 0 then .inf neg else .nan neg fr (fr < f.quietBit))
  else if ex = 0 then .fin neg fr f.qmin
  else .fin neg (2 ^ f.fb + fr) (f.qmin + (ex : Int) - 1)

def FVal.isNaN : FVal → Bool
  | .nan _ _ _ => true
  | _ => false
def FVal.isSNaN : FVal → Bool
  | .nan _ _ sn => sn
  | _ => false
def FVal.isInf : FVal → Bool
  | .inf _ => true
  | _ => false
def FVal.isZero : FVal → Bool
  | .fin _ m _ => m == 0
  | _ => false
def FVal.neg? : FVal → Bool
  | .nan n _ _ => n
  | .inf n => n
  | .fin n _ _ => n

/-- A NaN of a format, quieted, with its sign and its other payload bits (R136). -/
def quieted (f : Fmt) (neg : Bool) (frac : Nat) : Nat :=
  f.signBit neg + f.infMag + (if frac < f.quietBit then frac + f.quietBit else frac)

/-- NV for any signalling NaN among values (R136). -/
def snanFlag (vs : List FVal) : FFlags := if vs.any FVal.isSNaN then fNV else 0

/-- The first NaN of a list in operand order, quieted, if there is one (R136). -/
def firstNaN (f : Fmt) : List FVal → Option Nat
  | [] => none
  | .nan n fr _ :: _ => some (quieted f n fr)
  | _ :: vs => firstNaN f vs

/-- Whether rounding takes the magnitude up, for mode rm (0 RNE, 1 RTZ, 2 RUP, 3 RDN, 4 RMM; R133), the sign, the parity
of the kept part and the dropped part rem out of 2 × half. -/
def roundsUp (rm : Nat) (neg odd : Bool) (rem half : Nat) : Bool :=
  match rm with
  | 0 => half < rem || (rem == half && odd)
  | 1 => false
  | 2 => !neg && rem != 0
  | 3 => neg && rem != 0
  | _ => half ≤ rem

/-- m × 2^e as a multiple of 2^q: the rounded multiple and whether it is exact. -/
def roundAt (rm : Nat) (neg : Bool) (m : Nat) (e q : Int) : Nat × Bool :=
  if q ≤ e then (m * 2 ^ (e - q).toNat, true)
  else
    let d := (q - e).toNat
    let hi := m / 2 ^ d
    let rem := m % 2 ^ d
    (if roundsUp rm neg (hi % 2 == 1) rem (2 ^ (d - 1)) then hi + 1 else hi, rem == 0)

/-- One rounding of an exact non-zero value to a format (R133, R134). -/
def roundFin (f : Fmt) (rm : Nat) (neg : Bool) (m : Nat) (e : Int) : FRes :=
  let top : Int := e + (Nat.log2 m : Int)
  let qu := top - (f.fb : Int)
  let q := if qu < f.qmin then f.qmin else qu
  let (r, exact) := roundAt rm neg m e q
  let enc := r + (q - f.qmin).toNat * 2 ^ f.fb
  if f.infMag ≤ enc then
    let toInf := match rm with
      | 1 => false
      | 2 => !neg
      | 3 => neg
      | _ => true
    (f.signBit neg + (if toInf then f.infMag else f.infMag - 1), fOF ||| fNX)
  else
    -- Tiny: the magnitude rounded with an unbounded exponent range lies below the smallest normal value.
    let (ru, _) := roundAt rm neg m e qu
    let tiny : Bool := qu < f.qmin ∧ ¬(qu = f.qmin - 1 ∧ 2 ^ (f.fb + 1) ≤ ru)
    (f.signBit neg + enc, if exact then 0 else if tiny then fUF ||| fNX else fNX)

/-- The exact sum of finite terms, as an integer multiple of 2^q. -/
def exactSum (q : Int) : List (Bool × Nat × Int) → Int
  | [] => 0
  | (neg, m, e) :: ts =>
    let x : Int := (m * 2 ^ (e - q).toNat : Nat)
    (if neg then -x else x) + exactSum q ts

/-- The least exponent of terms. -/
def leastExp : List (Bool × Nat × Int) → Int
  | [] => 0
  | [(_, _, e)] => e
  | (_, _, e) :: ts => min e (leastExp ts)

/-- The sum of finite terms with one rounding; an exact zero takes its sign by R134. -/
def roundSum (f : Fmt) (rm : Nat) (ts : List (Bool × Nat × Int)) : FRes :=
  let q := leastExp ts
  let x := exactSum q ts
  if x = 0 then
    let neg := if ts.all (·.1) then true else if ts.all (!·.1) then false else rm == 3
    (f.zero neg, 0)
  else roundFin f rm (x < 0) x.natAbs q

/-- a + b (R134, R136). -/
def fAddV (f : Fmt) (rm : Nat) (a b : FVal) : FRes :=
  match firstNaN f [a, b] with
  | some r => (r, snanFlag [a, b])
  | none =>
    match a, b with
    | .inf n, .inf k => if n = k then (f.inf n, 0) else (f.nan, fNV)
    | .inf n, _ => (f.inf n, 0)
    | _, .inf k => (f.inf k, 0)
    | .fin n m e, .fin k w g => roundSum f rm [(n, m, e), (k, w, g)]
    | _, _ => (f.nan, fNV)

/-- The value with its sign flipped, a NaN kept. -/
def FVal.flip : FVal → FVal
  | .nan n fr sn => .nan n fr sn
  | .inf n => .inf (!n)
  | .fin n m e => .fin (!n) m e

/-- a − b: NaN operands as they stand (R136). -/
def fSubV (f : Fmt) (rm : Nat) (a b : FVal) : FRes := fAddV f rm a b.flip

/-- a × b. -/
def fMulV (f : Fmt) (rm : Nat) (a b : FVal) : FRes :=
  match firstNaN f [a, b] with
  | some r => (r, snanFlag [a, b])
  | none =>
    let neg := a.neg? != b.neg?
    match a, b with
    | .fin _ m e, .fin _ w g => if m * w = 0 then (f.zero neg, 0) else roundFin f rm neg (m * w) (e + g)
    | _, _ => if a.isZero || b.isZero then (f.nan, fNV) else (f.inf neg, 0)

/-- Bits of a magnitude. -/
def bitLen (m : Nat) : Nat := if m = 0 then 0 else Nat.log2 m + 1

/-- a ÷ b: the quotient with a sticky bit below it. -/
def fDivV (f : Fmt) (rm : Nat) (a b : FVal) : FRes :=
  match firstNaN f [a, b] with
  | some r => (r, snanFlag [a, b])
  | none =>
    let neg := a.neg? != b.neg?
    match a, b with
    | .fin _ m e, .fin _ w g =>
      if w = 0 then (if m = 0 then (f.nan, fNV) else (f.inf neg, fDZ))
      else if m = 0 then (f.zero neg, 0)
      else
        let k := bitLen w + f.fb + 3
        let n := m * 2 ^ k
        roundFin f rm neg (2 * (n / w) + (if n % w = 0 then 0 else 1)) (e - g - k - 1)
    | .fin _ _ _, _ => (f.zero neg, 0)
    | _, .fin _ _ _ => (f.inf neg, 0)
    | _, _ => (f.nan, fNV)

/-- The integer square root, from n digit positions down. -/
def isqrtFrom (x : Nat) : Nat → Nat → Nat
  | 0, r => r
  | n + 1, r => isqrtFrom x n (if (r + 2 ^ n) * (r + 2 ^ n) ≤ x then r + 2 ^ n else r)

/-- The integer square root. -/
def isqrt (x : Nat) : Nat := isqrtFrom x (bitLen x / 2 + 1) 0

/-- √a (R136). -/
def fSqrtV (f : Fmt) (rm : Nat) (a : FVal) : FRes :=
  match a with
  | .nan n fr sn => (quieted f n fr, if sn then fNV else 0)
  | .inf neg => if neg then (f.nan, fNV) else (f.inf false, 0)
  | .fin neg m e =>
    if m = 0 then (f.zero neg, 0)
    else if neg then (f.nan, fNV)
    else
      let (m, e) := if e % 2 = 0 then (m, e) else (2 * m, e - 1)
      let k := f.fb + 4
      let n := m * 2 ^ (2 * k)
      let r := isqrt n
      roundFin f rm false (2 * r + (if r * r = n then 0 else 1)) (e / 2 - k - 1)

/-- Exact comparison of values that are no NaN: −1, 0 or 1 as an order; −0 equals +0. -/
def FVal.key (v : FVal) (q : Int) : Int :=
  match v with
  | .fin n m e => let x : Int := (m * 2 ^ (e - q).toNat : Nat); if n then -x else x
  | .inf n => if n then -1 else 1
  | .nan _ _ _ => 0
def FVal.exp : FVal → Int
  | .fin _ _ e => e
  | _ => 0
def fLt (a b : FVal) : Bool :=
  match a, b with
  | .inf n, .inf k => n && !k
  | .inf n, _ => n
  | _, .inf k => !k
  | _, _ => a.key (min a.exp b.exp) < b.key (min a.exp b.exp)
def fEq (a b : FVal) : Bool :=
  match a, b with
  | .inf n, .inf k => n == k
  | .inf _, _ => false
  | _, .inf _ => false
  | _, _ => a.key (min a.exp b.exp) == b.key (min a.exp b.exp)

/-- Whether a goes before b in the order of MIN and MAX, where −0 is less than +0 (R138). -/
def fLtTotal (a b : FVal) : Bool := fLt a b || (fEq a b && a.neg? && !b.neg?)

/-- MIN and MAX of the bits of a format (R138). -/
def fMinBits (f : Fmt) (x y : Nat) : FRes :=
  let a := FVal.of f x
  let b := FVal.of f y
  match firstNaN f [a, b] with
  | some r => (r, snanFlag [a, b])
  | none => (if fLtTotal b a then y % 2 ^ f.width else x % 2 ^ f.width, 0)
def fMaxBits (f : Fmt) (x y : Nat) : FRes :=
  let a := FVal.of f x
  let b := FVal.of f y
  match firstNaN f [a, b] with
  | some r => (r, snanFlag [a, b])
  | none => (if fLtTotal a b then y % 2 ^ f.width else x % 2 ^ f.width, 0)

/-- A comparison: its truth on numbers, and whether it raises NV for quiet NaNs too (R138). -/
def fCmp (f : Fmt) (rel : FVal → FVal → Bool) (onNaN ordered : Bool) (x y : Nat) : Bool × FFlags :=
  let a := FVal.of f x
  let b := FVal.of f y
  if a.isNaN || b.isNaN then (onNaN, if ordered || a.isSNaN || b.isSNaN then fNV else 0) else (rel a b, 0)

/-- The operations on bits of a format. -/
def fAddBits (f : Fmt) (rm x y : Nat) : FRes := fAddV f rm (FVal.of f x) (FVal.of f y)
def fSubBits (f : Fmt) (rm x y : Nat) : FRes := fSubV f rm (FVal.of f x) (FVal.of f y)
def fMulBits (f : Fmt) (rm x y : Nat) : FRes := fMulV f rm (FVal.of f x) (FVal.of f y)
def fDivBits (f : Fmt) (rm x y : Nat) : FRes := fDivV f rm (FVal.of f x) (FVal.of f y)
def fSqrtBits (f : Fmt) (rm x : Nat) : FRes := fSqrtV f rm (FVal.of f x)

/-- The product of two values as a term, an infinity, or 0 × ∞. A NaN operand adds nothing here: the rules of R136 and R147
decide it before the sum. -/
inductive Prod where
  | term (neg : Bool) (m : Nat) (e : Int)
  | inf (neg : Bool)
  | invalid
def prod (a b : FVal) : Prod :=
  match a, b with
  | .fin n m e, .fin k w g => .term (n != k) (m * w) (e + g)
  | _, _ =>
    if a.isNaN || b.isNaN then .term false 0 0
    else if a.isZero || b.isZero then .invalid else .inf (a.neg? != b.neg?)
def Prod.isInvalid : Prod → Bool
  | .invalid => true
  | _ => false
/-- The finite terms of products and a value. -/
def Prod.terms : Prod → List (Bool × Nat × Int)
  | .term n m e => [(n, m, e)]
  | _ => []
def Prod.infs : Prod → List Bool
  | .inf n => [n]
  | _ => []
def FVal.terms : FVal → List (Bool × Nat × Int)
  | .fin n m e => [(n, m, e)]
  | _ => []
def FVal.infs : FVal → List Bool
  | .inf n => [n]
  | _ => []

/-- The rounded sum of products and a value that are no NaN: an invalid product or opposite infinities give the canonical
NaN and NV, an infinity gives itself (R136, R137). -/
def sumProds (f : Fmt) (rm : Nat) (ps : List Prod) (c : FVal) : FRes :=
  let infs := ps.flatMap Prod.infs ++ c.infs
  if ps.any Prod.isInvalid || (infs.any id && infs.any (!·)) then (f.nan, fNV)
  else
    match infs with
    | n :: _ => (f.inf n, 0)
    | [] => roundSum f rm (ps.flatMap Prod.terms ++ c.terms)

/-- FMA (R137): a × b + c with one rounding. -/
def fFmaBits (f : Fmt) (rm x y z : Nat) : FRes :=
  let a := FVal.of f x
  let b := FVal.of f y
  let c := FVal.of f z
  match firstNaN f [a, b] with
  | some r => (r, snanFlag [a, b, c])
  | none =>
    match c with
    | .nan n fr sn => (quieted f n fr, if sn || (prod a b).isInvalid then fNV else 0)
    | _ => sumProds f rm [prod a b] c

/-- CLASS (R286): one bit of ten. -/
def fClassBits (f : Fmt) (x : Nat) : Nat :=
  match FVal.of f x with
  | .inf true => 1
  | .inf false => 128
  | .nan _ _ true => 256
  | .nan _ _ false => 512
  | .fin neg m _ =>
    if m = 0 then (if neg then 8 else 16)
    else if m < 2 ^ f.fb then (if neg then 4 else 32)
    else (if neg then 2 else 64)

/-! Conversions (R140 to R142). -/

/-- Between formats (R140). -/
def fCvtBits (src dst : Fmt) (rm x : Nat) : FRes :=
  match FVal.of src x with
  | .nan n fr sn =>
    let fr := if fr < src.quietBit then fr + src.quietBit else fr
    let fr := if dst.fb ≤ src.fb then fr / 2 ^ (src.fb - dst.fb) else fr * 2 ^ (dst.fb - src.fb)
    (dst.signBit n + dst.infMag + fr, if sn then fNV else 0)
  | .inf n => (dst.inf n, 0)
  | .fin n m e => if m = 0 then (dst.zero n, 0) else roundFin dst rm n m e

/-- An integer type: width and signedness. -/
structure IFmt where
  w      : Nat
  signed : Bool
deriving DecidableEq, Repr
def IFmt.lo (t : IFmt) : Int := if t.signed then -(2 ^ (t.w - 1) : Nat) else 0
def IFmt.hi (t : IFmt) : Int := if t.signed then (2 ^ (t.w - 1) : Nat) - 1 else (2 ^ t.w : Nat) - 1
/-- The value of the low bits of a number under an integer type, and the bits of a value. -/
def IFmt.val (t : IFmt) (x : Nat) : Int :=
  let x := x % 2 ^ t.w
  if t.signed ∧ 2 ^ (t.w - 1) ≤ x then (x : Int) - (2 ^ t.w : Nat) else x
def IFmt.enc (t : IFmt) (v : Int) : Nat := (v % (2 ^ t.w : Nat)).toNat
/-- Saturation to the range of a type (R130). -/
def IFmt.sat (t : IFmt) (v : Int) : Nat := t.enc (if v < t.lo then t.lo else if t.hi < v then t.hi else v)

/-- Float to integer (R141). -/
def fToInt (f : Fmt) (t : IFmt) (rm x : Nat) : FRes :=
  match FVal.of f x with
  | .nan _ _ _ => (0, fNV)
  | .inf n => (t.enc (if n then t.lo else t.hi), fNV)
  | .fin n m e =>
    let (r, exact) := roundAt rm n m e 0
    let v : Int := if n then -(r : Int) else r
    if v < t.lo ∨ t.hi < v then (t.enc (if n then t.lo else t.hi), fNV) else (t.enc v, if exact then 0 else fNX)

/-- Integer to float (R142). -/
def fOfInt (t : IFmt) (f : Fmt) (rm x : Nat) : FRes :=
  let v := t.val x
  if v = 0 then (f.zero false, 0) else roundFin f rm (v < 0) v.natAbs 0

/-! Duplex blocks (R131, R132, R143, R144). -/

/-- A block format: largest magnitude, exponent offset, bits of the magnitude (R131). -/
structure DFmt where
  mmax : Nat
  off  : Nat
  mb   : Nat
deriving DecidableEq, Repr
def db8 : DFmt := { mmax := 63, off := 132, mb := 6 }
def db4 : DFmt := { mmax := 3, off := 128, mb := 2 }

/-- An element's selector, sign and magnitude. -/
def DFmt.sel (d : DFmt) (x : Nat) : Nat := x / 2 ^ (d.mb + 1) % 2
def DFmt.neg (d : DFmt) (x : Nat) : Bool := x / 2 ^ d.mb % 2 == 1
def DFmt.mag (d : DFmt) (x : Nat) : Nat := x % 2 ^ d.mb

/-- The value of an element under its block's exponents: none is a NaN (R132). -/
def DFmt.value (d : DFmt) (e0 e1 x : Nat) : Option (Bool × Nat × Int) :=
  let e := if d.sel x = 0 then e0 else e1
  if e = 0xFF then none else some (d.neg x, d.mag x, (e : Int) - d.off)

/-- Out of a block (R144). -/
def dbToFloat (d : DFmt) (f : Fmt) (rm e0 e1 x : Nat) : FRes :=
  match d.value e0 e1 x with
  | none => (f.nan, 0)
  | some (n, m, e) => if m = 0 then (f.zero n, 0) else roundFin f rm n m e

/-- RNE(a / 2^q) for a magnitude (R143). -/
def rneAt (m : Nat) (e q : Int) : Nat := (roundAt 0 false m e q).1

/-- The greatest finite magnitude of values, none when one is infinite. -/
def maxMag : List FVal → Option (Nat × Int)
  | [] => some (0, 0)
  | .nan _ _ _ :: vs => maxMag vs
  | .inf _ :: _ => none
  | .fin _ m e :: vs =>
    match maxMag vs with
    | none => none
    | some (w, g) =>
      let q := min e g
      some (if w * 2 ^ (g - q).toNat < m * 2 ^ (e - q).toNat then (m, e) else (w, g))

/-- The block exponent e of R143. -/
def DFmt.blockExp (d : DFmt) (vs : List FVal) : Nat :=
  match maxMag vs with
  | none => 254
  | some (m, e) =>
    if m = 0 then 0
    else
      let x := e + (Nat.log2 m : Int) + 127
      let x := if d.mmax < rneAt m e (x - d.off) then x + 1 else x
      if x < 0 then 0 else if 254 < x then 254 else x.toNat

/-- One element of R143: its bits and flags. -/
def DFmt.element (d : DFmt) (e0 e1 : Nat) (v : FVal) : FRes :=
  let pack := fun (sel : Nat) (neg : Bool) (m : Nat) =>
    sel * 2 ^ (d.mb + 1) + (if neg && m != 0 then 2 ^ d.mb else 0) + m
  match v with
  | .nan _ _ sn => (2 ^ (d.mb + 1), if sn then fNV else 0)
  | .inf n =>
    if e1 = 0xFF then (pack 0 n d.mmax, fOF ||| fNX) else (pack 1 n d.mmax, fOF ||| fNX)
  | .fin n m e =>
    let q0 : Int := (e0 : Int) - d.off
    let q1 : Int := (e1 : Int) - d.off
    let m0 := rneAt m e q0
    let (sel, r, q) :=
      if m0 ≤ d.mmax ∨ e1 = 0xFF then (0, m0, q0) else (1, rneAt m e q1, q1)
    let cut := min r d.mmax
    let exact : Bool := r ≤ d.mmax && (roundAt 0 false m e q).2
    (pack sel n cut,
      (if d.mmax < r then fOF else 0) ||| (if m ≠ 0 ∧ cut = 0 then fUF else 0) ||| (if exact then 0 else fNX))

/-- Into a block (R143): E0, E1, the elements and the flags. -/
def DFmt.convert (d : DFmt) (k : Nat) (vs : List FVal) : Nat × Nat × List Nat × FFlags :=
  let e := d.blockExp vs
  let isNan := vs.any FVal.isNaN
  let e1 := if isNan then 0xFF else e
  let e0 := if isNan then e else e - k
  let rs := vs.map (d.element e0 e1)
  (e0, e1, rs.map (·.1), rs.foldl (fun f r => f ||| r.2) 0)

/-! V.SF (R139) in FP32. Irrational results are taken from a fixed-point value below the true magnitude by less than
2^-240, with a sticky bit, which fixes every rounding. -/

/-- Fraction bits of the fixed-point values. -/
def sfP : Nat := 320

/-- ln of (1 + z) / (1 − z), from n terms of the series, z in fixed point: term index i and the power z^(2i+1). -/
def atanhSum (z2 : Nat) : Nat → Nat → Nat → Nat
  | 0, _, _ => 0
  | n + 1, i, p => p / (2 * i + 1) + atanhSum z2 n (i + 1) (p * z2 / 2 ^ sfP)
def lnRatio (z : Nat) : Nat := 2 * atanhSum (z * z / 2 ^ sfP) 112 0 z

/-- ln 2 in fixed point: (1 + 1/3) / (1 − 1/3) = 2. -/
def sfLn2 : Nat := lnRatio (2 ^ sfP / 3)

/-- The exponential series from n terms: index i and the term y^i / i!. -/
def expSum (y : Nat) : Nat → Nat → Nat → Nat
  | 0, _, _ => 0
  | n + 1, i, t => t + expSum y n (i + 1) (t * y / 2 ^ sfP / (i + 1))

/-- A fixed-point magnitude brought below the true value, with its sticky bit, as a term of exponent −sfP − 1. -/
def sfSticky (x : Nat) : Nat := 2 * (x - 2 ^ 64) + 1

/-- RCP. -/
def sfRcp (rm x : Nat) : FRes :=
  match FVal.of fp32 x with
  | .nan n fr sn => (quieted fp32 n fr, if sn then fNV else 0)
  | .inf n => (fp32.zero n, 0)
  | .fin n m e =>
    if m = 0 then (fp32.inf n, fDZ) else fDivV fp32 rm (.fin false 1 0) (.fin n m e)

/-- RSQRT. -/
def sfRsqrt (rm x : Nat) : FRes :=
  match FVal.of fp32 x with
  | .nan n fr sn => (quieted fp32 n fr, if sn then fNV else 0)
  | .inf n => if n then (fp32.nan, fNV) else (fp32.zero false, 0)
  | .fin n m e =>
    if m = 0 then (fp32.inf n, fDZ)
    else if n then (fp32.nan, fNV)
    else
      let (m, e) := if e % 2 = 0 then (m, e) else (2 * m, e - 1)
      let q := isqrt (2 ^ 160 / m)
      roundFin fp32 rm false (2 * q + (if q * q * m = 2 ^ 160 then 0 else 1)) (-(e / 2) - 80 - 1)

/-- EXP2. -/
def sfExp2 (rm x : Nat) : FRes :=
  match FVal.of fp32 x with
  | .nan n fr sn => (quieted fp32 n fr, if sn then fNV else 0)
  | .inf n => (if n then fp32.zero false else fp32.inf false, 0)
  | .fin n m e =>
    -- The argument as an integer multiple of 2^-sfP: every FP32 value is one.
    let y : Int := (m * 2 ^ (e + sfP).toNat : Nat)
    let y := if n then -y else y
    let whole := y / (2 ^ sfP : Nat)
    let frac := (y % (2 ^ sfP : Nat)).toNat
    let whole := if whole < -1000 then -1000 else if 1000 < whole then 1000 else whole
    if frac = 0 then roundFin fp32 rm false 1 whole
    else roundFin fp32 rm false (sfSticky (expSum (frac * sfLn2 / 2 ^ sfP) 80 0 (2 ^ sfP))) (whole - sfP - 1)

/-- LOG2. -/
def sfLog2 (rm x : Nat) : FRes :=
  match FVal.of fp32 x with
  | .nan n fr sn => (quieted fp32 n fr, if sn then fNV else 0)
  | .inf n => if n then (fp32.nan, fNV) else (fp32.inf false, 0)
  | .fin n m e =>
    if m = 0 then (fp32.inf true, fDZ)
    else if n then (fp32.nan, fNV)
    else
      let k := Nat.log2 m
      let ex : Int := e + (k : Int)
      if m = 2 ^ k then (if ex = 0 then (fp32.zero false, 0) else roundFin fp32 rm (ex < 0) ex.natAbs 0)
      else
        -- t = m / 2^k lies between 1 and 2; ln t = lnRatio ((t − 1) / (t + 1)).
        let z := (m - 2 ^ k) * 2 ^ sfP / (m + 2 ^ k)
        let l : Int := (lnRatio z * 2 ^ sfP / sfLn2 : Nat)
        let v : Int := ex * (2 ^ sfP : Nat) + l
        roundFin fp32 rm (v < 0) (sfSticky v.natAbs) (-(sfP : Int) - 1)

end Sys2Proof.Machine
end

