-- ==== Sys2Proof/Machine/Float.lean ====
section
/-! DEFINITION. Scalar floating point (R286, R357 to R359) and the predicate instructions PL and PCMP (R290, R384, R387). -/

namespace Sys2Proof.Machine

/-- The format of a precision. -/
def FPrec.fmt : FPrec → Fmt
  | .f64 => fp64
  | .f32 => fp32

/-- A scalar operand of a precision: an FP32 operand is read from [31:0] (R286). -/
def State.fop (s : State) (p : FPrec) (r : SReg) : Nat := (s.rs r).toNat % 2 ^ (FPrec.fmt p).width

/-- Writes a floating-point result with its flags and retires (R286, R357). -/
def State.fput (s : State) (d : SReg) (r : FRes) (st : Nat) : State :=
  ((s.orFlags r.2).ws d (BitVec.ofNat 64 r.1) st).retire 1

/-- An F.A instruction of two operands. -/
def fArith2 (f : Fmt → Nat → Nat → Nat → FRes) (d a b : SReg) (p : FPrec) (s : State) : Out :=
  finish s (.ok (s.fput d (f (FPrec.fmt p) s.th.rm (s.fop p a) (s.fop p b)) (stamp2 s a b)))

/-- An F.A comparison. -/
def fCompare (rel : FVal → FVal → Bool) (ordered : Bool) (d a b : SReg) (p : FPrec) (s : State) : Out :=
  fArith2 (fun f _ x y => let r := fCmp f rel false ordered x y; ((ofBool r.1).toNat, r.2)) d a b p s

def execFAdd (d a b : SReg) (p : FPrec) (s : State) : Out := fArith2 fAddBits d a b p s
def execFSub (d a b : SReg) (p : FPrec) (s : State) : Out := fArith2 fSubBits d a b p s
def execFMul (d a b : SReg) (p : FPrec) (s : State) : Out := fArith2 fMulBits d a b p s
def execFDiv (d a b : SReg) (p : FPrec) (s : State) : Out := fArith2 fDivBits d a b p s
def execFMin (d a b : SReg) (p : FPrec) (s : State) : Out := fArith2 (fun f _ x y => fMinBits f x y) d a b p s
def execFMax (d a b : SReg) (p : FPrec) (s : State) : Out := fArith2 (fun f _ x y => fMaxBits f x y) d a b p s
def execFCeq (d a b : SReg) (p : FPrec) (s : State) : Out := fCompare fEq false d a b p s
def execFClt (d a b : SReg) (p : FPrec) (s : State) : Out := fCompare fLt true d a b p s
def execFCle (d a b : SReg) (p : FPrec) (s : State) : Out := fCompare (fun x y => fLt x y || fEq x y) true d a b p s

def execFSqrt (d a : SReg) (p : FPrec) (s : State) : Out :=
  finish s (.ok (s.fput d (fSqrtBits (FPrec.fmt p) s.th.rm (s.fop p a)) (s.ss a)))

/-- F.CLASS raises no flag (R357). -/
def execFClass (d a : SReg) (p : FPrec) (s : State) : Out :=
  finish s (.ok (s.fput d (fClassBits (FPrec.fmt p) (s.fop p a), 0) (s.ss a)))

/-- F.FMA (R359). -/
def execFFma (d a b c : SReg) (p : FPrec) (s : State) : Out :=
  finish s (.ok (s.fput d (fFmaBits (FPrec.fmt p) s.th.rm (s.fop p a) (s.fop p b) (s.fop p c))
    (max (stamp2 s a b) (s.ss c))))

/-- A type of F.CVT: a float or an integer format. -/
def CvtType.kind : CvtType → Fmt ⊕ IFmt
  | .f64 => .inl fp64
  | .f32 => .inl fp32
  | .f16 => .inl fp16
  | .bf16 => .inl bf16
  | .i64 => .inr { w := 64, signed := true }
  | .n64 => .inr { w := 64, signed := false }
  | .i32 => .inr { w := 32, signed := true }
  | .n32 => .inr { w := 32, signed := false }

/-- F.CVT of a value (R358): the 64-bit result and its flags. -/
def fCvt (frm tgt : CvtType) (rm x : Nat) : FRes :=
  match CvtType.kind frm, CvtType.kind tgt with
  | .inl f, .inl g => fCvtBits f g rm (x % 2 ^ f.width)
  | .inl f, .inr t =>
    let r := fToInt f t rm (x % 2 ^ f.width)
    (if t.signed then (sextN t.w r.1).toNat else r.1, r.2)
  | .inr t, .inl g => fOfInt t g rm x
  | .inr t, .inr u => (u.sat (t.val x), 0)

def execFCvt (d a : SReg) (frm tgt : CvtType) (s : State) : Out :=
  finish s (.ok (s.fput d (fCvt frm tgt s.th.rm (s.rs a).toNat) (s.ss a)))

/-! Predicates. -/

/-- A predicate instruction of two sources. -/
def plOp (f : Word → Word → Word) (pd pa pb : PReg) (s : State) : Out :=
  finish s (.ok ((s.wp pd (f (s.rp pa) (s.rp pb)) (max (s.ps pa) (s.ps pb))).retire 1))

def execPlAnd (pd pa pb : PReg) (s : State) : Out := plOp (· &&& ·) pd pa pb s
def execPlOr (pd pa pb : PReg) (s : State) : Out := plOp (· ||| ·) pd pa pb s
def execPlXor (pd pa pb : PReg) (s : State) : Out := plOp (· ^^^ ·) pd pa pb s
def execPlAndn (pd pa pb : PReg) (s : State) : Out := plOp (fun x y => x &&& ~~~y) pd pa pb s
def execPlNot (pd pa : PReg) (s : State) : Out := finish s (.ok ((s.wp pd (~~~(s.rp pa)) (s.ps pa)).retire 1))
def execPlSet (pd : PReg) (s : State) : Out := finish s (.ok ((s.wp pd (BitVec.allOnes 64) 0).retire 1))
def execPlClr (pd : PReg) (s : State) : Out := finish s (.ok ((s.wp pd 0 0).retire 1))

/-- The conditions of PCMP (R384). -/
def pcond : PCond → Word → Word → Bool
  | .eq, x, y => x == y
  | .ne, x, y => x != y
  | .lt, x, y => x.slt y
  | .ge, x, y => !x.slt y
  | .ltn, x, y => x.ult y
  | .gen, x, y => !x.ult y

def execPcmp (pd : PReg) (cond : PCond) (a b : SReg) (s : State) : Out :=
  finish s (.ok ((s.wp pd (if pcond cond (s.rs a) (s.rs b) then BitVec.allOnes 64 else 0) (stamp2 s a b)).retire 1))

end Sys2Proof.Machine
end

