-- ==== Sys2Proof/Machine/Queue.lean ====
section
/-! DEFINITION. Launch queues, their register blocks (R32 to R35), the launches and their placement units (R25 to R27,
R37), the binding of a heap's engines (R198, R209, R211), and the device's register space (R247, R263, R264). -/

namespace Sys2Proof.Machine

/-! Launches. -/

/-- Fields of the Flags word (R23). -/
def Launch.levels (l : Launch) : Nat := bits l.flags 2 0
def Launch.cores (l : Launch) : Nat := bits l.flags 46 44
def Launch.isHeap (l : Launch) : Bool := bit l.flags 43
def Launch.prio (l : Launch) : Nat := bits l.flags 41 39
/-- The width of WID field k (R23). -/
def widWidth (flags : Word) (k : Nat) : Nat := bits flags (8 + 6 * k) (3 + 6 * k)

/-- The product of the first k extents: the size of a level-k group (R26). -/
def groupSize (extents : List Nat) (k : Nat) : Nat := (extents.take k).foldl (· * ·) 1

/-- WIDs of a launch (R25). -/
def Launch.wids (l : Launch) : Nat := groupSize l.extents l.levels
/-- WIDs of one placement unit and the number of units (R37). -/
def Launch.unitSize (l : Launch) : Nat := groupSize l.extents l.cores
def Launch.units (l : Launch) : Nat := l.wids / l.unitSize

/-- The WID of a linear index (R25, R26): index k in field k, the lowest field first. -/
def widValue (flags : Word) : List Nat → Nat → Nat → Nat
  | [], _, _ => 0
  | e :: es, k, n => n % e + 2 ^ widWidth flags k * widValue flags es (k + 1) (n / e)

/-- The WID with a linear index in a launch. -/
def Launch.widOf (l : Launch) (linear : Nat) : Word :=
  BitVec.ofNat 64 (widValue l.flags (l.extents.take l.levels) 0 linear)

/-- Whether a launch has handed out every unit, none of them still in reservation, nor among what a switched-out context saved. -/
def State.allOut (s : State) (n : Nat) (l : Launch) : Bool :=
  l.nextUnit == l.units && !(s.quires.any fun e => match e.2.resv with
    | some r => r.launch == n
    | none => false) && !s.saved.any fun e => e.2.resvs.any fun r => r.2.launch == n

/-! The heap of a launch. -/

/-- The quires that a MAP names, each once. -/
def HeapBinding.quires (h : HeapBinding) : List Nat := (h.map.map (· % 16)).eraseDups

/-- The engines of a heap are unbound and empty (R198). -/
def State.unbindHeap (s : State) (h : HeapBinding) : State :=
  h.quires.foldl (fun s q => s.setQuire q { s.quire q with heap := HeapEng.reset }) s

/-- RESULT (R209). -/
def resultWord (count : Nat) (dumpFault : Bool) (outcome : Nat) : Word :=
  BitVec.ofNat 64 (count % 2 ^ 32 * 2 ^ 32 + (if dumpFault then 256 else 0) + outcome)

/-- A unit that is neither core nor copy or gather engine stores an 8-byte word for a context with user rights, none where the
store faults; no scratchpad and no device register is in its reach (R17, R247). -/
def State.unitStore64 (s : State) (ctx : Nat) (va w : Word) : Option State :=
  match s.unitSite ctx .user .store 0 va with
  | .error _ => none
  | .ok site =>
    if 5 ≤ site.kind ∨ s.storeFails site.kind site.key 8 = true then none else some (s.unitWrite site (leBytes 8 w.toNat))

/-- A completion write that faulted (R31). -/
def State.completionFault (s : State) (l : Launch) : State :=
  s.setLq l.ctx l.q { s.lq l.ctx l.q with reason := 0x0D, rej := true, errHdr := l.hdr }

/-- A unit writes RESULT; a write that faults is treated as a completion write that faults (R209). -/
def State.writeResult (s : State) (l : Launch) (h : HeapBinding) (w : Word) : State :=
  match s.unitStore64 l.ctx (h.desc + 0x50) w with
  | some s' => s'
  | none => s.completionFault l

/-- The end of an aborted heap (R35, R211): RESULT with OUTCOME 3 and COUNT 0, and the engines unbound. -/
def State.abortHeap (s : State) (l : Launch) (h : HeapBinding) : State :=
  (s.writeResult l h (resultWord 0 false 3)).unbindHeap h

/-! Launch queues. -/

/-- Slots occupied (R34). -/
def LQueue.depth (q : LQueue) : Nat := q.pending.length + (if q.head = none then 0 else 1)
/-- HALTED (R33). -/
def LQueue.isHalted (q : LQueue) : Bool := q.rej || q.ovf

/-- SPAWN and LQPUSH append a header address. -/
def State.lqAppend (s : State) (c q : Nat) (hdr : Word) : State :=
  s.setLq c q { s.lq c q with pending := (s.lq c q).pending ++ [hdr] }

/-- A store to LQPUSH (R32): dropped on a full queue, which halts. -/
def State.lqPush (s : State) (c q : Nat) (hdr : Word) : State :=
  if (s.lq c q).depth < 128 then s.lqAppend c q hdr else s.setLq c q { s.lq c q with ovf := true }

/-- The head launch leaves the head once the next one may reach it (R34). -/
def State.leaveHead (s : State) (c q : Nat) : State :=
  let x := s.lq c q
  match x.head with
  | none => s
  | some n =>
    match s.launch n with
    | none => s.setLq c q { x with head := none }
    | some l => if s.allOut n l ∧ x.serial = false then s.setLq c q { x with head := none } else s

/-- Whether work is a WID or a heap task of a launch. -/
def Work.ofLaunch (w : Work) (n : Nat) : Bool :=
  match w with
  | .wid l _ => l == n
  | .heapTask l _ _ => l == n
  | _ => false

/-- Whether any thread still runs a WID or a heap task of a launch, a thread of a switched-out context included. -/
def State.launchBusy (s : State) (n : Nat) : Bool :=
  (s.threads.any fun e => e.2.work.ofLaunch n) || s.saved.any fun e => e.2.threads.any fun t => t.2.work.ofLaunch n

/-- No quire keeps a reservation for a launch, nor does what a switched-out context saved. -/
def State.dropResv (s : State) (n : Nat) : State :=
  { s with
    quires := s.quires.flatMap fun e =>
      let q := match e.2.resv with
        | some r => if r.launch = n then { e.2 with resv := none } else e.2
        | none => e.2
      if q = Quire.reset then [] else [(e.1, q)]
    saved := s.saved.map fun e => (e.1, { e.2 with resvs := e.2.resvs.filter fun r => r.2.launch != n }) }

/-- LQCTL.ABORT (R35, R211). -/
def State.lqAbort (s : State) (c q : Nat) : State :=
  let x := s.lq c q
  match x.head, x.pending with
  | none, [] => s
  | none, _ :: rest => s.setLq c q { x with pending := rest, aborted := true }
  | some n, _ =>
    let s := s.setLq c q { x with head := none, aborted := true }
    match s.launch n with
    | none => s
    | some l =>
      let s := s.dropResv n
      if s.launchBusy n = true ∨ l.halted ≠ 0 then
        let s := s.setLaunch n { l with aborted := true }
        if s.launchBusy n = false ∧ l.isHeap = false then s.dropLaunch n else s
      else
        let s := match l.heap with
          | some h => if h.bound then s.abortHeap l h else s
          | none => s
        s.dropLaunch n

/-- A write of LQCTL (R33). -/
def State.lqCtl (s : State) (c q : Nat) (v : Word) : State :=
  let s := s.setLq c q { s.lq c q with enable := bit v 0, serial := bit v 1 }
  let s := if bit v 2 then s.lqAbort c q else s
  s.leaveHead c q

/-- A write of LQSTAT (R33, R34): each 1 clears its bit. -/
def State.lqStatClear (s : State) (c q : Nat) (v : Word) : State :=
  let x := s.lq c q
  s.setLq c q { x with aborted := x.aborted && !bit v 3, ovf := x.ovf && !bit v 2, rej := x.rej && !bit v 0 }

/-- LQSTAT as read (R33). -/
def LQueue.stat (x : LQueue) : Word :=
  BitVec.ofNat 64 (x.reason.toNat * 65536 + x.depth * 256 + (if x.aborted then 8 else 0) + (if x.ovf then 4 else 0) +
    (if x.isHalted then 2 else 0) + (if x.rej then 1 else 0))

/-- A read of a launch page (R33): write-only and reserved registers read 0 (R5). -/
def State.pageRead (s : State) (c off : Nat) : Word :=
  if 0x400 ≤ off then 0
  else
    let x := s.lq c (off / 0x40)
    match off % 0x40 with
    | 0x08 => BitVec.ofNat 64 ((if x.serial then 2 else 0) + (if x.enable then 1 else 0))
    | 0x10 => x.stat
    | 0x18 => x.errHdr
    | 0x20 => x.done
    | _ => 0

/-- A write to a launch page (R33); the page of a context that is not live has no queues. -/
def State.pageWrite (s : State) (c off : Nat) (v : Word) : State :=
  if 0x400 ≤ off ∨ (s.ctx c).live = false then s
  else
    match off % 0x40 with
    | 0x00 => s.lqPush c (off / 0x40) v
    | 0x08 => s.lqCtl c (off / 0x40) v
    | 0x10 => s.lqStatClear c (off / 0x40) v
    | _ => s

/-! Discovery (R263, R264). -/

/-- The discovery keys in increasing byte order, with their values. -/
def State.discovery (s : State) : List (String × Nat) :=
  [("array.count", 12), ("array.dim", 128), ("context.max", 64), ("core.scratchpad.bytes", 262144), ("core.threads", 4),
   ("device.state", s.dev.state), ("field.cols", 40), ("field.rows", 36), ("heap.entries", 16384),
   ("host.cxl.cache", if s.dev.cxl = 3 then 1 else 0), ("mem.tier1.bytes", 549755813888),
   ("mem.tier2.bytes", if s.dev.tier2 then 1649267441664 else 0), ("package.quire.mask", s.dev.present.toNat),
   ("quire.cores", 192), ("quire.l2.bytes", 33554432), ("seq.records", 16384),
   ("zorey.device.id", s.dev.zorey.getD 0xFFFF), ("zorey.links.up", s.dev.links.toNat)]

/-- The ASCII bytes of a key padded with zeros to 48 bytes. -/
def keyBytes (k : String) : List Byte :=
  let bs := k.toList.map fun c => BitVec.ofNat 8 c.toNat
  bs ++ List.replicate (48 - bs.length) 0

/-- A 64-bit word of the discovery window. -/
def State.discoveryWord (s : State) (off : Nat) : Word :=
  if off = 0 then BitVec.ofNat 64 s.discovery.length
  else if off = 8 then BitVec.ofNat 64 s.dev.generation
  else if off < 64 then 0
  else
    match s.discovery[off / 64 - 1]? with
    | none => 0
    | some (k, v) =>
      if off % 64 = 56 then BitVec.ofNat 64 v
      else if off % 64 = 48 then 0
      else BitVec.ofNat 64 (leNat (((keyBytes k).drop (off % 64)).take 8))

/-! Kind-5 accesses of the issuing thread (R247, R248). -/

/-- Offset of a kind-5 address in the register space. -/
def mmioOff (pa : Nat) : Nat := pa - 0x03F0000000000

/-- A load of a device register. -/
def State.mmioLoad (s : State) (va : Word) (pa : Nat) : Except Stop Word :=
  let off := mmioOff pa
  if off < 0x40000 then
    if s.th.mode = .supervisor ∧ off / 0x1000 = s.th.ctx then .ok (s.pageRead (off / 0x1000) (off % 0x1000))
    else trapV 0x05 va
  else if off < 0x50000 then .ok (s.discoveryWord (off - 0x40000))
  else trapV 0x05 va

/-- A store to a device register. A store to LQPUSH is performed after every earlier store of the thread, as a release
at system scope (R32). -/
def State.mmioStore (s : State) (va : Word) (pa : Nat) (v : Word) : Act? :=
  let off := mmioOff pa
  if off < 0x40000 then
    if s.th.mode = .supervisor ∧ off / 0x1000 = s.th.ctx then
      if off % 0x1000 < 0x400 ∧ off % 0x40 = 0 then do
        let s ← s.release .system
        .ok (s.pageWrite (off / 0x1000) (off % 0x1000) v)
      else .ok (s.pageWrite (off / 0x1000) (off % 0x1000) v)
    else trapV 0x05 va
  else trapV 0x05 va

end Sys2Proof.Machine
end

