-- ==== Sys2Proof/Machine/Memory.lean ====
section
/-! DEFINITION. Scalar loads and stores (R370, R372, R407, R410), prefetch (R386), the hardware FIFOs (R56), and fences
(R181). -/

namespace Sys2Proof.Machine

/-- What a load writes: a sign- or zero-extended value of n bytes, or a pair (R370). -/
def loadValue (n : Nat) (signed : Bool) (x : Nat) : Word := if signed then sextN (8 * n) x else zextN (8 * n) x

/-- The thread with the result of a load: 16 bytes go to the pair, a pair at s0 discards both. -/
def Thread.loadInto (t : Thread) (r : SReg) (n : Nat) (signed : Bool) (x stamp : Nat) : Thread :=
  if n = 16 then (t.ws r (BitVec.ofNat 64 x) stamp).ws (pairReg r) (BitVec.ofNat 64 (x / 2 ^ 64)) stamp
  else t.ws r (loadValue n signed x) stamp

/-- The number that names a FIFO of a window offset: 64 times the core plus the FIFO of its banks. -/
def fifoId (q off : Nat) : Nat := 64 * winCore q off + winFifo off

def State.fifoAt (s : State) (f : Nat) : Fifo := (s.core (f / 64)).fifo (f % 64)
def State.setFifoAt (s : State) (f : Nat) (x : Fifo) : State := s.setCore (f / 64) ((s.core (f / 64)).setFifo (f % 64) x)

/-- Pops the head of a FIFO into a register of the issuing thread, as an acquire at quire scope, and retires the load. -/
def State.fifoPop (s : State) (f : Nat) (t : SReg) (v : Word) (rest : List Word) : State :=
  let s := s.setFifoAt f { s.fifoAt f with entries := rest }
  ((s.acquire .quire).ws t v s.cycle).retire 1

/-- An 8-byte load of a FIFO (R56): pops at once, or waits behind the loads that wait already. -/
def State.fifoLoad (s : State) (t : SReg) (f : Nat) (via : Via) : Act? :=
  let x := s.fifoAt f
  match x.entries, x.loads with
  | v :: rest, [] => .ok (s.fifoPop f t v rest)
  | _, _ =>
    let s := s.setFifoAt f { x with loads := x.loads ++ [s.cur] }
    .ok (s.setTh { s.th with wait := .fifoLoad t f via })

/-- Whether n element loads of one instruction of the issuing thread may pop a FIFO now: it holds their entries, and no earlier load
waits there (R56). -/
def State.mayPop (s : State) (f n : Nat) : Bool :=
  decide (n ≤ (s.fifoAt f).entries.length) && ((s.fifoAt f).loads.head?.getD s.cur == s.cur)

/-- The FIFOs at which a thread's loads wait. -/
def State.loadsOf (s : State) (n : Nat) : List Nat :=
  s.cores.flatMap fun c => (c.2.fifos.filter fun x => x.2.loads.contains n).map fun x => 64 * c.1 + x.1

/-- A thread's loads leave the FIFOs at which they wait, some excepted. -/
def State.dropLoads (s : State) (n : Nat) (keep : List Nat) : State :=
  ((s.loadsOf n).filter fun f => !keep.contains f).foldl (fun s f =>
    s.setFifoAt f { s.fifoAt f with loads := (s.fifoAt f).loads.filter (· != n) }) s

/-- The element loads of an instruction that waits and issues again leave the FIFOs at which they wait. -/
def State.unlistLoads (s : State) (n : Nat) : State := if (s.thr n).wait = .retry then s.dropLoads n [] else s

/-- The issuing thread's element loads wait at a FIFO of those that its instruction pops, behind the loads that wait there already, and
at no FIFO that it does not pop; the instruction issues again (R56). -/
def State.listLoad (s : State) (fs : List Nat) (f : Nat) : State :=
  let s := s.dropLoads s.cur fs
  let x := s.fifoAt f
  let s := if x.loads.contains s.cur then s else s.setFifoAt f { x with loads := x.loads ++ [s.cur] }
  s.setTh { s.th with wait := .retry }


/-- Whether a push of the issuing thread may enter a FIFO now: a slot is free, and no earlier push of the thread, or of its
core to the same FIFO, is still held (R56). -/
def State.mayPush (s : State) (f : Nat) : Bool :=
  decide ((s.fifoAt f).entries.length < 512) && !s.holdsPush s.cur && !(s.core s.myCore).pushes.any fun p => p.fifo == f

/-- A value pushed at the tail. -/
def State.pushTail (s : State) (f : Nat) (v : Word) : State := s.setFifoAt f { s.fifoAt f with entries := (s.fifoAt f).entries ++ [v] }

/-- A push of the issuing thread (R56, R407): a release at quire scope of its earlier stores, earlier pushes entering before it;
a full FIFO holds it in the core's store path. -/
def State.fifoPush (s : State) (f : Nat) (v : Word) (via : Via) : State :=
  let s := s.drain s.cur
  if s.mayPush f then s.pushTail f v
  else
    let c := s.core s.myCore
    s.setCore s.myCore { c with pushes := c.pushes ++ [{ thread := s.cur, ctx := s.th.ctx, via := via, fifo := f, v := v }] }

/-- LD.Q of kind 3 or 4 (R177): two reads of 8 bytes, in an order that is a free value; the thread issues again for the
second. -/
def State.loadHalves (s : State) (t : SReg) (site : Site) : State :=
  let s := s.pinTouched s.cur (BitVec.ofNat 64 site.key)
  match s.th.wait with
  | .half high v =>
    let (bs, st, s) := s.readPast { site with key := site.key + (if high then 0 else 8) } 8
    let x := if high then leNat bs + 2 ^ 64 * v else v + 2 ^ 64 * leNat bs
    (s.setTh (s.th.loadInto t 16 false x st)).retire 1
  | _ =>
    let (w, s) := s.freeWord
    let high := w.getLsbD 0
    let (bs, _, s) := s.readPast { site with key := site.key + (if high then 8 else 0) } 8
    s.setTh { s.th with wait := .half high (leNat bs) }

/-- A scalar load of n bytes at an address, in the order of R370. `stamp` is the stamp of the address. -/
def State.loadScalar (s : State) (t : SReg) (ea : Word) (n : Nat) (signed : Bool) (sem : Sem) (sc : Scope)
    (stamp : Nat) : Act? := do
  need (canonical ea) 0x05 ea
  need (ea.toNat % n == 0) 0x03 ea
  let (site, s) ← s.translate .load ea
  if site.kind = 5 then
    need (n == 8) 0x03 ea
    let v ← s.mmioLoad ea site.off
    let s := s.acquireIf sem sc
    .ok ((s.setTh (s.th.loadInto t n signed v.toNat s.cycle)).retire 1)
  else if site.kind = 6 ∧ s.bankAt s.myQuire site.off n = .refused then trapV 0x05 ea
  else if site.kind = 6 ∧ s.bankAt s.myQuire site.off n = .busy then block
  else if site.kind = 6 ∧ s.bankAt s.myQuire site.off n = .fifo then
    need (n == 8) 0x03 ea
    (s.acquireIf sem sc).fifoLoad t (fifoId s.myQuire site.off) (site.via ea)
  else
    s.siteReadable ea site n
    let s := s.acquireIf sem sc
    if n = 16 ∧ (site.kind = 3 ∨ site.kind = 4) then .ok (s.loadHalves t site)
    else
      let (bs, st, s) := s.loadAt site n stamp
      .ok ((s.setTh (s.th.loadInto t n signed (leNat bs) st)).retire 1)

/-- The bytes a store of n bytes takes from a register: n low bytes, or the pair (R407). -/
def State.storeBytes (s : State) (t : SReg) (n : Nat) : List Byte :=
  if n = 16 then leBytes 8 (s.rs t).toNat ++ leBytes 8 (s.rs (pairReg t)).toNat else leBytes n (s.rs t).toNat

/-- A scalar store of n bytes at an address, in the order of R407. -/
def State.storeScalar (s : State) (t : SReg) (ea : Word) (n : Nat) (sem : Sem) (sc : Scope) : Act? := do
  need (canonical ea) 0x05 ea
  need (ea.toNat % n == 0) 0x03 ea
  let (site, s) ← s.translate .store ea
  if site.kind = 5 then
    need (n == 8) 0x03 ea
    let s ← s.releaseIf sem sc
    let s ← s.mmioStore ea site.off (s.rs t)
    .ok (s.retire 1)
  else if site.kind = 6 ∧ s.bankAt s.myQuire site.off n = .refused then trapV 0x05 ea
  else if site.kind = 6 ∧ s.bankAt s.myQuire site.off n = .busy then block
  else if site.kind = 6 ∧ s.bankAt s.myQuire site.off n = .fifo then
    need (n == 8) 0x03 ea
    let s ← s.releaseIf sem sc
    .ok ((s.fifoPush (fifoId s.myQuire site.off) (s.rs t) (site.via ea)).retire 1)
  else
    let s ← s.releaseIf sem sc
    .ok ((s.storeAt ea site (cellsFrom site.key (s.storeBytes t n))).retire 1)

/-- An LD instruction (R284, R370). -/
def ldFm (n : Nat) (signed : Bool) (t base : SReg) (sem : Sem) (sc : Scope) (off : BitVec 9) (s : State) : Out :=
  finish s (s.loadScalar t (s.eaFm base off n) n signed sem sc (s.ss base))

/-- An ST instruction (R284, R407). -/
def stFm (n : Nat) (t base : SReg) (sem : Sem) (sc : Scope) (off : BitVec 9) (s : State) : Out :=
  finish s (s.storeScalar t (s.eaFm base off n) n sem sc)

def execLdB (t base : SReg) (sem : Sem) (sc : Scope) (off : BitVec 9) (s : State) : Out := ldFm 1 true t base sem sc off s
def execLdH (t base : SReg) (sem : Sem) (sc : Scope) (off : BitVec 9) (s : State) : Out := ldFm 2 true t base sem sc off s
def execLdW (t base : SReg) (sem : Sem) (sc : Scope) (off : BitVec 9) (s : State) : Out := ldFm 4 true t base sem sc off s
def execLdD (t base : SReg) (sem : Sem) (sc : Scope) (off : BitVec 9) (s : State) : Out := ldFm 8 true t base sem sc off s
def execLdNb (t base : SReg) (sem : Sem) (sc : Scope) (off : BitVec 9) (s : State) : Out := ldFm 1 false t base sem sc off s
def execLdNh (t base : SReg) (sem : Sem) (sc : Scope) (off : BitVec 9) (s : State) : Out := ldFm 2 false t base sem sc off s
def execLdNw (t base : SReg) (sem : Sem) (sc : Scope) (off : BitVec 9) (s : State) : Out := ldFm 4 false t base sem sc off s
def execLdQ (t base : SReg) (sem : Sem) (sc : Scope) (off : BitVec 9) (s : State) : Out := ldFm 16 false t base sem sc off s
def execStB (t base : SReg) (sem : Sem) (sc : Scope) (off : BitVec 9) (s : State) : Out := stFm 1 t base sem sc off s
def execStH (t base : SReg) (sem : Sem) (sc : Scope) (off : BitVec 9) (s : State) : Out := stFm 2 t base sem sc off s
def execStW (t base : SReg) (sem : Sem) (sc : Scope) (off : BitVec 9) (s : State) : Out := stFm 4 t base sem sc off s
def execStD (t base : SReg) (sem : Sem) (sc : Scope) (off : BitVec 9) (s : State) : Out := stFm 8 t base sem sc off s
def execStQ (t base : SReg) (sem : Sem) (sc : Scope) (off : BitVec 9) (s : State) : Out := stFm 16 t base sem sc off s

/-- LDX (R372). -/
def execLdx (d a b : SReg) (z : XSize) (sem : Sem) (sc : Scope) (s : State) : Out :=
  finish s (s.loadScalar d (s.eaX a b z) (xsBytes z) (xsSigned z) sem sc (stamp2 s a b))

/-- STX (R410). -/
def execStx (d a b : SReg) (z : XSize) (sem : Sem) (sc : Scope) (s : State) : Out :=
  finish s (s.storeScalar d (s.eaX a b z) (xsBytes z) sem sc)

/-- PF changes no state that a program can observe (R386). -/
def execPf (_hint : BitVec 2) (_base : SReg) (_off : BitVec 9) (s : State) : Out := finish s (.ok (s.retire 1))

/-- FENCE (R181): REL, AR and FULL drain the thread's stores, ACQ, AR and FULL clear the L1. The operand reads of the thread's MMAs, which
are loads of it, come before every one of them (R122). -/
def execFence (kind : FenceKind) (sc : Scope) (s : State) : Out :=
  finish s <|
    match kind with
    | .acq =>
      let s := if sc = .thread then s else s.pinAll s.cur
      .ok ((s.acquire sc).retire 1)
    | .rel => do
      let s ← s.release sc
      .ok (s.retire 1)
    | .ar => do
      let s ← s.release sc
      .ok ((s.acquire sc).retire 1)
    | .full => do
      let s ← s.release sc
      .ok ((s.acquire sc).retire 1)

/-- A thread's step runs as the issuing thread. -/
def State.asThread (s : State) (n : Nat) (f : State → State) : State :=
  { f { s with cur := n } with cur := s.cur }

/-- A load that waits on a FIFO completes with the entry that has arrived (R56): the load that came first. -/
def execFifoPopComplete (thread : Nat) (s : State) : Out :=
  event s <|
    match (s.thr thread).wait with
    | .fifoLoad t f _ =>
      match (s.fifoAt f).entries, (s.fifoAt f).loads with
      | v :: rest, n :: ns =>
        if n = thread then
          some (s.asThread thread fun s => (s.setFifoAt f { s.fifoAt f with loads := ns }).fifoPop f t v rest)
        else none
      | _, _ => none
    | _ => none

/-- Whether a held push is the first of its thread and context and the first to its FIFO. -/
def HeldPush.leads (p : HeldPush) (ps : List HeldPush) : Bool :=
  ps.find? (fun x => x.fifo == p.fifo || (x.thread == p.thread && x.ctx == p.ctx)) == some p

/-- A push of a thread that its core's store path holds enters its FIFO when a slot is free, after every earlier push of its
thread and every earlier push of the core to that FIFO (R56). -/
def execFifoPushComplete (thread : Nat) (s : State) : Out :=
  event s <|
    let c := s.core (coreOf thread)
    match c.pushes.find? fun p =>
        p.thread == thread && p.leads c.pushes && decide ((s.fifoAt p.fifo).entries.length < 512) with
    | none => none
    | some p => some ((s.setCore (coreOf thread) { c with pushes := c.pushes.erase p }).pushTail p.fifo p.v)

end Sys2Proof.Machine
end

