-- ==== Sys2Proof/Machine/Vector.lean ====
section
/-! DEFINITION. Vector instructions (R287 to R289, R421 to R431, R147, R148, R139). -/

namespace Sys2Proof.Machine

/-! Lanes. -/

/-- A vector type: a float or an integer format (R287). -/
def VType.kind : VType → Fmt ⊕ IFmt
  | .i8 => .inr { w := 8, signed := true }
  | .i16 => .inr { w := 16, signed := true }
  | .i32 => .inr { w := 32, signed := true }
  | .i64 => .inr { w := 64, signed := true }
  | .n32 => .inr { w := 32, signed := false }
  | .bf16 => .inl bf16
  | .f32 => .inl fp32
  | .f64 => .inl fp64
def vbits : VType → Nat
  | .i8 => 8
  | .i16 => 16
  | .i32 => 32
  | .i64 => 64
  | .n32 => 32
  | .bf16 => 16
  | .f32 => 32
  | .f64 => 64

/-- Lane i of w bits. -/
def laneOf (w : Nat) (v : Vec) (i : Nat) : Nat := v.toNat / 2 ^ (w * i) % 2 ^ w

/-- The vector of a list of lanes, lane 0 first. -/
def packLanes (w : Nat) : List Nat → Nat
  | [] => 0
  | x :: xs => x % 2 ^ w + 2 ^ w * packLanes w xs
def ofLanes (w : Nat) (xs : List Nat) : Vec := BitVec.ofNat 512 (packLanes w xs)

/-- A lane is active when the predicate bit of its lowest byte is 1 (R287). -/
def laneOn (w : Nat) (p : Word) (i : Nat) : Bool := p.getLsbD (i * (w / 8))

/-- The lane results of an operation where lanes are active, old lanes elsewhere, and the flags of the active lanes. -/
def vmap (w : Nat) (p : Word) (old : Vec) (f : Nat → FRes) : Vec × FFlags :=
  let rs := (upto (512 / w)).map fun i => if laneOn w p i then f i else (laneOf w old i, 0)
  (ofLanes w (rs.map (·.1)), rs.foldl (fun g r => g ||| r.2) 0)

/-- The latest stamp of vector sources under a predicate (R160): an old lane kept is a source too. -/
def State.vstamp (s : State) (vd : VReg) (pm : PReg) (vs : List VReg) : Nat :=
  vs.foldl (fun m r => max m (s.vs r)) (if pm = 0 then 0 else max (s.ps pm) (s.vs vd))

/-- Writes a vector result with its flags and retires. -/
def State.vput (s : State) (vd : VReg) (r : Vec × FFlags) (st : Nat) : State :=
  ((s.orFlags r.2).wv vd r.1 st).retire 1

/-! Lanewise operations (R424). -/

/-- Whether x goes before y under an integer type. -/
def iLt (t : IFmt) (x y : Nat) : Bool := t.val x < t.val y

/-- An operation of a lane: its float form and its integer form. -/
structure LaneOp where
  flt : Fmt → Nat → Nat → Nat → FRes
  int : IFmt → Nat → Nat → Nat

def LaneOp.runKind (o : LaneOp) (k : Fmt ⊕ IFmt) (rm x y : Nat) : FRes :=
  match k with
  | .inl f => o.flt f rm x y
  | .inr t => (o.int t x y % 2 ^ t.w, 0)
def LaneOp.run (o : LaneOp) (ty : VType) (rm x y : Nat) : FRes := o.runKind (VType.kind ty) rm x y

/-- A form that has no meaning for float lanes; such words do not decode (R287). -/
def noFloat : Fmt → Nat → Nat → Nat → FRes := fun _ _ x _ => (x, 0)
/-- A form that has no meaning for integer lanes; such words do not decode (R287). -/
def noInt : IFmt → Nat → Nat → Nat := fun _ x _ => x

def laneAdd : LaneOp := { flt := fAddBits, int := fun _ x y => x + y }
def laneSub : LaneOp := { flt := fSubBits, int := fun t x y => x + 2 ^ t.w - y }
def laneMul : LaneOp := { flt := fMulBits, int := fun _ x y => x * y }
def laneMin : LaneOp := { flt := fun f _ x y => fMinBits f x y, int := fun t x y => if iLt t y x then y else x }
def laneMax : LaneOp := { flt := fun f _ x y => fMaxBits f x y, int := fun t x y => if iLt t x y then y else x }
def laneAnd : LaneOp := { flt := noFloat, int := fun _ x y => x &&& y }
def laneOr : LaneOp := { flt := noFloat, int := fun _ x y => x ||| y }
def laneXor : LaneOp := { flt := noFloat, int := fun _ x y => x ^^^ y }
def laneShl : LaneOp := { flt := noFloat, int := fun t x y => x * 2 ^ (y % t.w) }
def laneShr : LaneOp := { flt := noFloat, int := fun t x y => x / 2 ^ (y % t.w) }
def laneSha : LaneOp :=
  { flt := noFloat, int := fun t x y => t.enc (({ t with signed := true }).val x / ((2 ^ (y % t.w) : Nat) : Int)) }
def laneAbs : LaneOp :=
  { flt := fun f _ x _ => (x % 2 ^ (f.eb + f.fb), 0), int := fun t x _ => (t.val x).natAbs }
def laneNeg : LaneOp :=
  { flt := fun f _ x _ => (x ^^^ 2 ^ (f.eb + f.fb), 0), int := fun t x _ => 2 ^ t.w - x }
def laneDiv : LaneOp := { flt := fDivBits, int := noInt }
def laneMulh : LaneOp := { flt := noFloat, int := fun t x y => t.enc (t.val x * t.val y / ((2 ^ t.w : Nat) : Int)) }

/-- A lanewise instruction of two vectors. -/
def vArith (o : LaneOp) (vd va vb : VReg) (pm : PReg) (ty : VType) (s : State) : Out :=
  let w := vbits ty
  finish s (.ok (s.vput vd
    (vmap w (s.rp pm) (s.rv vd) fun i => o.run ty s.th.rm (laneOf w (s.rv va) i) (laneOf w (s.rv vb) i))
    (s.vstamp vd pm [va, vb])))

/-- A lanewise instruction of one vector. -/
def vArith1 (o : LaneOp) (vd va : VReg) (pm : PReg) (ty : VType) (s : State) : Out :=
  let w := vbits ty
  finish s (.ok (s.vput vd (vmap w (s.rp pm) (s.rv vd) fun i => o.run ty s.th.rm (laneOf w (s.rv va) i) 0)
    (s.vstamp vd pm [va])))

def execVAdd (vd va vb : VReg) (pm : PReg) (ty : VType) (s : State) : Out := vArith laneAdd vd va vb pm ty s
def execVSub (vd va vb : VReg) (pm : PReg) (ty : VType) (s : State) : Out := vArith laneSub vd va vb pm ty s
def execVMul (vd va vb : VReg) (pm : PReg) (ty : VType) (s : State) : Out := vArith laneMul vd va vb pm ty s
def execVMin (vd va vb : VReg) (pm : PReg) (ty : VType) (s : State) : Out := vArith laneMin vd va vb pm ty s
def execVMax (vd va vb : VReg) (pm : PReg) (ty : VType) (s : State) : Out := vArith laneMax vd va vb pm ty s
def execVAnd (vd va vb : VReg) (pm : PReg) (ty : VType) (s : State) : Out := vArith laneAnd vd va vb pm ty s
def execVOr (vd va vb : VReg) (pm : PReg) (ty : VType) (s : State) : Out := vArith laneOr vd va vb pm ty s
def execVXor (vd va vb : VReg) (pm : PReg) (ty : VType) (s : State) : Out := vArith laneXor vd va vb pm ty s
def execVShl (vd va vb : VReg) (pm : PReg) (ty : VType) (s : State) : Out := vArith laneShl vd va vb pm ty s
def execVShr (vd va vb : VReg) (pm : PReg) (ty : VType) (s : State) : Out := vArith laneShr vd va vb pm ty s
def execVSha (vd va vb : VReg) (pm : PReg) (ty : VType) (s : State) : Out := vArith laneSha vd va vb pm ty s
def execVDiv (vd va vb : VReg) (pm : PReg) (ty : VType) (s : State) : Out := vArith laneDiv vd va vb pm ty s
def execVMulh (vd va vb : VReg) (pm : PReg) (ty : VType) (s : State) : Out := vArith laneMulh vd va vb pm ty s
def execVAbs (vd va : VReg) (pm : PReg) (ty : VType) (s : State) : Out := vArith1 laneAbs vd va pm ty s
def execVNeg (vd va : VReg) (pm : PReg) (ty : VType) (s : State) : Out := vArith1 laneNeg vd va pm ty s

/-! V.FMA (R147, R425). -/

/-- One FP32 lane of the BF16 pair form: five operands, special values in the order of R147. -/
def bf16Dot (rm a0 b0 a1 b1 c : Nat) : FRes :=
  let vs := [a0, b0, a1, b1].map (FVal.of bf16)
  let cv := FVal.of fp32 c
  let ps := [prod (FVal.of bf16 a0) (FVal.of bf16 b0), prod (FVal.of bf16 a1) (FVal.of bf16 b1)]
  let nv : FFlags := if ps.any Prod.isInvalid || vs.any FVal.isSNaN || cv.isSNaN then fNV else 0
  match firstNaN bf16 vs with
  | some r => ((fCvtBits bf16 fp32 rm r).1, nv)
  | none =>
    match cv with
    | .nan n fr _ => (quieted fp32 n fr, nv)
    | _ => sumProds fp32 rm ps cv

/-- The width of the lanes of an FMA type. -/
def fmaBits : FmaType → Nat
  | .bf16f32 => 32
  | .f32 => 32
  | .f64 => 64
  | .i32 => 32

/-- One lane of V.FMA. -/
def fmaLane (ty : FmaType) (rm : Nat) (a b c : Vec) (i : Nat) : FRes :=
  match ty with
  | .bf16f32 =>
    bf16Dot rm (laneOf 16 a (2 * i)) (laneOf 16 b (2 * i)) (laneOf 16 a (2 * i + 1)) (laneOf 16 b (2 * i + 1))
      (laneOf 32 c i)
  | .f32 => fFmaBits fp32 rm (laneOf 32 a i) (laneOf 32 b i) (laneOf 32 c i)
  | .f64 => fFmaBits fp64 rm (laneOf 64 a i) (laneOf 64 b i) (laneOf 64 c i)
  | .i32 => ((laneOf 32 a i * laneOf 32 b i + laneOf 32 c i) % 2 ^ 32, 0)

def execVFma (vd va vb vc : VReg) (pm : PReg) (ty : FmaType) (s : State) : Out :=
  finish s (.ok (s.vput vd
    (vmap (fmaBits ty) (s.rp pm) (s.rv vd) (fmaLane ty s.th.rm (s.rv va) (s.rv vb) (s.rv vc)))
    (s.vstamp vd pm [va, vb, vc])))

/-! V.CMP (R288, R426). -/

/-- A condition on two values of a kind. -/
def cmpKind (k : Fmt ⊕ IFmt) (c : VCond) (x y : Nat) : Bool × FFlags :=
  match k with
  | .inl f =>
    match c with
    | .eq => fCmp f fEq false false x y
    | .ne => fCmp f (fun a b => !fEq a b) true false x y
    | .lt => fCmp f fLt false true x y
    | .le => fCmp f (fun a b => fLt a b || fEq a b) false true x y
    | .gt => fCmp f (fun a b => fLt b a) false true x y
    | .ge => fCmp f (fun a b => fLt b a || fEq a b) false true x y
  | .inr t =>
    (match c with
      | .eq => x == y
      | .ne => x != y
      | .lt => iLt t x y
      | .le => !iLt t y x
      | .gt => iLt t y x
      | .ge => !iLt t x y, 0)

/-- A condition on two lanes. -/
def vcmpLane (ty : VType) (c : VCond) (x y : Nat) : Bool × FFlags := cmpKind (VType.kind ty) c x y

/-- Bit i of the predicate that a comparison of w-bit lanes writes: the result of its lane where that is active. -/
def cmpBit (w : Nat) (p old : Word) (r : Nat → Bool × FFlags) (i : Nat) : Bool :=
  if laneOn w p (i / (w / 8)) then (r (i / (w / 8))).1 else old.getLsbD i

def execVCmp (pd : PReg) (va vb : VReg) (pm : PReg) (ty : VType) (cond : VCond) (s : State) : Out :=
  let w := vbits ty
  let r := fun i => vcmpLane ty cond (laneOf w (s.rv va) i) (laneOf w (s.rv vb) i)
  let bitsOut := (upto 64).map fun i => if cmpBit w (s.rp pm) (s.rp pd) r i then 1 else 0
  let fl := (upto (512 / w)).foldl (fun g i => if laneOn w (s.rp pm) i then g ||| (r i).2 else g) 0
  finish s (.ok (((s.orFlags fl).wp pd (BitVec.ofNat 64 (packLanes 1 bitsOut))
    (max (max (s.vs va) (s.vs vb)) (max (s.ps pm) (if pm = 0 then 0 else s.ps pd)))).retire 1))

/-! V.CVT (R288, R427). -/

/-- The conversion of one lane between vector types. Between integer types it saturates (R130), also where it does not narrow, of which
the rule does not speak (DESIGN CHOICE, log 167). -/
def vcvtLane (frm tgt : VType) (rm x : Nat) : FRes :=
  match VType.kind frm, VType.kind tgt with
  | .inl f, .inl g => fCvtBits f g rm x
  | .inl f, .inr t => fToInt f t rm x
  | .inr t, .inl g => fOfInt t g rm x
  | .inr t, .inr u => (u.sat (t.val x), 0)

def execVCvt (vd va : VReg) (pm : PReg) (frm tgt : VType) (s : State) : Out :=
  let wf := vbits frm
  let wt := vbits tgt
  let n := 512 / max wf wt
  let rs := (upto n).map fun i =>
    if laneOn wt (s.rp pm) i then vcvtLane frm tgt s.th.rm (laneOf wf (s.rv va) i) else (laneOf wt (s.rv vd) i, 0)
  finish s (.ok (s.vput vd (ofLanes wt (rs.map (·.1)), rs.foldl (fun g r => g ||| r.2) 0) (s.vstamp vd pm [va])))

/-! V.RED (R148, R428). -/

/-- One level of the pairwise tree. -/
def treeLevel (f : Nat → Nat → FRes) : List FRes → List FRes
  | x :: y :: rest => ((f x.1 y.1).1, x.2 ||| y.2 ||| (f x.1 y.1).2) :: treeLevel f rest
  | l => l
/-- The pairwise tree over up to 2^n values. -/
def treeFold (f : Nat → Nat → FRes) : Nat → List FRes → FRes
  | 0, l => l.headD (0, 0)
  | n + 1, l => treeFold f n (treeLevel f l)

/-- The identities of R148. -/
def addIdOf : Fmt ⊕ IFmt → Nat
  | .inl f => f.zero true
  | .inr _ => 0
def minIdOf : Fmt ⊕ IFmt → Nat
  | .inl f => f.inf false
  | .inr t => t.enc t.hi
def maxIdOf : Fmt ⊕ IFmt → Nat
  | .inl f => f.inf true
  | .inr t => t.enc t.lo
def redAddId (ty : VType) : Nat := addIdOf (VType.kind ty)
def redMinId (ty : VType) : Nat := minIdOf (VType.kind ty)
def redMaxId (ty : VType) : Nat := maxIdOf (VType.kind ty)

def vReduce (o : LaneOp) (ident : Nat) (vd va : VReg) (pm : PReg) (ty : VType) (s : State) : Out :=
  let w := vbits ty
  let xs := (upto (512 / w)).map fun i =>
    ((if laneOn w (s.rp pm) i then laneOf w (s.rv va) i else ident), (0 : FFlags))
  let r := treeFold (o.run ty s.th.rm) 6 xs
  finish s (.ok (s.vput vd (ofLanes w [r.1], r.2) (max (s.vs va) (s.ps pm))))

def execVRedAdd (vd va : VReg) (pm : PReg) (ty : VType) (s : State) : Out := vReduce laneAdd (redAddId ty) vd va pm ty s
def execVRedMin (vd va : VReg) (pm : PReg) (ty : VType) (s : State) : Out := vReduce laneMin (redMinId ty) vd va pm ty s
def execVRedMax (vd va : VReg) (pm : PReg) (ty : VType) (s : State) : Out := vReduce laneMax (redMaxId ty) vd va pm ty s
def execVRedAnd (vd va : VReg) (pm : PReg) (ty : VType) (s : State) : Out :=
  vReduce laneAnd (2 ^ vbits ty - 1) vd va pm ty s
def execVRedOr (vd va : VReg) (pm : PReg) (ty : VType) (s : State) : Out := vReduce laneOr 0 vd va pm ty s
def execVRedXor (vd va : VReg) (pm : PReg) (ty : VType) (s : State) : Out := vReduce laneXor 0 vd va pm ty s

/-! V.PERM, V.MOV, V.SF (R289, R429 to R431). -/

/-- The bits of an element width. -/
def ewBits : EWidth → Nat
  | .w8 => 8
  | .w16 => 16
  | .w32 => 32
  | .w64 => 64

def execVPerm (vd va vb : VReg) (pm : PReg) (w : EWidth) (s : State) : Out :=
  let n := ewBits w
  finish s (.ok (s.vput vd
    (vmap n (s.rp pm) (s.rv vd) fun i => (laneOf n (s.rv va) (laneOf n (s.rv vb) i % (512 / n)), 0))
    (s.vstamp vd pm [va, vb])))

def execVMovBcst (vd : VReg) (sr : SReg) (w : EWidth) (s : State) : Out :=
  let n := ewBits w
  finish s (.ok (s.vput vd (ofLanes n (List.replicate (512 / n) (s.rs sr).toNat), 0) (s.ss sr)))

def execVMovMovs (vd : VReg) (sr : SReg) (idx : Fin 64) (w : EWidth) (s : State) : Out :=
  finish s (.ok ((s.ws sr (BitVec.ofNat 64 (laneOf (ewBits w) (s.rv vd) idx)) (s.vs vd)).retire 1))

def execVMovIns (vd : VReg) (sr : SReg) (idx : Fin 64) (w : EWidth) (s : State) : Out :=
  let n := ewBits w
  finish s (.ok (s.vput vd
    (ofLanes n ((upto (512 / n)).map fun i => if i = idx.val then (s.rs sr).toNat else laneOf n (s.rv vd) i), 0)
    (max (s.ss sr) (s.vs vd))))

def execVMovP2s (p : PReg) (sr : SReg) (s : State) : Out := finish s (.ok ((s.ws sr (s.rp p) (s.ps p)).retire 1))
def execVMovS2p (p : PReg) (sr : SReg) (s : State) : Out := finish s (.ok ((s.wp p (s.rs sr) (s.ss sr)).retire 1))

/-- A V.SF instruction: 16 FP32 lanes. -/
def vSpecial (f : Nat → Nat → FRes) (vd va : VReg) (pm : PReg) (s : State) : Out :=
  finish s (.ok (s.vput vd (vmap 32 (s.rp pm) (s.rv vd) fun i => f s.th.rm (laneOf 32 (s.rv va) i))
    (s.vstamp vd pm [va])))

def execVSfRcp (vd va : VReg) (pm : PReg) (s : State) : Out := vSpecial sfRcp vd va pm s
def execVSfRsqrt (vd va : VReg) (pm : PReg) (s : State) : Out := vSpecial sfRsqrt vd va pm s
def execVSfExp2 (vd va : VReg) (pm : PReg) (s : State) : Out := vSpecial sfExp2 vd va pm s
def execVSfLog2 (vd va : VReg) (pm : PReg) (s : State) : Out := vSpecial sfLog2 vd va pm s

/-! V.LD and V.ST (R422). -/

/-- The checks that V.LD and V.ST share, poison apart. -/
def State.vsite (s : State) (acc : Acc) (ea : Word) : Except Stop (Site × State) := do
  need (canonical ea) 0x05 ea
  need (ea.toNat % 64 == 0) 0x03 ea
  let (site, s) ← s.translate acc ea
  if site.kind = 6 ∧ s.bankAt s.myQuire site.off 64 = .refused then trapV 0x05 ea
  else if site.kind = 6 ∧ s.bankAt s.myQuire site.off 64 = .busy then block
  else if site.kind = 5 ∨ (site.kind = 6 ∧ s.bankAt s.myQuire site.off 64 = .fifo) then trapV 0x03 ea
  else .ok (site, s)

/-- The numbers of the bytes a predicate selects. -/
def activeBytes (p : Word) : List Nat := (upto 64).filter fun i => p.getLsbD i

def execVLd (vd : VReg) (base : SReg) (pm : PReg) (sem : Sem) (sc : Scope) (off : BitVec 7) (s : State) : Out :=
  finish s <| do
    let ea := s.eaFvm base off
    let (site, s) ← s.vsite .load ea
    if site.kind = 4 ∧ s.peerServes site 64 = false then trapV 0x05 ea
    else if site.kind = 3 ∧ s.portUp site.key = false then trapV 0x16 ea
    else if (activeBytes (s.rp pm)).any fun i => (s.meets site).poisoned (site.key + i) 1 then
      .error (.trapIn (s.meets site) 0x16 ea)
    else
      let s := s.acquireIf sem sc
      let (bs, st, s) := s.loadAt site 64 (s.ss base)
      let r := vmap 8 (s.rp pm) (s.rv vd) fun i => ((nth 0 bs i).toNat, 0)
      .ok (s.vput vd r (if pm = 0 then st else max st (max (s.ps pm) (s.vs vd))))

/-- Whether a store of some bytes writes a part only of a poisoned unit (R422). -/
def State.partPoison (s : State) (keys : List Nat) : Bool :=
  s.poison.any fun p => keys.any (fun k => p.1 ≤ k && k < p.1 + p.2) &&
    !((upto p.2).all fun i => keys.contains (p.1 + i))

def execVSt (vd : VReg) (base : SReg) (pm : PReg) (sem : Sem) (sc : Scope) (off : BitVec 7) (s : State) : Out :=
  finish s <| do
    let ea := s.eaFvm base off
    let (site, s) ← s.vsite .store ea
    let act := activeBytes (s.rp pm)
    if (s.meets site).partPoison (act.map (site.key + ·)) then .error (.trapIn (s.meets site) 0x16 ea)
    else
      let s ← s.releaseIf sem sc
      let cells := act.map fun i => (site.key + i, BitVec.ofNat 8 (laneOf 8 (s.rv vd) i))
      .ok ((s.storeUnitsAt ea site (if act = [] then [] else [cells])).retire 1)

/-! V.LDX and V.STX (R288, R423). -/

/-- Element bytes of a gather or scatter. -/
def elemBytes (wide : Bool) : Nat := if wide then 8 else 4

/-- The address of an element: s[base] + index × size, indices signed. -/
def State.eaLane (s : State) (base : SReg) (vi : VReg) (wide : Bool) (i : Nat) : Word :=
  let n := elemBytes wide
  s.rs base + sextN (8 * n) (laneOf (8 * n) (s.rv vi) i) * BitVec.ofNat 64 n

/-- The active lanes of a gather or scatter. -/
def State.activeLanes (s : State) (pm : PReg) (wide : Bool) : List Nat :=
  (upto (64 / elemBytes wide)).filter fun i => laneOn (8 * elemBytes wide) (s.rp pm) i

/-- The checks of one element: those of a scalar access (R288). -/
def State.laneSite (s : State) (acc : Acc) (ea : Word) (n : Nat) : Except Stop (Site × State) := do
  need (canonical ea) 0x05 ea
  need (ea.toNat % n == 0) 0x03 ea
  let (site, s) ← s.translate acc ea
  if site.kind = 5 then
    need (n == 8) 0x03 ea
    let _ ← (if acc = .load then (s.mmioLoad ea site.off).map fun _ => () else (s.mmioStore ea site.off 0).map fun _ => ())
    .ok (site, s)
  else if site.kind = 6 ∧ s.bankAt s.myQuire site.off n = .refused then trapV 0x05 ea
  else if site.kind = 6 ∧ s.bankAt s.myQuire site.off n = .busy then block
  else if site.kind = 6 ∧ s.bankAt s.myQuire site.off n = .fifo then
    need (n == 8) 0x03 ea
    .ok (site, s)
  else if acc = .load then do
    s.siteReadable ea site n
    .ok (site, s)
  else if (s.meets site).partPoison ((upto n).map (site.key + ·)) then .error (.trapIn (s.meets site) 0x16 ea)
  else .ok (site, s)

/-- Checks elements in lane order: their sites, each with its lane and address. -/
def State.laneSites (acc : Acc) (n : Nat) (ea : Nat → Word) : List Nat → State → Except Stop (List (Nat × Word × Site) × State)
  | [], s => .ok ([], s)
  | i :: is, s => do
    let (site, s) ← s.laneSite acc (ea i) n
    let (rest, s) ← State.laneSites acc n ea is s
    .ok ((i, ea i, site) :: rest, s)

/-- Loads one checked element; an 8-byte element of a FIFO pops it. -/
def State.laneLoad (s : State) (va : Word) (site : Site) (n stamp : Nat) : Except Stop (Nat × Nat × State) :=
  if site.kind = 5 then do
    let v ← s.mmioLoad va site.off
    .ok (v.toNat, s.cycle, s)
  else if site.kind = 6 ∧ s.bankAt s.myQuire site.off n = .fifo then
    let f := fifoId s.myQuire site.off
    match (s.fifoAt f).entries with
    | v :: rest => .ok (v.toNat, s.cycle, (s.setFifoAt f { s.fifoAt f with entries := rest }).acquire .quire)
    | [] => block
  else
    let (bs, st, s) := s.loadAt site n stamp
    .ok (leNat bs, st, s)

/-- Loads checked elements: their values by lane, the latest stamp, the state. -/
def State.laneLoads (n stamp : Nat) : List (Nat × Word × Site) → State → Except Stop (Table Nat × Nat × State)
  | [], s => .ok ([], 0, s)
  | (i, va, site) :: ls, s => do
    let (x, st, s) ← s.laneLoad va site n stamp
    let (t, m, s) ← State.laneLoads n stamp ls s
    .ok ((i, x) :: t, max st m, s)

/-- The FIFOs that checked elements pop, one for each element that does. -/
def State.lanePops (s : State) (n : Nat) (sites : List (Nat × Word × Site)) : List Nat :=
  (sites.filter fun l => l.2.2.kind == 6 && s.bankAt s.myQuire l.2.2.off n == .fifo).map fun l => fifoId s.myQuire l.2.2.off

/-- V.LDX: its element loads of FIFOs pop together, once every one of those FIFOs holds what they need; until then they wait at the first
that does not (R54, R56; DESIGN CHOICE, log 144). -/
def execVLdx (vd vi : VReg) (pm : PReg) (base : SReg) (wide : Bool) (s : State) : Out :=
  finish s <| do
    let n := elemBytes wide
    let (sites, s) ← State.laneSites .load n (s.eaLane base vi wide) (s.activeLanes pm wide) s
    let fs := s.lanePops n sites
    match fs.find? fun f => !s.mayPop f (fs.count f) with
    | some f => .ok (s.listLoad fs f)
    | none =>
      let (vals, st, s) ← State.laneLoads n (max (s.ss base) (s.vs vi)) sites (s.unlistLoads s.cur)
      let r := vmap (8 * n) (s.rp pm) (s.rv vd) fun i => (tget 0 vals i, 0)
      .ok (s.vput vd r (if pm = 0 then st else max st (max (s.ps pm) (s.vs vd))))

/-- Stores one checked element; an 8-byte element of a FIFO is a push of it (R56). -/
def State.laneStore (s : State) (va : Word) (site : Site) (n x : Nat) : Act? :=
  if site.kind = 5 then s.mmioStore va site.off (BitVec.ofNat 64 x)
  else if site.kind = 6 ∧ s.bankAt s.myQuire site.off n = .fifo then
    .ok (s.fifoPush (fifoId s.myQuire site.off) (BitVec.ofNat 64 x) (site.via va))
  else .ok (s.storeAt va site (cellsFrom site.key (leBytes n x)))

/-- Stores checked elements, none that a higher lane to the same address replaces (R288, R423). -/
def State.laneStores (n : Nat) (val : Nat → Nat) : List (Nat × Word × Site) → State → Act?
  | [], s => .ok s
  | (i, va, site) :: ls, s =>
    if ls.any fun l => l.2.1 == va then State.laneStores n val ls s
    else do
      let s ← s.laneStore va site n (val i)
      State.laneStores n val ls s

def execVStx (vd vi : VReg) (pm : PReg) (base : SReg) (wide : Bool) (s : State) : Out :=
  finish s <| do
    let n := elemBytes wide
    let (sites, s) ← State.laneSites .store n (s.eaLane base vi wide) (s.activeLanes pm wide) s
    let s ← State.laneStores n (laneOf (8 * n) (s.rv vd)) sites s
    .ok (s.retire 1)

end Sys2Proof.Machine
end

