-- ==== Sys2Proof/Machine/Elements.lean ====
section
/-! DEFINITION. The arithmetic of a PE under its type and rounding mode (R72, R129, R325, R361, R382 to R385, R388) and the
conversions of a converter node (R78, R143, R144, R342, R343). -/

namespace Sys2Proof.Machine

/-- The element format of a code (R299); a pair type gives the format of its lanes. -/
def formatOf : Nat → Fmt ⊕ IFmt
  | 0 => .inr { w := 8, signed := true }
  | 1 => .inr { w := 16, signed := true }
  | 2 => .inr { w := 32, signed := true }
  | 3 => .inr { w := 64, signed := true }
  | 4 => .inr { w := 8, signed := false }
  | 5 => .inr { w := 16, signed := false }
  | 6 => .inr { w := 32, signed := false }
  | 7 => .inr { w := 64, signed := false }
  | 8 => .inl bf16
  | 9 => .inl fp16
  | 10 => .inl fp32
  | 11 => .inl fp64
  | 12 => .inl fp32
  | 13 => .inl bf16
  | _ => .inl fp16

/-- Whether a type packs two lanes (R129), is a float type, or an integer type. -/
def isPair (ty : Nat) : Bool := 12 ≤ ty && ty ≤ 14
def isFloat (ty : Nat) : Bool := 8 ≤ ty && ty ≤ 14
def isInt (ty : Nat) : Bool := ty ≤ 7

/-- The width of a lane. -/
def kindWidth : Fmt ⊕ IFmt → Nat
  | .inl f => f.width
  | .inr t => t.w

/-- A scalar result as an element: the integer element rule of R325, or the float in the low bits. -/
def elementOf (k : Fmt ⊕ IFmt) (x : Nat) : Word :=
  match k with
  | .inl f => BitVec.ofNat 64 (x % 2 ^ f.width)
  | .inr t => if t.signed then sextN t.w x else zextN t.w x

/-- Applies an operation on lanes to elements: once, or lane by lane of a pair. -/
def onLanes (ty : Nat) (f : List Nat → FRes) (xs : List Word) : Word × FFlags :=
  let k := formatOf ty
  let w := kindWidth k
  if isPair ty then
    let r0 := f (xs.map fun x => x.toNat % 2 ^ 32 % 2 ^ w)
    let r1 := f (xs.map fun x => x.toNat / 2 ^ 32 % 2 ^ w)
    (BitVec.ofNat 64 (r0.1 % 2 ^ w + 2 ^ 32 * (r1.1 % 2 ^ w)), r0.2 ||| r1.2)
  else
    let r := f (xs.map fun x => x.toNat % 2 ^ w)
    (elementOf k r.1, r.2)

/-- The integer quotient of R145. -/
def intDiv (t : IFmt) (x y : Nat) : Nat :=
  if y % 2 ^ t.w = 0 then 2 ^ t.w - 1 else t.enc ((t.val x).tdiv (t.val y))

def laneQuot : LaneOp := { flt := fDivBits, int := intDiv }

/-- A two-operand operation by OP code (R294). -/
def peOp : Nat → LaneOp
  | 0x04 => laneAdd
  | 0x05 => laneSub
  | 0x06 => laneMul
  | 0x08 => laneMin
  | 0x09 => laneMax
  | 0x0A => laneAnd
  | 0x0B => laneOr
  | 0x0C => laneXor
  | 0x0D => laneShl
  | 0x0E => laneShr
  | 0x0F => laneSha
  | _ => laneQuot

def peArith2 (o : LaneOp) (ty rm : Nat) (a b : Word) : Word × FFlags :=
  onLanes ty (fun xs => o.runKind (formatOf ty) rm (nth 0 xs 0) (nth 0 xs 1)) [a, b]

/-- A × B + C (R361). -/
def peFma (ty rm : Nat) (a b c : Word) : Word × FFlags :=
  onLanes ty (fun xs => match formatOf ty with
    | .inl f => fFmaBits f rm (nth 0 xs 0) (nth 0 xs 1) (nth 0 xs 2)
    | .inr t => ((nth 0 xs 0 * nth 0 xs 1 + nth 0 xs 2) % 2 ^ t.w, 0)) [a, b, c]

/-- √A (R406); an integer type does not load. -/
def peSqrt (ty rm : Nat) (a : Word) : Word × FFlags :=
  onLanes ty (fun xs => match formatOf ty with
    | .inl f => fSqrtBits f rm (nth 0 xs 0)
    | .inr _ => (nth 0 xs 0, 0)) [a]

/-- Whether an element is zero as GATE tests it (R363). -/
def peZero (ty : Nat) (a : Word) : Bool :=
  let k := formatOf ty
  let w := kindWidth k
  let z := fun x => match k with
    | .inl f => (FVal.of f x).isZero
    | .inr _ => x % 2 ^ w == 0
  if isPair ty then z (a.toNat % 2 ^ 32) && z (a.toNat / 2 ^ 32) else z a.toNat

/-- The condition of PCMP by its code (R294). -/
def peCond : Nat → VCond
  | 0 => .eq
  | 1 => .ne
  | 2 => .lt
  | 3 => .le
  | 4 => .gt
  | _ => .ge

/-- PCMP: a pair compares true when the condition holds in both lanes (R385). -/
def peCompare (ty c : Nat) (a b : Word) : Bool × FFlags :=
  let k := formatOf ty
  let w := kindWidth k
  let one := fun x y => cmpKind k (peCond c) (x % 2 ^ w) (y % 2 ^ w)
  if isPair ty then
    let r0 := one (a.toNat % 2 ^ 32) (b.toNat % 2 ^ 32)
    let r1 := one (a.toNat / 2 ^ 32) (b.toNat / 2 ^ 32)
    (r0.1 && r1.1, r0.2 ||| r1.2)
  else one a.toNat b.toNat

/-- The operation of RED by its code and its identity (R148, R388). -/
def redOp : Nat → LaneOp
  | 0 => laneAdd
  | 1 => laneMin
  | 2 => laneMax
  | 3 => laneAnd
  | 4 => laneOr
  | _ => laneXor
def redId (c : Nat) (k : Fmt ⊕ IFmt) : Nat :=
  match c with
  | 0 => addIdOf k
  | 1 => minIdOf k
  | 2 => maxIdOf k
  | 3 => 2 ^ kindWidth k - 1
  | _ => 0

/-- The next power of two not below n, as its exponent. -/
def log2Up (n : Nat) : Nat := if n ≤ 1 then 0 else Nat.log2 (n - 1) + 1

/-- The tree of R148 over the beats of a rule, each lane of a pair apart. One beat gives its value unchanged (R388). -/
def peReduce (ty rm c : Nat) (vals : List Word) : Word × FFlags :=
  match vals with
  | [x] => (x, 0)
  | _ =>
    let k := formatOf ty
    onLanes ty (fun xs =>
      let n := log2Up xs.length
      let pad := List.replicate (2 ^ n - xs.length) (redId c k)
      treeFold ((redOp c).runKind k rm) n ((xs ++ pad).map fun x => (x, 0))) vals

/-! Converter nodes. -/

/-- Whether a format code is a block format (R299), and its block format. -/
def isBlock (c : Nat) : Bool := c == 15 || c == 16
def blockOf (c : Nat) : DFmt := if c = 15 then db8 else db4

/-- The elements of a token of a format: one, 8 of DB8 or 16 of DB4 (R342). -/
def tokenElements (c : Nat) (x : Word) : List Nat :=
  if c = 15 then (upto 8).map fun i => x.toNat / 2 ^ (8 * i) % 256
  else if c = 16 then (upto 16).map fun i => x.toNat / 2 ^ (4 * i) % 16
  else [x.toNat % 2 ^ kindWidth (formatOf c)]

/-- The value of an element of a block under its exponent pair. -/
def blockVal (d : DFmt) (e : Word) (x : Nat) : FVal :=
  match d.value (e.toNat % 256) (e.toNat / 256 % 256) x with
  | none => .nan false 0 false
  | some (n, m, g) => .fin n m g

/-- The value of a float element. -/
def sourceVal (frm : Nat) (e : Word) (x : Nat) : FVal :=
  if isBlock frm then blockVal (blockOf frm) e x
  else match formatOf frm with
    | .inl f => FVal.of f x
    | .inr t => .fin (t.val x < 0) (t.val x).natAbs 0

/-- One element into a scalar format, rounding under RNE (R140 to R142, R144). -/
def toScalar (frm tgt : Nat) (e : Word) (x : Nat) : FRes :=
  if isBlock frm then
    match formatOf tgt with
    | .inl f => dbToFloat (blockOf frm) f 0 (e.toNat % 256) (e.toNat / 256 % 256) x
    | .inr _ => (0, 0)
  else
    match formatOf frm, formatOf tgt with
    | .inl f, .inl g => fCvtBits f g 0 x
    | .inl f, .inr t => fToInt f t 0 x
    | .inr t, .inl g => fOfInt t g 0 x
    | .inr t, .inr u => (u.sat (t.val x), 0)

/-- The gap of a converter: 0 selects the default (R78, R118). -/
def gapOf (tgt k : Nat) : Nat := if k ≠ 0 then k else if tgt = 15 then 4 else 2

/-- Packs elements of a block format into tokens, the lowest element in the lowest bits. -/
def packTokens (bits per : Nat) : Nat → List Nat → List Word
  | 0, _ => []
  | n + 1, xs => BitVec.ofNat 64 (packLanes bits (xs.take per)) :: packTokens bits per n (xs.drop per)

/-- A full block: its element tokens, then its exponent token, and the flags (R143, R78). -/
def blockTokens (tgt gap : Nat) (vs : List FVal) : List (Bool × Word) × FFlags :=
  let (e0, e1, els, fl) := (blockOf tgt).convert (gapOf tgt gap) vs
  let toks := if tgt = 15 then packTokens 8 8 4 els else packTokens 4 16 2 els
  (toks.map (fun w => (false, w)) ++ [(true, BitVec.ofNat 64 (e0 + 256 * e1))], fl)

end Sys2Proof.Machine
end

