-- ==== Sys2Proof/Machine/Frames.lean ====
section
/-! DEFINITION. Frames and their pool (R96 to R100), activation FIFOs (R101, R102), returns, faults and unwinding
(R107, R108, R110), fault records (R231 to R233). The crossing unit acts with user rights of its context (R156). -/

namespace Sys2Proof.Machine

/-- A frame field of 8 bytes, none where it cannot be read. -/
def State.frameWord (s : State) (ctx : Nat) (va : Word) : Option Word :=
  match s.unitWord ctx .user va fun k => k ≤ 2 with
  | .ok w => some w
  | .error _ => none

/-- The requests for the fields of a frame, its first 128 bytes (R96, R161). -/
def State.meetFrame (s : State) (ctx : Nat) (f : Word) : State := s.meetUnit ctx .user .load 0 (fun k => k ≤ 2) f 2

/-- Writes a frame field; a field that cannot be written stays. -/
def State.setFrameWord (s : State) (ctx : Nat) (va w : Word) : State := (s.unitStore64 ctx va w).getD s

/-- Writes consecutive frame fields. -/
def State.setFrameWords (s : State) (ctx : Nat) (va : Word) : List Word → State
  | [] => s
  | w :: ws => (s.setFrameWord ctx va w).setFrameWords ctx (va + 8) ws

/-- A frame number as an address and back. -/
def frameVa (f : Nat) : Word := BitVec.ofNat 64 f

/-! The pool (R99, R100). -/

/-- A site of kind 0 or 1 that translates with read and write permission. -/
def State.poolSite (s : State) (ctx : Nat) (va : Word) : Option Site :=
  match s.unitSite ctx .user .atomic 0 va with
  | .ok site => if site.kind ≤ 1 then some site else none
  | .error _ => none

/-- The site of the pool header of a context. -/
def State.poolHeader (s : State) (ctx : Nat) : Option Site :=
  let va := (s.ctx ctx).framePool
  if va = 0 ∨ va.toNat % 64 ≠ 0 then none else s.poolSite ctx va

/-- The request for a pool header. -/
def State.meetPool (s : State) (ctx : Nat) : State := (s.poolHeader ctx).elim s s.request

/-- The callback pool's quire mask and label (R99). -/
def State.callbackPool (s : State) (ctx : Nat) : Option (Nat × Nat) :=
  (s.poolHeader ctx).map fun h => let w := wordAt s.mem (h.key + 0x18); (bits w 15 0, bits w 22 16)

/-- The callback label of a context (R99, R106). -/
def State.callbackLabel (s : State) (ctx : Nat) : Option Nat := (s.callbackPool ctx).map (·.2)

/-- Pops a frame (R99): its address, or the TRAPVAL of frame pool exhausted (R100), and the state, in which the reads of the header and
of the frame's link have made their requests (R161). A frame lies on two pages at most. A header or a frame in a poisoned unit is read
as it stands, for R100 names no failure there (DESIGN CHOICE, log 160). -/
def State.popFrame (s : State) (ctx : Nat) (vec : Bool) : Except Nat Word × State :=
  match s.poolHeader ctx with
  | none => (.error 2, s)
  | some h =>
    let s := s.request h
    let head := wordAt s.mem h.key
    if head = 0 then (.error 0, s)
    else if vec = true ∧ bit (wordAt s.mem (h.key + 0x10)) 0 = false then (.error 1, s)
    else
      let size : Word := if bit (wordAt s.mem (h.key + 0x10)) 0 then 640 else 128
      match s.poolSite ctx head, s.poolSite ctx (head + (size - 1)) with
      | none, _ => (.error 2, s)
      | _, none => (.error 2, s)
      | some f, some _ =>
        let s := s.request f
        let next := wordAt s.mem f.key
        let ver := wordAt s.mem (h.key + 8)
        (.ok head, s.unitWrite h (leBytes 8 next.toNat ++ leBytes 8 (ver + 1).toNat))

/-- Pushes a frame back to the pool (R99). Where the header or the frame no longer translates with read and write permission there is no
push, and the frame is lost (DESIGN CHOICE, log 151). -/
def State.pushFrame (s : State) (ctx : Nat) (f : Word) : State :=
  match s.poolHeader ctx, s.poolSite ctx f with
  | some h, some site =>
    let head := wordAt s.mem h.key
    let ver := wordAt s.mem (h.key + 8)
    (s.unitWrite site (leBytes 8 head.toNat)).unitWrite h (leBytes 8 f.toNat ++ leBytes 8 (ver + 1).toNat)
  | _, _ => s

/-- Writes every field of a fresh frame (R103, R105): callee, continuation, caller, status, and the arguments. -/
def State.writeFrame (s : State) (ctx : Nat) (f callee cont caller status : Word) (args : List Word) : State :=
  let slots := (upto 8).map fun i => nth 0 args i
  s.setFrameWords ctx f ([callee, cont, caller, status, 0, 0, 0, 0] ++ slots)

/-! The status word (R97). -/

def setField (w : Word) (hi lo x : Nat) : Word :=
  BitVec.ofNat 64 (w.toNat - bits w hi lo * 2 ^ lo + x % 2 ^ (hi + 1 - lo) * 2 ^ lo)

/-- Changes the status word of a frame. -/
def State.setStatus (s : State) (ctx : Nat) (f : Word) (g : Word → Word) : State :=
  let s := s.meetFrame ctx f
  match s.frameWord ctx (f + 0x18) with
  | some w => s.setFrameWord ctx (f + 0x18) (g w)
  | none => s

def withState (n : Nat) (w : Word) : Word := setField w 3 0 n
def withCause (c : Nat) (w : Word) : Word := setField w 15 8 c

/-! Signature descriptors and activation FIFOs (R101, R102). -/

/-- The target of a tagged pointer (R93). -/
def tagOf (p : Word) : Nat := bits p 63 62
def targetOf (p : Word) : Word := (p.setWidth 56).signExtend 64

/-- The FIFO number of a signature descriptor, or the cause of the fault that reading it meets, and what the request met. -/
def State.descFifo (s : State) (ctx : Nat) (desc : Word) : Except Nat Nat × State :=
  match s.unitFetch ctx .user (desc + 0x10) fun k => k ≤ 4 with
  | (.ok w, s) => (.ok (bits w 11 0), s)
  | (.error c, s) => (.error c, s)

/-- The site of an activation FIFO, reached through the context's tree with supervisor rights (DEDUCED, log 14). -/
def State.fifoSite (s : State) (ctx fifo : Nat) : Option Site :=
  match s.unitSite ctx .supervisor .atomic 0 ((s.ctx ctx).fifoArea + BitVec.ofNat 64 (2048 * fifo)) with
  | .ok site => if site.kind ≤ 1 then some site else none
  | .error _ => none

/-- Entries in an activation FIFO. -/
def State.fifoCount (s : State) (site : Site) : Nat := (wordAt s.mem (site.key + 8) - wordAt s.mem site.key).toNat

/-- Writes an entry into its FIFO where one is free. An area that does not translate or lies outside kind 0 or 1 keeps the entry in
the crossing unit like a full FIFO (DESIGN CHOICE, log 125). -/
def State.fifoAdd (s : State) (e : Enqueue) : Option State :=
  match s.fifoSite e.ctx e.fifo with
  | none => none
  | some site =>
    if 63 ≤ s.fifoCount site then none
    else
      let added := wordAt s.mem (site.key + 8)
      let at_ := site.key + 0x20 + 32 * (added.toNat % 63)
      let word1 := e.resume % 64 + (if e.cont then 64 else 0)
      let s := s.unitWrite { site with key := at_ }
        (leBytes 8 e.frame ++ leBytes 8 word1 ++ leBytes 8 e.a0.toNat ++ leBytes 8 e.a1.toNat)
      let s := s.unitWrite { site with key := site.key + 8 } (leBytes 8 (added + 1).toNat)
      let k := 4096 * e.ctx + e.fifo
      some { s with arrivals := tset [] s.arrivals k (tget [] s.arrivals k ++ [s.cycle]) }

/-- An enqueue: into the FIFO, or held by the crossing unit in order while the FIFO is full (R102). -/
def State.enqueueActivation (s : State) (e : Enqueue) : State :=
  if s.enqueues.any fun x => x.ctx == e.ctx && x.fifo == e.fifo then { s with enqueues := s.enqueues ++ [e] }
  else
    match s.fifoAdd e with
    | some s' => s'
    | none => { s with enqueues := s.enqueues ++ [e] }

/-- A held entry enters its FIFO (R102): the oldest one held for it. -/
def execActivationEnqueue (ctx fifo : Nat) (s : State) : Out :=
  event s <|
    match s.enqueues.find? fun x => x.ctx == ctx && x.fifo == fifo with
    | none => none
    | some e => ({ s with enqueues := s.enqueues.erase e }).fifoAdd e

/-- Takes the oldest entry of a FIFO, whose counts and entry are read at their lines (R161). -/
def State.fifoTake (s : State) (ctx fifo : Nat) : Option (Enqueue × State) :=
  match s.fifoSite ctx fifo with
  | none => none
  | some site =>
    if s.fifoCount site = 0 then none
    else
      let taken := wordAt s.mem site.key
      let at_ := site.key + 0x20 + 32 * (taken.toNat % 63)
      let s := (s.request site).request { site with key := at_ }
      let w1 := wordAt s.mem (at_ + 8)
      let e : Enqueue := { ctx := ctx, fifo := fifo, frame := (wordAt s.mem at_).toNat, resume := bits w1 5 0, cont := bit w1 6
                           a0 := wordAt s.mem (at_ + 16), a1 := wordAt s.mem (at_ + 24) }
      let s := s.unitWrite site (leBytes 8 (taken + 1).toNat)
      let k := 4096 * ctx + fifo
      some (e, { s with arrivals := tset [] s.arrivals k ((tget [] s.arrivals k).drop 1) })

/-! Fault records (R231 to R233). -/

/-- The fault slot of region n of folio f in a context's save area (R233). -/
def State.faultSlot (s : State) (ctx f n : Nat) : Word :=
  (s.ctx ctx).saveBase + BitVec.ofNat 64 (0x04F87000 + 0x01398000 * f + 0x1000 * n + 0x40)

/-- Writes words of a save area, in memory of kind 0 or 1, with supervisor rights (R17, R238). -/
def State.saveWords (s : State) (ctx : Nat) (va : Word) : List Word → State
  | [] => s
  | w :: ws =>
    let s := match s.unitSite ctx .supervisor .store 0 va with
      | .ok site => if site.kind ≤ 1 then s.unitWrite site (leBytes 8 w.toNat) else s
      | .error _ => s
    s.saveWords ctx (va + 8) ws

/-- Places the record of a fault with an activation (R232): a frame from the pool, or the region's fault slot. The answer
is its address and whether it lies in the slot. -/
def State.placeRecord (s : State) (ctx f n : Nat) (rcd : List Word) : Word × Bool × State :=
  match s.popFrame ctx false with
  | (.ok a, s) => (a, false, s.setFrameWords ctx a rcd)
  | (.error _, s) => (s.faultSlot ctx f n, true, s.saveWords ctx (s.faultSlot ctx f n) rcd)

/-- The trap that a waiting thread receives for an underlying cause (R86). -/
def invocationTrap (cause : Nat) : Nat := if cause = 0x10 then 0x10 else if cause = 0x11 then 0x11 else 0x0F

/-- The thread suspended in a crossing call on a frame. -/
def State.suspended (s : State) (ctx : Nat) (f : Word) : Option Nat :=
  (s.threads.find? fun e => e.2.ctx == ctx && e.2.wait == .crossing f.toNat).map (·.1)

/-- The outermost frame reached through +0x10 while the continuation has tag 01 (R108), none where no thread waits, and what the
requests met. -/
def State.outermost (s : State) (ctx : Nat) : Nat → Word → Option Word × State
  | 0, _ => (none, s)
  | n + 1, f =>
    let s := s.meetFrame ctx f
    match s.frameWord ctx (f + 8) with
    | none => (none, s)
    | some c =>
      if tagOf c = 0 then (some f, s)
      else if tagOf c = 1 then
        match s.frameWord ctx (f + 0x10) with
        | none => (none, s)
        | some g => s.outermost ctx n g
      else (none, s)

/-- The bound on a walk along a chain of frames: more frames than an address space holds. -/
def chainFuel : Nat := 2 ^ 57

/-- A trap taken by a thread that waits after its CALLR (R108, R110). -/
def afterCallr (t : Thread) (cause : Nat) (val frame iter : Word) (sub : Nat) (frec : Bool) : TrapInfo :=
  { cause := cause, val := val, post := true, pc := t.pc, frame := frame, iter := iter, sub := sub, frec := frec }

/-- Clears the L1 of a thread's core: an acquire by the thread. -/
def State.acquireOf (s : State) (n : Nat) : State := s.clearL1 (coreOf n)

/-- The activation of a frame is faulted (R108): STATE 3, CAUSE, the record's address, and the trap in the thread that
waits at the outermost frame. -/
def State.faultActivation (s : State) (ctx : Nat) (f : Word) (cause : Nat) (rcd iter : Word) (frec : Bool) : State :=
  let s := s.setStatus ctx f fun w => withState 3 (withCause cause w)
  let s := s.setFrameWord ctx (f + 0x20) rcd
  match s.outermost ctx chainFuel f with
  | (none, s) => s
  | (some g, s) =>
    match s.suspended ctx g with
    | none => s
    | some n => (s.acquireOf n).takeTrap n (afterCallr (s.thr n) (invocationTrap cause) rcd f iter cause frec)

/-- A fault of the crossing unit itself (R106, R107): a record with SLOTV and ADDRV 0 and the frame, whose other fields the
spec leaves open (free values, log 10), then R108. -/
def State.crossingFault (s : State) (ctx : Nat) (f : Word) (cause : Nat) : State :=
  let (x, s) := s.freeWord
  let (i0, s) := s.freeWord
  let (i1, s) := s.freeWord
  let (no, s) := s.freeWord
  let head := BitVec.ofNat 64 (ctx * 2 ^ 38 + bits x 37 32 * 2 ^ 32 + bits x 23 8 * 2 ^ 8 + cause)
  let rcd := [head, 0, i0, i1, no, f, 0, 0]
  let (a, frec, s) := s.placeRecord ctx (bits x 37 36) (bits x 35 32) rcd
  s.faultActivation ctx f cause a i0 frec

/-! Returns (R107, R110). -/

/-- A frame whose continuation no device wrote (R98): faulted with CAUSE 0x01, and no caller is woken. -/
def State.badContinuation (s : State) (ctx : Nat) (f : Word) : State := s.setStatus ctx f fun w => withState 3 (withCause 1 w)

/-- Unwinding along the chain (R110): the frame at the end of it whose thread waits, none where the chain breaks, and the
state. -/
def State.unwindFrom (s : State) (ctx : Nat) : Nat → Word → Option Word × State
  | 0, _ => (none, s)
  | n + 1, f =>
    let s := s.meetFrame ctx f
    match s.frameWord ctx (f + 8) with
    | none => (none, s)
    | some c =>
      if tagOf c = 0 then (some f, s)
      else if tagOf c = 1 then
        match s.frameWord ctx (f + 0x10), s.frameWord ctx (f + 0x18), s.frameWord ctx (f + 0x28) with
        | some g, some st, some obj =>
          let s := s.setStatus ctx g fun w => withState 4 (withCause (bits st 15 8) w)
          let s := s.setFrameWord ctx (g + 0x28) obj
          let s := s.setFrameWord ctx (g + 0x20) f
          s.unwindFrom ctx n g
        | _, _, _ => (none, s)
      else (none, s.badContinuation ctx f)

/-- A return that finds STATE 4 (R110): cross-call exception in the thread at the end of the chain. -/
def State.unwind (s : State) (ctx : Nat) (f : Word) : State :=
  match s.unwindFrom ctx chainFuel f with
  | (none, s) => s
  | (some g, s) =>
    match s.suspended ctx g with
    | none => s
    | some n => (s.acquireOf n).takeTrap n (afterCallr (s.thr n) 0x0E ((s.frameWord ctx (g + 0x28)).getD 0) g 0 0 false)

/-- A suspended thread resumes with the results of its call (R107): the stored address, a0 and a1, its step. -/
def State.resumeCall (s : State) (n : Nat) (pc a0 a1 : Word) : State :=
  let s := s.acquireOf n
  let t := s.thr n
  let t := ((t.ws 8 a0 s.cycle).ws 9 a1 s.cycle)
  (s.setThr n { t with pc := pc, wait := .none }).afterStep n t.mode

/-- The delivery of a return (R107). One whose frame's status or continuation word cannot be read is dropped (DESIGN CHOICE, log 148). -/
def State.deliverReturn (s : State) (ctx : Nat) (f : Word) : State :=
  let s := s.meetFrame ctx f
  match s.frameWord ctx (f + 0x18), s.frameWord ctx (f + 8) with
  | some st, some cont =>
    if 2 ≤ tagOf cont then s.badContinuation ctx f
    else if bits st 3 0 = 4 then s.unwind ctx f
    else
      let s := s.setStatus ctx f (withState 2)
      let a0 := (s.frameWord ctx (f + 0x28)).getD 0
      let a1 := (s.frameWord ctx (f + 0x30)).getD 0
      if tagOf cont = 0 then
        let s := match s.suspended ctx f with
          | some n => s.resumeCall n (targetOf cont) a0 a1
          | none => s
        s.pushFrame ctx f
      else
        let caller := (s.frameWord ctx (f + 0x10)).getD 0
        match s.descFifo ctx (targetOf cont &&& ~~~63) with
        | (.ok n, s) =>
          if n = 0 then (s.pushFrame ctx f).crossingFault ctx caller 0x01
          else
            let s := { s with freeAtStart := (ctx, caller.toNat, f.toNat) :: s.freeAtStart }
            s.enqueueActivation { ctx := ctx, fifo := n, frame := caller.toNat, resume := bits cont 5 0, cont := true
                                  a0 := a0, a1 := a1 }
        | (.error c, s) => (s.pushFrame ctx f).crossingFault ctx caller c
  | _, _ => s

/-- A return that waits in a crossing unit is delivered while its context is switched in (R107). -/
def execReturnDelivery (idx : Nat) (s : State) : Out :=
  event s <|
    match s.returns[idx]? with
    | none => none
    | some (ctx, f) =>
      if (s.ctx ctx).inn = false then none
      else some ({ s with returns := dropNth s.returns idx }.deliverReturn ctx (frameVa f))

end Sys2Proof.Machine
end

