-- ==== Sys2Proof/Machine/Channels.lean ====
section
/-! DEFINITION. Regions by position, gutters and routes (R68, R70, R82, R83, R92, R299), tokens on channels, the discard of an
invocation (R86), and the entries a storer holds (R86, R87). -/

namespace Sys2Proof.Machine

/-! Where a tile lies. -/

/-- The region of a field that holds a column (R82). -/
def State.regionAt (s : State) (f : Nat) (c : Int) : Option Nat :=
  (upto 16).find? fun n =>
    let g := s.region f n
    decide (g.width ≠ 0 ∧ (g.first : Int) ≤ c ∧ c < (g.first : Int) + (g.width : Int))

/-- The record of an image for a column relative to the region and a row. -/
def Plane.recAt (p : Plane) (c r : Nat) : Option TileRec := p.recs.find? fun t => t.col == c && t.row == r

/-- The record that the active plane of a region holds for a tile. -/
def Region.recAt (g : Region) (c r : Nat) : Option TileRec :=
  match g.active with
  | none => none
  | some p => p.recAt (c - g.first) r

/-- A tile of a region whose invocation runs: its region's number, the region and the tile's record. Frozen regions and
regions that drain fire nothing (R90, R236). -/
def State.liveTile (s : State) (f c r : Nat) : Option (Nat × Region × TileRec) :=
  match s.regionAt f c with
  | none => none
  | some n =>
    let g := s.region f n
    if g.phase = .running ∧ g.frozen = false then (g.recAt c r).map fun t => (n, g, t) else none

/-- Whether a step from a column to its neighbour meets a closed gutter (R82). -/
def State.gutterClosed (s : State) (f : Nat) (a b : Int) : Bool :=
  match s.regionAt f (min a b), s.regionAt f (max a b) with
  | some w, some e =>
    if w = e then false else !((s.region f w).east && (s.region f w).owner == (s.region f e).owner)
  | _, _ => true

/-! Routes. -/

/-- The i-th position on the way from a to b, counting from 1. -/
def towards (a b : Int) (i : Nat) : Int := if a ≤ b then a + i else a - i

/-- The tiles a route passes after its first, the destination last: along the row, then along the column (R299). -/
def routePath (c : Int) (r : Nat) (dc : Int) (dr : Nat) : List (Int × Nat) :=
  ((upto (dc - c).natAbs).map fun i => (towards c dc (i + 1), r)) ++
  ((upto ((dr : Int) - r).natAbs).map fun i => (dc, (towards r dr (i + 1)).toNat))

/-- The path of an output's route. -/
def Region.path (g : Region) (t : TileRec) (o : Nat) : Option (Route × List (Int × Nat)) :=
  match nth none t.routes o with
  | none => none
  | some rt => some (rt, routePath (g.first + t.col) t.row ((g.first : Int) + rt.dcol) rt.drow)

/-- Entries that input i of a tile holds (R70, R75): four, or 16 at i0 and none elsewhere with DEEP. -/
def inCap (t : Option TileRec) (i : Nat) : Nat :=
  match t with
  | some r => if r.kind = 0 ∧ bit r.cfg 8 = true then (if i = 0 then 16 else 0) else 4
  | none => 4

/-- The tokens at an input, an output, and a hop. -/
def FTile.inp (t : FTile) (i : Nat) : List Token := nth [] t.ins i
def FTile.out (t : FTile) (o : Nat) : List Token := nth [] t.outs o
def FTile.hop (t : FTile) (o k : Nat) : List Token := nth [] (nth [] t.hops o) k
def FTile.setIn (t : FTile) (i : Nat) (q : List Token) : FTile := { t with ins := setNth t.ins i q }
def FTile.setOut (t : FTile) (o : Nat) (q : List Token) : FTile := { t with outs := setNth t.outs o q }

/-- A list made long enough for an index. -/
def padTo {α : Type} (d : α) (n : Nat) (l : List α) : List α := l ++ List.replicate (n - l.length) d

def FTile.setHop (t : FTile) (o k : Nat) (q : List Token) : FTile :=
  { t with hops := setNth t.hops o (setNth (padTo [] (k + 1) (nth [] t.hops o)) k q) }

/-- Room in an output buffer (R70). -/
def FTile.roomOut (t : FTile) (o : Nat) : Bool := (t.out o).length < 4

/-- Appends a token to an output. -/
def FTile.emit (t : FTile) (o : Nat) (k : Token) : FTile := t.setOut o (t.out o ++ [k])

/-- Removes the head of an input. -/
def FTile.pop (t : FTile) (i : Nat) : FTile := t.setIn i ((t.inp i).drop 1)

/-- The token that stands at a stage of an output's route: stage 0 is the output buffer, stage k its k-th hop. -/
def stageHead (t : FTile) (o pos : Nat) : Option Token :=
  match pos with
  | 0 => (t.out o).head?
  | k + 1 => (t.hop o k).head?

/-- The tile without the token at a stage. -/
def stagePop (t : FTile) (o pos : Nat) : FTile :=
  match pos with
  | 0 => t.setOut o ((t.out o).drop 1)
  | k + 1 => t.setHop o k ((t.hop o k).drop 1)

/-- The column of a stage. -/
def stageCol (start : Int) (path : List (Int × Nat)) (pos : Nat) : Int :=
  match pos with
  | 0 => start
  | k + 1 => (nth (start, 0) path k).1

/-- Stages of a route before its destination. -/
def stagesOf (path : List (Int × Nat)) : Nat := max 1 path.length

/-- Whether the hop from a stage to the next crosses a closed gutter. -/
def State.blocked (s : State) (f : Nat) (start : Int) (path : List (Int × Nat)) (pos : Nat) : Bool :=
  let a := stageCol start path pos
  let b := stageCol start path (pos + 1)
  a != b && s.gutterClosed f a b

/-- A token reaches input i of a tile, where the buffer and `slack` entries more have room (R70, R236): it takes the count of held
entries of the receiving region (R87). -/
def State.arrive (s : State) (f c r i slack : Nat) (tok : Token) : Option State :=
  match s.regionAt f c with
  | none => none
  | some m =>
    let d := s.region f m
    let x := s.ftile f c r
    if (x.inp i).length < inCap (d.recAt c r) i + slack then
      some (s.setFtile f c r (x.setIn i (x.inp i ++ [{ tok with arr := d.seq }])))
    else none

/-- The token at a stage of an output's route moves one hop, toward its receiver's input, where the next stage and `slack` entries
more have room (R70, R92). -/
def State.moveToken (s : State) (f : Nat) (g : Region) (rd : TileRec) (c r o pos slack : Nat) : Option State :=
  match g.path rd o with
  | none => none
  | some (rt, path) =>
    let t := s.ftile f c r
    match stageHead t o pos with
    | none => none
    | some tok =>
      if stagesOf path ≤ pos ∨ s.blocked f c path pos = true then none
      else if pos + 1 < stagesOf path then
        if (t.hop o pos).length < 4 + slack then
          let t := stagePop t o pos
          some (s.setFtile f c r (t.setHop o pos (t.hop o pos ++ [tok])))
        else none
      else
        (s.setFtile f c r (stagePop t o pos)).arrive f ((g.first : Int) + rt.dcol).toNat rt.drow rt.din slack tok

/-- A token that a replaced configuration left on its way moves one hop, behind every earlier one for its input, or drops where the gutter
before it has closed since (R70, R83). -/
def State.lateHop (s : State) (f c r i : Nat) : Option State :=
  let t := s.ftile f c r
  match t.late[i]? with
  | none => none
  | some x =>
    let same := fun y : Late => y.col == x.col && y.row == x.row && y.inp == x.inp
    let rest := s.setFtile f c r { t with late := dropNth t.late i }
    let path := routePath c r x.col x.row
    if (t.late.take i).any fun y => same y && decide (y.pos ≤ x.pos) then none
    else if s.blocked f c path x.pos then some rest
    else if x.pos + 1 < stagesOf path then
      if (t.late.filter fun y => same y && y.pos == x.pos + 1).length < 4 then
        some (s.setFtile f c r { t with late := setNth t.late i { x with pos := x.pos + 1 } })
      else none
    else rest.arrive f x.col x.row x.inp 0 x.tok

/-- A pass-through passes the token at input iN to output oN, whose buffer is the four entries it adds to the channel (R92, R298). -/
def State.passOn (s : State) (f c r : Nat) (rd : TileRec) (o : Nat) : Option State :=
  let t := s.ftile f c r
  match t.inp o with
  | [] => none
  | tok :: _ => if rd.kind = 4 ∧ t.roomOut o = true then some (s.setFtile f c r ((t.pop o).emit o tok)) else none

/-- A hop of a token on an output's route, whether its sender's region runs or is idle (R70); output 4 stands for the tile's late
tokens, and outputs 5 to 8 for the four channels through a pass-through. A frozen region moves nothing (R236). -/
def State.tokenHop (s : State) (f c r o pos : Nat) : Option State :=
  match s.regionAt f c with
  | none => none
  | some n =>
    let g := s.region f n
    if g.frozen then none
    else if o = 4 then s.lateHop f c r pos
    else
      match g.recAt c r with
      | none => none
      | some rd => if o < 4 then s.moveToken f g rd c r o pos 0 else s.passOn f c r rd (o - 5)

/-- Step 3 of a freeze (R236): the head of every route register of an output moves one hop, into the slack entry of its receiver. -/
def State.flushRoute (s : State) (f : Nat) (g : Region) (rd : TileRec) (o : Nat) : State :=
  match g.path rd o with
  | none => s
  | some (_, path) =>
    (upto (stagesOf path - 1)).foldl (fun s i =>
      (s.moveToken f g rd (g.first + rd.col) rd.row o (stagesOf path - 1 - i) 1).getD s) s

/-- A region is frozen in place (R236, R246): its guards become false, what its loaders and memory tiles have issued is complete, and
its route registers are flushed. One that is frozen stays as it is, and a pre-emption that froze it no longer thaws it. -/
def State.freeze (s : State) (f n : Nat) : State :=
  let g := s.region f n
  if g.frozen then s.setRegion f n { g with preempted := false }
  else
    let s := match g.active with
      | none => s
      | some p => p.recs.foldl (fun s rd => (upto 4).foldl (fun s o => s.flushRoute f g rd o) s) s
    s.setRegion f n { s.region f n with frozen := true }

/-- A region that a thaw resumes (R246), whatever froze it. -/
def Region.thawed (g : Region) : Region := { g with frozen := false, preempted := false }

def execTokenHop (folio col row out pos : Nat) (s : State) : Out := event s (s.tokenHop folio col row out pos)

/-! What becomes of the tokens of a route that ends (R70, R83, R90). -/

/-- The tokens of an output's hops and buffer, those nearest their receiver first, each with its stage. -/
def FTile.stagesFrom (t : FTile) (o : Nat) : List (Token × Nat) :=
  ((nth [] t.hops o).zipIdx 1).reverse.flatMap (fun e => e.1.map fun k => (k, e.2)) ++ (t.out o).map fun k => (k, 0)

/-- The tokens of an output's hops and buffer, those nearest their receiver first. -/
def FTile.onRoute (t : FTile) (o : Nat) : List Token := (t.stagesFrom o).map (·.1)

/-- The fate of an output's tokens at the drain: on a route inside the region they arrive as strays, before a closed gutter they drop, over
open gutters they stay, and without a route they go, arriving nowhere. -/
inductive Fate where
  | stray | drop | stay | lost
deriving DecidableEq, Repr

def State.routeFate (s : State) (f : Nat) (g : Region) (rd : TileRec) (o : Nat) : Fate :=
  match g.path rd o with
  | none => .lost
  | some (rt, path) =>
    if (upto path.length).any fun pos => s.blocked f (g.first + rd.col) path pos then .drop
    else if 0 ≤ rt.dcol ∧ rt.dcol < (g.width : Int) then .stray
    else .stay

/-- What a tile leaves on its way over open gutters when its configuration is replaced. -/
def State.lateOf (s : State) (f : Nat) (g : Region) (c r : Nat) : List Late :=
  let t := s.ftile f c r
  t.late ++ match g.recAt c r with
    | none => []
    | some rd => (upto 4).flatMap fun o =>
      match g.path rd o with
      | none => []
      | some (rt, _) =>
        if s.routeFate f g rd o = .stay then
          (t.stagesFrom o).map fun e =>
            { col := ((g.first : Int) + rt.dcol).toNat, row := rt.drow, inp := rt.din, tok := e.1, pos := e.2 }
        else []

/-- A tile number of a folio's field lies in a region's columns. -/
def Region.hasTile (g : Region) (f k : Nat) : Bool :=
  k / 1440 == f && decide (g.first ≤ k % 1440 / 36 ∧ k % 1440 / 36 < g.first + g.width)

/-- Every tile of a region as a commit leaves it: nothing of the old configuration but the tokens on their way over open gutters,
which are never dropped (R70, R84). -/
def State.commitTiles (s : State) (f : Nat) (g : Region) : State :=
  let fresh := fun e : Nat × FTile =>
    if g.hasTile f e.1 then (e.1, { FTile.reset with late := s.lateOf f g (e.1 % 1440 / 36) (e.1 % 36) }) else e
  { s with ftiles := (s.ftiles.map fresh).filter fun e => e.2 ≠ FTile.reset }

/-- Every tile of a region that goes, at reset. -/
def State.clearTiles (s : State) (f : Nat) (g : Region) : State :=
  { s with ftiles := s.ftiles.filter fun e => !g.hasTile f e.1 }

/-! The discard of an invocation (R86). -/

/-- The data phase ends, with a reason to discard where there is one; the first reason stays. -/
def Region.stopFor (g : Region) (d : Option Discard) : Region :=
  { g with phase := .draining, bad := match g.bad with
      | some b => some b
      | none => d }

/-- Discards the invocation of region n for a tile's fault. -/
def State.discardAt (s : State) (f n c r cause : Nat) (slot : Option Nat) (addr : Option Word) : State :=
  let g := s.region f n
  s.setRegion f n (g.stopFor (some { cause := cause, col := c - g.first, row := r, slot := slot, addr := addr }))

/-- The stage of a route at which a token stands before a closed gutter, if one does. -/
def State.dropStage (s : State) (f c : Nat) (t : FTile) (o : Nat) (path : List (Int × Nat)) : Option Nat :=
  (upto path.length).find? fun pos => s.blocked f c path pos && (stageHead t o pos).isSome

/-- The drop of a token at a closed gutter (R83): it is counted, the first one of the invocation is recorded and ends the
sender's data phase. -/
def State.gutterDrop (s : State) (f c r o : Nat) : Option State :=
  match s.regionAt f c with
  | none => none
  | some n =>
    let g := s.region f n
    if g.frozen then none
    else
      match g.recAt c r with
      | none => none
      | some rd =>
        match g.path rd o with
        | none => none
        | some (_, path) =>
          let t := s.ftile f c r
          match s.dropStage f c t o path with
          | none => none
          | some pos =>
            match stageHead t o pos with
            | none => none
            | some tok =>
              let s := s.setFtile f c r (stagePop t o pos)
              let g := { g with drops := g.drops + 1, dropTok := some (g.dropTok.getD (tok.payload, rd.col, rd.row)) }
              if g.phase = .idle then some (s.setRegion f n { g with dropTok := none })
              else some (s.setRegion f n (g.stopFor (some
                { cause := 0x11, col := rd.col, row := rd.row, slot := none, addr := some tok.payload })))

def execGutterDrop (folio col row out : Nat) (s : State) : Out := event s (s.gutterDrop folio col row out)

/-! Held stores and atomics (R86, R87). -/

/-- The last held segment that a store may merge into. -/
def mergeable (hs : List Held) (key fence : Nat) : Option Held :=
  hs.foldl (fun b h => if h.atomic.isNone && h.key / 64 == key / 64 && decide (fence ≤ h.seq) then some h else b) none

/-- Puts cells into a held segment, the later bytes over the earlier. -/
def mergeCells (old new : List Host.Cell) : List Host.Cell := new.foldl (fun t e => tput t e.1 e.2) old

/-- The checks of an edge store (R86, R331, R408): the cause of the discard, or the site. -/
def State.storerSite (s : State) (owner f : Nat) (va : Word) (n : Nat) (atomic : Bool) : Except Nat Site :=
  if va.toNat % n ≠ 0 then .error 0x03
  else
    match s.unitSite owner .user (if atomic then .atomic else .store) (4 * f) va with
    | .error e => .error e
    | .ok site =>
      if atomic then (if site.kind = 3 ∨ 5 ≤ site.kind then .error 0x06 else .ok site)
      else if 5 ≤ site.kind then .error 0x05 else .ok site

/-- The tile's latest entry that a store since its last ORD token was accepted into is number n or a later one (R182). -/
def FTile.accepted (t : FTile) (n : Nat) : FTile := { t with ordSeq := max t.ordSeq n }

/-- A storer accepts a store of n bytes (R86, R87): into a held segment, or a new entry. -/
def State.hold (s : State) (f n c r : Nat) (slot : Option Nat) (va : Word) (len v fence : Nat) : State :=
  let g := s.region f n
  let t := s.ftile f c r
  match s.storerSite g.owner f va len false with
  | .error e => s.discardAt f n c r e slot (some va)
  | .ok site =>
    let cells := cellsFrom site.key (leBytes len v)
    match mergeable t.held site.key (max fence t.fence) with
    | some h =>
      let merged := fun x : Held => { x with bytes := mergeCells x.bytes cells, more := site.via va :: x.more }
      s.setFtile f c r
        (FTile.accepted { t with held := t.held.map fun x => if x.seq = h.seq then merged x else x } h.seq)
    | none =>
      if 1024 ≤ t.held.length then s.discardAt f n c r 0x10 slot (some va)
      else
        let h : Held := { seq := g.seq, via := site.via va, key := site.key, kind := site.kind, grain := site.grain
                          bytes := cells, atomic := none, more := [] }
        (s.setFtile f c r (FTile.accepted { t with held := t.held ++ [h] } h.seq)).setRegion f n { g with seq := g.seq + 1 }

/-- A storer accepts an atomic (R87, R331): always a new entry. -/
def State.holdAtomic (s : State) (f n c r slot op : Nat) (va b x : Word) : State :=
  let g := s.region f n
  let t := s.ftile f c r
  match s.storerSite g.owner f va 8 true with
  | .error e => s.discardAt f n c r e (some slot) (some va)
  | .ok site =>
    if 1024 ≤ t.held.length then s.discardAt f n c r 0x10 (some slot) (some va)
    else
      let h : Held := { seq := g.seq, via := site.via va, key := site.key, kind := site.kind, grain := site.grain
                        bytes := [], atomic := some (op, b, x), more := [] }
      (s.setFtile f c r (FTile.accepted { t with held := t.held ++ [h] } h.seq)).setRegion f n { g with seq := g.seq + 1 }

/-- f(old, B) of an atomic by its OP code (R294). -/
def atomicOf (op : Nat) (old b x : Word) : Word :=
  match op with
  | 0x1C => old + b
  | 0x1D => if b.slt old then b else old
  | 0x1E => if old.slt b then b else old
  | 0x1F => old ||| b
  | 0x20 => old &&& b
  | 0x21 => old ^^^ b
  | 0x22 => b
  | 0x23 => if old = b then x else old
  | _ => 1

/-- Whether a held entry lies at a home slice of this device. -/
def Held.atHome (h : Held) : Bool := decide (h.kind ≤ 2 ∨ h.key < 2 ^ 41)

/-- A held store that fails when it is released (R175, R251). -/
def State.heldFails (s : State) (h : Held) : Bool := h.bytes.any fun c => s.storeFails h.kind c.1 1

/-- What a held entry's request meets at its home: the line has the grain that it carries (R161, R168). -/
def State.heldMet (s : State) (h : Held) : State := if h.atHome then s.adoptGrain (h.key / 512) h.grain else s

/-- What keeps a held atomic from being performed: a peer that does not serve it (R175), poison or a lost port (R168, R251). -/
def State.heldFault (s : State) (h : Held) : Option Nat :=
  if h.atomic.isNone then none
  else if h.kind = 4 ∧ s.storeFails 4 h.key 8 = true then some 0x05
  else if s.storeFails h.kind h.key 8 = true ∨ (s.heldMet h).poisoned h.key 8 = true then some 0x16
  else none

/-- The first byte of its line that a held entry writes, and the bytes from there to the last (R161). -/
def Held.span (h : Held) : Nat × Nat :=
  match h.bytes with
  | [] => (h.key, 8)
  | c :: _ => (c.1, spanEnd h.bytes - c.1)

/-- A held entry is performed at its site (R86, R87); a store that fails is lost. -/
def State.performHeld (s : State) (h : Held) : State :=
  if s.heldFails h then s
  else
    let s := if h.atHome then s.cohWrite h.span.1 h.span.2 h.grain else s
    match h.atomic with
    | none => s.writeCells h.bytes
    | some (op, b, x) => s.writeCells (cellsFrom h.key (leBytes 8 (atomicOf op (wordAt s.mem h.key) b x).toNat))

end Sys2Proof.Machine
end

