-- ==== Sys2Proof/Machine/Heap.lean ====
section
/-! DEFINITION. The gain heap: entries and the exact residual (R199, R200, R207), the GH instructions (R201 to R206,
R210, R364), termination waves (R208, R209) and the end of an aborted heap (R211). -/

namespace Sys2Proof.Machine

/-- |v| of an FP32 value in units of 2^-149 (R207). -/
def absUnits (v : BitVec 32) : Nat :=
  match FVal.of fp32 v.toNat with
  | .fin _ m e => m * 2 ^ (e + 149).toNat
  | _ => 0

/-- Whether an FP32 value is infinite or a NaN (R200). -/
def badFp32 (v : BitVec 32) : Bool := v.toNat / 2 ^ 23 % 256 == 255
/-- Whether it is a zero of either sign. -/
def zeroFp32 (v : BitVec 32) : Bool := v.toNat % 2 ^ 31 == 0

/-- Entries of a key, and lists in increasing key order. -/
def hget (es : List HEntry) (k : Nat) : Option HEntry := es.find? fun e => e.key == k
def hdel (es : List HEntry) (k : Nat) : List HEntry := es.filter fun e => e.key != k
def hput (es : List HEntry) (x : HEntry) : List HEntry :=
  es.filter (fun e => e.key < x.key) ++ x :: es.filter (fun e => x.key < e.key)

/-- Bits of the accumulator and entries of a quire heap (R199, R200, R207). -/
def heapLimit : Nat := 2 ^ 288
def heapCapacity : Nat := 16384

/-- The heap that a launch has bound. -/
def State.heapOf (s : State) (l : Nat) : Option HeapBinding :=
  match s.launch l with
  | none => none
  | some x =>
    match x.heap with
    | some h => if h.bound then some h else none
    | none => none

/-- The bound heap of the issuing thread and its launch (R202). -/
def State.myHeap (s : State) : Option (Nat × HeapBinding) :=
  match s.th.work with
  | .heapTask l _ _ => (s.heapOf l).map fun h => (l, h)
  | .wid l _ => (s.heapOf l).map fun h => (l, h)
  | _ => none

/-- The quire that holds a key (R199). -/
def HeapBinding.home (h : HeapBinding) (k : Nat) : Nat := nth 0 h.map (k % 32) % 16

def State.eng (s : State) (q : Nat) : HeapEng := (s.quire q).heap
def State.setEng (s : State) (q : Nat) (e : HeapEng) : State := s.setQuire q { s.quire q with heap := e }

/-- A key operation of the issuing thread is counted between two different quires of the heap (R208). -/
def State.countOp (s : State) (h : HeapBinding) (q : Nat) : State :=
  if s.myQuire ≠ q ∧ h.quires.contains s.myQuire = true then
    let s := s.setEng s.myQuire { s.eng s.myQuire with sent := (s.eng s.myQuire).sent + 1 }
    s.setEng q { s.eng q with recv := (s.eng q).recv + 1 }
  else s

/-- The functions that act on one key. -/
inductive KeyFn where
  | push | add | set
deriving DecidableEq, Repr

/-- One key operation at its engine (R200, R203): the new engine and the result word. -/
def HeapEng.keyOp (e : HeapEng) (fn : KeyFn) (k : Nat) (x : BitVec 32) (pay tpay : Word) : Except Stop (HeapEng × Word) := do
  let run := hget e.running k
  let ent := hget e.entries k
  let old : BitVec 32 := match run, ent with
    | some r, _ => r.v
    | none, some r => r.v
    | none, none => 0
  let absent := run.isNone && ent.isNone
  let new : BitVec 32 :=
    if fn = .add ∧ absent = false then BitVec.ofNat 32 (fAddBits fp32 0 old.toNat x.toNat).1 else x
  let key : Word := BitVec.ofNat 64 k
  let ins := absent && !zeroFp32 new
  need (!(ins && decide (heapCapacity ≤ e.entries.length))) 0x0A key
  need (!badFp32 new) 0x15 key
  let acc := e.acc + absUnits new - absUnits old
  need (decide (acc < heapLimit)) 0x15 key
  let e' : HeapEng := match run, ent with
    | some r, _ =>
      { e with acc := acc
               running := hput e.running { r with v := new, payload := if fn = .push then pay else r.payload } }
    | none, some r =>
      if zeroFp32 new then { e with acc := acc, entries := hdel e.entries k }
      else
        { e with acc := acc
                 entries := hput e.entries { r with v := new, payload := if fn = .push then pay else r.payload } }
    | none, none =>
      if ins then
        { e with acc := acc
                 entries := hput e.entries { key := k, v := new, payload := if fn = .push then pay else tpay } }
      else e
  let word := (if fn = .set then old else new).setWidth 64 |||
    (if run.isSome then 0x100000000 else 0) ||| (if ins then 0x200000000 else 0)
  .ok (e', word)

/-- A key instruction (R203, R364): `d` is the payload source of PUSH and the result of ADD and SET. -/
def State.ghKey (s : State) (fn : KeyFn) (d a b : SReg) (rel : Bool) : Act? := do
  match s.myHeap with
  | none => illegal
  | some (_, h) =>
    let key := s.rs a
    need (key >>> 32 == 0) 0x01 key
    let s ← (if rel then s.release .device else .ok s)
    let q := h.home key.toNat
    let (e, word) ← (s.eng q).keyOp fn key.toNat ((s.rs b).setWidth 32) (s.rs d) h.tpayload
    let s := (s.setEng q e).countOp h q
    .ok ((if fn = .push then s else s.ws d word 0).retire 1)

def execGhPush (d a b : SReg) (rel : Bool) (s : State) : Out := finish s (s.ghKey .push d a b rel)
def execGhAdd (d a b : SReg) (rel : Bool) (s : State) : Out := finish s (s.ghKey .add d a b rel)
def execGhSet (d a b : SReg) (rel : Bool) (s : State) : Out := finish s (s.ghKey .set d a b rel)

/-- The running record of a key ends (R206): its side value is inserted, or the record dropped. -/
def HeapEng.done (e : HeapEng) (k : Nat) : Except Stop HeapEng :=
  match hget e.running k with
  | none => .ok e
  | some r =>
    if zeroFp32 r.v then .ok { e with running := hdel e.running k }
    else if heapCapacity ≤ e.entries.length then trapV 0x0A (BitVec.ofNat 64 k)
    else .ok { e with running := hdel e.running k, entries := hput e.entries r }

/-- GH.DONE of the issuing thread's task, once (R206). -/
def State.taskDone (s : State) (l k : Nat) : Act? :=
  match s.heapOf l with
  | none => .ok (s.setTh { s.th with work := .heapTask l k true })
  | some h => do
    let e ← (s.eng (h.home k)).done k
    .ok ((s.setEng (h.home k) e).setTh { s.th with work := .heapTask l k true })

def execGhDone (rel : Bool) (s : State) : Out :=
  finish s <|
    match s.th.work with
    | .heapTask l k false => do
      need (s.heapOf l).isSome 0x01 0
      let s ← (if rel then s.release .device else .ok s)
      let s ← s.taskDone l k
      .ok (s.retire 1)
    | _ => illegal

/-- An accumulator rounded to FP64 under RNE (R207). -/
def accFp64 (acc : Nat) : Word := if acc = 0 then 0 else BitVec.ofNat 64 (roundFin fp64 0 false acc (-149)).1

/-- The exact sum over the engines of a heap (R207). -/
def State.heapSum (s : State) (h : HeapBinding) : Nat := h.quires.foldl (fun t q => t + (s.eng q).acc) 0

def execGhSum (d a : SReg) (s : State) : Out :=
  finish s <|
    match s.myHeap with
    | none => illegal
    | some (_, h) => do
      need (s.rs a == 0 || s.rs a == 1) 0x01 (s.rs a)
      let acc := if s.rs a = 1 then s.heapSum h
        else if h.quires.contains s.myQuire then (s.eng s.myQuire).acc else 0
      .ok ((s.ws d (accFp64 acc) 0).retire 1)

/-- GH.CFG changes FLOOR or TOL at every engine of the heap (R205). -/
def execGhCfg (a b : SReg) (s : State) : Out :=
  finish s <|
    match s.myHeap with
    | none => illegal
    | some (_, h) => do
      need (s.rs a == 0 || s.rs a == 1) 0x01 (s.rs a)
      let v := s.rs b
      if s.rs a = 0 then
        need (!badFp32 (v.setWidth 32) && !v.getLsbD 31) 0x01 v
        .ok ((h.quires.foldl (fun s q => s.setEng q { s.eng q with floor := v.setWidth 32 }) s).retire 1)
      else
        need (!bit v 63 && bits v 62 52 != 2047) 0x01 v
        .ok ((h.quires.foldl (fun s q => s.setEng q { s.eng q with tol := v }) s).retire 1)

/-! Dumps (R210). -/

/-- Puts an entry into a list in key order. -/
def hinsert (x : HEntry) (es : List HEntry) : List HEntry :=
  es.filter (fun e => e.key < x.key) ++ x :: es.filter (fun e => x.key ≤ e.key)

/-- The records of a dump in increasing key order: key in [31:0], value in [63:32]. -/
def State.dumpRecords (s : State) (h : HeapBinding) : List Word :=
  let es := h.quires.flatMap fun q => (s.eng q).entries ++ (s.eng q).running.filter fun e => !zeroFp32 e.v
  (es.foldl (fun l e => hinsert e l) []).map fun e => BitVec.ofNat 64 (e.key + 2 ^ 32 * e.v.toNat)

/-- Checks one record address as a store does (R407, R210) and writes the record at its site. -/
def State.dumpStore (s : State) (va w : Word) : Act? := do
  need (canonical va) 0x05 va
  need (va.toNat % 8 == 0) 0x03 va
  let (site, s) ← s.translate .store va
  need (decide (site.kind ≤ 2)) 0x05 va
  let s := s.deliverLine s.myCore site.key
  .ok (s.unitWrite site (leBytes 8 w.toNat))

def State.dumpStores (s : State) (va : Word) : List Word → Act?
  | [] => .ok s
  | w :: ws => do
    let s ← s.dumpStore va w
    s.dumpStores (va + 8) ws

def execGhDump (d a b : SReg) (s : State) : Out :=
  finish s <|
    match s.myHeap with
    | none => illegal
    | some (_, h) => do
      let recs := s.dumpRecords h
      let s' ← s.dumpStores (s.rs a) (recs.take (s.rs b).toNat)
      let s' := s'.acquire .device
      .ok ((s'.ws d (BitVec.ofNat 64 recs.length) 0).retire 1)

/-! Termination (R208, R209). -/

/-- Whether an engine holds an entry above FLOOR (R204). -/
def HeapEng.hasAbove (e : HeapEng) : Bool := e.entries.any fun x => absUnits e.floor < absUnits x.v

/-- Whether a sum in units of 2^-149 is below an FP64 tolerance, exactly. -/
def belowTol (acc : Nat) (tol : BitVec 64) : Bool :=
  match FVal.of fp64 tol.toNat with
  | .fin _ m e =>
    let q := min e (-149)
    acc * 2 ^ (-149 - q).toNat < m * 2 ^ (e - q).toNat
  | _ => false

/-- One wave: what every engine reports, and whether its conditions hold. -/
def State.readWave (s : State) (l : Launch) (h : HeapBinding) : Wave :=
  let es := h.quires.map s.eng
  let sent := es.foldl (fun t e => t + e.sent) 0
  let recv := es.foldl (fun t e => t + e.recv) 0
  { sent := sent, recv := recv, accs := es.map (·.acc)
    good := l.halted == l.wids && sent == recv && es.all fun e => e.running.isEmpty }

/-- The dump at termination: written up to its first fault (R210). -/
def State.unitDump (s : State) (ctx : Nat) (va : Word) : List Word → State × Bool
  | [] => (s, false)
  | w :: ws =>
    match s.unitSite ctx .user .store 0 va with
    | .error _ => (s, true)
    | .ok site => if site.kind ≤ 2 then (s.unitWrite site (leBytes 8 w.toNat)).unitDump ctx (va + 8) ws else (s, true)

/-- The end of a heap (R209): dump, RESIDUAL and RESULT, unbinding. The stores of its tasks have been delivered. -/
def State.endHeap (s : State) (n : Nat) (l : Launch) (h : HeapBinding) (outcome : Nat) : State :=
  let s := s.deliverCtx l.ctx
  let recs := s.dumpRecords h
  let residual := accFp64 (s.heapSum h)
  let (s, bad) := if h.dumpAddr = 0 then (s, false) else s.unitDump l.ctx h.dumpAddr (recs.take h.dumpCap.toNat)
  let s := (s.unitStore64 l.ctx (h.desc + 0x58) residual).getD s
  let s := (s.writeResult l h (resultWord recs.length bad outcome)).unbindHeap h
  s.setLaunch n { l with heap := some { h with bound := false, ended := true, wave := none } }

/-- A wave of the heap coordinator (R208): two equal good waves end the heap. -/
def execTerminationWave (launch : Nat) (s : State) : Out :=
  event s <|
    match s.launch launch, s.heapOf launch with
    | some l, some h =>
      let es := h.quires.map s.eng
      if l.aborted ∨ (s.ctx l.ctx).inn = false then none
      else if es.any fun e => e.running.isEmpty && !e.hasAbove then
        let w := s.readWave l h
        if w.good = true ∧ h.wave = some w then
          if belowTol (s.heapSum h) (es.headD HeapEng.reset).tol then some (s.endHeap launch l h 1)
          else if es.all fun e => !e.hasAbove then some (s.endHeap launch l h 2)
          else some (s.setLaunch launch { l with heap := some { h with wave := some w } })
        else some (s.setLaunch launch { l with heap := some { h with wave := some w } })
      else none
    | _, _ => none

/-- The end of an aborted heap once its tasks and WIDs have ended (R211). -/
def execHeapAbortUnbind (launch : Nat) (s : State) : Out :=
  event s <|
    match s.launch launch, s.heapOf launch with
    | some l, some h =>
      if l.aborted = true ∧ s.launchBusy launch = false then some ((s.abortHeap l h).dropLaunch launch) else none
    | _, _ => none

end Sys2Proof.Machine
end

