-- ==== Sys2Proof/Machine/Sync.lean ====
section
/-! DEFINITION. Atomics (R285, R328 to R332), WAITV and its monitor (R65, R432), barriers (R62 to R64, R335 to R337). -/

namespace Sys2Proof.Machine

/-! Atomics. -/

/-- What an atomic leaves at its site, from the old value and the operand, both below 2^(8n). -/
abbrev AtFn := Nat → Nat → Nat

/-- An atomic of n bytes on s[a] with operand s[b]: `ext` extends the old value into d (R329). -/
def atomic (n : Nat) (pcie : Bool) (f : AtFn) (ext : Nat → Word) (d a b : SReg) (sem : Sem) (sc : Scope) (s : State) : Out :=
  finish s <| do
    let x := (s.rs b).toNat % 2 ^ (8 * n)
    let (old, s) ← s.rmw (s.rs a) n sem sc pcie fun o => f o x
    .ok ((s.ws d (ext old) s.cycle).retire 1)

/-- Signed minimum and maximum on w bits. -/
def sMin (w : Nat) : AtFn := fun o x => if (BitVec.ofNat w x).slt (BitVec.ofNat w o) then x else o
def sMax (w : Nat) : AtFn := fun o x => if (BitVec.ofNat w o).slt (BitVec.ofNat w x) then x else o
/-- INCW and DECW (R285). -/
def incw : AtFn := fun o x => if x ≤ o then 0 else o + 1
def decw : AtFn := fun o x => if o = 0 ∨ x < o then x else o - 1

/-- d receives the old value of 8 bytes, of 4 bytes sign-extended, of 4 bytes zero-extended. -/
def ext64 (x : Nat) : Word := BitVec.ofNat 64 x
def extS32 (x : Nat) : Word := sextN 32 x
def extZ32 (x : Nat) : Word := zextN 32 x

def execAtAAdd (d a b : SReg) (sem : Sem) (sc : Scope) (s : State) : Out := atomic 8 true (· + ·) ext64 d a b sem sc s
def execAtAAnd (d a b : SReg) (sem : Sem) (sc : Scope) (s : State) : Out := atomic 8 false (· &&& ·) ext64 d a b sem sc s
def execAtAOr (d a b : SReg) (sem : Sem) (sc : Scope) (s : State) : Out := atomic 8 false (· ||| ·) ext64 d a b sem sc s
def execAtAXor (d a b : SReg) (sem : Sem) (sc : Scope) (s : State) : Out := atomic 8 false (· ^^^ ·) ext64 d a b sem sc s
def execAtASwap (d a b : SReg) (sem : Sem) (sc : Scope) (s : State) : Out := atomic 8 true (fun _ x => x) ext64 d a b sem sc s
def execAtAMin (d a b : SReg) (sem : Sem) (sc : Scope) (s : State) : Out := atomic 8 false (sMin 64) ext64 d a b sem sc s
def execAtAMax (d a b : SReg) (sem : Sem) (sc : Scope) (s : State) : Out := atomic 8 false (sMax 64) ext64 d a b sem sc s
def execAtAFadd (d a b : SReg) (sem : Sem) (sc : Scope) (s : State) : Out :=
  atomic 8 false (fun o x => (fAddBits fp64 0 o x).1) ext64 d a b sem sc s
def execAtWAdd (d a b : SReg) (sem : Sem) (sc : Scope) (s : State) : Out := atomic 4 true (· + ·) extS32 d a b sem sc s
def execAtWAnd (d a b : SReg) (sem : Sem) (sc : Scope) (s : State) : Out := atomic 4 false (· &&& ·) extS32 d a b sem sc s
def execAtWOr (d a b : SReg) (sem : Sem) (sc : Scope) (s : State) : Out := atomic 4 false (· ||| ·) extS32 d a b sem sc s
def execAtWXor (d a b : SReg) (sem : Sem) (sc : Scope) (s : State) : Out := atomic 4 false (· ^^^ ·) extS32 d a b sem sc s
def execAtWSwap (d a b : SReg) (sem : Sem) (sc : Scope) (s : State) : Out := atomic 4 true (fun _ x => x) extS32 d a b sem sc s
def execAtWMin (d a b : SReg) (sem : Sem) (sc : Scope) (s : State) : Out := atomic 4 false (sMin 32) extS32 d a b sem sc s
def execAtWMax (d a b : SReg) (sem : Sem) (sc : Scope) (s : State) : Out := atomic 4 false (sMax 32) extS32 d a b sem sc s
def execAtWFadd (d a b : SReg) (sem : Sem) (sc : Scope) (s : State) : Out :=
  atomic 4 false (fun o x => (fAddBits fp32 0 o x).1) extS32 d a b sem sc s
def execAtNMinn (d a b : SReg) (sem : Sem) (sc : Scope) (s : State) : Out := atomic 8 false min ext64 d a b sem sc s
def execAtNMaxn (d a b : SReg) (sem : Sem) (sc : Scope) (s : State) : Out := atomic 8 false max ext64 d a b sem sc s
def execAtNIncw (d a b : SReg) (sem : Sem) (sc : Scope) (s : State) : Out := atomic 4 false incw extZ32 d a b sem sc s
def execAtNDecw (d a b : SReg) (sem : Sem) (sc : Scope) (s : State) : Out := atomic 4 false decw extZ32 d a b sem sc s
def execAtNFmin (d a b : SReg) (sem : Sem) (sc : Scope) (s : State) : Out :=
  atomic 8 false (fun o x => (fMinBits fp64 o x).1) ext64 d a b sem sc s
def execAtNFmax (d a b : SReg) (sem : Sem) (sc : Scope) (s : State) : Out :=
  atomic 8 false (fun o x => (fMaxBits fp64 o x).1) ext64 d a b sem sc s

/-- AT.CAS: x where the old value is s[d] (R328). -/
def execAtCas (d a b : SReg) (sem : Sem) (sc : Scope) (s : State) : Out :=
  atomic 8 true (fun o x => if o = (s.rs d).toNat then x else o) ext64 d a b sem sc s

/-- A register pair as a 128-bit number, the lower register low. -/
def State.pair (s : State) (r : SReg) : Nat := (s.rs r).toNat + 2 ^ 64 * (s.rs (pairReg r)).toNat

/-- AT.CAS2 (R332). -/
def execAtCas2 (d a b : SReg) (sem : Sem) (sc : Scope) (s : State) : Out :=
  finish s <| do
    let want := s.pair d
    let new := s.pair b
    let (old, s) ← s.rmw (s.rs a) 16 sem sc true fun o => if o = want then new else o
    let s := s.ws d (BitVec.ofNat 64 old) s.cycle
    .ok ((s.ws (pairReg d) (BitVec.ofNat 64 (old / 2 ^ 64)) s.cycle).retire 1)

/-! WAITV (R65, R432). -/

/-- The site of a WAITV, by the placement table of R65. -/
def State.waitvSite (s : State) (ea : Word) (n : Nat) : Except Stop (Site × State) := do
  need (ea.toNat % n == 0) 0x03 ea
  let (site, s) ← s.translate .load ea
  match site.kind with
  | 3 => trapV 0x06 ea
  | 5 => trapV 0x06 ea
  | 6 =>
    match s.bankAt s.myQuire site.off n with
    | .scratch => .ok ()
    | .fifo => trapV 0x06 ea
    | .refused => trapV 0x05 ea
    | .busy => block
  | _ => .ok ()
  s.siteReadable ea site n
  .ok (site, s)

/-- The reading of a WAITV at its site (R65, R160): the thread's own stores have reached it, and the line leaves the L1. -/
def State.waitvRead (s : State) (site : Site) (n : Nat) : Nat × State :=
  let s := (s.pinTouched s.cur (BitVec.ofNat 64 site.key)).deliverLine s.myCore site.key
  let s := if site.atHome then s.cohAtomic site.key n site.grain else s
  (natAt s.mem site.key n, s.l1Drop s.myCore site.key)

/-- WAITV: returns at once on another value, else arms the thread's monitor. -/
def State.waitv (s : State) (n : Nat) (d a b : SReg) (sem : Sem) (sc : Scope) : Act? := do
  let (site, s) ← s.waitvSite (s.rs a) n
  let (v, s) := s.waitvRead site n
  if v ≠ (s.rs b).toNat % 2 ^ (8 * n) then
    let s := s.acquireIf sem sc
    .ok ((s.ws d (BitVec.ofNat 64 v) s.cycle).retire 1)
  else
    let t := s.th
    let limit := if t.waitLimit = 0 then none else some (s.cycle + t.waitLimit.toNat)
    .ok { s.setTh { t with wait := .waitv d (s.rs a) n sem sc limit } with
            monitors := tput s.monitors s.cur { key := site.key, hit := false } }

def execWaitv (d a b : SReg) (sem : Sem) (sc : Scope) (s : State) : Out := finish s (s.waitv 8 d a b sem sc)
def execWaitvW (d a b : SReg) (sem : Sem) (sc : Scope) (s : State) : Out := finish s (s.waitv 4 d a b sem sc)

/-- An armed WAITV returns with a fresh read of its word; where the word can no longer be read it issues again. -/
def State.waitvReturn (s : State) (d : SReg) (va : Word) (n : Nat) (sem : Sem) (sc : Scope) : State :=
  let s := { s with monitors := terase s.monitors s.cur }
  match s.waitvSite va n with
  | .error _ => s.setTh { s.th with wait := .none }
  | .ok (site, s) =>
    let (v, s) := s.waitvRead site n
    let s := s.acquireIf sem sc
    (s.ws d (BitVec.ofNat 64 v) s.cycle).retire 1

/-- A WAITE of the issuing thread returns (R414). -/
def State.waiteReturn (s : State) : State := (s.setTh { s.th with packet := false }).retire 1

/-- A thread that waits in WAITV or in WAITE returns for a context event (R65, R414); any other thread goes on as it is. -/
def State.contextEvent (s : State) (thread : Nat) : State :=
  match (s.thr thread).wait with
  | .waitv d va n sem sc _ => s.asThread thread fun s => s.waitvReturn d va n sem sc
  | .waite _ => s.asThread thread State.waiteReturn
  | _ => s

/-- A wake of an armed WAITV by a write to its monitor unit, or spuriously (R65). A thread whose monitor has been hit returns at
its next issue slot too. -/
def execWaitvWake (thread : Nat) (s : State) : Out :=
  event s <|
    match (s.thr thread).wait with
    | .waitv d va n sem sc _ => some (s.asThread thread fun s => s.waitvReturn d va n sem sc)
    | _ => none

/-- WAITLIMIT of a WAITV or a WAITE expires (R51, R65, R414). -/
def execWaitlimitExpiry (thread : Nat) (s : State) : Out :=
  event s <|
    match (s.thr thread).wait with
    | .waitv d va n sem sc (some t) =>
      if t ≤ s.cycle then some (s.asThread thread fun s => s.waitvReturn d va n sem sc) else none
    | .waite (some t) =>
      if t ≤ s.cycle then some (s.asThread thread State.waiteReturn) else none
    | _ => none

/-! Barrier objects (R62). -/

/-- The fields of a barrier object. -/
structure Bar where
  phase    : Nat
  arrived  : Nat
  expected : Nat
  pending  : Nat
deriving DecidableEq, Repr

/-- The object in 16 bytes. -/
def Bar.ofNat (x : Nat) : Bar where
  expected := x % 2 ^ 20
  arrived := x / 2 ^ 20 % 2 ^ 20
  phase := x / 2 ^ 40 % 2 ^ 24
  pending := x / 2 ^ 64 % 2 ^ 40

/-- The 16 bytes of an object. -/
def Bar.toNat (b : Bar) : Nat :=
  b.expected % 2 ^ 20 + 2 ^ 20 * (b.arrived % 2 ^ 20) + 2 ^ 40 * (b.phase % 2 ^ 24) + 2 ^ 64 * (b.pending % 2 ^ 40)

/-- Advance (R63). -/
def Bar.advance (b : Bar) : Bar :=
  if b.arrived = b.expected ∧ b.pending = 0 then { b with arrived := 0, phase := (b.phase + 1) % 2 ^ 24 } else b

/-- The checks of a BAR instruction on its object (R335): its site and state. -/
def State.barSite (s : State) (ea : Word) : Except Stop (Site × State) := do
  need (ea.toNat % 16 == 0) 0x03 ea
  let (site, s) ← s.translate .atomic ea
  match site.kind with
  | 0 => .ok ()
  | 1 => .ok ()
  | 6 =>
    match s.bankAt s.myQuire site.off 16 with
    | .scratch => .ok ()
    | .fifo => trapV 0x06 ea
    | .refused => trapV 0x05 ea
    | .busy => block
  | _ => trapV 0x06 ea
  s.siteReadable ea site 16
  .ok (site, s.deliverLine s.myCore site.key)

/-- The scope of a BAR operation's release or acquire (R64). -/
def barScope (site : Site) : Scope := if site.kind = 6 then .quire else .device

def State.barAt (s : State) (site : Site) : Bar := Bar.ofNat (natAt s.mem site.key 16)

/-- A reading of BAR.WAIT, an atomic read (R63, R160, R166): the home performs it on its own copy, and the line leaves the L1. -/
def State.barRead (s : State) (site : Site) : State :=
  (if site.atHome then s.cohAtomic site.key 16 site.grain else s).l1Drop s.myCore site.key

/-- The object is written as one atomic act. -/
def State.barPut (s : State) (site : Site) (b : Bar) : State :=
  (s.unitWrite site (leBytes 16 b.toNat)).l1Drop s.myCore site.key

/-- A waiting BAR.WAIT of the issuing thread reads its object again: it returns, an acquire (R63, R64), once the object has left the phase
that it was given. Each reading translates its address again, so that none goes on through a removed translation (R159); where the object can no longer be
read, or lies elsewhere, the instruction issues again. -/
def State.barReturn (s : State) (d : SReg) (va : Word) (key ph : Nat) : Option State :=
  match s.barSite va with
  | .error _ => some (s.setTh { s.th with wait := .none })
  | .ok (site, s) =>
    if site.key ≠ key then some (s.setTh { s.th with wait := .none })
    else
      let s := s.barRead site
      let x := s.barAt site
      if x.phase ≠ ph then some (((s.acquire (barScope site)).ws d (BitVec.ofNat 64 x.phase) s.cycle).retire 1) else none

/-- An outstanding WAIT of the issuing thread on an object that INIT writes anew returns the new phase, 0, an acquire (R63, R64); where
its address no longer leads to the object (R159) it issues again. -/
def State.barAnew (s : State) (d : SReg) (va : Word) (key : Nat) : State :=
  match s.translate .atomic va with
  | .error _ => s.setTh { s.th with wait := .none }
  | .ok (site, s) =>
    if site.key ≠ key then s.setTh { s.th with wait := .none }
    else ((s.acquire (barScope site)).ws d 0 s.cycle).retire 1

/-- INIT makes every outstanding WAIT of another thread on the object return with the new phase, as part of it (R63). -/
def State.barWake (s : State) (key : Nat) : State :=
  s.threads.foldl (fun s e =>
    match (s.thr e.1).wait with
    | .barWait d va k _ =>
      if k = key ∧ e.1 ≠ s.cur then s.asThread e.1 fun s => s.barAnew d va k else s
    | _ => s) s

def execBarInit (a b : SReg) (s : State) : Out :=
  finish s <| do
    let n := (s.rs b).toNat
    let (site, s) ← s.barSite (s.rs a)
    need (decide (1 ≤ n ∧ n ≤ 1048575)) 0x01 0
    let s := s.barPut site { phase := 0, arrived := 0, expected := n, pending := 0 }
    .ok ((s.barWake site.key).retire 1)

/-- ARRIVE and ARRIVEX: bytes owed are 0 for ARRIVE. -/
def State.barArrive (s : State) (d a : SReg) (bytes : Nat) : Act? := do
  let ea := s.rs a
  let (site, s) ← s.barSite ea
  let s ← s.release (barScope site)
  let x := s.barAt site
  need (x.arrived != x.expected && decide (x.pending + bytes < 2 ^ 40)) 0x08 ea
  let y := { x with arrived := (x.arrived + 1) % 2 ^ 20, pending := x.pending + bytes }.advance
  .ok (((s.barPut site y).ws d (BitVec.ofNat 64 x.phase) s.cycle).retire 1)

def execBarArrive (d a : SReg) (s : State) : Out := finish s (s.barArrive d a 0)
def execBarArrivex (d a b : SReg) (s : State) : Out := finish s (s.barArrive d a (s.rs b).toNat)

def execBarExpect (a b : SReg) (s : State) : Out :=
  finish s <| do
    let ea := s.rs a
    let delta := (s.rs b).toInt
    let (site, s) ← s.barSite ea
    let s ← s.release (barScope site)
    let x := s.barAt site
    let n := (x.pending : Int) + delta
    need (decide (0 ≤ n)) 0x09 ea
    need (decide (n < 2 ^ 40)) 0x08 ea
    .ok ((s.barPut site { x with pending := n.toNat }.advance).retire 1)

def execBarWait (d a b : SReg) (s : State) : Out :=
  finish s <| do
    let want := (s.rs b).toNat % 2 ^ 24
    let (site, s) ← s.barSite (s.rs a)
    let s := s.barRead site
    let x := s.barAt site
    if x.phase ≠ want then
      .ok (((s.acquire (barScope site)).ws d (BitVec.ofNat 64 x.phase) s.cycle).retire 1)
    else .ok (s.setTh { s.th with wait := .barWait d (s.rs a) site.key want })

/-- A waiting BAR.WAIT finds that its phase has been left (R63). -/
def execBarWaitReturn (thread : Nat) (s : State) : Out :=
  event s <|
    match (s.thr thread).wait with
    | .barWait d va key ph =>
      (State.barReturn { s with cur := thread } d va key ph).map fun s' => { s' with cur := s.cur }
    | _ => none

end Sys2Proof.Machine
end

