-- ==== Sys2Proof/Machine/Threads.lean ====
section
/-! DEFINITION. Threads as they become free and start work (R28, R37, R38), HALT and TEND (R29, R45, R413, R417), the wired
level barriers (R27, R336). -/

namespace Sys2Proof.Machine

/-! Who may use a thread. -/

/-- A context is switched in on a quire while it holds queue slices there (R53). -/
def State.inOn (s : State) (c q : Nat) : Bool := (s.ctx c).live && (s.ctx c).inn && (s.quire q).slices.contains c

/-- Thread 3 of each core of a quire is the reserve thread while a context with handler reserve 1 is switched in there
(R38). -/
def State.reserveOn (s : State) (q : Nat) : Bool := (s.quire q).slices.any fun c => s.inOn c q && (s.ctx c).reserve
def State.isReserve (s : State) (n : Nat) : Bool := n % 4 == 3 && s.reserveOn (quireOf (coreOf n))

/-- Threads of a quire that are usable for WIDs (R38). -/
def State.usableIn (s : State) (q : Nat) : Nat := if s.reserveOn q then 576 else 768

/-- A thread held for a group in reservation (R37). -/
def State.inResv (s : State) (n : Nat) : Bool :=
  match (s.quire (quireOf (coreOf n))).resv with
  | some r => r.threads.contains n
  | none => false

def State.gangMember (s : State) (n : Nat) : Bool := s.arrays.any fun e => e.2.hasMember n

/-! Free threads. -/

/-- What stays of a thread whose work has ended: its context's step, breakpoint and trap registers, its fetched words, the
commands it left unpopped (R355) and what peers reported. -/
def Thread.ended (t : Thread) : Thread :=
  { Thread.reset with
    ctx := t.ctx, stepctl := t.stepctl, brk := t.brk, ibuf := t.ibuf
    trapCause := t.trapCause, trapPc := t.trapPc, trapVal := t.trapVal, trapFrame := t.trapFrame, trapIter := t.trapIter
    trapSub := t.trapSub, trapFrec := t.trapFrec, trapKind := t.trapKind, trapPost := t.trapPost
    trapScratch := t.trapScratch, peerFail := t.peerFail, peerDrops := t.peerDrops, removed := t.removed
    cmds := (t.cmds.filter fun c => match c.st with
      | .complete _ => c.ctx != t.ctx
      | _ => true).map fun c => { c with orphan := c.orphan || c.ctx == t.ctx } }

/-- The free usable threads of a quire that no group reserves. -/
def State.freeIn (s : State) (q : Nat) : List Nat :=
  ((upto 768).map fun i => 768 * q + i).filter fun n =>
    (s.thr n).work == .free && !s.isReserve n && !s.inResv n

/-- The group in reservation on a quire holds usable threads alone, and takes each that is free until it has as many as WIDs
(R37, R38). -/
def State.refill (s : State) (q : Nat) : State :=
  match (s.quire q).resv with
  | none => s
  | some r =>
    match s.launch r.launch with
    | none => s
    | some l =>
      let keep := r.threads.filter fun n => (s.thr n).work == .free && !s.isReserve n
      let ts := keep ++ (s.freeIn q).take (l.unitSize - keep.length)
      s.setQuire q { s.quire q with resv := some { r with threads := ts } }

/-- Every group in reservation takes the threads that have become usable. -/
def State.refillAll (s : State) : State := (upto Config.quires).foldl State.refill s

/-- A thread is free, SKIP ending with the instruction that freed it (R66); a group in reservation on its quire that still needs
threads takes it (R37). -/
def State.freeThread (s : State) (n : Nat) : State := (s.setThr n (s.thr n).endSkip.ended).refill (quireOf (coreOf n))

/-- WIDSHAPE of a launch's WIDs (R51). -/
def Launch.shape (l : Launch) : Word := BitVec.ofNat 64 (bits l.flags 46 0)

/-- A thread's registers at the start of work of a context (R28, R44): another context's registers do not stay. -/
def Thread.fresh (t : Thread) (c : Nat) : Thread :=
  if t.ctx = c then { t.ended with cmds := t.cmds } else { Thread.reset with ctx := c, cmds := t.cmds }

/-- A thread starts work: the first instruction is an acquire (R32, R44, R204). -/
def State.startThread (s : State) (n c : Nat) (f : Thread → Thread) : State :=
  let t := (s.thr n).fresh c
  let st := (s.ctx c).stackBase + BitVec.ofNat 64 (n + 1) * (s.ctx c).stackStride
  let th := (s.ctx c).stackBase + BitVec.ofNat 64 n * (s.ctx c).stackStride
  let t := (t.ws 2 st 0).ws 5 th 0
  (s.setThr n (f t)).acquireOf n

/-! Level barriers (R336). -/

/-- The group of a WID at a level. -/
def Launch.groupOf (l : Launch) (level linear : Nat) : Nat := linear / groupSize l.extents level

/-- The threads that run a WID of a group. -/
def State.groupThreads (s : State) (n : Nat) (l : Launch) (level group : Nat) : List Nat :=
  (s.threads.filter fun e => match e.2.work with
    | .wid m linear => m == n && l.groupOf level linear == group
    | _ => false).map (·.1)

/-- Threads complete a BAR.LVL: an acquire at quire scope for each. -/
def State.leaveLevel (s : State) : List Nat → State
  | [] => s
  | n :: ns => State.leaveLevel ({ (({ s with cur := n }.acquire .quire).retire 1) with cur := s.cur }) ns

/-- A barrier of a launch completes once every WID of its group has arrived or halted. -/
def State.settleLevels (s : State) (q n : Nat) : State :=
  match s.launch n with
  | none => s
  | some l =>
    (s.quire q).levels.foldl (fun s b =>
      if b.launch = n ∧ ((s.groupThreads n l b.level b.group).all fun t => b.threads.contains t) then
        let s := s.setQuire q { s.quire q with levels := (s.quire q).levels.erase b }
        s.leaveLevel b.threads
      else s) s

/-- Arrives at a wired barrier. -/
def arriveLevel (bs : List LvlBar) (n level group t : Nat) : List LvlBar :=
  match bs with
  | [] => [{ launch := n, level := level, group := group, threads := [t] }]
  | b :: rest =>
    if b.launch = n ∧ b.level = level ∧ b.group = group then { b with threads := b.threads ++ [t] } :: rest
    else b :: arriveLevel rest n level group t

/-- BAR.LVL: a release at quire scope on arrival, an acquire on return (R336). -/
def execBarLvl (b : SReg) (s : State) : Out :=
  finish s <|
    match s.th.work with
    | .wid n linear =>
      match s.launch n with
      | none => trapV 0x01 (s.rs b)
      | some l => do
        let k := (s.rs b).toNat
        need (decide (1 ≤ k ∧ k ≤ l.cores)) 0x01 (s.rs b)
        let s ← s.release .quire
        let q := s.myQuire
        let s := s.setTh { s.th with wait := .level k }
        let s := s.setQuire q { s.quire q with levels := arriveLevel (s.quire q).levels n k (l.groupOf k linear) s.cur }
        .ok (s.settleLevels q n)
    | _ => trapV 0x01 (s.rs b)

/-! HALT and TEND. -/

/-- HALT ends the thread's WID as a release at device scope (R29, R413). -/
def execHalt (s : State) : Out :=
  finish s <|
    match s.th.work with
    | .wid n _ => do
      need (!s.gangMember s.cur) 0x01 0
      let s ← s.release .device
      let s := s.freeThread s.cur
      match s.launch n with
      | none => .ok s
      | some l =>
        let s := s.setLaunch n { l with running := l.running - 1, halted := l.halted + 1 }
        let s := s.settleLevels s.myQuire n
        .ok (if l.aborted = true ∧ l.isHeap = false ∧ s.launchBusy n = false then s.dropLaunch n else s)
    | _ => illegal

/-- TEND ends a handler task or a heap task with its implied GH.DONE (R45, R206, R417). A heap task waits while a FIFO holds a
push of it, since the launch's completion covers its stores (R184; DEDUCED, log 114). -/
def execTend (s : State) : Out :=
  finish s <|
    match s.th.work with
    | .handler => do
      need (!s.gangMember s.cur) 0x01 0
      .ok (s.freeThread s.cur)
    | .heapTask l k done => do
      need (!s.gangMember s.cur) 0x01 0
      needOrWait (!s.holdsPush s.cur)
      let s ← (if done then .ok s else s.taskDone l k)
      .ok (s.freeThread s.cur)
    | _ => illegal

/-- WAITE: returns at once when a packet joined since the last one, else waits (R414). -/
def execWaite (s : State) : Out :=
  finish s <|
    if s.th.packet then .ok ((s.setTh { s.th with packet := false }).retire 1)
    else
      .ok (s.setTh { s.th with wait := .waite (if s.th.waitLimit = 0 then none else some (s.cycle + s.th.waitLimit.toNat)) })

/-- A waiting WAITE returns: a packet joined the core's queue, or spuriously (R414). -/
def execWaiteWake (thread : Nat) (s : State) : Out :=
  event s <|
    match (s.thr thread).wait with
    | .waite _ => some (s.asThread thread State.waiteReturn)
    | _ => none

end Sys2Proof.Machine
end

