-- ==== Sys2Proof/Machine/Packets.lean ====
section
/-! DEFINITION. Packets and message queues (R40 to R45, R244, R377), handler bindings (R365), the starts of handlers,
callback tasks and heap tasks (R38, R44, R106, R204), SPAWN (R405). -/

namespace Sys2Proof.Machine

/-! Room in a message queue (R42, R43, R244). -/

/-- Packets of a context on their way to a core. -/
def State.inFlight (s : State) (c k : Nat) : Nat := (s.net.filter fun p => p.ctx == c && p.dst == k).length

/-- Slots of the context's pool in a quire. -/
def Ctx.poolSlots (c : Ctx) (q : Nat) : Nat := (c.pools.find? fun p => p.quire == q).elim 0 (·.slots)

/-- Pool slots lent to the queues of a quire, those promised to packets on their way included. -/
def State.lent (s : State) (c q : Nat) : Nat :=
  (upto 192).foldl (fun n i => let k := 192 * q + i; n + ((s.mail c k).queue.length + s.inFlight c k - 64)) 0

/-- Whether the own slots or the pool have room for one more packet. -/
def State.roomFor (s : State) (c k : Nat) : Bool :=
  (s.mail c k).queue.length + s.inFlight c k < 64 || s.lent c (quireOf k) < (s.ctx c).poolSlots (quireOf k)

/-- Whether the queue itself has room now, its own slots or a lent one (R42). -/
def State.queueRoom (s : State) (c k : Nat) : Bool :=
  (s.mail c k).queue.length < 64 ||
    (upto 192).foldl (fun n i => n + ((s.mail c (192 * quireOf k + i)).queue.length - 64)) 0 <
      (s.ctx c).poolSlots (quireOf k)

/-- Threads of a context on a core. -/
def State.coreThreads (s : State) (c k : Nat) : List Thread :=
  ((upto 4).map fun i => s.thr (4 * k + i)).filter fun t => t.work != .free && t.ctx == c

/-- Whether a core accepts packets of a context (R244). -/
def State.accepts (s : State) (c k : Nat) : Bool :=
  s.inOn c (quireOf k) &&
    ((s.coreThreads c k).isEmpty || (s.coreThreads c k).any fun t => t.mode == .user && !t.halted)

/-- Packets of a context that wait in the network for a core: eight at most (R244). -/
def State.waitingFor (s : State) (c k : Nat) : Nat := (s.mail c k).deferred.length + s.inFlight c k

/-- Whether a sender may send now: queue and pool are not full, and the allowance of R244 is not used. A packet on its way counts
against the allowance, since the core may stop accepting before it arrives (R377; DEDUCED, log 115). -/
def State.maySend (s : State) (c k : Nat) : Bool := s.roomFor c k && decide (s.waitingFor c k < 8)

/-- A label that is not the callback label of the issuing thread's context, which a read of its pool header tells (R99, R106, R161). -/
def State.notCallback (s : State) (label cause : Nat) (val : Word) : Except Stop State :=
  let s := s.meetPool s.th.ctx
  if s.callbackLabel s.th.ctx = some label then .error (.trapIn s cause val) else .ok s

/-- MSG (R40, R377). -/
def execMsg (d a b : SReg) (s : State) : Out :=
  finish s <| do
    let dst := (s.rs a >>> 7).toNat
    let label := bits (s.rs a) 6 0
    let q := quireOf dst
    need (decide (dst ≤ 3071) && s.present q && s.myCtx.allowed.getLsbD q) 0x05 (s.rs a)
    let s ← s.notCallback label 0x05 (s.rs a)
    let s ← s.release (if q = s.myQuire then .quire else .device)
    needOrWait (s.maySend s.th.ctx dst)
    let p : Packet := { ctx := s.th.ctx, thread := s.cur, dst := dst, label := label, w0 := s.rs b, w1 := s.rs d
                        two := d != 0, frame := none }
    .ok (({ s with net := s.net ++ [p] } : State).retire 1)

/-- A packet joins a queue: the context's threads on the core see it at WAITE (R414). -/
def State.joinQueue (s : State) (p : Packet) : State :=
  let m := s.mail p.ctx p.dst
  let s := s.setMail p.ctx p.dst { m with queue := m.queue ++ [p] }
  (upto 4).foldl (fun s i =>
    let n := 4 * p.dst + i
    if (s.thr n).work ≠ .free ∧ (s.thr n).ctx = p.ctx then s.setThr n { s.thr n with packet := true } else s) s

/-- Whether an earlier packet of the same thread to the same core is still on its way (R41). -/
def earlierOnWay (net : List Packet) (idx : Nat) (p : Packet) : Bool :=
  (net.take idx).any fun x => x.thread == p.thread && x.dst == p.dst && x.ctx == p.ctx

/-- A packet arrives: it joins the queue, or waits in the network for a core that does not accept it (R42, R244). -/
def execPacketArrival (idx : Nat) (s : State) : Out :=
  event s <|
    match s.net[idx]? with
    | none => none
    | some p =>
      if earlierOnWay s.net idx p then none
      else
        let s := { s with net := dropNth s.net idx }
        if s.accepts p.ctx p.dst && (s.mail p.ctx p.dst).deferred.isEmpty && s.queueRoom p.ctx p.dst then some (s.joinQueue p)
        else some (s.setMail p.ctx p.dst { s.mail p.ctx p.dst with deferred := (s.mail p.ctx p.dst).deferred ++ [p] })

/-- A waiting packet is accepted once the context can take it (R244). -/
def execPacketDeferredAccept (ctx core : Nat) (s : State) : Out :=
  event s <|
    match (s.mail ctx core).deferred with
    | [] => none
    | p :: rest =>
      if s.accepts ctx core = true ∧ s.queueRoom ctx core = true then
        some ((s.setMail ctx core { s.mail ctx core with deferred := rest }).joinQueue p)
      else none

/-- HBIND (R365). -/
def execHbind (a b : SReg) (s : State) : Out :=
  finish s <| do
    need (s.rs a >>> 7 == 0) 0x01 (s.rs a)
    let label := bits (s.rs a) 6 0
    let s ← s.notCallback label 0x01 (s.rs a)
    let p := s.rs b
    need (p == 0 || tagOf p == 0) 0x01 p
    need (p == 0 || (targetOf p).toNat % 4 == 0) 0x03 (targetOf p)
    let m := s.mail s.th.ctx s.myCore
    let hs := if p = 0 then terase m.handlers label else tput m.handlers label (targetOf p)
    .ok ((s.setMail s.th.ctx s.myCore { m with handlers := hs }).retire 1)

/-- SPAWN (R405). -/
def execSpawn (a : SReg) (q : Fin 16) (s : State) : Out :=
  finish s <| do
    let s ← s.release .device
    needOrWait (decide ((s.lq s.th.ctx q).depth < 128))
    .ok ((s.lqAppend s.th.ctx q (s.rs a)).retire 1)

/-! The handler picker (R44). -/

/-- Whether a packet makes its label ready: the label is bound, or it is a callback packet (R44). -/
def Mail.bound (m : Mail) (l : Nat) : Bool := m.handlers.any fun e => e.1 == l
def Mail.ready (m : Mail) (l : Nat) : Bool := m.queue.any fun p => p.label == l && (p.frame.isSome || m.bound l)

/-- The first of n numbers after a start, in rotation, that passes a test. -/
def rotate (n start : Nat) (ok : Nat → Bool) : Option Nat :=
  (((upto n).map fun i => (start + 1 + i) % n).find? ok)

/-- Whether a context that is switched in has a ready label on a core. -/
def State.readyOn (s : State) (c k : Nat) : Bool :=
  s.inOn c (quireOf k) && !(s.ctx c).leaving && (upto 128).any fun l => (s.mail c k).ready l

/-- The context whose handler the picker of a core starts next on a thread: the first ready one after the context it started last (R44),
of those with handler reserve 1 on the reserve thread (R38). -/
def State.pickCtx (s : State) (k : Nat) (reserve : Bool) : Option Nat :=
  rotate 64 (s.core k).lastCtx fun c => s.readyOn c k && (!reserve || (s.ctx c).reserve)

/-- How far a number lies behind a start in a rotation of n. -/
def dist (n start x : Nat) : Nat := (x + n - start % n - 1) % n

/-- Whether a start on the reserve thread leaves every other ready context its start within 32 starts on the core (R46): the starts that
have passed it over, this one, and one for each context from the one started here to it in the rotation are 32 at most (DEDUCED,
log 143). -/
def State.mayReserve (s : State) (k : Nat) : Bool :=
  match s.pickCtx k true with
  | none => true
  | some x =>
    let cs := (s.quire (quireOf k)).slices.filter fun c => s.inOn c (quireOf k)
    cs.all fun c => c == x || !s.readyOn c k ||
      decide ((s.mail c k).passed + 1 + (cs.filter fun y => dist 64 x y ≤ dist 64 x c).length ≤ 32)

/-- The label it starts. -/
def Mail.pickLabel (m : Mail) : Option Nat := rotate 128 m.lastLabel m.ready

/-- The packet of a handler run: the oldest with the label that makes it ready. -/
def Mail.pickPacket (m : Mail) (l : Nat) : Option Packet :=
  m.queue.find? fun p => p.label == l && (p.frame.isSome || m.bound l)

/-! Heap dispatch (R204, R205). -/

/-- The stored entry of highest priority: the largest |v|, of equals the smallest key (R199). -/
def bestEntry : List HEntry → Option HEntry
  | [] => none
  | e :: es =>
    match bestEntry es with
    | none => some e
    | some x => if absUnits e.v < absUnits x.v then some x else some e

/-- Whether the engine of a quire offers work to a thread. -/
def State.heapWork (s : State) (q : Nat) (reserve : Bool) : Bool :=
  match (s.eng q).launch with
  | none => false
  | some n =>
    match s.launch n with
    | none => false
    | some l =>
      (s.eng q).hasAbove && !l.aborted && s.inOn l.ctx q && !(s.ctx l.ctx).leaving && (!reserve || (s.ctx l.ctx).reserve)

/-! The dispatcher's choice (R36, R37). -/

/-- Whether a launch may be served: at the head of an enabled queue, its waits seen, its engines bound, units left. -/
def State.servable (s : State) (n : Nat) (l : Launch) : Bool :=
  let x := s.lq l.ctx l.q
  x.head == some n && x.enable && !x.isHalted && !l.aborted && l.seen.all id && decide (l.nextUnit < l.units) &&
  (s.ctx l.ctx).inn && !(s.ctx l.ctx).leaving &&
  (!l.isHeap || match l.heap with
    | some h => h.bound
    | none => false)

/-- Whether a launch may use a quire. -/
def State.mayUse (s : State) (l : Launch) (q : Nat) : Bool :=
  l.mask.getLsbD q && (s.ctx l.ctx).allowed.getLsbD q && s.present q && s.inOn l.ctx q && !(s.quire q).stopped &&
  (l.cores == 0 || (decide (l.unitSize ≤ s.usableIn q) && (s.quire q).resv.isNone))

/-- The order in which launches are served: priority, then contexts and queues in rotation (R36). The rotations are kept once
for the package, not per quire (DESIGN CHOICE, log 116). -/
def State.rank (s : State) (l : Launch) : Nat :=
  (7 - l.prio) * 1024 + dist 64 s.lastServed l.ctx * 16 + dist 16 (s.ctx l.ctx).lastQ l.q

/-- The launch that the dispatchers serve next in a quire. -/
def State.pickLaunch (s : State) (q : Nat) : Option Nat :=
  let cs := s.launches.filter fun e => s.servable e.1 e.2 && s.mayUse e.2 q
  (cs.find? fun e => cs.all fun x => s.rank e.2 ≤ s.rank x.2).map (·.1)

/-! The offer of a free thread (R38). -/

/-- Whether a source has work for a thread: 0 handler picker, 1 heap engine, 2 dispatcher. -/
def State.sourceWork (s : State) (n src : Nat) : Bool :=
  let k := coreOf n
  let r := s.isReserve n
  match src with
  | 0 => (s.pickCtx k r).isSome && (!r || s.mayReserve k)
  | 1 => s.heapWork (quireOf k) r
  | _ => !r && (s.pickLaunch (quireOf k)).isSome

/-- Whether a source gets a free thread: the first in the core's rotation that has work. -/
def State.offered (s : State) (n src : Nat) : Bool :=
  (s.thr n).work == .free && n < Config.threads && !s.inResv n && s.present (quireOf (coreOf n)) &&
  (((upto 3).map fun i => ((s.core (coreOf n)).source + i) % 3).find? (s.sourceWork n)) == some src

/-- The next source in a core's rotation. A start on a reserve thread moves it too, though R38 speaks of the rotation for other
threads only (DESIGN CHOICE, log 117). -/
def State.turn (s : State) (n src : Nat) : State :=
  s.setCore (coreOf n) { s.core (coreOf n) with source := (src + 1) % 3 }

/-- A start of a context's handler on a core has passed over the other ready contexts there (R46). -/
def State.passOver (s : State) (k : Nat) : State :=
  (s.quire (quireOf k)).slices.foldl (fun s c =>
    s.setMail c k { s.mail c k with passed := if s.readyOn c k then (s.mail c k).passed + 1 else 0 }) s

/-- Takes the packet of a handler run, and notes the rotations. -/
def State.consume (s : State) (c k l : Nat) (p : Packet) : State :=
  let m := s.mail c k
  let s := (s.passOver k).setMail c k { m with queue := m.queue.erase p, lastLabel := l, passed := 0 }
  s.setCore k { s.core k with lastCtx := c }

/-- What the handler picker starts on a thread: context, label, packet. -/
def State.pickHandler (s : State) (n : Nat) : Option (Nat × Nat × Packet) :=
  let k := coreOf n
  match s.pickCtx k (s.isReserve n) with
  | none => none
  | some c =>
    match (s.mail c k).pickLabel with
    | none => none
    | some l => ((s.mail c k).pickPacket l).map fun p => (c, l, p)

/-- A handler starts (R44). -/
def execHandlerStart (thread : Nat) (s : State) : Out :=
  event s <|
    match s.offered thread 0, s.pickHandler thread with
    | true, some (c, l, p) =>
      if p.frame.isSome then none
      else
        let pc := tget 0 (s.mail c (coreOf thread)).handlers l
        let s := (s.consume c (coreOf thread) l p).turn thread 0
        some (s.startThread thread c fun t =>
          { ((((t.ws 8 p.w0 0).ws 9 p.w1 0).ws 10 (BitVec.ofNat 64 (coreOf p.thread)) 0).ws 11 (BitVec.ofNat 64 l) 0) with
            work := .handler, pc := pc })
    | _, _ => none

/-- Arguments a0 to a7 of a thread from a list. -/
def Thread.args (t : Thread) : List Word → Nat → Thread
  | [], _ => t
  | w :: ws, i => (t.ws (Fin.ofNat 64 (8 + i)) w 0).args ws (i + 1)

/-- Consecutive frame fields, none where one cannot be read. -/
def State.frameWords (s : State) (ctx : Nat) (va : Word) : Nat → Option (List Word)
  | 0 => some []
  | n + 1 =>
    match s.frameWord ctx va, s.frameWords ctx (va + 8) n with
    | some w, some ws => some (w :: ws)
    | _, _ => none

/-- The cause that the first unreadable frame field of a list meets. -/
def State.frameFault (s : State) (ctx : Nat) (vas : List Word) : Option Nat :=
  vas.findSome? fun va => match s.unitWord ctx .user va fun k => k ≤ 2 with
    | .ok _ => none
    | .error c => some c

/-- A callback task starts at its callee with the frame's arguments (R106). Where a field it needs cannot be read, its turn passes, no
task starts, and the callee frame is faulted with what the read met, as where no quire may take the task (DESIGN CHOICE, log 150). -/
def execCallbackTaskStart (thread : Nat) (s : State) : Out :=
  event s <|
    match s.offered thread 0, s.pickHandler thread with
    | true, some (c, l, p) =>
      match p.frame with
      | none => none
      | some f =>
        let s := ((s.meetFrame c (frameVa f)).consume c (coreOf thread) l p).turn thread 0
        match s.frameWord c (frameVa f), s.frameWords c (frameVa f + 0x40) 8 with
        | some callee, some as =>
          let s := s.setStatus c (frameVa f) (withState 1)
          some (s.startThread thread c fun t =>
            { (((t.ws 6 (frameVa f) 0).ws 1 (0x8000000000000000 ||| ((frameVa f).setWidth 56).setWidth 64) 0).args as 0) with
              work := .callback f, pc := targetOf callee })
        | _, _ =>
          let fields := frameVa f :: (upto 8).map fun i => frameVa f + 0x40 + BitVec.ofNat 64 (8 * i)
          some (s.crossingFault c (frameVa f) ((s.frameFault c fields).getD 0x05))
    | _, _ => none

/-- A heap task starts on a thread (R204). -/
def execHeapDispatch (thread : Nat) (s : State) : Out :=
  event s <|
    let q := quireOf (coreOf thread)
    match s.offered thread 1, (s.eng q).launch with
    | true, some n =>
      match s.launch n with
      | none => none
      | some l =>
        match l.heap, bestEntry (s.eng q).entries with
        | some h, some e =>
          let x := s.eng q
          let s := s.setEng q { x with entries := hdel x.entries e.key, running := hput x.running { e with v := 0 }
                                       acc := x.acc - absUnits e.v }
          let s := s.turn thread 1
          some (s.startThread thread l.ctx fun t =>
            { ((((t.ws 8 (BitVec.ofNat 64 e.key) 0).ws 9 (e.v.setWidth 64) 0).ws 10 e.payload 0).ws 11 0 0) with
              work := .heapTask n e.key false, pc := targetOf h.template, heapId := h.desc })
        | _, _ => none
    | _, _ => none

end Sys2Proof.Machine
end

