-- ==== Sys2Proof/Machine/Launch.lean ====
section
/-! DEFINITION. The path of a launch: its header and heap descriptor (R22 to R24, R197), its waits (R30), the binding of
its engines (R198), the starts of its WIDs (R25 to R28, R36, R37), its completion (R31) with the collator's fold (R150), and
the host's writes to launch queues (R32 to R35). -/

namespace Sys2Proof.Machine

/-! Reading and validating a header. -/

/-- Words of a context's memory from an address, each through its own translation; none where one cannot be read or is of a
kind that a test refuses. -/
def State.unitWords (s : State) (c : Nat) (kindOk : Nat → Bool) : Nat → Word → Option (List Word)
  | 0, _ => some []
  | n + 1, va =>
    match s.unitWord c .user va kindOk, s.unitWords c kindOk n (va + 8) with
    | .ok w, some ws => some (w :: ws)
    | _, _ => none

/-- The 24 words of a header, none where reason 0x01 applies. -/
def State.headerWords (s : State) (c : Nat) (hdr : Word) : Option (List Word) :=
  if hdr.toNat % 64 ≠ 0 then none else s.unitWords c (fun k => k ≤ 4) 24 hdr

/-- The 32-bit extents of a header. -/
def headerExtents (ws : List Word) : List Nat :=
  (upto 6).map fun k => bits (nth 0 ws (2 + k / 2)) (32 * (k % 2) + 31) (32 * (k % 2))

/-- The quires of a mask that are present and allowed. -/
def State.usableMask (s : State) (c : Nat) (mask : Word) : BitVec 16 :=
  mask.setWidth 16 &&& s.dev.present &&& (s.ctx c).allowed

/-- The kind that an address translates to, none where it does not translate (R152, R154). -/
def State.kindOf (s : State) (c : Nat) (va : Word) : Option Nat :=
  if canonical va = false then none
  else
    match s.leafFor 3072 c (va.toNat % 2 ^ 56) fun _ _ => true with
    | none => none
    | some (e, pb, _) => some (s.siteOf 0 (va.toNat % 2 ^ 56) e pb).kind

/-- A wait address that check 0x0A refuses. -/
def State.waitBad (s : State) (c : Nat) (a : Word) : Bool :=
  a != 0 && (a.toNat % 8 != 0 ||
    match s.unitSite c .user .load 0 a with
    | .error _ => true
    | .ok site => 5 ≤ site.kind)

/-- A heap descriptor's words, none where it is misaligned, of another kind than 0 or 1, or cannot be read (R197). -/
def State.descWords (s : State) (c : Nat) (d : Word) : Option (List Word) :=
  if d.toNat % 64 ≠ 0 then none else s.unitWords c (fun k => k ≤ 1) 16 d

/-- The 32 bytes of MAP. -/
def heapMap (ws : List Word) : List Nat := (upto 32).map fun i => bits (nth 0 ws (4 + i / 8)) (8 * (i % 8) + 7) (8 * (i % 8))

/-- Whether a heap descriptor is valid for a launch's usable quires (R197). -/
def State.descOk (s : State) (c : Nat) (quires : BitVec 16) (ws : List Word) : Bool :=
  tagOf (nth 0 ws 0) == 0 && bits (nth 0 ws 0) 1 0 == 0 &&
  !badFp32 ((nth 0 ws 2).setWidth 32) && !bit (nth 0 ws 2) 31 && bits (nth 0 ws 2) 63 32 == 0 &&
  bits (nth 0 ws 3) 62 52 != 2047 && !bit (nth 0 ws 3) 63 &&
  ((heapMap ws).all fun m => m < 16 && quires.getLsbD m) &&
  (nth 0 ws 8 == 0 || ((nth 0 ws 8).toNat % 8 == 0 &&
    match s.kindOf c (nth 0 ws 8) with
    | none => true
    | some k => k ≤ 2)) &&
  (ws.drop 10).all (· == 0)

/-- The binding that a valid descriptor asks for. -/
def heapBinding (d : Word) (ws : List Word) : HeapBinding where
  desc := d
  template := nth 0 ws 0
  tpayload := nth 0 ws 1
  floor := (nth 0 ws 2).setWidth 32
  tol := nth 0 ws 3
  map := heapMap ws
  dumpAddr := nth 0 ws 8
  dumpCap := nth 0 ws 9
  bound := false
  ended := false
  wave := none

/-- The sum of the field widths of a header. -/
def widthSum (flags : Word) (l : Nat) : Nat := (upto l).foldl (fun t k => t + widWidth flags k) 0

/-- The first failing check of a header, in the order of R24; 0 where it passes. -/
def State.headerReason (s : State) (c : Nat) (ws : List Word) : Nat :=
  let flags := nth 0 ws 1
  let l := bits flags 2 0
  let es := headerExtents ws
  let cores := bits flags 46 44
  let waits := (upto 4).map fun i => nth 0 ws (12 + 2 * i)
  if l = 0 ∨ l = 7 then 0x02
  else if ((upto 6).any fun k => if k < l then widWidth flags k == 0 || decide (32 < widWidth flags k)
      else widWidth flags k != 0) || decide (64 < widthSum flags l) then 0x03
  else if (upto 6).any fun k => if k < l then nth 0 es k == 0 || decide (2 ^ widWidth flags k < nth 0 es k)
      else nth 0 es k != 0 then 0x04
  else if l < cores ∨ 768 - (if (s.ctx c).reserve then 192 else 0) < groupSize es cores then 0x05
  else if bits (nth 0 ws 5) 63 16 ≠ 0 ∨ s.usableMask c (nth 0 ws 5) = 0 then 0x06
  else if bit flags 43 != (nth 0 ws 7 != 0) || (bit flags 43 &&
      match s.descWords c (nth 0 ws 7) with
      | none => true
      | some ds => !s.descOk c (s.usableMask c (nth 0 ws 5)) ds) then 0x07
  else if bit flags 42 ≠ (nth 0 ws 10 != 0) then 0x08
  else if (nth 0 ws 8).toNat % 8 ≠ 0 then 0x09
  else if waits.any (s.waitBad c) then 0x0A
  else if nth 0 ws 11 ≠ 0 ∨ (ws.drop 20).any (· != 0) ∨ bits flags 63 47 ≠ 0 then 0x0B
  else if tagOf (nth 0 ws 0) ≠ 0 ∨ bits (nth 0 ws 0) 1 0 ≠ 0 then 0x0C
  else 0

/-- The dispatcher's slot for a new launch (R241): the lowest that no launch has (DESIGN CHOICE, log 126). -/
def State.newSlot (s : State) : Nat :=
  ((upto (s.launches.length + 1)).find? fun k => !s.launches.any fun e => e.2.slot == k).getD 0

/-- The launch that a valid header describes. -/
def State.launchFrom (s : State) (c q : Nat) (hdr : Word) (ws : List Word) : Launch :=
  let waits := (upto 4).map fun i => (nth 0 ws (12 + 2 * i), nth 0 ws (13 + 2 * i))
  { ctx := c, q := q, hdr := hdr, entry := nth 0 ws 0, flags := nth 0 ws 1, extents := headerExtents ws
    mask := (nth 0 ws 5).setWidth 16, arg := nth 0 ws 6, compl := nth 0 ws 8, incr := nth 0 ws 9
    slice := (nth 0 ws 10).toNat, waits := waits, seen := waits.map fun w => w.1 == 0
    nextUnit := 0, running := 0, halted := 0, aborted := false, slot := s.newSlot
    heap := if bit (nth 0 ws 1) 43 then (s.descWords c (nth 0 ws 7)).map (heapBinding (nth 0 ws 7)) else none }

/-- A rejected header leaves the queue, which records the reason and halts (R24, R33, R34). -/
def State.rejectHead (s : State) (c q : Nat) (hdr : Word) (rest : List Word) (reason : Nat) : State :=
  s.setLq c q { s.lq c q with pending := rest, reason := BitVec.ofNat 8 reason, rej := true, errHdr := hdr }

/-- Whether an earlier launch of a queue is not complete yet; an aborted one has left the queue (R34, R35). -/
def State.earlierRuns (s : State) (c q : Nat) : Bool := s.launches.any fun e => e.2.ctx == c && e.2.q == q && !e.2.aborted

/-- The request for the heap descriptor that a header names. -/
def State.meetHeapDesc (s : State) (c : Nat) (ws : List Word) : State :=
  if bit (nth 0 ws 1) 43 then s.meetUnit c .user .load 0 (fun k => k ≤ 1) (nth 0 ws 7) 2 else s

/-- The site of a wait's word, with its minimum: none where it does not translate to a kind that holds one, or cannot be read (R30). -/
def State.waitSite (s : State) (l : Launch) (k : Nat) : Option (Site × Word) :=
  match l.waits[k]? with
  | none => none
  | some (a, m) =>
    match s.unitSite l.ctx .user .load 0 a with
    | .error _ => none
    | .ok site => if 5 ≤ site.kind then none else some (site, m)

/-- The dispatcher reads a wait's word: whether it has reached the minimum, none where the read fails. -/
def State.waitReached (s : State) (site : Site) (m : Word) : Option Bool :=
  if s.poisoned site.key 8 = true ∨ (site.kind = 4 ∧ s.peerServes site 8 = false) ∨ (site.kind = 3 ∧ s.portUp site.key = false) then none
  else some (decide (m ≤ wordAt s.mem site.key))

/-- The dispatcher sets a monitor on the word of a wait of kind 0, 1, 2 or 4, in the place of one it had there, and reads it (R30). -/
def State.watch (s : State) (n : Nat) (l : Launch) (k : Nat) : State :=
  match s.waitSite l k with
  | none => s
  | some (site, m) =>
    if site.kind = 3 then s
    else
      let s := s.request site
      let w : Watch := { launch := n, k := k, key := site.key, min := m, hit := (s.waitReached site m).getD false }
      { s with watches := s.watches.filter (fun w => !(w.launch == n && w.k == k)) ++ [w] }

/-- Monitors on every wait of a launch that names a word. -/
def State.watchAll (s : State) (n : Nat) : State :=
  match s.launch n with
  | none => s
  | some l => (upto 4).foldl (fun s k => if nth true l.seen k then s else s.watch n l k) s

/-- A launch reaches the head of its queue: its header is read and validated (R34). With SERIAL set it waits for the launch
before it to be complete. -/
def execLaunchHead (ctx q : Nat) (s : State) : Out :=
  event s <|
    let x := s.lq ctx q
    match x.head, x.pending with
    | none, hdr :: rest =>
      if (s.ctx ctx).inn = false ∨ (s.ctx ctx).leaving = true ∨ x.enable = false ∨ x.isHalted = true ∨ 16 ≤ q ∨
          (x.serial = true ∧ s.earlierRuns ctx q = true) then none
      else
        let s := if hdr.toNat % 64 = 0 then s.meetUnit ctx .user .load 0 (fun k => k ≤ 4) hdr 3 else s
        match s.headerWords ctx hdr with
        | none => some (s.rejectHead ctx q hdr rest 0x01)
        | some ws =>
          let s := s.meetHeapDesc ctx ws
          let r := s.headerReason ctx ws
          if r ≠ 0 then some (s.rejectHead ctx q hdr rest r)
          else
            let n := s.nextLaunch
            let s' := s.setLaunch n (s.launchFrom ctx q hdr ws)
            some ({ (s'.setLq ctx q { x with pending := rest, head := some n }) with nextLaunch := n + 1 }.watchAll n)
    | _, _ => none

/-! Waits (R30). -/

/-- Marks a wait as seen: it stays satisfied for the launch. -/
def State.sawWait (s : State) (n : Nat) (l : Launch) (k : Nat) : State := s.setLaunch n { l with seen := setNth l.seen k true }

/-- Whether a store has satisfied a wait that the dispatcher watches (R30). -/
def State.watchHit (s : State) (n k : Nat) : Bool := s.watches.any fun w => w.launch == n && w.k == k && w.hit

/-- The dispatcher sees a monitored wait satisfied: its monitor has been hit, or the word that it reads now has reached the minimum. A
wait whose page has come to name another word is watched there. -/
def execLaunchWaitSatisfied (launch k : Nat) (s : State) : Out :=
  event s <|
    match s.launch launch with
    | none => none
    | some l =>
      if s.watchHit launch k then some (s.sawWait launch l k)
      else if (s.waitSite l k).isNone then none
      else
        let s := s.watch launch l k
        some (if s.watchHit launch k then s.sawWait launch l k else s)

/-- The dispatcher polls a wait of kind 3. -/
def execKind3WaitPoll (launch k : Nat) (s : State) : Out :=
  event s <|
    match s.launch launch with
    | none => none
    | some l =>
      match s.waitSite l k with
      | none => none
      | some (site, m) =>
        if site.kind ≠ 3 then none
        else match s.waitReached site m with
          | none => none
          | some ok => some (if ok then s.sawWait launch l k else s)

/-- A validated heap-bound launch binds its engines once all are unbound (R198). The dispatcher binds none of a quire that a repair has
stopped or of a context that leaves (R234, R261). -/
def execHeapBind (launch : Nat) (s : State) : Out :=
  event s <|
    match s.launch launch with
    | none => none
    | some l =>
      match l.heap with
      | none => none
      | some h =>
        if h.bound = true ∨ h.ended = true ∨ l.aborted = true ∨ (s.ctx l.ctx).inn = false ∨
            (s.ctx l.ctx).leaving = true ∨ (h.quires.any fun q => (s.eng q).launch.isSome || (s.quire q).stopped) = true then none
        else
          let bindOne := fun (s : State) q =>
            s.setEng q { HeapEng.reset with launch := some launch, floor := h.floor, tol := h.tol }
          some ((h.quires.foldl bindOne s).setLaunch launch { l with heap := some { h with bound := true } })

/-! Starting WIDs. -/

/-- A thread starts a WID (R28). -/
def State.startWid (s : State) (n : Nat) (l : Launch) (linear thread : Nat) : State :=
  s.startThread thread l.ctx fun t =>
    { ((t.ws 8 l.arg 0).ws 9 (l.widOf linear) 0) with
      work := .wid n linear, pc := targetOf l.entry, wid := l.widOf linear, widShape := l.shape }

/-- A placement unit is handed out: the rotations of R36 move on. -/
def State.handOut (s : State) (n : Nat) (l : Launch) : State :=
  let s := s.setLaunch n { l with nextUnit := l.nextUnit + 1 }
  { (s.setCtx l.ctx { s.ctx l.ctx with lastQ := l.q }) with lastServed := l.ctx }

/-- WIDs of a launch begin to run. -/
def State.addRunning (s : State) (n k : Nat) : State :=
  match s.launch n with
  | none => s
  | some l => s.setLaunch n { l with running := l.running + k }

/-- A free thread starts a WID placed alone (R28, R37). -/
def execWidStart (launch thread : Nat) (s : State) : Out :=
  event s <|
    match s.launch launch with
    | none => none
    | some l =>
      if s.offered thread 2 = true ∧ s.pickLaunch (quireOf (coreOf thread)) = some launch ∧ l.cores = 0 then
        let s' := ((s.handOut launch l).turn thread 2).startWid launch l l.nextUnit thread
        some ((s'.addRunning launch 1).leaveHead l.ctx l.q)
      else none

/-- The WIDs of a group start on its threads as one act (R27, R37). -/
def State.startGroup (s : State) (n : Nat) (l : Launch) (first : Nat) : List Nat → Nat → State
  | [], _ => s
  | t :: ts, i => (s.startWid n l (first + i) t).startGroup n l first ts (i + 1)

/-- A level-c group is assigned to a quire, which reserves its free threads; once they suffice, the group starts (R37). Which free
threads come first, and which WID runs on which, is the model's choice: the lowest-numbered, in the order they were reserved
(DESIGN CHOICE, log 118). -/
def execGroupStart (launch quire : Nat) (s : State) : Out :=
  event s <|
    match s.launch launch with
    | none => none
    | some l =>
      match (s.quire quire).resv with
      | none =>
        if 16 ≤ quire ∨ l.cores = 0 ∨ s.pickLaunch quire ≠ some launch then none
        else
          let r : Resv := { launch := launch, unit := l.nextUnit, threads := (s.freeIn quire).take l.unitSize }
          let s' := s.handOut launch l
          some (s'.setQuire quire { s'.quire quire with resv := some r })
      | some r =>
        if r.launch ≠ launch ∨ r.threads.length < l.unitSize ∨ (s.ctx l.ctx).inn = false ∨ (s.ctx l.ctx).leaving = true ∨
            (s.lq l.ctx l.q).enable = false ∨ (s.lq l.ctx l.q).isHalted = true ∨ r.threads.any s.isReserve = true then none
        else
          let s' := s.setQuire quire { s.quire quire with resv := none }
          let s' := s'.startGroup launch l (r.unit * l.unitSize) r.threads 0
          some ((s'.addRunning launch l.unitSize).leaveHead l.ctx l.q)

/-! Completion. -/

/-- The lane operation of a collation OP (R149). -/
def collateOp : Nat → LaneOp
  | 0 => laneAdd
  | 1 => laneMin
  | 2 => laneMax
  | 3 => laneAnd
  | 4 => laneOr
  | _ => laneXor

/-- The V.A type of a code (R149, R287). -/
def typeOfCode : Nat → VType
  | 0 => .i8
  | 1 => .i16
  | 2 => .i32
  | 3 => .i64
  | 4 => .n32
  | 5 => .bf16
  | 6 => .f32
  | _ => .f64

/-- Combines two 64-byte blocks lane by lane under RNE, the first as left operand, with the flags raised. -/
def foldBlocks (o : LaneOp) (ty : VType) (a b : Vec × FFlags) : Vec × FFlags :=
  let rs := (upto (512 / vbits ty)).map fun i => o.run ty 0 (laneOf (vbits ty) a.1 i) (laneOf (vbits ty) b.1 i)
  (ofLanes (vbits ty) (rs.map (·.1)), a.2 ||| b.2 ||| rs.foldl (fun f r => f ||| r.2) 0)

/-- A fold from the left, none of an empty list. -/
def foldAll (o : LaneOp) (ty : VType) : List (Vec × FFlags) → Option (Vec × FFlags)
  | [] => none
  | x :: xs => some (xs.foldl (foldBlocks o ty) x)

/-- Contributions in increasing linear index. -/
def insertPart (x : Contribution) (xs : List Contribution) : List Contribution :=
  xs.filter (fun y => y.linear < x.linear) ++ x :: xs.filter (fun y => x.linear ≤ y.linear)
def sortParts (xs : List Contribution) : List Contribution := xs.foldl (fun l x => insertPart x l) []

/-- The slices that have a contribution, in increasing order. -/
def slicesOf (size : Nat) (xs : List Contribution) : List Nat := (xs.map fun x => x.linear / size).eraseDups

/-- The collator's result: each slice folded, then the slices (R150). -/
def collateResult (o : LaneOp) (ty : VType) (size : Nat) (parts : List Contribution) : Option (Vec × FFlags) :=
  let xs := sortParts parts
  foldAll o ty ((slicesOf size xs).filterMap fun j =>
    foldAll o ty ((xs.filter fun x => x.linear / size == j).map fun x => (x.data, 0)))

/-- The collator ends one object: result, FLAGS, unbinding (R150). It reads the object's fields through the page table as it stands now
(R159); where they can no longer be read, or a write cannot be made, it makes no such write (DESIGN CHOICE, logs 33 and 155). -/
def State.endCollation (s : State) (l : Launch) (c : Collation) : State :=
  let s := { s with collations := s.collations.filter fun x => !(x.key == c.key) }
  let s := s.meetUnit c.ctx .user .load 0 (fun k => k ≤ 1) c.va 1
  match s.unitWords c.ctx (fun k => k ≤ 1) 3 c.va with
  | none => s
  | some ws =>
    match collateResult (collateOp (bits (nth 0 ws 1) 3 0)) (typeOfCode (bits (nth 0 ws 1) 6 4)) l.slice c.parts with
    | none => s
    | some (v, f) =>
      let s := match s.unitSite c.ctx .user .store 0 (nth 0 ws 0) with
        | .ok site => if site.kind ≤ 2 then s.unitWrite site (leBytes 64 v.toNat) else s
        | .error _ => s
      (s.unitStore64 c.ctx (c.va + 0x10) (nth 0 ws 2 ||| f.setWidth 64)).getD s

/-- An atomic add of a unit to a 64-bit word, none where it faults (R31, R153). -/
def State.unitAdd64 (s : State) (ctx : Nat) (va inc : Word) : Option State :=
  match s.unitSite ctx .user .atomic 0 va with
  | .error _ => none
  | .ok site =>
    if 5 ≤ site.kind ∨ (s.request site).poisoned site.key 8 = true ∨ (site.kind = 4 ∧ s.peerServes site 8 = false) ∨
        (site.kind = 3 ∧ (s.portUp site.key = false ∨ s.turnsAway site.key 8 false = true)) then none
    else some (s.unitWrite site (leBytes 8 (wordAt s.mem site.key + inc).toNat))

/-- A launch is complete (R31): the collator ends its objects, the increment is added, the queue counts it. The add covers every
store of its WIDs and heap tasks (R184). An abort that comes after the heap of a launch has ended stops nothing of it (R209). -/
def execLaunchComplete (launch : Nat) (s : State) : Out :=
  event s <|
    match s.launch launch with
    | none => none
    | some l =>
      let ended := (l.heap.map (·.ended)).getD false
      let heapDone := (l.heap.map (·.ended)).getD true
      if (l.aborted = true ∧ ended = false) ∨ s.allOut launch l = false ∨ l.halted ≠ l.wids ∨ heapDone = false ∨
          s.launchBusy launch = true then none
      else
        let s := s.deliverCtx l.ctx
        let s := (s.collations.filter fun c => c.launch == launch).foldl (fun s c => s.endCollation l c) s
        let s := if l.compl = 0 then s
          else match (s.meetUnit l.ctx .user .atomic 0 (fun k => k ≤ 4) l.compl 1).unitAdd64 l.ctx l.compl l.incr with
            | some s' => s'
            | none => s.completionFault l
        let x := s.lq l.ctx l.q
        let s := s.setLq l.ctx l.q { x with done := x.done + 1, head := if x.head = some launch then none else x.head }
        some (s.dropLaunch launch)

/-! The host's accesses to launch pages (R32 to R35). -/

/-- Whether a store of the host to a launch page reaches the device: a port has trained, and the start is not a minimal one (R249, R260). -/
def State.pageServed (s : State) : Bool := s.dev.ports != 0 && s.dev.state != 2

/-- The host stores to LQPUSH. -/
def execLqpush (ctx q : Nat) (hdr : Word) (s : State) : Out :=
  event s (if q < 16 ∧ s.pageServed = true then some (s.pageWrite ctx (0x40 * q) hdr) else none)

/-- The host writes 1 to LQCTL.ABORT and leaves the other fields as they are. -/
def execLqctlAbort (ctx q : Nat) (s : State) : Out :=
  event s <|
    if q < 16 ∧ s.pageServed = true then
      let x := s.lq ctx q
      let w : Word := BitVec.ofNat 64 (4 + (if x.serial then 2 else 0) + (if x.enable then 1 else 0))
      some (s.pageWrite ctx (0x40 * q + 8) w)
    else none

/-- The host writes LQSTAT. -/
def execLqstatClear (ctx q : Nat) (v : Word) (s : State) : Out :=
  event s (if q < 16 ∧ s.pageServed = true then some (s.pageWrite ctx (0x40 * q + 0x10) v) else none)

end Sys2Proof.Machine
end

