-- ==== Sys2Proof/Machine/Tiles.lean ====
section
/-! DEFINITION. The tile table (R57 to R59, R419, R420): TL instructions, the order of waiting instructions, and the ends
of a producer's and a consumer's work. -/

namespace Sys2Proof.Machine

/-- The waiters of a tile whose instructions still wait. -/
def State.liveWaiters (s : State) (t : Tile) : List (Nat × List TileSt) := t.waiters.filter fun w => (s.thr w.1).wait == .retry

/-- Whether the issuing thread is the first among those that wait for a state of a tile (R58). -/
def State.firstFor (s : State) (t : Tile) (st : TileSt) : Bool :=
  match (s.liveWaiters t).find? fun w => w.2.contains st with
  | none => true
  | some w => w.1 == s.cur

/-- Whether a tile is in a state and the issuing thread may take it now. -/
def State.tileIs (s : State) (n : Nat) (st : TileSt) : Bool :=
  let t := (s.core s.myCore).tile s.th.ctx n
  t.st == st && s.firstFor t st

/-- The issuing thread's tile: descriptor n of its core and context (R57). -/
def State.myTile (s : State) (n : Nat) : Tile := (s.core s.myCore).tile s.th.ctx n
def State.setMyTile (s : State) (n : Nat) (t : Tile) : State :=
  s.setCore s.myCore ((s.core s.myCore).setTile s.th.ctx n t)

/-- The issuing thread no longer waits at a tile. -/
def State.unwaitTile (s : State) (n : Nat) : State :=
  let t := s.myTile n
  if t.waiters.any fun w => w.1 == s.cur then s.setMyTile n { t with waiters := t.waiters.filter fun w => w.1 != s.cur } else s

/-- A thread's wait at a tile among the others, in issue order (R58): a thread that waits already keeps its place unless it comes to wait
for another state. -/
def listWaiter (ws : List (Nat × List TileSt)) (n : Nat) (sts : List TileSt) : List (Nat × List TileSt) :=
  match ws.find? fun w => w.1 == n with
  | none => ws ++ [(n, sts)]
  | some w =>
    if w.2 = [] ∨ sts = [] ∨ w.2 = sts then ws.map fun x => if x.1 = n then (n, sts) else x
    else (ws.filter fun x => x.1 != n) ++ [(n, sts)]

/-- A core at whose tiles a thread does not wait. -/
def Core.leaveTiles (c : Core) (n : Nat) : Core :=
  { c with tiles := tmap Tile.reset (fun t => { t with waiters := t.waiters.filter fun w => w.1 != n }) c.tiles }

/-- A thread waits at no tile of its core any more. -/
def State.leaveTiles (s : State) (n : Nat) : State :=
  let c := s.core (coreOf n)
  if c.tiles.any fun e => e.2.waiters.any fun w => w.1 == n then s.setCore (coreOf n) (c.leaveTiles n) else s

/-- A thread stands in no list of waiting instructions any more: not at a tile (R58), not at a FIFO (R56). -/
def State.leaveWaits (s : State) (n : Nat) : State := (s.leaveTiles n).dropLoads n []

/-- The issuing thread waits for some states of each tile that its instruction names; its place is that of the first time the
instruction waited there (R58), and it issues again. With no state it keeps a place and waits for none: what its instruction waits for
is elsewhere (R59). It waits at no other tile. -/
def State.waitTiles (s : State) (ws : List (Nat × List TileSt)) : State :=
  let c := s.core s.myCore
  let list := fun (x : Core) (w : Nat × List TileSt) =>
    let t := c.tile s.th.ctx w.1
    x.setTile s.th.ctx w.1 { t with waiters := listWaiter (s.liveWaiters t) s.cur w.2 }
  (s.setCore s.myCore (ws.foldl list (c.leaveTiles s.cur))).setTh { s.th with wait := .retry }

/-- The issuing thread waits for one of some states of a tile. -/
def State.waitTile (s : State) (n : Nat) (sts : List TileSt) : State := s.waitTiles [(n, sts)]

/-- A tile changes state, and the issuing thread leaves its waiters. -/
def State.moveTile (s : State) (n : Nat) (st : TileSt) : State :=
  let s := s.unwaitTile n
  s.setMyTile n { s.myTile n with st := st, landed := false }

/-- Every TL form names its tile in s[a] (R419). -/
def State.tileNo (s : State) (a : SReg) : Except Stop Nat := do
  need (decide ((s.rs a).toNat ≤ 31)) 0x01 (s.rs a)
  .ok (s.rs a).toNat

def tileWord (n : Nat) : Word := BitVec.ofNat 64 n

/-- TL.ALLOC: its checks, then free becomes empty (R419). Like an access, it waits while the bank switches roles (R54; DEDUCED,
log 110). -/
def execTlAlloc (a b : SReg) (s : State) : Out :=
  finish s <| do
    let n ← s.tileNo a
    let x := s.rs b
    let base := bits x 17 0
    let len := bits x 34 18
    need (bits x 63 35 == 0 && base % 64 == 0 && len % 64 == 0 && decide (64 ≤ len ∧ len ≤ 65536)) 0x01 x
    let off := s.myCore % 192 * Config.coreBytes + base
    needOrWait (!(s.core s.myCore).busy.getLsbD (base / Config.bankBytes))
    need (base / Config.bankBytes == (base + len - 1) / Config.bankBytes &&
      (s.core s.myCore).role (base / Config.bankBytes) == 1 && !s.inPool s.myQuire off len) 0x01 x
    need ((s.myTile n).st == .free) 0x07 (tileWord n)
    .ok ((s.setMyTile n { base := base, len := len, st := .empty, landed := false, waiters := [] }).retire 1)

/-- TL.FREE: empty or ready becomes free; filling and draining are waited for (R419, R420). -/
def execTlFree (a : SReg) (s : State) : Out :=
  finish s <| do
    let n ← s.tileNo a
    match (s.myTile n).st with
    | .free => trapV 0x07 (tileWord n)
    | st =>
      if (st = .ready ∨ st = .empty) ∧ s.tileIs n st = true then .ok (((s.moveTile n .free).acquire .quire).retire 1)
      else .ok (s.waitTile n [.ready, .empty])

/-- The code of a tile state (R419). -/
def TileSt.code : TileSt → Nat
  | .free => 0
  | .empty => 1
  | .filling => 2
  | .ready => 3
  | .draining => 4

def tileStOf : Nat → TileSt
  | 1 => .empty
  | 2 => .filling
  | 3 => .ready
  | 4 => .draining
  | _ => .free

def execTlState (d a : SReg) (s : State) : Out :=
  finish s <| do
    let n ← s.tileNo a
    .ok ((s.ws d (BitVec.ofNat 64 (s.myTile n).st.code) 0).retire 1)

/-- TL.WAIT: an acquire when it issues on the state (R59, R419). -/
def execTlWait (a b : SReg) (s : State) : Out :=
  finish s <| do
    let n ← s.tileNo a
    let c := (s.rs b).toNat
    need (decide (1 ≤ c ∧ c ≤ 4)) 0x01 (s.rs b)
    need ((s.myTile n).st != .free) 0x07 (tileWord n)
    if s.tileIs n (tileStOf c) then .ok (((s.unwaitTile n).acquire .quire).retire 1)
    else .ok (s.waitTile n [tileStOf c])

/-- A producer's last write or a consumer's last read of a tile of a context is done (R58): the tile may change. -/
def State.landTile (s : State) (core ctx n : Nat) : State :=
  let c := s.core core
  let t := c.tile ctx n
  if t.st = .filling ∨ t.st = .draining then s.setCore core (c.setTile ctx n { t with landed := true }) else s

/-- A filling tile becomes ready (R58). `tile` counts the descriptors of a core: number n of context c is 32 c + n. -/
def execTileReady (core tile : Nat) (s : State) : Out :=
  event s <|
    let c := s.core core
    let t := c.tile (tile / 32) (tile % 32)
    if t.st = .filling ∧ t.landed = true then some (s.setCore core (c.setTile (tile / 32) (tile % 32) { t with st := .ready, landed := false }))
    else none

/-- A draining tile becomes empty (R58). -/
def execTileEmpty (core tile : Nat) (s : State) : Out :=
  event s <|
    let c := s.core core
    let t := c.tile (tile / 32) (tile % 32)
    if t.st = .draining ∧ t.landed = true then some (s.setCore core (c.setTile (tile / 32) (tile % 32) { t with st := .empty, landed := false }))
    else none

end Sys2Proof.Machine
end

