-- ==== Sys2Proof/Machine/Engines.lean ====
section
/-! DEFINITION. The engines as FIFOs (R60, R61): ENQ (R349, R350), DEQ (R344) and the commands COPY, FILL, GATHER, SCATTER,
COLLATE and ALLRED (R149, R150, R253, R351 to R355). An engine acts with user rights of the command's context, in the quire
of the thread that pushed it. -/

namespace Sys2Proof.Machine

/-! ENQ and DEQ. -/

/-- The fields of the command word and the tag word (R349). -/
def cmdScope (a : Word) : Nat := bits a 63 62
def cmdDesc (a : Word) : Word := (BitVec.ofNat 56 (bits a 55 6 * 64)).signExtend 64
def cmdCode (a : Word) : Nat := bits a 5 0
def tagSv (b : Word) : Bool := bit b 63
def tagStile (b : Word) : Nat := bits b 62 58
def tagDv (b : Word) : Bool := bit b 57
def tagDtile (b : Word) : Nat := bits b 56 52

/-- The scope a command releases at. -/
def scopeOf : Nat → Scope
  | 1 => .quire
  | 2 => .device
  | 3 => .system
  | _ => .thread

/-- Entries of a thread's FIFO for an engine (R60). -/
def Thread.queued (t : Thread) (e : Engine) : Nat :=
  (t.cmds.filter fun c => c.engine == e && (c.orphan || c.ctx == t.ctx)).length

/-- The checks of R350 on the two words. -/
def State.enqCheck (s : State) (e : Engine) (a b : Word) : Except Stop Unit := do
  need (cmdScope a != 0 && bits a 61 56 == 0 && decide (cmdCode a ≤ 1)) 0x01 a
  need (bits b 51 48 == 0 && !((tagSv b || tagDv b) && e != .copy) && !(tagSv b && cmdCode a == 1) &&
    !(tagSv b && tagDv b && tagStile b == tagDtile b)) 0x01 b
  need (!tagSv b || (s.myTile (tagStile b)).st != .free) 0x07 (tileWord (tagStile b))
  need (!tagDv b || (s.myTile (tagDtile b)).st != .free) 0x07 (tileWord (tagDtile b))

/-- ENQ (R350): it waits until the FIFO has room and both tiles stand as needed, then pushes and moves them as one act. -/
def execEnq (e : Engine) (a b : SReg) (s : State) : Out :=
  finish s <| do
    let x := s.rs a
    let y := s.rs b
    s.enqCheck e x y
    let okS := !tagSv y || s.tileIs (tagStile y) .ready
    let okD := !tagDv y || s.tileIs (tagDtile y) .empty
    if okS && okD && decide (s.th.queued e < 8) then
      let s ← s.release (scopeOf (cmdScope x))
      let s := if tagSv y then s.moveTile (tagStile y) .draining else s
      let s := if tagDv y then s.moveTile (tagDtile y) .filling else s
      let s := if tagSv y || tagDv y then s.acquire .quire else s
      let c : Cmd := { engine := e, ctx := s.th.ctx, work := s.th.work, a := x, b := y, st := .pending, orphan := false }
      .ok ((s.setTh { s.th with cmds := s.th.cmds ++ [c] }).retire 1)
    else
      .ok (s.waitTiles ((if tagSv y then [(tagStile y, if okS then [] else [TileSt.ready])] else []) ++
        if tagDv y then [(tagDtile y, if okD then [] else [TileSt.empty])] else []))

/-- The result word (R61). -/
def resultOf (status : Nat) (b : Word) : Word := BitVec.ofNat 64 (status * 2 ^ 48 + bits b 47 0)

/-- Removes the first command of a test. -/
def eraseFirst (p : Cmd → Bool) : List Cmd → List Cmd
  | [] => []
  | c :: cs => if p c then cs else c :: eraseFirst p cs

/-- Whether a command is for an engine and the own of the work that a context runs on its thread: commands of a context that is
switched out stay at the engines (R234). -/
def Cmd.live (ctx : Nat) (e : Engine) (c : Cmd) : Bool := c.engine == e && !c.orphan && c.ctx == ctx

/-- DEQ (R61, R344). -/
def execDeq (d : SReg) (e : Engine) (s : State) : Out :=
  finish s <|
    match s.th.cmds.find? (Cmd.live s.th.ctx e) with
    | none => trapV 0x15 0
    | some c =>
      match c.st with
      | .complete status =>
        let s := s.setTh { s.th with cmds := eraseFirst (Cmd.live s.th.ctx e) s.th.cmds }
        let s := (s.acquire (scopeOf (cmdScope c.a))).ws d (resultOf status c.b) s.cycle
        .ok (if status = 0 then s.retire 1 else s.retireTrap 0x15 (resultOf status c.b))
      | .pending => block
      | .accepted => block

/-! Bytes of memory as an engine reaches them. -/

/-- Where a command acts: its context, the core of its thread, and whether its engine reaches the scratchpads of that core's
quire, as the copy and gather engines do (R17). -/
structure Who where
  ctx     : Nat
  core    : Nat
  tile    : Nat → Tile
  scratch : Bool

/-- In place of a status, which has 16 bits: the command reaches a bank that switches roles and waits for it (R54). -/
def bankWait : Nat := 2 ^ 16

/-- A byte's site for an engine: the status of its fault is `fault`, or 0x17 for a peer and for a write through a host port that lost
training, which R251 reports as R175 does (R351, R352; DEDUCED, log 73); a read through such a port gives poisoned data
(State.engineRead). A BUSY bank is waited for (R54). -/
def State.engineByte (s : State) (w : Who) (acc : Acc) (fault : Nat) (va : Word) : Except Nat Site :=
  match s.unitSite w.ctx .user acc (quireOf w.core) va with
  | .error _ => .error fault
  | .ok site =>
    if site.kind = 5 ∨ (site.kind = 6 ∧ w.scratch = false) then .error fault
    else if site.kind = 6 ∧ s.bankAt (quireOf w.core) site.off 1 = .busy then .error bankWait
    else if site.kind = 6 ∧ s.bankAt (quireOf w.core) site.off 1 ≠ .scratch then .error fault
    else if site.kind = 4 ∧ s.peerServes site 1 = false then .error 0x17
    else if site.kind = 3 ∧ acc ≠ .load ∧ s.portUp site.key = false then .error 0x17
    else .ok site

/-- The sites of n bytes from an address. -/
def State.engineSpan (s : State) (w : Who) (acc : Acc) (fault : Nat) (va : Word) : Nat → Except Nat (List Site)
  | 0 => .ok []
  | n + 1 => do
    let x ← s.engineByte w acc fault va
    let xs ← s.engineSpan w acc fault (va + 1) n
    .ok (x :: xs)

/-- The bytes at sites, or poisoned data (0x14), as a failed read through a host port is too (R168, R251). -/
def State.engineRead (s : State) (xs : List Site) : Except Nat (List Byte) :=
  if xs.any fun x => s.poisoned x.key 1 || (x.kind == 3 && !s.portUp x.key) then .error 0x14 else .ok (xs.map fun x => byteAt s.mem x.key)

/-- An engine reads the bytes at sites that its checks gave, or keeps the status of the check that failed: what it read, and the state
that its requests met, in which the lines have the grains that these carry (R161, R168). -/
def State.engineFetch (s : State) (r : Except Nat (List Site)) : Except Nat (List Byte) × State :=
  match r with
  | .error e => (.error e, s)
  | .ok xs => ((xs.foldl State.request s).engineRead xs, xs.foldl State.request s)

/-- Sites of a tile's bytes: ordinary scratchpad of the core. -/
def tileSites (core : Nat) (t : Tile) (n : Nat) : List Site :=
  (upto n).map fun i =>
    let off := core % 192 * Config.coreBytes + t.base + i
    { key := 2 ^ 52 + quireOf core * Config.windowBytes + off, kind := 6, grain := 0, policy := 0, off := off
      bits := 12, glob := true }

/-- The engine's write: every byte at its site, coherently. -/
def State.engineWrite (s : State) (xs : List (Site × Byte)) : State :=
  let s := xs.foldl (fun s x => if x.1.atHome then s.cohWrite x.1.key 1 x.1.grain else s) s
  s.writeCells (xs.map fun x => (x.1.key, x.2))

/-! Descriptors. -/

/-- The request for a command's descriptor. -/
def State.meetDesc (s : State) (w : Who) (a : Word) : State :=
  s.meetUnit w.ctx .user .load (quireOf w.core) (fun k => k ≤ 2) (cmdDesc a) 1

/-- The eight words of a command's descriptor, or status 0x11 (R350). -/
def State.cmdDescriptor (s : State) (w : Who) (a : Word) : Except Nat (List Word) :=
  match s.unitSite w.ctx .user .load (quireOf w.core) (cmdDesc a) with
  | .error _ => .error 0x11
  | .ok site =>
    if 3 ≤ site.kind ∨ (s.request site).poisoned site.key 64 = true then .error 0x11
    else .ok ((upto 8).map fun i => wordAt s.mem (site.key + 8 * i))

/-- A descriptor rule: status 0x10 where it is broken. -/
def rule (ok : Bool) (status : Nat) : Except Nat Unit := if ok then .ok () else .error status

/-- What a command's effect leaves: the state, its status, and the bytes its barrier receives. -/
structure Done where
  s      : State
  status : Nat

/-- An effect that failed leaves the destination as it was (one of the subsets R355 allows). -/
def doneOr (s : State) (r : Except Nat State) : Done :=
  match r with
  | .ok s' => { s := s', status := 0 }
  | .error e => { s := s, status := e }

/-- Subtracts landed bytes from a barrier and advances it (R63, R351): status 0x15 where it cannot. -/
def State.landBytes (s : State) (w : Who) (va : Word) (n : Nat) : Except Nat State :=
  if va = 0 then .ok s
  else if va.toNat % 16 ≠ 0 then .error 0x15
  else
    match s.unitSite w.ctx .user .atomic (quireOf w.core) va with
    | .error _ => .error 0x15
    | .ok site =>
      let placed := decide (site.kind ≤ 1) || (site.kind == 6 && s.bankAt (quireOf w.core) site.off 16 == .scratch)
      let x := Bar.ofNat (natAt s.mem site.key 16)
      if site.kind = 6 ∧ s.bankAt (quireOf w.core) site.off 16 = .busy then .error bankWait
      else if placed = false ∨ (s.request site).poisoned site.key 16 = true ∨ x.pending < n then .error 0x15
      else .ok (s.unitWrite site (leBytes 16 { x with pending := x.pending - n }.advance.toNat))

/-- A command ends: its barrier receives the bytes, landed or not (R355); a barrier that fails a command that was done
gives status 0x15. -/
def Done.barrier (r : Done) (w : Who) (va : Word) (n : Nat) : Done :=
  if n = 0 then r
  else
    let s := if va = 0 then r.s else r.s.meetUnit w.ctx .user .atomic (quireOf w.core) (fun k => k ≤ 1) va 1
    match s.landBytes w va n with
    | .ok s => { r with s := s }
    | .error e => { s := s, status := if r.status = 0 ∨ e = bankWait then e else r.status }

/-! The copy engine (R352). -/

/-- The rules of a COPY descriptor. -/
def copyRules (b : Word) (ds : List Word) : Except Nat Unit :=
  rule (bits (nth 0 ds 2) 63 40 == 0 && (ds.drop 4).all (· == 0) && (!tagSv b || nth 0 ds 0 == 0) &&
    (!tagDv b || nth 0 ds 1 == 0)) 0x10

/-- A source of n bytes: a tile or an address. -/
def State.copySource (s : State) (w : Who) (b va : Word) (n : Nat) : Except Nat (List Site) :=
  if tagSv b then
    if (w.tile (tagStile b)).len < n then .error 0x16 else .ok (tileSites w.core (w.tile (tagStile b)) n)
  else s.engineSpan w .load 0x12 va n

/-- A destination of n bytes. -/
def State.copyDest (s : State) (w : Who) (b va : Word) (n : Nat) : Except Nat (List Site) :=
  if tagDv b then
    if (w.tile (tagDtile b)).len < n then .error 0x16 else .ok (tileSites w.core (w.tile (tagDtile b)) n)
  else s.engineSpan w .store 0x13 va n

/-- COPY: every source byte is read before any destination byte is written. -/
def State.doCopy (s : State) (w : Who) (a b : Word) : Done :=
  let s := s.meetDesc w a
  match s.cmdDescriptor w a with
  | .error e => { s := s, status := e }
  | .ok ds =>
    let n := bits (nth 0 ds 2) 39 0
    let (read, s) := s.engineFetch (do copyRules b ds; s.copySource w b (nth 0 ds 0) n)
    (doneOr s (do
      let bs ← read
      let dst ← s.copyDest w b (nth 0 ds 1) n
      .ok (s.engineWrite (dst.zip bs)))).barrier w (nth 0 ds 3) n

/-- FILL: the pattern in each 8-byte element. -/
def State.doFill (s : State) (w : Who) (a b : Word) : Done :=
  let s := s.meetDesc w a
  match s.cmdDescriptor w a with
  | .error e => { s := s, status := e }
  | .ok ds =>
    let n := bits (nth 0 ds 2) 39 0
    (doneOr s (do
      rule (bits (nth 0 ds 2) 63 40 == 0 && (ds.drop 4).all (· == 0) && n % 8 == 0 &&
        (if tagDv b then nth 0 ds 1 == 0 else (nth 0 ds 1).toNat % 8 == 0)) 0x10
      let dst ← s.copyDest w b (nth 0 ds 1) n
      let pat := leBytes 8 (nth 0 ds 0).toNat
      let bs := (upto n).map fun i => nth 0 pat (i % 8)
      .ok (s.engineWrite (dst.zip bs)))).barrier w (nth 0 ds 3) n

/-! The gather engine (R353). -/

/-- Groups a list into pieces of n, given how many pieces. -/
def chunks {α : Type} (n : Nat) : Nat → List α → List (List α)
  | 0, _ => []
  | k + 1, xs => xs.take n :: chunks n k (xs.drop n)

/-- Bytes of an index. -/
def indexBytes (ds : List Word) : Nat := if bit (nth 0 ds 3) 34 then 8 else 4

/-- The element addresses ea(i), from the bytes of the index array. -/
def gatherAddrs (ds : List Word) (count size : Nat) (bs : List Byte) : List Word :=
  (chunks (indexBytes ds) count bs).map fun c =>
    nth 0 ds 0 + (if indexBytes ds = 8 then BitVec.ofNat 64 (leNat c) else sextN 32 (leNat c)) * BitVec.ofNat 64 size

/-- The sites of elements at addresses that must be aligned. -/
def State.elementSites (s : State) (w : Who) (acc : Acc) (fault size : Nat) : List Word → Except Nat (List Site)
  | [] => .ok []
  | a :: as => do
    rule (a.toNat % size == 0) fault
    let x ← s.engineSpan w acc fault a size
    let xs ← s.elementSites w acc fault size as
    .ok (x ++ xs)

/-- The rules of a gather descriptor. -/
def gatherRules (ds : List Word) (size : Nat) : Except Nat Unit :=
  rule (bits (nth 0 ds 3) 63 35 == 0 && (ds.drop 5).all (· == 0) && (nth 0 ds 2).toNat % size == 0 &&
    (nth 0 ds 1).toNat % indexBytes ds == 0) 0x10

/-- The element addresses of a gather or scatter, and the state that reading the indices met. -/
def State.gatherFetch (s : State) (w : Who) (ds : List Word) (count size : Nat) : Except Nat (List Word) × State :=
  let (read, s) := s.engineFetch (do gatherRules ds size; s.engineSpan w .load 0x12 (nth 0 ds 1) (count * indexBytes ds))
  (read.map (gatherAddrs ds count size), s)

/-- GATHER. -/
def State.doGather (s : State) (w : Who) (a : Word) : Done :=
  let s := s.meetDesc w a
  match s.cmdDescriptor w a with
  | .error e => { s := s, status := e }
  | .ok ds =>
    let count := bits (nth 0 ds 3) 31 0
    let size := 2 ^ bits (nth 0 ds 3) 33 32
    let (eas, s) := s.gatherFetch w ds count size
    let (read, s) := s.engineFetch (do s.elementSites w .load 0x12 size (← eas))
    (doneOr s (do
      let bs ← read
      let dst ← s.engineSpan w .store 0x13 (nth 0 ds 2) (count * size)
      .ok (s.engineWrite (dst.zip bs)))).barrier w (nth 0 ds 4) (count * size)

/-- SCATTER: of two i with one address the larger leaves its value, being written last. -/
def State.doScatter (s : State) (w : Who) (a : Word) : Done :=
  let s := s.meetDesc w a
  match s.cmdDescriptor w a with
  | .error e => { s := s, status := e }
  | .ok ds =>
    let count := bits (nth 0 ds 3) 31 0
    let size := 2 ^ bits (nth 0 ds 3) 33 32
    let (eas, s) := s.gatherFetch w ds count size
    let (read, s) := s.engineFetch (do let _ ← eas; s.engineSpan w .load 0x12 (nth 0 ds 2) (count * size))
    (doneOr s (do
      let bs ← read
      let dst ← s.elementSites w .store 0x13 size (← eas)
      .ok (s.engineWrite (dst.zip bs)))).barrier w (nth 0 ds 4) (count * size)

/-! The collective engine. -/

/-- OP and TYPE codes that may be combined (R149). -/
def opTypeOk (op ty : Nat) : Bool := op ≤ 5 && ty ≤ 7 && !(3 ≤ op && 5 ≤ ty)

/-- The request for a collation object. -/
def State.meetObject (s : State) (w : Who) (va : Word) : State := s.meetUnit w.ctx .user .load (quireOf w.core) (fun k => k ≤ 1) va 1

/-- The site of a valid collation object, or status 0x01 (R149, R150). An object or a result address that does not translate, and an
object in a poisoned unit, have status 0x01 too, where R150 names no status (DESIGN CHOICE, log 165). -/
def State.collationSite (s : State) (w : Who) (va : Word) : Except Nat Site :=
  match s.unitSite w.ctx .user .load (quireOf w.core) va with
  | .error _ => .error 0x01
  | .ok site =>
    let ws := (upto 8).map fun i => wordAt s.mem (site.key + 8 * i)
    let resOk := (nth 0 ws 0).toNat % 64 == 0 && match s.kindOf w.ctx (nth 0 ws 0) with
      | none => false
      | some k => k ≤ 2
    if va.toNat % 64 ≠ 0 ∨ 2 ≤ site.kind ∨ s.poisoned site.key 64 = true then .error 0x01
    else if resOk = false ∨ opTypeOk (bits (nth 0 ws 1) 3 0) (bits (nth 0 ws 1) 6 4) = false ∨ bits (nth 0 ws 1) 63 7 ≠ 0 ∨
        bits (nth 0 ws 2) 63 5 ≠ 0 ∨ (ws.drop 3).any (· != 0) = true then .error 0x01
    else .ok site

/-- Binds an object to a launch, or adds a contribution to it: statuses 0x03 and 0x04. -/
def addPart (cs : List Collation) (new : Collation) (p : Contribution) : Except Nat (List Collation) :=
  match cs with
  | [] => .ok [{ new with parts := [p] }]
  | c :: rest =>
    if c.key = new.key then
      if c.launch ≠ new.launch then .error 0x04
      else if c.parts.any fun x => x.linear == p.linear then .error 0x03
      else .ok ({ c with parts := c.parts ++ [p] } :: rest)
    else do
      let r ← addPart rest new p
      .ok (c :: r)

/-- COLLATE (R150). Of several statuses whose conditions hold, the object's comes first, then that of the work, then those of the binding,
then the partial's (DESIGN CHOICE, log 164). -/
def State.doCollate (s : State) (w : Who) (a : Word) (work : Work) : Done :=
  let s := s.meetDesc w a
  match s.cmdDescriptor w a with
  | .error e => { s := s, status := e }
  | .ok ds =>
    let shape := rule ((ds.drop 2).all (· == 0) && (nth 0 ds 1).toNat % 64 == 0) 0x10
    let s := if shape.isOk then s.meetObject w (nth 0 ds 0) else s
    let blank : Except Nat (Collation × Nat) := do
      shape
      let site ← s.collationSite w (nth 0 ds 0)
      match work with
      | .wid n linear =>
        rule (match s.launch n with
          | none => false
          | some l => bit l.flags 42) 0x02
        let c : Collation := { key := site.key, va := nth 0 ds 0, ctx := w.ctx, launch := n, parts := [] }
        let _ ← addPart s.collations c { linear := linear, data := 0 }
        .ok (c, linear)
      | _ => .error 0x02
    let (read, s) := s.engineFetch (do let _ ← blank; s.engineSpan w .load 0x12 (nth 0 ds 1) 64)
    doneOr s (do
      let (c, linear) ← blank
      let bs ← read
      let cs ← addPart s.collations c { linear := linear, data := BitVec.ofNat 512 (leNat bs) }
      .ok { s with collations := cs })

/-- The sites of bytes of a group object, which lies in memory of kind 0 or 1. -/
def State.groupSpan (s : State) (w : Who) (va : Word) (n : Nat) : Except Nat (List Site) := do
  let xs ← s.engineSpan w .load 0x12 va n
  rule (xs.all fun x => x.kind ≤ 1) 0x12
  .ok xs

/-- The device numbers of a group object (R354), or its status, and the state that its reads met. -/
def State.groupOf (s : State) (w : Who) (va : Word) (pre : Except Nat Unit) : Except Nat (List Nat) × State :=
  let (head, s) := s.engineFetch (do pre; rule (va.toNat % 64 == 0) 0x10; s.groupSpan w va 8)
  let count : Except Nat Nat := do
    let n := leNat (← head) % 512
    rule (decide (2 ≤ n ∧ n ≤ 288)) 0x10
    .ok n
  let (body, s) := s.engineFetch (do s.groupSpan w (va + 8) (2 * (← count)))
  (do .ok ((chunks 2 (← count) (← body)).map leNat), s)

/-- The 64-byte blocks of what a member sent. -/
def partBytes (p : Partial) : List Byte := p.data.flatMap fun x => leBytes 8 x.toNat

/-- Whether two members' commands agree on the group, OP, TYPE, BLOCKS and SEQ (R351, R354). -/
def partsAgree (p q : Partial) : Bool :=
  p.group == q.group && p.op == q.op && p.ty == q.ty && p.seq == q.seq && p.data.length == q.data.length

/-- A member's partial: this device's own, or the one its peer sent. -/
def partialOf (own : Partial) (partials : List Partial) (m : Nat) : Option Partial :=
  if own.dev = m then some own else partials.find? fun p => p.dev == m

/-- Folds the members' partials block by block in increasing rank (R253, R354). -/
def foldMembers (o : LaneOp) (ty : VType) (blocks : Nat) (ps : List (List Byte)) : List Byte :=
  (upto blocks).flatMap fun i =>
    let vs := ps.map fun p => (BitVec.ofNat 512 (leNat ((p.drop (64 * i)).take 64)), (0 : FFlags))
    match foldAll o ty vs with
    | none => []
    | some r => leBytes 64 r.1.toNat

/-- ALLRED (R354): none while a reachable member's partial has not come; a kind-4 or link failure at a member ends the command
with status 0x17. -/
def State.doAllred (s : State) (w : Who) (a : Word) (partials : List Partial) : Option Done :=
  let s := s.meetDesc w a
  match s.cmdDescriptor w a with
  | .error e => some { s := s, status := e }
  | .ok ds =>
    let blocks := bits (nth 0 ds 2) 26 16
    let op := bits (nth 0 ds 2) 3 0
    let ty := bits (nth 0 ds 2) 6 4
    let (group, s) := s.groupOf w (nth 0 ds 3)
      (rule (bits (nth 0 ds 2) 63 27 == 0 && bits (nth 0 ds 2) 15 7 == 0 && (ds.drop 5).all (· == 0) &&
        decide (1 ≤ blocks ∧ blocks ≤ 1024) && opTypeOk op ty && (nth 0 ds 0).toNat % 64 == 0 &&
        (nth 0 ds 1).toNat % 64 == 0) 0x10)
    let (read, s) := s.engineFetch (do
      rule ((← group).any fun m => s.dev.zorey == some m) 0x06
      s.engineSpan w .load 0x12 (nth 0 ds 0) (64 * blocks))
    let pre : Except Nat (List Byte × List Nat × List Site) := do
      let g ← group
      let own ← read
      let dst ← s.engineSpan w .store 0x13 (nth 0 ds 1) (64 * blocks)
      rule (dst.all fun x => x.kind ≤ 2) 0x13
      .ok (own, g, dst)
    match pre with
    | .error e => some { s := s, status := e }
    | .ok (own, g, dst) =>
      let mine : Partial :=
        { dev := s.dev.zorey.getD 0, failed := false, group := g, op := op, ty := ty, seq := (nth 0 ds 4).toNat
          data := (chunks 8 (8 * blocks) own).map fun c => BitVec.ofNat 64 (leNat c) }
      let ps := g.map (partialOf mine partials)
      let got := ps.filterMap id
      if s.dev.links = 0 ∨ got.any (·.failed) = true then some { s := s, status := 0x17 }
      else if got.any (fun p => !partsAgree p mine) then some { s := s, status := 0x05 }
      else if ps.any Option.isNone then none
      else
        let res := foldMembers (collateOp op) (typeOfCode ty) blocks (got.map partBytes)
        some { s := s.engineWrite (dst.zip res), status := 0 }

/-! The steps of the engines. -/

/-- Whether a command still runs. -/
def Cmd.runs (e : Engine) (c : Cmd) : Bool :=
  c.engine == e && match c.st with
    | .complete _ => false
    | .pending => true
    | .accepted => true

/-- Completes the first running command of an engine: an orphan's result is discarded (R355). -/
def completeCmd (e : Engine) (status : Nat) : List Cmd → List Cmd
  | [] => []
  | c :: cs =>
    if c.runs e then (if c.orphan then cs else { c with st := .complete status } :: cs) else c :: completeCmd e status cs

/-- The tiles of a command have seen its last access (R58, R355). -/
def State.landCmdTiles (s : State) (core ctx : Nat) (b : Word) : State :=
  let s := if tagSv b then s.landTile core ctx (tagStile b) else s
  if tagDv b then s.landTile core ctx (tagDtile b) else s

/-- An engine performs a thread's oldest command of a code and completes it (R60); a command that reaches a BUSY bank waits
(R54). -/
def State.runCmd (s : State) (n : Nat) (e : Engine) (code : Nat) (f : Who → Cmd → Option Done) : Option State :=
  match (s.thr n).cmds.find? (Cmd.runs e) with
  | none => none
  | some c =>
    if cmdCode c.a ≠ code then none
    else
      match f { ctx := c.ctx, core := coreOf n, tile := (s.core (coreOf n)).tile c.ctx, scratch := e != .collective } c with
      | none => none
      | some r =>
        if r.status = bankWait then none
        else
          let s := r.s.landCmdTiles (coreOf n) c.ctx c.b
          some (s.setThr n { s.thr n with cmds := completeCmd e r.status (s.thr n).cmds })

def execCopy (thread : Nat) (s : State) : Out :=
  event s (s.runCmd thread .copy 0 fun w c => some (s.doCopy w c.a c.b))
def execFill (thread : Nat) (s : State) : Out :=
  event s (s.runCmd thread .copy 1 fun w c => some (s.doFill w c.a c.b))
def execGather (thread : Nat) (s : State) : Out :=
  event s (s.runCmd thread .gather 0 fun w c => some (s.doGather w c.a))
def execScatter (thread : Nat) (s : State) : Out :=
  event s (s.runCmd thread .gather 1 fun w c => some (s.doScatter w c.a))
def execCollate (thread : Nat) (s : State) : Out :=
  event s (s.runCmd thread .collective 0 fun w c => some (s.doCollate w c.a c.work))
def execAllred (thread : Nat) (partials : List Partial) (s : State) : Out :=
  event s (s.runCmd thread .collective 1 fun w c => s.doAllred w c.a partials)

end Sys2Proof.Machine
end

