-- ==== Sys2Proof/Machine/Rules.lean ====
section
/-! DEFINITION. Rules of the signature field: readiness (R73), the picker (R74), N-beat rules (R75), poison (R71), every operation
of R294 and the converter's sequencer (R343). -/

namespace Sys2Proof.Machine

/-- Where a rule stands: folio, region, absolute column, row. -/
structure Place where
  f : Nat
  n : Nat
  c : Nat
  r : Nat

def State.tileAt (s : State) (p : Place) : FTile := s.ftile p.f p.c p.r
def State.setTileAt (s : State) (p : Place) (t : FTile) : State := s.setFtile p.f p.c p.r t
def State.regionOf (s : State) (p : Place) : Region := s.region p.f p.n

/-- Whether a mask of four names a channel, and the channels it names. -/
def named (m : BitVec 4) (i : Nat) : Bool := m.getLsbD i
def channels (m : BitVec 4) : List Nat := (upto 4).filter (named m)

/-- A rule's slot in a record. -/
def TileRec.rule? (t : TileRec) (slot : Nat) : Option Rule := t.rules[slot]?

/-- N of a rule (R73). -/
def Rule.beats (r : Rule) : Nat := r.nmin + 1

/-- The PE's type and rounding mode (R298), a memory tile's role, a converter's formats and gap, an edge tile's bits. -/
def TileRec.ty (t : TileRec) : Nat := bits t.cfg 4 0
def TileRec.rm (t : TileRec) : Nat := bits t.cfg 7 5
def TileRec.role (t : TileRec) : Nat := bits t.cfg 1 0
def TileRec.frm (t : TileRec) : Nat := bits t.cfg 4 0
def TileRec.tgt (t : TileRec) : Nat := bits t.cfg 9 5
def TileRec.gap (t : TileRec) : Nat := bits t.cfg 12 10
def TileRec.storer (t : TileRec) : Bool := bit t.cfg 0
def TileRec.bySrc (t : TileRec) : Bool := bit t.cfg 1
def TileRec.drains (t : TileRec) : Bool := bit t.cfg 2

/-- Datapath A of R74; every other operation of a PE is on B. -/
def onA (op : Nat) : Bool := (0x04 ≤ op && op ≤ 0x0F) || op == 0x16 || op == 0x19 || 0x27 ≤ op

/-- Sources a rule names. -/
def Rule.sources (r : Rule) : List Nat := [r.srcA, r.srcB, r.srcC]

/-- The inputs a rule tests, dequeues or reads. -/
def Rule.touches (r : Rule) (i : Nat) : Bool := named r.inreq i || named r.deq i || r.sources.contains (8 + i)

/-! Readiness (R73). -/

def TokKind.code : TokKind → Nat
  | .data => 0
  | .eos => 1
  | .drain => 2
  | .mark => 3
  | .ord => 4
  | .err => 5
def tokKindOf : Nat → TokKind
  | 0 => .data
  | 1 => .eos
  | 3 => .mark
  | 4 => .ord
  | 5 => .err
  | _ => .drain

/-- The predicate test. -/
def Rule.guardHolds (r : Rule) (q : Preds) : Bool := (q ^^^ r.qval) &&& r.qcare == 0

/-- The input test of one channel. -/
def inputOk (t : FTile) (r : Rule) (i : Nat) : Bool :=
  let q := t.inp i
  (!(named r.inreq i || named r.deq i) || decide (r.beats ≤ q.length)) &&
  (!(named r.inreq i) || nth 7 r.inkind i == 7 || (q.take r.beats).all fun k => k.kind.code == nth 7 r.inkind i)

/-- The output test: an N-beat RED waits for space on its ENQ outputs in its last beat alone (R388). -/
def outputsOk (t : FTile) (r : Rule) : Bool :=
  (upto 4).all fun o => !(named r.outreq o || (named r.enq o && !(r.op == 0x27 && 1 < r.beats))) || t.roomOut o

/-- What the sequencer of a converter would do next (R343): send a converted token, take elements, emit the poison that stands in
the place of an exponent token (R71), pad a block that a control token ends, or forward the control token. -/
inductive CvtStep where
  | send | take | poison | pad | forward | none
deriving DecidableEq, Repr

/-- The step of a converter whose block is empty and whose exponent token heads i1. -/
def cvtExponent (rd : TileRec) (t : FTile) : CvtStep :=
  match t.inp 1 with
  | [] => .none
  | x :: _ =>
    if x.kind ≠ .err then .take
    else if t.roomOut 0 = true ∧ (isBlock rd.tgt = true → t.roomOut 1 = true) then .poison
    else .none

def cvtStep (rd : TileRec) (t : FTile) : CvtStep :=
  match t.convO, t.inp 0 with
  | (ex, _) :: _, _ => if t.roomOut (if ex then 1 else 0) then .send else .none
  | [], [] => .none
  | [], k :: _ =>
    if k.kind = .data then
      if isBlock rd.frm = true ∧ t.conv = [] then cvtExponent rd t else .take
    else if t.conv ≠ [] then .pad
    else if t.roomOut 0 then .forward else .none

/-- A memory tile in FIFO role has what an operation needs (R76). -/
def fifoOk (rd : TileRec) (t : FTile) (r : Rule) : Bool :=
  !(rd.kind == 1 && rd.role == 1) ||
    (if r.op = 0x1A then !t.fifo.isEmpty else if r.op = 0x1B then decide (t.fifo.length < 8192) else true)

/-- The readiness of a rule in its tile. -/
def ruleReady (rd : TileRec) (t : FTile) (r : Rule) : Bool :=
  r.guardHolds t.q &&
  (if r.op = 0x14 then (channels r.deq).any (fun i => !(t.inp i).isEmpty) && outputsOk t r
   else if r.op = 0x19 then
    cvtStep rd t != .none && (upto 4).all fun i =>
      (!(named r.inreq i) || inputOk t { r with deq := 0 } i) && (!(named r.outreq i) || t.roomOut i)
   else (upto 4).all (inputOk t r) && outputsOk t r) &&
  (if rd.kind = 0 ∧ onA r.op = true then t.beatA.isNone else t.beatB.isNone) && fifoOk rd t r

/-- The ready slots of a tile, lowest first. -/
def readySlots (rd : TileRec) (t : FTile) : List Nat :=
  (upto rd.rules.length).filter fun i => match rd.rules[i]? with
    | some r => ruleReady rd t r
    | none => false

/-! One beat of an operation. -/

/-- What a beat does: an element register written, tokens sent, flags raised, a predicate from PCMP. -/
structure Effect where
  e    : Option (Nat × Word)
  toks : List (Nat × TokKind × Word)
  fl   : FFlags
  p    : Option Bool

def noEffect : Effect := { e := none, toks := [], fl := 0, p := none }

/-- A source operand (R292): the head of an empty input is a free value (log 10). -/
def sourceWord (t : FTile) (r : Rule) (free : Word) (c : Nat) : Word :=
  if c < 8 then nth 0 t.e c
  else if c < 12 then
    match t.inp (c - 8) with
    | k :: _ => k.payload
    | [] => free
  else if c = 12 then r.imm16.signExtend 64
  else 0

/-- Whether a rule reads the head of an empty input. -/
def readsEmpty (t : FTile) (r : Rule) : Bool := r.sources.any fun c => 8 ≤ c && c < 12 && (t.inp (c - 8)).isEmpty

/-- Sends a value of a kind to every ENQ output. -/
def sendAll (r : Rule) (k : TokKind) (v : Word) : List (Nat × TokKind × Word) := (channels r.enq).map fun o => (o, k, v)

/-- A result goes to DST: an element register, or every ENQ output with kind OKIND (R292, R376). -/
def resultTo (r : Rule) (v : Word × FFlags) : Effect :=
  { e := if r.dst < 8 then some (r.dst, v.1) else none
    toks := if r.dst < 8 then [] else sendAll r (tokKindOf r.okind) v.1
    fl := v.2, p := none }

/-- MOV, DUP, EMIT (R376, R347, R348). -/
def effMov (r : Rule) (a : Word) : Effect := resultTo r (a, 0)
def effDup (r : Rule) (a : Word) : Effect :=
  { e := if r.dst < 8 then some (r.dst, a) else none, toks := sendAll r (tokKindOf r.okind) a, fl := 0, p := none }
def effEmit (r : Rule) (a b : Word) : Effect :=
  { noEffect with toks := sendAll r (tokKindOf r.okind) (((a.setWidth 32).setWidth 64 <<< 32) ||| (b.setWidth 32).setWidth 64) }

/-- SEL, STEER, GATE, NZSEND (R393, R409, R363, R382). -/
def effSel (t : FTile) (r : Rule) (a b : Word) : Effect :=
  resultTo r (if t.q.getLsbD (r.imm16.toNat % 8) then a else b, 0)
def effSteer (ty : Nat) (r : Rule) (a b : Word) : Effect :=
  { noEffect with toks := [(nth 0 (channels r.enq) (if peZero ty b then 0 else 1), tokKindOf r.okind, a)] }
def effGate (ty : Nat) (r : Rule) (a b : Word) : Effect :=
  { noEffect with toks := if peZero ty b then [] else sendAll r (tokKindOf r.okind) a }
def effNzsend (ty : Nat) (r : Rule) (a : Word) : Effect :=
  { noEffect with toks := if peZero ty a then [] else sendAll r (tokKindOf r.okind) a }

/-- MERGE forwards a head with its kind (R374). -/
def mergeInput (t : FTile) (r : Rule) : Nat := ((channels r.deq).find? fun i => !(t.inp i).isEmpty).getD 0
def effMerge (t : FTile) (r : Rule) : Effect :=
  match t.inp (mergeInput t r) with
  | k :: _ => { noEffect with toks := sendAll r k.kind k.payload }
  | [] => noEffect

/-- The effect of one beat of a PE's rule, for operations that do not gather (R294). -/
def peEffect (rd : TileRec) (t : FTile) (iter : List Nat) (r : Rule) (a b c : Word) : Effect :=
  match r.op with
  | 0x00 => noEffect
  | 0x01 => effMov r a
  | 0x02 => effDup r a
  | 0x03 => effEmit r a b
  | 0x07 => resultTo r (peFma rd.ty rd.rm a b c)
  | 0x10 => let x := peCompare rd.ty (r.imm16.toNat % 8) a b; { noEffect with fl := x.2, p := some x.1 }
  | 0x11 => effSel t r a b
  | 0x12 => effSteer rd.ty r a b
  | 0x13 => effGate rd.ty r a b
  | 0x14 => effMerge t r
  | 0x15 => resultTo r (BitVec.ofNat 64 (nth 0 iter (r.imm16.toNat % 4)), 0)
  | 0x16 => resultTo r (peArith2 laneAdd rd.ty rd.rm (nth 0 t.e r.dst) a)
  | 0x17 => effNzsend rd.ty r a
  | 0x18 => noEffect
  | 0x29 => resultTo r (peSqrt rd.ty rd.rm a)
  | _ => resultTo r (peArith2 (peOp r.op) rd.ty rd.rm a b)

/-! Firing. -/

/-- The inputs a beat dequeues. -/
def dequeued (t : FTile) (r : Rule) : List Nat := if r.op = 0x14 then [mergeInput t r] else channels r.deq

/-- The first poison among the tokens a beat dequeues (R71): where one beat dequeues several, that of the lowest input, an order
that the spec leaves open (DESIGN CHOICE, log 120). -/
def poisonOf (t : FTile) (is : List Nat) : Option Word :=
  (is.filterMap fun i => (t.inp i).head?).findSome? fun k => if k.kind = .err then some k.payload else none

/-- EOS tokens among them. -/
def eosOf (t : FTile) (is : List Nat) : Nat :=
  ((is.filterMap fun i => (t.inp i).head?).filter fun k => k.kind == .eos).length

/-- What two tokens descend from: of each storer the latest entry (R182). -/
def joinSrc (a b : Table Nat) : Table Nat := b.foldl (fun t e => tput t e.1 (max e.2 (tget 0 t e.1))) a

/-- The storers that the head of an input descends from. -/
def FTile.headSrc (t : FTile) (i : Nat) : Table Nat :=
  match t.inp i with
  | k :: _ => k.src
  | [] => []

/-- The storers that the tokens a rule touches descend from (R182). -/
def ancestors (t : FTile) (r : Rule) : Table Nat :=
  ((upto 4).filter r.touches).foldl (fun a i => joinSrc a (t.headSrc i)) []

/-- Sends tokens with their ancestry. -/
def FTile.sendToks (t : FTile) (src : Table Nat) : List (Nat × TokKind × Word) → FTile
  | [] => t
  | (o, k, v) :: ks => (t.emit o { kind := k, payload := v, src := src, arr := 0 }).sendToks src ks

/-- The predicate writes of a rule, PCMP's over QW's (R293). -/
def predsAfter (r : Rule) (q : Preds) (p : Option Bool) : Preds :=
  let q := (q &&& ~~~r.qw) ||| (r.qv &&& r.qw)
  match p with
  | none => q
  | some b =>
    let m : Preds := BitVec.ofNat 8 (2 ^ r.pcmpt)
    if b then q ||| m else q &&& ~~~m

/-- The flags of a region, and those of its invocation (R72, R399). -/
def State.raise (s : State) (p : Place) (fl : FFlags) : State :=
  if fl = 0 then s
  else
    let g := s.regionOf p
    s.setRegion p.f p.n { g with flags := g.flags ||| fl, invFlags := g.invFlags ||| fl }

/-- A tile's sink has counted n more EOS tokens (R88, R403): at its number it reports, and when every sink of the image has
reported the data phase ends; an activation is then discarded with cause 0x01. -/
def State.countEos (s : State) (p : Place) (rd : TileRec) (n : Nat) : State :=
  let t := s.tileAt p
  if rd.sink = false ∨ n = 0 ∨ rd.sinkN ≤ t.eos then s
  else
    let s := s.setTileAt p { t with eos := min rd.sinkN (t.eos + n) }
    if rd.sinkN ≤ t.eos + n then
      let g := s.regionOf p
      let g := { g with reported := (36 * rd.col + rd.row) :: g.reported }
      let sinks : Nat := match g.active with
        | some pl => (pl.recs.filter fun x => x.sink).length
        | none => 0
      if sinks ≤ g.reported.length then
        s.setRegion p.f p.n (match g.inv with
          | some (.activation _) => g.stopFor (some { cause := 0x01, col := 0, row := 0, slot := none, addr := none })
          | _ => g.stopFor none)
      else s.setRegion p.f p.n g
    else s

/-- A CALL node has all its tokens (R105): the crossing unit checks the callee and pops its frame, and the data phase ends. -/
def State.callNode (s : State) (p : Place) (r : Rule) (slot : Nat) (vals : List Word) : State :=
  let g := s.regionOf p
  let fail := fun cause => s.discardAt p.f p.n p.c p.r cause (some slot) none
  match g.inv with
  | some (.activation caller) =>
    let callee := nth 0 vals 0
    let argc := r.imm16.toNat / 64 % 16
    if 2 ≤ tagOf callee then fail 0x01
    else if (targetOf callee).toNat % (if tagOf callee = 0 then 4 else 64) ≠ 0 then fail 0x03
    else
      let fifo : Except Nat Nat × State := if tagOf callee = 0 then (.ok 0, s) else s.descFifo g.owner (targetOf callee)
      let s := fifo.2
      let fail := fun cause => s.discardAt p.f p.n p.c p.r cause (some slot) none
      match fifo.1 with
      | .error e => fail e
      | .ok n =>
        if n = 0 ∧ tagOf callee ≠ 0 then fail 0x01
        else match s.popFrame g.owner false with
        | (.error _, s) => s.discardAt p.f p.n p.c p.r 0x13 (some slot) none
        | (.ok f, s) =>
          let g := s.regionOf p
          s.setRegion p.f p.n
            { g.stopFor none with
              callFrame := some f.toNat
              crossing := some (.call callee f.toNat caller (r.imm16.toNat % 64) n ((vals.drop 1).take argc)
                (vals.drop (1 + argc))) }
  | _ => fail 0x01

/-- A RET node has both results (R107, R390). -/
def State.retNode (s : State) (p : Place) (slot : Nat) (vals : List Word) : State :=
  let g := s.regionOf p
  match g.inv with
  | some (.activation _) =>
    s.setRegion p.f p.n { g.stopFor none with crossing := some (.ret (nth 0 vals 0) (nth 0 vals 1)) }
  | _ => s.discardAt p.f p.n p.c p.r 0x01 (some slot) none

/-- Whether an operation gathers its beats: RED, CALL, RET. -/
def gathers (op : Nat) : Bool := op == 0x25 || op == 0x26 || op == 0x27

/-- Occupies or frees the datapath of an operation. -/
def FTile.setBeat (t : FTile) (op : Nat) (b : Option Beat) : FTile :=
  if onA op then { t with beatA := b } else { t with beatB := b }
def FTile.beat (t : FTile) (op : Nat) : Option Beat := if onA op then t.beatA else t.beatB

/-- Beat j of a PE's rule (R71, R75). `b` holds what earlier beats gathered. A beat that dequeues ERR poisons what that beat sends and
writes; the other beats of the rule, RED apart, have their own effect (DESIGN CHOICE, log 145). -/
def State.peBeat (s : State) (p : Place) (rd : TileRec) (r : Rule) (b : Beat) : State :=
  let t := s.tileAt p
  let (free, s) := if readsEmpty t r then s.freeWord else (0, s)
  let a := sourceWord t r free r.srcA
  let x := sourceWord t r free r.srcB
  let y := sourceWord t r free r.srcC
  let is := dequeued t r
  let bad := poisonOf t is
  let src := joinSrc b.src (ancestors t r)
  let last : Bool := b.next + 1 = r.beats
  let err := match b.err with
    | some w => some w
    | none => bad
  if bad.isSome && r.enq == 0 then s.discardAt p.f p.n p.c p.r 0x16 (some b.slot) none
  else
    let vals := b.vals ++ (if gathers r.op then [a] else [])
    -- What this beat sends and writes.
    let eff : Effect :=
      if r.op = 0x25 ∨ r.op = 0x26 then noEffect
      else if r.op = 0x27 then
        (if last then
          match err with
          | some w => { noEffect with toks := sendAll r .err w }
          | none => resultTo r (peReduce rd.ty rd.rm (r.imm16.toNat % 8) vals)
        else noEffect)
      else
        match bad with
        | some w => { noEffect with toks := sendAll r .err w }
        | none => peEffect rd t (s.regionOf p).iter r a x y
    let n := eosOf t is
    let t := is.foldl FTile.pop t
    let t := t.sendToks src eff.toks
    let t := match eff.e with
      | some (i, v) => { t with e := setNth t.e i v }
      | none => t
    let t := if last && err.isNone then { t with q := predsAfter r t.q eff.p } else t
    let t := t.setBeat r.op (if last then none
      else some { slot := b.slot, next := b.next + 1, vals := vals, err := err, src := src })
    let s := (s.setTileAt p t).raise p eff.fl
    let s := if r.op = 0x18 then s.countEos p rd n else s
    if last && r.op == 0x25 then s.callNode p r b.slot vals
    else if last && r.op == 0x26 then s.retNode p b.slot vals
    else s

/-- The first beat of a rule. -/
def firstBeat (slot : Nat) : Beat := { slot := slot, next := 0, vals := [], err := none, src := [] }

/-- Whether the next beat of a rule may take place (R75): its DEQ inputs hold a token, its ENQ outputs have room; RED waits on
output space in its last beat alone (R388). -/
def beatReady (t : FTile) (r : Rule) (b : Beat) : Bool :=
  (channels r.deq).all (fun i => !(t.inp i).isEmpty) &&
  ((r.op == 0x27 && b.next + 1 != r.beats) || (channels r.enq).all t.roomOut)

/-! Memory operations (R76, R77, R331, R333, R371, R408, R435). -/

/-- Eight bytes of a tile's SRAM, and a write of them. -/
def FTile.ram (t : FTile) (x : Nat) : Word := BitVec.ofNat 64 (leNat ((upto 8).map fun i => tget 0 t.mem (x + i)))
def FTile.setRam (t : FTile) (x : Nat) (v : Word) : FTile :=
  { t with mem := (cellsFrom x (leBytes 8 v.toNat)).foldl (fun m e => tset 0 m e.1 e.2) t.mem }

/-- What a memory operation answers: a cause of discard with its address, or a value with its state; no value for a store. -/
inductive MemRes where
  | fail (cause : Nat) (addr : Option Word)
  | value (v : Word) (poison : Bool) (s : State)
  | done (s : State)

/-- The check of an offset in a buffer (R76). -/
def bufferFault (a : Word) : Option Nat := if a.toNat % 8 ≠ 0 then some 0x03 else if 65536 ≤ a.toNat then some 0x05 else none

/-- What a load of a tile finds: its value, whether the data is poisoned, its site, and the state. -/
structure Loaded where
  v    : Nat
  bad  : Bool
  site : Site
  s    : State

/-- A load of n bytes through a tile with user rights, of kinds below a bound (R371, R81). Data that a lost host port, a host or a
peer does not give whole is poisoned (R168, R175, R251). -/
def State.fieldLoad (s : State) (owner f : Nat) (va : Word) (n kinds : Nat) : Except Nat Loaded :=
  if va.toNat % n ≠ 0 then .error 0x03
  else
    match s.unitSite owner .user .load (4 * f) va with
    | .error e => .error e
    | .ok site =>
      if kinds ≤ site.kind then .error 0x05
      else if site.kind = 4 ∧ s.peerServes site n = false then .error 0x05
      else
        let s := s.request site
        .ok { v := natAt s.mem site.key n, site := site, s := s
              bad := s.poisoned site.key n || (site.kind == 3 && !s.portUp site.key) }

/-- A load through a cache bank (R76): a line it holds, or the line read coherently for the folio's banks, which share in every
unit of it. A line with a poisoned byte is not kept. -/
def State.bankLoad (s : State) (p : Place) (va : Word) : MemRes :=
  match s.fieldLoad (s.regionOf p).owner p.f va 8 2 with
  | .error e => .fail e (some va)
  | .ok x =>
    let s := x.s
    let line := x.site.key / 64
    let word := fun d : BitVec 512 => BitVec.ofNat 64 (leNat (lineBytes d (x.site.key % 64) 8))
    match tget none ((s.tileAt p).cache.map fun e => (e.1, some e.2)) line with
    | some d => .value (word d) false s
    | none =>
      let s := (s.cohFabric p.f (64 * line) x.site.grain).cohFabric p.f (64 * line + 32) x.site.grain
      let d := BitVec.ofNat 512 (natAt s.mem (64 * line) 64)
      let t := s.tileAt p
      if s.poisoned (64 * line) 64 then .value (word d) x.bad s
      else .value (word d) false (s.setTileAt p { t with cache := tput t.cache line d })

/-- LD in a memory tile or an edge tile (R371). -/
def State.sigLoad (s : State) (p : Place) (rd : TileRec) (a : Word) : MemRes :=
  let t := s.tileAt p
  if rd.kind = 3 then
    match s.fieldLoad (s.regionOf p).owner p.f a 8 5 with
    | .error e => .fail e (some a)
    | .ok x => .value (BitVec.ofNat 64 x.v) x.bad x.s
  else
    match rd.role with
    | 0 =>
      match bufferFault a with
      | some c => .fail c none
      | none => .value (t.ram a.toNat) false s
    | 1 =>
      match t.fifo with
      | (v, _) :: rest => .value v false (s.setTileAt p { t with fifo := rest })
      | [] => .done s
    | _ => s.bankLoad p a

/-- The first held entry that a store at storer `me` may merge into, for a token that reached it (R87, R182): none that stood as the token
came, where the token descends from an ORD of another storer, and none older than the source, where it descends from its own. -/
def Token.fence (k : Token) (me : Nat) : Nat := (k.src.map fun e => if e.1 = me then e.2 else k.arr).foldl max 0

/-- The fence of a firing: the latest of the tokens that the rule waits for or reads (R182). -/
def fenceOf (t : FTile) (r : Rule) (me : Nat) : Nat :=
  (((upto 4).filter r.touches).map fun i => match t.inp i with
    | k :: _ => k.fence me
    | [] => 0).foldl max 0

/-- The number of a tile in its field. -/
def Place.num (p : Place) : Nat := 36 * p.c + p.r

/-- ST (R408). -/
def State.sigStore (s : State) (p : Place) (rd : TileRec) (r : Rule) (slot : Nat) (a b : Word) : MemRes :=
  let t := s.tileAt p
  if rd.kind = 3 then .done (s.hold p.f p.n p.c p.r (some slot) a 8 b.toNat (fenceOf t r p.num))
  else
    match rd.role with
    | 0 =>
      match bufferFault a with
      | some c => .fail c none
      | none => .done (s.setTileAt p (t.setRam a.toNat b))
    | _ => .done (s.setTileAt p { t with fifo := t.fifo ++ [(b, ancestors t r)] })

/-- An atomic (R331, R333). -/
def State.sigAtomic (s : State) (p : Place) (rd : TileRec) (r : Rule) (slot : Nat) (a b c : Word) : MemRes :=
  let t := s.tileAt p
  if rd.kind = 3 then .done (s.holdAtomic p.f p.n p.c p.r slot r.op a b c)
  else
    match bufferFault a with
    | some e => .fail e none
    | none =>
      let old := t.ram a.toNat
      .value old false (s.setTileAt p (t.setRam a.toNat (atomicOf r.op old b c)))

/-- The number of a storer's data input (R81): i1 where its pattern is indirect, else i0. -/
def FTile.dataInput (t : FTile) : Nat := if t.indexed then 1 else 0

/-- A beat of a rule in a memory tile or an edge tile: poison that it dequeues, or that would reach a register, discards the
invocation (R71); its ORD token follows a store, or an atomic that returns nothing, and names the entry that this beat's operation was
accepted into (R87, R408). An ORD that it dequeues from a storer's pattern inputs fences the storer, and an EOS from its data input
counts (R81, R88). -/
def State.memFire (s : State) (p : Place) (rd : TileRec) (r : Rule) (b : Beat) : State :=
  let t := s.tileAt p
  let s := s.setTileAt p { t with ordSeq := 0 }
  let slot := b.slot
  let last : Bool := b.next + 1 = r.beats
  let (free, s) := if readsEmpty t r then s.freeWord else (0, s)
  let a := sourceWord t r free r.srcA
  let x := sourceWord t r free r.srcB
  let y := sourceWord t r free r.srcC
  let is := channels r.deq
  let popped := if rd.kind = 1 ∧ rd.role = 1 ∧ r.op = 0x1A then (t.fifo.head?.map (·.2)).getD [] else []
  let src := joinSrc (ancestors t r) popped
  let fail := fun cause addr => s.discardAt p.f p.n p.c p.r cause (some slot) addr
  if (poisonOf t is).isSome then fail 0x16 none
  else
    let fed := if rd.kind = 3 ∧ rd.storer = true then is.filter (· ≤ t.dataInput) else []
    let fence := (fed.map fun i => match t.inp i with
      | k :: _ => if k.kind = .ord then k.arr else 0
      | [] => 0).foldl max 0
    let eos := eosOf t (fed.filter (· == t.dataInput))
    let old := t.ordSeq
    let finishFire := fun (s : State) (e : Option (Nat × Word)) (toks : List (Nat × TokKind × Word)) (src : Table Nat) =>
      let t := is.foldl FTile.pop (s.tileAt p)
      let t := t.sendToks src toks
      let t := match e with
        | some (i, v) => { t with e := setNth t.e i v }
        | none => t
      let t : FTile := { t with
        q := if last then predsAfter r t.q none else t.q, fence := max t.fence fence, ordSeq := old
        beatB := if last then none else some { b with next := b.next + 1 } }
      (s.setTileAt p t).countEos p rd eos
    let res : MemRes := match r.op with
      | 0x00 => .done s
      | 0x1A => s.sigLoad p rd a
      | 0x1B => s.sigStore p rd r slot a x
      | _ => s.sigAtomic p rd r slot a x y
    match res with
    | .fail cause addr => fail cause addr
    | .value v poison s' =>
      if poison then
        (if r.dst < 8 then fail 0x16 none
         else
           let (w, s') := s'.freeWord
           finishFire s' none (sendAll r .err w) src)
      else if r.op ≠ 0x1A ∧ r.dst = 12 then finishFire s' none (sendAll r .ord 0) src
      else
        finishFire s' (if r.dst < 8 then some (r.dst, v) else none)
          (if r.dst < 8 then [] else sendAll r (tokKindOf r.okind) v) src
    | .done s' =>
      if (s'.regionOf p).phase ≠ .running then s'
      else if r.op = 0x00 ∨ r.op = 0x1A then finishFire s' none [] src
      else finishFire s' none (sendAll r .ord 0)
        (if rd.kind = 3 then joinSrc src [(p.num, (s'.tileAt p).ordSeq)] else src)

/-- The next beat of the rule in progress on a datapath (R75): A where `path` holds; memory and edge tiles have one, B. -/
def execNBeatRuleBeat (folio col row : Nat) (path : Bool) (s : State) : Out :=
  event s <|
    match s.liveTile folio col row with
    | none => none
    | some (n, _, rd) =>
      let t := s.ftile folio col row
      match if path then t.beatA else t.beatB with
      | none => none
      | some b =>
        match rd.rule? b.slot with
        | none => none
        | some r => 
          if beatReady t r b = true ∧ fifoOk rd t r = true then
            let p : Place := { f := folio, n := n, c := col, r := row }
            some (if rd.kind = 0 then s.peBeat p rd r b else s.memFire p rd r b)
          else none

/-! The converter (R343). -/

/-- Puts collected elements through the conversion, and empties the collector where a block is whole. -/
def FTile.cvtTake (t : FTile) (rd : TileRec) (els : List Nat) : FTile × FFlags :=
  let e := t.convE.getD 0
  let blk := t.conv ++ els
  if isBlock rd.tgt then
    if 32 ≤ blk.length then
      let r := blockTokens rd.tgt rd.gap (blk.map (sourceVal rd.frm e))
      ({ t with conv := [], convE := none, convO := t.convO ++ r.1 }, r.2)
    else ({ t with conv := blk }, 0)
  else
    let rs := els.map (toScalar rd.frm rd.tgt e)
    let toks := rs.map fun x => (false, elementOf (formatOf rd.tgt) x.1)
    let blk := if isBlock rd.frm = true ∧ blk.length < 32 then blk else []
    ({ t with conv := blk, convE := if blk = [] then none else t.convE, convO := t.convO ++ toks },
      rs.foldl (fun f x => f ||| x.2) 0)

/-- One step of the sequencer. A rule that dequeues ERR, on either input, changes no predicate (R71). A block that is not full is padded with +0, of which a scalar target gets its tokens too (log 59).
Converted tokens descend from what every element and the exponent of their block descends from (R182). -/
def State.cvtFire (s : State) (p : Place) (rd : TileRec) (r : Rule) : State :=
  let t := s.tileAt p
  let put := fun (x : FTile × FFlags) => (s.setTileAt p { x.1 with q := predsAfter r x.1.q none }).raise p x.2
  match cvtStep rd t with
  | .none => s
  | .send =>
    match t.convO with
    | (ex, w) :: rest => put (({ t with convO := rest }).sendToks t.convSrc [(if ex then 1 else 0, .data, w)], 0)
    | [] => s
  | .take =>
    let starts : Bool := isBlock rd.frm = true ∧ t.conv = []
    let src := joinSrc (joinSrc (if t.conv = [] then [] else t.convSrc) (if starts then t.headSrc 1 else [])) (t.headSrc 0)
    let (ew, t) := if starts then (((t.inp 1).head?.map (·.payload)), t.pop 1) else (t.convE, t)
    let els := match t.inp 0 with
      | k :: _ => tokenElements rd.frm k.payload
      | [] => []
    put (({ t with convE := ew, convSrc := src }.pop 0).cvtTake rd els)
  | .poison =>
    let w := ((t.inp 1).head?.map (·.payload)).getD 0
    let src := joinSrc (t.headSrc 1) (t.headSrc 0)
    s.setTileAt p (((t.pop 1).pop 0).sendToks src (sendAll r .err w))
  | .pad =>
    if isBlock rd.tgt then
      let e := t.convE.getD 0
      let vs := t.conv.map (sourceVal rd.frm e) ++ List.replicate (32 - t.conv.length) (.fin false 0 0)
      let x := blockTokens rd.tgt rd.gap vs
      put ({ t with conv := [], convE := none, convO := x.1 }, x.2)
    else put ({ t with conv := [], convE := none, convO := List.replicate (32 - t.conv.length) (false, 0) }, 0)
  | .forward =>
    match t.inp 0 with
    | k :: _ =>
      let x := (t.pop 0).emit 0 { k with arr := 0 }
      if k.kind = .err then s.setTileAt p x else put (x, 0)
    | [] => s

/-! The picker (R74, R77). -/

/-- Fires one rule of a tile: all of a single-beat rule, the first beat of an N-beat one. -/
def State.fireSlot (s : State) (p : Place) (rd : TileRec) (slot : Nat) : State :=
  match rd.rule? slot with
  | none => s
  | some r =>
    match rd.kind with
    | 0 => s.peBeat p rd r (firstBeat slot)
    | 2 => s.cvtFire p rd r
    | _ => s.memFire p rd r (firstBeat slot)

/-- Whether a rule is ready in the state that an earlier one leaves behind. -/
def State.slotReady (s : State) (p : Place) (rd : TileRec) (slot : Nat) : Bool :=
  (s.regionOf p).phase == .running &&
  match rd.rule? slot with
  | some r => ruleReady rd (s.tileAt p) r
  | none => false

/-- The slot that forms a pair with slot m in a PE (R74): the lowest later one. The inputs that a rule dequeues and the outputs it
enqueues to are those of its DEQ and ENQ masks, for MERGE, STEER and GATE as well (DESIGN CHOICE, log 121). -/
def State.partnerOf (s : State) (p : Place) (rd : TileRec) (ready : List Nat) (m : Nat) : Option Nat :=
  match rd.rule? m with
  | none => none
  | some x =>
    ready.find? fun n =>
      match rd.rule? n with
      | none => false
      | some y =>
        decide (m < n) && onA x.op != onA y.op && !rd.conflict.getLsbD (16 * m + n) && x.deq &&& y.deq == 0 &&
        x.enq &&& y.enq == 0 && (s.fireSlot p rd m).slotReady p rd n

/-- The bank that a rule of a buffer names as it fires (R76, R77). -/
def State.bankOf (s : State) (p : Place) (rd : TileRec) (slot : Nat) : Option Nat :=
  match rd.rule? slot with
  | none => none
  | some r =>
    if rd.kind = 1 ∧ rd.role = 0 ∧ r.op ≠ 0x00 then
      some (bits (sourceWord (s.tileAt p) r (Config.freeWord s.free) r.srcA) 5 3)
    else none

/-- The operation of a memory or edge tile that a cycle begins with (R77): the one that a bank conflict held back, else the lowest ready
slot. -/
def State.firstOp (s : State) (p : Place) (rd : TileRec) : Option Nat :=
  let ready := readySlots rd (s.tileAt p)
  match (s.tileAt p).owed with
  | some n => if ready.contains n then some n else ready.head?
  | none => ready.head?

/-- The operation that would enter beside it: the lowest slot of the others, after it unless it was held back, that is ready in the
state that it leaves behind. So a rule that the first operation's effect makes ready may enter in its cycle; whether it may, R77 leaves
open (DESIGN CHOICE, log 157). -/
def State.secondOp (s : State) (p : Place) (rd : TileRec) (m : Nat) : Option Nat :=
  (upto rd.rules.length).find? fun n =>
    (if (s.tileAt p).owed = some m then n != m else decide (m < n)) && (s.fireSlot p rd m).slotReady p rd n

/-- Whether two operations name one bank: the later one enters one cycle later (R77). -/
def State.sameBank (s : State) (p : Place) (rd : TileRec) (m n : Nat) : Bool :=
  (s.bankOf p rd m).isSome && s.bankOf p rd m == (s.fireSlot p rd m).bankOf p rd n

/-- The slots that fire in one cycle: a pair of a PE, else its lowest ready slot; up to two operations of a memory or edge
tile in slot order, the second in the next cycle where both name one bank; one step of a converter. -/
def State.pick (s : State) (p : Place) (rd : TileRec) : List Nat :=
  let ready := readySlots rd (s.tileAt p)
  match rd.kind with
  | 0 =>
    match ready.findSome? fun m => (s.partnerOf p rd ready m).map fun n => [m, n] with
    | some l => l
    | none => ready.take 1
  | 2 => ready.take 1
  | _ =>
    match s.firstOp p rd with
    | none => []
    | some m =>
      match s.secondOp p rd m with
      | some n => if s.sameBank p rd m n then [m] else [m, n]
      | none => [m]

/-- The slot that a bank conflict keeps out of this cycle, to enter in the next (R77). -/
def State.owes (s : State) (p : Place) (rd : TileRec) : Option Nat :=
  match s.firstOp p rd with
  | none => none
  | some m => (s.secondOp p rd m).filter (s.sameBank p rd m)

/-- Slots fire one after the other, as long as the invocation runs. -/
def State.fireAll (s : State) (p : Place) (rd : TileRec) : List Nat → State
  | [] => s
  | k :: ks => if s.slotReady p rd k then (s.fireSlot p rd k).fireAll p rd ks else s.fireAll p rd ks

/-- A cycle's picks fire, and a memory tile notes the slot that a bank conflict kept out, if one. -/
def State.fireCycle (s : State) (p : Place) (rd : TileRec) (picks : List Nat) (owed : Option Nat) : State :=
  let s := s.fireAll p rd picks
  if rd.kind = 1 then s.setTileAt p { s.tileAt p with owed := owed } else s

/-- A cycle of a tile whose picker takes a slot first (R74), the slot holding an operation: the rules of that cycle fire. -/
def fireRule (op folio col row slot : Nat) (s : State) : Out :=
  event s <|
    match s.liveTile folio col row with
    | none => none
    | some (n, _, rd) =>
      let p : Place := { f := folio, n := n, c := col, r := row }
      match rd.rule? slot, s.pick p rd with
      | some r, k :: ks => if r.op = op ∧ k = slot then some (s.fireCycle p rd (k :: ks) (s.owes p rd)) else none
      | _, _ => none

def execSigNop (folio col row slot : Nat) (s : State) : Out := fireRule 0x00 folio col row slot s
def execSigMov (folio col row slot : Nat) (s : State) : Out := fireRule 0x01 folio col row slot s
def execSigDup (folio col row slot : Nat) (s : State) : Out := fireRule 0x02 folio col row slot s
def execSigEmit (folio col row slot : Nat) (s : State) : Out := fireRule 0x03 folio col row slot s
def execSigAdd (folio col row slot : Nat) (s : State) : Out := fireRule 0x04 folio col row slot s
def execSigSub (folio col row slot : Nat) (s : State) : Out := fireRule 0x05 folio col row slot s
def execSigMul (folio col row slot : Nat) (s : State) : Out := fireRule 0x06 folio col row slot s
def execSigFma (folio col row slot : Nat) (s : State) : Out := fireRule 0x07 folio col row slot s
def execSigMin (folio col row slot : Nat) (s : State) : Out := fireRule 0x08 folio col row slot s
def execSigMax (folio col row slot : Nat) (s : State) : Out := fireRule 0x09 folio col row slot s
def execSigAnd (folio col row slot : Nat) (s : State) : Out := fireRule 0x0A folio col row slot s
def execSigOr (folio col row slot : Nat) (s : State) : Out := fireRule 0x0B folio col row slot s
def execSigXor (folio col row slot : Nat) (s : State) : Out := fireRule 0x0C folio col row slot s
def execSigShl (folio col row slot : Nat) (s : State) : Out := fireRule 0x0D folio col row slot s
def execSigShr (folio col row slot : Nat) (s : State) : Out := fireRule 0x0E folio col row slot s
def execSigSha (folio col row slot : Nat) (s : State) : Out := fireRule 0x0F folio col row slot s
def execSigPcmp (folio col row slot : Nat) (s : State) : Out := fireRule 0x10 folio col row slot s
def execSigSel (folio col row slot : Nat) (s : State) : Out := fireRule 0x11 folio col row slot s
def execSigSteer (folio col row slot : Nat) (s : State) : Out := fireRule 0x12 folio col row slot s
def execSigGate (folio col row slot : Nat) (s : State) : Out := fireRule 0x13 folio col row slot s
def execSigMerge (folio col row slot : Nat) (s : State) : Out := fireRule 0x14 folio col row slot s
def execSigIter (folio col row slot : Nat) (s : State) : Out := fireRule 0x15 folio col row slot s
def execSigAcc (folio col row slot : Nat) (s : State) : Out := fireRule 0x16 folio col row slot s
def execSigNzsend (folio col row slot : Nat) (s : State) : Out := fireRule 0x17 folio col row slot s
def execSigSink (folio col row slot : Nat) (s : State) : Out := fireRule 0x18 folio col row slot s
def execSigCvt (folio col row slot : Nat) (s : State) : Out := fireRule 0x19 folio col row slot s
def execSigLd (folio col row slot : Nat) (s : State) : Out := fireRule 0x1A folio col row slot s
def execSigSt (folio col row slot : Nat) (s : State) : Out := fireRule 0x1B folio col row slot s
def execSigAtAdd (folio col row slot : Nat) (s : State) : Out := fireRule 0x1C folio col row slot s
def execSigAtMin (folio col row slot : Nat) (s : State) : Out := fireRule 0x1D folio col row slot s
def execSigAtMax (folio col row slot : Nat) (s : State) : Out := fireRule 0x1E folio col row slot s
def execSigAtOr (folio col row slot : Nat) (s : State) : Out := fireRule 0x1F folio col row slot s
def execSigAtAnd (folio col row slot : Nat) (s : State) : Out := fireRule 0x20 folio col row slot s
def execSigAtXor (folio col row slot : Nat) (s : State) : Out := fireRule 0x21 folio col row slot s
def execSigAtSwap (folio col row slot : Nat) (s : State) : Out := fireRule 0x22 folio col row slot s
def execSigAtCas (folio col row slot : Nat) (s : State) : Out := fireRule 0x23 folio col row slot s
def execSigAtTas (folio col row slot : Nat) (s : State) : Out := fireRule 0x24 folio col row slot s
def execSigCall (folio col row slot : Nat) (s : State) : Out := fireRule 0x25 folio col row slot s
def execSigRet (folio col row slot : Nat) (s : State) : Out := fireRule 0x26 folio col row slot s
def execSigRed (folio col row slot : Nat) (s : State) : Out := fireRule 0x27 folio col row slot s
def execSigDiv (folio col row slot : Nat) (s : State) : Out := fireRule 0x28 folio col row slot s
def execSigSqrt (folio col row slot : Nat) (s : State) : Out := fireRule 0x29 folio col row slot s

end Sys2Proof.Machine
end

