-- ==== Sys2Proof/Machine/Ports.lean ====
section
/-! DEFINITION. Edge address generators (R81, R88, R91, R397): patterns, loaders and storers. -/

namespace Sys2Proof.Machine

/-- Elements of a pattern. -/
def Pattern.total (p : Pattern) : Nat := (p.counts.take p.dims).foldl (· * ·) 1

/-- The displacement of element i: count 0 is innermost. -/
def displacement : List Nat → List Int → Nat → Int
  | c :: cs, d :: ds, i => (i % c : Nat) * d + displacement cs ds (i / c)
  | _, _, _ => 0

/-- The address of element i of an affine pattern. -/
def Pattern.addr (p : Pattern) (i : Nat) : Word :=
  p.base + BitVec.ofInt 64 (displacement (p.counts.take p.dims) (p.strides.take p.dims) i)

/-- The address of an indirect pattern for an index. -/
def Pattern.indexed (p : Pattern) (index : Word) : Word := p.base + index * BitVec.ofInt 64 (nth 0 p.strides 0)

/-- Elements in one token. -/
def Pattern.perToken (p : Pattern) : Nat := 8 / p.esize

/-- The number of a port (R81). -/
def portNo (col row : Nat) : Nat := col + (if row = 35 then 40 else 0)

/-- The command that feeds a port: the one it runs, or the oldest at its scoreboard while a stream invocation runs (R91,
R397). -/
def State.takeCmd (s : State) (p : Place) (rd : TileRec) : Option (Pattern × Option Nat × State) :=
  let t := s.tileAt p
  let g := s.regionOf p
  match t.cmd with
  | some (x, num) => some (x, num, s)
  | none =>
    match rd.bySrc, g.inv, g.streams.find? fun x => x.port == portNo rd.col rd.row with
    | true, some .stream, some x =>
      some (x.pattern, some x.num, s.setTileAt p
        { t with cmd := some (x.pattern, some x.num), indexed := x.pattern.indirect, pos := 0, taken := true })
    | _, _, _ => none

/-- A port that has fed the stream invocation nothing yet is fed its oldest command (R397). -/
def State.feed (s : State) (p : Place) (rd : TileRec) : State :=
  if (s.tileAt p).taken then s
  else match s.takeCmd p rd with
    | some (_, _, s') => s'
    | none => s

/-- A port has done its pattern: a stream command is complete. -/
def State.endCmd (s : State) (p : Place) (num : Option Nat) : State :=
  let t := s.tileAt p
  match num with
  | none => s.setTileAt p { t with cmd := none, pos := 0, fin := true }
  | some k =>
    let s := s.setTileAt p { t with cmd := none, pos := 0 }
    s.setRegion p.f p.n { s.regionOf p with streams := (s.regionOf p).streams.filter fun x => x.num != k }

/-- Sends one token on an output of a port. -/
def State.sendFrom (s : State) (p : Place) (o : Nat) (k : TokKind) (v : Word) (src : Table Nat) : State :=
  s.setTileAt p ((s.tileAt p).emit o { kind := k, payload := v, src := src, arr := 0 })

/-- Reads n elements of an affine pattern from element i: their packed value, poison and the state, or a fault. -/
def State.readElements (s : State) (p : Place) (x : Pattern) : Nat → Nat → Except (Nat × Word) (Nat × Bool × State)
  | _, 0 => .ok (0, false, s)
  | i, n + 1 =>
    match s.fieldLoad (s.regionOf p).owner p.f (x.addr i) x.esize 5 with
    | .error e => .error (e, x.addr i)
    | .ok y =>
      match y.s.readElements p x (i + 1) n with
      | .error e => .error e
      | .ok (w, bad, s) => .ok (y.v + 2 ^ (8 * x.esize) * w, y.bad || bad, s)

/-- A loader's token: DATA, or ERR with a free payload where it read poison (R81; log 10). It descends from the indices that gave
its addresses (R182). -/
def State.sendLoaded (s : State) (p : Place) (v : Nat) (bad : Bool) (src : Table Nat) : State :=
  if bad then
    let (w, s) := s.freeWord
    s.sendFrom p 0 .err w src
  else s.sendFrom p 0 .data (BitVec.ofNat 64 v) src

/-- A loader of an indirect pattern takes its next index (R81): elements gather into tokens. -/
def State.loadIndexed (s : State) (p : Place) (x : Pattern) (index : Word) : State :=
  match s.fieldLoad (s.regionOf p).owner p.f (x.indexed index) x.esize 5 with
  | .error e => s.discardAt p.f p.n p.c p.r e none (some (x.indexed index))
  | .ok y =>
    let src := joinSrc (y.s.tileAt p).convSrc ((y.s.tileAt p).headSrc 0)
    let t := (y.s.tileAt p).pop 0
    let els := t.conv ++ [y.v]
    let t := { t with pos := t.pos + 1, convE := if y.bad then some 0 else t.convE }
    if els.length = x.perToken ∨ t.pos = x.total then
      let poison := t.convE.isSome
      (y.s.setTileAt p { t with conv := [], convE := none, convSrc := [] }).sendLoaded p (packLanes (8 * x.esize) els) poison src
    else y.s.setTileAt p { t with conv := els, convSrc := src }

/-- A loader's next token (R81): an element token, or the EOS that ends its pattern. -/
def execLoaderReadResponse (folio col row : Nat) (s : State) : Out :=
  event s <|
    match s.liveTile folio col row with
    | none => none
    | some (n, _, rd) =>
      let p : Place := { f := folio, n := n, c := col, r := row }
      if rd.kind ≠ 3 ∨ rd.storer = true then none
      else
        match s.takeCmd p rd with
        | none => none
        | some (x, num, s) =>
          let t := s.tileAt p
          if t.roomOut 0 = false then none
          else if t.pos = x.total then some ((s.sendFrom p 0 .eos 0 []).endCmd p num)
          else if x.indirect then
            match t.inp 0 with
            | [] => none
            | k :: _ =>
              match k.kind with
              | .data => some (s.loadIndexed p x k.payload)
              | .err => some (s.discardAt folio n col row 0x16 none none)
              | _ => some (s.setTileAt p (t.pop 0))
          else
            let len := min x.perToken (x.total - t.pos)
            match s.readElements p x t.pos len with
            | .error (e, a) => some (s.discardAt folio n col row e none (some a))
            | .ok (v, bad, s) => some ((s.setTileAt p { s.tileAt p with pos := t.pos + len }).sendLoaded p v bad [])

/-- Stores n elements of a token from element i of an affine pattern, while the invocation runs. -/
def State.storeElements (s : State) (p : Place) (x : Pattern) (v fence : Nat) : Nat → Nat → State
  | _, 0 => s
  | i, n + 1 =>
    let s := s.hold p.f p.n p.c p.r none (x.addr i) x.esize v fence
    if (s.regionOf p).phase = .running then s.storeElements p x (v / 2 ^ (8 * x.esize)) fence (i + 1) n else s

/-- The outputs of a tile that a route binds. -/
def TileRec.bound (rd : TileRec) : List Nat := (upto 4).filter fun o => (nth none rd.routes o).isSome

/-- A storer has accepted a DATA token: the ORD tokens, which name the latest entry that took an element of it, and the end of its
pattern (R87, R182, R397). -/
def State.storeAccepted (s : State) (p : Place) (rd : TileRec) (x : Pattern) (num : Option Nat) (src : Table Nat) : State :=
  if (s.regionOf p).phase ≠ .running then s
  else
    let src := joinSrc src [(p.num, (s.tileAt p).ordSeq)]
    let s := rd.bound.foldl (fun s o => s.sendFrom p o .ord 0 src) s
    let s := s.setTileAt p { s.tileAt p with ordSeq := 0 }
    if (s.tileAt p).pos = x.total then s.endCmd p num else s

/-- A storer of an indirect pattern stores the next element of the token on i1 at the index on i0. -/
def State.storeIndexed (s : State) (p : Place) (rd : TileRec) (x : Pattern) (num : Option Nat) (k : Token) (index : Word)
    (fence : Nat) : State :=
  let j := (s.tileAt p).conv.length
  let src := joinSrc (s.tileAt p).convSrc ((s.tileAt p).headSrc 0)
  let s := s.hold p.f p.n p.c p.r none (x.indexed index) x.esize (k.payload.toNat / 2 ^ (8 * x.esize * j)) fence
  let t := (s.tileAt p).pop 0
  let t := { t with pos := t.pos + 1, conv := t.conv ++ [0], convSrc := src }
  if t.conv.length = x.perToken ∨ t.pos = x.total then
    (s.setTileAt p { t.pop 1 with conv := [], convSrc := [] }).storeAccepted p rd x num (joinSrc k.src src)
  else s.setTileAt p t

/-- A storer takes the next token of its data input (R81, R88): i0, or i1 beside the indices of an indirect pattern, whether that pattern
runs or was its latest (DESIGN CHOICE, log 15). -/
def execStorerAccept (folio col row : Nat) (s : State) : Out :=
  event s <|
    match s.liveTile folio col row with
    | none => none
    | some (n, _, rd) =>
      let p : Place := { f := folio, n := n, c := col, r := row }
      if rd.kind ≠ 3 ∨ rd.storer = false then none
      else
        let cmd := s.takeCmd p rd
        let s := match cmd with
          | some (_, _, s') => s'
          | none => s
        let t := s.tileAt p
        let i := t.dataInput
        match t.inp i with
        | [] => none
        | k :: _ =>
          match k.kind, cmd with
          | .err, _ => some (s.discardAt folio n col row 0x16 none none)
          | .eos, _ => some ((s.setTileAt p (t.pop i)).countEos p rd 1)
          | .ord, _ => some (s.setTileAt p { t.pop i with fence := max t.fence k.arr })
          | .data, none => none
          | .data, some (x, num, _) =>
            if rd.bound.all t.roomOut = false then none
            else if x.indirect then
              match t.inp 0 with
              | [] => none
              | ix :: _ =>
                match ix.kind with
                | .data => some (s.storeIndexed p rd x num k ix.payload (max (k.fence p.num) (ix.fence p.num)))
                | .err => some (s.discardAt folio n col row 0x16 none none)
                | .ord => some (s.setTileAt p { t.pop 0 with fence := max t.fence ix.arr })
                | _ => some (s.setTileAt p (t.pop 0))
            else
              let len := min x.perToken (x.total - t.pos)
              let s := s.storeElements p x k.payload.toNat (k.fence p.num) t.pos len
              let t := s.tileAt p
              some ((s.setTileAt p { t.pop i with pos := t.pos + len }).storeAccepted p rd x num k.src)
          | _, _ => some (s.setTileAt p (t.pop i))

end Sys2Proof.Machine
end

