-- ==== Sys2Proof/Machine/Image.lean ====
section
/-! DEFINITION. Configuration images: the layout of records and rules (R291 to R299), the load check (R80, R293, R295), and the
fetch of an image (R395). -/

namespace Sys2Proof.Machine

/-- A rejected image: reason, column, row, slot (R80). -/
structure Reject where
  reason : Nat
  col    : Nat
  row    : Nat
  slot   : Nat

/-- The status word of a rejection (R80). -/
def Reject.word (r : Reject) : Word := BitVec.ofNat 64 (r.reason + 2 ^ 8 * r.col + 2 ^ 16 * r.row + 2 ^ 24 * r.slot)

/-- A check of the load. -/
abbrev Chk := Except Reject Unit
def reject {α : Type} (reason col row slot : Nat) : Except Reject α :=
  .error { reason := reason, col := col, row := row, slot := slot }
def chk (ok : Bool) (reason col row slot : Nat) : Chk := if ok then .ok () else reject reason col row slot

/-! The fetch. -/

/-- Reads n words with user rights from memory of kinds 0 to 4: the words, or the address that faults, and what the requests met. -/
def State.fetchImage (s : State) (ctx : Nat) : Nat → Word → Except Word (List Word) × State
  | 0, _ => (.ok [], s)
  | n + 1, va =>
    match s.unitFetch ctx .user va fun k => k ≤ 4 with
    | (.error _, s) => (.error va, s)
    | (.ok w, s) =>
      match s.fetchImage ctx n (va + 8) with
      | (.error a, s) => (.error a, s)
      | (.ok ws, s) => (.ok (w :: ws), s)

/-! Stream descriptors (R81, R397). -/

/-- The fields of a stream descriptor. -/
def Pattern.ofWords (ws : List Word) : Pattern :=
  let w := fun i => nth 0 ws i
  let c := fun i => bits (w (2 + i / 2)) (if i % 2 = 0 then 31 else 63) (if i % 2 = 0 then 0 else 32)
  { base := w 0, esize := 2 ^ bits (w 1) 1 0, dims := bits (w 1) 3 2 + 1, indirect := bit (w 1) 4, storer := bit (w 1) 5
    scope := bits (w 1) 7 6, counts := (upto 4).map c, strides := (upto 4).map fun i => (w (4 + i)).toInt }

/-- What is wrong with a stream descriptor: reason 0x07 or 0x0A (R397). -/
def patternFault (ws : List Word) : Option Nat :=
  let p := Pattern.ofWords ws
  if bits (nth 0 ws 1) 63 8 ≠ 0 then some 0x07
  else if (p.counts.take p.dims).any (· == 0) || (p.counts.drop p.dims).any (· != 0) || (p.indirect && p.dims != 1) then
    some 0x0A
  else none

/-! Records. -/

/-- A rule of two words (R291, R292). -/
def Rule.ofWords (w0 w1 : Word) : Rule where
  imm16 := BitVec.ofNat 16 (bits w0 63 48)
  nmin := bits w0 39 36
  outreq := BitVec.ofNat 4 (bits w0 35 32)
  inkind := (upto 4).map fun j => bits w0 (22 + 3 * j) (20 + 3 * j)
  inreq := BitVec.ofNat 4 (bits w0 19 16)
  qval := BitVec.ofNat 8 (bits w0 15 8)
  qcare := BitVec.ofNat 8 (bits w0 7 0)
  pcmpt := bits w1 53 51
  qv := BitVec.ofNat 8 (bits w1 50 43)
  qw := BitVec.ofNat 8 (bits w1 42 35)
  okind := bits w1 34 32
  enq := BitVec.ofNat 4 (bits w1 31 28)
  deq := BitVec.ofNat 4 (bits w1 27 24)
  srcC := bits w1 23 20
  srcB := bits w1 19 16
  srcA := bits w1 15 12
  dst := bits w1 11 7
  op := bits w1 6 0

/-- A route word (R299), none where the output is not bound. -/
def Route.ofWord (w : Word) : Option Route :=
  if bit w 0 = false then none
  else some { dcol := (BitVec.ofNat 7 (bits w 8 2)).toInt, drow := bits w 14 9, din := bits w 16 15, lane := bits w 18 17
              sfmt := bits w 23 19, rfmt := bits w 28 24 }

/-- The 256 bits of the conflict matrix. -/
def conflictOf (ws : List Word) : BitVec 256 :=
  BitVec.ofNat 256 ((nth 0 ws 14).toNat + 2 ^ 64 * (nth 0 ws 15).toNat + 2 ^ 128 * (nth 0 ws 16).toNat + 2 ^ 192 * (nth 0 ws 17).toNat)

/-- A record of 64 words (R296, R297), its initial data apart. -/
def TileRec.ofWords (ws : List Word) : TileRec :=
  let h := nth 0 ws 0
  let kind := bits h 14 12
  let cfg := nth 0 ws 1
  { col := bits h 5 0, row := bits h 11 6, kind := kind, sink := bit h 20, sinkN := bits h 36 21, cfg := cfg
    e := (upto 8).map fun i => nth 0 ws (2 + i)
    memInit := []
    pattern := if kind = 3 ∧ bit cfg 1 = false ∧ ((upto 8).any fun i => nth 0 ws (2 + i) != 0) then
      some (Pattern.ofWords ((upto 8).map fun i => nth 0 ws (2 + i))) else none
    iterStrides := (upto 4).map fun i => (nth 0 ws (18 + i)).toInt
    routes := (upto 4).map fun i => Route.ofWord (nth 0 ws (10 + i))
    conflict := conflictOf ws
    rules := (upto (min 16 (bits h 19 15))).map fun i => Rule.ofWords (nth 0 ws (32 + 2 * i)) (nth 0 ws (33 + 2 * i)) }

/-! The rules' checks. -/

/-- Which of the sources A, B, C an operation uses (R294). -/
def usesOf (op : Nat) : Bool × Bool × Bool :=
  match op with
  | 0x00 => (false, false, false)
  | 0x01 => (true, false, false)
  | 0x02 => (true, false, false)
  | 0x07 => (true, true, true)
  | 0x14 => (false, false, false)
  | 0x15 => (false, false, false)
  | 0x16 => (true, false, false)
  | 0x17 => (true, false, false)
  | 0x18 => (false, false, false)
  | 0x19 => (true, false, false)
  | 0x1A => (true, false, false)
  | 0x23 => (true, true, true)
  | 0x24 => (true, false, false)
  | 0x25 => (true, false, false)
  | 0x26 => (true, false, false)
  | 0x27 => (true, false, false)
  | 0x29 => (true, false, false)
  | _ => (true, true, false)

/-- Memory operations (R294). -/
def isMem (op : Nat) : Bool := 0x1A ≤ op && op ≤ 0x24

/-- Where an operation may stand (R76, R80, R331, R342, R435): the reason where it may not. A CVT rule in the slot of a memory or an edge
tile has reason 0x03, as R342 says, and not the 0x02 of R435 (DESIGN CHOICE, log 156). A rule of a converter node that is neither CVT
nor a memory operation has reason 0x02, where R80 names none (DESIGN CHOICE, log 158). -/
def placeFault (rd : TileRec) (r : Rule) : Option Nat :=
  if r.op = 0x19 then (if rd.kind = 2 then none else some 0x03)
  else
    match rd.kind with
    | 0 => if isMem r.op then some 0x02 else none
    | 1 =>
      if r.op = 0x00 ∨ (isMem r.op = true ∧ (rd.role = 0 ∨ r.op = 0x1A ∨ (rd.role = 1 ∧ r.op = 0x1B))) then none else some 0x02
    | 3 => if isMem r.op = false ∧ r.op ≠ 0x00 then some 0x02 else if 0x1C ≤ r.op ∧ r.dst ≠ 12 then some 0x0B else none
    | _ => some 0x02

/-- Whether an operation's DST may be 0 to 7, 8 to 11, 12. -/
def dstAllowed (op dst : Nat) : Bool :=
  let reg := dst < 8
  let out := 8 ≤ dst && dst ≤ 11
  let non := dst == 12
  match op with
  | 0x00 => non
  | 0x02 => reg || non
  | 0x03 => out
  | 0x10 => non
  | 0x11 => reg || out
  | 0x12 => out
  | 0x13 => out
  | 0x14 => out
  | 0x15 => reg || out
  | 0x16 => reg
  | 0x17 => out
  | 0x18 => non
  | 0x19 => dst == 8
  | 0x1A => reg || out
  | 0x1B => non
  | 0x25 => non
  | 0x26 => non
  | _ => true

/-- Operations that may name no output in ENQ (R323, R381, R385, R390, R403, R104). -/
def noEnq (op : Nat) : Bool := op == 0x00 || op == 0x10 || op == 0x16 || op == 0x18 || op == 0x25 || op == 0x26

/-- The fields of a RET rule (R390) and of a CALL rule (R104). -/
def retFieldsOk (r : Rule) : Bool :=
  r.nmin == 1 && r.inreq == 1 && r.deq == 1 && r.srcA == 8 && r.srcB == 13 && r.srcC == 13 && r.dst == 12 && r.enq == 0
def callArgs (r : Rule) : Nat := r.imm16.toNat / 64 % 16
def callLive (r : Rule) : Nat := r.imm16.toNat / 1024 % 16
def callBeatsOk (r : Rule) : Bool :=
  r.imm16.toNat / 2 ^ 14 == 0 && r.nmin == callArgs r + callLive r && decide (r.beats ≤ 16) && r.deq == 1

/-- The fields of a CVT rule (R342). -/
def cvtFieldsOk (rd : TileRec) (r : Rule) : Bool :=
  r.srcA == 8 && r.deq == (if isBlock rd.frm then 3 else 1) && r.enq == (if isBlock rd.tgt then 3 else 1)

/-- The outputs that STEER must name (R409). -/
def steerOk (r : Rule) : Bool :=
  match channels r.enq with
  | [a, _] => r.dst == 8 + a
  | _ => false

/-- The uses of IMM16 and other fields that an operation fixes (R293, R367, R374, R385, R393, R371, R408). -/
def fieldsOk (rd : TileRec) (r : Rule) : Bool :=
  match r.op with
  | 0x10 => r.imm16.toNat % 8 ≤ 5
  | 0x11 => r.srcA == 12 || r.srcB == 12 || r.imm16.toNat / 8 == 0
  | 0x12 => steerOk r
  | 0x14 => r.inreq == 0 && r.nmin == 0 && r.okind == 0
  | 0x15 => r.imm16.toNat / 4 == 0
  | 0x19 => cvtFieldsOk rd r
  | 0x1A => !(rd.kind == 1 && rd.role == 1) || r.srcA == 13
  | 0x1B => (!(rd.kind == 1 && rd.role == 1) || r.srcA == 13) && (r.enq == 0 || r.okind == 4)
  | 0x25 => r.srcA == 8
  | _ => true

/-- Operations that a float type, or an integer type, does not have (R294, R388, R402, R406). -/
def typeFault (rd : TileRec) (r : Rule) : Bool :=
  rd.kind == 0 &&
  ((0x0A ≤ r.op && r.op ≤ 0x0F && isFloat rd.ty) || (r.op == 0x29 && isInt rd.ty) ||
   (r.op == 0x27 && isFloat rd.ty && 3 ≤ r.imm16.toNat % 8))

/-- N-beat rules and DEEP (R75): with N > 4 all inputs are drawn from i0. -/
def beatFault (rd : TileRec) (r : Rule) : Bool :=
  4 < r.beats &&
    (((r.inreq ||| r.deq) &&& 14 != 0) || (r.sources.any fun c => 9 ≤ c && c ≤ 11) || rd.kind != 0 || !bit rd.cfg 8)

/-- The checks of one rule; w0 and w1 are its words. -/
def ruleFault (rd : TileRec) (w0 w1 : Word) : Option Nat :=
  let r := Rule.ofWords w0 w1
  let u := usesOf r.op
  if 0x2A ≤ r.op ∨ r.okind = 2 ∨ 6 ≤ r.okind then some 0x01
  else if r.op = 0x27 ∧ (6 ≤ r.imm16.toNat % 8 ∨ r.imm16.toNat / 8 ≠ 0) then some 0x01
  else if bits w0 47 40 ≠ 0 ∨ bits w1 63 54 ≠ 0 ∨ 13 ≤ r.dst ∨ (r.sources.any fun c => 14 ≤ c) = true ∨
      (r.inkind.any fun k => k == 6) = true then some 0x07
  else
    match placeFault rd r with
    | some x => some x
    | none =>
      if r.op = 0x26 ∧ retFieldsOk r = false then some 0x06
      else if r.op = 0x25 ∧ (8 < callArgs r ∨ 8 < callLive r) then some 0x0A
      else if r.op = 0x25 ∧ callBeatsOk r = false then some 0x06
      else if beatFault rd r then some 0x06
      else if typeFault rd r then some 0x0A
      else if (!u.1 && r.srcA != 13) || (!u.2.1 && r.srcB != 13) || (!u.2.2 && r.srcC != 13) then some 0x07
      else if (8 ≤ r.dst && r.dst ≤ 11 && !named r.enq (r.dst - 8)) || (r.dst < 8 && r.enq != 0 && r.op != 0x02) then some 0x07
      else if !dstAllowed r.op r.dst || (noEnq r.op && r.enq != 0) || !fieldsOk rd r then some 0x07
      else none

/-! The records' checks. -/

/-- The kind of a tile position by column and row (R68). -/
def positionKind (c r : Nat) : Nat :=
  if r = 0 ∨ r = 35 then 3
  else if r % 6 = 5 then 1
  else if (r = 8 ∨ r = 14 ∨ r = 20 ∨ r = 26) ∧ c % 5 = 2 then 2
  else 0

/-- Whether a configuration word leaves its reserved bits zero (R298). -/
def cfgReservedOk (kind : Nat) (w : Word) : Bool :=
  match kind with
  | 0 => bits w 63 18 == 0 && !bit w 9
  | 1 => bits w 63 2 == 0
  | 2 => bits w 63 13 == 0
  | 3 => bits w 63 5 == 0
  | _ => w == 0

/-- A valid conversion pair (R298). -/
def pairOk (a b : Nat) : Bool :=
  a != b && (a ≤ 11 || a == 15 || a == 16) && (b ≤ 11 || b == 15 || b == 16) &&
  !(isInt a && isBlock b) && !(isInt b && isBlock a)

/-- A configuration word's codes (R298). -/
def cfgCodesOk (rd : TileRec) : Bool :=
  match rd.kind with
  | 0 => rd.ty ≤ 14 && rd.rm ≤ 4
  | 1 => rd.role ≤ 2
  | 2 => pairOk rd.frm rd.tgt
  | _ => true

/-- The bits of a conflict matrix with m ≥ n are zero (R296). -/
def conflictOk (m : BitVec 256) : Bool := (upto 16).all fun i => (upto 16).all fun j => j > i || !m.getLsbD (16 * i + j)

/-- The fixed parts of a record's words 2 to 31 by kind (R296). -/
def partsOk (kind : Nat) (ws : List Word) : Bool :=
  let zero := fun a n => (upto n).all fun i => nth 0 ws (a + i) == 0
  zero 22 10 && (kind == 3 || zero 18 4) && conflictOk (conflictOf ws) &&
  (match kind with
   | 0 => true
   | 1 => zero 5 5
   | 3 => true
   | _ => zero 2 8)

/-- The inline pattern of an edge tile (R296, R81): the reason of its rejection. A descriptor of zeros names no pattern, and is held
against the tile's STORER and OSCOPE like any other. -/
def inlineFault (rd : TileRec) (ws : List Word) : Option Nat :=
  let d := (upto 8).map fun i => nth 0 ws (2 + i)
  if d.all (· == 0) then (if rd.bySrc = true ∨ (rd.storer = false ∧ bits rd.cfg 4 3 = 0) then none else some 0x07)
  else if rd.bySrc then some 0x07
  else
    match patternFault d with
    | some x => some x
    | none =>
      let p := Pattern.ofWords d
      if p.storer = rd.storer ∧ p.scope = bits rd.cfg 4 3 then none else some 0x07

/-- The initial data of a memory tile (R295, R298): image offset, length, tile offset. -/
def dataFault (rd : TileRec) (ws : List Word) (len : Nat) : Option Nat :=
  let off := (nth 0 ws 2).toNat
  let n := (nth 0 ws 3).toNat
  let at_ := (nth 0 ws 4).toNat
  if rd.kind ≠ 1 then none
  else if len < off + n then some 0x07
  else if (rd.role ≠ 0 ∧ (off ≠ 0 ∨ n ≠ 0 ∨ at_ ≠ 0)) ∨ off % 64 ≠ 0 ∨ n % 8 ≠ 0 ∨ at_ % 8 ≠ 0 ∨ 65536 < at_ + n then some 0x0A
  else none

/-- The sink fields of a record (R88, R403). -/
def sinkFault (rd : TileRec) : Option Nat :=
  if rd.sink = true ∧ ¬(rd.kind = 0 ∨ (rd.kind = 3 ∧ rd.storer = true)) then some 0x07
  else if rd.kind = 0 ∧ rd.sink ≠ (rd.rules.any fun r => r.op == 0x18) then some 0x07
  else if rd.sink = true ∧ rd.sinkN = 0 then some 0x0A
  else none

/-- The most rules a tile kind holds (R297). -/
def rulesMax : Nat → Nat
  | 0 => 16
  | 4 => 0
  | _ => 8

/-- The checks of a record by itself; `first` is the region's first column, which may put no converter where a converter's record
needs one in a row that has converters (R79; DEDUCED, log 122). -/
def recordChk (first width len : Nat) (ws : List Word) : Chk := do
  let h := nth 0 ws 0
  let rd := TileRec.ofWords ws
  let c := rd.col
  let r := rd.row
  let bad := fun (x : Option Nat) (slot : Nat) => match x with
    | some reason => (reject reason c r slot : Chk)
    | none => .ok ()
  chk (bits h 63 37 == 0) 0x07 c r 0
  chk (rd.kind ≤ 4) 0x0A c r 0
  chk (c < width && r < 36) 0x08 c r 0
  let pk := positionKind (first + c) r
  chk (!(rd.kind == 2 && pk != 2 && [8, 14, 20, 26].contains r)) 0x04 c r 0
  chk (rd.kind == pk || (rd.kind == 4 && pk ≤ 1)) 0x08 c r 0
  chk (bits h 19 15 ≤ rulesMax rd.kind) 0x09 c r 0
  chk (cfgReservedOk rd.kind rd.cfg && partsOk rd.kind ws) 0x07 c r 0
  chk (cfgCodesOk rd) 0x0A c r 0
  bad (sinkFault rd) 0
  bad (dataFault rd ws len) 0
  bad (if rd.kind = 3 then inlineFault rd ws else none) 0
  (upto rd.rules.length).forM fun i => bad (ruleFault rd (nth 0 ws (32 + 2 * i)) (nth 0 ws (33 + 2 * i))) i

/-! The routes' checks. -/

/-- A link: the position a hop leaves, the position it enters, and its lane (R299). -/
abbrev Link := (Int × Nat) × (Int × Nat) × Nat

/-- The links of a route from a tile. -/
def linksOf (c : Int) (r : Nat) (rt : Route) : List Link :=
  let path := routePath c r rt.dcol rt.drow
  (((c, r) :: path).zip path).map fun e => (e.1, e.2, rt.lane)

/-- Whether a route may leave the region at every gutter it crosses (R80, R82). -/
def State.routeLeaves (s : State) (f first : Nat) (c r : Nat) (rt : Route) : Bool :=
  (linksOf c r rt).all fun l =>
    let a := (first : Int) + l.1.1
    let b := (first : Int) + l.2.1.1
    a == b || !s.gutterClosed f a b

/-- The converter that a change of format needs lies on the route (R79). -/
def converterOn (recs : List TileRec) (c r : Nat) (rt : Route) : Bool :=
  rt.sfmt == rt.rfmt ||
  (((c : Int), r) :: routePath c r rt.dcol rt.drow).any fun p =>
    recs.any fun t => t.kind == 2 && (t.col : Int) == p.1 && t.row == p.2 && t.frm == rt.sfmt && t.tgt == rt.rfmt

/-- The record of an image at a position relative to the region. -/
def recOf (recs : List TileRec) (c : Int) (r : Nat) : Option TileRec := recs.find? fun t => (t.col : Int) == c && t.row == r

/-- The checks of one route word of a record. Where a record of the image could not be fetched (`whole` false), a destination or a
converter that no record before it names is not yet missed. -/
def State.routeChk (s : State) (f first width ecol erow : Nat) (recs : List TileRec) (whole : Bool) (rd : TileRec) (w : Word) :
    Chk := do
  let c := rd.col
  let r := rd.row
  chk (bits w 63 29 == 0 && !bit w 1 && (bit w 0 || w == 0)) 0x07 c r 0
  match Route.ofWord w with
  | none => .ok ()
  | some rt =>
    chk (rt.sfmt ≤ 16 && rt.rfmt ≤ 16) 0x0A c r 0
    chk (converterOn recs c r rt || !whole) 0x04 c r 0
    chk (rt.drow < 36) 0x08 c r 0
    chk (s.routeLeaves f first c r rt) 0x05 c r 0
    if 0 ≤ rt.dcol ∧ rt.dcol < (width : Int) then
      match recOf recs rt.dcol rt.drow with
      | none => chk (!whole) 0x08 c r 0
      | some d =>
        chk (!(d.kind == 0 && bit d.cfg 8 && rt.din != 0)) 0x06 c r 0
        chk (!(rt.dcol == (ecol : Int) && rt.drow == erow && rt.din == 0)) 0x09 c r 0
    else .ok ()

/-- The links that a record's routes take. -/
def TileRec.links (rd : TileRec) : List Link :=
  rd.routes.flatMap fun x => match x with
    | some rt => linksOf rd.col rd.row rt
    | none => []

/-- What a load is for: the region's folio, first column and width, the image's length, and the entry tile. -/
structure LoadPlace where
  f     : Nat
  first : Nat
  width : Nat
  len   : Nat
  ecol  : Nat
  erow  : Nat

/-- The checks of a record, by itself and against those before it in the image: one record a tile (R295), one route a lane of a hop
(R299). -/
def State.recordOk (s : State) (x : LoadPlace) (recs : List TileRec) (whole : Bool) (seen : List (Nat × Nat)) (links : List Link)
    (ws : List Word) : Chk := do
  recordChk x.first x.width x.len ws
  let rd := TileRec.ofWords ws
  chk (!seen.contains (rd.col, rd.row)) 0x08 rd.col rd.row 0
  (upto 4).forM fun o => s.routeChk x.f x.first x.width x.ecol x.erow recs whole rd (nth 0 ws (10 + o))
  chk (rd.links.eraseDups.length == rd.links.length && !(rd.links.any fun l => links.contains l)) 0x09 rd.col rd.row 0

/-! The whole image. -/

/-- The status word of a fault of the image fetch: reason 0x0C, the column and row of the record where its first word, h, is known, else
0, and bits [55:20] of the address (R80; DEDUCED, log 169). -/
def fetchFault (va h : Word) : Word :=
  let rd := TileRec.ofWords [h]
  ({ reason := 0x0C, col := rd.col, row := rd.row, slot := 0 } : Reject).word + BitVec.ofNat 64 (bits va 55 20 * 2 ^ 28)

/-- The words of n records from an address: those before the first that cannot be fetched, the status word of the fault there, and what
the requests met. -/
def State.fetchRecords (s : State) (ctx : Nat) : Nat → Word → List (List Word) × Option Word × State
  | 0, _ => ([], none, s)
  | n + 1, va =>
    match s.fetchImage ctx 64 va with
    | (.error a, s) =>
      let h := match s.fetchImage ctx 1 va with
        | (.ok ws, _) => nth 0 ws 0
        | (.error _, _) => 0
      ([], some (fetchFault a h), s)
    | (.ok ws, s) =>
      match s.fetchRecords ctx n (va + 512) with
      | (rest, a, s) => (ws :: rest, a, s)

/-- Reads the initial data of a memory tile into its table: non-zero bytes at their tile offsets. -/
def initBytes (at_ : Nat) : List Word → Table Byte → Table Byte
  | [], t => t
  | w :: ws, t => initBytes (at_ + 8) ws ((cellsFrom at_ (leBytes 8 w.toNat)).foldl (fun m e => tset 0 m e.1 e.2) t)

/-- The record with its initial data, or the status word of the fault of its fetch. -/
def State.withData (s : State) (ctx : Nat) (image : Word) (ws : List Word) : Except Word TileRec × State :=
  let rd := TileRec.ofWords ws
  if rd.kind ≠ 1 then (.ok rd, s)
  else
    match s.fetchImage ctx ((nth 0 ws 3).toNat / 8) (image + nth 0 ws 2) with
    | (.error a, s) => (.error (fetchFault a (nth 0 ws 0)), s)
    | (.ok d, s) => (.ok { rd with memInit := initBytes (nth 0 ws 4).toNat d [] }, s)

/-- The records in image order, each checked and given its initial data before the next (R80): the status word of the first that
fails, or the records. -/
def State.loadRecords (s : State) (ctx : Nat) (image : Word) (x : LoadPlace) (recs : List TileRec) (whole : Bool) :
    List (List Word) → List (Nat × Nat) → List Link → Except Word (List TileRec) × State
  | [], _, _ => (.ok [], s)
  | ws :: rest, seen, links =>
    match s.recordOk x recs whole seen links ws, s.withData ctx image ws with
    | .error r, _ => (.error r.word, s)
    | _, (.error w, s) => (.error w, s)
    | _, (.ok rd, s) =>
      match s.loadRecords ctx image x recs whole rest ((rd.col, rd.row) :: seen) (links ++ rd.links) with
      | (.error w, s) => (.error w, s)
      | (.ok rds, s) => (.ok (rd :: rds), s)

/-- Fetches and checks the image of a plane for a region (R80, R295, R395): the status word of its rejection, which is that of the first
record that fails in image order, or its records; and what the fetch met. -/
def State.loadImage (s : State) (f : Nat) (g : Region) (p : Plane) (image : Word) (len : Nat) :
    Except Word (List TileRec) × State :=
  match s.fetchImage g.owner 8 image with
  | (.error a, s) => (.error (fetchFault a 0), s)
  | (.ok hdr, s) =>
    let h := nth 0 hdr 0
    let count := bits h 15 0
    let bad := fun reason => ({ reason := reason, col := 0, row := 0, slot := 0 } : Reject).word
    if bits h 21 16 ≠ p.width ∨ bits h 21 16 ≠ g.width then (.error (bad 0x08), s)
    else if len < 64 + 512 * count ∨ bits h 63 22 ≠ 0 ∨ (hdr.drop 1).any (· != 0) = true then (.error (bad 0x07), s)
    else
      match s.fetchRecords g.owner count (image + 64) with
      | (rws, fault, s) =>
        let x : LoadPlace := { f := f, first := g.first, width := g.width, len := len, ecol := p.ecol, erow := p.erow }
        match s.loadRecords g.owner image x (rws.map TileRec.ofWords) fault.isNone rws [] [], fault with
        | (.error w, s), _ => (.error w, s)
        | (.ok _, s), some w => (.error w, s)
        | (.ok rds, s), none => (.ok rds, s)

end Sys2Proof.Machine
end

