-- ==== Sys2Proof/Machine/Joint.lean ====
section
/-! DEFINITION. Joint matrix arrays (R113 to R127, R146, R362, R380): gangs, contributions, the joint operations and their
drains. -/

namespace Sys2Proof.Machine

/-- The array of the issuing thread's row. -/
def State.myArray (s : State) : JArray := s.array s.myQuire (rowOf s.myCore)
def State.setMyArray (s : State) (x : JArray) : State := s.setArray s.myQuire (rowOf s.myCore) x

/-- The number of an array of the device, and the thread that holds a position of it. -/
def State.arrayNo (s : State) : Nat := 12 * s.myQuire + rowOf s.myCore

/-! The accumulator sets (R113, R119). -/

/-- The entries of a set, and whether poison or first use has left them unspecified. -/
def JArray.setOf (x : JArray) (n : Nat) : Table Word := if n = 0 then x.set0 else x.set1
def JArray.spoiled (x : JArray) (n : Nat) : Option Nat := if n = 0 then x.spoiled0 else x.spoiled1
def JArray.putSet (x : JArray) (n : Nat) (t : Table Word) (sp : Option Nat) : JArray :=
  if n = 0 then { x with set0 := t, spoiled0 := sp } else { x with set1 := t, spoiled1 := sp }

/-- The accumulator type of an input format (R119): 0 FP32, 1 FP64, 2 i32. -/
def accOf (i : Nat) : Nat := if i = 3 then 1 else if i = 4 then 2 else 0

/-- An entry of a set: a free value where the set is unspecified (log 10), in the low bits for 32-bit types. -/
def JArray.entry (x : JArray) (n i : Nat) : Nat :=
  let w := match x.spoiled n with
    | some k => Config.freeWord (k + i)
    | none => tget 0 (x.setOf n) i
  if accOf (cfgIn x.cfg) = 1 then w.toNat else w.toNat % 2 ^ 32

/-- Both sets unspecified. -/
def State.spoilBoth (s : State) (x : JArray) : JArray × State :=
  ((x.putSet 0 [] (some s.free)).putSet 1 [] (some (s.free + 16384)), { s with free := s.free + 32768 })

/-! Forming a gang (R114, R115, R362). -/

/-- The array at the start of a new gang: its configuration as the context left it, zero the first time (R118); the sets of a
context that did not use the array last are free values (log 10). -/
def State.newGang (s : State) (x : JArray) (g : Nat) : JArray × State :=
  let c := s.th.ctx
  let (cfg, xoff) := tget (0, 0) x.past c
  let (x, s) := if x.ctx = c ∧ (x.past.any fun e => e.1 == c) = true then (x, s) else s.spoilBoth x
  ({ x with gang := g, ctx := c, formed := false, members := [], left := [], leaving := [], cfg := cfg, xoff := xoff
            contribs := [], issued := [], performed := 0, fails := [], flags := [], draining := none, pins := [] }, s)

/-- A member that waited for its gang goes on: the formation is an acquire. -/
def State.goOn (s : State) (n : Nat) : State :=
  let s := s.acquireOf n
  (s.setThr n { s.thr n with wait := .none }).afterStep n (s.thr n).mode

/-- Members that wait in GANG go on. -/
def State.goOnAll (s : State) (array : Nat) : List Nat → State
  | [] => s
  | n :: ns => (if (s.thr n).wait = .gang array then s.goOn n else s).goOnAll array ns

/-- GANG g with g at least 1 (R115). The table has no row for a core whose membership in the formed gang g has ended while others remain:
its GANG g waits, as for another gang, until the gang ends (DESIGN CHOICE, log 152). -/
def execGang (g : Fin 4096) (s : State) : Out :=
  finish s <| do
    let x := s.myArray
    let p := posOf s.myCore
    need (!x.hasMember s.cur) 0x01 0
    needOrWait (x.gang == 0 ||
      (x.gang == g.val && x.ctx == s.th.ctx && !x.formed && !(x.members.any fun e => e.1 == p)))
    let s ← s.release .quire
    let (x, s) := if x.gang = 0 then s.newGang x g.val else (x, s)
    let x := { x with members := tput x.members p s.cur }
    if x.members.length = 16 then
      let s := s.setMyArray { x with formed := true }
      let s := (s.acquire .quire).retire 1
      .ok (s.goOnAll s.arrayNo (x.members.map (·.2)))
    else
      let t := s.th
      .ok ((s.setMyArray x).setTh { t.endSkip with pc := t.pc + 4, wait := .gang s.arrayNo })

/-! Contributions (R116, R380). -/

/-- Only the core's member may execute an MX instruction (R117). -/
def State.asMember (s : State) : Except Stop JArray := do
  need (s.myArray.formed && s.myArray.hasMember s.cur) 0x01 0
  .ok s.myArray

/-- A member's contribution enters its array. -/
def State.contribute (s : State) (fn : Nat) (d a b : Word) : State :=
  let x := s.myArray
  let p := posOf s.myCore
  s.setMyArray { x with
    contribs := tset [] x.contribs p (tget [] x.contribs p ++ [{ fn := fn, d := d, a := a, b := b }])
    issued := tset 0 x.issued p (tget 0 x.issued p + 1) }

/-- The legal words of MX.CFG (R118, R119). -/
def cfgLegal (w : Word) : Bool :=
  let i := cfgIn w
  let o := cfgOut w
  bits w 63 56 == 0 && bits w 23 14 == 0 && cfgRm w ≤ 4 && i ≤ 6 && o ≤ 7 && cfgLda w != 0 && cfgLdb w != 0 &&
  (match accOf i with
   | 1 => o == 3 || o == 0
   | 2 => o == 4 || o == 7
   | _ => o ≤ 2 || o == 5 || o == 6)

/-- MX.CFG: its checks at issue (R118). The misaligned trap of an odd XOFF gives XOFF as TRAPVAL, for the spec names no address of an
offset (DESIGN CHOICE, log 161). -/
def execMxCfg (a b : SReg) (s : State) : Out :=
  finish s <| do
    let _ ← s.asMember
    need (cfgLegal (s.rs a)) 0x01 (s.rs a)
    need ((s.rs b).toNat % 2 == 0) 0x03 (s.rs b)
    .ok ((s.contribute 0 0 (s.rs a) (s.rs b)).retire 1)

def execMxZero (d : SReg) (s : State) : Out :=
  finish s <| do
    let _ ← s.asMember
    .ok ((s.contribute 1 (s.rs d) 0 0).retire 1)

/-- Checks the bytes of a span, page by page: the first byte that faults, with its cause. -/
def State.spanFault (s : State) (ctx : Nat) : Nat → Word → Nat → Option (Nat × Word)
  | 0, _, _ => none
  | fuel + 1, va, n =>
    if n = 0 then none
    else
      match s.fetchable ctx va with
      | .error c => some (c, va)
      | .ok _ =>
        let step := 4096 - va.toNat % 4096
        s.spanFault ctx fuel (va + BitVec.ofNat 64 step) (n - step)

/-- The first fault among spans, in their order: the rows of A before those of B, each from its lowest address. Which of several faults
an MMA reports the spec leaves open (DESIGN CHOICE, log 162). -/
def State.spansFault (s : State) (ctx : Nat) : List (Word × Nat) → Option (Nat × Word)
  | [] => none
  | (va, n) :: rest =>
    match s.spanFault ctx (n / 4096 + 2) va n with
    | some e => some e
    | none => s.spansFault ctx rest

/-- The configuration that a member's next operand checks use. -/
def JArray.cfgFor (x : JArray) (p : Nat) : Word × Word := x.cfgAt p (tget [] x.contribs p).length

/-- MX.MMA (R116, R120): it issues as soon as its checks pass. The fetch unit reads after the member's own stores have reached their
sites (State.meetOperand). -/
def execMxMma (d a b : SReg) (s : State) : Out :=
  finish s <| do
    let x ← s.asMember
    let w := s.rs d
    let k := bits w 15 0
    need (bits w 63 17 == 0 && k != 0 && k % 32 == 0 && k ≤ 8192) 0x01 w
    let (cfg, xoff) := x.cfgFor (posOf s.myCore)
    let i := cfgIn cfg
    need ((s.rs a).toNat % 64 == 0 && rowBytes i k ≤ 64 * cfgLda cfg) 0x03 (s.rs a)
    need ((s.rs b).toNat % 64 == 0 && rowBytes i k ≤ 64 * cfgLdb cfg) 0x03 (s.rs b)
    match s.spansFault s.th.ctx (operandSpans i k xoff (s.rs a) 8 (cfgLda cfg) ++ operandSpans i k xoff (s.rs b) 128 (cfgLdb cfg)) with
    | some (c, va) => trapV c va
    | none => .ok ((s.contribute 2 w (s.rs a) (s.rs b)).retire 1)

/-- Bytes that a tile must hold for an output format (R124). -/
def drainBytes : Nat → Nat
  | 0 => 4096
  | 1 => 2048
  | 2 => 2048
  | 3 => 8192
  | 4 => 4096
  | 5 => 1088
  | 6 => 576
  | _ => 1024

/-- MX.DRAIN (R124): for a tile destination the tile is taken as by any producer (R58, R59). -/
def execMxDrain (d : SReg) (s : State) : Out :=
  finish s <| do
    let x ← s.asMember
    let w := s.rs d
    need (bits w 15 5 == 0 && bits w 63 18 == 0) 0x01 0
    if bit w 17 then .ok ((s.contribute 3 w 0 0).retire 1)
    else
      let n := bits w 4 0
      need ((s.myTile n).st != .free) 0x07 (tileWord n)
      need (drainBytes (cfgOut (x.cfgFor (posOf s.myCore)).1) ≤ (s.myTile n).len) 0x07 (tileWord n)
      if s.tileIs n .empty then .ok ((((s.moveTile n .filling).acquire .quire).contribute 3 w 0 0).retire 1)
      else .ok (s.waitTile n [.empty])

/-! Completion and leaving (R126, R127). -/

/-- Whether every operation a position has contributed to is complete. -/
def JArray.doneFor (x : JArray) (p : Nat) : Bool := decide (tget 0 x.issued p ≤ x.performed) && x.draining.isNone

/-- The lowest-numbered failure of a position. -/
def lowestFail : List (Nat × Nat) → Option (Nat × Nat)
  | [] => none
  | e :: es =>
    match lowestFail es with
    | none => some e
    | some x => if e.1 < x.1 then some e else some x

/-- The trap that reports a failure (R126). -/
def failTrap (array : Nat) (n status : Nat) : Nat × Word :=
  (if status = 5 then 0x16 else 0x15, BitVec.ofNat 64 (status + 256 * (n % 256) + 65536 * array))

/-- The end of MX.WAIT and of GANG 0: flags, the acquire, and the report of the lowest failure. -/
def State.reportJoint (s : State) (x : JArray) (p : Nat) : State :=
  let s := s.setMyArray { x with fails := tset [] x.fails p [], flags := tset 0 x.flags p 0 }
  let s := (s.orFlags (tget 0 x.flags p)).acquire .quire
  match lowestFail (tget [] x.fails p) with
  | none => s.retire 1
  | some (n, st) => let e := failTrap (rowOf s.myCore) n st; s.retireTrap e.1 e.2

def execMxWait (s : State) : Out :=
  finish s <| do
    let x ← s.asMember
    let p := posOf s.myCore
    needOrWait (x.doneFor p)
    .ok (s.reportJoint x p)

/-- The tiles of drains in a list of contributions of one position see their last write (R58). -/
def State.landDrains (s : State) (core ctx : Nat) : List Contrib → State
  | [] => s
  | k :: ks => (if k.fn = 3 ∧ bit k.d 17 = false then s.landTile core ctx (bits k.d 4 0) else s).landDrains core ctx ks

/-- Every operation that still lacks contributions fails with status 0x02 at the members that contributed (R127). -/
def JArray.failRest (x : JArray) : JArray :=
  { x with
    fails := (upto 16).foldl (fun f p =>
      let left := tget 0 x.issued p - x.performed
      tset [] f p (tget [] f p ++ ((upto left).map fun i => (x.performed + 1 + i, 2)))) x.fails
    performed := (upto 16).foldl (fun m p => max m (tget 0 x.issued p)) x.performed
    contribs := [], pins := [] }

/-- Lands the tiles of every drain that fails so. -/
def State.landRest (s : State) (q j : Nat) (x : JArray) : State :=
  x.contribs.foldl (fun s e => s.landDrains (192 * q + 16 * j + e.1) x.ctx e.2) s

/-- Whether the next operation lacks a contribution. -/
def JArray.lacks (x : JArray) : Bool := (upto 16).any fun p => (tget [] x.contribs p).isEmpty

/-- All members have ended their memberships or wait to: operations that lack contributions fail (R127). -/
def State.settleGang (s : State) (q j : Nat) (x : JArray) : JArray × State :=
  if ((upto 16).all fun p => x.left.contains p || x.leaving.contains p) ∧ x.lacks = true ∧ x.contribs ≠ [] then
    (x.failRest, s.landRest q j x)
  else (x, s)

/-- A membership ends; with the last one the gang does (R127). -/
def JArray.endMember (x : JArray) (p : Nat) : JArray :=
  let x := { x with left := if x.left.contains p then x.left else p :: x.left, leaving := x.leaving.filter (· != p) }
  if x.left.length = 16 then
    { x with gang := 0, formed := false, members := [], left := [], leaving := [], contribs := [], issued := []
             performed := 0, fails := [], flags := [], pins := [], past := tput x.past x.ctx (x.cfg, x.xoff) }
  else x

/-- GANG 0 (R127, R362). -/
def execGangLeave (s : State) : Out :=
  finish s <| do
    let x ← s.asMember
    let p := posOf s.myCore
    let x := { x with leaving := if x.leaving.contains p then x.leaving else p :: x.leaving }
    let (x, s) := s.settleGang s.myQuire (rowOf s.myCore) x
    if x.doneFor p then
      let s := s.reportJoint x p
      .ok (s.setMyArray (s.myArray.endMember p))
    else .ok ((s.setMyArray x).setTh { s.th with wait := .retry })

/-! Performing a joint operation. -/

/-- The contribution at the head of a position. -/
def JArray.headOf (x : JArray) (p : Nat) : Contrib := nth { fn := 4, d := 0, a := 0, b := 0 } (tget [] x.contribs p) 0

/-- Whether an operation may take effect beside a drain to the field that is in progress (R123): one on the other set may; CFG
waits until both sets are idle, and one port sends one drain at a time. -/
def JArray.beside (x : JArray) (k : Contrib) : Bool :=
  match x.draining with
  | none => true
  | some d => k.fn != 0 && bits k.d 16 16 != d.set && !(k.fn == 3 && bit k.d 17)

/-- Whether the next operation can be performed: all 16 contributions to it have arrived, and no drain in progress stands
against it. -/
def JArray.isReady (x : JArray) : Bool := x.formed && !x.lacks && x.beside (x.headOf 0)

/-- The fields of a contribution that must be common (R116, R117). -/
def Contrib.common (k : Contrib) : Nat × Word × Word :=
  match k.fn with
  | 0 => (0, k.a, k.b)
  | 1 => (1, BitVec.ofNat 64 (bits k.d 16 16), 0)
  | 2 => (2, k.d, k.b)
  | _ => (k.fn, BitVec.ofNat 64 (bits k.d 17 16), 0)

/-- A failure of an operation is noted at every member. -/
def JArray.noteFail (x : JArray) (op status : Nat) : JArray :=
  { x with fails := (upto 16).foldl (fun f p => tset [] f p (tget [] f p ++ [(op, status)])) x.fails }

/-- The array past its next operation: contributions consumed, its units unpinned, and a failure noted at every member. -/
def JArray.advance (x : JArray) (fail : Option Nat) : JArray :=
  let y := { x with
    contribs := (upto 16).foldl (fun t p => tset [] t p ((tget [] t p).drop 1)) x.contribs
    performed := x.performed + 1
    pins := x.pins.filter fun p => p.op != x.performed + 1 }
  match fail with
  | none => y
  | some st => y.noteFail (x.performed + 1) st

/-- Flags that an operation raises reach every member (R121). -/
def JArray.raise (x : JArray) (fl : FFlags) : JArray :=
  { x with flags := (upto 16).foldl (fun t p => tset 0 t p (tget 0 t p ||| fl)) x.flags }

/-- The next operation fails with a status at every member; its drains' tiles are released (R58, R116). -/
def State.failOp (s : State) (q j : Nat) (x : JArray) (status : Nat) : State :=
  let s := (upto 16).foldl (fun s p => s.landDrains (192 * q + 16 * j + p) x.ctx [x.headOf p]) s
  s.setArray q j (x.advance (some status))

/-- Performs the next operation of an array where it is of a kind: none while contributions are missing; contributions that
differ from position 0 fail it with status 0x01 (R116). -/
def State.joint (s : State) (q j fn : Nat) (go : JArray → State) : Option State :=
  let x := s.array q j
  if x.isReady = false ∨ (x.headOf 0).fn ≠ fn then none
  else if (upto 16).any fun p => (x.headOf p).common != (x.headOf 0).common then some (s.failOp q j x 1)
  else some (go x)

/-- MX.CFG: a change of the accumulator type zeroes both sets (R119). -/
def execJointCfg (quire array : Nat) (s : State) : Out :=
  event s (s.joint quire array 0 fun x =>
    let k := x.headOf 0
    let y := if accOf (cfgIn k.a) = accOf (cfgIn x.cfg) then x else (x.putSet 0 [] none).putSet 1 [] none
    s.setArray quire array (JArray.advance { y with cfg := k.a, xoff := k.b } none))

/-- MX.ZERO (R121). -/
def execJointZero (quire array : Nat) (s : State) : Out :=
  event s (s.joint quire array 1 fun x =>
    s.setArray quire array ((x.putSet (bits (x.headOf 0).d 16 16) [] none).advance none))

/-! The operands of an MMA (R120, R122). -/

/-- Bytes of a row of the next operation, and whether a unit of them is poisoned: as read when their units were pinned, the others
now (R122), once their lines have been met (State.readyOperands). A page that has gone since the issue gives free bytes (log 10). -/
def State.operandBytes (s : State) (x : JArray) (va : Word) : Nat → List Byte × Bool
  | 0 => ([], false)
  | n + 1 =>
    let rest := s.operandBytes x (va + 1) n
    match x.pins.find? fun y => y.holds (x.performed + 1) va with
    | some y => (nth 0 y.bytes (va - y.via.va).toNat :: rest.1, y.bad || rest.2)
    | none =>
      match s.fetchable x.ctx va with
      | .ok site => (byteAt s.mem site.key :: rest.1, s.poisoned site.key 1 || rest.2)
      | .error _ => (Config.freeByte (2 ^ 64 * (s.free + 1) + va.toNat) :: rest.1, rest.2)

/-- The next operation's reads meet the lines of every operand. -/
def State.readyOperands (s : State) (q j : Nat) (x : JArray) : State :=
  (upto 16).foldl (fun s p => ((x.spansOf p 0).flatMap spanUnits).foldl (fun s va => s.readyUnit q j (x.performed + 1) va) s) s

/-- The k elements of a row of a format. -/
def operandElements (i k : Nat) (bs : List Byte) : List Nat :=
  match i with
  | 0 => (chunks 2 k bs).map leNat
  | 1 => (chunks 2 k bs).map leNat
  | 2 => (chunks 4 k bs).map leNat
  | 3 => (chunks 8 k bs).map leNat
  | 6 => bs.flatMap fun x => [x.toNat % 16, x.toNat / 16]
  | _ => bs.map (·.toNat)

/-- A row: its elements, the exponent pairs of its blocks, poison. -/
def State.operandRow (s : State) (y : JArray) (i k : Nat) (xoff start : Word) : List Nat × List (Nat × Nat) × Bool :=
  let es := s.operandBytes y start (rowBytes i k)
  if inBlock i then
    let xs := s.operandBytes y (start + xoff) (k / 16)
    let pairs := (chunks 2 (k / 32) (xs.1.map (·.toNat))).map fun p => (nth 0 p 0, nth 0 p 1)
    (operandElements i k es.1, pairs, es.2 || xs.2)
  else (operandElements i k es.1, [], es.2)

/-! The order of accumulation (R146). -/

/-- A BF16 or FP16 value as a value that becomes an FP32 NaN where it is one. -/
def widenVal (f : Fmt) (x : Nat) : FVal :=
  match FVal.of f x with
  | .nan n fr sn => .nan n (fr * 2 ^ (23 - f.fb)) sn
  | v => v

/-- One rounding of c plus a group of products, NaNs in operand order by R136 and R137. That order is a and b of each product in turn and
then c, and beside a NaN operand a product of 0 and infinity raises no flag of its own (DESIGN CHOICE, log 154). -/
def groupAcc (c : FVal) (ps : List (FVal × FVal)) : FRes :=
  let vs := ps.flatMap fun p => [p.1, p.2]
  match firstNaN fp32 vs with
  | some r => (r, snanFlag (vs ++ [c]))
  | none =>
    let prods := ps.map fun p => prod p.1 p.2
    match c with
    | .nan n fr sn => (quieted fp32 n fr, if sn || prods.any Prod.isInvalid then fNV else 0)
    | _ => sumProds fp32 0 prods c

/-- Groups of eight products for BF16 and FP16. -/
def accEights (f : Fmt) : Nat → List (Nat × Nat) → FRes → FRes
  | 0, _, r => r
  | n + 1, xs, r =>
    let g := groupAcc (FVal.of fp32 r.1) ((xs.take 8).map fun p => (widenVal f p.1, widenVal f p.2))
    accEights f n (xs.drop 8) (g.1, r.2 ||| g.2)

/-- Fused accumulation for FP32 and FP64. -/
def accFused (f : Fmt) : List (Nat × Nat) → FRes → FRes
  | [], r => r
  | p :: ps, r =>
    let g := fFmaBits f 0 p.1 p.2 r.1
    accFused f ps (g.1, r.2 ||| g.2)

/-- Exact i8 products, wrapped to 32 bits. -/
def accInt (xs : List (Nat × Nat)) (c : Nat) : Nat :=
  let t : IFmt := { w := 8, signed := true }
  let sum := xs.foldl (fun s p => s + t.val p.1 * t.val p.2) (0 : Int)
  ((((c : Nat) : Int) + sum) % ((2 ^ 32 : Nat) : Int)).toNat

/-- One selector pair of a block pair: the exact integer P, rounded into c at the pair's scale. -/
def accSelect (d : DFmt) (xs : List (Nat × Nat)) (u w : Nat) (scale : Int) (r : FRes) : FRes :=
  let p := (xs.filter fun e => d.sel e.1 == u && d.sel e.2 == w).foldl (fun s e =>
    let m : Int := (d.mag e.1 * d.mag e.2 : Nat)
    if d.neg e.1 = d.neg e.2 then s + m else s - m) (0 : Int)
  let c := FVal.of fp32 r.1
  let g := match c with
    | .nan n fr sn => (quieted fp32 n fr, if sn then fNV else 0)
    | _ => fAddV fp32 0 c (.fin (p < 0) p.natAbs scale)
  (g.1, r.2 ||| g.2)

/-- One block pair of a DB format: a NaN element makes c the canonical NaN. -/
def accBlock (d : DFmt) (xs : List (Nat × Nat)) (ea eb : Nat × Nat) (r : FRes) : FRes :=
  if xs.any fun e => (d.value ea.1 ea.2 e.1).isNone || (d.value eb.1 eb.2 e.2).isNone then (fp32.nan, r.2)
  else
    let sc := fun (x y : Nat) => ((x : Int) + (y : Int) - 2 * (d.off : Int))
    let r := accSelect d xs 0 0 (sc ea.1 eb.1) r
    let r := accSelect d xs 0 1 (sc ea.1 eb.2) r
    let r := accSelect d xs 1 0 (sc ea.2 eb.1) r
    accSelect d xs 1 1 (sc ea.2 eb.2) r

def accBlocks (d : DFmt) : List (Nat × Nat) → List (Nat × Nat) → Nat → List (Nat × Nat) → FRes → FRes
  | _, _, 0, _, r => r
  | ea, eb, n + 1, xs, r =>
    accBlocks d (ea.drop 1) (eb.drop 1) n (xs.drop 32) (accBlock d (xs.take 32) (nth (0, 0) ea 0) (nth (0, 0) eb 0) r)

/-- One entry: C plus the products of a row of A and a column of B, by input format. -/
def accumulate (i k : Nat) (a b : List Nat × List (Nat × Nat)) (c : Nat) : FRes :=
  let xs := a.1.zip b.1
  match i with
  | 0 => accEights bf16 (k / 8) xs (c, 0)
  | 1 => accEights fp16 (k / 8) xs (c, 0)
  | 2 => accFused fp32 xs (c, 0)
  | 3 => accFused fp64 xs (c, 0)
  | 4 => (accInt xs c, 0)
  | 5 => accBlocks db8 a.2 b.2 (k / 32) xs (c, 0)
  | _ => accBlocks db4 a.2 b.2 (k / 32) xs (c, 0)

/-- A row of A against every column: the row's entries and the flags. -/
def accumulateRow (x : JArray) (set i k r : Nat) (a : List Nat × List (Nat × Nat)) (cols : List (List Nat × List (Nat × Nat))) :
    List (Nat × Word) × FFlags :=
  let rs := (upto 128).map fun n => (128 * r + n, accumulate i k a (nth ([], []) cols n) (x.entry set (128 * r + n)))
  (rs.map fun e => (e.1, BitVec.ofNat 64 e.2.1), rs.foldl (fun f e => f ||| e.2.2) 0)

/-- MX.MMA (R121): poison in an operand leaves the set unspecified and reports status 0x05; a set that is unspecified stays
so. -/
def execJointMma (quire array : Nat) (s : State) : Out :=
  event s (s.joint quire array 2 fun x =>
    let s := s.readyOperands quire array x
    let i := cfgIn x.cfg
    let h := x.headOf 0
    let k := bits h.d 15 0
    let set := bits h.d 16 16
    let row := fun (base : Word) (ld r : Nat) =>
      s.operandRow x i k x.xoff (base + BitVec.ofNat 64 (r * ld * 64))
    let bRows := (upto 128).map fun n => row h.b (cfgLdb x.cfg) n
    let aRows := (upto 128).map fun r => row (x.headOf (r / 8)).a (cfgLda x.cfg) (r % 8)
    let poison := (aRows ++ bRows).any fun r => r.2.2
    if poison then
      { s.setArray quire array ((x.putSet set [] (some (s.free + 1))).advance (some 5)) with free := s.free + 16385 }
    else if (x.spoiled set).isSome then
      { s.setArray quire array (((x.putSet set [] (some (s.free + 1))).raise ((Config.freeWord s.free).setWidth 5)).advance none) with
        free := s.free + 16385 }
    else
      let cols := bRows.map fun r => (r.1, r.2.1)
      let rs := (aRows.zip (upto 128)).map fun e => accumulateRow x set i k e.2 (e.1.1, e.1.2.1) cols
      let t := (rs.flatMap (·.1)).filter fun e => e.2 != 0
      let fl := rs.foldl (fun f e => f ||| e.2) 0
      { s.setArray quire array (((x.putSet set t none).raise fl).advance none) with free := s.free + 1 })

/-! Drains (R124, R125). -/

/-- Bits of an element of an output format, and whether it is a block format. -/
def outBits : Nat → Nat
  | 0 => 32
  | 1 => 16
  | 2 => 16
  | 3 => 64
  | 4 => 32
  | 5 => 8
  | 6 => 4
  | _ => 8
def outBlock (o : Nat) : Bool := o == 5 || o == 6

/-- One entry in a scalar output format (R124): conversions round under CFG.RM, integers saturate. -/
def drainElement (cfg : Word) (x : Nat) : FRes :=
  let src : Fmt := if accOf (cfgIn cfg) = 1 then fp64 else fp32
  match cfgOut cfg with
  | 0 => fCvtBits src fp32 (cfgRm cfg) x
  | 1 => fCvtBits src bf16 (cfgRm cfg) x
  | 2 => fCvtBits src fp16 (cfgRm cfg) x
  | 3 => fCvtBits src fp64 (cfgRm cfg) x
  | 7 => (({ w := 8, signed := true } : IFmt).sat (({ w := 32, signed := true } : IFmt).val x), 0)
  | _ => (x, 0)

/-- The entries of one row in the output format: elements, exponent pairs of block formats, flags. A stored NaN of the
accumulator's own format is moved unchanged. -/
def JArray.drainRow (x : JArray) (set r : Nat) : List Nat × List (Nat × Nat) × FFlags :=
  let es := (upto 128).map fun n => x.entry set (128 * r + n)
  let o := cfgOut x.cfg
  if outBlock o then
    let d := if o = 5 then db8 else db4
    let bs := (chunks 32 4 es).map fun b => d.convert (gapOf (if o = 5 then 15 else 16) (cfgGap x.cfg)) (b.map (FVal.of fp32))
    (bs.flatMap fun b => b.2.2.1, bs.map fun b => (b.1, b.2.1), bs.foldl (fun f b => f ||| b.2.2.2) 0)
  else if (o = 0 ∧ accOf (cfgIn x.cfg) = 0) ∨ (o = 3 ∧ accOf (cfgIn x.cfg) = 1) then (es, [], 0)
  else
    let rs := es.map (drainElement x.cfg)
    (rs.map (·.1), [], rs.foldl (fun f e => f ||| e.2) 0)

/-- The bytes of packed elements: two of DB4 to a byte, the first in the low bits (R131). -/
def packBytes (bits : Nat) (es : List Nat) : List Byte :=
  if bits = 4 then (chunks 2 (es.length / 2) es).map fun p => BitVec.ofNat 8 (nth 0 p 0 % 16 + 16 * (nth 0 p 1 % 16))
  else es.flatMap fun e => leBytes (bits / 8) e

/-- A member's eight rows in its tile: the element plane, then the exponent plane (R124). -/
def JArray.tileBytes (x : JArray) (set p : Nat) : List Byte × FFlags :=
  let rows := (upto 8).map fun r => x.drainRow set (8 * p + r)
  (rows.flatMap (fun r => packBytes (outBits (cfgOut x.cfg)) r.1) ++
    rows.flatMap (fun r => r.2.1.flatMap fun e => [BitVec.ofNat 8 e.1, BitVec.ofNat 8 e.2]),
    rows.foldl (fun f r => f ||| r.2.2) 0)

/-- A drain to the members' tiles. -/
def State.drainTiles (s : State) (q j : Nat) (x : JArray) : State :=
  let set := bits (x.headOf 0).d 16 16
  let go := fun (e : State × FFlags) (p : Nat) =>
    let core := 192 * q + 16 * j + p
    let n := bits (x.headOf p).d 4 0
    let b := x.tileBytes set p
    let sites := tileSites core ((e.1.core core).tile x.ctx n) b.1.length
    ((e.1.engineWrite (sites.zip b.1)).landTile core x.ctx n, e.2 ||| b.2)
  let r := (upto 16).foldl go (s, 0)
  r.1.setArray q j ((x.raise r.2).advance none)

/-- The edge tile of an array's drain port (R125): column and row in the folio's field. -/
def drainPort (q j : Nat) : Nat × Nat := (if q % 2 = 0 then j else 12 + j, if q % 4 ≤ 1 then 0 else 35)

/-- The tokens of one row (R125): elements, the exponent pairs of block formats, MARK. -/
def JArray.rowTokens (x : JArray) (set r : Nat) : List (TokKind × Word) × FFlags :=
  let row := x.drainRow set r
  let w := outBits (cfgOut x.cfg)
  let per := 64 / w
  let data := packTokens w per (128 / per) row.1
  let exps := if outBlock (cfgOut x.cfg) then
      [BitVec.ofNat 64 (packLanes 16 (row.2.1.map fun e => e.1 + 256 * e.2))] else []
  ((data ++ exps).map (fun v => (TokKind.data, v)) ++ [(.mark, BitVec.ofNat 64 r)], row.2.2)

/-- Tokens of a row, and token n of the drain: after row 127 comes EOS. -/
def rowLen (o : Nat) : Nat := 128 / (64 / outBits o) + (if outBlock o then 1 else 0) + 1
def JArray.drainToken (x : JArray) (set n : Nat) : TokKind × Word :=
  let len := rowLen (cfgOut x.cfg)
  if 128 * len ≤ n then (.eos, 0) else nth (.eos, 0) (x.rowTokens set (n / len)).1 (n % len)

/-- The flags of a whole drain to the field. -/
def JArray.drainFlags (x : JArray) (set : Nat) : FFlags := (upto 128).foldl (fun f r => f ||| (x.rowTokens set r).2) 0

/-- The receiver of an array's drain port (R125): the region's number and record, where the tile belongs to a region of the
gang's context and the active image marks it as a drain receiver. -/
def State.drainReceiver (s : State) (q j : Nat) (x : JArray) : Option Nat :=
  let (c, r) := drainPort q j
  match s.regionAt (folioOf q) c with
  | none => none
  | some n =>
    let g := s.region (folioOf q) n
    match g.recAt c r with
    | none => none
    | some rd => if g.owner = x.ctx ∧ rd.kind = 3 ∧ rd.drains = true then some n else none

/-- The drain in progress ends with a status (R126). -/
def State.endDrain (s : State) (q j : Nat) (x : JArray) (op status : Nat) : State :=
  s.setArray q j ({ x with draining := none }.noteFail op status)

/-- A drain to the field begins (R125): without a receiver it fails with status 0x03. -/
def State.beginDrain (s : State) (q j : Nat) (x : JArray) : State :=
  match s.drainReceiver q j x with
  | none => s.failOp q j x 3
  | some _ =>
    s.setArray q j { x.advance none with
      draining := some { op := x.performed + 1, set := bits (x.headOf 0).d 16 16, inv := none, sent := 0 } }

/-- One token of the drain in progress (R125): it waits while the receiver's region runs no invocation, is frozen, or the output
is full; a receiver that is gone fails it with status 0x03. -/
def State.drainField (s : State) (q j : Nat) (x : JArray) (d : FieldDrain) : Option State :=
  let (c, r) := drainPort q j
  let f := folioOf q
  match s.drainReceiver q j x with
  | none => some (s.endDrain q j x d.op 3)
  | some n =>
    let g := s.region f n
    if g.phase ≠ .running ∨ g.frozen = true then none
    else
      let t := s.ftile f c r
      if t.roomOut 0 = false then none
      else
        let tok := x.drainToken d.set d.sent
        let s := s.setFtile f c r (t.emit 0 { kind := tok.1, payload := tok.2, src := [], arr := 0 })
        if tok.1 = .eos then some (s.setArray q j ({ x with draining := none }.raise (x.drainFlags d.set)))
        else some (s.setArray q j { x with draining := some { d with inv := some g.invNo, sent := d.sent + 1 } })

/-- MX.DRAIN (R124, R125): the next operation where it is a drain that may begin, else a token of the drain in progress. -/
def execJointDrain (quire array : Nat) (s : State) : Out :=
  event s <|
    let x := s.array quire array
    match s.joint quire array 3 fun x =>
        if bit (x.headOf 0).d 17 then s.beginDrain quire array x else s.drainTiles quire array x with
    | some s' => some s'
    | none =>
      match x.draining with
      | none => none
      | some d => s.drainField quire array x d

/-- The drains whose latest token went to the running invocation of a region: quire, array and drain. -/
def State.fedDrains (s : State) (f : Nat) (g : Region) : List (Nat × Nat × FieldDrain) :=
  (upto 192).filterMap fun i =>
    let port := drainPort (i / 12) (i % 12)
    if folioOf (i / 12) = f ∧ g.first ≤ port.1 ∧ port.1 < g.first + g.width then
      ((s.array (i / 12) (i % 12)).draining.filter fun d => d.inv.isSome).map fun d => (i / 12, i % 12, d)
    else none

/-- A discarded invocation ends with status 0x04 the drains whose latest token it received (R126); the sets stay, and a drain that it has
received no token of goes on. -/
def State.cutDrains (s : State) (f : Nat) (g : Region) : State :=
  (s.fedDrains f g).foldl (fun s e => s.endDrain e.1 e.2.1 (s.array e.1 e.2.1) e.2.2.op 4) s

/-- A completed invocation receives drains no longer: a later one of its number is another. -/
def State.leaveDrains (s : State) (f : Nat) (g : Region) : State :=
  (s.fedDrains f g).foldl (fun s e => s.setArray e.1 e.2.1 { s.array e.1 e.2.1 with draining := some { e.2.2 with inv := none } }) s

end Sys2Proof.Machine
end

