-- ==== Sys2Proof/Machine/Signature.lean ====
section
/-! DEFINITION. The SG instructions (R290, R394 to R400) and the configuration of regions (R84, R85, R243). -/

namespace Sys2Proof.Machine

/-- The region selector (R394): folio, region, port. -/
def State.sgSel (s : State) (a : SReg) (stream : Bool) : Except Stop (Nat × Nat × Nat) := do
  let v := s.rs a
  need (v >>> 13 == 0) 0x01 0
  let port := bits v 12 6
  need (if stream then decide (port ≤ 79) else port == 0) 0x01 0
  let f := bits v 5 4
  let n := bits v 3 0
  need (decide ((s.region f n).width ≠ 0) && (s.region f n).owner == s.th.ctx) 0x05 v
  .ok (f, n, port)

/-- Configuration rejected, with the reason in SUB (R80, R227). -/
def configTrap {α : Type} (status : Word) : Except Stop α := .error (.trap 0x12 status (status.toNat % 256))

/-- The trap of another thread at its instruction. -/
def State.trapAt (s : State) (n cause : Nat) (val : Word) (sub : Nat) : State :=
  s.takeTrap n { cause := cause, val := val, post := false, pc := (s.thr n).pc, frame := 0, iter := 0, sub := sub, frec := false }

/-- Threads that wait for a step of a region. -/
def State.waitersOf (s : State) (w : Wait) : List Nat := (s.threads.filter fun e => e.2.wait == w).map (·.1)

/-- The number by which a waiting thread names a region. -/
def regionNo (f n : Nat) : Nat := 16 * f + n

/-- Reads a 64-byte descriptor by plain loads with user rights (R395, R397); the thread's own stores are at their sites. The state is
what the request met. -/
def State.readDescriptor (s : State) (va : Word) : Except Stop (List Word × State) :=
  match s.unitSite s.th.ctx .user .load s.myQuire va with
  | .error c => trapV c va
  | .ok site =>
    if 5 ≤ site.kind then trapV 0x05 va
    else if site.kind = 4 ∧ s.peerServes site 64 = false then trapV 0x05 va
    else if site.kind = 3 ∧ s.portUp site.key = false then trapV 0x16 va
    else if (s.request site).poisoned site.key 64 then .error (.trapIn (s.request site) 0x16 va)
    else .ok ((upto 8).map fun i => wordAt s.mem (site.key + 8 * i), s.request site)

/-- The plane that a signature descriptor names (R101), with no records yet. What R101 says of no value is taken as it stands: an
entry column at or beyond the width, where the entry tokens then queue, and bits listed as zero, which are ignored (DESIGN CHOICE,
log 123). -/
def planeOf (desc : Word) (ws : List Word) : Plane where
  desc := desc
  width := bits (nth 0 ws 1) 37 32
  ecol := bits (nth 0 ws 1) 43 38
  erow := bits (nth 0 ws 1) 49 44
  fifo := bits (nth 0 ws 2) 11 0
  recs := []

/-- A load in progress of a region is aborted (R85, R395): the threads that wait for it raise reason 0x10. -/
def State.abortLoad (s : State) (f n : Nat) : State :=
  (s.waitersOf (.sgLoad (regionNo f n))).foldl (fun s t => s.trapAt t 0x12 0x10 0x10) s

/-- SG.LOAD (R395): every SG.LOAD that names the descriptor of a load issued again at restore joins it. -/
def execSgLoad (a b : SReg) (s : State) : Out :=
  finish s <| do
    let (f, n, _) ← s.sgSel a false
    let va := s.rs b
    need (va.toNat % 64 == 0) 0x03 va
    let s := s.drain s.cur
    let (ws, s) ← s.readDescriptor va
    let g := s.region f n
    let p := planeOf va ws
    if p.width ≠ g.width then configTrap 0x08
    else
      let joins := match g.shadow with
        | .loading q _ _ again => again && q.desc == va
        | _ => false
      let s := if joins then s
        else (s.abortLoad f n).setRegion f n { g with shadow := .loading p (nth 0 ws 0) (bits (nth 0 ws 1) 31 0) false }
      .ok (s.setTh { s.th with wait := .sgLoad (regionNo f n) })

/-- The step of another thread completes its instruction. -/
def State.retireThread (s : State) (n : Nat) : State := { ({ s with cur := n } : State).retire 1 with cur := s.cur }

/-- A load ends (R84, R395): the shadow planes are complete, or it is rejected. -/
def execImageLoadComplete (folio region : Nat) (s : State) : Out :=
  event s <|
    let g := s.region folio region
    match g.shadow with
    | .none => none
    | .complete _ => none
    | .loading p image len _ =>
      let waiting := s.waitersOf (.sgLoad (regionNo folio region))
      match s.loadImage folio g p image len with
      | (.ok recs, s) =>
        let s := s.setRegion folio region { g with shadow := .complete { p with recs := recs } }
        some (waiting.foldl State.retireThread s)
      | (.error w, s) =>
        let s := s.setRegion folio region { g with shadow := .none }
        some (waiting.foldl (fun s t => s.trapAt t 0x12 w (w.toNat % 256)) s)

/-- SG.COMMIT (R396): without a complete shadow plane it raises reason 0x0D. -/
def execSgCommit (a : SReg) (s : State) : Out :=
  finish s <| do
    let (f, n, _) ← s.sgSel a false
    match (s.region f n).shadow with
    | .complete _ => .ok (s.setTh { s.th with wait := .sgCommit (regionNo f n) })
    | .none => configTrap 0x0D
    | .loading _ _ _ _ => configTrap 0x0D

/-- The planes of a region swap in one broadcast (R84, R396): the region is idle, not frozen, and no stream command is
pending. One waiting SG.COMMIT completes; one that finds no shadow left raises reason 0x0D. -/
def execCommitBroadcast (folio region : Nat) (s : State) : Out :=
  event s <|
    let g := s.region folio region
    match s.waitersOf (.sgCommit (regionNo folio region)), g.shadow with
    | [], _ => none
    | t :: _, .complete p =>
      if g.phase = .idle ∧ g.frozen = false ∧ g.streams = [] ∧ g.crossing = none then
        let s := s.commitTiles folio g
        let s := s.setRegion folio region { g with active := some p, shadow := .none, invNo := 0, fifo := p.fifo }
        some (s.retireThread t)
      else none
    | t :: _, .none => some (s.trapAt t 0x12 0x0D 0x0D)
    | _, .loading _ _ _ _ => none

/-- A stream command joins its port's scoreboard; a port that has fed the stream invocation in progress nothing yet takes it at
once. -/
def State.bindStream (s : State) (f n col row : Nat) (x : Stream) : State :=
  let g := s.region f n
  let s := s.setRegion f n { g with streams := g.streams ++ [x], nextStream := g.nextStream + 1 }
  match g.phase, g.recAt (g.first + col) row with
  | .running, some rd => s.feed { f := f, n := n, c := g.first + col, r := row } rd
  | _, _ => s

/-- Column and row of a port in its region. -/
def portAt (port : Nat) : Nat × Nat := (if port < 40 then port else port - 40, if port < 40 then 0 else 35)

/-- SG.STREAM with the pattern it has copied: it binds it, or waits for room at the port's scoreboard (R397). -/
def State.joinPort (s : State) (f n port : Nat) (p : Pattern) : State :=
  let g := s.region f n
  if 4 ≤ (g.streams.filter fun x => x.port == port).length then s.setTh { s.th with wait := .stream f n port p }
  else
    let x : Stream := { thread := s.cur, port := port, pattern := p, num := g.nextStream, cycle := s.cycle }
    (s.bindStream f n (portAt port).1 (portAt port).2 x).retire 1

/-- SG.STREAM as it issues: its checks, the release, and the copy of its pattern (R91, R397). -/
def State.issueStream (s : State) (a b : SReg) : Act? := do
  let (f, n, port) ← s.sgSel a true
  let va := s.rs b
  need (va.toNat % 64 == 0) 0x03 va
  let s ← s.release .device
  let (ws, s) ← s.readDescriptor va
  match patternFault ws with
  | some reason => configTrap (BitVec.ofNat 64 reason)
  | none =>
    let p := Pattern.ofWords ws
    let fits := match (s.region f n).active with
      | none => false
      | some pl =>
        match pl.recAt (portAt port).1 (portAt port).2 with
        | none => false
        | some rd => rd.kind == 3 && rd.bySrc && rd.storer == p.storer
    if fits = false then configTrap 0x0E else .ok (s.joinPort f n port p)

/-- SG.STREAM: one that waits for room keeps the pattern it copied at issue, as long as the region is its context's (R397). -/
def execSgStream (a b : SReg) (s : State) : Out :=
  finish s <|
    match s.th.wait with
    | .stream f n port p =>
      if (s.region f n).width ≠ 0 ∧ (s.region f n).owner = s.th.ctx then .ok (s.joinPort f n port p) else s.issueStream a b
    | _ => s.issueStream a b

/-- SG.SBAR (R398). -/
def execSgSbar (a : SReg) (s : State) : Out :=
  finish s <| do
    let (f, n, _) ← s.sgSel a false
    needOrWait (!((s.region f n).streams.any fun x => x.thread == s.cur))
    .ok (s.retire 1)

/-- Bits of the stream status (R399). -/
def statusDone : Word := BitVec.ofNat 64 (2 ^ 63)
def statusFault : Word := BitVec.ofNat 64 (2 ^ 37)

/-- SG.WAIT (R399): a discarded invocation not yet reported raises its trap (R86, R233). -/
def execSgWait (d a b : SReg) (s : State) : Out :=
  finish s <| do
    let (f, n, _) ← s.sgSel a false
    let va := s.rs b
    need (va == 0 || va.toNat % 8 == 0) 0x03 va
    let (site, s) ← (if va = 0 then .ok (none, s) else do
      let (site, s) ← s.translate .store va
      need (decide (site.kind ≤ 2)) 0x05 va
      .ok (some site, s) : Except Stop (Option Site × State))
    let g := s.region f n
    needOrWait (g.inv != some .stream && g.streams.isEmpty)
    if bit g.status 37 = true ∧ g.faultNew = true then
      let s := s.setRegion f n { g with faultNew := false }
      .ok (s.takeTrap s.cur
        { cause := invocationTrap g.fault, val := s.faultSlot s.th.ctx f n, post := false, pc := s.th.pc, frame := 0
          iter := g.faultIter, sub := g.fault, frec := true })
    else
      let s := match site with
        | none => s
        | some site =>
          if bit g.status 63 then
            let s := s.deliverLine s.myCore site.key
            s.unitWrite site (leBytes 8 g.status.toNat)
          else s
      let s := s.setRegion f n { g with status := 0, faultNew := false }
      let s := (s.acquire .device).ws d g.status s.cycle
      .ok (s.retire 1)

/-- SG.FREEZE, which takes the steps 1 to 3 of R236, and SG.THAW (R246, R400). -/
def execSgFreeze (a : SReg) (s : State) : Out :=
  finish s <| do
    let (f, n, _) ← s.sgSel a false
    let g := s.region f n
    if g.debug then .ok ((s.freeze f n).retire 1) else configTrap 0x0F

def execSgThaw (a : SReg) (s : State) : Out :=
  finish s <| do
    let (f, n, _) ← s.sgSel a false
    .ok ((s.setRegion f n (s.region f n).thawed).retire 1)

end Sys2Proof.Machine
end

