-- ==== Sys2Proof/Machine/Invocations.lean ====
section
/-! DEFINITION. The life of an invocation (R84, R86 to R90, R101, R102, R436, R437): start, drain and end, discard and its fault
record (R231 to R233), and the crossing unit's part of a call (R105, R106). -/

namespace Sys2Proof.Machine

/-! The start. -/

/-- What a region would start: an entry of its FIFO, or pending stream work, whichever arrived first (R436). -/
def State.startsFifo (s : State) (g : Region) : Bool :=
  let waiting : Bool := match s.fifoSite g.owner g.fifo with
    | some site => g.fifo ≠ 0 ∧ s.fifoCount site ≠ 0
    | none => false
  waiting &&
  match (tget [] s.arrivals (4096 * g.owner + g.fifo)).head?, g.streams with
  | some a, x :: _ => decide (a ≤ x.cycle)
  | _, _ => true

/-- A tile at the start of an invocation (R72, R76, R81, R296, R435): tokens that came in over an open gutter stay, and so do
those on their way out over one. -/
def FTile.start (t : FTile) (rd : TileRec) (iter : List Nat) : FTile :=
  let keep : FTile := { FTile.reset with ins := t.ins, outs := t.outs, hops := t.hops, late := t.late }
  match rd.kind with
  | 0 => { keep with e := rd.e, q := BitVec.ofNat 8 (bits rd.cfg 17 10) }
  | 1 => if rd.role = 0 then { keep with mem := rd.memInit } else keep
  | 3 =>
    match rd.pattern with
    | none => keep
    | some p =>
      let base := p.base + BitVec.ofInt 64 (((iter.zip rd.iterStrides).map fun e => (e.1 : Int) * e.2).foldl (· + ·) 0)
      { keep with cmd := some ({ p with base := base }, none), indexed := p.indirect }
  | _ => keep

/-- Starts every tile that the plane names. -/
def State.startTiles (s : State) (f first : Nat) (iter : List Nat) : List TileRec → State
  | [] => s
  | rd :: rest =>
    (s.setFtile f (first + rd.col) rd.row ((s.ftile f (first + rd.col) rd.row).start rd iter)).startTiles f first iter rest

/-- The ports of a plane are fed the commands that wait for them as a stream invocation begins (R397). -/
def State.feedPorts (s : State) (f n first : Nat) (recs : List TileRec) : State :=
  recs.foldl (fun s rd => if rd.kind = 3 then s.feed { f := f, n := n, c := first + rd.col, r := rd.row } rd else s) s

/-- An invocation of a region begins with its entry tokens on i0 of the entry tile (R101). The region's flag set keeps what earlier
ones raised, for hardware clears no flag (R135). The count of held entries goes on, for the tokens that came while the region was idle
carry it (R87). -/
def State.begin (s : State) (f n : Nat) (p : Plane) (inv : InvKind) (iter : List Nat) (toks : List Word) : State :=
  let g := s.region f n
  let s := s.startTiles f g.first iter p.recs
  let c := g.first + p.ecol
  let t := s.ftile f c p.erow
  let s := s.setFtile f c p.erow
    (t.setIn 0 (t.inp 0 ++ toks.map fun w => { kind := .data, payload := w, src := [], arr := 0 }))
  (s.setRegion f n
    { g with phase := .running, inv := some inv, iter := iter, invNo := g.invNo + 1, stray := 0, invFlags := 0, drops := 0
             dropTok := none, bad := none, crossing := none, callFrame := none, reported := [] }).feedPorts f n g.first
    p.recs

/-- Callee frames that a continuation's start returns to the pool (R107). -/
def State.freeCallees (s : State) (ctx caller : Nat) : State :=
  let mine := s.freeAtStart.filter fun e => e.1 == ctx && e.2.1 == caller
  let s := { s with freeAtStart := s.freeAtStart.filter fun e => !(e.1 == ctx && e.2.1 == caller) }
  mine.foldl (fun s e => s.pushFrame ctx (frameVa e.2.2)) s

/-- A free region starts its next work (R102, R436, R437). Where a frame's status word cannot be read, ICOUNT is taken as 0, STATE is
left as it is, and the invocation starts all the same (DESIGN CHOICE, log 159). -/
def execInvocationStart (folio region : Nat) (s : State) : Out :=
  event s <|
    let g := s.region folio region
    match g.active with
    | none => none
    | some p =>
      if g.phase ≠ .idle ∨ g.frozen = true ∨ g.crossing ≠ none ∨ (s.ctx g.owner).inn = false ∨
          (s.ctx g.owner).leaving = true ∨ g.width = 0 then none
      else if s.startsFifo g then
        match s.fifoTake g.owner g.fifo with
        | none => none
        | some (e, s) =>
          let frame := frameVa e.frame
          let s := s.meetFrame g.owner frame
          let st := (s.frameWord g.owner (frame + 0x18)).getD 0
          let it0 := if e.cont then bits st 63 32 else 0
          let s := if e.cont then s.freeCallees g.owner e.frame else s.setStatus g.owner frame (withState 1)
          some (s.begin folio region p (.activation e.frame) [it0, 0, 0, 0]
            [frame, BitVec.ofNat 64 e.resume, e.a0, e.a1])
      else if g.streams ≠ [] then some (s.begin folio region p .stream [0, 0, 0, 0] [0, 0, 0, 0])
      else none

/-! The drain (R90). -/

/-- The drops that a drain makes of one tile: its tokens bound for closed gutters. -/
def State.dropsOf (s : State) (f : Nat) (g : Region) (rd : TileRec) : List Token :=
  let t := s.ftile f (g.first + rd.col) rd.row
  (upto 4).flatMap fun o => if s.routeFate f g rd o = .drop then t.onRoute o else []

/-- The strays of one tile: tokens on its inputs and on routes inside the region. -/
def State.straysOf (s : State) (f : Nat) (g : Region) (rd : TileRec) : Nat :=
  let t := s.ftile f (g.first + rd.col) rd.row
  (t.ins.map List.length).foldl (· + ·) 0 +
    ((upto 4).map fun o => if s.routeFate f g rd o = .stray then (t.onRoute o).length else 0).foldl (· + ·) 0

/-- The drained tile. -/
def State.drained (s : State) (f : Nat) (g : Region) (rd : TileRec) : FTile :=
  let t := s.ftile f (g.first + rd.col) rd.row
  (upto 4).foldl (fun t o =>
    if s.routeFate f g rd o = .stay then t else { t.setOut o [] with hops := setNth t.hops o [] })
    { t with ins := [[], [], [], []], beatA := none, beatB := none, conv := [], convE := none, convO := [], convSrc := [], cmd := none
             held := [], owed := none }

/-- Tokens on inputs of tiles of the region that no record names (R70). -/
def State.idleStrays (s : State) (f : Nat) (g : Region) (p : Plane) : Nat :=
  (s.ftiles.map fun e =>
    let c := e.1 % 1440 / 36
    if e.1 / 1440 = f ∧ g.first ≤ c ∧ c < g.first + g.width ∧ (p.recAt (c - g.first) (e.1 % 36)).isNone = true then
      (e.2.ins.map List.length).foldl (· + ·) 0
    else 0).foldl (· + ·) 0

/-- Puts held entries in the order of their making. -/
def insertHeld (h : Held) : List Held → List Held
  | [] => [h]
  | x :: xs => if h.seq ≤ x.seq then h :: x :: xs else x :: insertHeld h xs
def sortHeld : List Held → List Held
  | [] => []
  | h :: hs => insertHeld h (sortHeld hs)

/-- The held entries of a region in release order (R87). -/
def State.heldOf (s : State) (f : Nat) (g : Region) (p : Plane) : List Held :=
  sortHeld (p.recs.flatMap fun rd => (s.ftile f (g.first + rd.col) rd.row).held)

/-- Every tile drained; inputs of tiles that no record names emptied. -/
def State.drainTilesOf (s : State) (f : Nat) (g : Region) (p : Plane) : State :=
  let done := p.recs.map fun rd => (rd, s.drained f g rd)
  let idle := fun e : Nat × FTile =>
    if g.hasTile f e.1 then (e.1, { FTile.reset with late := e.2.late }) else e
  let s := { s with ftiles := (s.ftiles.map idle).filter fun e => e.2 ≠ FTile.reset }
  done.foldl (fun s e => s.setFtile f (g.first + e.1.col) e.1.row e.2) s

/-- Stream commands that feed the ending invocation and end with it (R397): those that its ports run. -/
def State.fedCommands (s : State) (f : Nat) (g : Region) (p : Plane) : List Nat :=
  p.recs.filterMap fun rd => (s.ftile f (g.first + rd.col) rd.row).cmd.bind (·.2)

/-! The end. -/

/-- What a stream invocation adds to its region's status (R399): strays saturate. -/
def addStatus (st : Word) (strays : Nat) (fl : BitVec 5) (fault : Bool) : Word :=
  let n := min (bits st 31 0 + strays) (2 ^ 32 - 1)
  let flags := BitVec.ofNat 5 (bits st 36 32) ||| fl
  BitVec.ofNat 64 (2 ^ 63 + (if fault || bit st 37 then 2 ^ 37 else 0) + flags.toNat * 2 ^ 32 + n)

/-- The fault record (R231). -/
def faultRecord (f n : Nat) (g : Region) (d : Discard) (frame : Nat) : List Word :=
  let head := g.owner * 2 ^ 38 + f * 2 ^ 36 + n * 2 ^ 32 + (if d.slot.isSome then 2 ^ 29 else 0) +
    (if d.addr.isSome then 2 ^ 28 else 0) + (d.slot.getD 0) * 2 ^ 24 + d.row * 2 ^ 16 + d.col * 2 ^ 8 + d.cause
  let it := fun i => nth 0 g.iter i % 2 ^ 32
  [BitVec.ofNat 64 head, d.addr.getD 0, BitVec.ofNat 64 (it 0 + 2 ^ 32 * it 1), BitVec.ofNat 64 (it 2 + 2 ^ 32 * it 3),
   BitVec.ofNat 64 g.invNo, BitVec.ofNat 64 frame, BitVec.ofNat 64 (g.drops % 2 ^ 32), 0]

/-- ITER0 and ITER1 as TRAPITER holds them (R226). -/
def iterWord (g : Region) : Word := BitVec.ofNat 64 (nth 0 g.iter 0 % 2 ^ 32 + 2 ^ 32 * (nth 0 g.iter 1 % 2 ^ 32))

/-- The region idle again. -/
def Region.closed (g : Region) (fed : List Nat) : Region :=
  { g with phase := .idle, inv := none, streams := g.streams.filter fun x => !fed.contains x.num, bad := none, drops := 0
           dropTok := none, reported := [], callFrame := none, crossing := none }

/-- A discarded invocation ends (R86, R105, R108, R231 to R233): no held entry is performed, a frame popped for a call returns
to the pool, and the record is written. -/
def State.endDiscarded (s : State) (f n : Nat) (g : Region) (d : Discard) (fed : List Nat) : State :=
  let s := match g.callFrame with
    | some x => s.pushFrame g.owner (frameVa x)
    | none => s
  let s := s.cutDrains f g
  match g.inv with
  | some (.activation frame) =>
    let s := s.setRegion f n (g.closed fed)
    let (a, frec, s) := s.placeRecord g.owner f n (faultRecord f n g d frame)
    s.faultActivation g.owner (frameVa frame) d.cause a (iterWord g) frec
  | _ =>
    let s := s.saveWords g.owner (s.faultSlot g.owner f n) (faultRecord f n g d 0)
    s.setRegion f n { g.closed fed with
      status := addStatus g.status g.stray g.invFlags true, fault := d.cause, faultIter := iterWord g, faultNew := true }

/-- Writes of a CALL node to its caller's frame (R105): live values, then RESUME and ICOUNT. -/
def State.writeLive (s : State) (ctx caller resume it0 : Nat) (live : List Word) : State :=
  let s := s.setFrameWords ctx (frameVa caller + 0x40) live
  s.setStatus ctx (frameVa caller) fun w => setField (setField w 29 24 resume) 63 32 (it0 + 1)

/-- The first held atomic of an ending invocation that cannot be performed (R168, R175): it discards the invocation, none of whose
held operations is then performed (R86; DEDUCED, log 119), and what its request met. -/
def State.heldDiscard (s : State) (f : Nat) (g : Region) (p : Plane) : Option (Discard × State) :=
  p.recs.findSome? fun rd => (s.ftile f (g.first + rd.col) rd.row).held.findSome? fun h =>
    (s.heldFault h).map fun e => ({ cause := e, col := rd.col, row := rd.row, slot := none, addr := some h.via.va }, s.heldMet h)

/-- An invocation ends after its drain (R90): the held operations are released, then what a CALL or RET held; the region is
free. Failed held stores are counted (R175). -/
def State.endCompleted (s : State) (f n : Nat) (g : Region) (hs : List Held) (fed : List Nat) : State :=
  let g := { g with peerDrops := g.peerDrops + (hs.filter s.heldFails).length }
  let s := (hs.foldl State.performHeld s).leaveDrains f g
  match g.inv, g.crossing with
  | some (.activation _), some (.call c fr caller resume fifo args live) =>
    let s := s.writeLive g.owner caller resume (nth 0 g.iter 0) live
    s.setRegion f n { g.closed fed with crossing := some (.call c fr caller resume fifo args live), callFrame := some fr }
  | some (.activation frame), some (.ret a0 a1) =>
    let s := s.setFrameWords g.owner (frameVa frame + 0x28) [a0, a1]
    let s := { s with returns := s.returns ++ [(g.owner, frame)] }
    s.setRegion f n (g.closed fed)
  | _, _ => s.setRegion f n { g.closed fed with status := addStatus g.status g.stray g.invFlags false }

/-- The drain of a region, up to its end (R83, R90): tokens bound for closed gutters drop and discard the invocation. -/
def execInvocationEnd (folio region : Nat) (s : State) : Out :=
  event s <|
    let g := s.region folio region
    match g.active with
    | none => none
    | some p =>
      if g.phase ≠ .draining ∨ g.frozen = true then none
      else
        let dropped := p.recs.flatMap fun rd => (s.dropsOf folio g rd).map fun k => (k.payload, rd.col, rd.row)
        let strays := p.recs.foldl (fun n rd => n + s.straysOf folio g rd) (s.idleStrays folio g p)
        let g := { g with stray := g.stray + strays, drops := g.drops + dropped.length
                          dropTok := match g.dropTok with
                            | some d => some d
                            | none => dropped.head? }
        let g := match dropped with
          | [] => g
          | (w, c, r) :: _ => g.stopFor (some { cause := 0x11, col := c, row := r, slot := none, addr := some w })
        let held := if g.bad.isSome then none else s.heldDiscard folio g p
        let g := g.stopFor (held.map (·.1))
        let s := (held.map (·.2)).getD s
        let hs := s.heldOf folio g p
        let fed := s.fedCommands folio g p
        let s := s.drainTilesOf folio g p
        match g.bad with
        | some d => some (s.endDiscarded folio region g d fed)
        | none => some (s.endCompleted folio region g hs fed)

/-- The drain bound of a data phase expires (R89): no completion, cause 0x00. The bound is main firmware's, and time is a free
value (log 8); it does not run while the region is frozen. -/
def execDrainBoundExpiry (folio region : Nat) (s : State) : Out :=
  event s <|
    let g := s.region folio region
    if g.phase = .running ∧ g.frozen = false then
      some (s.setRegion folio region (g.stopFor (some { cause := 0, col := 0, row := 0, slot := none, addr := none })))
    else none

/-! The crossing unit (R105, R106). -/

/-- After the drain of a calling invocation the crossing unit writes the callee's frame and enqueues it, or keeps its callback
packet (R105, R106). -/
def execCrossingCall (folio region : Nat) (s : State) : Out :=
  event s <|
    let g := s.region folio region
    match g.phase, g.crossing, g.active with
    | .idle, some (.call callee fr caller resume fifo args _), some p =>
      let cont := BitVec.ofNat 64 (2 ^ 62 + bits p.desc 55 6 * 64 + resume)
      let s := s.writeFrame g.owner (frameVa fr) callee cont (frameVa caller) (BitVec.ofNat 64 (args.length * 2 ^ 16)) args
      let s := s.setRegion folio region { g with crossing := none, callFrame := none }
      if tagOf callee = 0 then some { s with callbacks := s.callbacks ++ [(g.owner, fr)] }
      else some (s.enqueueActivation
        { ctx := g.owner, fifo := fifo, frame := fr, resume := 0, cont := false, a0 := 0, a1 := 0 })
    | _, _, _ => none

/-- A callback packet goes to a core of the pool's mask (R106): in order within its context, under the limits of R42. A mask
that names no quire present and allowed faults the callee's frame, and so does a pool header that cannot be read, whose mask is taken as
empty (DESIGN CHOICE, log 149). It waits while its context is switched out, for a trap that follows
goes to a thread of it (DEDUCED, log 124). -/
def execCallbackPacketSend (idx core : Nat) (s : State) : Out :=
  event s <|
    match s.callbacks[idx]? with
    | none => none
    | some (c, f) =>
      if (s.ctx c).inn = false ∨ (s.callbacks.take idx).any (fun e => e.1 == c) = true then none
      else
        let s := s.meetPool c
        let pool := (s.callbackPool c).getD (0, 0)
        let usable := fun q => s.present q && (s.ctx c).allowed.getLsbD q && decide (pool.1 / 2 ^ q % 2 = 1)
        let rest : State := { s with callbacks := dropNth s.callbacks idx }
        if (upto 16).any usable = false then some (rest.crossingFault c (frameVa f) 0x01)
        else if Config.cores ≤ core ∨ usable (quireOf core) = false ∨ s.maySend c core = false then none
        else
          some { rest with net := rest.net ++ [{ ctx := c, thread := Config.threads, dst := core, label := pool.2
                                                 w0 := 0, w1 := 0, two := false, frame := some f }] }

end Sys2Proof.Machine
end

