-- ==== Sys2Proof/Machine/Save.lean ====
section
/-! DEFINITION. The save area (R238 to R242): thread records, array records, region headers and column records, word by word, as
pre-emption writes them, as restore and the debug port read them back. -/

namespace Sys2Proof.Machine

/-! Places in the area (R238). -/

def threadOff (n : Nat) : Nat := 0x1000 + 2688 * n
def arrayOff (q j : Nat) : Nat := 0x01F81000 + 262272 * (12 * q + j)
def folioOff (f : Nat) : Nat := 0x04F87000 + 0x01398000 * f
def regionOff (f n : Nat) : Nat := folioOff f + 0x1000 * n
def columnOff (f c : Nat) : Nat := folioOff f + 0x10000 + 0x7D000 * c
def queueOff (k : Nat) : Nat := 0x09DE7000 + 2048 * k
def debugOff (n : Nat) : Nat := 0x0A3E7000 + 32 * n

/-- An address of a context's save area. -/
def State.saveVa (s : State) (ctx off : Nat) : Word := (s.ctx ctx).saveBase + BitVec.ofNat 64 off

/-- Words written at an offset of the area. -/
def State.saveAt (s : State) (ctx off : Nat) (ws : List Word) : State := s.saveWords ctx (s.saveVa ctx off) ws

/-- Words in a form private to the device: free values (log 10). -/
def State.savePrivate (s : State) (ctx off n : Nat) : State :=
  ({ s with free := s.free + n } : State).saveAt ctx off ((upto n).map fun i => Config.freeWord (s.free + i))

/-- A word of the area, none where it cannot be read. -/
def State.savedWord (s : State) (ctx off : Nat) : Option Word :=
  match s.unitSite ctx .supervisor .load 0 (s.saveVa ctx off) with
  | .error _ => none
  | .ok site => if 2 ≤ site.kind ∨ (s.request site).poisoned site.key 8 = true then none else some (wordAt s.mem site.key)

/-- The requests of a reading of the area, for blocks of 64 bytes from an offset (R161). -/
def State.meetSaved (s : State) (ctx off blocks : Nat) : State :=
  s.meetUnit ctx .supervisor .load 0 (fun k => k ≤ 1) (s.saveVa ctx off) blocks

/-- Puts back words k to k + n - 1 of a record at an offset. -/
def State.readBack {α : Type} (s : State) (ctx off : Nat) (put : α → Nat → Word → α) : List Nat → α → α
  | [], x => x
  | k :: ks, x =>
    s.readBack ctx off put ks (match s.savedWord ctx (off + 8 * k) with
      | some w => put x k w
      | none => x)

/-! Threads (R239, R241). -/

/-- The WAIT field of the state word. -/
def Thread.waitCode (t : Thread) : Nat :=
  if t.trapDbl then 3
  else match t.wait with
    | .crossing _ => 1
    | .gang _ => 2
    | _ => 0

/-- LSLOT of a thread: the slot of the launch that its WID or its heap task belongs to (R241). -/
def State.slotOf (s : State) (t : Thread) : Nat :=
  match t.work with
  | .wid l _ => ((s.launch l).map Launch.slot).getD 0
  | .heapTask l _ _ => ((s.launch l).map Launch.slot).getD 0
  | _ => 0

/-- The state word, with its LSLOT. -/
def Thread.stateWord (t : Thread) (slot : Nat) : Word :=
  let done := match t.work with
    | .heapTask _ _ d => d
    | _ => false
  BitVec.ofNat 64 (t.work.code.toNat + t.waitCode * 2 ^ 3 + (if t.halted then 2 ^ 5 else 0) + (if done then 2 ^ 6 else 0) +
    t.stepctl.toNat * 2 ^ 7 + slot % 1024 * 2 ^ 14 +
    (if t.trapDbl then t.trapCause.toNat * 2 ^ 40 + t.dcause.toNat * 2 ^ 48 else 0))

/-- Word k of a thread's record. -/
def Thread.recWord (t : Thread) (slot k : Nat) : Word :=
  if k < 64 then t.rs (Fin.ofNat 64 k)
  else if k < 320 then ((t.rv (Fin.ofNat 32 ((k - 64) / 8))) >>> (64 * (k % 8))).setWidth 64
  else if k < 328 then t.rp (Fin.ofNat 8 (k - 320))
  else match k with
    | 328 => if t.trapDbl then t.trapPc else t.pc
    | 329 => t.fctl.setWidth 64
    | 330 => t.wid
    | 331 => t.waitLimit
    | 332 => t.stateWord slot
    | 333 => t.heapId
    | 334 => match t.wait with
      | .crossing f => frameVa f
      | _ => 0
    | _ => t.trapScratch

/-- A lane of 64 bits of a vector replaced. -/
def setLane64 (v : Vec) (i : Nat) (w : Word) : Vec :=
  (v &&& ~~~((BitVec.allOnes 64).setWidth 512 <<< (64 * i))) ||| (w.setWidth 512 <<< (64 * i))

/-- The number of the launch of a context in a dispatcher's slot. -/
def State.launchIn (s : State) (ctx slot : Nat) : Option Nat :=
  (s.launches.find? fun e => e.2.ctx == ctx && e.2.slot % 1024 == slot).map (·.1)

/-- The work that KIND, LSLOT and DONE name. What they do not say stays where the kind stays: the WID's index and the callback's
frame. Where the kind changes, the registers of R239 give it: WID, HEAPID and s6, the frame register (DEDUCED, log 127). -/
def State.workOf (s : State) (t : Thread) (w : Word) : Work :=
  let l := s.launchIn t.ctx (bits w 23 14)
  match bits w 2 0, t.work with
  | 0, _ => .free
  | 1, .wid old k => .wid (l.getD old) k
  | 1, _ => match l with
    | some n => .wid n t.wid.toNat
    | none => t.work
  | 2, _ => .handler
  | 3, .heapTask old k _ => .heapTask (l.getD old) k (bit w 6)
  | 3, _ => match l with
    | some n => .heapTask n t.heapId.toNat (bit w 6)
    | none => t.work
  | 4, .callback f => .callback f
  | 4, _ => .callback (t.rs 6).toNat
  | _, x => x

/-- The wait that WAIT names for a thread of an array's row: a wait of its code stays as it is. -/
def Thread.waitOf (t : Thread) (array code : Nat) : Wait :=
  match code, t.wait with
  | 1, .crossing f => .crossing f
  | 1, _ => .crossing 0
  | 2, .gang a => .gang a
  | 2, _ => .gang array
  | _, .crossing _ => .none
  | _, .gang _ => .none
  | _, x => x

/-- Thread n under a new state word (R241): its work, wait, halt, step state, and the causes of a double trap; WIDSHAPE is that of
the launch. -/
def State.putStateWord (s : State) (n : Nat) (t : Thread) (w : Word) : Thread :=
  let work := s.workOf t w
  let dbl := bits w 4 3 == 3
  { t with
    work := work, wait := t.waitOf (12 * quireOf (coreOf n) + rowOf (coreOf n)) (bits w 4 3)
    widShape := match work with
      | .wid l _ => ((s.launch l).map Launch.shape).getD t.widShape
      | _ => t.widShape
    halted := bit w 5, stepctl := BitVec.ofNat 7 (bits w 13 7), trapDbl := dbl
    trapCause := if dbl then BitVec.ofNat 8 (bits w 47 40) else t.trapCause
    dcause := if dbl then BitVec.ofNat 8 (bits w 55 48) else 0 }

/-- Word k of the record of thread n put back. -/
def State.putThreadWord (s : State) (n : Nat) (t : Thread) (k : Nat) (w : Word) : Thread :=
  if k < 64 then t.ws (Fin.ofNat 64 k) w (t.ss (Fin.ofNat 64 k))
  else if k < 320 then
    let r : VReg := Fin.ofNat 32 ((k - 64) / 8)
    t.wv r (setLane64 (t.rv r) (k % 8) w) (t.vs r)
  else if k < 328 then t.wp (Fin.ofNat 8 (k - 320)) w (t.ps (Fin.ofNat 8 (k - 320)))
  else match k with
    | 328 => if t.trapDbl then { t with trapPc := w } else { t with pc := w }
    | 329 => { t with fctl := w.setWidth 8 }
    | 330 => { t with wid := w }
    | 331 => { t with waitLimit := w }
    | 332 => s.putStateWord n t w
    | 333 => { t with heapId := w }
    | 334 => match t.wait with
      | .crossing _ => { t with wait := .crossing w.toNat }
      | _ => t
    | _ => { t with trapScratch := w }

/-- A thread as it is saved (R235): of its waits only those in a crossing call and in GANG are kept. -/
def Thread.atSave (t : Thread) : Thread :=
  let t := { t with yielded := false, ibuf := [], cmds := [] }
  match t.wait with
  | .crossing _ => t
  | .gang _ => t
  | _ => { t with wait := .none }

/-- Writes the record of a thread, and its breakpoints in the debug section (R238). -/
def State.saveThread (s : State) (ctx n : Nat) (t : Thread) : State :=
  let s := s.saveAt ctx (threadOff n) ((upto 336).map (t.recWord (s.slotOf t)))
  if (s.ctx ctx).debug then s.saveAt ctx (debugOff n) t.brk.toList else s

/-- BRKADDR0 to BRKADDR3 replaced. -/
def Thread.setBrk (t : Thread) (i : Nat) (w : Word) : Thread :=
  match i with
  | 0 => { t with brk := t.brk.set 0 (w &&& ~~~3) }
  | 1 => { t with brk := t.brk.set 1 (w &&& ~~~3) }
  | 2 => { t with brk := t.brk.set 2 (w &&& ~~~3) }
  | 3 => { t with brk := t.brk.set 3 (w &&& ~~~3) }
  | _ => t

/-- A thread read back: without a debug section BRKADDR and BRKEN are 0 (R238). -/
def State.loadThread (s : State) (ctx n : Nat) (t : Thread) : Thread :=
  let t := s.readBack ctx (threadOff n) (s.putThreadWord n) (upto 336) t
  if (s.ctx ctx).debug then s.readBack ctx (debugOff n) Thread.setBrk (upto 4) t
  else { t with brk := Vector.replicate 4 0, stepctl := t.stepctl &&& 0x43 }

/-! Arrays (R127). -/

/-- Writes both sets of an array, set 0 first and each row by row (DESIGN CHOICE, log 153); the last 128 bytes have no layout. -/
def State.saveArray (s : State) (ctx q j : Nat) (x : JArray) : State :=
  let s := s.saveAt ctx (arrayOff q j) ((upto 16384).map fun i => BitVec.ofNat 64 (x.entry 0 i))
  let s := s.saveAt ctx (arrayOff q j + 131072) ((upto 16384).map fun i => BitVec.ofNat 64 (x.entry 1 i))
  s.savePrivate ctx (arrayOff q j + 262144) 16

/-! Tiles (R242). -/

/-- Whether a PE has DEEP set (R75). -/
def isDeep (rd : Option TileRec) : Bool :=
  match rd with
  | some r => r.kind == 0 && bit r.cfg 8
  | none => false

/-- Channel j in the order i0 to i3, o0 to o3. -/
def FTile.chan (t : FTile) (j : Nat) : List Token := if j < 4 then t.inp j else t.out (j - 4)
def FTile.setChan (t : FTile) (j : Nat) (q : List Token) : FTile := if j < 4 then t.setIn j q else t.setOut (j - 4) q

/-- The channel and the place in it of entry slot i of the 40; with DEEP the 20 slots of the inputs are those of i0. -/
def entryPlace (deep : Bool) (i : Nat) : Nat × Nat := if deep = true ∧ i < 20 then (0, i) else (i / 5, i % 5)

def emptyToken : Token := { kind := .data, payload := 0, src := [], arr := 0 }

/-- Word k of a tile record, for k below 10 and from 16 to 95. -/
def FTile.recWord (t : FTile) (deep : Bool) (k : Nat) : Word :=
  if k < 8 then nth 0 t.e k
  else if k = 8 then
    let b := match t.beatA, t.beatB with
      | some b, _ => b.slot * 2 ^ 8 + b.next * 2 ^ 12
      | none, some b => b.slot * 2 ^ 8 + b.next * 2 ^ 12
      | none, none => 0
    BitVec.ofNat 64 (t.q.toNat + b)
  else if k = 9 then BitVec.ofNat 64 ((upto 8).foldl (fun n j => n + (t.chan j).length * 2 ^ (5 * j)) 0)
  else
    let p := entryPlace deep ((k - 16) / 2)
    let tok := nth emptyToken (t.chan p.1) p.2
    if k % 2 = 0 then tok.payload else BitVec.ofNat 64 tok.kind.code

/-- A stopped beat under new slot and beat numbers. -/
def putBeat (w : Word) (b : Beat) : Beat := { b with slot := bits w 11 8, next := bits w 15 12 }

/-- Word k of a tile record put back. -/
def FTile.putWord (t : FTile) (deep : Bool) (k : Nat) (w : Word) : FTile :=
  if k < 8 then { t with e := setNth t.e k w }
  else if k = 8 then
    match t.beatA with
    | some b => { t with q := w.setWidth 8, beatA := some (putBeat w b) }
    | none => { t with q := w.setWidth 8, beatB := t.beatB.map (putBeat w) }
  else if k = 9 then
    (upto 8).foldl (fun t j => t.setChan j ((padTo emptyToken (bits w (5 * j + 4) (5 * j)) (t.chan j)).take
      (bits w (5 * j + 4) (5 * j)))) t
  else
    let p := entryPlace deep ((k - 16) / 2)
    let tok := nth emptyToken (t.chan p.1) p.2
    let tok := if k % 2 = 0 then { tok with payload := w } else { tok with kind := tokKindOf (bits w 2 0) }
    t.setChan p.1 (setNth (t.chan p.1) p.2 tok)

/-- The words of a tile record that have a layout. -/
def tileWords : List Nat := upto 10 ++ (upto 80).map (· + 16)

/-- The rows of the memory tiles of a column, and the place of one among them. -/
def memRows : List Nat := [5, 11, 17, 23, 29]

/-- Word i of the contents of a memory tile: a buffer's bytes, or a FIFO's entries. -/
def FTile.memWord (t : FTile) (rd : TileRec) (i : Nat) : Word := if rd.role = 0 then t.ram (8 * i) else (nth (0, []) t.fifo i).1
def FTile.putMem (rd : TileRec) (t : FTile) (i : Nat) (w : Word) : FTile :=
  if rd.role = 0 then t.setRam (8 * i) w else { t with fifo := setNth t.fifo i (w, (nth (0, []) t.fifo i).2) }

/-- What a tile holds in a form private to the device (R242): the payloads of tokens on their way in route registers, and a converter's
partial block. -/
def FTile.slack (t : FTile) : List Nat :=
  (t.hops.flatMap fun o => o.flatMap fun q => q.map fun k => k.payload.toNat) ++ t.conv ++ (t.convO.map fun x => x.2.toNat) ++
    (t.late.map fun x => x.tok.payload.toNat)

/-- The tile with free values there, from the n-th: as many as it holds. -/
def FTile.freeSlack (t : FTile) (n : Nat) : FTile :=
  let free := fun i => Config.freeWord (n + i)
  { t with
    hops := (t.hops.zipIdx).map fun o => (o.1.zipIdx).map fun q => (q.1.zipIdx).map fun k =>
      { k.1 with payload := free (4096 * o.2 + 8 * q.2 + k.2) }
    conv := (t.conv.zipIdx).map fun x => (free (20000 + x.2)).toNat
    convO := (t.convO.zipIdx).map fun x => (x.1.1, free (30000 + x.2))
    late := (t.late.zipIdx).map fun x => { x.1 with tok := { x.1.tok with payload := free (40000 + x.2) } } }

/-- What a region's controller holds in a form private to the device (R242). -/
def Region.control (g : Region) : List Nat :=
  [g.invFlags.toNat, g.drops, g.seq, g.nextStream, g.streams.length, g.reported.length, g.peerDrops, g.fault]

/-- Whether a record is a memory tile with contents to save. -/
def TileRec.hasMem (rd : TileRec) : Bool := rd.kind == 1 && decide (rd.role ≤ 1)

/-! Held entries (R242): 1,024 segments of 64 bytes, then as many words of masks. A store's segment holds its bytes in place and its
mask a bit for each; of an atomic, whose form the spec leaves open, the segment holds B and C and the mask is 0. The order tags and
addresses have no place of their own, and the device keeps them (DESIGN CHOICE, log 128). -/

/-- The segment base of a held store. -/
def Held.base (h : Held) : Nat := h.key / 64 * 64

/-- Word i of the segments, and the mask of entry i. -/
def FTile.segWord (t : FTile) (i : Nat) : Word :=
  match t.held[i / 8]? with
  | none => 0
  | some h =>
    match h.atomic with
    | some (_, b, x) => if i % 8 = 0 then b else if i % 8 = 1 then x else 0
    | none => BitVec.ofNat 64 (leNat ((upto 8).map fun k => tget 0 h.bytes (h.base + 8 * (i % 8) + k)))
def FTile.maskWord (t : FTile) (i : Nat) : Word :=
  match t.held[i]? with
  | none => 0
  | some h => BitVec.ofNat 64 (h.bytes.foldl (fun m c => m + 2 ^ (c.1 - h.base)) 0)

/-- A held entry with a word of its segment, or its mask, put back. -/
def Held.putSeg (h : Held) (k : Nat) (w : Word) : Held :=
  match h.atomic with
  | some (op, b, x) => { h with atomic := some (op, if k = 0 then w else b, if k = 1 then w else x) }
  | none =>
    let at_ := fun c : Host.Cell => c.1 - h.base
    { h with bytes := h.bytes.map fun c => if at_ c / 8 = k then (c.1, BitVec.ofNat 8 (w.toNat / 2 ^ (8 * (at_ c % 8)))) else c }
def Held.putMask (h : Held) (w : Word) : Held :=
  if h.atomic.isSome then h
  else { h with bytes := ((upto 64).filter (bit w)).map fun k => (h.base + k, tget 0 h.bytes (h.base + k)) }

/-- Word k of a storer's entries: the segments, then the masks. -/
def FTile.heldWord (t : FTile) (k : Nat) : Word := if k < 8192 then t.segWord k else t.maskWord (k - 8192)
def FTile.putHeldWord (t : FTile) (k : Nat) (w : Word) : FTile :=
  let i := if k < 8192 then k / 8 else k - 8192
  match t.held[i]? with
  | none => t
  | some h => { t with held := setNth t.held i (if k < 8192 then h.putSeg (k % 8) w else h.putMask w) }

/-- Where the entries of the storer of a column's edge lie. -/
def heldOff (f c r : Nat) : Nat := columnOff f c + (if r = 0 then 0x59000 else 0x6B000)

/-- The words of them in the order a restore reads them: masks, then segments. -/
def heldWords : List Nat := (upto 1024).map (· + 8192) ++ upto 8192

/-- Writes one tile: its record, a memory tile's contents, a storer's held entries. -/
def State.saveTile (s : State) (ctx f c r : Nat) (rd : Option TileRec) (t : FTile) : State :=
  let base := columnOff f c + 1024 * r
  let s := s.saveAt ctx base ((upto 10).map (t.recWord (isDeep rd)))
  let s := s.saveAt ctx (base + 0x80) ((upto 80).map fun i => t.recWord (isDeep rd) (i + 16))
  let s := s.savePrivate ctx (base + 0x300) 32
  match rd with
  | none => s
  | some x =>
    let s := match x.hasMem, memRows.findIdx? (· == r) with
      | true, some i => s.saveAt ctx (columnOff f c + 0x9000 + 0x10000 * i) ((upto 8192).map (t.memWord x))
      | _, _ => s
    if x.kind = 3 ∧ x.storer = true then s.saveAt ctx (heldOff f c r) ((upto 9216).map t.heldWord) else s

/-- One tile read back over what the device kept of it; cache banks restart invalid (R237). -/
def State.loadTile (s : State) (ctx f c r : Nat) (rd : Option TileRec) (t : FTile) : FTile :=
  let t := s.readBack ctx (columnOff f c + 1024 * r) (fun t k w => t.putWord (isDeep rd) k w) tileWords { t with cache := [] }
  match rd with
  | none => t
  | some x =>
    match x.hasMem, memRows.findIdx? (· == r) with
    | true, some i => s.readBack ctx (columnOff f c + 0x9000 + 0x10000 * i) (FTile.putMem x) (upto 8192) t
    | _, _ => if x.kind = 3 ∧ x.storer = true then s.readBack ctx (heldOff f c r) FTile.putHeldWord heldWords t else t

/-! Regions (R242, R243). -/

/-- The signature descriptor of a load in progress. -/
def Region.loadDesc (g : Region) : Option Word :=
  match g.shadow with
  | .loading p _ _ _ => some p.desc
  | .none => none
  | .complete _ => none

/-- Words 0 to 7 of a region header. -/
def Region.headWord (g : Region) (n k : Nat) : Word :=
  match k with
  | 0 => BitVec.ofNat 64 (1 + (if g.frozen then 2 else 0) + (if g.loadDesc.isSome then 4 else 0) + (if g.debug then 8 else 0) +
      g.first * 2 ^ 4 + g.width * 2 ^ 10 + n * 2 ^ 16)
  | 1 => match g.active with
    | some p => p.desc
    | none => 0
  | 2 => g.loadDesc.getD 0
  | 3 => match g.inv with
    | some (.activation f) => frameVa f
    | _ => g.status
  | 4 => BitVec.ofNat 64 (nth 0 g.iter 0 % 2 ^ 32 + nth 0 g.iter 1 % 2 ^ 32 * 2 ^ 32)
  | 5 => BitVec.ofNat 64 (nth 0 g.iter 2 % 2 ^ 32 + nth 0 g.iter 3 % 2 ^ 32 * 2 ^ 32)
  | 6 => BitVec.ofNat 64 g.invNo
  | _ => BitVec.ofNat 64 (g.stray % 2 ^ 32 + g.flags.toNat * 2 ^ 32)

/-- A load in progress under a new descriptor. -/
def Shadow.withDesc (sh : Shadow) (d : Word) : Shadow :=
  match sh with
  | .loading p image len again => .loading { p with desc := d } image len again
  | x => x

/-- Words 0 to 7 of a region header put back. Word 0 holds FROZEN, LOADPEND, which 0 ends a load with, and DEBUG; its other fields name
the region's place, which the region table gives (DESIGN CHOICE, log 174). -/
def Region.putHead (g : Region) (k : Nat) (w : Word) : Region :=
  match k with
  | 0 => { g with frozen := bit w 1, preempted := g.preempted && bit w 1, debug := bit w 3
                  shadow := if g.loadDesc.isSome && !bit w 2 then .none else g.shadow }
  | 1 => { g with active := g.active.map fun p => { p with desc := w } }
  | 2 => { g with shadow := g.shadow.withDesc w }
  | 3 => match g.inv with
    | some (.activation _) => { g with inv := some (.activation w.toNat) }
    | _ => { g with status := w }
  | 4 => { g with iter := setNth (setNth g.iter 0 (bits w 31 0)) 1 (bits w 63 32) }
  | 5 => { g with iter := setNth (setNth g.iter 2 (bits w 31 0)) 3 (bits w 63 32) }
  | 6 => { g with invNo := w.toNat }
  | 7 => { g with stray := bits w 31 0, flags := BitVec.ofNat 5 (bits w 36 32) }
  | _ => g

/-- The requests for what a restore reads of a tile: its record, and where it has them its memory's contents or its held entries. -/
def State.meetTile (s : State) (ctx f c r : Nat) (rd : Option TileRec) : State :=
  let s := s.meetSaved ctx (columnOff f c + 1024 * r) 12
  match rd with
  | none => s
  | some x =>
    match x.hasMem, memRows.findIdx? (· == r) with
    | true, some i => s.meetSaved ctx (columnOff f c + 0x9000 + 0x10000 * i) 1024
    | _, _ => if x.kind = 3 ∧ x.storer = true then s.meetSaved ctx (heldOff f c r) 1152 else s

/-- The tiles of a region's columns. -/
def Region.places (g : Region) : List (Nat × Nat) :=
  (upto g.width).flatMap fun c => (upto 36).map fun r => (g.first + c, r)

/-- Writes a region: its header, and the columns of a frozen one. The fault slot stays as faults left it. -/
def State.saveRegion (s : State) (f n : Nat) (g : Region) : State :=
  let ctx := g.owner
  let s := s.saveAt ctx (regionOff f n) ((upto 8).map (g.headWord n))
  let s := s.savePrivate ctx (regionOff f n + 0x80) 496
  if g.frozen then
    g.places.foldl (fun s p => s.saveTile ctx f p.1 p.2 (g.recAt p.1 p.2) (s.ftile f p.1 p.2)) s
  else s

/-- The words of a signature descriptor, none where it cannot be read, and what the requests met. -/
def State.descriptorAt (s : State) (ctx : Nat) (desc : Word) : Option (List Word) × State :=
  match s.fetchImage ctx 8 desc with
  | (.ok ws, s) => (some ws, s)
  | (.error _, s) => (none, s)

/-- A plane whose image the device fetches again from a descriptor (R237); the one it held, where the fetch fails. -/
def State.reload (s : State) (f : Nat) (g : Region) (desc : Word) (p : Plane) : Plane × State :=
  match s.descriptorAt g.owner desc with
  | (none, s) => (p, s)
  | (some ws, s) =>
    match s.loadImage f g (planeOf desc ws) (nth 0 ws 0) (bits (nth 0 ws 1) 31 0) with
    | (.ok recs, s) => ({ planeOf desc ws with recs := recs }, s)
    | (.error _, s) => (p, s)

/-- The shadow planes at a restore (R237, R243): a load that LOADPEND records is issued again from its descriptor; planes that
were complete are loaded again from theirs. -/
def State.reloadShadow (s : State) (f : Nat) (g : Region) (pend : Option Word) : Shadow × State :=
  match pend, g.shadow with
  | some d, _ =>
    match s.descriptorAt g.owner d with
    | (none, s) => (.none, s)
    | (some ws, s) => (.loading (planeOf d ws) (nth 0 ws 0) (bits (nth 0 ws 1) 31 0) true, s)
  | none, .complete p => let r := s.reload f g p.desc p; (.complete r.1, r.2)
  | none, .none => (.none, s)
  | none, .loading _ _ _ _ => (.none, s)

/-- The active plane at a restore, and what its load met. -/
def State.reloadActive (s : State) (f : Nat) (g : Region) (desc : Option Word) : Option Plane × State :=
  match g.active with
  | none => (none, s)
  | some p => let r := s.reload f g (desc.getD p.desc) p; (some r.1, r.2)

/-! Packets of a reclaimed queue slice (R53, R238). -/

/-- The words of a packet's record. -/
def Packet.recWords (p : Packet) : List Word :=
  [p.w0, p.w1, BitVec.ofNat 64 (p.label + (if p.two then 2 ^ 7 else 0) + coreOf p.thread % 4096 * 2 ^ 8 + 2 ^ 31), 0]

/-- Writes the queue section of a core: 64 records, the unused ones not valid. -/
def State.saveQueue (s : State) (ctx k : Nat) (ps : List Packet) : State :=
  s.saveAt ctx (queueOff k) ((ps.flatMap Packet.recWords) ++ List.replicate (256 - 4 * ps.length) 0)

/-- The packets of a queue section, over what the device kept of them. -/
def State.loadQueue (s : State) (ctx k : Nat) (ps : List Packet) : List Packet :=
  let old := fun i => nth { ctx := ctx, thread := 0, dst := k, label := 0, w0 := 0, w1 := 0, two := false, frame := none } ps i
  (upto ps.length).map fun i =>
    let x := old i
    let tag := (s.savedWord ctx (queueOff k + 32 * i + 16)).getD 0
    { x with w0 := (s.savedWord ctx (queueOff k + 32 * i)).getD x.w0
             w1 := (s.savedWord ctx (queueOff k + 32 * i + 8)).getD x.w1
             label := bits tag 6 0, two := bit tag 7 }

end Sys2Proof.Machine
end

