-- ==== Sys2Proof/Machine/Sequence.lean ====
section
/-! DEFINITION. The sequence units (R213 to R224, R418): identifiers and records, bookmarks and their descriptors, the
commit of tokens, and the TK instructions. -/

namespace Sys2Proof.Machine

/-! Identifiers (R213). -/

def seqsPerUnit : Nat := 16384

/-- The identifier of a record. -/
def seqId (folio gen r : Nat) : Nat := folio * 2 ^ 18 + gen * 2 ^ 14 + r

def idFolio (a : Word) : Nat := bits a 19 18
def idGen (a : Word) : Nat := bits a 17 14
def idRec (a : Word) : Nat := bits a 13 0

/-- The record of a live identifier (R213), else the engine error of R217. -/
def State.liveSeq (s : State) (a : Word) : Except Stop SeqRec :=
  let r := s.seqRec (idFolio a) (idRec a)
  if r.isOpen = true ∧ r.ctx = s.th.ctx ∧ r.gen = idGen a then .ok r else trapV 0x15 a

/-- The record an identifier names, written back. -/
def State.putSeq (s : State) (a : Word) (r : SeqRec) : State := s.setSeqRec (idFolio a) (idRec a) r

/-- The lowest record of a unit from number n on, among k, that is free (log 20). -/
def State.freeSeq (s : State) (folio : Nat) : Nat → Nat → Option Nat
  | _, 0 => none
  | n, k + 1 => if (s.seqRec folio n).isOpen then s.freeSeq folio (n + 1) k else some n

/-- Opens a free record of a unit with given contents, which keeps its own generation (R214, R218, R220): its identifier,
none where no record is free. -/
def State.openSeq (s : State) (folio : Nat) (r : SeqRec) : Option (Nat × State) :=
  match s.freeSeq folio 0 seqsPerUnit with
  | none => none
  | some n =>
    let gen := (s.seqRec folio n).gen
    some (seqId folio gen n, s.setSeqRec folio n { r with isOpen := true, gen := gen })

/-- An open record as TK.OPEN leaves it for a context (R214). -/
def SeqRec.fresh (ctx : Nat) : SeqRec := { SeqRec.reset with isOpen := true, ctx := ctx }

/-- A closed record: its generation moves on (R214, R218). -/
def SeqRec.close (r : SeqRec) : SeqRec := { SeqRec.reset with gen := (r.gen + 1) % 16 }

/-! Commit (R219, R220). -/

/-- Append of R219. A counter whose range is still that of TK.OPEN counts no token (R214; DEDUCED, log 69). -/
def SeqRec.append (r : SeqRec) (t : Nat) : SeqRec :=
  { r with
    h := t :: r.h.take 7, hlen := min (r.hlen + 1) 8, pos := (r.pos + 1) % 2 ^ 32
    cnt := (upto 4).map fun c =>
      if nth false r.ranged c = true ∧ nth 0 r.lo c ≤ t ∧ t ≤ nth 0 r.hi c then min (nth 0 r.cnt c + 1) (2 ^ 32 - 1) else nth 0 r.cnt c }

/-- Bookmark b of a record. -/
def SeqRec.bm (r : SeqRec) (b : Nat) : Bookmark := nth Bookmark.reset r.bms b
def SeqRec.setBm (r : SeqRec) (b : Nat) (x : Bookmark) : SeqRec := { r with bms := setNth r.bms b x }
def SeqRec.disarm (r : SeqRec) (b : Nat) : SeqRec := r.setBm b { r.bm b with armed := false }

/-- Hit of R219. -/
def SeqRec.hit (r : SeqRec) (b : Bookmark) : Bool :=
  if b.kind = 0 then
    decide (b.len ≤ r.hlen) && (upto b.len).all fun j => b.wild.getLsbD j || nth 0 r.h j == nth 0 b.pat j
  else decide (b.limit ≤ nth 0 r.cnt b.ctr)

/-- The bookmarks that hit, by rising number. -/
def SeqRec.hits (r : SeqRec) : List Nat := (upto 8).filter fun b => (r.bm b).armed && r.hit (r.bm b)

/-- Every bookmark that hit counts a hit, saturating. -/
def SeqRec.countHits (r : SeqRec) : List Nat → SeqRec
  | [] => r
  | b :: bs => (r.setBm b { r.bm b with hits := min ((r.bm b).hits + 1) 65535 }).countHits bs

/-- What the tokens of a commit come to: the record after the last token appended, its hits counted, how many supplied
tokens it took, and the winning bookmark. -/
structure Scan where
  r     : SeqRec
  count : Nat
  win   : Option Nat

/-- The loop of Commit (R219), up to the first token that a bookmark hits. -/
def SeqRec.scan (r : SeqRec) (n : Nat) : List Nat → Scan
  | [] => { r := r, count := n, win := none }
  | t :: ts =>
    let r := r.append t
    match r.hits with
    | [] => r.scan (n + 1) ts
    | w :: ws => { r := r.countHits (w :: ws), count := n + 1, win := some w }

/-- The result word (R219). -/
def commitWord (count action bm extra : Nat) (trapped : Bool) : Word :=
  BitVec.ofNat 64 (count + action * 2 ^ 5 + bm * 2 ^ 8 + extra % 2 ^ 20 * 2 ^ 12 + (if trapped then 2 ^ 32 else 0))

/-- The forced tokens of an INJECT appended (R220). -/
def SeqRec.inject (r : SeqRec) (ts : List Nat) : SeqRec := ts.foldl SeqRec.append r

/-- The record after its winning bookmark w has acted on it, one-shot disarmed (R219, R220). -/
def SeqRec.acted (r : SeqRec) (w : Nat) : SeqRec :=
  let b := r.bm w
  let r := match b.action with
    | 1 => { r with stopped := true, stopBm := w }
    | 3 => r.inject b.forced
    | _ => r
  if b.oneshot then r.disarm w else r

/-- The watch trap's TRAPVAL (R221). -/
def watchVal (a : Word) (pos w : Nat) : Word :=
  BitVec.ofNat 64 (a.toNat % 2 ^ 20 + pos * 2 ^ 20 + w * 2 ^ 52)

/-- A NOTIFY store of the unit (R220): VALUE at ADDR with the issuing thread's rights, none where translation, permission
or kind refuses it. Through a port that lost training it is dropped and counted as the thread's own stores are (R251; log 73). -/
def State.notify (s : State) (b : Bookmark) : Option State :=
  match s.unitSite s.th.ctx s.th.mode .store s.myQuire b.addr with
  | .error _ => none
  | .ok site =>
    if 3 < site.kind then none
    else if s.storeFails site.kind site.key 8 then some (s.countDrop s.cur b.addr)
    else some (s.unitWrite site (leBytes 8 b.value.toNat))

/-- The tokens of vb (R216). -/
def tokensOf (v : Vec) (n : Nat) : List Nat := (upto n).map fun i => v.toNat / 2 ^ (32 * i) % 2 ^ 24

/-- The operands of COMMIT and PEEK (R216, R217): the count. -/
def commitCount (a : Word) : Except Stop Nat := do
  let n := bits a 24 20
  need (a >>> 25 == 0 && decide (1 ≤ n ∧ n ≤ 16)) 0x01 a
  .ok n

/-- A vector register by the number in field b. -/
def regOf (vb : Fin 64) : VReg := ⟨vb.val % 32, Nat.mod_lt _ (by decide)⟩

/-! The TK instructions. -/

def execTkOpen (d a : SReg) (s : State) : Out :=
  finish s <| do
    let x := s.rs a
    need (x >>> 3 == 0 && (!bit x 2 || bits x 1 0 == 0)) 0x01 x
    let folio := if bit x 2 then folioOf s.myQuire else bits x 1 0
    match s.openSeq folio (SeqRec.fresh s.th.ctx) with
    | some (i, s) => .ok ((s.ws d (BitVec.ofNat 64 i) 0).retire 1)
    | none => .ok ((s.ws d (BitVec.allOnes 64) 0).retire 1)

def execTkRelease (a : SReg) (s : State) : Out :=
  finish s <| do
    let x := s.rs a
    need (x >>> 20 == 0) 0x01 x
    let r ← s.liveSeq x
    .ok ((s.putSeq x r.close).retire 1)

def execTkDisarm (a : SReg) (s : State) : Out :=
  finish s <| do
    let x := s.rs a
    need (x >>> 29 == 0) 0x01 x
    let r ← s.liveSeq x
    let r := ((upto 8).filter fun b => bit x (20 + b)).foldl SeqRec.disarm r
    let r := if bit x 28 then { r with stopped := false, stopBm := 0 } else r
    .ok ((s.putSeq x r).retire 1)

def execTkBudget (a b : SReg) (s : State) : Out :=
  finish s <| do
    let x := s.rs a
    let y := s.rs b
    let lo := bits y 23 0
    let hi := bits y 47 24
    need (x >>> 22 == 0) 0x01 x
    need (y >>> 48 == 0 && decide (lo ≤ hi)) 0x01 y
    let r ← s.liveSeq x
    let c := bits x 21 20
    .ok ((s.putSeq x
      { r with lo := setNth r.lo c lo, hi := setNth r.hi c hi, ranged := setNth r.ranged c true
               cnt := setNth r.cnt c 0 }).retire 1)

/-- The effect of a commit on the record that an identifier names (R219 to R221). -/
def State.commitTo (s : State) (d : SReg) (a : Word) (r : SeqRec) (toks : List Nat) : Act? :=
  if r.stopped then .ok ((s.ws d (commitWord 0 1 r.stopBm 0 false) 0).retire 1)
  else
    let sc := r.scan 0 toks
    match sc.win with
    | none => .ok (((s.putSeq a sc.r).ws d (commitWord sc.count 0 0 0 false) 0).retire 1)
    | some w => do
      let b := sc.r.bm w
      let s ← (if b.action = 4 then s.release .system else .ok s)
      let s := s.putSeq a (sc.r.acted w)
      let (extra, s) := match b.action with
        | 2 => match s.openSeq (idFolio a) (({ sc.r with stopped := false, stopBm := 0 } : SeqRec).disarm w) with
          | some (i, s) => (i, s)
          | none => (0xFFFFF, s)
        | 3 => (b.forced.length, s)
        | _ => (0, s)
      match if b.action = 4 then s.notify b else some s with
      | none => .ok ((s.ws d (commitWord sc.count b.action w extra true) 0).retireTrap 0x15 b.addr)
      | some s =>
        let s := s.ws d (commitWord sc.count b.action w extra b.trap) 0
        if b.trap then .ok (s.retireTrap 0x0B (watchVal a sc.r.pos w)) else .ok (s.retire 1)

def execTkCommit (d a : SReg) (vb : Fin 64) (s : State) : Out :=
  finish s <| do
    let x := s.rs a
    let n ← commitCount x
    let r ← s.liveSeq x
    s.commitTo d x r (tokensOf (s.rv (regOf vb)) n)

/-- The result word of TK.PEEK (R222). -/
def SeqRec.peek (r : SeqRec) (toks : List Nat) : Word :=
  if r.stopped then commitWord 0 1 r.stopBm 0 false
  else
    let sc := r.scan 0 toks
    match sc.win with
    | none => commitWord sc.count 0 0 0 false
    | some w =>
      let b := sc.r.bm w
      commitWord sc.count b.action w (if b.action = 3 then b.forced.length else 0) false

def execTkPeek (d a : SReg) (vb : Fin 64) (s : State) : Out :=
  finish s <| do
    let x := s.rs a
    let n ← commitCount x
    let r ← s.liveSeq x
    .ok ((s.ws d (r.peek (tokensOf (s.rv (regOf vb)) n)) 0).retire 1)

/-- The value a selector names (R223). -/
def SeqRec.readSel (r : SeqRec) (sel : Nat) : Nat :=
  if sel = 0 then
    r.pos + r.gen * 2 ^ 32 + (if r.stopped then 2 ^ 36 else 0) + r.stopBm * 2 ^ 37 + r.hlen * 2 ^ 40 +
      (upto 8).foldl (fun m b => m + if (r.bm b).armed then 2 ^ (44 + b) else 0) 0
  else if sel ≤ 4 then nth 0 r.h (2 * (sel - 1)) + nth 0 r.h (2 * (sel - 1) + 1) * 2 ^ 32
  else if sel ≤ 8 then nth 0 r.cnt (sel - 5)
  else if sel ≤ 12 then nth 0 r.lo (sel - 9) + nth 0 r.hi (sel - 9) * 2 ^ 24
  else (r.bm (sel - 13)).hits + if (r.bm (sel - 13)).armed then 2 ^ 16 else 0

def execTkRead (d a b : SReg) (s : State) : Out :=
  finish s <| do
    let x := s.rs a
    let y := s.rs b
    need (x >>> 20 == 0) 0x01 x
    need (decide (y.toNat ≤ 20)) 0x01 y
    let r ← s.liveSeq x
    .ok ((s.ws d (BitVec.ofNat 64 (r.readSel y.toNat)) 0).retire 1)

/-! TK.ARM (R217, R218). -/

/-- Pattern token j of a descriptor's words. -/
def descTok (ws : List Word) (j : Nat) : Nat := bits (nth 0 ws (2 + j / 2)) (32 * (j % 2) + 31) (32 * (j % 2))

/-- The bookmark that a descriptor's words describe, with no forced tokens yet. -/
def bookmarkOf (ws : List Word) : Bookmark :=
  let w := nth 0 ws 0
  { armed := true, hits := 0, kind := bits w 1 0, action := bits w 4 2, trap := bit w 5, oneshot := bit w 6
    len := bits w 10 7, wild := BitVec.ofNat 8 (bits w 18 11), ctr := bits w 20 19, limit := (nth 0 ws 1).toNat
    pat := (upto 8).map (descTok ws), forced := [], addr := nth 0 ws 6, value := nth 0 ws 7 }

/-- Whether a descriptor is valid, apart from its list (R218). -/
def descOk (ws : List Word) : Bool :=
  let w := nth 0 ws 0
  let b := bookmarkOf ws
  let icount := bits w 25 21
  bits w 63 26 == 0 && decide (b.kind ≤ 1) && decide (1 ≤ b.action ∧ b.action ≤ 4) &&
  (if b.kind = 0 then
    decide (1 ≤ b.len ∧ b.len ≤ 8) && b.ctr == 0 && b.limit == 0 &&
    (upto 8).all fun j => decide (nth 0 b.pat j < 2 ^ 24) && (decide (j < b.len) || (!b.wild.getLsbD j && nth 0 b.pat j == 0))
   else b.len == 0 && b.wild == 0 && decide (b.limit < 2 ^ 32) && b.pat.all fun p => p == 0) &&
  (if b.action = 3 then decide (1 ≤ icount ∧ icount ≤ 16) else icount == 0) &&
  (b.action == 3 || b.action == 4 || b.addr == 0) && (b.action == 4 || b.value == 0)

/-- A plain load of the issuing thread for TK.ARM: aligned memory of kind 0, 1 or 2 (R217). -/
def State.armLoad (s : State) (va : Word) (n stamp : Nat) : Except Stop (List Byte × State) := do
  let (site, s) ← s.translate .load va
  need (decide (site.kind ≤ 2)) 0x05 va
  s.siteReadable va site n
  let (bs, _, s) := s.loadAt site n stamp
  .ok (bs, s)

/-- The entries of an injection list from an address on. -/
def State.armList (s : State) (va : Word) : Nat → Except Stop (List Nat × State)
  | 0 => .ok ([], s)
  | n + 1 => do
    let (bs, s) ← s.armLoad va 4 0
    let (ts, s) ← s.armList (va + 4) n
    .ok (leNat bs :: ts, s)

/-- The words of 64 bytes. -/
def wordsOf (bs : List Byte) : List Word := (upto 8).map fun i => BitVec.ofNat 64 (leNat ((bs.drop (8 * i)).take 8))

def execTkArm (a b : SReg) (s : State) : Out :=
  finish s <| do
    let x := s.rs a
    let y := s.rs b
    need (x >>> 23 == 0) 0x01 x
    let r ← s.liveSeq x
    need (y.toNat % 64 == 0) 0x03 y
    let (bs, s) ← s.armLoad y 64 (s.ss b)
    let ws := wordsOf bs
    need (descOk ws) 0x01 y
    let bm := bookmarkOf ws
    let (bm, s) ← (
      if bm.action = 3 then do
        need (bm.addr.toNat % 4 == 0) 0x03 bm.addr
        let (ts, s) ← s.armList bm.addr (bits (nth 0 ws 0) 25 21)
        need (ts.all fun t => decide (t < 2 ^ 24)) 0x01 y
        .ok ({ bm with forced := ts }, s)
      else if bm.action = 4 then do
        need (bm.addr.toNat % 8 == 0) 0x03 bm.addr
        let (site, s) ← s.translate .store bm.addr
        need (decide (site.kind ≤ 3)) 0x05 bm.addr
        .ok (bm, s)
      else .ok (bm, s) : Except Stop (Bookmark × State))
    .ok ((s.putSeq x (r.setBm (bits x 22 20) bm)).retire 1)

end Sys2Proof.Machine
end

