-- ==== Sys2Proof/Machine/System.lean ====
section
/-! DEFINITION. The system registers (R49, R51, R52, R66, R226, R227, R415, R416), the bank roles (R53, R54) and QFLAGS
(R52). -/

namespace Sys2Proof.Machine

/-! The table of R51. -/

/-- Registers that user mode may read. -/
def sysUser (r : Nat) : Bool := r ≤ 0x006 || r == 0x030 || r == 0x050 || r == 0x060

/-- Every register of the table. -/
def sysListed (r : Nat) : Bool :=
  sysUser r || (0x010 ≤ r && r ≤ 0x017) || (0x020 ≤ r && r ≤ 0x024) || r == 0x040 || r == 0x041 || r == 0x070

/-- Registers that a mode may write. -/
def sysWritable (m : Mode) (r : Nat) : Bool :=
  r == 0x000 || r == 0x030 ||
  (m == .supervisor && ((0x010 ≤ r && r ≤ 0x017) || (0x020 ≤ r && r ≤ 0x024) || r == 0x041 || r == 0x060 || r == 0x070))

/-- TRAPSTAT (R227). -/
def Thread.trapStat (t : Thread) : Word :=
  BitVec.ofNat 64 (t.dcause.toNat * 65536 + t.trapSub.toNat * 256 + (if t.trapFrec then 128 else 0) +
    t.trapKind.toNat * 16 + (if t.trapDbl then 4 else 0) + (if t.trapPost then 2 else 0))

/-- BANKROLE (R53). -/
def Core.bankrole (c : Core) : Word :=
  BitVec.ofNat 64 (c.busy.toNat * 256 + 192 + c.role2.toNat * 16 + c.role1.toNat * 4 + c.role0.toNat)

/-- MXRAMP (R48). -/
def Quire.mxramp (q : Quire) : Word :=
  BitVec.ofNat 64 (q.rampSlots.toNat * 2 ^ 32 + q.rampDown.toNat * 2 ^ 12 + q.rampUp.toNat)

/-- A system register as the issuing thread reads it. TIME is up to 1 µs ahead of the device's, by a free value (R51). -/
def State.sysRead (s : State) (r : Nat) : Word :=
  let t := s.th
  match r with
  | 0x000 => t.fctl.setWidth 64
  | 0x001 => t.wid
  | 0x002 => t.widShape
  | 0x003 => BitVec.ofNat 64 s.cur
  | 0x004 => BitVec.ofNat 64 t.ctx
  | 0x005 => BitVec.ofNat 64 s.cycle
  | 0x006 => BitVec.ofNat 64 (s.time + Config.timeSkew s.myCore % 1001)
  | 0x010 => s.myCtx.trapvec
  | 0x011 => t.trapCause.setWidth 64
  | 0x012 => t.trapPc
  | 0x013 => t.trapVal
  | 0x014 => t.trapFrame
  | 0x015 => t.trapIter
  | 0x016 => t.trapStat
  | 0x017 => t.trapScratch
  | 0x020 => t.stepctl.setWidth 64
  | 0x021 => t.brk[0]
  | 0x022 => t.brk[1]
  | 0x023 => t.brk[2]
  | 0x024 => t.brk[3]
  | 0x030 => t.waitLimit
  | 0x040 => (tget 0 (s.quire s.myQuire).qflags t.ctx).setWidth 64
  | 0x041 => (s.core s.myCore).bankrole
  | 0x050 => t.heapId
  | 0x060 => s.myCtx.framePool
  | 0x070 => (s.quire s.myQuire).mxramp
  | _ => 0

/-- The access checks of R51, in order. -/
def State.sysCheck (s : State) (r : Nat) (write : Bool) : Except Stop Unit := do
  need (sysListed r) 0x01 0
  need (s.th.mode == .supervisor || sysUser r) 0x02 0
  need (!write || sysWritable s.th.mode r) 0x01 0

/-- An address register: bits 63 to 56 equal bit 55 (R66, R226). -/
def addrForm (v : Word) : Bool := canonical v

/-- MXRAMP fields below a floor store the floor; a floor is at least 1 (R49). -/
def atFloor (v floor : BitVec 12) : BitVec 12 := BitVec.ofNat 12 (max v.toNat (max floor.toNat 1))

/-! Bank roles (R54). -/

/-- The tile descriptor other than free, of any context, that lies in a bank: the first of several (DESIGN CHOICE, log 111). -/
def Core.tileIn (c : Core) (b : Nat) : Option Nat :=
  (c.tiles.find? fun e => e.2.st != .free && e.2.base / Config.bankBytes == b).map (·.1 % 32)

/-- Whether a FIFO of a bank holds an entry or has a load waiting; a push on its way into it counts as an entry. -/
def State.fifoInUse (s : State) (core b : Nat) : Bool :=
  ((s.core core).fifos.any fun e => e.1 / 16 == b && (e.2.entries != [] || e.2.loads != [])) ||
  s.cores.any fun e => e.2.pushes.any fun p => p.fifo / 64 == core && p.fifo % 64 / 16 == b

/-- Window offset of a bank in its core's quire. -/
def bankOff (core b : Nat) : Nat := core % 192 * Config.coreBytes + b * Config.bankBytes

/-- The refusals of one changing bank (R54). -/
def State.bankCheck (s : State) (core b new : Nat) : Except Stop Unit :=
  let c := s.core core
  let old := c.role b
  if old = new then .ok ()
  else if old = 1 ∧ (c.tileIn b).isSome = true then trapV 0x07 (BitVec.ofNat 64 ((c.tileIn b).getD 0))
  else if old = 2 ∧ s.fifoInUse core b = true then trapV 0x01 (BitVec.ofNat 64 b)
  else if old = 1 ∧ s.inPool (quireOf core) (bankOff core b) Config.bankBytes = true then trapV 0x01 (BitVec.ofNat 64 b)
  else .ok ()

/-- Whether a site key lies in a bank of a core. -/
def inBank (core b key : Nat) : Bool :=
  let lo := 2 ^ 52 + quireOf core * Config.windowBytes + bankOff core b
  lo ≤ key && key < lo + Config.bankBytes

/-- Accesses accepted before a bank switch complete under the old role: buffered stores to the bank are delivered. -/
def State.flushBank (s : State) (core b : Nat) : State :=
  s.cores.foldl (fun s e => s.deliverWhere e.1 fun l => inBank core b (64 * l)) s

/-- A write of BANKROLE: refused, or nothing changes, or the switch begins and the thread waits (R53, R54). -/
def State.writeBankrole (s : State) (v : Word) : Act? := do
  let k := s.myCore
  let c := s.core k
  needOrWait c.switching.isNone
  need (bits v 7 6 == 3) 0x01 3
  need (bits v 1 0 != 3) 0x01 0
  need (bits v 3 2 != 3) 0x01 1
  need (bits v 5 4 != 3) 0x01 2
  s.bankCheck k 0 (bits v 1 0)
  s.bankCheck k 1 (bits v 3 2)
  s.bankCheck k 2 (bits v 5 4)
  let ch := fun b => c.role b != bits v (2 * b + 1) (2 * b)
  if !ch 0 && !ch 1 && !ch 2 then .ok (s.retire 1)
  else
    let s := (upto 3).foldl (fun s b => if ch b then s.flushBank k b else s) s
    let busy := (if ch 0 then 1 else 0) + (if ch 1 then 2 else 0) + (if ch 2 then 4 else 0)
    let s := s.setCore k
      { s.core k with busy := BitVec.ofNat 4 busy
                      switching := some (BitVec.ofNat 2 (bits v 1 0), BitVec.ofNat 2 (bits v 3 2),
                        BitVec.ofNat 2 (bits v 5 4), s.cur) }
    .ok (s.setTh { s.th with wait := .bank k })

/-- The bytes of a bank that enters the scratchpad role are zero. -/
def State.clearBank (s : State) (core b : Nat) : State :=
  { s with mem := s.mem.filter fun c => !inBank core b c.1
           poison := s.poison.filter fun p => !inBank core b p.1 }

/-- One bank takes its new role (R54). -/
def State.switchBank (s : State) (core b old new : Nat) : State :=
  if old = new then s
  else
    let s := if old = 0 then s.clearL1 core else s
    let s := if new = 1 then s.clearBank core b else s
    if new = 2 then s.setCore core { s.core core with fifos := (s.core core).fifos.filter fun e => e.1 / 16 != b } else s

/-- A bank switch under way ends: BUSY clears, and the SYSW that began it completes (R54). -/
def State.endSwitch (s : State) (core : Nat) : State :=
  let c := s.core core
  match c.switching with
  | none => s
  | some (r0, r1, r2, n) =>
    let s := s.switchBank core 0 c.role0.toNat r0.toNat
    let s := s.switchBank core 1 c.role1.toNat r1.toNat
    let s := s.switchBank core 2 c.role2.toNat r2.toNat
    let s := s.setCore core { s.core core with role0 := r0, role1 := r1, role2 := r2, busy := 0, switching := none }
    if (s.thr n).wait = .bank core then { ({ s with cur := n }.retire 1) with cur := s.cur } else s

/-- A bank switch ends (R54). Until then the role fields read as before the write (DESIGN CHOICE, log 112). -/
def execBankSwitchDone (core : Nat) (s : State) : Out :=
  event s (if (s.core core).switching = none then none else some (s.endSwitch core))

/-- A core with the role of one of banks 0 to 2 changed. -/
def Core.setRole (c : Core) (b r : Nat) : Core :=
  match b with
  | 0 => { c with role0 := BitVec.ofNat 2 r }
  | 1 => { c with role1 := BitVec.ofNat 2 r }
  | _ => { c with role2 := BitVec.ofNat 2 r }

/-- A bank takes its reset role (R6, R53), as by a write of it. One in which R54 refuses the change keeps its role: what live contexts
hold there stays theirs (R20, R234; DEDUCED, log 142). -/
def State.resetBank (s : State) (core b : Nat) : State :=
  let old := (s.core core).role b
  let new := Core.reset.role b
  match s.bankCheck core b new with
  | .error _ => s
  | .ok _ =>
    if old = new then s
    else
      let s := (s.flushBank core b).switchBank core b old new
      s.setCore core ((s.core core).setRole b new)

/-- The BANKROLE of a core takes its reset value (R6, R53), after a switch that is under way. -/
def State.resetBanks (s : State) (core : Nat) : State := (upto 3).foldl (fun s b => s.resetBank core b) (s.endSwitch core)

/-- The MXRAMP of a quire takes its reset value (R6, R48). -/
def State.resetRamp (s : State) (q : Nat) : State :=
  s.setQuire q { s.quire q with rampUp := Quire.reset.rampUp, rampDown := Quire.reset.rampDown, rampSlots := 0 }

/-! Writes. -/

/-- A write of a register that belongs to the thread, its context or its quire, with the register's own check (R415). -/
def State.sysWrite (s : State) (r : Nat) (v : Word) : Act? :=
  let t := s.th
  match r with
  | 0x000 => do
    need (decide (bits v 7 5 ≤ 4)) 0x01 0
    .ok (s.setTh { t with fctl := v.setWidth 8 })
  | 0x010 => do
    need (addrForm v && bits v 1 0 == 0) 0x01 0
    .ok (s.setCtx t.ctx { s.myCtx with trapvec := v })
  | 0x011 => .ok (s.setTh { t with trapCause := v.setWidth 8 })
  | 0x012 => .ok (s.setTh { t with trapPc := v })
  | 0x013 => .ok (s.setTh { t with trapVal := v })
  | 0x014 => .ok (s.setTh { t with trapFrame := v })
  | 0x015 => .ok (s.setTh { t with trapIter := v })
  | 0x016 => .ok (s.setTh { t with trapSub := BitVec.ofNat 8 (bits v 15 8), trapFrec := bit v 7
                                   trapKind := BitVec.ofNat 3 (bits v 6 4), trapPost := bit v 1 })
  | 0x017 => .ok (s.setTh { t with trapScratch := v })
  | 0x020 => .ok (s.setTh { t with stepctl := v.setWidth 7 })
  | 0x021 => do
    need (addrForm v) 0x01 0
    .ok (s.setTh { t with brk := t.brk.set 0 (v &&& ~~~3) })
  | 0x022 => do
    need (addrForm v) 0x01 0
    .ok (s.setTh { t with brk := t.brk.set 1 (v &&& ~~~3) })
  | 0x023 => do
    need (addrForm v) 0x01 0
    .ok (s.setTh { t with brk := t.brk.set 2 (v &&& ~~~3) })
  | 0x024 => do
    need (addrForm v) 0x01 0
    .ok (s.setTh { t with brk := t.brk.set 3 (v &&& ~~~3) })
  | 0x030 => .ok (s.setTh { t with waitLimit := v })
  | 0x060 => .ok (s.setCtx t.ctx { s.myCtx with framePool := v })
  | 0x070 =>
    let q := s.quire s.myQuire
    .ok (s.setQuire s.myQuire { q with rampUp := atFloor (v.setWidth 12) s.dev.rampFloorUp
                                       rampDown := atFloor (BitVec.ofNat 12 (bits v 23 12)) s.dev.rampFloorDown })
  | _ => illegal

/-- SYSR (R415). -/
def execSysr (d : SReg) (reg : BitVec 12) (s : State) : Out :=
  finish s <| do
    s.sysCheck reg.toNat false
    .ok ((s.ws d (s.sysRead reg.toNat) 0).retire 1)

/-- A write, after its access checks: BANKROLE completes the instruction itself. -/
def State.sysPut (s : State) (r : Nat) (v : Word) : Act? :=
  if r = 0x041 then s.writeBankrole v
  else do
    let s ← s.sysWrite r v
    .ok (s.retire 1)

/-- SYSW (R415). -/
def execSysw (a : SReg) (reg : BitVec 12) (s : State) : Out :=
  finish s <| do
    s.sysCheck reg.toNat true
    s.sysPut reg.toNat (s.rs a)

/-- SYSX (R415): the old value goes to d, in one act with the write. -/
def execSysx (d a : SReg) (reg : BitVec 12) (s : State) : Out :=
  finish s <| do
    s.sysCheck reg.toNat true
    let old := s.sysRead reg.toNat
    let v := s.rs a
    (s.ws d old 0).sysPut reg.toNat v

/-- QFLAGS of a context in a quire follows its threads' flags (R52). -/
def State.flagsOf (s : State) (q c : Nat) : BitVec 5 :=
  s.threads.foldl (fun f e => if quireOf (coreOf e.1) = q ∧ e.2.ctx = c ∧ e.2.work ≠ .free then f ||| e.2.flags else f) 0

def execQflagsUpdate (quire ctx : Nat) (s : State) : Out :=
  event s (some (s.setQuire quire { s.quire quire with qflags := tset 0 (s.quire quire).qflags ctx (s.flagsOf quire ctx) }))

end Sys2Proof.Machine
end

