-- ==== Sys2Proof/Machine/Outside.lean ====
section
/-! DEFINITION. What reaches the machine from outside its cores: host accesses to the register space and the mailbox (R5, R247,
R248, R257), the ramp limiter (R48), CXL.mem (R172), peers (R175, R252), losses of links and ports (R251, R252), and errors
in memory (R168). -/

namespace Sys2Proof.Machine

/-! The mailbox (R257). -/

/-- A 64-bit word of the request buffer. -/
def State.mailRequest (s : State) (k : Nat) : Word :=
  BitVec.ofNat 64 (leNat ((upto 8).map fun i => tget 0 s.mailbox.req (8 * k + i)))

/-- Bytes put into a buffer. -/
def putBytes (t : Table Byte) (off : Nat) (bs : List Byte) : Table Byte :=
  (cellsFrom off bs).foldl (fun t e => tset 0 t e.1 e.2) t

/-- A request ends with a result. -/
def State.respond (s : State) (result : Nat) : State :=
  { s with mailbox := { s.mailbox with result := BitVec.ofNat 8 result, done := true, busy := false } }

/-- A request ends done, with a response. -/
def State.respondWith (s : State) (bs : List Byte) : State :=
  { s with mailbox := { s.mailbox with resp := putBytes [] 0 bs } }.respond 0

/-- Serves the request in the mailbox where its command is the one given (R258): what it does for the context it names. A word 0
with bits above the context is an invalid argument (DESIGN CHOICE, log 7). -/
def State.command (s : State) (code : Nat) (f : Nat → Option State) : Option State :=
  let w := s.mailRequest 0
  if s.mailbox.busy = false ∨ bits w 15 0 ≠ code then none
  else if bits w 63 22 ≠ 0 then some (s.respond 0x02)
  else f (bits w 21 16)

/-- A write to MBDOOR submits the request, or is ignored while one is served (R257). -/
def State.doorbell (s : State) : State :=
  { s with mailbox := if s.mailbox.busy then { s.mailbox with ovr := true } else { s.mailbox with busy := true } }

/-- A host write to the mailbox: its buffers, MBDOOR, and the W1C bits of MBSTAT. -/
def State.mailWrite (s : State) (off : Nat) (v : Word) : State :=
  let m := s.mailbox
  if off < 0x100 then { s with mailbox := { m with req := putBytes m.req off (leBytes 8 v.toNat) } }
  else if off < 0x200 then { s with mailbox := { m with resp := putBytes m.resp (off - 0x100) (leBytes 8 v.toNat) } }
  else if off = 0x200 then s.doorbell
  else if off = 0x208 then { s with mailbox := { m with ovr := m.ovr && !bit v 2, done := m.done && !bit v 1 } }
  else s

/-- MBSTAT (R257). -/
def Mailbox.stat (m : Mailbox) : Word :=
  BitVec.ofNat 64 (m.result.toNat * 256 + (if m.ovr then 4 else 0) + (if m.done then 2 else 0) + (if m.busy then 1 else 0))

/-- A 64-bit word of the mailbox as the host reads it; MBDOOR is write-only (R5, R257). -/
def Mailbox.word (m : Mailbox) (off : Nat) : Word :=
  if off < 0x100 then BitVec.ofNat 64 (leNat ((upto 8).map fun i => tget 0 m.req (off + i)))
  else if off < 0x200 then BitVec.ofNat 64 (leNat ((upto 8).map fun i => tget 0 m.resp (off - 0x100 + i)))
  else if off = 0x208 then m.stat
  else 0

/-- A port serves accesses of its host once it has trained (R249). -/
def State.portServes (s : State) (port : Nat) : Bool := s.dev.ports.getLsbD port

/-- What a host read of the 1 MiB of BAR0 returns (R247 to R249), none where the device does not complete it: other sizes and
alignments are Unsupported Requests, and a minimal start serves the mailbox and the discovery window alone (R260). -/
def State.hostWord (s : State) (port off : Nat) : Option Word :=
  if s.portServes port = false ∨ off % 8 ≠ 0 ∨ 0x100000 ≤ off then none
  else if off < 0x40000 then (if s.dev.state = 2 then none else some (s.pageRead (off / 0x1000) (off % 0x1000)))
  else if off < 0x50000 then some (s.discoveryWord (off - 0x40000))
  else if off < 0x60000 then some (s.mailbox.word (off - 0x50000))
  else some 0

/-- The host reads a register. -/
def State.hostRead (s : State) (port off : Nat) : State := { s with hostData := s.hostWord port off }

/-- A host write to BAR0 through a port (R5, R247 to R249): RW fields are set, the rest does as its register says; the discovery
window and reserved offsets ignore it. Other sizes and alignments are refused. A minimal start serves the mailbox alone (R260). -/
def State.hostWrite (s : State) (port off : Nat) (v : Word) : Option State :=
  if s.portServes port = false ∨ off % 8 ≠ 0 then none
  else if off < 0x40000 then (if s.dev.state = 2 then none else some (s.pageWrite (off / 0x1000) (off % 0x1000) v))
  else if 0x50000 ≤ off ∧ off < 0x60000 then some (s.mailWrite (off - 0x50000) v)
  else none

def execRegisterWrite (off : PortAddr) (v : Word) (s : State) : Out := event s (s.hostWrite off.port off.addr v)

/-- A second doorbell, through either port, is ignored and sets OVR (R257). -/
def execMbdoorWriteWhileBusy (s : State) : Out :=
  event s (if s.mailbox.busy = true ∧ s.dev.ports ≠ 0 then some s.doorbell else none)

/-- A command code that R258 does not list. -/
def execUnknownCommand (s : State) : Out :=
  event s <|
    let c := bits (s.mailRequest 0) 15 0
    if s.mailbox.busy = true ∧ (c = 0 ∨ 9 < c) then some (s.respond 0xFF) else none

/-! The ramp limiter (R48): SLOTS counts the empty slots it has inserted. How many is timing. -/

def execRampRateUpdate (quire slots : Nat) (s : State) : Out :=
  event s <|
    if s.present quire then
      some (s.setQuire quire { s.quire quire with rampSlots := (s.quire quire).rampSlots + BitVec.ofNat 32 slots })
    else none

/-! Memory reached from outside. -/

/-- The grain that an access without a page takes: the one fixed at the home, else 1. -/
def State.homeGrain (s : State) (pa : Nat) : Nat := if s.grainOf (pa / 512) = 3 then 1 else s.grainOf (pa / 512)

/-- Bytes written at the home of device memory: every copy of the units is recalled (R166, R172, R175). -/
def State.homeWrite (s : State) (pa : Nat) (bs : List Byte) : State :=
  let s := s.cohAtomic pa bs.length (s.homeGrain pa)
  s.writeCells (cellsFrom pa bs)

/-- The host sets a decoder of a port, each of which has two (R250). -/
def State.setDecoder (s : State) (port k lo len : Nat) : State :=
  if port < 2 ∧ k < 2 then { s with dev := { s.dev with decoders := tset (0, 0) s.dev.decoders (2 * port + k) (lo, len) } } else s

/-- Supervisor code exports a range of device memory (R172); how it says so the spec leaves open (log 74). -/
def State.exportRange (s : State) (lo len : Nat) : State :=
  if s.deviceSpan lo len then { s with dev := { s.dev with exported := (lo, len) :: s.dev.exported } } else s

/-- Supervisor code takes every range back: the home recalls the host's copies (R172). -/
def State.exportNothing (s : State) : State :=
  let s := s.units.foldl (fun s e => if e.2.holds 20 ∧ hostHome e.1 = false then s.recallUnit e.1 else s) s
  { s with dev := { s.dev with exported := [] } }

/-- A host access over CXL.mem through a port, within a 64-byte line (R172): a read makes the host a sharer of the unit. -/
def execHostCxlMemAccess (pa : PortAddr) (data : Option (List Byte)) (s : State) : Out :=
  event s <|
    match data with
    | none =>
      if s.cxlMem pa.port pa.addr 1 then
        let u := s.unitOf pa.addr 1
        some (((s.adoptGrain (pa.addr / 512) (s.homeGrain pa.addr)).settle u).homeGetS 20 u |>.settle u)
      else none
    | some bs =>
      if s.cxlMem pa.port pa.addr bs.length = true ∧ pa.addr % 64 + bs.length ≤ 64 then some (s.homeWrite pa.addr bs) else none

/-- Whether the peer table lets a peer access a span (R252). -/
def State.peerMay (s : State) (peer pa n : Nat) : Bool :=
  s.dev.peers.any fun e => e.1 == peer && decide (e.2.1 ≤ pa ∧ pa + n ≤ e.2.1 + e.2.2)

/-- An access of a peer device at the home, uncached (R175): refused outside the ranges of the peer table. -/
def execPeerAccess (peer pa : Nat) (data : Option (List Byte)) (s : State) : Out :=
  event s <|
    match data with
    | none => none
    | some bs =>
      if s.dev.zorey.isSome = true ∧ s.dev.links ≠ 0 ∧ s.peerMay peer pa bs.length = true ∧ s.deviceSpan pa bs.length = true ∧
          pa % 64 + bs.length ≤ 64 then some (s.homeWrite pa bs)
      else none

/-- A host agent or a peer writes its own memory: units that the device holds are invalidated and given up first (R170). -/
def State.outsideWrite (s : State) (pa : Nat) (bs : List Byte) : State :=
  if pa < 2 ^ 50 ∨ 2 ^ 52 < pa + bs.length ∨ bs = [] then s
  else
    let s := if hostHome (pa / 32) then
        (upto ((pa + bs.length - 1) / 32 - pa / 32 + 1)).foldl (fun s i =>
          (s.recallUnit (s.unitOf (pa + 32 * i) 1)).hostGiveUp (s.unitOf (pa + 32 * i) 1)) s
      else s
    s.writeCells (cellsFrom pa bs)

/-- A posted kind-4 store that the peer refuses is dropped and counted (R175). -/
def execKind4StoreFailure (core idx : Nat) (s : State) : Out :=
  event s <|
    let c := s.core core
    match c.wbuf[idx]? with
    | none => none
    | some e =>
      if e.kind = 4 ∧ 2 ^ 50 ≤ 64 * e.line then
        some ((s.setCore core { c with wbuf := dropNth c.wbuf idx }).peerDrop e)
      else none

/-- The poison unit of a site key (R168): the coherence unit as the home fixed the grain, or as the page has it while no copy
exists; in quire SRAM the aligned 8-byte word. -/
def State.poisonUnit (s : State) (key grain : Nat) : Option (Nat × Nat) :=
  if 2 ^ 52 ≤ key then
    if key < 2 ^ 52 + 16 * Config.windowBytes then some (key / 8 * 8, 8) else none
  else if s.tierPa key = true ∨ 2 ^ 51 ≤ key then
    let g := if s.grainOf (key / 512) = 3 then grain else s.grainOf (key / 512)
    let n := 32 * grainSectors g
    some (key / n * n, n)
  else none

/-- An uncorrectable or soft error poisons a unit (R168). -/
def execPoisonDetect (key grain : Nat) (s : State) : Out :=
  event s <|
    (s.poisonUnit key grain).map fun u => { s with poison := if s.poison.contains u then s.poison else u :: s.poison }

/-- A Zorey link goes down: its traffic moves to the others (R252). -/
def execZoreyLinkDown (link : Nat) (s : State) : Out :=
  event s <|
    if s.dev.links.getLsbD link then
      some { s with dev := { s.dev with links := s.dev.links &&& ~~~(BitVec.ofNat 18 (2 ^ link)) } }
    else none

/-- Whether a buffered store goes through a host port (R173, R250). -/
def Pending.through (e : Pending) (port : Nat) : Bool :=
  (e.kind == 2 || e.kind == 3) && e.cells.any fun c => c.1 / 4096 % 2 == port

/-- A host port loses training (R251): CXL.cache is off, and the stores on their way through the port are dropped and reported as
kind-4 stores are. -/
def execHostPortTrainingLoss (port : Nat) (s : State) : Out :=
  event s <|
    if s.dev.ports.getLsbD port then
      let m : BitVec 2 := ~~~(BitVec.ofNat 2 (2 ^ port))
      let s := { s with dev := { s.dev with ports := s.dev.ports &&& m, cxl := s.dev.cxl &&& m } }
      some (s.cores.foldl (fun s e => s.deliverWhere e.1 fun l => e.2.wbuf.any fun x => x.line == l && x.through port) s)
    else none

end Sys2Proof.Machine
end

