-- ==== Sys2Proof/Machine/Start.lean ====
section
/-! DEFINITION. The start of the device and the loss of power (R255, R259, R260): the bring-up record, FAILRUN, the minimal start,
and the update of main firmware (R262). -/

namespace Sys2Proof.Machine

/-- The steps of a full start in order, with the sub-steps of steps 6 and 7 (R259). -/
def startSteps : List (Nat × Nat) :=
  [(1, 0), (2, 0), (3, 0), (4, 0), (5, 0)] ++ (upto 16).map (fun q => (6, q)) ++ (upto 4).map (fun f => (7, f)) ++
    [(8, 0), (9, 0)]

/-- Whether the last start left a step failed: a start entry without a finish entry. -/
def Device.failedAt (d : Device) (step sub : Nat) : Bool :=
  d.record.any fun e => e.step == step && e.sub == sub && !e.finished
def Device.foundFailed (d : Device) : Bool := d.record.any fun e => !e.finished

/-- FAILRUN in the start that follows (R260), and whether that start is minimal. -/
def Device.nextFailrun (d : Device) : Nat := if d.foundFailed then d.failrun + 1 else 0
def Device.minimal (d : Device) : Bool := 3 ≤ d.nextFailrun

/-- A failed step that is skipped (R259). -/
def Device.skips (d : Device) (e : Nat × Nat) : Bool :=
  (e.1 == 4 || e.1 == 6 || e.1 == 7 || e.1 == 8) && d.failedAt e.1 e.2

/-- The steps that the start which follows runs: step 4 is one of a CLF-A4M alone. -/
def Device.plan (d : Device) : List (Nat × Nat) :=
  if d.minimal then [(1, 0), (2, 0)] else startSteps.filter fun e => !d.skips e && (e.1 != 4 || d.product == .a4m)

/-- The slot that a verification step tries first: the other one where the step was found failed. -/
def Device.firstSlot (d : Device) (step slot : Nat) : Nat := if d.failedAt step 0 then 1 - slot else slot

/-- The SM3 digest of Dipraken's public key, which the boot ROM holds (R255). -/
def romKeyDigest : BitVec 256 := Config.sm3 Config.vendorKey

/-- Whether a public key accepts the bytes of a signature of a digest (R255). -/
def sm2Accepts (key : List Byte) (digest : BitVec 256) (sig : List Byte) : Bool :=
  (Config.sm2One key digest :: Config.sm2More key digest).any fun x => sig == leBytes 64 x.toNat

/-- Whether an image or a block verifies: its key is the one whose digest the ROM holds, and its signature is one over the digest
of its bytes (R255). -/
def verifies (x : Signed) : Bool :=
  Config.sm3 x.key == romKeyDigest && sm2Accepts x.key (Config.sm3 x.body) x.sig

/-- The image in a flash slot. -/
def slotImage (slots : List Signed) (k : Nat) : Signed := nth { body := [], key := [], sig := [] } slots k

/-- The slot whose image verifies, the first one tried first (R255). -/
def pickSlot (slots : List Signed) (first : Nat) : Option Nat :=
  if verifies (slotImage slots first) then some first
  else if verifies (slotImage slots (1 - first)) then some (1 - first)
  else none

/-- What the verifications of a start find (R255): the slots of the two images, or the step that fails. A configuration block that
does not verify fails step 2, since clasp firmware verifies the blocks with the main image (DESIGN CHOICE, log 130). -/
def Device.verify (d : Device) : Except Nat (Nat × Nat) :=
  match pickSlot d.claspImages (d.firstSlot 1 d.claspSlot), pickSlot d.mainImages (d.firstSlot 2 d.mainSlot) with
  | none, _ => .error 1
  | some _, none => .error 2
  | some c, some m => if d.blocks.all verifies then .ok (c, m) else .error 2

/-- The record of a start that ran some steps and stopped within another. -/
def recordOf (done : List (Nat × Nat)) (cut : Option (Nat × Nat)) : List BringUp :=
  done.map (fun e => { step := e.1, sub := e.2, finished := true }) ++
    match cut with
    | none => []
    | some e => [{ step := e.1, sub := e.2, finished := false }]

/-- A mask without the sub-steps of a step that failed. -/
def Device.mapOut {n : Nat} (d : Device) (step : Nat) (m : BitVec n) : BitVec n :=
  (upto n).foldl (fun m i => if d.failedAt step i then m &&& ~~~(BitVec.ofNat n (2 ^ i)) else m) m

/-- The width and rate of a port that trained: x16 or x8, at 64 GT/s or a lower PCI Express rate (R249). -/
def legalLink (l : PortLink) : PortLink :=
  { lanes := if l.lanes < 16 then 8 else 16, gen := max 1 (min 6 l.gen) }

/-- The links of the ports of a mask. -/
def trainedLinks (o : StartOutcome) (ports : BitVec 2) : Table PortLink :=
  ((upto 2).filter ports.getLsbD).map fun p => (p, legalLink (nth { lanes := 16, gen := 6 } o.portLinks p))

/-- A floor of MXRAMP's fields that main firmware sets from the board's configuration blocks (R49): which one they hold is a free value of
their bytes (log 147); 800 where they set none, and never below 1. -/
def rampFloor (blocks : List Signed) (up : Bool) : BitVec 12 :=
  let set := if blocks = [] then none else Config.rampFloor (blocks.flatMap (·.body)) up
  match set with
  | none => 800
  | some x => if x = 0 then 1 else x

/-- What a start leaves that ran to its end (R251, R252, R259, R260, R264). -/
def Device.started (d : Device) (o : StartOutcome) (clasp main : Nat) : Device :=
  let d' := { d with power := true, failrun := d.nextFailrun, record := recordOf d.plan none, claspSlot := clasp
                     mainSlot := main, claspImage := (slotImage d.claspImages clasp).body
                     mainImage := (slotImage d.mainImages main).body, peers := o.peers }
  if d.minimal then
    { d' with tier2 := false, state := 2, present := 0, fields := 0, ports := o.ports &&& 1, cxl := 0, links := 0
              portLinks := trainedLinks o (o.ports &&& 1)
              zorey := none, conservative := false, spineSlow := false }
  else
    let zoreyOk := !d.failedAt 8 0
    let present := d.mapOut 6 o.quires
    let fields := d.mapOut 7 o.fields
    { d' with
      rampFloorUp := rampFloor d.blocks true, rampFloorDown := rampFloor d.blocks false
      tier2 := d.product == .a4m && o.tier2 && !d.failedAt 4 0, portLinks := trainedLinks o o.ports, conservative := d.failedAt 3 0, spineSlow := d.failedAt 5 0
      present := present, fields := fields, ports := o.ports, cxl := if d.failedAt 9 0 then 0 else o.cxl &&& o.ports
      links := if zoreyOk then o.links else 0
      zorey := if zoreyOk = true ∧ o.links ≠ 0 then o.zorey.filter (· < 288) else none
      state := if d.foundFailed = true ∨ present ≠ 0xFFFF ∨ fields ≠ 0xF then 1 else 0 }

/-- The machine after a start or a loss of power: what lies outside the device stays, and so does flash; everything else is as
after reset. -/
def State.restart (s : State) (d : Device) : State :=
  { State.reset with
    mem := s.mem.filter fun c => 2 ^ 50 ≤ c.1 && c.1 < 2 ^ 52
    poison := s.poison.filter fun p => 2 ^ 50 ≤ p.1 && p.1 < 2 ^ 52
    turned := s.turned
    dev := { d with decoders := [], exported := [] }, cycle := s.cycle, time := s.time, agenda := s.agenda, free := s.free }

/-- A start that stops within a step: the device is not in service (R255, R259). -/
def Device.stoppedAt (d : Device) (e : Nat × Nat) : Device :=
  { d with power := false, failrun := d.nextFailrun, record := recordOf (d.plan.takeWhile (· != e)) (some e)
           claspSlot := d.firstSlot 1 d.claspSlot, mainSlot := if e.1 = 1 then d.mainSlot else d.firstSlot 2 d.mainSlot }

/-- A start (R259, R260). With no image in either slot that verifies, the step fails and nothing runs (R255). -/
def execDeviceStart (outcome : StartOutcome) (s : State) : Out :=
  event s <|
    match s.dev.verify with
    | .error step => some (s.restart (s.dev.stoppedAt (step, 0)))
    | .ok (c, m) => some (s.restart (s.dev.started outcome c m))

/-- An image or the configuration blocks are put into flash (R255); what runs stays. -/
def State.flash (s : State) (main : Bool) (slot : Nat) (image : Signed) : State :=
  let put := fun slots : List Signed => (upto 2).map fun k => if k = slot then image else slotImage slots k
  if main then { s with dev := { s.dev with mainImages := put s.dev.mainImages } }
  else { s with dev := { s.dev with claspImages := put s.dev.claspImages } }
def State.flashBlocks (s : State) (blocks : List Signed) : State := { s with dev := { s.dev with blocks := blocks } }

/-- Whether a start comes to a step: one at which no image verifies is its last. -/
def Device.reaches (d : Device) (step : Nat) : Bool :=
  match d.verify with
  | .error k => step ≤ k
  | .ok _ => true

/-- Power fails (R259): in service, with every entry of the record finished (step 0), or within a step of a start that began
without power, none after the step at which no image verifies (R255). -/
def execPowerFail (step sub : Nat) (s : State) : Out :=
  event s <|
    if step = 0 then
      if s.dev.power then some (s.restart { s.dev with power := false }) else none
    else if s.dev.power = false ∧ s.dev.plan.contains (step, sub) = true ∧ s.dev.reaches step = true then
      some (s.restart (s.dev.stoppedAt (step, sub)))
    else none

/-- Update main firmware, a repair (R258, R262, R263): an image that verifies replaces the running one, another is refused. -/
def execUpdateMainFirmware (image : List Byte) (auth : Seal) (s : State) : Out :=
  event s <|
    s.command 0x0009 fun _ =>
      some (if verifies { body := image, key := auth.key, sig := auth.sig } then
          { s with dev := { s.dev with mainImage := image, generation := s.dev.generation + 1 } }.respond 0
        else s.respond 0x01)

end Sys2Proof.Machine
end

