-- ==== Sys2Proof/Machine/Contexts.lean ====
section
/-! DEFINITION. Clasp firmware's commands on contexts and regions (R14, R20, R43, R53, R82, R211, R213, R256, R258): create, destroy,
pre-emption and switch-in (R234 to R243), the region table, attestation, and in-service repair (R261, R262). -/

namespace Sys2Proof.Machine

/-! Create context (R20, R43). -/

/-- Whether a pool's extent may be given (R43). -/
def State.poolOk (s : State) (p : PoolReq) : Bool :=
  let hi := p.base + 32 * p.slots
  p.slots == 0 ||
  (decide (p.quire < 16 ∧ hi ≤ Config.windowBytes ∧ p.base % 64 = 0 ∧ p.slots ≤ 65536) &&
   ((upto ((hi - 1) / Config.bankBytes - p.base / Config.bankBytes + 1)).all fun i =>
      let off := (p.base / Config.bankBytes + i) * Config.bankBytes
      (winBank off == 1 || winBank off == 2) && (s.core (winCore p.quire off)).role (winBank off) == 1) &&
   !s.inPool p.quire p.base (32 * p.slots))

/-- The quires of pools, each named once. -/
def poolsApart : List PoolReq → Bool
  | [] => true
  | p :: ps => (ps.all fun x => x.quire != p.quire) && poolsApart ps

/-- The context that a request describes. -/
def ctxOf (r : CreateReq) : Ctx :=
  { Ctx.reset with
    live := true, root := r.root, allowed := r.allowed, reserve := r.reserve, stackBase := r.stackBase
    stackStride := r.stackStride, framePool := r.framePool, saveBase := r.saveBase, fifoArea := r.fifoArea
    trapvec := r.trapvec, debug := r.debug, pools := r.pools }

/-- The cores with every tile descriptor of a context free. -/
def State.freeTiles (s : State) (c : Nat) : State :=
  { s with cores := tmap Core.reset (fun x => { x with tiles := x.tiles.filter fun e => e.1 / 32 != c }) s.cores }

/-- BANKROLE of every core and MXRAMP of every quire that a mask allows and that is present, at their reset values (R6): of the cores
and quires, those that the new context may use (DEDUCED, log 142). -/
def State.resetUnits (s : State) (mask : BitVec 16) : State :=
  let mine := fun q => s.present q && mask.getLsbD q
  let s := s.cores.foldl (fun s e => if mine (quireOf e.1) = true then s.resetBanks e.1 else s) s
  s.quires.foldl (fun s e => if mine e.1 = true then s.resetRamp e.1 else s) s

/-- What a new context of a number finds (R6, R57, R118): its fields at their reset values in the threads that an earlier context of
the number left, no configuration in any array, free tile descriptors on every core (log 131), and BANKROLE and MXRAMP at their
reset values where it may run (R6). -/
def State.freshFor (s : State) (c : Nat) (allowed : BitVec 16) : State :=
  (State.freeTiles { s with
    threads := tmap Thread.reset (fun t => if t.work = .free ∧ t.ctx = c then { Thread.reset with cmds := t.cmds } else t) s.threads
    arrays := tmap JArray.reset (fun x => { x with past := terase x.past c }) s.arrays } c).resetUnits allowed

/-- Create context: refused in a minimal start (R260) and for a context that is live; a pool that R43 forbids, a root off its 1 MiB
(R154) or a save base off its 4 KiB (R238) is an invalid argument; an activation FIFO area off its 64 KiB (R102) is taken as it is
(DESIGN CHOICE, log 82). The context is switched in by a later command (log 21). -/
def execCreateContext (req : CreateReq) (s : State) : Out :=
  event s <|
    s.command 0x0001 fun c =>
      if s.dev.state = 2 ∨ (s.ctx c).live = true then some (s.respond 0x01)
      else if (req.pools.all s.poolOk && poolsApart req.pools && req.saveBase.toNat % 4096 == 0 && req.root % 2 ^ 20 == 0) = false then
        some (s.respond 0x02)
      else some (((s.freshFor c req.allowed).setCtx c (ctxOf req)).respond 0)

/-! Destroy context. -/

/-- A heap of a context is unbound as by an abort (R211). -/
def State.unbindHeaps (s : State) (c : Nat) : State :=
  s.launches.foldl (fun s e => match e.2.heap with
    | some h => if e.2.ctx = c ∧ h.bound = true then s.abortHeap e.2 h else s
    | none => s) s

/-- Every record of a context is freed; its identifiers stop being live (R213, R218). -/
def State.freeSeqs (s : State) (c : Nat) : State :=
  { s with seqs := tmap SeqRec.reset (fun r => if r.isOpen = true ∧ r.ctx = c then r.close else r) s.seqs }

/-- A region gives up its configuration and its work. -/
def Region.bare (g : Region) : Region :=
  { Region.reset with first := g.first, width := g.width, owner := g.owner, east := g.east, debug := g.debug }

/-- Regions of a context, as folio, number and region. -/
def State.regionsOf (s : State) (c : Nat) : List (Nat × Nat × Region) :=
  (s.regions.filter fun e => e.2.owner == c && e.2.width != 0).map fun e => (e.1 / 16, e.1 % 16, e.2)

/-- A region of a field is emptied. -/
def State.bareRegion (s : State) (f n : Nat) : State :=
  let g := s.region f n
  (s.clearTiles f g).setRegion f n g.bare

/-- Arrays with a gang of a context, as quire, array and state. -/
def State.arraysOf (s : State) (c : Nat) : List (Nat × Nat × JArray) :=
  (s.arrays.filter fun e => e.2.gang != 0 && e.2.ctx == c).map fun e => (e.1 / 12, e.1 % 12, e.2)

/-- An array without its gang: other contexts find nothing of it there (R118). -/
def JArray.vacate (x : JArray) : JArray :=
  { JArray.reset with ctx := Config.contexts, past := x.past }

/-- Threads that run work of a context. -/
def State.threadsOf (s : State) (c : Nat) : List (Nat × Thread) := s.threads.filter fun e => e.2.work != .free && e.2.ctx == c

/-- A thread leaves the waits of tiles, FIFOs and level barriers, and its monitor is disarmed. -/
def State.unwait (s : State) (n : Nat) : State :=
  let s := { s with monitors := terase s.monitors n }
  match (s.thr n).wait with
  | .fifoLoad _ f _ => s.setFifoAt f { s.fifoAt f with loads := (s.fifoAt f).loads.filter (· != n) }
  | .retry => s.leaveWaits n
  | .level _ =>
    let q := quireOf (coreOf n)
    let bs := (s.quire q).levels.map fun b => { b with threads := b.threads.filter (· != n) }
    s.setQuire q { s.quire q with levels := bs.filter fun b => !b.threads.isEmpty }
  | _ => s

/-- Destroy context: its records are freed, its heaps unbound, and nothing of it runs any more. -/
def State.destroy (s : State) (c : Nat) : State :=
  let s := ((s.unbindHeaps c).freeSeqs c).freeTiles c
  let s := (s.threadsOf c).foldl (fun s e => (s.unwait e.1).setThr e.1 { Thread.reset with cmds := e.2.cmds }) s
  let s := (s.regionsOf c).foldl (fun s e => s.bareRegion e.1 e.2.1) s
  let s := (s.arraysOf c).foldl (fun s e => s.setArray e.1 e.2.1 e.2.2.vacate) s
  let gone := fun n => match s.launch n with
    | some l => l.ctx == c
    | none => false
  let s := s.cores.foldl (fun s e => s.setCore e.1 { s.core e.1 with pushes := (s.core e.1).pushes.filter fun p => p.ctx != c }) s
  let s := (upto 16).foldl (fun s q =>
    let x := s.quire q
    s.setQuire q { x with slices := x.slices.filter (· != c), qflags := terase x.qflags c
                          levels := x.levels.filter fun b => !gone b.launch
                          resv := x.resv.filter fun r => !gone r.launch }) s
  State.refillAll { s with
    ctxs := terase s.ctxs c
    launches := s.launches.filter fun e => e.2.ctx != c
    watches := s.watches.filter fun w => !gone w.launch
    mails := s.mails.filter fun e => e.1 / 3072 != c
    net := s.net.filter fun p => p.ctx != c
    tlbs := s.tlbs.filter fun t => t.ctx != c
    collations := s.collations.filter fun x => x.ctx != c
    enqueues := s.enqueues.filter fun x => x.ctx != c
    callbacks := s.callbacks.filter fun x => x.1 != c
    returns := s.returns.filter fun x => x.1 != c
    freeAtStart := s.freeAtStart.filter fun x => x.1 != c
    arrivals := s.arrivals.filter fun e => e.1 / 4096 != c
    saved := terase s.saved c
    threads := tmap Thread.reset (fun t => { t with cmds := t.cmds.map fun x => { x with orphan := x.orphan || x.ctx == c } })
      s.threads }

def execDestroyContext (s : State) : Out :=
  event s <|
    s.command 0x0002 fun c => some (if (s.ctx c).live then (s.destroy c).respond 0 else s.respond 0x02)

/-! Pre-emption (R127, R234 to R236). -/

/-- Whether every part of a context has stopped: threads at a user-mode boundary or halted, arrays without an operation that has
all its contributions and is not complete, regions at an invocation boundary or frozen. -/
def State.stopped (s : State) (c : Nat) : Bool :=
  ((s.threadsOf c).all fun e => e.2.halted || e.2.mode == .user) &&
  ((s.arraysOf c).all fun e => !e.2.2.isReady && e.2.2.draining.isNone) &&
  ((s.regionsOf c).all fun e => e.2.2.frozen || (e.2.2.phase == .idle && e.2.2.crossing.isNone))

/-- Groups that a context's launches have in reservation, by quire. -/
def State.resvsOf (s : State) (c : Nat) : Table Resv :=
  s.quires.filterMap fun e => match e.2.resv with
    | none => none
    | some r => match s.launch r.launch with
      | some l => if l.ctx = c then some (e.1, r) else none
      | none => none

/-- Bits of a mask for a list of numbers. -/
def maskOf (ns : List Nat) : Nat := ns.foldl (fun m n => m ||| 2 ^ n) 0

/-- The header of the area (R238), its four words; the rest of its 4 KiB is zero. -/
def State.saveHeader (s : State) (c : Nat) (x : Saved) : State :=
  s.saveAt c 0
    ([BitVec.ofNat 64 (1 + (if (s.ctx c).debug then 2 else 0) + c * 4),
      BitVec.ofNat 64 (maskOf (x.threads.map fun e => quireOf (coreOf e.1))),
      BitVec.ofNat 64 (maskOf (x.regions.map (·.1))),
      BitVec.ofNat 64 (maskOf (x.packets.map fun e => quireOf e.1))] ++ List.replicate 508 0)

/-- What the device keeps of a context that has stopped. -/
def State.snapshot (s : State) (c : Nat) : Saved :=
  let rs := s.regionsOf c
  { threads := (s.threadsOf c).map fun e => (e.1, e.2.atSave)
    arrays := (s.arraysOf c).map fun e => (12 * e.1 + e.2.1, e.2.2)
    regions := rs.map fun e => (16 * e.1 + e.2.1, e.2.2)
    tiles := s.ftiles.filter fun e => rs.any fun r =>
      e.1 / 1440 == r.1 && decide (r.2.2.first ≤ e.1 % 1440 / 36 ∧ e.1 % 1440 / 36 < r.2.2.first + r.2.2.width)
    resvs := s.resvsOf c
    packets := [] }

/-- A region is frozen by a pre-emption (R236). -/
def State.preempt (s : State) (f n : Nat) : State :=
  let s := s.freeze f n
  s.setRegion f n { s.region f n with preempted := true }

/-- What a pre-emption settles before it saves a context: regions in debug mode are frozen, at a boundary too (R246), and every
store of the context's threads is performed, those of ended tasks among them (R234). A push that a full FIFO holds stays with
its core (log 132). An array takes in what it has pinned of a line that such a store writes, for the store cannot wait for an operation
that the pre-emption stops (DESIGN CHOICE, log 171). -/
def State.settleCtx (s : State) (c : Nat) : State :=
  let s := (s.regionsOf c).foldl (fun s e => if e.2.2.debug = true ∧ e.2.2.frozen = false then s.preempt e.1 e.2.1 else s) s
  let m := s.mem
  let s := s.deliverCtx c
  (s.arraysOf c).foldl (fun s e =>
    s.setArray e.1 e.2.1 { e.2.2 with pins := e.2.2.pins.map fun p => if p.differs m s.mem then { p with taken := true } else p }) s

/-- A context that has stopped is saved and leaves the device (R234, R235): its stores are performed, its pending commands
accepted, and its parts written to the save area. Its threads are free. -/
def State.leave (s : State) (c : Nat) : State :=
  let s := s.settleCtx c
  let x := s.snapshot c
  let s := x.threads.foldl (fun s e => s.saveThread c e.1 e.2) s
  let s := x.arrays.foldl (fun s e => s.saveArray c (e.1 / 12) (e.1 % 12) e.2) s
  let s := x.regions.foldl (fun s e => s.saveRegion (e.1 / 16) (e.1 % 16) e.2) s
  let s := s.saveHeader c x
  let s := x.threads.foldl (fun s e =>
    (s.unwait e.1).setThr e.1
      { Thread.reset with cmds := (s.thr e.1).cmds.map fun k => if k.ctx = c ∧ k.st = .pending then { k with st := .accepted } else k }) s
  let s := x.arrays.foldl (fun s e => s.setArray (e.1 / 12) (e.1 % 12) e.2.vacate) s
  let s := x.regions.foldl (fun s e => s.bareRegion (e.1 / 16) (e.1 % 16)) s
  let s := x.resvs.foldl (fun s e => s.setQuire e.1 { s.quire e.1 with resv := none }) s
  { s.setCtx c { s.ctx c with inn := false, leaving := false } with saved := tput s.saved c x }

/-- A switch-out: groups in reservation take the threads that are free (R37). -/
def State.switchOut (s : State) (c : Nat) : State := (s.leave c).refillAll

/-- A context that does not leave: regions that the pre-emption froze go on. -/
def State.staysIn (s : State) (c : Nat) : State :=
  let s := (s.regionsOf c).foldl (fun s e =>
    if e.2.2.preempted then s.setRegion e.1 e.2.1 { e.2.2 with frozen := false, preempted := false } else s) s
  s.setCtx c { s.ctx c with leaving := false }

/-- Switch out: the pre-emption begins, and ends once every part has stopped. -/
def execSwitchOut (s : State) : Out :=
  event s <|
    s.command 0x0003 fun c =>
      let x := s.ctx c
      if x.live = false ∨ x.inn = false then some (s.respond 0x02)
      else if s.stopped c then some ((s.switchOut c).respond 0)
      else if x.leaving then none
      else some (s.setCtx c { x with leaving := true })

/-- A thread still in supervisor mode at the bound makes the pre-emption fail (R234). -/
def execSupervisorBoundExpiry (ctx : Nat) (s : State) : Out :=
  event s <|
    if (s.ctx ctx).leaving = true ∧ ((s.threadsOf ctx).any fun e => e.2.mode == .supervisor && !e.2.halted) = true then
      let s := s.staysIn ctx
      some (if s.mailbox.busy = true ∧ bits (s.mailRequest 0) 15 0 = 0x0003 then s.respond 0x03 else s)
    else none

/-- A region not at a boundary by the pre-emption bound is frozen in place (R236). -/
def execPreemptionBoundExpiry (folio region : Nat) (s : State) : Out :=
  event s <|
    let g := s.region folio region
    if g.width ≠ 0 ∧ (s.ctx g.owner).leaving = true ∧ g.phase ≠ .idle ∧ g.frozen = false then
      some (s.preempt folio region)
    else none

/-! Switch-in (R53, R237). -/

/-- The packets of a slice that is reclaimed go to the queue section of the owner's area, every core's section being written, and the
slice is cleared (R53, R238). -/
def State.reclaim (s : State) (q victim : Nat) : State :=
  let ks := (upto 192).map (192 * q + ·)
  let s := ks.foldl (fun s k =>
    let m := s.mail victim k
    if m.queue = [] then s.saveQueue victim k []
    else
      let x := (s.saved.find? fun e => e.1 == victim).elim
        { threads := [], arrays := [], regions := [], tiles := [], resvs := [], packets := [] } (·.2)
      let s := s.saveQueue victim k (m.queue.take 64)
      let s := s.setMail victim k { m with queue := m.queue.drop 64 }
      { s with saved := tput s.saved victim { x with packets := tput x.packets k (m.queue.take 64) } }) s
  let s := s.meetSaved victim 0 1
  let mask := (s.savedWord victim 0x18).getD 0
  let some_ := (s.saved.find? fun e => e.1 == victim).elim false fun e => e.2.packets.any fun p => quireOf p.1 == q
  let s := if some_ then s.saveAt victim 0x18 [mask ||| BitVec.ofNat 64 (2 ^ q)] else s
  s.setQuire q { s.quire q with slices := (s.quire q).slices.filter (· != victim) }

/-- A context gets a slice on a quire: it holds one, one is free, or the one named is reclaimed (R53). -/
def State.giveSlice (s : State) (c q : Nat) (victims : List (Nat × Nat)) : Option State :=
  let x := s.quire q
  if x.slices.contains c then some s
  else if x.slices.length < 32 then some (s.setQuire q { x with slices := x.slices ++ [c] })
  else
    match victims.find? fun v => v.1 == q with
    | none => none
    | some (_, v) =>
      if x.slices.contains v = true ∧ (s.ctx v).inn = false then
        let s := s.reclaim q v
        some (s.setQuire q { s.quire q with slices := (s.quire q).slices ++ [c] })
      else none

def State.giveSlices (s : State) (c : Nat) (victims : List (Nat × Nat)) : List Nat → Option State
  | [] => some s
  | q :: qs =>
    match s.giveSlice c q victims with
    | none => none
    | some s => s.giveSlices c victims qs

/-- Packets that were copied come back ahead of anything else (R53). -/
def State.returnPackets (s : State) (c : Nat) (x : Saved) : State :=
  x.packets.foldl (fun s e =>
    let s := s.meetSaved c (queueOff e.1) ((e.2.length + 1) / 2)
    let m := s.mail c e.1
    s.setMail c e.1 { m with queue := s.loadQueue c e.1 e.2 ++ m.queue }) s

/-- The place that a saved region goes to: its own, or the one the request names for it. -/
def newPlace (moves : List (Nat × Nat)) (r : Nat) : Nat := ((moves.find? fun m => m.1 == r).map (·.2)).getD r

/-- Whether an image has a joint-array drain receiver. -/
def Plane.receives (p : Plane) : Bool := p.recs.any fun t => t.kind == 3 && t.drains

/-- Whether a saved region may be restored at a place (R237). -/
def State.fits (s : State) (c r r' : Nat) (g : Region) : Bool :=
  let d := s.region (r' / 16) (r' % 16)
  decide (r' < 64) && d.owner == c && d.width == g.width && d.first % 5 == g.first % 5 && d.phase == .idle && d.active.isNone &&
  (match g.active with
   | some p => !p.receives || (d.first == g.first && r / 16 == r' / 16)
   | none => true)

/-- Whether the parts that a saved context had are there for it: its threads free, its arrays without a gang. -/
def State.partsFree (s : State) (x : Saved) : Bool :=
  (x.threads.all fun e => (s.thr e.1).work == .free && !s.inResv e.1 && s.present (quireOf (coreOf e.1))) &&
  (x.arrays.all fun e => (s.array (e.1 / 12) (e.1 % 12)).gang == 0) &&
  (x.resvs.all fun e => (s.quire e.1).resv.isNone)

/-- A region is restored at a place: both planes are loaded again from the descriptors of the saved header, the scanned state is
written back (R237, R243). -/
def State.restoreRegion (s : State) (c r r' : Nat) (g : Region) (tiles : Table FTile) : State :=
  let d := s.region (r' / 16) (r' % 16)
  let f := r' / 16
  let head := regionOff (r / 16) (r % 16)
  let s := s.meetSaved c head 1
  let saved := fun k => s.savedWord c (head + 8 * k)
  let pend := if bit ((saved 0).getD 0) 2 then some ((saved 2).getD 0) else none
  let there := { g with first := d.first }
  let base : Region := s.readBack c head Region.putHead (upto 8) g
  let frozen := base.frozen
  let (active, s) := s.reloadActive f there (saved 1)
  let (shadow, s) := s.reloadShadow f there pend
  let base : Region :=
    { base with first := d.first, owner := c, east := d.east, debug := d.debug, frozen := frozen && !base.preempted, preempted := false
                active := active, shadow := shadow }
  let old := fun p : Nat × Nat => tget FTile.reset tiles (1440 * (r / 16) + 36 * p.1 + p.2)
  let s' := g.places.foldl (fun st p =>
    let st := if frozen then st.meetTile c (r / 16) p.1 p.2 (g.recAt p.1 p.2) else st
    let t := if frozen then st.loadTile c (r / 16) p.1 p.2 (g.recAt p.1 p.2) (old p) else old p
    st.setFtile f (p.1 - g.first + d.first) p.2 t) s
  s'.setRegion f (r' % 16) base

/-- A thread restored to its place; its core's L1 is cleared before its first load (R160). -/
def State.restoreThread (s : State) (c n : Nat) (t : Thread) : State :=
  let s := s.meetSaved c (threadOff n) 42
  let s := if (s.ctx c).debug then s.meetSaved c (debugOff n) 1 else s
  (s.clearL1 (coreOf n)).setThr n { s.loadThread c n t with cmds := (s.thr n).cmds }

/-- A saved context comes back (R237): the threads of a group in reservation are those of them that are free. -/
def State.restore (s : State) (c : Nat) (x : Saved) (moves : List (Nat × Nat)) : State :=
  let s := x.threads.foldl (fun s e => s.restoreThread c e.1 e.2) s
  let s := x.arrays.foldl (fun s e =>
    s.setArray (e.1 / 12) (e.1 % 12) { e.2 with past := (s.array (e.1 / 12) (e.1 % 12)).past }) s
  let s := x.regions.foldl (fun s e => s.restoreRegion c e.1 (newPlace moves e.1) e.2 x.tiles) s
  let s := x.resvs.foldl (fun s e =>
    s.setQuire e.1 { s.quire e.1 with resv := some { e.2 with threads := e.2.threads.filter fun n => (s.thr n).work == .free } }) s
  (s.returnPackets c x)

/-- The quires a context may be switched in on. -/
def State.quiresOf (s : State) (c : Nat) : List Nat := (upto 16).filter fun q => s.present q && (s.ctx c).allowed.getLsbD q

/-- A live context that is out comes back: RESULT, and the state where it is 0. One that was never switched out has nothing to
restore (log 21). -/
def State.comeBack (s : State) (c : Nat) (victims moves : List (Nat × Nat)) : Nat × State :=
  match s.giveSlices c victims (s.quiresOf c) with
  | none => (0x03, s)
  | some s' =>
    let inn := fun s : State => { s.setCtx c { s.ctx c with inn := true, leaving := false } with saved := terase s.saved c }
    match (s.saved.find? fun e => e.1 == c).map (·.2) with
    | none => (0, inn s')
    | some x =>
      let s := s.meetSaved c 0 1
      let s' := s'.meetSaved c 0 1
      if (bit ((s.savedWord c 0).getD 0) 0) = false then (0x01, s)
      else if s.partsFree x = false then (0x03, s)
      else if (x.regions.all fun e => s.fits c e.1 (newPlace moves e.1) e.2) = false then (0x02, s)
      else (0, inn (s'.restore c x moves))

/-- A switch-in: groups in reservation take the threads that are free (R37). -/
def State.switchIn (s : State) (c : Nat) (victims moves : List (Nat × Nat)) : Nat × State :=
  let r := s.comeBack c victims moves
  if r.1 = 0 then (0, r.2.refillAll) else r

def execSwitchIn (slices moves : List (Nat × Nat)) (s : State) : Out :=
  event s <|
    s.command 0x0004 fun c =>
      if (s.ctx c).live = false ∨ (s.ctx c).inn = true then some (s.respond 0x02)
      else
        let r := s.switchIn c slices moves
        some (r.2.respond r.1)

/-! The region table (R82). -/

/-- Whether the entries of a field's table are legal: bands of 2 to 40 columns in increasing order, at most 16, gutters open only
between neighbours of one context. -/
def entriesOk : Nat → List RegionEntry → Bool
  | _, [] => true
  | lo, e :: es =>
    decide (lo ≤ e.first ∧ 2 ≤ e.width ∧ e.first + e.width ≤ 40) &&
    (!e.east || match es with
      | n :: _ => n.first == e.first + e.width && n.owner == e.owner
      | [] => false) &&
    entriesOk (e.first + e.width) es

/-- The region of a table entry: its configuration stays with its band and its owner. -/
def State.entryRegion (s : State) (f n : Nat) (e : RegionEntry) : Region :=
  let g := s.region f n
  if g.first = e.first ∧ g.width = e.width ∧ g.owner = e.owner then { g with east := e.east, debug := e.debug }
  else { Region.reset with first := e.first, width := e.width, owner := e.owner, east := e.east, debug := e.debug }

/-- The region number n of a requested table. -/
def State.wanted (s : State) (f : Nat) (es : List RegionEntry) (n : Nat) : Region :=
  match es[n]? with
  | some e => s.entryRegion f n e
  | none => Region.reset

/-- Whether a request changes a region: its own entry, or the gutter to its west. -/
def State.affects (s : State) (f : Nat) (es : List RegionEntry) (n : Nat) : Bool :=
  s.wanted f es n != s.region f n || (n != 0 && (s.wanted f es (n - 1)).east != (s.region f (n - 1)).east)

/-- A region runs while it has an invocation, a crossing or pending stream work. -/
def Region.runs (g : Region) : Bool := g.phase != .idle || g.crossing.isSome || !g.streams.isEmpty

/-- Region n of a field as a request has it: a load in progress of a region that goes is aborted, its tiles are emptied. -/
def State.putRegion (s : State) (f : Nat) (es : List RegionEntry) (n : Nat) : State :=
  let g := s.region f n
  let w := s.wanted f es n
  if w = g then s
  else if w.first = g.first ∧ w.width = g.width ∧ w.owner = g.owner then s.setRegion f n w
  else ((s.abortLoad f n).clearTiles f g).setRegion f n w

def execSetRegionTable (req : RegionReq) (s : State) : Out :=
  event s <|
    s.command 0x0005 fun _ =>
      let f := req.folio
      let es := req.entries
      if 4 ≤ f ∨ s.dev.fields.getLsbD f = false ∨ 16 < es.length ∨ entriesOk 0 es = false ∨
          (es.all fun e => e.owner < 64 && (s.ctx e.owner).live) = false then some (s.respond 0x02)
      else if (upto 16).any fun n => s.affects f es n && (s.region f n).runs then some (s.respond 0x01)
      else some (((upto 16).foldl (fun s n => s.putRegion f es n) s).respond 0)

/-! Attestation (R256). -/

/-- The tables of R14 and R252 as bytes, each number in 8 bytes (log 11). -/
def Device.tableBytes (d : Device) : List Byte :=
  (d.coreTable ++ d.colTable).flatMap (fun e => leBytes 8 e.1 ++ leBytes 8 e.2) ++
  d.peers.flatMap fun e => leBytes 8 e.1 ++ leBytes 8 e.2.1 ++ leBytes 8 e.2.2

/-- The 32 bytes of a digest. -/
def digest (bs : List Byte) : List Byte := leBytes 32 (Config.sm3 bs).toNat

/-- A report for a nonce. -/
def Device.report (d : Device) (nonce : List Byte) : List Byte :=
  let body := nonce ++ digest d.claspImage ++ digest d.mainImage ++ digest (d.blocks.flatMap (·.body)) ++ digest d.tableBytes ++
    leBytes 8 (d.zorey.getD 0x1FF + d.present.toNat * 2 ^ 16) ++ List.replicate 24 0
  body ++ leBytes 64 (Config.sm2Sign body).toNat

/-- Attest: the report fills the response buffer, and the device certificate is returned beside it (log 92). -/
def execAttest (s : State) : Out :=
  event s <|
    s.command 0x0006 fun _ =>
      let s := s.respondWith (s.dev.report ((upto 4).flatMap fun k => leBytes 8 (s.mailRequest (k + 1)).toNat))
      some { s with mailbox := { s.mailbox with cert := Config.certificate } }

/-! Repair (R261, R262). -/

/-- Contexts with state in a quire. -/
def State.contextsOn (s : State) (q : Nat) : List Nat := (s.quire q).slices.filter fun c => (s.ctx c).inn

/-- Failing cores take spares, those from number i on: the logical numbers stay (R14, R261). -/
def remapCores (t : Table Nat) (q : Nat) : List Nat → Nat → Table Nat
  | [], _ => t
  | k :: ks, i => remapCores (tput t (192 * q + k) (192 + i)) q ks (i + 1)

/-- A quire's part of the core table after a repair: a quire that its 8 spares, less those an earlier repair took, do not mend is
mapped out (R12, R261). -/
def Device.repaired (d : Device) (q : Nat) (failing : List Nat) : Device :=
  let used := tget 0 d.spares q
  if 8 < used + failing.length then { d with present := d.present &&& ~~~(BitVec.ofNat 16 (2 ^ q)), state := 1 }
  else { d with coreTable := remapCores d.coreTable q failing used, spares := tset 0 d.spares q (used + failing.length) }

/-- The key of the first SRAM byte of a quire. -/
def sramKey (q : Nat) : Nat := 2 ^ 52 + q * Config.windowBytes

/-- A quire's SRAM is copied to a buffer in Tier-1, byte W of the window to its byte W; what else the buffer holds has no form in the
spec (R261; DESIGN CHOICE, log 133). -/
def State.copySram (s : State) (q buffer : Nat) : State :=
  let inBuffer := fun k => decide (buffer ≤ k ∧ k < buffer + Config.windowBytes)
  let s := (s.grains.filter fun e => decide (512 * e.1 < buffer + Config.windowBytes ∧ buffer < 512 * e.1 + 512)).foldl
    (fun s e => s.recallLine e.1) s
  let cells := (s.mem.filter fun c => decide (sramKey q ≤ c.1 ∧ c.1 < sramKey q + Config.windowBytes)).map fun c =>
    (c.1 - sramKey q + buffer, c.2)
  { s with mem := setCells (s.mem.filter fun c => !inBuffer c.1) cells
           poison := s.poison.filter fun p => !(inBuffer p.1 && inBuffer (p.1 + p.2 - 1)) }

/-- The SRAM of a quire is restored from the buffer, to the same logical cores. -/
def State.restoreSram (s : State) (q buffer : Nat) : State :=
  let cells := (s.mem.filter fun c => decide (buffer ≤ c.1 ∧ c.1 < buffer + Config.windowBytes)).map fun c =>
    (c.1 - buffer + sramKey q, c.2)
  { s with mem := setCells (s.mem.filter fun c => !decide (sramKey q ≤ c.1 ∧ c.1 < sramKey q + Config.windowBytes)) cells }

/-- The repair of a quire whose contexts are out: its SRAM is copied to the buffer, failing cores take spares, and the SRAM is restored
where the quire stays. -/
def State.repairQuire (s : State) (q : Nat) (failing : List Nat) (buffer : Nat) : State :=
  let s := s.copySram q buffer
  let d := s.dev.repaired q failing
  let s := { s.setQuire q { s.quire q with stopped := false } with dev := { d with generation := d.generation + 1 } }
  if s.present q then s.restoreSram q buffer else s

/-- Contexts come back one after the other: the first RESULT that is not 0, and the state. -/
def State.comeBackAll (s : State) : List Nat → Nat × State
  | [] => (0, s)
  | c :: cs =>
    let x := s.comeBack c [] []
    let r := x.2.comeBackAll cs
    (if x.1 = 0 then r.1 else x.1, r.2)

/-- A quire is repaired (R261): dispatch to it stops, its contexts are switched out once every one has stopped, and come back before any
group in reservation takes a thread. Where one cannot, as its quire is mapped out, it stays out and the RESULT is that of its switch-in
(DESIGN CHOICE, log 172). -/
def State.repairStep (s : State) (q : Nat) (failing : List Nat) (buffer : Nat) : Option State :=
  let cs := s.contextsOn q
  if cs.all s.stopped then
    let r := ((cs.foldl State.leave s).repairQuire q failing buffer).comeBackAll cs
    some (r.2.refillAll.respond r.1)
  else if (s.quire q).stopped = true ∧ (cs.all fun c => (s.ctx c).leaving) = true then none
  else
    let s := s.setQuire q { s.quire q with stopped := true }
    some (cs.foldl (fun s c => s.setCtx c { s.ctx c with leaving := true }) s)

/-- Whether a field's one spare column replaces a logical column (R12, R262). -/
def Device.spareUsed (d : Device) (f : Nat) : Bool := d.colTable.any fun e => e.1 / 40 == f

def execRepair (req : RepairReq) (s : State) : Out :=
  event s <|
    s.command 0x0008 fun _ =>
      match req with
      | .quire q failing buffer =>
        if s.present q = false ∨ 2 ^ 39 < buffer + Config.windowBytes ∨ failing.any (192 ≤ ·) = true then some (s.respond 0x02)
        else if (s.eng q).launch.isSome then some (s.respond 0x03)
        else s.repairStep q failing.eraseDups buffer
      | .column f logical =>
        if 4 ≤ f ∨ 40 ≤ logical then some (s.respond 0x02)
        else if (s.regionAt f logical).isSome = true ∨ s.dev.spareUsed f = true then some (s.respond 0x01)
        else
          some ({ s with dev := { s.dev with colTable := tput s.dev.colTable (40 * f + logical) 40
                                             generation := s.dev.generation + 1 } }.respond 0)

end Sys2Proof.Machine
end

