-- ==== Sys2Proof/Machine/Control.lean ====
section
/-! DEFINITION. Branches, jumps, calls and returns (R94, R103, R283, R337 to R340, R369, R389), the SYS functions (R412) and
translation invalidation (R159, R433). -/

namespace Sys2Proof.Machine

/-- A branch: to the target when taken, else to the next instruction (R283). -/
def State.branch (s : State) (taken : Bool) (target : Word) : State := if taken then s.jump target else s.retire 1

/-- A compare and branch on two registers. -/
def branchOn (c : Word → Word → Bool) (a b : SReg) (i : BitVec 13) (s : State) : Out :=
  finish s (.ok (s.branch (c (s.rs a) (s.rs b)) (target13 s.th.pc i)))

def execBEq (a b : SReg) (i : BitVec 13) (s : State) : Out := branchOn (fun x y => x == y) a b i s
def execBNe (a b : SReg) (i : BitVec 13) (s : State) : Out := branchOn (fun x y => x != y) a b i s
def execBLt (a b : SReg) (i : BitVec 13) (s : State) : Out := branchOn (fun x y => x.slt y) a b i s
def execBGe (a b : SReg) (i : BitVec 13) (s : State) : Out := branchOn (fun x y => !x.slt y) a b i s
def execBLtn (a b : SReg) (i : BitVec 13) (s : State) : Out := branchOn (fun x y => x.ult y) a b i s
def execBGen (a b : SReg) (i : BitVec 13) (s : State) : Out := branchOn (fun x y => !x.ult y) a b i s

/-- When BP branches (R338). -/
def bpTaken (m : BpMode) (x : Word) : Bool :=
  match m with
  | .any => x != 0
  | .all => x == BitVec.allOnes 64
  | .none => x == 0
  | .notall => x != BitVec.allOnes 64

def execBp (p : PReg) (m : BpMode) (i : BitVec 19) (s : State) : Out :=
  finish s (.ok (s.branch (bpTaken m (s.rp p)) (target19 s.th.pc i)))

def execJ (i : BitVec 19) (s : State) : Out := finish s (.ok (s.jump (target19 s.th.pc i)))

/-- CALL writes the link, then jumps (R339). -/
def execCall (d : SReg) (i : BitVec 19) (s : State) : Out :=
  finish s (.ok ((s.ws d (s.th.pc + 4) 0).jump (target19 s.th.pc i)))

/-! Calls through a tagged pointer (R103). -/

/-- The scalar arguments of a crossing call: a0 to a7 up to the count, zero beyond it. -/
def State.callArgs (s : State) (argc : Nat) : List Word :=
  (upto 8).map fun i => if i < argc then s.rs (Fin.ofNat 64 (8 + i)) else 0

/-- The vector arguments of a frame, where the call carries them. -/
def State.callVectors (s : State) (vec : Bool) : List Word :=
  if vec then (upto 64).map fun i => BitVec.ofNat 64 ((s.rv (Fin.ofNat 32 (i / 8))).toNat / 2 ^ (64 * (i % 8))) else []

/-- The FIFO of the descriptor that the issuing thread calls through: a plain read of 64 bytes, with the fate that any read has at
its site (R55, R153, R247). The state is what the read met. -/
def State.calleeFifo (s : State) (t : Word) : Except Stop (Nat × State) := do
  let (site, s) ← s.translate .load t
  if site.kind = 5 then
    let w ← s.mmioLoad t (site.off + 0x10)
    .ok (bits w 11 0, s)
  else
    match site.kind, s.bankAt s.myQuire site.off 64 with
    | 6, .refused => trapV 0x05 t
    | 6, .fifo => trapV 0x03 t
    | 6, .busy => block
    | _, _ => .ok ()
    s.siteReadable t site 64
    .ok (bits (wordAt (s.meets site).mem (site.key + 0x10)) 11 0, s.meets site)

/-- The thread suspends until the return: the link is written and the pc is past the CALLR. -/
def State.suspendCall (s : State) (d : SReg) (f : Word) : State :=
  let pc := s.th.pc
  let s := s.ws d (pc + 4) 0
  s.setTh { s.th.endSkip with pc := pc + 4, wait := .crossing f.toNat }

/-- The continuation of a suspended thread (R98): tag 00 and bits [55:0] of the address after its CALLR, which are all that a return
needs; of the upper half of the address space R103's pc + 4 would show another tag (DEDUCED, log 170). -/
def threadCont (pc : Word) : Word := ((pc + 4).setWidth 56).setWidth 64

/-- CALLR through a tag-01 pointer (R103): every trap is precise, with no frame taken. -/
def State.crossCall (s : State) (d : SReg) (p : Word) (argc : Nat) (vec : Bool) : Act? := do
  let t := targetOf p
  need (t.toNat % 64 == 0) 0x03 p
  let s ← s.release .device
  let (fifo, s) ← s.calleeFifo t
  need (fifo != 0) 0x01 p
  match s.popFrame s.th.ctx vec with
  | (.error v, s) => .error (.trapIn s 0x13 (BitVec.ofNat 64 v))
  | (.ok f, s) =>
    let status : Word := BitVec.ofNat 64 ((if vec then 2 ^ 20 else 0) + argc * 2 ^ 16)
    let c := s.th.ctx
    let s := s.writeFrame c f p (threadCont s.th.pc) (s.rs 6) status (s.callArgs argc)
    let s := s.setFrameWords c (f + 0x80) (s.callVectors vec)
    let s := s.suspendCall d f
    .ok (s.enqueueActivation
      { ctx := c, fifo := fifo, frame := f.toNat, resume := 0, cont := false, a0 := 0, a1 := 0 })

/-- CALLR (R103). -/
def State.callr (s : State) (d a : SReg) (argc : Nat) (vec : Bool) : Act? :=
  let p := s.rs a
  if 2 ≤ tagOf p then trapV 0x01 p
  else if tagOf p = 0 then do
    need ((targetOf p).toNat % 4 == 0) 0x03 p
    .ok ((s.ws d (s.th.pc + 4) 0).jump (targetOf p))
  else s.crossCall d p argc vec

def execCallr (d a : SReg) (argc : Fin 16) (s : State) : Out := finish s (s.callr d a argc.val false)
def execCallrV (d a : SReg) (argc : Fin 16) (s : State) : Out := finish s (s.callr d a argc.val true)

/-- The end of a callback task by a return through its link (R107): a release at device scope, results into the frame, the
thread free, the return left to the crossing unit. A member of a gang that would end so raises illegal instruction, as R127 has it for
HALT and TEND, though it does not name the return (DESIGN CHOICE, log 163). -/
def State.endCallback (s : State) (f : Nat) : Act? := do
  need (!s.gangMember s.cur) 0x01 0
  let s ← s.release .device
  let c := s.th.ctx
  let s' := s.setFrameWord c (frameVa f + 0x28) (s.rs 8)
  let s' := s'.setFrameWord c (frameVa f + 0x30) (s.rs 9)
  .ok { s'.freeThread s.cur with returns := s'.returns ++ [(c, f)] }

/-- JR and RET (R94, R369, R389). -/
def State.jumpReg (s : State) (a : SReg) : Act? :=
  let v := s.rs a
  if tagOf v = 2 then
    match s.th.work with
    | .callback f => if (targetOf v).toNat = f then s.endCallback f else illegal
    | _ => illegal
  else do
    need ((targetOf v).toNat % 4 == 0) 0x03 (targetOf v)
    .ok (s.jump (targetOf v))

def execJr (a : SReg) (s : State) : Out := finish s (s.jumpReg a)
def execRet (a : SReg) (s : State) : Out := finish s (s.jumpReg a)

/-! SYS (R412). -/

/-- TRAP raises system call after completion. -/
def execTrap (n : BitVec 6) (s : State) : Out := finish s (.ok (s.retireTrap 0x14 (n.setWidth 64)))

/-- BRK raises breakpoint at itself. -/
def execBrk (s : State) : Out := finish s (trapV 0x0C 4)

/-- ERET (R228). -/
def execEret (s : State) : Out :=
  finish s (if s.th.mode = .user then trapV 0x02 0 else .ok (s.setTh s.th.eret))

/-- ISYNC discards the thread's fetched words (R193). -/
def execIsync (s : State) : Out := finish s (.ok ((s.setTh { s.th with ibuf := [] }).retire 1))

/-- YIELD: the issue picker passes over the thread at its next turn. -/
def execYield (s : State) : Out := finish s (.ok ((s.setTh { s.th with yielded := true }).retire 1))

/-! XL (R159, R433). A translation leaves every cache of the package at the XL.INV. -/

/-- The waits of a context's launches that no store has satisfied yet are watched anew, at the words that their addresses name now: no
read goes on through a removed translation (R30, R159). -/
def State.rewatch (s : State) (c : Nat) : State :=
  let old := s.watches.filter fun w => !w.hit && (s.launch w.launch).any fun l => l.ctx == c
  old.foldl (fun s w => match s.launch w.launch with
    | some l => s.watch w.launch l w.k
    | none => s) { s with watches := s.watches.filter fun w => !old.contains w }

/-- XL instructions need supervisor mode. -/
def State.supervisorOnly (s : State) : Except Stop Unit := need (s.th.mode == .supervisor) 0x02 0

def execXlInvVa (a : SReg) (s : State) : Out :=
  finish s <| do
    s.supervisorOnly
    let va := s.rs a
    if canonical va = false then .ok (s.retire 1)
    else
      let v := va.toNat % 2 ^ 56
      let c := s.th.ctx
      let s := { s with tlbs := s.tlbs.filter fun t => !(t.ctx == c && t.page == v / 2 ^ t.bits) }
      let s := s.rewatch c
      .ok ((s.setTh { s.th with removed := some va :: s.th.removed }).retire 1)

def execXlInvCtx (s : State) : Out :=
  finish s <| do
    s.supervisorOnly
    let c := s.th.ctx
    let s := { s with tlbs := s.tlbs.filter fun t => !(t.ctx == c && !pteG t.pte) }
    let s := s.rewatch c
    .ok ((s.setTh { s.th with removed := none :: s.th.removed }).retire 1)

/-- Whether a translation is among the removed ones: its page holds the address that an XL.INV.VA named, or it is not global
(R159). -/
def covers (r : Option Word) (via : Via) : Bool :=
  match r with
  | none => !via.glob
  | some va => via.va.toNat % 2 ^ 56 / 2 ^ via.bits == va.toNat % 2 ^ 56 / 2 ^ via.bits
def anyCovers (rs : List (Option Word)) (via : Via) : Bool := rs.any fun r => covers r via

/-- Whether a storer of a region of a context holds an access through a removed translation (R159). -/
def State.heldThrough (s : State) (c : Nat) (rs : List (Option Word)) : Bool :=
  s.regions.any fun e => e.2.owner == c && s.ftiles.any fun t =>
    t.1 / 1440 == e.1 / 16 && e.2.first ≤ t.1 % 1440 / 36 && t.1 % 1440 / 36 < e.2.first + e.2.width &&
    t.2.held.any fun h => (h.via :: h.more).any (anyCovers rs)

/-- Whether a load waits on a FIFO, or a push is held by one, through a removed translation (R56, R159). -/
def State.fifoThrough (s : State) (c : Nat) (rs : List (Option Word)) : Bool :=
  (s.threads.any fun e => e.2.ctx == c && match e.2.wait with
    | .fifoLoad _ _ via => anyCovers rs via
    | _ => false) ||
  s.cores.any fun e => e.2.pushes.any fun p => p.ctx == c && anyCovers rs p.via

/-- Performs every buffered store of a context through a removed translation, with its core's stores before it. -/
def State.performThrough (s : State) (c : Nat) (rs : List (Option Word)) : State :=
  s.cores.foldl (fun s e =>
    let lines := ((s.core e.1).wbuf.filter fun p => p.ctx == c && anyCovers rs p.via).map Pending.line
    if lines = [] then s else s.deliverWhere e.1 fun l => lines.contains l) s

/-- XL.SYNC completes once every access through a removed translation has been performed (R159). -/
def execXlSync (s : State) : Out :=
  finish s <| do
    s.supervisorOnly
    let c := s.th.ctx
    needOrWait (!s.heldThrough c s.th.removed && !s.fifoThrough c s.th.removed && !s.pinnedBy c (anyCovers s.th.removed))
    let s := s.performThrough c s.th.removed
    .ok ((s.setTh { s.th with removed := [] }).retire 1)

end Sys2Proof.Machine
end

