-- ==== Sys2Proof/Machine/Debug.lean ====
section
/-! DEFINITION. The debug port's operations on a context's threads and regions (R245, R246), as mailbox command 0x0007 (R258). -/

namespace Sys2Proof.Machine

/-- Serves a debug operation of a context whose debug flag is set; any other is refused (R245, R258). -/
def State.debugOp (s : State) (f : Nat → Option State) : Out :=
  event s <|
    s.command 0x0007 fun c => if (s.ctx c).live = true ∧ (s.ctx c).debug = true then f c else some (s.respond 0x01)

/-! Threads. Those of a context that is out stand in its save area, which the port may change (R240). -/

/-- Whether thread n runs work of a context. -/
def State.runs (s : State) (c n : Nat) : Bool := (s.thr n).work != .free && (s.thr n).ctx == c

/-- What the device keeps of a context that is out. -/
def State.savedOf (s : State) (c : Nat) : Saved :=
  ((s.saved.find? fun e => e.1 == c).map (·.2)).getD
    { threads := [], arrays := [], regions := [], tiles := [], resvs := [], packets := [] }

/-- A thread of a context as the port finds it: the one that runs its work, or what its record in the save area gives. -/
def State.debugThread (s : State) (c n : Nat) : Option Thread :=
  if s.runs c n then some (s.thr n)
  else ((s.savedOf c).threads.find? fun e => e.1 == n).map fun e => s.loadThread c n e.2

/-- The requests for a record in the save area. -/
def State.meetThread (s : State) (c n : Nat) : State :=
  if s.runs c n then s else (s.meetSaved c (threadOff n) 42).meetSaved c (debugOff n) 1

/-- Thread n as an operation of the port leaves it: one that it makes free waits nowhere, and a group in reservation on its quire that
needs threads takes it (R37, R241); one that is saved is written to its record. -/
def State.putDebugged (s : State) (c n : Nat) (t : Thread) : State :=
  if s.runs c n then
    (if t.work = .free then ((s.unwait n).setThr n t).refill (quireOf (coreOf n)) else s.setThr n t)
  else
    let x := s.savedOf c
    { s.saveThread c n t with saved := tput s.saved c { x with threads := tput x.threads n t } }

/-- An operation on a thread of the context, refused on any other. -/
def State.onThread (s : State) (c n : Nat) (f : Thread → Thread) : Option State :=
  let s := s.meetThread c n
  match s.debugThread c n with
  | some t => some ((s.putDebugged c n (f t)).respond 0)
  | none => some (s.respond 0x01)

/-- The halted thread of the context that the port reads or writes. -/
def State.haltedThread (s : State) (c n : Nat) : Option Thread := (s.debugThread c n).filter (·.halted)

/-- Halt thread: at its next user-mode boundary (R67); the request makes an armed WAITV or a WAITE return (R65, R414). A saved thread
stands at such a boundary. -/
def execDebugHaltThread (thread : Nat) (s : State) : Out :=
  s.debugOp fun c =>
    if s.runs c thread then
      let t := s.thr thread
      some ((if t.halted then s else (s.setThr thread { t with haltAsked := true }).contextEvent thread).respond 0)
    else s.onThread c thread fun t => { t with halted := true }

/-- Resume thread: after a double trap at the PC the port writes, with DBL and DCAUSE clear (R230, R245). -/
def Thread.resume (t : Thread) (pc : Word) : Thread :=
  if t.trapDbl then { t with halted := false, haltAsked := false, pc := pc, trapDbl := false, dcause := 0 }
  else { t with halted := false, haltAsked := false }

def execDebugResumeThread (thread : Nat) (pc : Word) (s : State) : Out :=
  s.debugOp fun c => s.onThread c thread fun t => t.resume pc

/-- Read thread: a word of its record, in the layout of R239. -/
def execDebugReadThread (thread off : Nat) (s : State) : Out :=
  s.debugOp fun c =>
    if off % 8 ≠ 0 ∨ 2688 ≤ off then some (s.respond 0x02)
    else
      let s := s.meetThread c thread
      match s.haltedThread c thread with
      | some t => some (s.respondWith (leBytes 8 (t.recWord (s.slotOf t) (off / 8)).toNat))
      | none => some (s.respond 0x01)

/-- Write thread: a word of its record. -/
def execDebugWriteThread (thread off : Nat) (v : Word) (s : State) : Out :=
  s.debugOp fun c =>
    if off % 8 ≠ 0 ∨ 2688 ≤ off then some (s.respond 0x02)
    else if ((s.meetThread c thread).haltedThread c thread).isSome then
      s.onThread c thread fun t => s.putThreadWord thread t (off / 8) v
    else some (s.respond 0x01)

/-- Puts a list of addresses into the breakpoint registers. -/
def Thread.setBrks (t : Thread) (bs : List Word) : Thread := (upto 4).foldl (fun t i => t.setBrk i (nth 0 bs i)) t

/-- A thread as a context's debug port finds it in a quire: one that is free, or ran work of this context, and none of another's. A free
thread that last ran another context's work holds this one's step state at its reset values (R6, R66). -/
def State.stepThread (s : State) (c n : Nat) : Option Thread :=
  let t := s.thr n
  if Config.threads ≤ n then none
  else if t.ctx = c then some t
  else if t.work = .free then some { Thread.reset with ctx := c, cmds := t.cmds }
  else none

/-- Write step state: STEPCTL and BRKADDR0 to BRKADDR3 of any thread (R66, R245), a free one too, or a saved one. -/
def execDebugWriteStepState (thread : Nat) (step : Word) (brk : List Word) (s : State) : Out :=
  s.debugOp fun c =>
    if (brk.all addrForm) = false then some (s.respond 0x02)
    else if (s.ctx c).inn = false ∧ ((s.savedOf c).threads.any fun e => e.1 == thread) = true then
      s.onThread c thread fun t => { t with stepctl := step.setWidth 7 }.setBrks brk
    else
      match s.stepThread c thread with
      | none => some (s.respond 0x01)
      | some t => some ((s.setThr thread ({ t with stepctl := step.setWidth 7 }.setBrks brk)).respond 0)

/-! Regions (R246). -/

/-- A region of a context as the port finds it, and whether it is saved: that of its field, or while the context is out the one that the
device keeps, which the save area describes (R240). -/
def State.debugRegion (s : State) (c f n : Nat) : Option (Region × Bool) :=
  let g := s.region f n
  if (s.ctx c).inn then (if g.width != 0 && g.owner == c then some (g, false) else none)
  else ((s.savedOf c).regions.find? fun e => e.1 == 16 * f + n).map fun e => (e.2, true)

/-- A region in debug mode of the context (R246). -/
def State.inDebug (s : State) (c f n : Nat) : Option (Region × Bool) := (s.debugRegion c f n).filter (·.1.debug)

/-- A frozen region of the context: by the port, by SG.FREEZE, or by a pre-emption (R236, R245). -/
def State.frozenRegion (s : State) (c f n : Nat) : Option (Region × Bool) := (s.debugRegion c f n).filter (·.1.frozen)

/-- A saved region as an operation of the port leaves it. -/
def State.putSavedRegion (s : State) (c f n : Nat) (g : Region) : State :=
  let x := s.savedOf c
  { s with saved := tput s.saved c { x with regions := tput x.regions (16 * f + n) g } }

/-- Freeze region. A saved region in debug mode is frozen already (R246), and stays so when its context comes back. -/
def execDebugFreezeRegion (folio region : Nat) (s : State) : Out :=
  s.debugOp fun c =>
    match s.inDebug c folio region with
    | some (_, false) => some ((s.freeze folio region).respond 0)
    | some (g, true) => some ((s.putSavedRegion c folio region { g with preempted := false }).respond 0)
    | none => some (s.respond 0x01)

/-- Thaw region. A saved one goes on when its context comes back (R237, R246). -/
def execDebugThawRegion (folio region : Nat) (s : State) : Out :=
  s.debugOp fun c =>
    match s.inDebug c folio region with
    | some (g, false) => some ((s.setRegion folio region g.thawed).respond 0)
    | some (g, true) => some ((s.putSavedRegion c folio region { g with preempted := g.frozen }).respond 0)
    | none => some (s.respond 0x01)

/-- What a step's answer leaves. -/
def stateOf (s : State) : Out → State
  | .next s' => s'
  | _ => s

/-- One firing cycle of a tile (R74, R75): the beats in progress, the rules its picker takes as the cycle begins, and what an edge
port does. -/
def State.cycleTile (s : State) (f n : Nat) (rd : TileRec) (c r : Nat) : State :=
  let p : Place := { f := f, n := n, c := c, r := r }
  let picks := s.pick p rd
  let owed := s.owes p rd
  let s := stateOf s (execNBeatRuleBeat f c r true s)
  let s := stateOf s (execNBeatRuleBeat f c r false s)
  let s := if (s.liveTile f c r).isSome then s.fireCycle p rd picks owed else s
  let s := stateOf s (execLoaderReadResponse f c r s)
  stateOf s (execStorerAccept f c r s)

/-- Every token on a tile's routes moves one hop, those nearest their receivers first; one that stands before a closed gutter drops. A
token that reached a pass-through in this cycle, whose input was empty as the cycle began (`start`), stays there. -/
def State.cycleRoutes (s start : State) (f : Nat) (g : Region) (rd : TileRec) (c r : Nat) : State :=
  (upto 4).foldl (fun s o =>
    let s := match g.path rd o with
      | none => s
      | some (_, path) =>
        (upto (stagesOf path)).foldl (fun s i => (s.tokenHop f c r o (stagesOf path - 1 - i)).getD s)
          ((s.gutterDrop f c r o).getD s)
    if (start.ftile f c r).inp o = [] then s else (s.tokenHop f c r (5 + o) 0).getD s) s

/-- The late tokens of a tile from the i-th on, n of them, move one hop each, where they can. -/
def State.cycleLate (s : State) (f c r : Nat) : Nat → Nat → State
  | _, 0 => s
  | i, n + 1 =>
    match s.tokenHop f c r 4 i with
    | none => s.cycleLate f c r (i + 1) n
    | some s' =>
      s'.cycleLate f c r (if (s'.ftile f c r).late.length < (s.ftile f c r).late.length then i else i + 1) n

/-- The records of a plane by column, then row. -/
def Plane.byPlace (p : Plane) : List TileRec := (upto 1440).filterMap fun k => p.recAt (k / 36) (k % 36)

/-- A tile with a CALL or RET rule. -/
def TileRec.crosses (t : TileRec) : Bool := t.rules.any fun r => r.op == 0x25 || r.op == 0x26

/-- The order in which a cycle's firings take effect: tiles that hold a CALL or RET come last, the lowest column and then the lowest
row first, so that it is the one that acts (R105, R390). -/
def Plane.cycleOrder (p : Plane) : List TileRec :=
  (p.byPlace.filter fun t => !t.crosses) ++ p.byPlace.filter TileRec.crosses

/-- One firing cycle of every tile of a region, and one hop of every token, the hops first (R246; log 134). -/
def State.stepRegion (s : State) (f n : Nat) : State :=
  let g := s.region f n
  match g.active with
  | none => s
  | some p =>
    let s := s.setRegion f n { g with frozen := false }
    let s := g.places.foldl (fun s q => s.cycleLate f q.1 q.2 0 (s.ftile f q.1 q.2).late.length) s
    let s := p.recs.foldl (fun t rd => t.cycleRoutes s f g rd (g.first + rd.col) rd.row) s
    let s := p.cycleOrder.foldl (fun s rd => s.cycleTile f n rd (g.first + rd.col) rd.row) s
    s.setRegion f n { s.region f n with frozen := true }

/-- Step region: of a frozen region in debug mode. One that is saved has no tiles that could fire, and is refused (DESIGN CHOICE,
log 173). -/
def execDebugStepRegion (folio region : Nat) (s : State) : Out :=
  s.debugOp fun c =>
    match s.inDebug c folio region, s.frozenRegion c folio region with
    | some _, some (_, false) => some ((s.stepRegion folio region).respond 0)
    | _, _ => some (s.respond 0x01)

/-- What an offset of a folio's section names in a region (R242). -/
inductive RegionPart where
  | head (k : Nat)
  /-- The fault slot, which lies in the save area alone (R232). -/
  | fault (k : Nat)
  | tile (c r k : Nat)
  /-- The controller's state, and a tile's route slack and partial blocks, in forms private to the device. -/
  | control (k : Nat)
  | slack (c r k : Nat)
  | mem (c r i : Nat)
  /-- The entries a storer holds. -/
  | held (c r k : Nat)
deriving DecidableEq, Repr

/-- The part of a region at an offset from its folio's base, none where the layout has nothing to read or write. -/
def Region.part (g : Region) (n off : Nat) : Option RegionPart :=
  if off % 8 ≠ 0 then none
  else if off < 0x10000 then
    if off / 0x1000 ≠ n then none
    else if off % 0x1000 < 0x40 then some (.head (off % 0x1000 / 8))
    else if off % 0x1000 < 0x80 then some (.fault ((off % 0x1000 - 0x40) / 8))
    else some (.control ((off % 0x1000 - 0x80) / 8))
  else
    let c := (off - 0x10000) / 0x7D000
    let o := (off - 0x10000) % 0x7D000
    if c < g.first ∨ g.first + g.width ≤ c then none
    else if o < 0x9000 then
      if tileWords.contains (o % 1024 / 8) then some (.tile c (o / 1024) (o % 1024 / 8))
      else if 0x300 ≤ o % 1024 then some (.slack c (o / 1024) (o % 1024 / 8 - 96))
      else none
    else if o < 0x59000 then
      let r := nth 0 memRows ((o - 0x9000) / 0x10000)
      match g.recAt c r with
      | some rd => if rd.hasMem then some (.mem c r ((o - 0x9000) % 0x10000 / 8)) else none
      | none => none
    else
      let r := if o < 0x6B000 then 0 else 35
      match g.recAt c r with
      | some rd => if rd.kind = 3 ∧ rd.storer = true then some (.held c r ((o - 0x59000) % 0x12000 / 8)) else none
      | none => none

/-- The request for a part that lies in memory. -/
def State.meetPart (s : State) (f n : Nat) (g : Region) : RegionPart → State
  | .fault _ => s.meetSaved g.owner (regionOff f n + 0x40) 1
  | _ => s

/-- The word of a part. -/
def State.partWord (s : State) (f n : Nat) (g : Region) : RegionPart → Word
  | .head k => g.headWord n k
  | .fault k => (s.savedWord g.owner (regionOff f n + 0x40 + 8 * k)).getD (Config.freeWord s.free)
  | .tile c r k => (s.ftile f c r).recWord (isDeep (g.recAt c r)) k
  | .control k => Config.privateWord g.control k
  | .slack c r k => Config.privateWord (s.ftile f c r).slack k
  | .mem c r i => match g.recAt c r with
    | some rd => (s.ftile f c r).memWord rd i
    | none => 0
  | .held c r k => (s.ftile f c r).heldWord k

/-- The word of a part written. In a form private to the device, the word that stands there already changes nothing, and any other leaves
free values in the state that the form gives, the counts of its tokens apart (DESIGN CHOICE, log 146). -/
def State.putPart (s : State) (f n : Nat) (g : Region) (v : Word) : RegionPart → State
  | .head k => s.setRegion f n (g.putHead k v)
  | .fault k => s.saveAt g.owner (regionOff f n + 0x40 + 8 * k) [v]
  | .tile c r k => s.setFtile f c r ((s.ftile f c r).putWord (isDeep (g.recAt c r)) k v)
  | .control k =>
    if v = Config.privateWord g.control k then s
    else ({ s with free := s.free + 1 } : State).setRegion f n { g with invFlags := (Config.freeWord s.free).setWidth 5 }
  | .slack c r k =>
    if v = Config.privateWord (s.ftile f c r).slack k then s
    else ({ s with free := s.free + 50000 } : State).setFtile f c r ((s.ftile f c r).freeSlack s.free)
  | .mem c r i => match g.recAt c r with
    | some rd => s.setFtile f c r (FTile.putMem rd (s.ftile f c r) i v)
    | none => s
  | .held c r k => s.setFtile f c r ((s.ftile f c r).putHeldWord k v)

/-- Read region: a word of the state of a frozen region, in the save area where the region is saved. -/
def execDebugReadRegion (folio region off : Nat) (s : State) : Out :=
  s.debugOp fun c =>
    match s.frozenRegion c folio region with
    | none => some (s.respond 0x01)
    | some (g, saved) =>
      match g.part region off with
      | none => some (s.respond 0x02)
      | some x =>
        if saved then
          let s := s.meetSaved c (folioOff folio + off) 1
          some (s.respondWith (leBytes 8 ((s.savedWord c (folioOff folio + off)).getD (Config.freeWord s.free)).toNat))
        else some ((s.meetPart folio region g x).respondWith (leBytes 8 (s.partWord folio region g x).toNat))

/-- Write region: a word of the state of a frozen region, in the save area where the region is saved. -/
def execDebugWriteRegion (folio region off : Nat) (v : Word) (s : State) : Out :=
  s.debugOp fun c =>
    match s.frozenRegion c folio region with
    | none => some (s.respond 0x01)
    | some (g, saved) =>
      match g.part region off with
      | none => some (s.respond 0x02)
      | some x => some ((if saved then s.saveAt c (folioOff folio + off) [v] else s.putPart folio region g v x).respond 0)

end Sys2Proof.Machine
end

