-- ==== Sys2Proof/Machine/Integer.lean ====
section
/-! DEFINITION. The integer row (R282, R145): INTA, INTM and immediate instructions. No one of them raises a flag (R130). -/

namespace Sys2Proof.Machine

/-! The operations on values. -/

/-- Shifts take their count from the low log2(width) bits (R130, R282). -/
def shl64 (x y : Word) : Word := x <<< (y.toNat % 64)
def shr64 (x y : Word) : Word := x >>> (y.toNat % 64)
def sha64 (x y : Word) : Word := x.sshiftRight (y.toNat % 64)
def shl32 (x y : BitVec 32) : BitVec 32 := x <<< (y.toNat % 32)
def shr32 (x y : BitVec 32) : BitVec 32 := x >>> (y.toNat % 32)
def sha32 (x y : BitVec 32) : BitVec 32 := x.sshiftRight (y.toNat % 32)

/-- Comparisons and extrema at a width (R282). -/
def sltV {w : Nat} (x y : BitVec w) : BitVec w := if x.slt y then BitVec.ofNat w 1 else BitVec.ofNat w 0
def sltnV {w : Nat} (x y : BitVec w) : BitVec w := if x.ult y then BitVec.ofNat w 1 else BitVec.ofNat w 0
def minS {w : Nat} (x y : BitVec w) : BitVec w := if x.slt y then x else y
def maxS {w : Nat} (x y : BitVec w) : BitVec w := if x.slt y then y else x
def minU {w : Nat} (x y : BitVec w) : BitVec w := if x.ult y then x else y
def maxU {w : Nat} (x y : BitVec w) : BitVec w := if x.ult y then y else x

/-- Signed division truncating toward zero, its remainder with the dividend's sign, and the corners of R145. -/
def divS {w : Nat} (x y : BitVec w) : BitVec w := if y = 0 then BitVec.allOnes w else x.sdiv y
def remS {w : Nat} (x y : BitVec w) : BitVec w := if y = 0 then x else x.srem y
def divU {w : Nat} (x y : BitVec w) : BitVec w := if y = 0 then BitVec.allOnes w else x / y
def remU {w : Nat} (x y : BitVec w) : BitVec w := if y = 0 then x else x % y

/-- The high 64 bits of a 128-bit product (R282). -/
def mulhSS (x y : Word) : Word := BitVec.ofInt 64 (x.toInt * y.toInt / 2 ^ 64)
def mulhUU (x y : Word) : Word := BitVec.ofNat 64 (x.toNat * y.toNat / 2 ^ 64)
def mulhSU (x y : Word) : Word := BitVec.ofInt 64 (x.toInt * y.toNat / 2 ^ 64)

/-- How many bits at the top of a word are 0, searching down from bit n - 1 (R341). -/
def leadingZeros (x : Word) : Nat → Nat
  | 0 => 0
  | n + 1 => if x.getLsbD n then 0 else 1 + leadingZeros x n

/-- How many bits at the bottom are 0, with n bits left to search from bit i (R341). -/
def trailingZeros (x : Word) (i : Nat) : Nat → Nat
  | 0 => 0
  | n + 1 => if x.getLsbD i then 0 else 1 + trailingZeros x (i + 1) n

/-- Set bits among the low n (R341). -/
def popCount (x : Word) : Nat → Nat
  | 0 => 0
  | n + 1 => (if x.getLsbD n then 1 else 0) + popCount x n

/-- The word with bit i of the result bit 63 - i of the source (R341). -/
def bitReverse (x : Word) : Word := x.reverse

/-- The word with its bytes in reverse order (R341). -/
def byteSwap (x : Word) : Word := BitVec.ofNat 64 (leNat (leBytes 8 x.toNat).reverse)

/-! INTA (R282, R324, R327, R341). -/

def execAdd (d a b : SReg) (s : State) : Out := alu3 (· + ·) d a b s
def execAddW (d a b : SReg) (s : State) : Out := alu3w (· + ·) d a b s
def execSub (d a b : SReg) (s : State) : Out := alu3 (· - ·) d a b s
def execSubW (d a b : SReg) (s : State) : Out := alu3w (· - ·) d a b s
def execAnd (d a b : SReg) (s : State) : Out := alu3 (· &&& ·) d a b s
def execAndW (d a b : SReg) (s : State) : Out := alu3w (· &&& ·) d a b s
def execOr (d a b : SReg) (s : State) : Out := alu3 (· ||| ·) d a b s
def execOrW (d a b : SReg) (s : State) : Out := alu3w (· ||| ·) d a b s
def execXor (d a b : SReg) (s : State) : Out := alu3 (· ^^^ ·) d a b s
def execXorW (d a b : SReg) (s : State) : Out := alu3w (· ^^^ ·) d a b s
def execAndn (d a b : SReg) (s : State) : Out := alu3 (fun x y => x &&& ~~~y) d a b s
def execAndnW (d a b : SReg) (s : State) : Out := alu3w (fun x y => x &&& ~~~y) d a b s
def execShl (d a b : SReg) (s : State) : Out := alu3 shl64 d a b s
def execShlW (d a b : SReg) (s : State) : Out := alu3w shl32 d a b s
def execShr (d a b : SReg) (s : State) : Out := alu3 shr64 d a b s
def execShrW (d a b : SReg) (s : State) : Out := alu3w shr32 d a b s
def execSha (d a b : SReg) (s : State) : Out := alu3 sha64 d a b s
def execShaW (d a b : SReg) (s : State) : Out := alu3w sha32 d a b s
def execSlt (d a b : SReg) (s : State) : Out := alu3 sltV d a b s
def execSltW (d a b : SReg) (s : State) : Out := alu3w sltV d a b s
def execSltn (d a b : SReg) (s : State) : Out := alu3 sltnV d a b s
def execSltnW (d a b : SReg) (s : State) : Out := alu3w sltnV d a b s
def execMin (d a b : SReg) (s : State) : Out := alu3 minS d a b s
def execMinW (d a b : SReg) (s : State) : Out := alu3w minS d a b s
def execMax (d a b : SReg) (s : State) : Out := alu3 maxS d a b s
def execMaxW (d a b : SReg) (s : State) : Out := alu3w maxS d a b s
def execMinn (d a b : SReg) (s : State) : Out := alu3 minU d a b s
def execMinnW (d a b : SReg) (s : State) : Out := alu3w minU d a b s
def execMaxn (d a b : SReg) (s : State) : Out := alu3 maxU d a b s
def execMaxnW (d a b : SReg) (s : State) : Out := alu3w maxU d a b s
def execClz (d a : SReg) (s : State) : Out := alu2 (fun x => BitVec.ofNat 64 (leadingZeros x 64)) d a s
def execCtz (d a : SReg) (s : State) : Out := alu2 (fun x => BitVec.ofNat 64 (trailingZeros x 0 64)) d a s
def execPopc (d a : SReg) (s : State) : Out := alu2 (fun x => BitVec.ofNat 64 (popCount x 64)) d a s
def execBrev (d a : SReg) (s : State) : Out := alu2 bitReverse d a s
def execBswap (d a : SReg) (s : State) : Out := alu2 byteSwap d a s

/-- SEL: s[a] when bit 0 of the predicate is 1, else d is unchanged (R282). The result depends on the predicate and on
both values. -/
def execSel (d a : SReg) (p : PReg) (s : State) : Out :=
  finish s (.ok ((s.ws d (if (s.rp p).getLsbD 0 then s.rs a else s.rs d) (max (max (s.ss a) (s.ss d)) (s.ps p))).retire 1))

/-! INTM (R282, R145). -/

def execMul (d a b : SReg) (s : State) : Out := alu3 (· * ·) d a b s
def execMulW (d a b : SReg) (s : State) : Out := alu3w (· * ·) d a b s
def execMulh (d a b : SReg) (s : State) : Out := alu3 mulhSS d a b s
def execMulhn (d a b : SReg) (s : State) : Out := alu3 mulhUU d a b s
def execMulhsn (d a b : SReg) (s : State) : Out := alu3 mulhSU d a b s
def execDiv (d a b : SReg) (s : State) : Out := alu3 divS d a b s
def execDivW (d a b : SReg) (s : State) : Out := alu3w divS d a b s
def execDivn (d a b : SReg) (s : State) : Out := alu3 divU d a b s
def execDivnW (d a b : SReg) (s : State) : Out := alu3w divU d a b s
def execRem (d a b : SReg) (s : State) : Out := alu3 remS d a b s
def execRemW (d a b : SReg) (s : State) : Out := alu3w remS d a b s
def execRemn (d a b : SReg) (s : State) : Out := alu3 remU d a b s
def execRemnW (d a b : SReg) (s : State) : Out := alu3w remU d a b s

/-! Immediates (R279, R282). -/

def slt64 (x y : Word) : Word := ofBool (x.slt y)
def sltn64 (x y : Word) : Word := ofBool (x.ult y)

def execAddi (d a : SReg) (imm : BitVec 13) (s : State) : Out := aluImm (· + ·) d a (imm13 imm) 1 s
def execAndi (d a : SReg) (imm : BitVec 13) (s : State) : Out := aluImm (· &&& ·) d a (imm13 imm) 1 s
def execOri (d a : SReg) (imm : BitVec 13) (s : State) : Out := aluImm (· ||| ·) d a (imm13 imm) 1 s
def execXori (d a : SReg) (imm : BitVec 13) (s : State) : Out := aluImm (· ^^^ ·) d a (imm13 imm) 1 s
def execSlti (d a : SReg) (imm : BitVec 13) (s : State) : Out := aluImm slt64 d a (imm13 imm) 1 s
def execSltni (d a : SReg) (imm : BitVec 13) (s : State) : Out := aluImm sltn64 d a (imm13 imm) 1 s
def execShli (d a : SReg) (n : BitVec 6) (s : State) : Out := aluImm shl64 d a (n.setWidth 64) 1 s
def execShri (d a : SReg) (n : BitVec 6) (s : State) : Out := aluImm shr64 d a (n.setWidth 64) 1 s
def execShai (d a : SReg) (n : BitVec 6) (s : State) : Out := aluImm sha64 d a (n.setWidth 64) 1 s

/-- LIH: d ← sext(imm19, 19) << 13 (R282). -/
def execLih (d : SReg) (imm : BitVec 19) (s : State) : Out :=
  finish s (.ok ((s.ws d (imm.signExtend 64 <<< 13) 0).retire 1))

/-- ADDPC: d ← pc + sext(imm19, 19), not scaled (R282, R326). -/
def execAddpc (d : SReg) (imm : BitVec 19) (s : State) : Out :=
  finish s (.ok ((s.ws d (s.th.pc + imm.signExtend 64) 0).retire 1))

/-- An IMM chain (R277, R279, R280): the immediate-bearing instruction with its long immediate; before any other
instruction, illegal instruction at the IMM. -/
def execImm (first : BitVec 25) (second : Option (BitVec 25)) (tail : ImmTail) (s : State) : Out :=
  match tail with
  | .addi d a i => aluImm (· + ·) d a (chainImm first second i) (chainWords second) s
  | .andi d a i => aluImm (· &&& ·) d a (chainImm first second i) (chainWords second) s
  | .ori d a i => aluImm (· ||| ·) d a (chainImm first second i) (chainWords second) s
  | .xori d a i => aluImm (· ^^^ ·) d a (chainImm first second i) (chainWords second) s
  | .slti d a i => aluImm slt64 d a (chainImm first second i) (chainWords second) s
  | .sltni d a i => aluImm sltn64 d a (chainImm first second i) (chainWords second) s
  | .notBearing => finish s illegal

end Sys2Proof.Machine
end

