-- ==== Sys2Proof/Machine/Traps.lean ====
section
/-! DEFINITION. Fetching an instruction (R279, R193), the traps of a fetch and of an illegal word (R229, R281). -/

namespace Sys2Proof.Machine

/-- What a fetch at the pc of the issuing thread gives: a fault with its cause and address, an illegal word, or an
instruction. -/
inductive Fetched where
  | fault (cause : Nat) (va : Word)
  | illegal
  | instr (i : Instr)

/-- The words of the instruction at an address (R277, R279): one, or the words of an IMM chain up to its third. -/
def State.fetchWords (s : State) (pc : Word) : Except (Nat × Word × State) (List Nat × State) :=
  match s.fetchWord pc with
  | .error e => .error (e.1, pc, e.2)
  | .ok (w0, s) =>
    if w0 % 128 ≠ 127 then .ok ([w0], s)
    else
      match s.fetchWord (pc + 4) with
      | .error e => .error (e.1, pc + 4, e.2)
      | .ok (w1, s) =>
        if w1 % 128 ≠ 127 then .ok ([w0, w1], s)
        else
          match s.fetchWord (pc + 8) with
          | .error e => .error (e.1, pc + 8, e.2)
          | .ok (w2, s) => .ok ([w0, w1, w2], s)

/-- Fetches and decodes the instruction at the pc of the issuing thread. -/
def State.fetchInstr (s : State) : Fetched × State :=
  match s.fetchWords s.th.pc with
  | .error (c, a, s') => (.fault c a, s')
  | .ok (ws, s') =>
    match decode (wordsBytes ws) with
    | .ok (i, _) => (.instr i, s')
    | .error _ => (.illegal, s')

/-- A word whose OP, fn or fields are unassigned or illegal: illegal instruction, TRAPVAL 0 (R281). -/
def execIllegalInstruction (s : State) : Out := finish s illegal

/-- A fetch at the pc faults: the cause of the fetch and the faulting address (R229, R277). -/
def execInstructionFetchFault (s : State) : Out :=
  match s.fetchInstr with
  | (.fault c a, s') => finish s' (trapV c a)
  | _ => stutter s

end Sys2Proof.Machine
end

