-- ==== Sys2Proof/Machine/Dispatch.lean ====
section
/-! DEFINITION. The one dispatch of the model: each instruction to its meaning. -/

namespace Sys2Proof.Machine

/-- What an instruction does: one arm per row of the opcode table. -/
def exec (i : Instr) (s : State) : Host.Outcome State Fault Refusal :=
  match i with
  | .add d a b => Sys2Proof.Machine.execAdd d a b s
  | .addW d a b => Sys2Proof.Machine.execAddW d a b s
  | .sub d a b => Sys2Proof.Machine.execSub d a b s
  | .subW d a b => Sys2Proof.Machine.execSubW d a b s
  | .and d a b => Sys2Proof.Machine.execAnd d a b s
  | .andW d a b => Sys2Proof.Machine.execAndW d a b s
  | .or d a b => Sys2Proof.Machine.execOr d a b s
  | .orW d a b => Sys2Proof.Machine.execOrW d a b s
  | .xor d a b => Sys2Proof.Machine.execXor d a b s
  | .xorW d a b => Sys2Proof.Machine.execXorW d a b s
  | .andn d a b => Sys2Proof.Machine.execAndn d a b s
  | .andnW d a b => Sys2Proof.Machine.execAndnW d a b s
  | .shl d a b => Sys2Proof.Machine.execShl d a b s
  | .shlW d a b => Sys2Proof.Machine.execShlW d a b s
  | .shr d a b => Sys2Proof.Machine.execShr d a b s
  | .shrW d a b => Sys2Proof.Machine.execShrW d a b s
  | .sha d a b => Sys2Proof.Machine.execSha d a b s
  | .shaW d a b => Sys2Proof.Machine.execShaW d a b s
  | .slt d a b => Sys2Proof.Machine.execSlt d a b s
  | .sltW d a b => Sys2Proof.Machine.execSltW d a b s
  | .sltn d a b => Sys2Proof.Machine.execSltn d a b s
  | .sltnW d a b => Sys2Proof.Machine.execSltnW d a b s
  | .min d a b => Sys2Proof.Machine.execMin d a b s
  | .minW d a b => Sys2Proof.Machine.execMinW d a b s
  | .max d a b => Sys2Proof.Machine.execMax d a b s
  | .maxW d a b => Sys2Proof.Machine.execMaxW d a b s
  | .minn d a b => Sys2Proof.Machine.execMinn d a b s
  | .minnW d a b => Sys2Proof.Machine.execMinnW d a b s
  | .maxn d a b => Sys2Proof.Machine.execMaxn d a b s
  | .maxnW d a b => Sys2Proof.Machine.execMaxnW d a b s
  | .clz d a => Sys2Proof.Machine.execClz d a s
  | .ctz d a => Sys2Proof.Machine.execCtz d a s
  | .popc d a => Sys2Proof.Machine.execPopc d a s
  | .brev d a => Sys2Proof.Machine.execBrev d a s
  | .bswap d a => Sys2Proof.Machine.execBswap d a s
  | .sel d a p => Sys2Proof.Machine.execSel d a p s
  | .mul d a b => Sys2Proof.Machine.execMul d a b s
  | .mulW d a b => Sys2Proof.Machine.execMulW d a b s
  | .mulh d a b => Sys2Proof.Machine.execMulh d a b s
  | .mulhn d a b => Sys2Proof.Machine.execMulhn d a b s
  | .mulhsn d a b => Sys2Proof.Machine.execMulhsn d a b s
  | .div d a b => Sys2Proof.Machine.execDiv d a b s
  | .divW d a b => Sys2Proof.Machine.execDivW d a b s
  | .divn d a b => Sys2Proof.Machine.execDivn d a b s
  | .divnW d a b => Sys2Proof.Machine.execDivnW d a b s
  | .rem d a b => Sys2Proof.Machine.execRem d a b s
  | .remW d a b => Sys2Proof.Machine.execRemW d a b s
  | .remn d a b => Sys2Proof.Machine.execRemn d a b s
  | .remnW d a b => Sys2Proof.Machine.execRemnW d a b s
  | .addi d a imm => Sys2Proof.Machine.execAddi d a imm s
  | .andi d a imm => Sys2Proof.Machine.execAndi d a imm s
  | .ori d a imm => Sys2Proof.Machine.execOri d a imm s
  | .xori d a imm => Sys2Proof.Machine.execXori d a imm s
  | .shli d a n => Sys2Proof.Machine.execShli d a n s
  | .shri d a n => Sys2Proof.Machine.execShri d a n s
  | .shai d a n => Sys2Proof.Machine.execShai d a n s
  | .slti d a imm => Sys2Proof.Machine.execSlti d a imm s
  | .sltni d a imm => Sys2Proof.Machine.execSltni d a imm s
  | .lih d imm => Sys2Proof.Machine.execLih d imm s
  | .addpc d imm => Sys2Proof.Machine.execAddpc d imm s
  | .imm first second tail => Sys2Proof.Machine.execImm first second tail s
  | .bEq a b imm => Sys2Proof.Machine.execBEq a b imm s
  | .bNe a b imm => Sys2Proof.Machine.execBNe a b imm s
  | .bLt a b imm => Sys2Proof.Machine.execBLt a b imm s
  | .bGe a b imm => Sys2Proof.Machine.execBGe a b imm s
  | .bLtn a b imm => Sys2Proof.Machine.execBLtn a b imm s
  | .bGen a b imm => Sys2Proof.Machine.execBGen a b imm s
  | .bp p mode imm => Sys2Proof.Machine.execBp p mode imm s
  | .j imm => Sys2Proof.Machine.execJ imm s
  | .call d imm => Sys2Proof.Machine.execCall d imm s
  | .callr d a argc => Sys2Proof.Machine.execCallr d a argc s
  | .callrV d a argc => Sys2Proof.Machine.execCallrV d a argc s
  | .jr a => Sys2Proof.Machine.execJr a s
  | .ret a => Sys2Proof.Machine.execRet a s
  | .trap n => Sys2Proof.Machine.execTrap n s
  | .brk => Sys2Proof.Machine.execBrk s
  | .eret => Sys2Proof.Machine.execEret s
  | .isync => Sys2Proof.Machine.execIsync s
  | .yield => Sys2Proof.Machine.execYield s
  | .halt => Sys2Proof.Machine.execHalt s
  | .waite => Sys2Proof.Machine.execWaite s
  | .ldB t base sem scope off => Sys2Proof.Machine.execLdB t base sem scope off s
  | .ldH t base sem scope off => Sys2Proof.Machine.execLdH t base sem scope off s
  | .ldW t base sem scope off => Sys2Proof.Machine.execLdW t base sem scope off s
  | .ldD t base sem scope off => Sys2Proof.Machine.execLdD t base sem scope off s
  | .ldNb t base sem scope off => Sys2Proof.Machine.execLdNb t base sem scope off s
  | .ldNh t base sem scope off => Sys2Proof.Machine.execLdNh t base sem scope off s
  | .ldNw t base sem scope off => Sys2Proof.Machine.execLdNw t base sem scope off s
  | .ldQ t base sem scope off => Sys2Proof.Machine.execLdQ t base sem scope off s
  | .stB t base sem scope off => Sys2Proof.Machine.execStB t base sem scope off s
  | .stH t base sem scope off => Sys2Proof.Machine.execStH t base sem scope off s
  | .stW t base sem scope off => Sys2Proof.Machine.execStW t base sem scope off s
  | .stD t base sem scope off => Sys2Proof.Machine.execStD t base sem scope off s
  | .stQ t base sem scope off => Sys2Proof.Machine.execStQ t base sem scope off s
  | .ldx d a b size sem scope => Sys2Proof.Machine.execLdx d a b size sem scope s
  | .stx d a b size sem scope => Sys2Proof.Machine.execStx d a b size sem scope s
  | .pf hint base off => Sys2Proof.Machine.execPf hint base off s
  | .atAAdd d a b sem scope => Sys2Proof.Machine.execAtAAdd d a b sem scope s
  | .atAAnd d a b sem scope => Sys2Proof.Machine.execAtAAnd d a b sem scope s
  | .atAOr d a b sem scope => Sys2Proof.Machine.execAtAOr d a b sem scope s
  | .atAXor d a b sem scope => Sys2Proof.Machine.execAtAXor d a b sem scope s
  | .atASwap d a b sem scope => Sys2Proof.Machine.execAtASwap d a b sem scope s
  | .atAMin d a b sem scope => Sys2Proof.Machine.execAtAMin d a b sem scope s
  | .atAMax d a b sem scope => Sys2Proof.Machine.execAtAMax d a b sem scope s
  | .atAFadd d a b sem scope => Sys2Proof.Machine.execAtAFadd d a b sem scope s
  | .atWAdd d a b sem scope => Sys2Proof.Machine.execAtWAdd d a b sem scope s
  | .atWAnd d a b sem scope => Sys2Proof.Machine.execAtWAnd d a b sem scope s
  | .atWOr d a b sem scope => Sys2Proof.Machine.execAtWOr d a b sem scope s
  | .atWXor d a b sem scope => Sys2Proof.Machine.execAtWXor d a b sem scope s
  | .atWSwap d a b sem scope => Sys2Proof.Machine.execAtWSwap d a b sem scope s
  | .atWMin d a b sem scope => Sys2Proof.Machine.execAtWMin d a b sem scope s
  | .atWMax d a b sem scope => Sys2Proof.Machine.execAtWMax d a b sem scope s
  | .atWFadd d a b sem scope => Sys2Proof.Machine.execAtWFadd d a b sem scope s
  | .atNMinn d a b sem scope => Sys2Proof.Machine.execAtNMinn d a b sem scope s
  | .atNMaxn d a b sem scope => Sys2Proof.Machine.execAtNMaxn d a b sem scope s
  | .atNIncw d a b sem scope => Sys2Proof.Machine.execAtNIncw d a b sem scope s
  | .atNDecw d a b sem scope => Sys2Proof.Machine.execAtNDecw d a b sem scope s
  | .atNFmin d a b sem scope => Sys2Proof.Machine.execAtNFmin d a b sem scope s
  | .atNFmax d a b sem scope => Sys2Proof.Machine.execAtNFmax d a b sem scope s
  | .atCas d a b sem scope => Sys2Proof.Machine.execAtCas d a b sem scope s
  | .atCas2 d a b sem scope => Sys2Proof.Machine.execAtCas2 d a b sem scope s
  | .fence kind scope => Sys2Proof.Machine.execFence kind scope s
  | .waitv d a b sem scope => Sys2Proof.Machine.execWaitv d a b sem scope s
  | .waitvW d a b sem scope => Sys2Proof.Machine.execWaitvW d a b sem scope s
  | .barInit a b => Sys2Proof.Machine.execBarInit a b s
  | .barArrive d a => Sys2Proof.Machine.execBarArrive d a s
  | .barWait d a b => Sys2Proof.Machine.execBarWait d a b s
  | .barExpect a b => Sys2Proof.Machine.execBarExpect a b s
  | .barArrivex d a b => Sys2Proof.Machine.execBarArrivex d a b s
  | .barLvl b => Sys2Proof.Machine.execBarLvl b s
  | .gang g => Sys2Proof.Machine.execGang g s
  | .gangLeave => Sys2Proof.Machine.execGangLeave s
  | .msg d a b => Sys2Proof.Machine.execMsg d a b s
  | .hbind a b => Sys2Proof.Machine.execHbind a b s
  | .tend => Sys2Proof.Machine.execTend s
  | .spawn a q => Sys2Proof.Machine.execSpawn a q s
  | .enq e a b => Sys2Proof.Machine.execEnq e a b s
  | .deq d e => Sys2Proof.Machine.execDeq d e s
  | .tlAlloc a b => Sys2Proof.Machine.execTlAlloc a b s
  | .tlFree a => Sys2Proof.Machine.execTlFree a s
  | .tlState d a => Sys2Proof.Machine.execTlState d a s
  | .tlWait a b => Sys2Proof.Machine.execTlWait a b s
  | .fAdd d a b p => Sys2Proof.Machine.execFAdd d a b p s
  | .fSub d a b p => Sys2Proof.Machine.execFSub d a b p s
  | .fMul d a b p => Sys2Proof.Machine.execFMul d a b p s
  | .fDiv d a b p => Sys2Proof.Machine.execFDiv d a b p s
  | .fSqrt d a p => Sys2Proof.Machine.execFSqrt d a p s
  | .fMin d a b p => Sys2Proof.Machine.execFMin d a b p s
  | .fMax d a b p => Sys2Proof.Machine.execFMax d a b p s
  | .fClass d a p => Sys2Proof.Machine.execFClass d a p s
  | .fCeq d a b p => Sys2Proof.Machine.execFCeq d a b p s
  | .fClt d a b p => Sys2Proof.Machine.execFClt d a b p s
  | .fCle d a b p => Sys2Proof.Machine.execFCle d a b p s
  | .fFma d a b c p => Sys2Proof.Machine.execFFma d a b c p s
  | .fCvt d a frm tgt => Sys2Proof.Machine.execFCvt d a frm tgt s
  | .vLd vd base pm sem scope off => Sys2Proof.Machine.execVLd vd base pm sem scope off s
  | .vSt vd base pm sem scope off => Sys2Proof.Machine.execVSt vd base pm sem scope off s
  | .vLdx vd vi pm base wide => Sys2Proof.Machine.execVLdx vd vi pm base wide s
  | .vStx vd vi pm base wide => Sys2Proof.Machine.execVStx vd vi pm base wide s
  | .vAdd vd va vb pm ty => Sys2Proof.Machine.execVAdd vd va vb pm ty s
  | .vSub vd va vb pm ty => Sys2Proof.Machine.execVSub vd va vb pm ty s
  | .vMul vd va vb pm ty => Sys2Proof.Machine.execVMul vd va vb pm ty s
  | .vMin vd va vb pm ty => Sys2Proof.Machine.execVMin vd va vb pm ty s
  | .vMax vd va vb pm ty => Sys2Proof.Machine.execVMax vd va vb pm ty s
  | .vAnd vd va vb pm ty => Sys2Proof.Machine.execVAnd vd va vb pm ty s
  | .vOr vd va vb pm ty => Sys2Proof.Machine.execVOr vd va vb pm ty s
  | .vXor vd va vb pm ty => Sys2Proof.Machine.execVXor vd va vb pm ty s
  | .vShl vd va vb pm ty => Sys2Proof.Machine.execVShl vd va vb pm ty s
  | .vShr vd va vb pm ty => Sys2Proof.Machine.execVShr vd va vb pm ty s
  | .vSha vd va vb pm ty => Sys2Proof.Machine.execVSha vd va vb pm ty s
  | .vAbs vd va pm ty => Sys2Proof.Machine.execVAbs vd va pm ty s
  | .vNeg vd va pm ty => Sys2Proof.Machine.execVNeg vd va pm ty s
  | .vDiv vd va vb pm ty => Sys2Proof.Machine.execVDiv vd va vb pm ty s
  | .vMulh vd va vb pm ty => Sys2Proof.Machine.execVMulh vd va vb pm ty s
  | .vFma vd va vb vc pm ty => Sys2Proof.Machine.execVFma vd va vb vc pm ty s
  | .vCmp pd va vb pm ty cond => Sys2Proof.Machine.execVCmp pd va vb pm ty cond s
  | .vCvt vd va pm frm tgt => Sys2Proof.Machine.execVCvt vd va pm frm tgt s
  | .vRedAdd vd va pm ty => Sys2Proof.Machine.execVRedAdd vd va pm ty s
  | .vRedMin vd va pm ty => Sys2Proof.Machine.execVRedMin vd va pm ty s
  | .vRedMax vd va pm ty => Sys2Proof.Machine.execVRedMax vd va pm ty s
  | .vRedAnd vd va pm ty => Sys2Proof.Machine.execVRedAnd vd va pm ty s
  | .vRedOr vd va pm ty => Sys2Proof.Machine.execVRedOr vd va pm ty s
  | .vRedXor vd va pm ty => Sys2Proof.Machine.execVRedXor vd va pm ty s
  | .vPerm vd va vb pm w => Sys2Proof.Machine.execVPerm vd va vb pm w s
  | .vMovBcst vd s_ w => Sys2Proof.Machine.execVMovBcst vd s_ w s
  | .vMovMovs vd s_ idx w => Sys2Proof.Machine.execVMovMovs vd s_ idx w s
  | .vMovIns vd s_ idx w => Sys2Proof.Machine.execVMovIns vd s_ idx w s
  | .vMovP2s p s_ => Sys2Proof.Machine.execVMovP2s p s_ s
  | .vMovS2p p s_ => Sys2Proof.Machine.execVMovS2p p s_ s
  | .vSfRcp vd va pm => Sys2Proof.Machine.execVSfRcp vd va pm s
  | .vSfRsqrt vd va pm => Sys2Proof.Machine.execVSfRsqrt vd va pm s
  | .vSfExp2 vd va pm => Sys2Proof.Machine.execVSfExp2 vd va pm s
  | .vSfLog2 vd va pm => Sys2Proof.Machine.execVSfLog2 vd va pm s
  | .mxCfg a b => Sys2Proof.Machine.execMxCfg a b s
  | .mxZero d => Sys2Proof.Machine.execMxZero d s
  | .mxMma d a b => Sys2Proof.Machine.execMxMma d a b s
  | .mxDrain d => Sys2Proof.Machine.execMxDrain d s
  | .mxWait => Sys2Proof.Machine.execMxWait s
  | .sgLoad a b => Sys2Proof.Machine.execSgLoad a b s
  | .sgCommit a => Sys2Proof.Machine.execSgCommit a s
  | .sgStream a b => Sys2Proof.Machine.execSgStream a b s
  | .sgSbar a => Sys2Proof.Machine.execSgSbar a s
  | .sgWait d a b => Sys2Proof.Machine.execSgWait d a b s
  | .sgFreeze a => Sys2Proof.Machine.execSgFreeze a s
  | .sgThaw a => Sys2Proof.Machine.execSgThaw a s
  | .plAnd pd pa pb => Sys2Proof.Machine.execPlAnd pd pa pb s
  | .plOr pd pa pb => Sys2Proof.Machine.execPlOr pd pa pb s
  | .plXor pd pa pb => Sys2Proof.Machine.execPlXor pd pa pb s
  | .plAndn pd pa pb => Sys2Proof.Machine.execPlAndn pd pa pb s
  | .plNot pd pa => Sys2Proof.Machine.execPlNot pd pa s
  | .plSet pd => Sys2Proof.Machine.execPlSet pd s
  | .plClr pd => Sys2Proof.Machine.execPlClr pd s
  | .pcmp pd cond a b => Sys2Proof.Machine.execPcmp pd cond a b s
  | .ghPush d a b rel => Sys2Proof.Machine.execGhPush d a b rel s
  | .ghAdd d a b rel => Sys2Proof.Machine.execGhAdd d a b rel s
  | .ghSet d a b rel => Sys2Proof.Machine.execGhSet d a b rel s
  | .ghDone rel => Sys2Proof.Machine.execGhDone rel s
  | .ghSum d a => Sys2Proof.Machine.execGhSum d a s
  | .ghCfg a b => Sys2Proof.Machine.execGhCfg a b s
  | .ghDump d a b => Sys2Proof.Machine.execGhDump d a b s
  | .tkOpen d a => Sys2Proof.Machine.execTkOpen d a s
  | .tkRelease a => Sys2Proof.Machine.execTkRelease a s
  | .tkArm a b => Sys2Proof.Machine.execTkArm a b s
  | .tkDisarm a => Sys2Proof.Machine.execTkDisarm a s
  | .tkBudget a b => Sys2Proof.Machine.execTkBudget a b s
  | .tkCommit d a vb => Sys2Proof.Machine.execTkCommit d a vb s
  | .tkPeek d a vb => Sys2Proof.Machine.execTkPeek d a vb s
  | .tkRead d a b => Sys2Proof.Machine.execTkRead d a b s
  | .sysr d reg => Sys2Proof.Machine.execSysr d reg s
  | .sysw a reg => Sys2Proof.Machine.execSysw a reg s
  | .sysx d a reg => Sys2Proof.Machine.execSysx d a reg s
  | .xlInvVa a => Sys2Proof.Machine.execXlInvVa a s
  | .xlInvCtx => Sys2Proof.Machine.execXlInvCtx s
  | .xlSync => Sys2Proof.Machine.execXlSync s
  | .sigNop folio col row slot => Sys2Proof.Machine.execSigNop folio col row slot s
  | .sigMov folio col row slot => Sys2Proof.Machine.execSigMov folio col row slot s
  | .sigDup folio col row slot => Sys2Proof.Machine.execSigDup folio col row slot s
  | .sigEmit folio col row slot => Sys2Proof.Machine.execSigEmit folio col row slot s
  | .sigAdd folio col row slot => Sys2Proof.Machine.execSigAdd folio col row slot s
  | .sigSub folio col row slot => Sys2Proof.Machine.execSigSub folio col row slot s
  | .sigMul folio col row slot => Sys2Proof.Machine.execSigMul folio col row slot s
  | .sigFma folio col row slot => Sys2Proof.Machine.execSigFma folio col row slot s
  | .sigMin folio col row slot => Sys2Proof.Machine.execSigMin folio col row slot s
  | .sigMax folio col row slot => Sys2Proof.Machine.execSigMax folio col row slot s
  | .sigAnd folio col row slot => Sys2Proof.Machine.execSigAnd folio col row slot s
  | .sigOr folio col row slot => Sys2Proof.Machine.execSigOr folio col row slot s
  | .sigXor folio col row slot => Sys2Proof.Machine.execSigXor folio col row slot s
  | .sigShl folio col row slot => Sys2Proof.Machine.execSigShl folio col row slot s
  | .sigShr folio col row slot => Sys2Proof.Machine.execSigShr folio col row slot s
  | .sigSha folio col row slot => Sys2Proof.Machine.execSigSha folio col row slot s
  | .sigPcmp folio col row slot => Sys2Proof.Machine.execSigPcmp folio col row slot s
  | .sigSel folio col row slot => Sys2Proof.Machine.execSigSel folio col row slot s
  | .sigSteer folio col row slot => Sys2Proof.Machine.execSigSteer folio col row slot s
  | .sigGate folio col row slot => Sys2Proof.Machine.execSigGate folio col row slot s
  | .sigMerge folio col row slot => Sys2Proof.Machine.execSigMerge folio col row slot s
  | .sigIter folio col row slot => Sys2Proof.Machine.execSigIter folio col row slot s
  | .sigAcc folio col row slot => Sys2Proof.Machine.execSigAcc folio col row slot s
  | .sigNzsend folio col row slot => Sys2Proof.Machine.execSigNzsend folio col row slot s
  | .sigSink folio col row slot => Sys2Proof.Machine.execSigSink folio col row slot s
  | .sigCvt folio col row slot => Sys2Proof.Machine.execSigCvt folio col row slot s
  | .sigLd folio col row slot => Sys2Proof.Machine.execSigLd folio col row slot s
  | .sigSt folio col row slot => Sys2Proof.Machine.execSigSt folio col row slot s
  | .sigAtAdd folio col row slot => Sys2Proof.Machine.execSigAtAdd folio col row slot s
  | .sigAtMin folio col row slot => Sys2Proof.Machine.execSigAtMin folio col row slot s
  | .sigAtMax folio col row slot => Sys2Proof.Machine.execSigAtMax folio col row slot s
  | .sigAtOr folio col row slot => Sys2Proof.Machine.execSigAtOr folio col row slot s
  | .sigAtAnd folio col row slot => Sys2Proof.Machine.execSigAtAnd folio col row slot s
  | .sigAtXor folio col row slot => Sys2Proof.Machine.execSigAtXor folio col row slot s
  | .sigAtSwap folio col row slot => Sys2Proof.Machine.execSigAtSwap folio col row slot s
  | .sigAtCas folio col row slot => Sys2Proof.Machine.execSigAtCas folio col row slot s
  | .sigAtTas folio col row slot => Sys2Proof.Machine.execSigAtTas folio col row slot s
  | .sigCall folio col row slot => Sys2Proof.Machine.execSigCall folio col row slot s
  | .sigRet folio col row slot => Sys2Proof.Machine.execSigRet folio col row slot s
  | .sigRed folio col row slot => Sys2Proof.Machine.execSigRed folio col row slot s
  | .sigDiv folio col row slot => Sys2Proof.Machine.execSigDiv folio col row slot s
  | .sigSqrt folio col row slot => Sys2Proof.Machine.execSigSqrt folio col row slot s
  | .nBeatRuleBeat folio col row path => Sys2Proof.Machine.execNBeatRuleBeat folio col row path s
  | .lqpush ctx q hdr => Sys2Proof.Machine.execLqpush ctx q hdr s
  | .lqctlAbort ctx q => Sys2Proof.Machine.execLqctlAbort ctx q s
  | .lqstatClear ctx q v => Sys2Proof.Machine.execLqstatClear ctx q v s
  | .registerWrite off v => Sys2Proof.Machine.execRegisterWrite off v s
  | .bankSwitchDone core => Sys2Proof.Machine.execBankSwitchDone core s
  | .rampRateUpdate quire slots => Sys2Proof.Machine.execRampRateUpdate quire slots s
  | .launchHead ctx q => Sys2Proof.Machine.execLaunchHead ctx q s
  | .launchWaitSatisfied launch k => Sys2Proof.Machine.execLaunchWaitSatisfied launch k s
  | .kind3WaitPoll launch k => Sys2Proof.Machine.execKind3WaitPoll launch k s
  | .heapBind launch => Sys2Proof.Machine.execHeapBind launch s
  | .groupStart launch quire => Sys2Proof.Machine.execGroupStart launch quire s
  | .widStart launch thread => Sys2Proof.Machine.execWidStart launch thread s
  | .handlerStart thread => Sys2Proof.Machine.execHandlerStart thread s
  | .callbackTaskStart thread => Sys2Proof.Machine.execCallbackTaskStart thread s
  | .heapDispatch thread => Sys2Proof.Machine.execHeapDispatch thread s
  | .launchComplete launch => Sys2Proof.Machine.execLaunchComplete launch s
  | .packetArrival idx => Sys2Proof.Machine.execPacketArrival idx s
  | .packetDeferredAccept ctx core => Sys2Proof.Machine.execPacketDeferredAccept ctx core s
  | .fifoPopComplete thread => Sys2Proof.Machine.execFifoPopComplete thread s
  | .fifoPushComplete thread => Sys2Proof.Machine.execFifoPushComplete thread s
  | .tileReady core tile => Sys2Proof.Machine.execTileReady core tile s
  | .tileEmpty core tile => Sys2Proof.Machine.execTileEmpty core tile s
  | .waitvWake thread => Sys2Proof.Machine.execWaitvWake thread s
  | .waitlimitExpiry thread => Sys2Proof.Machine.execWaitlimitExpiry thread s
  | .waiteWake thread => Sys2Proof.Machine.execWaiteWake thread s
  | .barWaitReturn thread => Sys2Proof.Machine.execBarWaitReturn thread s
  | .copy thread => Sys2Proof.Machine.execCopy thread s
  | .fill thread => Sys2Proof.Machine.execFill thread s
  | .gather thread => Sys2Proof.Machine.execGather thread s
  | .scatter thread => Sys2Proof.Machine.execScatter thread s
  | .collate thread => Sys2Proof.Machine.execCollate thread s
  | .allred thread partials => Sys2Proof.Machine.execAllred thread partials s
  | .imageLoadComplete folio region => Sys2Proof.Machine.execImageLoadComplete folio region s
  | .commitBroadcast folio region => Sys2Proof.Machine.execCommitBroadcast folio region s
  | .invocationStart folio region => Sys2Proof.Machine.execInvocationStart folio region s
  | .loaderReadResponse folio col row => Sys2Proof.Machine.execLoaderReadResponse folio col row s
  | .storerAccept folio col row => Sys2Proof.Machine.execStorerAccept folio col row s
  | .gutterDrop folio col row out => Sys2Proof.Machine.execGutterDrop folio col row out s
  | .invocationEnd folio region => Sys2Proof.Machine.execInvocationEnd folio region s
  | .drainBoundExpiry folio region => Sys2Proof.Machine.execDrainBoundExpiry folio region s
  | .crossingCall folio region => Sys2Proof.Machine.execCrossingCall folio region s
  | .activationEnqueue ctx fifo => Sys2Proof.Machine.execActivationEnqueue ctx fifo s
  | .callbackPacketSend idx core => Sys2Proof.Machine.execCallbackPacketSend idx core s
  | .returnDelivery idx => Sys2Proof.Machine.execReturnDelivery idx s
  | .jointCfg quire array => Sys2Proof.Machine.execJointCfg quire array s
  | .jointZero quire array => Sys2Proof.Machine.execJointZero quire array s
  | .jointMma quire array => Sys2Proof.Machine.execJointMma quire array s
  | .jointDrain quire array => Sys2Proof.Machine.execJointDrain quire array s
  | .terminationWave launch => Sys2Proof.Machine.execTerminationWave launch s
  | .heapAbortUnbind launch => Sys2Proof.Machine.execHeapAbortUnbind launch s
  | .gets req unit grain => Sys2Proof.Machine.execGets req unit grain s
  | .getm req unit grain => Sys2Proof.Machine.execGetm req unit grain s
  | .upgrade req unit grain => Sys2Proof.Machine.execUpgrade req unit grain s
  | .putm req unit => Sys2Proof.Machine.execPutm req unit s
  | .puto req unit => Sys2Proof.Machine.execPuto req unit s
  | .fwdGets cache unit => Sys2Proof.Machine.execFwdGets cache unit s
  | .fwdGetm cache unit => Sys2Proof.Machine.execFwdGetm cache unit s
  | .inv cache unit => Sys2Proof.Machine.execInv cache unit s
  | .l2Eviction cache unit => Sys2Proof.Machine.execL2Eviction cache unit s
  | .homeTagEviction line => Sys2Proof.Machine.execHomeTagEviction line s
  | .snpdata pa => Sys2Proof.Machine.execSnpdata pa s
  | .snpinv pa => Sys2Proof.Machine.execSnpinv pa s
  | .snpcur pa => Sys2Proof.Machine.execSnpcur pa s
  | .hostCxlMemAccess pa data => Sys2Proof.Machine.execHostCxlMemAccess pa data s
  | .peerAccess peer pa data => Sys2Proof.Machine.execPeerAccess peer pa data s
  | .kind4StoreFailure core idx => Sys2Proof.Machine.execKind4StoreFailure core idx s
  | .poisonDetect key grain => Sys2Proof.Machine.execPoisonDetect key grain s
  | .zoreyLinkDown link => Sys2Proof.Machine.execZoreyLinkDown link s
  | .hostPortTrainingLoss port => Sys2Proof.Machine.execHostPortTrainingLoss port s
  | .deviceStart outcome => Sys2Proof.Machine.execDeviceStart outcome s
  | .createContext req => Sys2Proof.Machine.execCreateContext req s
  | .destroyContext => Sys2Proof.Machine.execDestroyContext s
  | .switchOut => Sys2Proof.Machine.execSwitchOut s
  | .switchIn slices moves => Sys2Proof.Machine.execSwitchIn slices moves s
  | .supervisorBoundExpiry ctx => Sys2Proof.Machine.execSupervisorBoundExpiry ctx s
  | .preemptionBoundExpiry folio region => Sys2Proof.Machine.execPreemptionBoundExpiry folio region s
  | .setRegionTable req => Sys2Proof.Machine.execSetRegionTable req s
  | .attest => Sys2Proof.Machine.execAttest s
  | .repair req => Sys2Proof.Machine.execRepair req s
  | .updateMainFirmware image auth => Sys2Proof.Machine.execUpdateMainFirmware image auth s
  | .unknownCommand => Sys2Proof.Machine.execUnknownCommand s
  | .debugHaltThread thread => Sys2Proof.Machine.execDebugHaltThread thread s
  | .debugResumeThread thread pc => Sys2Proof.Machine.execDebugResumeThread thread pc s
  | .debugReadThread thread off => Sys2Proof.Machine.execDebugReadThread thread off s
  | .debugWriteThread thread off v => Sys2Proof.Machine.execDebugWriteThread thread off v s
  | .debugWriteStepState thread step brk => Sys2Proof.Machine.execDebugWriteStepState thread step brk s
  | .debugFreezeRegion folio region => Sys2Proof.Machine.execDebugFreezeRegion folio region s
  | .debugStepRegion folio region => Sys2Proof.Machine.execDebugStepRegion folio region s
  | .debugThawRegion folio region => Sys2Proof.Machine.execDebugThawRegion folio region s
  | .debugReadRegion folio region off => Sys2Proof.Machine.execDebugReadRegion folio region off s
  | .debugWriteRegion folio region off v => Sys2Proof.Machine.execDebugWriteRegion folio region off v s
  | .illegalInstruction => Sys2Proof.Machine.execIllegalInstruction s
  | .instructionFetchFault => Sys2Proof.Machine.execInstructionFetchFault s
  | .tokenHop folio col row out pos => Sys2Proof.Machine.execTokenHop folio col row out pos s
  | .qflagsUpdate quire ctx => Sys2Proof.Machine.execQflagsUpdate quire ctx s
  | .powerFail step sub => Sys2Proof.Machine.execPowerFail step sub s
  | .mbdoorWriteWhileBusy => Sys2Proof.Machine.execMbdoorWriteWhileBusy s

end Sys2Proof.Machine
end

