-- ==== Sys2Proof/Machine/Issue.lean ====
section
/-! DEFINITION. The issue of instructions: the picker of a core (R39), breakpoints and halts at user boundaries (R67, R245),
and the acts of the model's schedule. -/

namespace Sys2Proof.Machine

/-- Whether a waiting thread uses an issue slot all the same: its instruction issues again, or its monitor has been hit (R39, R65), or
its context is being pre-empted, an event that ends a WAITV or a WAITE (R65, R234, R414). -/
def State.waitsToIssue (s : State) (n : Nat) : Bool :=
  match (s.thr n).wait with
  | .none => true
  | .retry => true
  | .half _ _ => true
  | .stream _ _ _ _ => true
  | .waitv _ _ _ _ _ _ =>
    (tget none (s.monitors.map fun e => (e.1, some e.2)) n).any (·.hit) || (s.ctx (s.thr n).ctx).leaving
  | .waite _ => (s.ctx (s.thr n).ctx).leaving
  | _ => false

/-- Whether a thread may issue (R39, R234): it has work of a context that is switched in, is not halted, does not wait for
another step, and does not stand at the boundary where a pre-emption stops it. -/
def State.mayIssue (s : State) (n : Nat) : Bool :=
  let t := s.thr n
  t.work != .free && !t.halted && s.waitsToIssue n && (s.ctx t.ctx).inn &&
  !((s.ctx t.ctx).leaving && t.mode == .user)

/-- The enabled breakpoint that the next user-mode instruction of a thread matches (R67): the lowest-numbered of several
(DESIGN CHOICE, log 113). -/
def Thread.breakpoint (t : Thread) : Option Nat :=
  if t.mode = .user ∧ t.skips = false then (upto 4).find? fun n => t.brkEnabled n && nth 0 t.brk.toList n == t.pc
  else none

/-- A step of thread n that would complete a store to a pinned line waits until the line is unpinned (R122; log 137): its instruction
issues again, as one that waits for other reasons does. -/
def State.awaitPins (s : State) (n : Nat) (r : Out) : Out :=
  match r with
  | .next s' =>
    if s.hitsPin s' then .next (s.setThr n { s.thr n with wait := if (s.thr n).wait = .none then .retry else (s.thr n).wait })
    else .next s'
  | o => o

/-- Whether an instruction keeps a place at a tile while it waits (R58). -/
def Instr.waitsAtTile : Instr → Bool
  | .tlFree _ => true
  | .tlWait _ _ => true
  | .mxDrain _ => true
  | .enq _ _ _ => true
  | _ => false

/-- Whether an instruction keeps a place at a FIFO while it issues again (R56). -/
def Instr.waitsAtFifo : Instr → Bool
  | .vLdx _ _ _ _ _ => true
  | _ => false

/-- A waiting thread issues again: what it has fetched may be another instruction by now (R193), and its waits where that one has no place
have ended. -/
def State.reissue (s : State) (i : Instr) : State :=
  if s.th.wait = .retry then
    let s := if Instr.waitsAtTile i then s else s.leaveTiles s.cur
    if Instr.waitsAtFifo i then s else s.dropLoads s.cur []
  else s

/-- A thread that no longer waits to issue again, as it has completed, trapped or halted, stands in no list of waiting instructions. -/
def State.endWaits (s : State) (n : Nat) (r : Out) : Out :=
  match r with
  | .next s' => .next (if (s.thr n).wait = .retry ∧ (s'.thr n).wait = .none then s'.leaveWaits n else s')
  | o => o

/-- Thread n issues: a halt or a breakpoint ahead of the instruction, a fetch fault, an illegal word, or the
instruction's own effect (R67, R229). -/
def State.issueThread (s : State) (n : Nat) : Out :=
  let s := { s with cur := n }
  let t := s.th
  s.endWaits n <|
    if t.haltAsked = true ∧ t.mode = .user then .next (s.setTh { t with halted := true, haltAsked := false, wait := .none })
    else
      match t.breakpoint with
      | some b =>
        if t.stepHalts then .next (s.setTh { t with halted := true, wait := .none })
        else finish s (trapV 0x0C (BitVec.ofNat 64 b))
      | none =>
        s.awaitPins n <|
          match s.fetchInstr with
          | (.fault _ _, s') => exec .instructionFetchFault s'
          | (.illegal, s') => exec .illegalInstruction s'
          | (.instr i, s') => exec i (s'.reissue i)

/-- Whether a thread waits in WAITV or WAITE. -/
def Thread.waiting (t : Thread) : Bool :=
  match t.wait with
  | .waitv _ _ _ _ _ _ => true
  | .waite _ => true
  | _ => false

/-- Whether a wait is that of an instruction that issues again until it can complete. -/
def Wait.retries : Wait → Bool
  | .retry => true
  | .stream _ _ _ _ => true
  | _ => false

/-- Issues at the first thread of a list that can use the slot: a thread whose monitor has been hit, or whose context is
being pre-empted, returns from its WAITV or WAITE (R65, R414), a thread that yielded is passed over once, and a thread whose waiting instruction still cannot complete takes no slot
(R39, R283). -/
def State.issueFirst (s : State) (core : Nat) : List Nat → Out
  | [] => .next s
  | n :: ns =>
    if s.mayIssue n = false then s.issueFirst core ns
    else if (s.thr n).waiting then
      if s.hitsPin (s.contextEvent n) then s.issueFirst core ns
      else .next ((s.contextEvent n).setCore core { (s.contextEvent n).core core with lastIssue := n % 4 })
    else if (s.thr n).yielded then (s.setThr n { s.thr n with yielded := false }).issueFirst core ns
    else
      match s.issueThread n with
      | .next s' =>
        if (s.thr n).wait.retries = true ∧ (s'.thr n).wait = (s.thr n).wait then s'.issueFirst core ns
        else .next (s'.setCore core { s'.core core with lastIssue := n % 4 })
      | o => o

/-- The threads of a core in the picker's order (R39): round robin, after the thread selected last. -/
def State.pickOrder (s : State) (core : Nat) : List Nat :=
  (upto 4).map fun i => 4 * core + ((s.core core).lastIssue + 1 + i) % 4

/-- One issue slot of a core. -/
def State.issueAt (s : State) (core : Nat) : Out := s.issueFirst core (s.pickOrder core)

/-- A step of the device or the host that a schedule may name: not an instruction that a thread fetches. -/
def Instr.scheduled (i : Instr) : Bool := encode i == [] && i != .illegalInstruction && i != .instructionFetchFault

/-- A step of the device or the host that would complete a write to a pinned line does not happen yet (R122; log 137). -/
def State.unlessPinned (s : State) (r : Out) : Out :=
  match r with
  | .next s' => if s.hitsPin s' then .next s else .next s'
  | o => o

/-- What the schedule's next act does, pins apart. -/
def State.actNow (s : State) : Act → Out
  | .event i => if Instr.scheduled i then exec i s else .next s
  | .issue core => s.issueAt core
  | .evictL1 core line => .next (s.l1Drop core (64 * line))
  | .deliver core index => .next (s.deliverEntry core index)
  | .evictTlb index => .next { s with tlbs := dropNth s.tlbs index }
  | .outsideWrite pa bytes => .next (s.outsideWrite pa bytes)
  | .outsideDamage pa n => .next (if 2 ^ 50 ≤ pa ∧ pa < 2 ^ 52 then { s with poison := (pa, n) :: s.poison } else s)
  | .outsideTurn r => .next { s with turned := r :: s.turned }
  | .outsideTake => .next { s with turned := [] }
  | .pin array op va => .next (s.pinAhead array op va)
  | .hostRead port off => .next (s.hostRead port off)
  | .setDecoder port k lo len => .next (s.setDecoder port k lo len)
  | .exportRange lo len => .next (s.exportRange lo len)
  | .exportNothing => .next s.exportNothing
  | .flash main slot image => .next (s.flash main slot image)
  | .flashBlocks blocks => .next (s.flashBlocks blocks)
  | .dropFetched thread va => .next (s.setThr thread { s.thr thread with ibuf := terase (s.thr thread).ibuf va })

/-- What the schedule's next act does. -/
def State.act (s : State) (a : Act) : Out := s.unlessPinned (s.actNow a)

/-- Time passes: at least one cycle a step (log 8). -/
def State.tick (s : State) : State :=
  { s with cycle := s.cycle + 1 + Config.extraCycles s.cycle, time := s.time + Config.nanos s.cycle }

/-- Time passes after what a step answers. -/
def tickOut : Out → Out
  | .next s => .next s.tick
  | o => o

/-- Without power only a start of the device happens, or one that loses power again (R259). -/
def Act.starts : Act → Bool
  | .event (.deviceStart _) => true
  | .event (.powerFail _ _) => true
  | _ => false

end Sys2Proof.Machine
end

