-- ==== Sys2Proof/Machine/Step.lean ====
section
/-! DEFINITION. The one step of the machine, and a state placed to run one instruction. -/

namespace Sys2Proof.Machine

/-- One step: the next act of the schedule, or, where it is empty, an issue slot of the core of the thread that issued
last; then time passes. Without power only a start of the device happens. -/
def step (s : State) : Host.Outcome State Fault Refusal :=
  match s.agenda with
  | [] => if s.dev.power then tickOut (s.issueAt s.myCore) else .fault .noPower
  | a :: rest =>
    if s.dev.power || a.starts then tickOut (State.act { s with agenda := rest } a) else .fault .noPower

/-- The page tables of a context whose first page, virtual 0, is one executable, readable and writable page of kind 0
(R154, R155): root at 0x100000, tables at 0x11000 to 0x13000, the page at 0x14000. -/
def State.withTables (s : State) : State :=
  { s with
    mem := setBytes (setBytes (setBytes (setBytes s.mem 0x100000 (leBytes 8 0x11001)) 0x11000 (leBytes 8 0x12001))
      0x12000 (leBytes 8 0x13001)) 0x13000 (leBytes 8 (0x14000 + 0x9F)) }

/-- The state with the instruction of nbits and bits w where the next step fetches: context 0 live and switched in on
quire 0 with a page of code at address 0, thread 0 running a WID of it in user mode at pc 0, nothing scheduled. It stands
for a host that created the context and launched one WID (log 1). -/
def State.withFetchWord (s : State) (nbits w : Nat) : State :=
  let s := s.withTables
  let x := w % 2 ^ nbits
  let s := { s with mem := setBytes s.mem 0x14000 (wordsBytes [x, x / 2 ^ 32, x / 2 ^ 64])
                    poison := [], agenda := [], cur := 0, tlbs := [], dev := { s.dev with power := true } }
  let s := s.setCtx 0 { s.ctx 0 with live := true, inn := true, leaving := false, root := 0x100000, allowed := 1 }
  let s := s.setQuire 0 { s.quire 0 with slices := [0] }
  let s := s.setCore 0 { s.core 0 with lastIssue := 3 }
  s.setThr 0
    { s.thr 0 with work := .wid 0 0, ctx := 0, pc := 0, mode := .user, halted := false, haltAsked := false, yielded := false
                   wait := .none, ibuf := [], stepctl := 0 }

end Sys2Proof.Machine
end

