-- ==== Sys2Proof/Safety.lean ====
section
/-! DEFINITION. What counts as a good state and a safe run of the machine, and the words in which the claims are put. -/

namespace Sys2Proof

open Machine

/-- A run of k steps is safe when the machine answers a state: no step of it stopped. -/
def SafeRun (k : Nat) (s : State) : Prop := ∃ t, core.run k s = .next t

/-- Memory lists its bytes in the one canonical form, so that equal memories are equal data (R2, log 5). -/
def MemCanonical (s : State) : Prop := Memory.wf s.mem = true

/-- The issuing thread does not single-step a user-mode instruction (R67). -/
def Quiet (s : State) : Prop := s.th.mode = .supervisor ∨ s.th.stepping = false

/-- t is s with nothing changed but the issuing thread, which is x. -/
def OnlyThread (s t : State) (x : Thread) : Prop :=
  t = { s with threads := t.threads } ∧ ∀ n, t.thr n = if n = s.cur then x else s.thr n

/-- A thread that has completed an instruction with its next pc: it waits for nothing, and a SKIP of user mode has
ended (R66). -/
def moved (x : Thread) (pc : Word) : Thread := { x.endSkip with pc := pc, wait := .none }

/-- The instruction answers a next state in which only the issuing thread differs: it is x with its next pc. -/
def Completes (i : Instr) (s : State) (x : Thread) (pc : Word) : Prop :=
  ∃ t, exec i s = .next t ∧ OnlyThread s t (moved x pc)

/-- The thread x after a precise trap at its pc (R228, R230): in user mode with a vector, supervisor mode at the vector
with the trap registers; else halted as by a double trap. -/
def trapped (s : State) (x : Thread) (cause : Nat) (val : Word) : Thread :=
  x.takeTrap (s.ctx x.ctx).trapvec (atTrap x cause val 0)

/-- The instruction takes a precise trap with a cause and a value and does nothing else. -/
def Traps (i : Instr) (s : State) (cause : Nat) (val : Word) : Prop :=
  ∃ t, exec i s = .next t ∧ OnlyThread s t (trapped s s.th cause val)

end Sys2Proof
end

