-- ==== Sys2Proof/Certificates/Slice0/Obligations.lean ====
section
/-! DEFINITION. The statements for the provers, from the numbered rules of the spec, and the tables they are put in. -/

namespace Sys2Proof.Says

open Machine

/-! Values, written from the rules and not from the meanings. -/

/-- The 64-bit value of a condition. -/
def truth (p : Prop) [Decidable p] : Word := if p then 1 else 0

/-- The low 32 bits as a signed integer. -/
def int32 (x : Word) : Int := (x.setWidth 32).toInt

/-- The low 32 bits as an unsigned integer. -/
def nat32 (x : Word) : Nat := x.toNat % 2 ^ 32

/-- An integer cut to 32 bits and sign-extended: the result of a .W form (R282). -/
def word32 (n : Int) : Word := (BitVec.ofInt 32 n).signExtend 64

/-- Signed and unsigned division and remainder of R145: division by zero gives all ones, and the dividend. -/
def quot (x y : Int) : Int := if y = 0 then -1 else x.tdiv y
def quotN (w x y : Nat) : Nat := if y = 0 then 2 ^ w - 1 else x / y
def remain (x y : Int) : Int := if y = 0 then x else x.tmod y
def remainN (x y : Nat) : Nat := if y = 0 then x else x % y

/-- The positions of a word's bits from the bottom. -/
def positions : List Nat := List.range 64

/-- The integer row (R282, R145, R341): the register that an instruction writes and the value. -/
def intResult (s : State) : Instr → Option (SReg × Word)
  | .add d a b => some (d, BitVec.ofInt 64 ((s.rs a).toInt + (s.rs b).toInt))
  | .addW d a b => some (d, word32 (int32 (s.rs a) + int32 (s.rs b)))
  | .sub d a b => some (d, BitVec.ofInt 64 ((s.rs a).toInt - (s.rs b).toInt))
  | .subW d a b => some (d, word32 (int32 (s.rs a) - int32 (s.rs b)))
  | .and d a b => some (d, s.rs a &&& s.rs b)
  | .andW d a b => some (d, sext32 (s.rs a &&& s.rs b))
  | .or d a b => some (d, s.rs a ||| s.rs b)
  | .orW d a b => some (d, sext32 (s.rs a ||| s.rs b))
  | .xor d a b => some (d, s.rs a ^^^ s.rs b)
  | .xorW d a b => some (d, sext32 (s.rs a ^^^ s.rs b))
  | .andn d a b => some (d, s.rs a &&& ~~~(s.rs b))
  | .andnW d a b => some (d, sext32 (s.rs a &&& ~~~(s.rs b)))
  | .shl d a b => some (d, BitVec.ofNat 64 ((s.rs a).toNat * 2 ^ ((s.rs b).toNat % 64)))
  | .shlW d a b => some (d, word32 (nat32 (s.rs a) * 2 ^ ((s.rs b).toNat % 32) : Nat))
  | .shr d a b => some (d, BitVec.ofNat 64 ((s.rs a).toNat / 2 ^ ((s.rs b).toNat % 64)))
  | .shrW d a b => some (d, word32 (nat32 (s.rs a) / 2 ^ ((s.rs b).toNat % 32) : Nat))
  | .sha d a b => some (d, BitVec.ofInt 64 ((s.rs a).toInt / 2 ^ ((s.rs b).toNat % 64)))
  | .shaW d a b => some (d, word32 (int32 (s.rs a) / 2 ^ ((s.rs b).toNat % 32)))
  | .slt d a b => some (d, truth ((s.rs a).toInt < (s.rs b).toInt))
  | .sltW d a b => some (d, truth (int32 (s.rs a) < int32 (s.rs b)))
  | .sltn d a b => some (d, truth ((s.rs a).toNat < (s.rs b).toNat))
  | .sltnW d a b => some (d, truth (nat32 (s.rs a) < nat32 (s.rs b)))
  | .min d a b => some (d, BitVec.ofInt 64 (min (s.rs a).toInt (s.rs b).toInt))
  | .minW d a b => some (d, word32 (min (int32 (s.rs a)) (int32 (s.rs b))))
  | .max d a b => some (d, BitVec.ofInt 64 (max (s.rs a).toInt (s.rs b).toInt))
  | .maxW d a b => some (d, word32 (max (int32 (s.rs a)) (int32 (s.rs b))))
  | .minn d a b => some (d, BitVec.ofNat 64 (min (s.rs a).toNat (s.rs b).toNat))
  | .minnW d a b => some (d, word32 (min (nat32 (s.rs a)) (nat32 (s.rs b)) : Nat))
  | .maxn d a b => some (d, BitVec.ofNat 64 (max (s.rs a).toNat (s.rs b).toNat))
  | .maxnW d a b => some (d, word32 (max (nat32 (s.rs a)) (nat32 (s.rs b)) : Nat))
  | .clz d a => some (d, BitVec.ofNat 64 (positions.reverse.takeWhile fun i => !(s.rs a).getLsbD i).length)
  | .ctz d a => some (d, BitVec.ofNat 64 (positions.takeWhile fun i => !(s.rs a).getLsbD i).length)
  | .popc d a => some (d, BitVec.ofNat 64 (positions.filter fun i => (s.rs a).getLsbD i).length)
  | .brev d a => some (d, BitVec.ofNat 64 ((positions.map fun i => ((s.rs a).getLsbD (63 - i)).toNat * 2 ^ i).sum))
  | .bswap d a => some (d, BitVec.ofNat 64 (((List.range 8).map fun i => (s.rs a).toNat / 2 ^ (8 * i) % 256 * 2 ^ (56 - 8 * i)).sum))
  | .sel d a p => some (d, if (s.rp p).getLsbD 0 then s.rs a else s.rs d)
  | .mul d a b => some (d, BitVec.ofInt 64 ((s.rs a).toInt * (s.rs b).toInt))
  | .mulW d a b => some (d, word32 (int32 (s.rs a) * int32 (s.rs b)))
  | .mulh d a b => some (d, BitVec.ofInt 64 ((s.rs a).toInt * (s.rs b).toInt / 2 ^ 64))
  | .mulhn d a b => some (d, BitVec.ofInt 64 (((s.rs a).toNat : Int) * (s.rs b).toNat / 2 ^ 64))
  | .mulhsn d a b => some (d, BitVec.ofInt 64 ((s.rs a).toInt * (s.rs b).toNat / 2 ^ 64))
  | .div d a b => some (d, BitVec.ofInt 64 (quot (s.rs a).toInt (s.rs b).toInt))
  | .divW d a b => some (d, word32 (quot (int32 (s.rs a)) (int32 (s.rs b))))
  | .divn d a b => some (d, BitVec.ofNat 64 (quotN 64 (s.rs a).toNat (s.rs b).toNat))
  | .divnW d a b => some (d, word32 (quotN 32 (nat32 (s.rs a)) (nat32 (s.rs b))))
  | .rem d a b => some (d, BitVec.ofInt 64 (remain (s.rs a).toInt (s.rs b).toInt))
  | .remW d a b => some (d, word32 (remain (int32 (s.rs a)) (int32 (s.rs b))))
  | .remn d a b => some (d, BitVec.ofNat 64 (remainN (s.rs a).toNat (s.rs b).toNat))
  | .remnW d a b => some (d, word32 (remainN (nat32 (s.rs a)) (nat32 (s.rs b))))
  | .addi d a i => some (d, BitVec.ofInt 64 ((s.rs a).toInt + i.toInt))
  | .andi d a i => some (d, s.rs a &&& BitVec.ofInt 64 i.toInt)
  | .ori d a i => some (d, s.rs a ||| BitVec.ofInt 64 i.toInt)
  | .xori d a i => some (d, s.rs a ^^^ BitVec.ofInt 64 i.toInt)
  | .shli d a n => some (d, BitVec.ofNat 64 ((s.rs a).toNat * 2 ^ n.toNat))
  | .shri d a n => some (d, BitVec.ofNat 64 ((s.rs a).toNat / 2 ^ n.toNat))
  | .shai d a n => some (d, BitVec.ofInt 64 ((s.rs a).toInt / 2 ^ n.toNat))
  | .slti d a i => some (d, truth ((s.rs a).toInt < i.toInt))
  | .sltni d a i => some (d, truth ((s.rs a).toNat < (BitVec.ofInt 64 i.toInt).toNat))
  | .lih d i => some (d, BitVec.ofInt 64 (i.toInt * 2 ^ 13))
  | .addpc d i => some (d, BitVec.ofInt 64 (s.th.pc.toInt + i.toInt))
  | _ => none

/-- The long immediate of a chain (R279): the first prefix highest, the bearing instruction's 13 bits lowest. -/
def longImm (first : BitVec 25) : Option (BitVec 25) → BitVec 13 → Int
  | none, i => first.toInt * 2 ^ 13 + i.toNat
  | some q, i => (first.toInt * 2 ^ 25 + q.toNat) * 2 ^ 13 + i.toNat

/-- The result of the immediate-bearing instruction of a chain with the long immediate n (R279, R282). -/
def tailResult (s : State) (n : Int) : ImmTail → Option (SReg × Word)
  | .addi d a _ => some (d, BitVec.ofInt 64 ((s.rs a).toInt + n))
  | .andi d a _ => some (d, s.rs a &&& BitVec.ofInt 64 n)
  | .ori d a _ => some (d, s.rs a ||| BitVec.ofInt 64 n)
  | .xori d a _ => some (d, s.rs a ^^^ BitVec.ofInt 64 n)
  | .slti d a _ => some (d, truth ((s.rs a).toInt < n))
  | .sltni d a _ => some (d, truth ((s.rs a).toNat < (BitVec.ofInt 64 n).toNat))
  | .notBearing => none

/-- The 13 bits of the immediate-bearing instruction of a chain. -/
def tailImm : ImmTail → BitVec 13
  | .addi _ _ i => i
  | .andi _ _ i => i
  | .ori _ _ i => i
  | .xori _ _ i => i
  | .slti _ _ i => i
  | .sltni _ _ i => i
  | .notBearing => 0

/-- The bytes a branch displacement stands for (R283). -/
def away {w : Nat} (pc : Word) (i : BitVec w) : Word := BitVec.ofInt 64 (pc.toInt + 4 * i.toInt)

/-- When a branch is taken and where to (R283, R338). -/
def branchTo (s : State) : Instr → Option (Bool × Word)
  | .bEq a b i => some (s.rs a = s.rs b, away s.th.pc i)
  | .bNe a b i => some (s.rs a ≠ s.rs b, away s.th.pc i)
  | .bLt a b i => some ((s.rs a).toInt < (s.rs b).toInt, away s.th.pc i)
  | .bGe a b i => some ((s.rs b).toInt ≤ (s.rs a).toInt, away s.th.pc i)
  | .bLtn a b i => some ((s.rs a).toNat < (s.rs b).toNat, away s.th.pc i)
  | .bGen a b i => some ((s.rs b).toNat ≤ (s.rs a).toNat, away s.th.pc i)
  | .bp p .any i => some (s.rp p ≠ 0, away s.th.pc i)
  | .bp p .all i => some (s.rp p = BitVec.allOnes 64, away s.th.pc i)
  | .bp p .none i => some (s.rp p = 0, away s.th.pc i)
  | .bp p .notall i => some (s.rp p ≠ BitVec.allOnes 64, away s.th.pc i)
  | .j i => some (true, away s.th.pc i)
  | _ => none

/-! Accesses to memory. -/

/-- What a scalar load or store names: its register, its effective address, its bytes, whether the value is
sign-extended, its semantics and scope, and the stamp of its address registers (R284). -/
structure Access where
  reg    : SReg
  ea     : Word
  size   : Nat
  signed : Bool
  sem    : Sem
  scope  : Scope
  stamp  : Nat

/-- s[base] + sext(off9, 9) × size (R284). -/
def fmAt (s : State) (base : SReg) (off : BitVec 9) (size : Nat) : Word :=
  BitVec.ofInt 64 ((s.rs base).toInt + size * off.toInt)

/-- Bytes of an LDX or STX size and whether it sign-extends (R284). -/
def sizeOf : XSize → Nat × Bool
  | .b => (1, true)
  | .h => (2, true)
  | .w => (4, true)
  | .d => (8, true)
  | .nb => (1, false)
  | .nh => (2, false)
  | .nw => (4, false)
  | .q => (16, false)

/-- s[a] + s[b] × size (R284). -/
def xAt (s : State) (a b : SReg) (z : XSize) : Word := s.rs a + s.rs b * BitVec.ofNat 64 (sizeOf z).1

/-- The scalar loads (R284, R370, R372). -/
def loadForm (s : State) : Instr → Option Access
  | .ldB t b m c o => some ⟨t, fmAt s b o 1, 1, true, m, c, s.ss b⟩
  | .ldH t b m c o => some ⟨t, fmAt s b o 2, 2, true, m, c, s.ss b⟩
  | .ldW t b m c o => some ⟨t, fmAt s b o 4, 4, true, m, c, s.ss b⟩
  | .ldD t b m c o => some ⟨t, fmAt s b o 8, 8, true, m, c, s.ss b⟩
  | .ldNb t b m c o => some ⟨t, fmAt s b o 1, 1, false, m, c, s.ss b⟩
  | .ldNh t b m c o => some ⟨t, fmAt s b o 2, 2, false, m, c, s.ss b⟩
  | .ldNw t b m c o => some ⟨t, fmAt s b o 4, 4, false, m, c, s.ss b⟩
  | .ldQ t b m c o => some ⟨t, fmAt s b o 16, 16, false, m, c, s.ss b⟩
  | .ldx t a b z m c => some ⟨t, xAt s a b z, (sizeOf z).1, (sizeOf z).2, m, c, max (s.ss a) (s.ss b)⟩
  | _ => none

/-- The scalar stores (R284, R407, R410). -/
def storeForm (s : State) : Instr → Option Access
  | .stB t b m c o => some ⟨t, fmAt s b o 1, 1, false, m, c, 0⟩
  | .stH t b m c o => some ⟨t, fmAt s b o 2, 2, false, m, c, 0⟩
  | .stW t b m c o => some ⟨t, fmAt s b o 4, 4, false, m, c, 0⟩
  | .stD t b m c o => some ⟨t, fmAt s b o 8, 8, false, m, c, 0⟩
  | .stQ t b m c o => some ⟨t, fmAt s b o 16, 16, false, m, c, 0⟩
  | .stx t a b z m c => some ⟨t, xAt s a b z, (sizeOf z).1, false, m, c, 0⟩
  | _ => none

/-- The address of an access is canonical and aligned to its size (R151, R370, R407). -/
def Placed (x : Access) : Prop := canonical x.ea = true ∧ x.ea.toNat % x.size = 0

/-- A site that holds bytes: no device register, and of a scratchpad window a bank in the scratchpad role (R55). -/
def Bytes (s : State) (site : Site) (n : Nat) : Prop :=
  site.kind ≠ 5 ∧ (site.kind = 6 → s.bankAt s.myQuire site.off n = .scratch)

/-- The bytes that a store of a register writes, lowest first (R407): n low bytes, of the pair for 16. -/
def stored (s : State) (r : SReg) (n : Nat) : List Byte :=
  leBytes n ((s.rs r).toNat + 2 ^ 64 * (s.rs (r + 1)).toNat)

/-- An access that is made in two halves of 8 bytes (R177): 16 bytes of kind 3 or 4. -/
def Halves (x : Access) (site : Site) : Prop := x.size = 16 ∧ (site.kind = 3 ∨ site.kind = 4)

/-- The cells of the store units of an access, in order (R177). -/
def unitsOf (site : Site) (cs : List Host.Cell) : List (List Host.Cell) :=
  if cs.length = 16 ∧ (site.kind = 3 ∨ site.kind = 4) then [cs.take 8, cs.drop 8] else [cs]

/-- The thread with the value of a load (R370): the low half in the register, for 16 bytes the high half in the next. -/
def loaded (x : Thread) (a : Access) (v stamp : Nat) : Thread :=
  if a.size = 16 then (x.ws a.reg (BitVec.ofNat 64 v) stamp).ws (a.reg + 1) (BitVec.ofNat 64 (v / 2 ^ 64)) stamp
  else x.ws a.reg (if a.signed then (BitVec.ofNat (8 * a.size) v).signExtend 64 else BitVec.ofNat 64 (v % 2 ^ (8 * a.size))) stamp

/-- Memory after bytes are written at a key: those bytes there, every other byte as before. -/
def Written (m m' : List Host.Cell) (key : Nat) (bs : List Byte) : Prop :=
  ∀ k, byteAt m' k = if key ≤ k ∧ k < key + bs.length then nth 0 bs (k - key) else byteAt m k

/-- What an atomic names (R285, R328 to R332): its address, its bytes, the register that takes the old value and the
operand's, whether PCIe has the operation, the new value of its site from the old, and how the old value is extended. -/
structure Atomic where
  reg   : SReg
  ea    : Word
  size  : Nat
  sem   : Sem
  scope : Scope
  pcie  : Bool
  new   : Nat → Nat
  ext   : Nat → Word

/-- Signed readings of w bits. -/
def signedN (w n : Nat) : Int := (BitVec.ofNat w n).toInt

/-- The atomics of one register (R285, R328 to R331). -/
def atomicForm (s : State) : Instr → Option Atomic
  | .atAAdd d a b m c => some ⟨d, s.rs a, 8, m, c, true, fun o => o + (s.rs b).toNat, BitVec.ofNat 64⟩
  | .atAAnd d a b m c => some ⟨d, s.rs a, 8, m, c, false, fun o => o &&& (s.rs b).toNat, BitVec.ofNat 64⟩
  | .atAOr d a b m c => some ⟨d, s.rs a, 8, m, c, false, fun o => o ||| (s.rs b).toNat, BitVec.ofNat 64⟩
  | .atAXor d a b m c => some ⟨d, s.rs a, 8, m, c, false, fun o => o ^^^ (s.rs b).toNat, BitVec.ofNat 64⟩
  | .atASwap d a b m c => some ⟨d, s.rs a, 8, m, c, true, fun _ => (s.rs b).toNat, BitVec.ofNat 64⟩
  | .atAMin d a b m c =>
    some ⟨d, s.rs a, 8, m, c, false, fun o => if (s.rs b).toInt < signedN 64 o then (s.rs b).toNat else o, BitVec.ofNat 64⟩
  | .atAMax d a b m c =>
    some ⟨d, s.rs a, 8, m, c, false, fun o => if signedN 64 o < (s.rs b).toInt then (s.rs b).toNat else o, BitVec.ofNat 64⟩
  | .atAFadd d a b m c =>
    some ⟨d, s.rs a, 8, m, c, false, fun o => (fAddBits fp64 0 o (s.rs b).toNat).1, BitVec.ofNat 64⟩
  | .atWAdd d a b m c => some ⟨d, s.rs a, 4, m, c, true, fun o => o + nat32 (s.rs b), sextN 32⟩
  | .atWAnd d a b m c => some ⟨d, s.rs a, 4, m, c, false, fun o => o &&& nat32 (s.rs b), sextN 32⟩
  | .atWOr d a b m c => some ⟨d, s.rs a, 4, m, c, false, fun o => o ||| nat32 (s.rs b), sextN 32⟩
  | .atWXor d a b m c => some ⟨d, s.rs a, 4, m, c, false, fun o => o ^^^ nat32 (s.rs b), sextN 32⟩
  | .atWSwap d a b m c => some ⟨d, s.rs a, 4, m, c, true, fun _ => nat32 (s.rs b), sextN 32⟩
  | .atWMin d a b m c =>
    some ⟨d, s.rs a, 4, m, c, false, fun o => if int32 (s.rs b) < signedN 32 o then nat32 (s.rs b) else o, sextN 32⟩
  | .atWMax d a b m c =>
    some ⟨d, s.rs a, 4, m, c, false, fun o => if signedN 32 o < int32 (s.rs b) then nat32 (s.rs b) else o, sextN 32⟩
  | .atWFadd d a b m c => some ⟨d, s.rs a, 4, m, c, false, fun o => (fAddBits fp32 0 o (nat32 (s.rs b))).1, sextN 32⟩
  | .atNMinn d a b m c => some ⟨d, s.rs a, 8, m, c, false, fun o => min o (s.rs b).toNat, BitVec.ofNat 64⟩
  | .atNMaxn d a b m c => some ⟨d, s.rs a, 8, m, c, false, fun o => max o (s.rs b).toNat, BitVec.ofNat 64⟩
  | .atNIncw d a b m c => some ⟨d, s.rs a, 4, m, c, false, fun o => if nat32 (s.rs b) ≤ o then 0 else o + 1, zextN 32⟩
  | .atNDecw d a b m c =>
    some ⟨d, s.rs a, 4, m, c, false, fun o => if o = 0 ∨ nat32 (s.rs b) < o then nat32 (s.rs b) else o - 1, zextN 32⟩
  | .atNFmin d a b m c => some ⟨d, s.rs a, 8, m, c, false, fun o => (fMinBits fp64 o (s.rs b).toNat).1, BitVec.ofNat 64⟩
  | .atNFmax d a b m c => some ⟨d, s.rs a, 8, m, c, false, fun o => (fMaxBits fp64 o (s.rs b).toNat).1, BitVec.ofNat 64⟩
  | .atCas d a b m c =>
    some ⟨d, s.rs a, 8, m, c, true, fun o => if o = (s.rs d).toNat then (s.rs b).toNat else o, BitVec.ofNat 64⟩
  | _ => none

/-- A site that an atomic may act on (R153, R174, R330): kinds 0 to 2, kind 4, kind 3 where PCIe has the operation and its
completer performs it, and a scratchpad bank. -/
def AtomicSite (s : State) (site : Site) (n : Nat) (pcie : Bool) : Prop :=
  Bytes s site n ∧ (site.kind = 3 → pcie = true ∧ s.turnsAway site.key n (n == 16) = false)

/-! Engines and joint arrays. -/

/-- The commands of the engines (R351 to R354): thread, engine, code, and what the engine does for a command. -/
def engineForm (s : State) : Instr → Option (Nat × Engine × Nat × (Who → Cmd → Option Done))
  | .copy n => some (n, .copy, 0, fun w c => some (s.doCopy w c.a c.b))
  | .fill n => some (n, .copy, 1, fun w c => some (s.doFill w c.a c.b))
  | .gather n => some (n, .gather, 0, fun w c => some (s.doGather w c.a))
  | .scatter n => some (n, .gather, 1, fun w c => some (s.doScatter w c.a))
  | .collate n => some (n, .collective, 0, fun w c => some (s.doCollate w c.a c.work))
  | .allred n ps => some (n, .collective, 1, fun w c => s.doAllred w c.a ps)
  | _ => none

/-- The position of the issuing thread in its row (R113). -/
def position (s : State) : Nat := s.myCore % 16

/-- No MMA of the issuing thread waits for its operands, so that no read of one comes before an access of the thread (R122). -/
def NoReads (s : State) : Prop := s.myArray.hasMember s.cur = true → tget [] s.myArray.contribs (position s) = []

/-- The contribution that an MX instruction makes, where its checks pass (R116, R118, R120, R124). -/
def mxForm (s : State) : Instr → Option Contrib
  | .mxCfg a b => if cfgLegal (s.rs a) ∧ (s.rs b).toNat % 2 = 0 then some ⟨0, 0, s.rs a, s.rs b⟩ else none
  | .mxZero d => some ⟨1, s.rs d, 0, 0⟩
  | .mxDrain d =>
    if bits (s.rs d) 15 5 = 0 ∧ bits (s.rs d) 63 18 = 0 ∧ bit (s.rs d) 17 = true then some ⟨3, s.rs d, 0, 0⟩ else none
  | _ => none

/-- The thread is a member of the formed gang of its row (R117). -/
def Member (s : State) : Prop := s.myArray.formed = true ∧ s.myArray.hasMember s.cur = true

/-- Row r of A and row n of B of an array's next operation, as the fetch unit reads them (R120): elements, exponent pairs,
poison. -/
def aRow (s : State) (x : JArray) (r : Nat) : List Nat × List (Nat × Nat) × Bool :=
  s.operandRow x (cfgIn x.cfg) (bits (x.headOf 0).d 15 0) x.xoff
    ((x.headOf (r / 8)).a + BitVec.ofNat 64 (r % 8 * cfgLda x.cfg * 64))
def bRow (s : State) (x : JArray) (n : Nat) : List Nat × List (Nat × Nat) × Bool :=
  s.operandRow x (cfgIn x.cfg) (bits (x.headOf 0).d 15 0) x.xoff
    ((x.headOf 0).b + BitVec.ofNat 64 (n * cfgLdb x.cfg * 64))

/-! Floating point and predicates. -/

/-- An operand of a scalar floating-point instruction: the low bits of its register (R286). -/
def fpIn (s : State) (p : FPrec) (r : SReg) : Nat :=
  match p with
  | .f64 => (s.rs r).toNat
  | .f32 => (s.rs r).toNat % 2 ^ 32

/-- The format of a precision (R132, R286). -/
def fpFmt : FPrec → Fmt
  | .f64 => fp64
  | .f32 => fp32

/-- A comparison's register value and flags (R138, R357). -/
def fpTruth (r : Bool × FFlags) : FRes := (if r.1 then 1 else 0, r.2)

/-- Scalar floating point (R286, R357 to R359): the register written, its value and the flags raised. -/
def floatResult (s : State) : Instr → Option (SReg × FRes)
  | .fAdd d a b p => some (d, fAddBits (fpFmt p) s.th.rm (fpIn s p a) (fpIn s p b))
  | .fSub d a b p => some (d, fSubBits (fpFmt p) s.th.rm (fpIn s p a) (fpIn s p b))
  | .fMul d a b p => some (d, fMulBits (fpFmt p) s.th.rm (fpIn s p a) (fpIn s p b))
  | .fDiv d a b p => some (d, fDivBits (fpFmt p) s.th.rm (fpIn s p a) (fpIn s p b))
  | .fSqrt d a p => some (d, fSqrtBits (fpFmt p) s.th.rm (fpIn s p a))
  | .fMin d a b p => some (d, fMinBits (fpFmt p) (fpIn s p a) (fpIn s p b))
  | .fMax d a b p => some (d, fMaxBits (fpFmt p) (fpIn s p a) (fpIn s p b))
  | .fClass d a p => some (d, fClassBits (fpFmt p) (fpIn s p a), 0)
  | .fCeq d a b p => some (d, fpTruth (fCmp (fpFmt p) fEq false false (fpIn s p a) (fpIn s p b)))
  | .fClt d a b p => some (d, fpTruth (fCmp (fpFmt p) fLt false true (fpIn s p a) (fpIn s p b)))
  | .fCle d a b p => some (d, fpTruth (fCmp (fpFmt p) (fun x y => fLt x y || fEq x y) false true (fpIn s p a) (fpIn s p b)))
  | .fFma d a b c p => some (d, fFmaBits (fpFmt p) s.th.rm (fpIn s p a) (fpIn s p b) (fpIn s p c))
  | .fCvt d a f g => some (d, fCvt f g s.th.rm (s.rs a).toNat)
  | _ => none

/-- The predicate instructions (R290, R384, R387, R430): the predicate written and its value. -/
def predResult (s : State) : Instr → Option (PReg × Word)
  | .plAnd d a b => some (d, s.rp a &&& s.rp b)
  | .plOr d a b => some (d, s.rp a ||| s.rp b)
  | .plXor d a b => some (d, s.rp a ^^^ s.rp b)
  | .plAndn d a b => some (d, s.rp a &&& ~~~(s.rp b))
  | .plNot d a => some (d, ~~~(s.rp a))
  | .plSet d => some (d, BitVec.allOnes 64)
  | .plClr d => some (d, 0)
  | .pcmp d .eq a b => some (d, if s.rs a = s.rs b then BitVec.allOnes 64 else 0)
  | .pcmp d .ne a b => some (d, if s.rs a = s.rs b then 0 else BitVec.allOnes 64)
  | .pcmp d .lt a b => some (d, if (s.rs a).toInt < (s.rs b).toInt then BitVec.allOnes 64 else 0)
  | .pcmp d .ge a b => some (d, if (s.rs b).toInt ≤ (s.rs a).toInt then BitVec.allOnes 64 else 0)
  | .pcmp d .ltn a b => some (d, if (s.rs a).toNat < (s.rs b).toNat then BitVec.allOnes 64 else 0)
  | .pcmp d .gen a b => some (d, if (s.rs b).toNat ≤ (s.rs a).toNat then BitVec.allOnes 64 else 0)
  | .vMovS2p d r => some (d, s.rs r)
  | _ => none

/-! Vectors. -/

/-- The value of a lane of w bits. -/
def laneVal (signed : Bool) (w x : Nat) : Int := if signed then signedN w x else x

/-- An integer lane operation (R424) on lanes x and y of w bits: its exact result, of which the lane keeps w bits. -/
abbrev IntLane := Bool → Nat → Nat → Nat → Int

def intAdd : IntLane := fun _ _ x y => x + y
def intSub : IntLane := fun _ _ x y => x - y
def intMul : IntLane := fun _ _ x y => x * y
def intMin : IntLane := fun g w x y => if laneVal g w y < laneVal g w x then y else x
def intMax : IntLane := fun g w x y => if laneVal g w x < laneVal g w y then y else x
def intAnd : IntLane := fun _ _ x y => ((x &&& y : Nat) : Int)
def intOr : IntLane := fun _ _ x y => ((x ||| y : Nat) : Int)
def intXor : IntLane := fun _ _ x y => ((x ^^^ y : Nat) : Int)
def intShl : IntLane := fun _ w x y => ((x * 2 ^ (y % w) : Nat) : Int)
def intShr : IntLane := fun _ w x y => ((x / 2 ^ (y % w) : Nat) : Int)
def intSha : IntLane := fun _ w x y => signedN w x / ((2 ^ (y % w) : Nat) : Int)
def intAbs : IntLane := fun g w x _ => (laneVal g w x).natAbs
def intNeg : IntLane := fun g w x _ => -laneVal g w x
def intMulh : IntLane := fun g w x y => laneVal g w x * laneVal g w y / ((2 ^ w : Nat) : Int)

/-- A float lane operation: its format, the rounding mode, the lanes. -/
abbrev FloatLane := Fmt → Nat → Nat → Nat → FRes

/-- A lane of an operation under a vector type (R287): its value and flags. -/
def laneBy (flt : FloatLane) (int : IntLane) (ty : VType) (rm x y : Nat) : FRes :=
  match ty with
  | .bf16 => flt bf16 rm x y
  | .f32 => flt fp32 rm x y
  | .f64 => flt fp64 rm x y
  | .n32 => ((int false 32 x y % 2 ^ 32).toNat, 0)
  | .i8 => ((int true 8 x y % 2 ^ 8).toNat, 0)
  | .i16 => ((int true 16 x y % 2 ^ 16).toNat, 0)
  | .i32 => ((int true 32 x y % 2 ^ 32).toNat, 0)
  | .i64 => ((int true 64 x y % 2 ^ 64).toNat, 0)

/-- No float form; such words do not decode. -/
def noFlt : FloatLane := fun _ _ x _ => (x, 0)

/-- What a vector instruction writes: the register, the lane width, the predicate, how many lanes, and each lane's value
and flags where it is active. -/
structure Lanes where
  vd    : VReg
  w     : Nat
  pm    : PReg
  count : Nat
  lane  : Nat → FRes

/-- The lanewise instructions (R287, R289, R421 to R431, R139, R147). -/
def laneForm (s : State) : Instr → Option Lanes
  | .vAdd d a b p ty => some ⟨d, vbits ty, p, 512 / vbits ty, fun i => laneBy fAddBits intAdd ty s.th.rm (laneOf (vbits ty) (s.rv a) i) (laneOf (vbits ty) (s.rv b) i)⟩
  | .vSub d a b p ty => some ⟨d, vbits ty, p, 512 / vbits ty, fun i => laneBy fSubBits intSub ty s.th.rm (laneOf (vbits ty) (s.rv a) i) (laneOf (vbits ty) (s.rv b) i)⟩
  | .vMul d a b p ty => some ⟨d, vbits ty, p, 512 / vbits ty, fun i => laneBy fMulBits intMul ty s.th.rm (laneOf (vbits ty) (s.rv a) i) (laneOf (vbits ty) (s.rv b) i)⟩
  | .vMin d a b p ty => some ⟨d, vbits ty, p, 512 / vbits ty, fun i => laneBy (fun f _ => fMinBits f) intMin ty s.th.rm (laneOf (vbits ty) (s.rv a) i) (laneOf (vbits ty) (s.rv b) i)⟩
  | .vMax d a b p ty => some ⟨d, vbits ty, p, 512 / vbits ty, fun i => laneBy (fun f _ => fMaxBits f) intMax ty s.th.rm (laneOf (vbits ty) (s.rv a) i) (laneOf (vbits ty) (s.rv b) i)⟩
  | .vAnd d a b p ty => some ⟨d, vbits ty, p, 512 / vbits ty, fun i => laneBy noFlt intAnd ty s.th.rm (laneOf (vbits ty) (s.rv a) i) (laneOf (vbits ty) (s.rv b) i)⟩
  | .vOr d a b p ty => some ⟨d, vbits ty, p, 512 / vbits ty, fun i => laneBy noFlt intOr ty s.th.rm (laneOf (vbits ty) (s.rv a) i) (laneOf (vbits ty) (s.rv b) i)⟩
  | .vXor d a b p ty => some ⟨d, vbits ty, p, 512 / vbits ty, fun i => laneBy noFlt intXor ty s.th.rm (laneOf (vbits ty) (s.rv a) i) (laneOf (vbits ty) (s.rv b) i)⟩
  | .vShl d a b p ty => some ⟨d, vbits ty, p, 512 / vbits ty, fun i => laneBy noFlt intShl ty s.th.rm (laneOf (vbits ty) (s.rv a) i) (laneOf (vbits ty) (s.rv b) i)⟩
  | .vShr d a b p ty => some ⟨d, vbits ty, p, 512 / vbits ty, fun i => laneBy noFlt intShr ty s.th.rm (laneOf (vbits ty) (s.rv a) i) (laneOf (vbits ty) (s.rv b) i)⟩
  | .vSha d a b p ty => some ⟨d, vbits ty, p, 512 / vbits ty, fun i => laneBy noFlt intSha ty s.th.rm (laneOf (vbits ty) (s.rv a) i) (laneOf (vbits ty) (s.rv b) i)⟩
  | .vDiv d a b p ty => some ⟨d, vbits ty, p, 512 / vbits ty, fun i => laneBy fDivBits (fun _ _ x _ => x) ty s.th.rm (laneOf (vbits ty) (s.rv a) i) (laneOf (vbits ty) (s.rv b) i)⟩
  | .vMulh d a b p ty => some ⟨d, vbits ty, p, 512 / vbits ty, fun i => laneBy noFlt intMulh ty s.th.rm (laneOf (vbits ty) (s.rv a) i) (laneOf (vbits ty) (s.rv b) i)⟩
  | .vAbs d a p ty => some ⟨d, vbits ty, p, 512 / vbits ty, fun i => laneBy (fun f _ x _ => (x % 2 ^ (f.eb + f.fb), 0)) intAbs ty s.th.rm (laneOf (vbits ty) (s.rv a) i) 0⟩
  | .vNeg d a p ty => some ⟨d, vbits ty, p, 512 / vbits ty, fun i => laneBy (fun f _ x _ => (x ^^^ 2 ^ (f.eb + f.fb), 0)) intNeg ty s.th.rm (laneOf (vbits ty) (s.rv a) i) 0⟩
  | .vFma d a b c p ty => some ⟨d, fmaBits ty, p, 512 / fmaBits ty, fmaLane ty s.th.rm (s.rv a) (s.rv b) (s.rv c)⟩
  | .vPerm d a b p w => some ⟨d, w.bits, p, 512 / w.bits, fun i => (laneOf w.bits (s.rv a) (laneOf w.bits (s.rv b) i % (512 / w.bits)), 0)⟩
  | .vSfRcp d a p => some ⟨d, 32, p, 16, fun i => sfRcp s.th.rm (laneOf 32 (s.rv a) i)⟩
  | .vSfRsqrt d a p => some ⟨d, 32, p, 16, fun i => sfRsqrt s.th.rm (laneOf 32 (s.rv a) i)⟩
  | .vSfExp2 d a p => some ⟨d, 32, p, 16, fun i => sfExp2 s.th.rm (laneOf 32 (s.rv a) i)⟩
  | .vSfLog2 d a p => some ⟨d, 32, p, 16, fun i => sfLog2 s.th.rm (laneOf 32 (s.rv a) i)⟩
  | .vMovBcst d r w => some ⟨d, w.bits, 0, 512 / w.bits, fun _ => ((s.rs r).toNat % 2 ^ w.bits, 0)⟩
  | .vMovIns d r k w =>
    some ⟨d, w.bits, 0, 512 / w.bits,
      fun i => (if i = k.val then (s.rs r).toNat % 2 ^ w.bits else laneOf w.bits (s.rv d) i, 0)⟩
  | _ => none

/-- The flags of the active lanes. -/
def laneFlags (s : State) (x : Lanes) : FFlags :=
  (List.range x.count).foldl (fun g i => if laneOn x.w (s.rp x.pm) i then g ||| (x.lane i).2 else g) 0

/-- The reductions (R148, R428): operation and identity. -/
def reduceForm : Instr → Option (VReg × VReg × PReg × VType × LaneOp × Nat)
  | .vRedAdd d a p ty => some (d, a, p, ty, laneAdd, redAddId ty)
  | .vRedMin d a p ty => some (d, a, p, ty, laneMin, redMinId ty)
  | .vRedMax d a p ty => some (d, a, p, ty, laneMax, redMaxId ty)
  | .vRedAnd d a p ty => some (d, a, p, ty, laneAnd, 2 ^ vbits ty - 1)
  | .vRedOr d a p ty => some (d, a, p, ty, laneOr, 0)
  | .vRedXor d a p ty => some (d, a, p, ty, laneXor, 0)
  | _ => none

end Sys2Proof.Says

open Sys2Proof Sys2Proof.Machine Sys2Proof.Says

/-- Every instruction of the integer row, for all operands: the destination takes the value of R282, R145 and R341, the
pc moves to the next word, and nothing else changes. -/
def Obligations.IntegerResults : Prop :=
  ∀ (i : Instr) (s : State) (d : SReg) (v : Word), Quiet s → intResult s i = some (d, v) →
    ∃ st, Completes i s (s.th.ws d v st) (s.th.pc + 4)

/-- An IMM chain before an immediate-bearing instruction executes it with the long immediate (R279) and moves the pc past
the chain; before any other instruction it is illegal instruction (R280). -/
def Obligations.ImmChains : Prop :=
  (∀ (first : BitVec 25) (second : Option (BitVec 25)) (tail : ImmTail) (s : State) (d : SReg) (v : Word), Quiet s →
     tailResult s (longImm first second (tailImm tail)) tail = some (d, v) →
     ∃ st, Completes (.imm first second tail) s (s.th.ws d v st) (s.th.pc + if second.isSome then 12 else 8)) ∧
  (∀ (first : BitVec 25) (second : Option (BitVec 25)) (s : State), Traps (.imm first second .notBearing) s 0x01 0)

/-- Every branch goes to its target exactly when its condition holds, else to the next word, and writes no register. -/
def Obligations.BranchResults : Prop :=
  ∀ (i : Instr) (s : State) (taken : Bool) (target : Word), Quiet s → branchTo s i = some (taken, target) →
    Completes i s s.th (if taken then target else s.th.pc + 4)

/-! Memory. -/

/-- A scalar load at a placed address of a readable site that holds bytes: the register takes the extended value of the
bytes that the L1 or the site gives, the pc moves on, and beside that only the fill of the L1 and its coherence happen. LD.Q of
kind 3 or 4 is two reads of 8 bytes (R177). The rule leaves their order open and says nothing of the time between them: that one half,
chosen by the model's free value, comes first, and that the thread waits with it at its own pc before it reads the other, is the
model's choice (log 138). -/
def Obligations.LoadsComplete : Prop :=
  ∀ (i : Instr) (s : State) (x : Access) (site : Site) (s₁ : State), Quiet s → loadForm s i = some x → Placed x →
    s.translate .load x.ea = .ok (site, s₁) → Bytes s₁ site x.size → s₁.siteReadable x.ea site x.size = .ok () →
    let s₂ := s₁.acquireIf x.sem x.scope
    (¬Halves x site →
      let r := s₂.loadAt site x.size x.stamp
      ∃ t, exec i s = .next t ∧ OnlyThread r.2.2 t (moved (loaded r.2.2.th x (leNat r.1) r.2.1) (s.th.pc + 4))) ∧
    let s₃ := s₂.pinTouched s.cur (BitVec.ofNat 64 site.key)
    (Halves x site → (∀ high v, s.th.wait ≠ .half high v) →
      ∃ t high, exec i s = .next t ∧
        let k := site.key + if high then 8 else 0
        let r := (State.readPast { s₃ with free := s₃.free + 1 } { site with key := k } 8).2.2
        OnlyThread r t { r.th with wait := .half high (natAt r.mem k 8) }) ∧
    (∀ high v, Halves x site → s.th.wait = .half high v →
      let k := site.key + if high then 0 else 8
      let r := (s₃.readPast { site with key := k } 8).2.2
      let low := if high then natAt r.mem k 8 else v
      let up := if high then v else natAt r.mem k 8
      ∃ t st, exec i s = .next t ∧ OnlyThread r t (moved (loaded r.th x (low + 2 ^ 64 * up) st) (s.th.pc + 4)))

/-- Where the core holds no buffered store and no L1 copy of the line, and no MMA of the thread waits for its operands, a plain load
returns what memory holds, and leaves every byte of memory, every other thread, and everything but the caches as it was: of the cores
only the L1 of its own may change, of the field's tiles only their cache banks. -/
def Obligations.LoadsReadMemory : Prop :=
  ∀ (i : Instr) (s : State) (x : Access) (site : Site) (s₁ : State), Quiet s → loadForm s i = some x → Placed x →
    x.sem = .plain → s.translate .load x.ea = .ok (site, s₁) → Bytes s₁ site x.size → ¬Halves x site →
    s₁.siteReadable x.ea site x.size = .ok () → site.key % 64 + x.size ≤ 64 → (s.core s.myCore).wbuf = [] →
    (∀ l ∈ (s.core s.myCore).l1, l.line ≠ site.key / 64) → NoReads s →
    ∃ t st, exec i s = .next t ∧ t.th = moved (loaded s.th x (natAt s.mem site.key x.size) st) (s.th.pc + 4) ∧
      (∀ k, byteAt t.mem k = byteAt s.mem k) ∧ (∀ n, n ≠ s.cur → t.thr n = s.thr n) ∧
      t = { s with threads := t.threads, cores := t.cores, tlbs := t.tlbs, units := t.units, grains := t.grains,
                   ftiles := t.ftiles, poison := t.poison } ∧
      (∀ k, k ≠ s.myCore → t.core k = s.core k) ∧
      t.core s.myCore = { s.core s.myCore with l1 := (t.core s.myCore).l1 } ∧
      ((s.ftiles.map (·.1)).Nodup → ∀ f c r, t.ftile f c r = { s.ftile f c r with cache := (t.ftile f c r).cache })

/-- A scalar store at a placed address of a site that holds bytes: its release performed, the bytes of the register enter
the core's write buffer for exactly the site's address, 16 bytes of kind 3 or 4 as two halves (R177), and no byte of memory
changes before they are delivered, but for what the operand reads of the thread's earlier MMAs meet (R122). That a store to a scratchpad
(kind 6) waits in the core's buffer as one to memory does is the model's choice (log 100). -/
def Obligations.StoresComplete : Prop :=
  ∀ (i : Instr) (s : State) (x : Access) (site : Site) (s₁ s₂ : State), Quiet s → storeForm s i = some x → Placed x → s.translate .store x.ea = .ok (site, s₁) → Bytes s₁ site x.size →
    s₁.releaseIf x.sem x.scope = .ok s₂ →
    let s₃ := s₂.pinTouched s.cur x.ea
    (NoReads s₂ → s₃ = s₂) ∧
    ∃ t, exec i s = .next t ∧
      OnlyThread (s₂.storeAt x.ea site (cellsFrom site.key (stored s x.reg x.size))) t (moved s₃.th (s.th.pc + 4)) ∧
      (∀ k, byteAt t.mem k = byteAt s₃.mem k) ∧
      ∃ es, (t.core t.myCore).wbuf = (s₃.core s₃.myCore).wbuf ++ es ∧
        es.map Pending.cells = unitsOf site (cellsFrom site.key (stored s x.reg x.size)) ∧ ∀ e ∈ es, e.thread = s.cur

/-- A buffered store that reaches its site writes exactly its bytes: every byte of memory outside them stays (R160). One that
its peer turns away is dropped: memory stays and the thread counts it (R175). That a buffered kind-3 store whose port has lost
training, and a kind-2 store once CXL.cache is gone, are dropped and counted in the same way is the model's choice (R169, R251;
log 73). -/
def Obligations.StoresWriteTheirBytes : Prop :=
  ∀ (s : State) (q key : Nat) (bs : List Byte) (e : Pending), e.cells = cellsFrom key bs → bs ≠ [] →
    ((e.kind = 2 → s.dev.cxl = 3) → (e.kind = 3 → s.portUp key = true) →
      (e.kind = 4 → 2 ^ 50 ≤ key → s.peerUp key = true ∧ s.turnsAway key bs.length false = false) →
      Written s.mem (s.performStore q e).mem key bs) ∧
    ((e.kind = 2 ∧ s.dev.cxl ≠ 3) ∨ (e.kind = 3 ∧ s.portUp key = false) ∨
        (e.kind = 4 ∧ 2 ^ 50 ≤ key ∧ (s.peerUp key = false ∨ s.turnsAway key bs.length false = true)) →
      (s.performStore q e).mem = s.mem ∧
        ((s.performStore q e).thr e.thread).peerDrops = (s.thr e.thread).peerDrops + 1)

/-- The precise traps of scalar loads and stores, in the order of R370 and R407: an address that is not canonical, a
misaligned address, a translation that fails. -/
def Obligations.AccessTraps : Prop :=
  ∀ (i : Instr) (s : State) (x : Access) (acc : Acc),
    (loadForm s i = some x ∧ acc = .load) ∨ (storeForm s i = some x ∧ acc = .store) →
    (canonical x.ea = false → Traps i s 0x05 x.ea) ∧
    (canonical x.ea = true → x.ea.toNat % x.size ≠ 0 → Traps i s 0x03 x.ea) ∧
    (∀ c, Placed x → s.translateFor s.myCore s.myQuire s.th.ctx s.th.mode acc x.ea = .error c → Traps i s c x.ea)

/-- An atomic on an aligned address of a site it may act on: the register takes the old value, the site the new one, and
every other byte of memory stays as its release left it (R176, R328 to R331); AT.CAS2 does so with both pairs (R332). -/
def Obligations.AtomicsComplete : Prop :=
  (∀ (i : Instr) (s : State) (x : Atomic) (site : Site) (s₁ s₂ : State), Quiet s → atomicForm s i = some x →
     x.ea.toNat % x.size = 0 → s.translate .atomic x.ea = .ok (site, s₁) → AtomicSite s₁ site x.size x.pcie →
     s₁.siteReadable x.ea site x.size = .ok () → s₁.releaseIf x.sem x.scope = .ok s₂ →
     let m := ((s₂.pinTouched s.cur x.ea).deliverLine s.myCore site.key).mem
     ∃ t, exec i s = .next t ∧ t.th.pc = s.th.pc + 4 ∧
       t.rs x.reg = (if x.reg = 0 then 0 else x.ext (natAt m site.key x.size)) ∧
       (∀ r, r ≠ x.reg → t.rs r = s.rs r) ∧
       Written m t.mem site.key (leBytes x.size (x.new (natAt m site.key x.size)))) ∧
  (∀ (d a b : SReg) (sem : Sem) (sc : Scope) (s : State) (site : Site) (s₁ s₂ : State), Quiet s →
     Instr.wellFormed (.atCas2 d a b sem sc) = true →
     (s.rs a).toNat % 16 = 0 → s.translate .atomic (s.rs a) = .ok (site, s₁) → AtomicSite s₁ site 16 true →
     s₁.siteReadable (s.rs a) site 16 = .ok () → s₁.releaseIf sem sc = .ok s₂ →
     let m := ((s₂.pinTouched s.cur (s.rs a)).deliverLine s.myCore site.key).mem
     ∃ t, exec (.atCas2 d a b sem sc) s = .next t ∧ t.th.pc = s.th.pc + 4 ∧
       t.rs d = wordAt m site.key ∧ t.rs (d + 1) = wordAt m (site.key + 8) ∧
       (wordAt m site.key = s.rs d ∧ wordAt m (site.key + 8) = s.rs (d + 1) →
         Written m t.mem site.key (leBytes 8 (s.rs b).toNat ++ leBytes 8 (s.rs (b + 1)).toNat)) ∧
       (¬(wordAt m site.key = s.rs d ∧ wordAt m (site.key + 8) = s.rs (d + 1)) → ∀ k, byteAt t.mem k = byteAt m k))

/-- A load or store of 8 bytes to a FIFO-role bank (R56): a load pops the oldest entry when no load waits before it, and loads
that wait end in order; a store completes in either case, its push appended where the FIFO has room, else held. Where the model makes a
push wait is its own choice (log 100): the push first delivers the thread's buffered stores, it is held in the core's store path when the
FIFO is full or an earlier push of the thread or to that FIFO is held there, and the first held push enters when a slot is free. -/
def Obligations.FifoAccesses : Prop :=
  (∀ (i : Instr) (s : State) (x : Access) (site : Site) (s₁ : State), Quiet s → Placed x → x.size = 8 → site.kind = 6 →
     s₁.bankAt s₁.myQuire site.off 8 = .fifo →
     let f := fifoId s₁.myQuire site.off
     (∀ v rest, loadForm s i = some x → s.translate .load x.ea = .ok (site, s₁) →
       (s₁.fifoAt f).entries = v :: rest → (s₁.fifoAt f).loads = [] →
       ∃ t, exec i s = .next t ∧ t.rs x.reg = (if x.reg = 0 then 0 else v) ∧ (t.fifoAt f).entries = rest ∧
         t.th.pc = s.th.pc + 4 ∧ t.th.wait = .none ∧ ∀ k, byteAt t.mem k = byteAt s.mem k) ∧
     (∀ s₂, storeForm s i = some x → s.translate .store x.ea = .ok (site, s₁) → s₁.releaseIf x.sem x.scope = .ok s₂ →
       let s₃ := s₂.drain s.cur
       ((s₃.fifoAt f).entries.length < 512 →
         (∀ p ∈ (s₃.core s.myCore).pushes, p.fifo ≠ f ∧ ¬(p.thread = s.cur ∧ p.ctx = s.th.ctx)) →
         ∃ t, exec i s = .next t ∧ (t.fifoAt f).entries = (s₃.fifoAt f).entries ++ [s.rs x.reg] ∧
           t.th.pc = s.th.pc + 4 ∧ t.th.wait = .none ∧ ∀ k, byteAt t.mem k = byteAt s₃.mem k) ∧
       (512 ≤ (s₃.fifoAt f).entries.length →
         ∃ t, exec i s = .next t ∧ (t.fifoAt f).entries = (s₃.fifoAt f).entries ∧
           (t.core s.myCore).pushes = (s₃.core s.myCore).pushes ++
             [{ thread := s.cur, ctx := s.th.ctx, via := site.via x.ea, fifo := f, v := s.rs x.reg }] ∧
           t.th.pc = s.th.pc + 4 ∧ t.th.wait = .none ∧ ∀ k, byteAt t.mem k = byteAt s₃.mem k))) ∧
  (∀ (n f : Nat) (s : State), Quiet { s with cur := n } →
     (∀ r via v rest ns, (s.thr n).wait = .fifoLoad r f via → (s.fifoAt f).entries = v :: rest → (s.fifoAt f).loads = n :: ns →
       ∃ t, exec (.fifoPopComplete n) s = .next t ∧ (t.thr n).rs r = (if r = 0 then 0 else v) ∧
         (t.thr n).wait = .none ∧ (t.thr n).pc = (s.thr n).pc + 4 ∧ (t.fifoAt f).entries = rest ∧
         (t.fifoAt f).loads = ns ∧ t.cur = s.cur) ∧
     (∀ p ps, (s.core (coreOf n)).pushes = p :: ps → p.thread = n → (s.fifoAt p.fifo).entries.length < 512 →
       ∃ t, exec (.fifoPushComplete n) s = .next t ∧ (t.fifoAt p.fifo).entries = (s.fifoAt p.fifo).entries ++ [p.v] ∧
         (t.core (coreOf n)).pushes = ps ∧ t.threads = s.threads ∧ t.mem = s.mem))

/-- FENCE (R181): REL, AR and FULL release and ACQ, AR and FULL acquire at their scope, ACQ after the operand reads of the thread's
MMAs (R122); PF changes nothing but the pc (R386). After a release wider than the thread the core's buffer holds no store of the
thread, and after such an acquire its L1 holds no line (R160, R175). That FENCE.ACQ reports no failed kind-4 store, at system scope
either, is the model's reading (log 26). -/
def Obligations.FencesComplete : Prop :=
  (∀ (s : State) (sc : Scope), Quiet s →
     (let s₁ := if sc = .thread then s else s.pinAll s.cur
      (NoReads s → s₁ = s) ∧
      ∃ t, exec (.fence .acq sc) s = .next t ∧ OnlyThread (s₁.acquire sc) t (moved s₁.th (s.th.pc + 4))) ∧
     (∀ s₁, s.release sc = .ok s₁ →
       (∃ t, exec (.fence .rel sc) s = .next t ∧ OnlyThread s₁ t (moved s₁.th (s.th.pc + 4))) ∧
       (∀ k, k = .ar ∨ k = .full →
         ∃ t, exec (.fence k sc) s = .next t ∧ OnlyThread (s₁.acquire sc) t (moved s₁.th (s.th.pc + 4)))) ∧
     (∀ h b o, Completes (.pf h b o) s s.th (s.th.pc + 4))) ∧
  (∀ (s s₁ : State) (sc : Scope), sc ≠ .thread →
     (s.release sc = .ok s₁ → ∀ e ∈ (s₁.core (coreOf s.cur)).wbuf, e.thread ≠ s.cur) ∧
     ((s.acquire sc).core s.myCore).l1 = [] ∧ (∀ k, byteAt (s.acquire sc).mem k = byteAt s.mem k))

/-- WAITV (R65, R432): on another value than the one in s[b] it returns that value; on the same value it waits, its pc at
itself and its monitor armed; a write to the monitored unit hits the monitor; a wake returns a fresh read. -/
def Obligations.WaitvResults : Prop :=
  ∀ (i : Instr) (n : Nat) (d a b : SReg) (sem : Sem) (sc : Scope) (s : State) (site : Site) (s₁ : State),
    (i = .waitv d a b sem sc ∧ n = 8) ∨ (i = .waitvW d a b sem sc ∧ n = 4) →
    s.waitvSite (s.rs a) n = .ok (site, s₁) →
    let m := ((s₁.pinTouched s.cur (BitVec.ofNat 64 site.key)).deliverLine s.myCore site.key).mem
    (Quiet s → natAt m site.key n ≠ (s.rs b).toNat % 2 ^ (8 * n) →
      ∃ t, exec i s = .next t ∧ t.rs d = (if d = 0 then 0 else BitVec.ofNat 64 (natAt m site.key n)) ∧
        t.th.pc = s.th.pc + 4 ∧ ∀ k, byteAt t.mem k = byteAt m k) ∧
    (natAt m site.key n = (s.rs b).toNat % 2 ^ (8 * n) →
      ∃ t l, exec i s = .next t ∧ t.th.wait = .waitv d (s.rs a) n sem sc l ∧ t.th.pc = s.th.pc ∧
        (s.cur, { key := site.key, hit := false }) ∈ t.monitors ∧ ∀ k, byteAt t.mem k = byteAt m k) ∧
    (∀ (cells : List Host.Cell) (c : Nat) (x : Monitor), (c, x) ∈ s.monitors →
      (∃ e ∈ cells, s.monUnit e.1 = s.monUnit x.key) → (c, { x with hit := true }) ∈ (s.writeCells cells).monitors) ∧
    (∀ (s' : State) (c : Nat) (l : Option Nat), { s' with cur := c, monitors := terase s'.monitors c } = s → Quiet s →
      (s.thr c).wait = .waitv d (s.rs a) n sem sc l →
      ∃ t, exec (.waitvWake c) s' = .next t ∧ t.cur = s'.cur ∧ (t.thr c).wait = .none ∧
        (t.thr c).pc = s.th.pc + 4 ∧ (t.thr c).rs d = (if d = 0 then 0 else BitVec.ofNat 64 (natAt m site.key n)))

namespace Sys2Proof.Says

/-- The threads that have arrived at a wired barrier before (R336). -/
def arrivals (bs : List LvlBar) (n level group : Nat) : List Nat :=
  ((bs.find? fun b => b.launch == n && b.level == level && b.group == group).map (·.threads)).getD []

end Sys2Proof.Says

/-- Barrier objects (R62, R63, R335, R336) at a placed object: INIT, ARRIVE, ARRIVEX, EXPECT and WAIT change or read it as the
rules say, with the traps of R63, which leave the object and d; as part of INIT every outstanding WAIT of another thread on the object
ends, one that is alone there and can still reach it with the new phase, 0, where that the others issue again is the model's choice
(log 42); WAIT on the phase in hand waits, and returns the object's phase once it is another. BAR.LVL waits until the last WID of its
group arrives or has halted; that arrival releases every thread of the group that waits (R27, R336). A level out of range, and a thread
that runs no WID, trap. -/
def Obligations.BarriersComplete : Prop :=
  (∀ (d a b : SReg) (s : State) (site : Site) (s₁ : State), Quiet s → s.barSite (s.rs a) = .ok (site, s₁) →
     (1 ≤ (s.rs b).toNat → (s.rs b).toNat ≤ 1048575 →
       ∃ t, exec (.barInit a b) s = .next t ∧ t.th.pc = s.th.pc + 4 ∧ t.barAt site = ⟨0, 0, (s.rs b).toNat, 0⟩ ∧
         (∀ m e va ph, (t.thr m).wait ≠ .barWait e va site.key ph) ∧
         ∀ m e va ph site' s', m ≠ s.cur → (s₁.thr m).wait = .barWait e va site.key ph →
           (∀ k e' va' ph', k ≠ m → (s₁.thr k).wait ≠ .barWait e' va' site.key ph') → Quiet { s₁ with cur := m } →
           State.translate { s₁.barPut site ⟨0, 0, (s.rs b).toNat, 0⟩ with cur := m } .atomic va = .ok (site', s') →
           site'.key = site.key → (t.thr m).wait = .none ∧ (t.thr m).pc = (s₁.thr m).pc + 4 ∧ (t.thr m).rs e = 0) ∧
     (¬(1 ≤ (s.rs b).toNat ∧ (s.rs b).toNat ≤ 1048575) → Traps (.barInit a b) s 0x01 0) ∧
     (∀ s₂ x i n, s₁.release (barScope site) = .ok s₂ → x = s₂.barAt site →
       (i = .barArrive d a ∧ n = 0) ∨ (i = .barArrivex d a b ∧ n = (s.rs b).toNat) →
       x.arrived = x.expected ∨ 2 ^ 40 ≤ x.pending + n → Traps i s 0x08 (s.rs a)) ∧
     (∀ s₂ x, s₁.release (barScope site) = .ok s₂ → x = s₂.barAt site →
       ((x.pending : Int) + (s.rs b).toInt < 0 → Traps (.barExpect a b) s 0x09 (s.rs a)) ∧
       (2 ^ 40 ≤ (x.pending : Int) + (s.rs b).toInt → Traps (.barExpect a b) s 0x08 (s.rs a))) ∧
     (∀ s₂ x i n, s₁.release (barScope site) = .ok s₂ → x = s₂.barAt site →
       (i = .barArrive d a ∧ n = 0) ∨ (i = .barArrivex d a b ∧ n = (s.rs b).toNat) → x.arrived ≠ x.expected →
       x.pending + n < 2 ^ 40 →
       ∃ t, exec i s = .next t ∧ t.th.pc = s.th.pc + 4 ∧ t.rs d = (if d = 0 then 0 else BitVec.ofNat 64 x.phase) ∧
         t.barAt site =
           (if (x.arrived + 1) % 2 ^ 20 = x.expected ∧ x.pending + n = 0 then ⟨(x.phase + 1) % 2 ^ 24, 0, x.expected, 0⟩
            else ⟨x.phase, (x.arrived + 1) % 2 ^ 20, x.expected, x.pending + n⟩)) ∧
     (∀ s₂ x (n : Nat), s₁.release (barScope site) = .ok s₂ → x = s₂.barAt site → (n : Int) = x.pending + (s.rs b).toInt →
       n < 2 ^ 40 →
       ∃ t, exec (.barExpect a b) s = .next t ∧ t.th.pc = s.th.pc + 4 ∧
         t.barAt site = (if x.arrived = x.expected ∧ n = 0 then ⟨(x.phase + 1) % 2 ^ 24, 0, x.expected, 0⟩
           else ⟨x.phase, x.arrived, x.expected, n⟩)) ∧
     ((s₁.barAt site).phase ≠ (s.rs b).toNat % 2 ^ 24 →
       ∃ t, exec (.barWait d a b) s = .next t ∧ t.th.pc = s.th.pc + 4 ∧
         t.rs d = (if d = 0 then 0 else BitVec.ofNat 64 (s₁.barAt site).phase) ∧ t.barAt site = s₁.barAt site) ∧
     ((s₁.barAt site).phase = (s.rs b).toNat % 2 ^ 24 →
       ∃ t, exec (.barWait d a b) s = .next t ∧ t.th.pc = s.th.pc ∧
         t.th.wait = .barWait d (s.rs a) site.key ((s.rs b).toNat % 2 ^ 24))) ∧
  (∀ (n ph : Nat) (va : Word) (d : SReg) (s s₁ : State) (site : Site), Quiet { s with cur := n } →
     (s.thr n).wait = .barWait d va site.key ph → State.barSite { s with cur := n } va = .ok (site, s₁) →
     ((s₁.barAt site).phase = ph → exec (.barWaitReturn n) s = .next s) ∧
     ((s₁.barAt site).phase ≠ ph →
       ∃ t, exec (.barWaitReturn n) s = .next t ∧ t.cur = s.cur ∧ (t.thr n).wait = .none ∧
         (t.thr n).pc = (s.thr n).pc + 4 ∧
         (t.thr n).rs d = (if d = 0 then 0 else BitVec.ofNat 64 (s₁.barAt site).phase) ∧
         ∀ k, byteAt t.mem k = byteAt s₁.mem k)) ∧
  (∀ (b : SReg) (s s₁ : State) (n linear : Nat) (l : Launch), Quiet s → s.th.work = .wid n linear → s.launch n = some l →
     1 ≤ (s.rs b).toNat → (s.rs b).toNat ≤ l.cores → s.release .quire = .ok s₁ →
     let k := (s.rs b).toNat
     let group := s₁.groupThreads n l k (l.groupOf k linear)
     let levels := (s₁.quire s.myQuire).levels
     let before := arrivals levels n k (l.groupOf k linear)
     (∀ x ∈ levels, x.launch = n → ∃ m ∈ s₁.groupThreads n l x.level x.group, m ∉ x.threads) →
     ((∀ m ∈ group, m ∈ before ∨ m = s.cur) → before.Nodup → s.cur ∉ before →
       ∃ t, exec (.barLvl b) s = .next t ∧ t.th.wait = .none ∧ t.th.pc = s.th.pc + 4 ∧ t.mem = s₁.mem ∧
         (∀ m ∈ before, Quiet { s₁ with cur := m } → (t.thr m).wait = .none ∧ (t.thr m).pc = (s₁.thr m).pc + 4) ∧
         ∀ x ∈ (t.quire s.myQuire).levels, x ∈ levels) ∧
     ((∃ m ∈ group, m ∉ before ∧ m ≠ s.cur) →
       ∃ t, exec (.barLvl b) s = .next t ∧ t.th.wait = .level k ∧ t.th.pc = s.th.pc ∧ t.mem = s₁.mem ∧
         arrivals (t.quire s.myQuire).levels n k (l.groupOf k linear) = before ++ [s.cur])) ∧
  (∀ (b : SReg) (s : State) (n linear : Nat) (l : Launch), s.th.work = .wid n linear → s.launch n = some l →
     (s.rs b).toNat = 0 ∨ l.cores < (s.rs b).toNat → Traps (.barLvl b) s 0x01 (s.rs b)) ∧
  (∀ (b : SReg) (s : State), (∀ n linear, s.th.work ≠ .wid n linear) → Traps (.barLvl b) s 0x01 (s.rs b))

/-- The tile table (R57 to R59, R419, R420), of which each context has its own on a core (log 131): TL.ALLOC takes a free descriptor in a bank that switches no role, TL.FREE an empty or ready one that no other
thread waits for, TL.STATE reads the code, TL.WAIT returns on the state; TILE_READY and TILE_EMPTY end a fill and a drain. -/
def Obligations.TilesComplete : Prop :=
  ∀ (d a b : SReg) (s : State), Quiet s → (s.rs a).toNat ≤ 31 →
    let n := (s.rs a).toNat
    let x := s.rs b
    (x.toNat / 2 ^ 35 = 0 → bits x 17 0 % 64 = 0 → bits x 34 18 % 64 = 0 → 64 ≤ bits x 34 18 → bits x 34 18 ≤ 65536 →
      bits x 17 0 / 65536 = (bits x 17 0 + bits x 34 18 - 1) / 65536 →
      (s.core s.myCore).busy.getLsbD (bits x 17 0 / 65536) = false → (s.core s.myCore).role (bits x 17 0 / 65536) = 1 →
      s.inPool s.myQuire (s.myCore % 192 * 262144 + bits x 17 0) (bits x 34 18) = false → (s.myTile n).st = .free →
      ∃ t, exec (.tlAlloc a b) s = .next t ∧ t.th.pc = s.th.pc + 4 ∧
        t.myTile n = ⟨bits x 17 0, bits x 34 18, .empty, false, []⟩ ∧ t.mem = s.mem) ∧
    (∀ st, st = .empty ∨ st = .ready → (s.myTile n).st = st → s.firstFor (s.myTile n) st = true →
      ∃ t, exec (.tlFree a) s = .next t ∧ t.th.pc = s.th.pc + 4 ∧ (t.myTile n).st = .free ∧ t.mem = s.mem) ∧
    (∃ st, Completes (.tlState d a) s (s.th.ws d
      (match (s.myTile n).st with
       | .free => 0
       | .empty => 1
       | .filling => 2
       | .ready => 3
       | .draining => 4) st) (s.th.pc + 4)) ∧
    (∀ st, 1 ≤ x.toNat → x.toNat ≤ 4 → st = tileStOf x.toNat → (s.myTile n).st = st →
      s.firstFor (s.myTile n) st = true →
      ∃ t, exec (.tlWait a b) s = .next t ∧ t.th.pc = s.th.pc + 4 ∧ t.th.wait = .none ∧ (t.myTile n).st = st) ∧
    (∀ core c k, k < 32 → ((s.core core).tile c k).landed = true →
      (((s.core core).tile c k).st = .filling →
        ∃ t, exec (.tileReady core (32 * c + k)) s = .next t ∧ ((t.core core).tile c k).st = .ready ∧ t.threads = s.threads) ∧
      (((s.core core).tile c k).st = .draining →
        ∃ t, exec (.tileEmpty core (32 * c + k)) s = .next t ∧ ((t.core core).tile c k).st = .empty ∧ t.threads = s.threads))

/-! Threads, messages and engines. -/

namespace Sys2Proof.Says

/-- The record of a key that runs at an engine, if its side value is not a zero: GH.DONE inserts it (R206). -/
def toInsert (e : HeapEng) (k : Nat) : Option HEntry := (hget e.running k).filter fun r => r.v.toNat % 2 ^ 31 != 0

/-- GH.DONE can end a key's running record: it inserts nothing, or the heap has room (R206). -/
def CanEnd (e : HeapEng) (k : Nat) : Prop := toInsert e k = none ∨ e.entries.length < 16384

/-- An engine once GH.DONE has ended a key's running record (R206): the record is gone, and stored as an entry where its side value is
not a zero. Every other key, the residual and the engine's registers stay. -/
def Ended (e e' : HeapEng) (k : Nat) : Prop :=
  e' = { e with running := e'.running, entries := e'.entries } ∧ hget e'.running k = none ∧
    hget e'.entries k = (toInsert e k).orElse (fun _ => hget e.entries k) ∧
    ∀ j, j ≠ k → hget e'.running j = hget e.running j ∧ hget e'.entries j = hget e.entries j

end Sys2Proof.Says

/-- HALT (R29, R413) frees the thread of a WID after a release at device scope, its launch counting one more halted and one
fewer running; TEND (R45, R206, R417) frees the thread of a handler, and of a heap task once the key's running record has ended, which
TEND does where GH.DONE has not, with its trap where the heap is full. HALT in a handler, a heap task or a callback task, TEND in a WID or
a callback task, and either by a gang member are illegal. -/
def Obligations.WorkEnds : Prop :=
  (∀ (s s₁ : State) (n k : Nat), s.th.work = .wid n k →
     (s.gangMember s.cur = true → Traps .halt s 0x01 0) ∧
     (s.gangMember s.cur = false → s.release .device = .ok s₁ →
       ∃ t, exec .halt s = .next t ∧ (t.thr s.cur).work = .free ∧ t.mem = s₁.mem ∧
         ∀ l, s₁.launch n = some l → l.aborted = false →
           ∃ l', t.launch n = some l' ∧ l'.halted = l.halted + 1 ∧ l'.running = l.running - 1)) ∧
  (∀ (s : State), s.gangMember s.cur = false →
     (s.th.work = .handler → ∃ t, exec .tend s = .next t ∧ (t.thr s.cur).work = .free ∧ t.mem = s.mem) ∧
     (∀ l k, s.th.work = .heapTask l k true → s.holdsPush s.cur = false → ∃ t, exec .tend s = .next t ∧ (t.thr s.cur).work = .free ∧ t.mem = s.mem) ∧
     (∀ l k, s.th.work = .heapTask l k false → s.holdsPush s.cur = false → s.heapOf l = none →
       ∃ t, exec .tend s = .next t ∧ (t.thr s.cur).work = .free ∧ t.mem = s.mem) ∧
     (∀ l k h, s.th.work = .heapTask l k false → s.holdsPush s.cur = false → s.heapOf l = some h →
       (CanEnd (s.eng (h.home k)) k →
         ∃ t, exec .tend s = .next t ∧ (t.thr s.cur).work = .free ∧ t.mem = s.mem ∧
           Ended (s.eng (h.home k)) (t.eng (h.home k)) k) ∧
       (¬CanEnd (s.eng (h.home k)) k → Traps .tend s 0x0A (BitVec.ofNat 64 k)))) ∧
  (∀ (s : State),
     (s.th.work = .handler ∨ (∃ l k d, s.th.work = .heapTask l k d) ∨ (∃ f, s.th.work = .callback f) → Traps .halt s 0x01 0) ∧
     ((∃ n k, s.th.work = .wid n k) ∨ (∃ f, s.th.work = .callback f) → Traps .tend s 0x01 0) ∧
     (s.gangMember s.cur = true → Traps .halt s 0x01 0 ∧ Traps .tend s 0x01 0))

/-- WAITE (R414): with a packet since the last one it returns at once, else it waits; a wake ends the wait. WAITLIMIT (R51, R65): a
wait whose deadline has passed ends, a WAITE by moving on, a WAITV with a fresh read. -/
def Obligations.WaitsForEvents : Prop :=
  (∀ (s : State) (n : Nat), Quiet s →
     (s.th.packet = true → Completes .waite s { s.th with packet := false } (s.th.pc + 4)) ∧
     (s.th.packet = false → ∃ t l, exec .waite s = .next t ∧ OnlyThread s t { s.th with wait := .waite l }) ∧
     (∀ l, s.cur = n → s.th.wait = .waite l → ∀ c,
       ∃ t, exec (.waiteWake n) { s with cur := c } = .next t ∧ t.cur = c ∧
         t.thr n = moved { s.th with packet := false } (s.th.pc + 4))) ∧
  (∀ (s : State) (l : Nat), Quiet s → l ≤ s.cycle →
     (s.th.wait = .waite (some l) →
       ∃ t, exec (.waitlimitExpiry s.cur) s = .next t ∧ t.th = moved { s.th with packet := false } (s.th.pc + 4)) ∧
     (∀ d va n sem sc site s₁, s.th.wait = .waitv d va n sem sc (some l) →
       State.waitvSite { s with monitors := terase s.monitors s.cur } va n = .ok (site, s₁) →
       let m := ((s₁.pinTouched s.cur (BitVec.ofNat 64 site.key)).deliverLine s.myCore site.key).mem
       ∃ t, exec (.waitlimitExpiry s.cur) s = .next t ∧ t.th.wait = .none ∧ t.th.pc = s.th.pc + 4 ∧
         t.rs d = (if d = 0 then 0 else BitVec.ofNat 64 (natAt m site.key n)) ∧ (∀ r, r ≠ d → t.rs r = s.rs r) ∧
         ∀ k, byteAt t.mem k = byteAt m k))

/-- MSG (R40, R377) to a core that the context may reach, once the network has room, puts its packet on its way after the
release; HBIND (R365) binds a label on the thread's core, and 0 unbinds it; SPAWN (R405) appends a header's address to a queue. -/
def Obligations.SendsAndBinds : Prop :=
  (∀ (d a b : SReg) (s s₁ : State), Quiet s →
     let dst := (s.rs a).toNat / 128
     let label := (s.rs a).toNat % 128
     let s₀ := s.meetPool s.th.ctx
     dst ≤ 3071 → s.present (dst / 192) = true → s.myCtx.allowed.getLsbD (dst / 192) = true →
     s₀.callbackLabel s.th.ctx ≠ some label →
     s₀.release (if dst / 192 = s.myQuire then .quire else .device) = .ok s₁ → s₁.maySend s.th.ctx dst = true →
     ∃ t, exec (.msg d a b) s = .next t ∧ t.th.pc = s.th.pc + 4 ∧
       t.net = s₁.net ++ [{ ctx := s.th.ctx, thread := s.cur, dst := dst, label := label, w0 := s.rs b, w1 := s.rs d
                            two := d != 0, frame := none }]) ∧
  (∀ (a b : SReg) (s : State), Quiet s → (s.rs a).toNat < 128 →
     (s.meetPool s.th.ctx).callbackLabel s.th.ctx ≠ some (s.rs a).toNat →
     tagOf (s.rs b) = 0 → (s.rs b).toNat % 4 = 0 →
     ∃ t, exec (.hbind a b) s = .next t ∧ t.th.pc = s.th.pc + 4 ∧ t.mem = s.mem ∧
       tget 0 (t.mail s.th.ctx s.myCore).handlers (s.rs a).toNat = (if s.rs b = 0 then 0 else targetOf (s.rs b))) ∧
  (∀ (a : SReg) (q : Fin 16) (s s₁ : State), Quiet s → s.release .device = .ok s₁ → (s₁.lq s.th.ctx q).depth < 128 →
     ∃ t, exec (.spawn a q) s = .next t ∧ t.th.pc = s.th.pc + 4 ∧
       (t.lq s.th.ctx q).pending = (s₁.lq s.th.ctx q).pending ++ [s.rs a])

/-- ENQ (R349, R350): a legal command whose tiles stand as needed joins the thread's FIFO while it has room, its tiles draining and
filling from then on, and waits otherwise; DEQ (R61, R344)
pops the oldest command of the engine once it is complete, removes it from the FIFO and writes its result word; a status other than 0 then
raises engine error at the next instruction with the word. It waits for a command that is not complete, and with none pushed raises engine
error. That a double trap after completion leaves the pc at the next instruction (log 22) and what the acquire at DEQ's completion clears
(log 40) are the model's choices. -/
def Obligations.EngineFifos : Prop :=
  ∀ (e : Engine) (d a b : SReg) (s s₁ : State), Quiet s →
    (s.enqCheck e (s.rs a) (s.rs b) = .ok () →
      let src := tagStile (s.rs b)
      let dst := tagDtile (s.rs b)
      let goes := (tagSv (s.rs b) = true → s.tileIs src .ready = true) ∧ (tagDv (s.rs b) = true → s.tileIs dst .empty = true) ∧
        s.th.queued e < 8
      (goes → s.release (scopeOf (cmdScope (s.rs a))) = .ok s₁ →
        ∃ t, exec (.enq e a b) s = .next t ∧ t.th.pc = s.th.pc + 4 ∧ t.mem = s₁.mem ∧
          t.th.cmds = s.th.cmds ++ [{ engine := e, ctx := s.th.ctx, work := s.th.work, a := s.rs a, b := s.rs b
                                      st := .pending, orphan := false }] ∧
          (tagSv (s.rs b) = true → (t.myTile src).st = .draining) ∧ (tagDv (s.rs b) = true → (t.myTile dst).st = .filling)) ∧
      (¬goes → ∃ t, exec (.enq e a b) s = .next t ∧ t.th.pc = s.th.pc ∧ t.th.wait = .retry ∧ t.th.cmds = s.th.cmds ∧ t.mem = s.mem)) ∧
    (∀ pre c post, s.th.cmds = pre ++ c :: post → (∀ x ∈ pre, x.live s.th.ctx e = false) → c.live s.th.ctx e = true →
      (c.st = .complete 0 →
        ∃ t, exec (.deq d e) s = .next t ∧ t.th.pc = s.th.pc + 4 ∧ t.th.cmds = pre ++ post ∧
          t.rs d = (if d = 0 then 0 else BitVec.ofNat 64 (bits c.b 47 0)) ∧ t.mem = s.mem) ∧
      (∀ k, c.st = .complete k → k ≠ 0 →
        let w : Word := BitVec.ofNat 64 (k * 2 ^ 48 + bits c.b 47 0)
        ∃ t st, exec (.deq d e) s = .next t ∧
          OnlyThread (s.acquire (scopeOf (cmdScope c.a))) t
            ((moved (Thread.ws { s.th with cmds := pre ++ post } d w st) (s.th.pc + 4)).takeTrap s.myCtx.trapvec
              { cause := 0x15, val := w, post := true, pc := s.th.pc + 4, frame := 0, iter := 0, sub := 0, frec := false })) ∧
      (c.st = .pending ∨ c.st = .accepted →
        ∃ t, exec (.deq d e) s = .next t ∧ OnlyThread s t { s.th with wait := .retry })) ∧
    (s.th.cmds.find? (Cmd.live s.th.ctx e) = none → Traps (.deq d e) s 0x15 0)

namespace Sys2Proof.Says

/-- A command ends with status 0 and has written bytes at sites and nothing else. -/
def Moves (s : State) (r : Done) (dst : List Site) (bs : List Byte) : Prop :=
  r.status = 0 ∧ r.s.mem = setCells s.mem (dst.zipWith (fun x y => (x.key, y)) bs) ∧ r.s.threads = s.threads

/-- A command ends with a status and has written nothing. -/
def Ends (s : State) (r : Done) (status : Nat) : Prop := r.status = status ∧ r.s.mem = s.mem ∧ r.s.threads = s.threads

/-- The bytes that memory holds at sites. -/
def bytesOf (s : State) (xs : List Site) : List Byte := xs.map fun x => byteAt s.mem x.key

/-- A state once the requests for sites have reached their homes (R161). -/
def requested (s : State) (xs : List Site) : State := xs.foldl State.request s

/-- Bytes of an index of a gather descriptor (R353). -/
def indexSize (ds : List Word) : Nat := if (nth 0 ds 3).getLsbD 34 then 8 else 4

/-- ea(i) of R353 for every i, from the bytes of the index array: BASE + idx[i] × size, 32-bit indices signed. -/
def elements (ds : List Word) (count size : Nat) (bs : List Byte) : List Word :=
  (List.range count).map fun i =>
    let n := leNat ((bs.drop (indexSize ds * i)).take (indexSize ds))
    nth 0 ds 0 + (if indexSize ds = 8 then BitVec.ofNat 64 n else (BitVec.ofNat 32 n).signExtend 64) * BitVec.ofNat 64 size

/-- The rules of an ALLRED descriptor (R354): reserved fields, blocks, OP and TYPE, alignment. -/
def allredOk (ds : List Word) : Bool :=
  bits (nth 0 ds 2) 63 27 == 0 && bits (nth 0 ds 2) 15 7 == 0 && (ds.drop 5).all (· == 0) &&
    decide (1 ≤ bits (nth 0 ds 2) 26 16 ∧ bits (nth 0 ds 2) 26 16 ≤ 1024) &&
    opTypeOk (bits (nth 0 ds 2) 3 0) (bits (nth 0 ds 2) 6 4) && (nth 0 ds 0).toNat % 64 == 0 && (nth 0 ds 1).toNat % 64 == 0

/-- What FILL, GATHER and SCATTER write (R352, R353), on legal descriptors with good sites and no barrier: the pattern in each 8-byte
element, the elements that the indices name in their order, and the dense array at those elements, in increasing i. A barrier receives the
bytes landed and advances (R63). A descriptor or a source that cannot be read, or a destination, ends the command with its status and
nothing written (R355; log 36). -/
def CopiesAndGathers (s : State) (w : Who) (a b : Word) (ds : List Word) : Prop :=
  let s₁ := s.meetDesc w a
  let n := bits (nth 0 ds 2) 39 0
  let count := bits (nth 0 ds 3) 31 0
  let size := 2 ^ bits (nth 0 ds 3) 33 32
  (∀ dst, bits (nth 0 ds 2) 63 40 = 0 → ((ds.drop 4).all (· == 0)) = true → nth 0 ds 3 = 0 → n % 8 = 0 →
    (if tagDv b then nth 0 ds 1 = 0 else (nth 0 ds 1).toNat % 8 = 0) → s₁.copyDest w b (nth 0 ds 1) n = .ok dst →
    Moves s (s.doFill w a b) dst ((List.range n).map fun i => nth 0 (leBytes 8 (nth 0 ds 0).toNat) (i % 8))) ∧
  (∀ idx, gatherRules ds size = .ok () → nth 0 ds 4 = 0 → s₁.engineSpan w .load 0x12 (nth 0 ds 1) (count * indexSize ds) = .ok idx →
    let s₂ := requested s₁ idx
    s₂.engineRead idx = .ok (bytesOf s idx) →
    let eas := elements ds count size (bytesOf s idx)
    (∀ src dst, s₂.elementSites w .load 0x12 size eas = .ok src → (requested s₂ src).engineRead src = .ok (bytesOf s src) →
      (requested s₂ src).engineSpan w .store 0x13 (nth 0 ds 2) (count * size) = .ok dst →
      Moves s (s.doGather w a) dst (bytesOf s src)) ∧
    (∀ src dst, s₂.engineSpan w .load 0x12 (nth 0 ds 2) (count * size) = .ok src →
      (requested s₂ src).engineRead src = .ok (bytesOf s src) →
      (requested s₂ src).elementSites w .store 0x13 size eas = .ok dst →
      Moves s (s.doScatter w a) dst (bytesOf s src)))

/-- What COLLATE and ALLRED do (R149, R150, R253, R354): COLLATE by a WID of a REPRO launch adds its contribution to its object, which the
first one binds, and ends with statuses 1 to 4 where the rule says so. ALLRED folds the members' partials, which it takes in the order of
the group, into RESULT once all are there; members that disagree, a device that is no member and a peer that fails give their statuses. -/
def Collects (s : State) (w : Who) (a : Word) (ds : List Word) : Prop :=
  let s₁ := s.meetDesc w a
  (((ds.drop 2).all (· == 0)) = true → (nth 0 ds 1).toNat % 64 = 0 →
    let s₂ := s₁.meetObject w (nth 0 ds 0)
    (∀ work, s₂.collationSite w (nth 0 ds 0) = .error 1 → Ends s (s.doCollate w a work) 1) ∧
    (∀ work site, s₂.collationSite w (nth 0 ds 0) = .ok site →
      ((∀ n k l, work = .wid n k → s.launch n = some l → bit l.flags 42 = false) → Ends s (s.doCollate w a work) 2) ∧
      (∀ n k l, work = .wid n k → s.launch n = some l → bit l.flags 42 = true →
        let old := s.collations.find? fun c => c.key == site.key
        (∀ c, old = some c → c.launch ≠ n → Ends s (s.doCollate w a work) 4) ∧
        (∀ c, old = some c → c.launch = n → (c.parts.any fun p => p.linear == k) = true → Ends s (s.doCollate w a work) 3) ∧
        (∀ xs, s₂.engineSpan w .load 0x12 (nth 0 ds 1) 64 = .ok xs → (requested s₂ xs).engineRead xs = .ok (bytesOf s xs) →
          let new : Contribution := { linear := k, data := BitVec.ofNat 512 (leNat (bytesOf s xs)) }
          let after := (s.doCollate w a work).s.collations.find? fun c => c.key == site.key
          (old = none → Ends s (s.doCollate w a work) 0 ∧
            after = some { key := site.key, va := nth 0 ds 0, ctx := w.ctx, launch := n, parts := [new] }) ∧
          (∀ c, old = some c → c.launch = n → (c.parts.any fun p => p.linear == k) = false →
            Ends s (s.doCollate w a work) 0 ∧ after = some { c with parts := c.parts ++ [new] }))))) ∧
  (∀ g s₂, allredOk ds = true → s₁.groupOf w (nth 0 ds 3) (.ok ()) = (.ok g, s₂) → ∀ ps,
    let blocks := bits (nth 0 ds 2) 26 16
    ((g.any fun m => s.dev.zorey == some m) = false → ∃ r, s.doAllred w a ps = some r ∧ Ends s r 6) ∧
    (∀ src dst, (g.any fun m => s.dev.zorey == some m) = true → s₂.engineSpan w .load 0x12 (nth 0 ds 0) (64 * blocks) = .ok src →
      (requested s₂ src).engineRead src = .ok (bytesOf s src) →
      (requested s₂ src).engineSpan w .store 0x13 (nth 0 ds 1) (64 * blocks) = .ok dst → (∀ x ∈ dst, x.kind ≤ 2) →
      let mine : Partial :=
        { dev := s.dev.zorey.getD 0, failed := false, group := g, op := bits (nth 0 ds 2) 3 0, ty := bits (nth 0 ds 2) 6 4
          seq := (nth 0 ds 4).toNat
          data := (List.range (8 * blocks)).map fun i => BitVec.ofNat 64 (leNat (((bytesOf s src).drop (8 * i)).take 8)) }
      let members := g.map (partialOf mine ps)
      let sent := members.filterMap id
      (s.dev.links = 0 ∨ (sent.any fun p => p.failed) = true → ∃ r, s.doAllred w a ps = some r ∧ Ends s r 0x17) ∧
      (s.dev.links ≠ 0 → (sent.any fun p => p.failed) = false →
        ((sent.any fun p => !partsAgree p mine) = true → ∃ r, s.doAllred w a ps = some r ∧ Ends s r 5) ∧
        ((sent.any fun p => !partsAgree p mine) = false →
          (none ∈ members → s.doAllred w a ps = none) ∧
          (none ∉ members → ∃ r, s.doAllred w a ps = some r ∧
            Moves s r dst (foldMembers (collateOp mine.op) (typeOfCode mine.ty) blocks (sent.map partBytes)))))))

end Sys2Proof.Says

/-- An engine performs the oldest command of a thread that is not complete, and completes it with its status (R60, R351); only
the copy and gather engines reach the scratchpads (R17), and a command that reaches a bank which switches roles waits (R54). A command whose
descriptor cannot be read ends with status 0x11; FILL, GATHER, SCATTER, COLLATE and ALLRED write what their rules say (R352 to R354), and a
barrier receives the bytes of its command and advances (R63, R352). -/
def Obligations.EnginesComplete : Prop :=
  (∀ (i : Instr) (s : State) (n code : Nat) (e : Engine) (f : Who → Cmd → Option Done) (c : Cmd) (r : Done),
     engineForm s i = some (n, e, code, f) → (s.thr n).cmds.find? (Cmd.runs e) = some c → cmdCode c.a = code →
     f { ctx := c.ctx, core := coreOf n, tile := (s.core (coreOf n)).tile c.ctx, scratch := decide (e ≠ .collective) } c = some r →
     (r.status = bankWait → exec i s = .next s) ∧
     (r.status ≠ bankWait → ∃ t, exec i s = .next t ∧ (t.thr n).cmds = completeCmd e r.status (s.thr n).cmds ∧ t.mem = r.s.mem)) ∧
  (∀ (s : State) (w : Who) (a b : Word),
     (∀ k work ps, (s.meetDesc w a).cmdDescriptor w a = .error k →
       k = 0x11 ∧ Ends s (s.doCopy w a b) k ∧ Ends s (s.doFill w a b) k ∧ Ends s (s.doGather w a) k ∧ Ends s (s.doScatter w a) k ∧
       Ends s (s.doCollate w a work) k ∧ ∃ r, s.doAllred w a ps = some r ∧ Ends s r k) ∧
     (∀ ds, (s.meetDesc w a).cmdDescriptor w a = .ok ds → CopiesAndGathers s w a b ds ∧ Collects s w a ds)) ∧
  (∀ (s : State) (w : Who) (va : Word) (n : Nat) (site : Site), va ≠ 0 → va.toNat % 16 = 0 → 0 < n →
     let s₁ := s.meetUnit w.ctx .user .atomic (quireOf w.core) (fun k => k ≤ 1) va 1
     s₁.unitSite w.ctx .user .atomic (quireOf w.core) va = .ok site →
     site.kind ≤ 1 ∨ (site.kind = 6 ∧ s.bankAt (quireOf w.core) site.off 16 = .scratch) →
     (s₁.request site).poisoned site.key 16 = false →
     let x := s.barAt site
     (n ≤ x.pending → (Done.barrier ⟨s, 0⟩ w va n).status = 0 ∧ (Done.barrier ⟨s, 0⟩ w va n).s.barAt site =
       if x.arrived = x.expected ∧ x.pending = n then ⟨(x.phase + 1) % 2 ^ 24, 0, x.expected, 0⟩
       else ⟨x.phase, x.arrived, x.expected, x.pending - n⟩) ∧
     (x.pending < n → Ends s (Done.barrier ⟨s, 0⟩ w va n) 0x15))

/-- A COPY whose descriptor, source and destination are good and which names no barrier writes the source's bytes at the destination's
sites and nothing else, and completes with status 0 (R352). -/
def Obligations.CopyMovesBytes : Prop :=
  ∀ (s : State) (w : Who) (a b : Word) (ds : List Word) (src dst : List Site) (bs : List Byte),
    let s₁ := s.meetDesc w a
    s₁.cmdDescriptor w a = .ok ds → copyRules b ds = .ok () → nth 0 ds 3 = 0 →
    s₁.copySource w b (nth 0 ds 0) (bits (nth 0 ds 2) 39 0) = .ok src → (requested s₁ src).engineRead src = .ok bs →
    (requested s₁ src).copyDest w b (nth 0 ds 1) (bits (nth 0 ds 2) 39 0) = .ok dst →
    (s.doCopy w a b).status = 0 ∧ bs = src.map (fun x => byteAt s.mem x.key) ∧
      (s.doCopy w a b).s.mem = setCells s.mem (dst.zipWith (fun x y => (x.key, y)) bs) ∧
      (s.doCopy w a b).s.threads = s.threads

/-- GANG (R114, R115, R118): the first member of a free array opens the gang with the context's configuration and waits, a
later one joins and waits, the sixteenth forms the gang and goes on. GANG 0 with nothing outstanding and nothing to report
leaves (R127). -/
def Obligations.GangsFormAndEnd : Prop :=
  (∀ (g : Fin 4096) (s s₁ : State), Quiet s → s.release .quire = .ok s₁ → s.myArray.hasMember s.cur = false →
     (s.myArray.gang = 0 →
       ∃ t, exec (.gang g) s = .next t ∧ t.th.pc = s.th.pc + 4 ∧ t.th.wait = .gang (12 * s.myQuire + s.myCore % 192 / 16) ∧
         t.myArray.gang = g.val ∧ t.myArray.ctx = s.th.ctx ∧ t.myArray.members = [(position s, s.cur)] ∧
         (t.myArray.cfg, t.myArray.xoff) = tget (0, 0) s.myArray.past s.th.ctx) ∧
     (s.myArray.gang = g.val → g.val ≠ 0 → s.myArray.ctx = s.th.ctx → s.myArray.formed = false →
       (s.myArray.members.any fun e => e.1 == position s) = false →
       (s.myArray.members.length = 15 →
         ∃ t, exec (.gang g) s = .next t ∧ t.th.pc = s.th.pc + 4 ∧ t.th.wait = .none ∧ t.myArray.formed = true ∧
           tget 0 t.myArray.members (position s) = s.cur) ∧
       (s.myArray.members.length < 15 →
         ∃ t, exec (.gang g) s = .next t ∧ t.th.pc = s.th.pc + 4 ∧
           t.th.wait = .gang (12 * s.myQuire + s.myCore % 192 / 16) ∧ t.myArray.formed = false ∧
           tget 0 t.myArray.members (position s) = s.cur))) ∧
  (∀ (s : State), Quiet s → Member s → s.myArray.contribs = [] → s.myArray.doneFor (position s) = true →
     tget [] s.myArray.fails (position s) = [] →
     ∃ t, exec .gangLeave s = .next t ∧ t.th.pc = s.th.pc + 4 ∧
       (t.myArray.gang = 0 ∨ t.myArray.left.contains (position s) = true))

/-- The contributions of a member (R116, R118, R120, R124): each MX instruction whose checks pass appends its own, and the
thread goes on; MX.WAIT returns once every operation it contributed to is performed, with the flags they raised (R126). -/
def Obligations.JointContributions : Prop :=
  ∀ (s : State), Quiet s → Member s →
    (∀ i k, mxForm s i = some k →
      ∃ t, exec i s = .next t ∧ t.th.pc = s.th.pc + 4 ∧ t.mem = s.mem ∧
        tget [] t.myArray.contribs (position s) = tget [] s.myArray.contribs (position s) ++ [k] ∧
        tget 0 t.myArray.issued (position s) = tget 0 s.myArray.issued (position s) + 1) ∧
    (∀ d a b cfg xoff, s.myArray.cfgFor (position s) = (cfg, xoff) → bits (s.rs d) 63 17 = 0 → bits (s.rs d) 15 0 ≠ 0 →
      bits (s.rs d) 15 0 % 32 = 0 → bits (s.rs d) 15 0 ≤ 8192 → (s.rs a).toNat % 64 = 0 → (s.rs b).toNat % 64 = 0 →
      rowBytes (cfgIn cfg) (bits (s.rs d) 15 0) ≤ 64 * cfgLda cfg →
      rowBytes (cfgIn cfg) (bits (s.rs d) 15 0) ≤ 64 * cfgLdb cfg →
      s.spansFault s.th.ctx (operandSpans (cfgIn cfg) (bits (s.rs d) 15 0) xoff (s.rs a) 8 (cfgLda cfg) ++
        operandSpans (cfgIn cfg) (bits (s.rs d) 15 0) xoff (s.rs b) 128 (cfgLdb cfg)) = none →
      ∃ t, exec (.mxMma d a b) s = .next t ∧ t.th.pc = s.th.pc + 4 ∧ t.mem = s.mem ∧
        tget [] t.myArray.contribs (position s) =
          tget [] s.myArray.contribs (position s) ++ [⟨2, s.rs d, s.rs a, s.rs b⟩]) ∧
    (∀ d n, bits (s.rs d) 15 5 = 0 → bits (s.rs d) 63 18 = 0 → bit (s.rs d) 17 = false → n = bits (s.rs d) 4 0 →
      s.tileIs n .empty = true → drainBytes (cfgOut (s.myArray.cfgFor (position s)).1) ≤ (s.myTile n).len →
      ∃ t, exec (.mxDrain d) s = .next t ∧ t.th.pc = s.th.pc + 4 ∧ (t.myTile n).st = .filling ∧
        tget [] t.myArray.contribs (position s) = tget [] s.myArray.contribs (position s) ++ [⟨3, s.rs d, 0, 0⟩]) ∧
    (s.myArray.doneFor (position s) = true → tget [] s.myArray.fails (position s) = [] →
      ∃ t, exec .mxWait s = .next t ∧ t.th.pc = s.th.pc + 4 ∧
        t.th.fctl = s.th.fctl ||| (tget 0 s.myArray.flags (position s)).setWidth 8)

/-- A joint operation whose sixteen contributions agree is performed (R116, R118, R119, R121): MX.CFG installs its words and
zeroes both sets when the accumulator type changes, MX.ZERO zeroes its set. Contributions that differ from position 0's fail
their operation with status 0x01 at every member and change no set and no byte of memory (R116, R126). The number under which the failed
operation is kept for MX.WAIT, with the array's first one as 1, is the model's choice (log 46). -/
def Obligations.JointConfigAndZero : Prop :=
  (∀ (s : State) (q j : Nat), (s.array q j).isReady = true →
     (∀ p, p < 16 → ((s.array q j).headOf p).common = ((s.array q j).headOf 0).common) →
     (((s.array q j).headOf 0).fn = 0 →
       ∃ t, exec (.jointCfg q j) s = .next t ∧ (t.array q j).cfg = ((s.array q j).headOf 0).a ∧
         (t.array q j).xoff = ((s.array q j).headOf 0).b ∧ (t.array q j).performed = (s.array q j).performed + 1 ∧
         (t.array q j).set0 =
           (if accOf (cfgIn ((s.array q j).headOf 0).a) = accOf (cfgIn (s.array q j).cfg) then (s.array q j).set0 else []) ∧
         (t.array q j).set1 =
           (if accOf (cfgIn ((s.array q j).headOf 0).a) = accOf (cfgIn (s.array q j).cfg) then (s.array q j).set1 else []) ∧
         t.mem = s.mem ∧ t.threads = s.threads) ∧
     (((s.array q j).headOf 0).fn = 1 →
       ∃ t, exec (.jointZero q j) s = .next t ∧
         (t.array q j).setOf (bits ((s.array q j).headOf 0).d 16 16) = [] ∧
         (t.array q j).setOf (1 - bits ((s.array q j).headOf 0).d 16 16) =
           (s.array q j).setOf (1 - bits ((s.array q j).headOf 0).d 16 16) ∧
         (t.array q j).performed = (s.array q j).performed + 1 ∧ t.mem = s.mem ∧ t.threads = s.threads)) ∧
  (∀ (i : Instr) (s : State) (q j p : Nat), (s.array q j).isReady = true → p < 16 →
     ((s.array q j).headOf p).common ≠ ((s.array q j).headOf 0).common →
     (i = .jointCfg q j ∧ ((s.array q j).headOf 0).fn = 0) ∨ (i = .jointZero q j ∧ ((s.array q j).headOf 0).fn = 1) ∨
       (i = .jointMma q j ∧ ((s.array q j).headOf 0).fn = 2) ∨ (i = .jointDrain q j ∧ ((s.array q j).headOf 0).fn = 3) →
     ∃ t, exec i s = .next t ∧ t.mem = s.mem ∧ (t.array q j).set0 = (s.array q j).set0 ∧
       (t.array q j).set1 = (s.array q j).set1 ∧ (t.array q j).performed = (s.array q j).performed + 1 ∧
       ∀ m, m < 16 → tget [] (t.array q j).fails m = tget [] (s.array q j).fails m ++ [((s.array q j).performed + 1, 1)])

/-- MX.MMA performed on unpoisoned operands (R120, R121, R146): every entry (r, n) of the set becomes the accumulation, in
the order of the input format, of row r of A and row n of B onto what it held; the other set stays, and beside the reads' own requests,
which reach memory only through the members' buffered stores (R122), memory and the threads do. -/
def Obligations.JointMultiply : Prop :=
  ∀ (s : State) (q j : Nat), (s.array q j).isReady = true → ((s.array q j).headOf 0).fn = 2 →
    (∀ p, p < 16 → ((s.array q j).headOf p).common = ((s.array q j).headOf 0).common) →
    let x := s.array q j
    let set := bits (x.headOf 0).d 16 16
    let s₁ := s.readyOperands q j x
    x.spoiled set = none → (∀ r, r < 128 → (aRow s₁ x r).2.2 = false ∧ (bRow s₁ x r).2.2 = false) →
    ∃ t, exec (.jointMma q j) s = .next t ∧ t.mem = s₁.mem ∧ t.threads = s₁.threads ∧
      ((∀ p, p < 16 → (s.core (192 * q + 16 * j + p)).wbuf = []) → t.mem = s.mem ∧ t.threads = s.threads) ∧
      (t.array q j).performed = x.performed + 1 ∧ (t.array q j).setOf (1 - set) = x.setOf (1 - set) ∧
      ∀ r n, r < 128 → n < 128 →
        tget 0 ((t.array q j).setOf set) (128 * r + n) =
          BitVec.ofNat 64 (accumulate (cfgIn x.cfg) (bits (x.headOf 0).d 15 0) ((aRow s₁ x r).1, (aRow s₁ x r).2.1)
            ((bRow s₁ x n).1, (bRow s₁ x n).2.1) (x.entry set (128 * r + n))).1

namespace Sys2Proof.Says

/-- An entry in a scalar OUT format (R124, R130): one whose format is the accumulator's own moves unchanged, an integer saturates, any
other rounds under CFG.RM. -/
def outElement (x : JArray) (set i : Nat) : Nat :=
  let v := x.entry set i
  let src : Fmt := if accOf (cfgIn x.cfg) = 1 then fp64 else fp32
  match cfgOut x.cfg with
  | 0 => if accOf (cfgIn x.cfg) = 0 then v else (fCvtBits src fp32 (cfgRm x.cfg) v).1
  | 1 => (fCvtBits src bf16 (cfgRm x.cfg) v).1
  | 2 => (fCvtBits src fp16 (cfgRm x.cfg) v).1
  | 3 => if accOf (cfgIn x.cfg) = 1 then v else (fCvtBits src fp64 (cfgRm x.cfg) v).1
  | 4 => v
  | _ => (BitVec.ofInt 8 (max (-128) (min 127 (signedN 32 v)))).toNat

/-- Bytes of an element of a scalar OUT format (R124). -/
def outBytes : Nat → Nat
  | 0 => 4
  | 1 => 2
  | 2 => 2
  | 3 => 8
  | 4 => 4
  | _ => 1

/-- Block b of row r in DB8 or DB4 with gap KGAP (R124, R143): its two exponents, its 32 elements, its flags. -/
def outBlockAt (x : JArray) (set r b : Nat) : Nat × Nat × List Nat × FFlags :=
  let eight : Bool := cfgOut x.cfg = 5
  let gap := if cfgGap x.cfg ≠ 0 then cfgGap x.cfg else if eight then 4 else 2
  (if eight then db8 else db4).convert gap ((List.range 32).map fun i => FVal.of fp32 (x.entry set (128 * r + 32 * b + i)))

/-- What a drain to tiles leaves of a member's eight rows at the base of its tile (R124): row-major elements in OUT, those of DB8 and DB4
with an exponent plane directly after them, E0 and then E1 of each block. -/
def Drained (x : JArray) (set p : Nat) (m : List Host.Cell) (key : Nat) : Prop :=
  let o := cfgOut x.cfg
  (o ≠ 5 → o ≠ 6 → ∀ r e, r < 8 → e < 128 →
    natAt m (key + (128 * r + e) * outBytes o) (outBytes o) = outElement x set (128 * (8 * p + r) + e) % 2 ^ (8 * outBytes o)) ∧
  (o = 5 ∨ o = 6 → ∀ r b, r < 8 → b < 4 →
    let blk := outBlockAt x set (8 * p + r) b
    let plane := key + if o = 5 then 1024 else 512
    byteAt m (plane + 8 * r + 2 * b) = BitVec.ofNat 8 blk.1 ∧ byteAt m (plane + 8 * r + 2 * b + 1) = BitVec.ofNat 8 blk.2.1 ∧
      ∀ e, e < 32 →
        (o = 5 → (byteAt m (key + 128 * r + 32 * b + e)).toNat = nth 0 blk.2.2.1 e % 256) ∧
        (o = 6 → (byteAt m (key + 64 * r + 16 * b + e / 2)).toNat / 16 ^ (e % 2) % 16 = nth 0 blk.2.2.1 e % 16))

end Sys2Proof.Says

/-- MX.DRAIN performed (R58, R123 to R126): to tiles, every member's tile has seen its last write and the operation is done; each
member's eight rows lie from its tile's base on, in OUT, with the exponent plane of a block format after them, and no other byte of
memory changes. To the field, the drain begins where a region of the context receives it, else it fails with status 0x03; then its tokens go one by one
to the drain port's output, EOS ending it. No set changes. That a drain counts as performed from its beginning, while its tokens still go,
that it is refused at its beginning even where the region is idle, and the number it has are the model's choices (logs 46, 48, 54). -/
def Obligations.JointDrains : Prop :=
  ∀ (s : State) (q j : Nat), (s.array q j).isReady = true → ((s.array q j).headOf 0).fn = 3 →
    (∀ p, p < 16 → ((s.array q j).headOf p).common = ((s.array q j).headOf 0).common) →
    let x := s.array q j
    let port := drainPort q j
    let f := folioOf q
    (bit (x.headOf 0).d 17 = false →
      (∀ p, p < 16 → ((s.core (192 * q + 16 * j + p)).tile x.ctx (bits (x.headOf p).d 4 0)).st = .filling) →
      ∃ t, exec (.jointDrain q j) s = .next t ∧ (t.array q j).set0 = x.set0 ∧ (t.array q j).set1 = x.set1 ∧
        (t.array q j).performed = x.performed + 1 ∧
        (∀ p, p < 16 → ((t.core (192 * q + 16 * j + p)).tile x.ctx (bits (x.headOf p).d 4 0)).landed = true) ∧
        let base := fun p : Nat => ((s.core (192 * q + 16 * j + p)).tile x.ctx (bits (x.headOf p).d 4 0)).base
        let key := fun p : Nat => 2 ^ 52 + (192 * q + 16 * j + p) * 262144 + base p
        (cfgLegal x.cfg = true → (∀ p, p < 16 → base p + drainBytes (cfgOut x.cfg) ≤ 262144) →
          (∀ p, p < 16 → Drained x (bits (x.headOf 0).d 16 16) p t.mem (key p)) ∧
          ∀ k, (∀ p, p < 16 → ¬(key p ≤ k ∧ k < key p + drainBytes (cfgOut x.cfg))) → byteAt t.mem k = byteAt s.mem k)) ∧
    (bit (x.headOf 0).d 17 = true → s.drainReceiver q j x = none →
      ∃ t, exec (.jointDrain q j) s = .next t ∧ t.mem = s.mem ∧ (t.array q j).set0 = x.set0 ∧ (t.array q j).set1 = x.set1 ∧
        ∀ m, m < 16 → tget [] (t.array q j).fails m = tget [] x.fails m ++ [(x.performed + 1, 3)]) ∧
    (∀ n rd, s.regionAt f port.1 = some n → (s.region f n).recAt port.1 port.2 = some rd →
      (s.region f n).owner = x.ctx → rd.kind = 3 → rd.drains = true →
      (bit (x.headOf 0).d 17 = true →
        ∃ t, exec (.jointDrain q j) s = .next t ∧ t.mem = s.mem ∧ (t.array q j).set0 = x.set0 ∧ (t.array q j).set1 = x.set1 ∧
          (t.array q j).performed = x.performed + 1 ∧
          (t.array q j).draining =
            some { op := x.performed + 1, set := bits (x.headOf 0).d 16 16, inv := none, sent := 0 }) ∧
      (∀ (s' : State) (y : JArray) (d : FieldDrain), s' = s.setArray q j y → y.ctx = x.ctx → y.draining = some d →
        y.isReady = false → (s.region f n).phase = .running → (s.region f n).frozen = false →
        (s.ftile f port.1 port.2).roomOut 0 = true →
        let tok := y.drainToken d.set d.sent
        ∃ t, exec (.jointDrain q j) s' = .next t ∧ t.mem = s.mem ∧ (t.array q j).set0 = y.set0 ∧ (t.array q j).set1 = y.set1 ∧
          t.ftile f port.1 port.2 = (s.ftile f port.1 port.2).emit 0 { kind := tok.1, payload := tok.2, src := [], arr := 0 } ∧
          (t.array q j).performed = y.performed ∧
          (t.array q j).draining =
            if tok.1 = .eos then none else some { d with inv := some (s.region f n).invNo, sent := d.sent + 1 }))

/-! Floating point, predicates and vectors. -/

/-- Scalar floating point for all operands: the result goes to the destination, the flags it raises join FCTL, the pc moves
on, and nothing else changes (R52, R135, R286, R357 to R359). -/
def Obligations.FloatResults : Prop :=
  ∀ (i : Instr) (s : State) (d : SReg) (r : FRes), Quiet s → floatResult s i = some (d, r) →
    ∃ st, Completes i s ((s.th.orFlags r.2).ws d (BitVec.ofNat 64 r.1) st) (s.th.pc + 4)

/-- NaNs, infinities and zeros in FP32 and FP64 arithmetic (R136, R137): the first NaN operand comes out quieted, with NV
when either is signaling; ∞ − ∞ in a sum or a difference, zero times infinity either way round, 0/0 and ∞/∞ give the canonical NaN with
NV; a number over zero gives infinity with DZ; a root of a value below −0 gives the canonical NaN with NV. FMA takes a NaN a or b
first, with NV for any signaling operand, then a NaN c, with NV when it signals or a × b is 0 × ∞; then 0 × ∞, or an infinite
product and the opposite infinity, gives the canonical NaN with NV, any other infinite product or c that infinity, and a zero product
with a finite c other than zero gives c. -/
def Obligations.FloatSpecials : Prop :=
  ∀ (p : FPrec) (rm x y z : Nat),
    let f := fpFmt p
    let a := FVal.of f x
    let b := FVal.of f y
    let c := FVal.of f z
    let invalid : FRes := (f.nan, fNV)
    (∀ op, op ∈ [fAddBits, fSubBits, fMulBits, fDivBits] →
      (∀ n fr sn, a = .nan n fr sn → op f rm x y = (quieted f n fr, if sn || b.isSNaN then fNV else 0)) ∧
      (∀ n fr sn, a.isNaN = false → b = .nan n fr sn → op f rm x y = (quieted f n fr, if sn then fNV else 0))) ∧
    (∀ n, a = .inf n →
      (b = .inf (!n) → fAddBits f rm x y = invalid) ∧ (b = .inf n → fSubBits f rm x y = invalid) ∧
      (b.isZero = true → fMulBits f rm x y = invalid) ∧ (b.isInf = true → fDivBits f rm x y = invalid) ∧
      (b.isNaN = false → b ≠ .inf (!n) → fAddBits f rm x y = (f.inf n, 0)) ∧
      (b.isNaN = false → b ≠ .inf n → fSubBits f rm x y = (f.inf n, 0))) ∧
    (a.isZero = true → b.isInf = true → fMulBits f rm x y = invalid) ∧
    (a.isZero = true → b.isZero = true → fDivBits f rm x y = invalid) ∧
    (∀ n m e, a = .fin n m e → m ≠ 0 → b.isZero = true → fDivBits f rm x y = (f.inf (n != b.neg?), fDZ)) ∧
    (∀ n fr sn, a = .nan n fr sn → fSqrtBits f rm x = (quieted f n fr, if sn then fNV else 0)) ∧
    (∀ m e, a = .fin true m e → m ≠ 0 → fSqrtBits f rm x = invalid) ∧
    (a = .inf true → fSqrtBits f rm x = invalid) ∧
    (∀ n fr sn, a = .nan n fr sn →
      fFmaBits f rm x y z = (quieted f n fr, if sn || b.isSNaN || c.isSNaN then fNV else 0)) ∧
    (∀ n fr sn, a.isNaN = false → b = .nan n fr sn →
      fFmaBits f rm x y z = (quieted f n fr, if sn || c.isSNaN then fNV else 0)) ∧
    (a.isNaN = false → b.isNaN = false →
      let noProduct : Bool := (a.isZero && b.isInf) || (a.isInf && b.isZero)
      let infProduct : Bool := (a.isInf || b.isInf) && !noProduct
      let n := a.neg? != b.neg?
      (∀ k fr sn, c = .nan k fr sn → fFmaBits f rm x y z = (quieted f k fr, if sn || noProduct then fNV else 0)) ∧
      (c.isNaN = false → noProduct = true → fFmaBits f rm x y z = invalid) ∧
      (infProduct = true → c = .inf (!n) → fFmaBits f rm x y z = invalid) ∧
      (infProduct = true → c.isNaN = false → c ≠ .inf (!n) → fFmaBits f rm x y z = (f.inf n, 0)) ∧
      (∀ k, a.isInf = false → b.isInf = false → c = .inf k → fFmaBits f rm x y z = (f.inf k, 0)) ∧
      (a.isInf = false → b.isInf = false → (a.isZero || b.isZero) = true →
        (∀ k m e, c = .fin k m e → m ≠ 0 → fFmaBits f rm x y z = (z % 2 ^ f.width, 0)) ∧
        (c.isZero = true → fFmaBits f rm x y z = (f.zero (if n = c.neg? then n else rm == 3), 0))))

/-- The predicate instructions for all operands (R290, R384, R387, R430). Every word of PCMP, with [31:25] zero, decodes to its
comparison for the condition codes 0 to 5 and to no instruction for 6 and 7, nor with any of [31:25] set; a word of no instruction
raises illegal instruction; pd = 0 keeps its constant. -/
def Obligations.PredicateResults : Prop :=
  (∀ (i : Instr) (s : State) (d : PReg) (v : Word), Quiet s → predResult s i = some (d, v) →
     ∃ st, Completes i s (s.th.wp d v st) (s.th.pc + 4)) ∧
  (∀ (x : Thread) (v : Word) (st : Nat), (x.wp 0 v st).rp 0 = x.rp 0) ∧
  (∀ (pd : PReg) (a b : SReg) (c z : Nat), c < 8 → z < 128 →
     decodeTableWord 32 (0x53 + pd.val * 2 ^ 7 + c * 2 ^ 10 + a.val * 2 ^ 13 + b.val * 2 ^ 19 + z * 2 ^ 25) =
       if z = 0 then [PCond.eq, .ne, .lt, .ge, .ltn, .gen][c]?.map fun k => .pcmp pd k a b else none) ∧
  decodeTableWord 32 0x004908D3 = some (.pcmp 1 .lt 8 9) ∧
  (∀ (s : State), Traps .illegalInstruction s 0x01 0)

/-- The lanewise vector instructions: every active lane takes its own result, an inactive one keeps its value, the flags are
those of the active lanes, and no other vector register, no scalar or predicate register and no memory changes (R287). -/
def Obligations.VectorLanes : Prop :=
  ∀ (i : Instr) (s : State) (x : Lanes), Quiet s → i.wellFormed = true → laneForm s i = some x →
    ∃ t v st, exec i s = .next t ∧
      OnlyThread s t (moved ((s.th.orFlags (laneFlags s x)).wv x.vd v st) (s.th.pc + 4)) ∧
      ∀ k, k < x.count → laneOf x.w v k = if laneOn x.w (s.rp x.pm) k then (x.lane k).1 % 2 ^ x.w else laneOf x.w (s.rv x.vd) k

/-- V.CMP (R288, R426): the predicate bits of every byte of an active lane are the condition on it, the others stay. V.CVT (R288,
R427): each active lane holds its converted value, and the flags raised are those of the active lanes. The reductions (R148, R428), and
the moves to a scalar register (R289, R430). That a conversion between integer types saturates where it does not narrow is the model's
choice (log 167). -/
def Obligations.VectorOthers : Prop :=
  (∀ (pd : PReg) (va vb : VReg) (pm : PReg) (ty : VType) (c : VCond) (s : State), Quiet s →
     let w := vbits ty
     let r := fun i => vcmpLane ty c (laneOf w (s.rv va) i) (laneOf w (s.rv vb) i)
     let fl := (List.range (512 / w)).foldl (fun g i => if laneOn w (s.rp pm) i then g ||| (r i).2 else g) 0
     ∃ t v st, exec (.vCmp pd va vb pm ty c) s = .next t ∧
       OnlyThread s t (moved ((s.th.orFlags fl).wp pd v st) (s.th.pc + 4)) ∧
       ∀ k, k < 64 → v.getLsbD k = if laneOn w (s.rp pm) (k / (w / 8)) then (r (k / (w / 8))).1 else (s.rp pd).getLsbD k) ∧
  (∀ (s : State), Quiet s →
     (∀ vd va pm f g, f ≠ g →
       let n := 512 / max (vbits f) (vbits g)
       let r := fun k => vcvtLane f g s.th.rm (laneOf (vbits f) (s.rv va) k)
       let fl := (List.range n).foldl (fun e k => if laneOn (vbits g) (s.rp pm) k then e ||| (r k).2 else e) 0
       ∃ t v st, exec (.vCvt vd va pm f g) s = .next t ∧
         OnlyThread s t (moved ((s.th.orFlags fl).wv vd v st) (s.th.pc + 4)) ∧
         (∀ k, k < n → laneOf (vbits g) v k =
           if laneOn (vbits g) (s.rp pm) k then (r k).1 % 2 ^ vbits g
           else laneOf (vbits g) (s.rv vd) k) ∧
         (∀ k, n ≤ k → k < 512 / vbits g → laneOf (vbits g) v k = 0)) ∧
     (∀ i vd va pm ty o e, reduceForm i = some (vd, va, pm, ty, o, e) →
       let r := treeFold (o.run ty s.th.rm) 6 ((List.range (512 / vbits ty)).map fun k =>
         (if laneOn (vbits ty) (s.rp pm) k then laneOf (vbits ty) (s.rv va) k else e, 0))
       ∃ st, Completes i s ((s.th.orFlags r.2).wv vd (BitVec.ofNat 512 (r.1 % 2 ^ vbits ty)) st) (s.th.pc + 4)) ∧
     (∀ v r (k : Fin 64) w, ∃ st,
       Completes (.vMovMovs v r k w) s (s.th.ws r (BitVec.ofNat 64 (laneOf w.bits (s.rv v) k)) st) (s.th.pc + 4)) ∧
     (∀ p r, ∃ st, Completes (.vMovP2s p r) s (s.th.ws r (s.rp p) st) (s.th.pc + 4)))

/-- V.LD and V.ST (R422) at a placed site of ordinary memory: the selected bytes of the 64 are loaded, and stored, the stored
bytes entering the core's write buffer after the operand reads of the thread's earlier MMAs (R122). V.LDX and V.STX (R288, R423): once every
active element passes its checks, each active lane holds its element, or the stores are made. That the element loads of FIFOs pop
together, and wait listed at the first FIFO that cannot serve them, is the model's choice (log 144). -/
def Obligations.VectorAccesses : Prop :=
  (∀ (v : VReg) (b : SReg) (p : PReg) (m : Sem) (c : Scope) (o : BitVec 7) (s : State) (site : Site) (s₁ : State), Quiet s →
     let ea := s.rs b + BitVec.ofInt 64 (64 * o.toInt)
     (s.vsite .load ea = .ok (site, s₁) → (site.kind = 4 → s₁.peerServes site 64 = true) →
       (site.kind = 3 → s₁.portUp site.key = true) →
       (∀ k, k < 64 → (s.rp p).getLsbD k = true → (s₁.meets site).poisoned (site.key + k) 1 = false) →
       let r := (s₁.acquireIf m c).loadAt site 64 (s.ss b)
       ∃ t x st, exec (.vLd v b p m c o) s = .next t ∧ OnlyThread r.2.2 t (moved (r.2.2.th.wv v x st) (s.th.pc + 4)) ∧
         ∀ k, k < 64 → laneOf 8 x k = if (s.rp p).getLsbD k then (nth 0 r.1 k).toNat else laneOf 8 (s.rv v) k) ∧
     (∀ s₂, s.vsite .store ea = .ok (site, s₁) →
       (s₁.meets site).partPoison ((activeBytes (s.rp p)).map (site.key + ·)) = false → s₁.releaseIf m c = .ok s₂ →
       let s₃ := s₂.pinTouched s.cur ea
       (NoReads s₂ → s₃ = s₂) ∧
       ∃ t, exec (.vSt v b p m c o) s = .next t ∧ t.th.pc = s.th.pc + 4 ∧ t.mem = s₃.mem ∧
         (s.rp p ≠ 0 → ∃ e, (t.core t.myCore).wbuf = (s₃.core s₃.myCore).wbuf ++ [e] ∧ e.thread = s.cur ∧
           e.cells = (activeBytes (s.rp p)).map fun k => (site.key + k, BitVec.ofNat 8 (laneOf 8 (s.rv v) k))))) ∧
  (∀ (v vi : VReg) (p : PReg) (b : SReg) (wide : Bool) (s : State), Quiet s →
     let n := if wide then 8 else 4
     (∀ sites s₁, State.laneSites .load n (s.eaLane b vi wide) (s.activeLanes p wide) s = .ok (sites, s₁) →
       let fs := s₁.lanePops n sites
       ((∀ f ∈ fs, s₁.mayPop f (fs.count f) = true) → ∀ vals st s₂,
         State.laneLoads n (max (s.ss b) (s.vs vi)) sites (s₁.unlistLoads s.cur) = .ok (vals, st, s₂) →
         ∃ t x z, exec (.vLdx v vi p b wide) s = .next t ∧ OnlyThread s₂ t (moved (s₂.th.wv v x z) (s.th.pc + 4)) ∧
           ∀ k, k < 64 / n → laneOf (8 * n) x k =
             if laneOn (8 * n) (s.rp p) k then tget 0 vals k % 2 ^ (8 * n) else laneOf (8 * n) (s.rv v) k) ∧
       (∀ f, fs.find? (fun f => !s₁.mayPop f (fs.count f)) = some f →
         ∃ t, exec (.vLdx v vi p b wide) s = .next t ∧ t.th.wait = .retry ∧ t.th.pc = s₁.th.pc ∧ t.mem = s₁.mem ∧
           s.cur ∈ (t.fifoAt f).loads)) ∧
     (∀ sites s₁ s₂, State.laneSites .store n (s.eaLane b vi wide) (s.activeLanes p wide) s = .ok (sites, s₁) →
       State.laneStores n (laneOf (8 * n) (s.rv v)) sites s₁ = .ok s₂ →
       ∃ t, exec (.vStx v vi p b wide) s = .next t ∧ OnlyThread s₂ t (moved s₂.th (s.th.pc + 4))))

/-! Calls, traps and system registers. -/

/-- CALL, CALLR, JR and RET within quire code (R94, R103, R339, R369, R389), their traps, and CALLR through a tag-01 pointer: with
a descriptor to read and a frame in the pool it suspends the thread past the CALLR with its link written. -/
def Obligations.CallsAndJumps : Prop :=
  ∀ (d a : SReg) (s : State), Quiet s →
    let p := s.rs a
    let link := s.th.pc + 4
    (∀ i, ∃ st, Completes (.call d i) s (s.th.ws d link st) (away s.th.pc i)) ∧
    (∀ i vec, (∃ n, i = .callr d a n ∧ vec = false) ∨ (∃ n, i = .callrV d a n ∧ vec = true) →
      (tagOf p = 0 → (targetOf p).toNat % 4 = 0 → ∃ st, Completes i s (s.th.ws d link st) (targetOf p)) ∧
      (tagOf p = 0 → (targetOf p).toNat % 4 ≠ 0 → Traps i s 0x03 p) ∧
      (2 ≤ tagOf p → Traps i s 0x01 p) ∧
      (tagOf p = 1 → (targetOf p).toNat % 64 ≠ 0 → Traps i s 0x03 p) ∧
      (∀ s₁ fifo s₂, tagOf p = 1 → (targetOf p).toNat % 64 = 0 → s.release .device = .ok s₁ →
        s₁.calleeFifo (targetOf p) = .ok (fifo, s₂) →
        (fifo = 0 → Traps i s 0x01 p) ∧
        (∀ v s₃, fifo ≠ 0 → s₂.popFrame s.th.ctx vec = (.error v, s₃) →
          ∃ t, exec i s = .next t ∧ OnlyThread s₃ t (trapped s₃ s₃.th 0x13 (BitVec.ofNat 64 v)) ∧ t.mem = s₂.mem) ∧
        (∀ f s₃, fifo ≠ 0 → s₂.popFrame s.th.ctx vec = (.ok f, s₃) →
          ∃ t, exec i s = .next t ∧ t.th.wait = .crossing f.toNat ∧ t.th.pc = link ∧
            t.rs d = (if d = 0 then 0 else link)))) ∧
    (∀ i, i = .jr a ∨ i = .ret a →
      (tagOf p ≠ 2 → (targetOf p).toNat % 4 = 0 → Completes i s s.th (targetOf p)) ∧
      (tagOf p ≠ 2 → (targetOf p).toNat % 4 ≠ 0 → Traps i s 0x03 (targetOf p)) ∧
      (tagOf p = 2 → (∀ f, s.th.work ≠ .callback f) → Traps i s 0x01 0) ∧
      (∀ f s₁, tagOf p = 2 → s.th.work = .callback f → (targetOf p).toNat = f → s.gangMember s.cur = false →
        s.release .device = .ok s₁ →
        ∃ t, exec i s = .next t ∧ (t.thr s.cur).work = .free ∧ t.returns = s₁.returns ++ [(s₁.th.ctx, f)]))

namespace Sys2Proof.Says

/-- The launch waits of the issuing thread's context that are watched and not satisfied stand at the words of their addresses (R30). -/
def WatchedAnew (s t : State) : Prop :=
  ∀ w ∈ t.watches, w.hit = false → ∀ l, s.launch w.launch = some l → l.ctx = s.th.ctx →
    ∀ site m, t.waitSite l w.k = some (site, m) → w.key = site.key

end Sys2Proof.Says

/-- The SYS functions (R412, R228, R281, R193): TRAP raises system call past itself, BRK breakpoint at itself, an illegal word
illegal instruction and a fetch that faults its cause at its address; ERET returns to user mode at TRAPPC and is privileged;
ISYNC discards the fetched words; YIELD goes on. Translation invalidation (R159, R433): user mode traps; in supervisor mode
XL.INV leaves no cached translation of the page, or none of the context that is not global, and every launch wait of the context that is
still watched stands at the word that its address names now (R30); XL.SYNC ends once no storer, no
FIFO and no pinned operand holds an access through a removed one. That XL.INV removes at once, before XL.SYNC, is the
model's choice (log 39), as is the pc past itself that TRAP's double trap leaves (log 22). -/
def Obligations.SystemInstructions : Prop :=
  (∀ (s : State),
     (∀ n : BitVec 6, ∃ t, exec (.trap n) s = .next t ∧
       OnlyThread s t ((moved s.th (s.th.pc + 4)).takeTrap s.myCtx.trapvec
         { cause := 0x14, val := n.setWidth 64, post := true, pc := s.th.pc + 4, frame := 0, iter := 0, sub := 0, frec := false })) ∧
     Traps .brk s 0x0C 4 ∧ Traps .illegalInstruction s 0x01 0 ∧
     (∀ c a s₁, s.fetchInstr = (.fault c a, s₁) →
       ∃ t, exec .instructionFetchFault s = .next t ∧ OnlyThread s₁ t (trapped s₁ s₁.th c a)) ∧
     (s.th.mode = .user → Traps .eret s 0x02 0) ∧
     (s.th.mode = .supervisor →
       ∃ t, exec .eret s = .next t ∧ OnlyThread s t { s.th with mode := .user, pc := s.th.trapPc, wait := .none }) ∧
     (Quiet s → Completes .isync s { s.th with ibuf := [] } (s.th.pc + 4)) ∧
     (Quiet s → Completes .yield s { s.th with yielded := true } (s.th.pc + 4))) ∧
  (∀ (a : SReg) (s : State),
     (s.th.mode = .user → Traps (.xlInvVa a) s 0x02 0 ∧ Traps .xlInvCtx s 0x02 0 ∧ Traps .xlSync s 0x02 0) ∧
     (s.th.mode = .supervisor →
       (canonical (s.rs a) = false → Completes (.xlInvVa a) s s.th (s.th.pc + 4)) ∧
       (canonical (s.rs a) = true →
         ∃ t, exec (.xlInvVa a) s = .next t ∧ t.th.pc = s.th.pc + 4 ∧ t.mem = s.mem ∧
           (∀ e ∈ t.tlbs, e.ctx = s.th.ctx → e.page ≠ (s.rs a).toNat % 2 ^ 56 / 2 ^ e.bits) ∧ WatchedAnew s t) ∧
       (∃ t, exec .xlInvCtx s = .next t ∧ t.th.pc = s.th.pc + 4 ∧ t.mem = s.mem ∧
         (∀ e ∈ t.tlbs, e.ctx = s.th.ctx → pteG e.pte = true) ∧ WatchedAnew s t) ∧
       (s.heldThrough s.th.ctx s.th.removed = false → s.fifoThrough s.th.ctx s.th.removed = false →
         s.pinnedBy s.th.ctx (anyCovers s.th.removed) = false →
         ∃ t, exec .xlSync s = .next t ∧ t.th.pc = s.th.pc + 4 ∧ t.th.removed = [])))

/-- A trap taken in user mode under a vector (R228): the trap registers hold the cause, the value, the pc and the fields its rule
states, the thread goes on in supervisor mode at the vector, and no other register of it changes; a trap in supervisor mode, or
without a vector, is a double trap: the thread halts with DCAUSE and DBL set (R230). With STEP set an integer instruction of user
mode completes and then takes the step trap, TRAPPC at the next instruction, or with MODE set halts there (R67). That a double trap after
completion leaves the pc at the next instruction is the model's choice (log 22). -/
def Obligations.TrapEntries : Prop :=
  (∀ (x : Thread) (vec : Word) (i : TrapInfo),
     let y := x.takeTrap vec i
     (x.mode = .user → vec ≠ 0 →
       y = { x with mode := .supervisor, pc := vec, wait := .none, trapCause := BitVec.ofNat 8 i.cause, trapVal := i.val
                    trapPc := i.pc, trapFrame := i.frame, trapIter := i.iter, trapSub := BitVec.ofNat 8 i.sub
                    trapFrec := i.frec, trapPost := i.post, trapKind := x.work.code, dcause := 0, trapDbl := false }) ∧
     (x.mode = .user → vec = 0 →
       y = { x with halted := true, wait := .none, trapCause := BitVec.ofNat 8 i.cause, trapVal := i.val
                    trapPc := i.pc, trapFrame := i.frame, trapIter := i.iter, trapSub := BitVec.ofNat 8 i.sub
                    trapFrec := i.frec, trapPost := i.post, trapKind := x.work.code, dcause := BitVec.ofNat 8 i.cause
                    trapDbl := true }) ∧
     (x.mode = .supervisor → y = { x with halted := true, wait := .none, dcause := BitVec.ofNat 8 i.cause, trapDbl := true })) ∧
  (∀ (i : Instr) (s : State) (d : SReg) (v : Word), s.th.mode = .user → s.th.stepping = true → intResult s i = some (d, v) →
     ∃ st t, exec i s = .next t ∧
       let x := moved (s.th.ws d v st) (s.th.pc + 4)
       OnlyThread s t
         (if s.th.stepHalts then { x with halted := true }
          else x.takeTrap s.myCtx.trapvec
           { cause := 0x0D, val := 0, post := true, pc := s.th.pc + 4, frame := 0, iter := 0, sub := 0, frec := false }))

namespace Sys2Proof.Says

/-- The registers of R51 with the modes that may read and write them: number, read in user mode, written in user mode, written
in supervisor mode. -/
def registers : List (Nat × Bool × Bool × Bool) :=
  [(0x000, true, true, true), (0x001, true, false, false), (0x002, true, false, false), (0x003, true, false, false),
   (0x004, true, false, false), (0x005, true, false, false), (0x006, true, false, false), (0x010, false, false, true),
   (0x011, false, false, true), (0x012, false, false, true), (0x013, false, false, true), (0x014, false, false, true),
   (0x015, false, false, true), (0x016, false, false, true), (0x017, false, false, true), (0x020, false, false, true),
   (0x021, false, false, true), (0x022, false, false, true), (0x023, false, false, true), (0x024, false, false, true),
   (0x030, true, true, true), (0x040, false, false, false), (0x041, false, false, true), (0x050, true, false, false),
   (0x060, true, false, true), (0x070, false, false, true)]

/-- The access check of R51: the cause of its trap, none where the access may go on. -/
def accessCause (user write : Bool) (r : Nat) : Option Nat :=
  match registers.find? fun e => e.1 == r with
  | none => some 0x01
  | some (_, ur, uw, sw) =>
    if user = true ∧ ur = false then some 0x02
    else if write = true ∧ (if user then uw else sw) = false then some 0x01
    else none

/-- The registers of a thread as a write leaves them (R49, R66, R226, R415). -/
def written (t : Thread) (r : Nat) (v : Word) : Option Thread :=
  match r with
  | 0x000 => some { t with fctl := v.setWidth 8 }
  | 0x011 => some { t with trapCause := v.setWidth 8 }
  | 0x012 => some { t with trapPc := v }
  | 0x013 => some { t with trapVal := v }
  | 0x014 => some { t with trapFrame := v }
  | 0x015 => some { t with trapIter := v }
  | 0x016 => some { t with trapSub := BitVec.ofNat 8 (v.toNat / 2 ^ 8), trapFrec := v.getLsbD 7
                           trapKind := BitVec.ofNat 3 (v.toNat / 2 ^ 4), trapPost := v.getLsbD 1 }
  | 0x017 => some { t with trapScratch := v }
  | 0x020 => some { t with stepctl := v.setWidth 7 }
  | 0x021 => some { t with brk := t.brk.set 0 (v &&& ~~~3) }
  | 0x022 => some { t with brk := t.brk.set 1 (v &&& ~~~3) }
  | 0x023 => some { t with brk := t.brk.set 2 (v &&& ~~~3) }
  | 0x024 => some { t with brk := t.brk.set 3 (v &&& ~~~3) }
  | 0x030 => some { t with waitLimit := v }
  | _ => none

/-- Values that a register refuses (R66, R135, R226): a reserved rounding mode, an address that is not canonical, a vector off
its word. -/
def refusedValue (r : Nat) (v : Word) : Bool :=
  (r == 0x000 && decide (4 < v.toNat / 32 % 8)) || ((r == 0x010 || (0x021 ≤ r && r ≤ 0x024)) && !canonical v) ||
    (r == 0x010 && v.toNat % 4 != 0)

/-- The value of the registers that hold one of the thread's words. -/
def held (t : Thread) (r : Nat) : Option Word :=
  match r with
  | 0x000 => some (t.fctl.setWidth 64)
  | 0x001 => some t.wid
  | 0x002 => some t.widShape
  | 0x004 => some (BitVec.ofNat 64 t.ctx)
  | 0x011 => some (t.trapCause.setWidth 64)
  | 0x012 => some t.trapPc
  | 0x013 => some t.trapVal
  | 0x014 => some t.trapFrame
  | 0x015 => some t.trapIter
  | 0x017 => some t.trapScratch
  | 0x020 => some (t.stepctl.setWidth 64)
  | 0x021 => some t.brk[0]
  | 0x022 => some t.brk[1]
  | 0x023 => some t.brk[2]
  | 0x024 => some t.brk[3]
  | 0x030 => some t.waitLimit
  | 0x050 => some t.heapId
  | _ => none

/-- The role that a value of BANKROLE gives a bank (R53). -/
def roleIn (v : Word) (b : Nat) : Nat := bits v (2 * b + 1) (2 * b)

/-- The first refusal that a write of BANKROLE meets in the order of R54: its cause and value. -/
def bankRefusal (s : State) (k : Nat) (v : Word) : Option (Nat × Nat) :=
  if roleIn v 3 ≠ 3 then some (0x01, 3)
  else match [0, 1, 2].find? fun b => roleIn v b == 3 with
    | some b => some (0x01, b)
    | none => [0, 1, 2].findSome? fun b =>
      let old := (s.core k).role b
      if roleIn v b = old then none
      else if old = 1 ∧ ((s.core k).tileIn b).isSome = true then some (0x07, ((s.core k).tileIn b).getD 0)
      else if old = 2 ∧ s.fifoInUse k b = true then some (0x01, b)
      else if old = 1 ∧ s.inPool (k / 192) (k % 192 * 262144 + b * 65536) 65536 = true then some (0x01, b)
      else none

end Sys2Proof.Says

/-- SYSR, SYSW and SYSX (R51, R415): the access check decides the trap; a read gives the register's value, a write of a value that
the register takes leaves it with that value, and SYSX does both as one act. TRAPSTAT reads its fields in their places (R227), QFLAGS
the flags of the context's threads in the quire as last followed (R52), TIME within 1 µs of the device's. MXRAMP (R48, R49) takes each field of the write, or its
floor where that is above it, and a floor is at least 1. BANKROLE (R53, R54): a write that one of the refusals meets traps with the
first of them, one that finds a switch under way waits for it, one that changes nothing completes, and any other sets BUSY for the banks
that change, begins the switch and waits; the switch's end gives the banks their roles and ends the write, and every bank that enters
the scratchpad role reads zero. Which tile of several the refusal names, and that the roles read as before until the switch ends,
are the model's choices (logs 111, 112). QFLAGS follows the flags of the threads (R52), and the ramp limiter counts its slots (R48). -/
def Obligations.SystemRegisters : Prop :=
  (∀ (d a : SReg) (r : BitVec 12) (s : State), Quiet s →
     let n := r.toNat
     let user : Bool := s.th.mode = .user
     (∀ c, accessCause user false n = some c → Traps (.sysr d r) s c 0) ∧
     (accessCause user false n = none → ∃ st, Completes (.sysr d r) s (s.th.ws d (s.sysRead n) st) (s.th.pc + 4)) ∧
     (∀ v, held s.th n = some v → s.sysRead n = v) ∧
     (s.sysRead 0x003 = BitVec.ofNat 64 s.cur ∧ s.sysRead 0x005 = BitVec.ofNat 64 s.cycle ∧
       (∃ e, e ≤ 1000 ∧ s.sysRead 0x006 = BitVec.ofNat 64 (s.time + e)) ∧
       (let w := s.sysRead 0x016
        bits w 63 24 = 0 ∧ bits w 23 16 = s.th.dcause.toNat ∧ bits w 15 8 = s.th.trapSub.toNat ∧ bit w 7 = s.th.trapFrec ∧
          bits w 6 4 = s.th.trapKind.toNat ∧ bit w 3 = false ∧ bit w 2 = s.th.trapDbl ∧ bit w 1 = s.th.trapPost ∧ bit w 0 = false) ∧
       s.sysRead 0x040 = (tget 0 (s.quire s.myQuire).qflags s.th.ctx).setWidth 64 ∧
       s.sysRead 0x010 = s.myCtx.trapvec ∧ s.sysRead 0x060 = s.myCtx.framePool ∧
       s.sysRead 0x041 = BitVec.ofNat 64 ((s.core s.myCore).busy.toNat * 256 + 192 + (s.core s.myCore).role 2 * 16 +
         (s.core s.myCore).role 1 * 4 + (s.core s.myCore).role 0) ∧
       s.sysRead 0x070 = BitVec.ofNat 64 ((s.quire s.myQuire).rampSlots.toNat * 2 ^ 32 +
         (s.quire s.myQuire).rampDown.toNat * 2 ^ 12 + (s.quire s.myQuire).rampUp.toNat)) ∧
     (∀ c, accessCause user true n = some c → Traps (.sysw a r) s c 0 ∧ Traps (.sysx d a r) s c 0) ∧
     (accessCause user true n = none → refusedValue n (s.rs a) = true →
       Traps (.sysw a r) s 0x01 0 ∧ Traps (.sysx d a r) s 0x01 0) ∧
     (∀ x, accessCause user true n = none → refusedValue n (s.rs a) = false → written s.th n (s.rs a) = some x →
       Completes (.sysw a r) s x (s.th.pc + 4) ∧
       ∃ st x', written (s.th.ws d (s.sysRead n) st) n (s.rs a) = some x' ∧ Completes (.sysx d a r) s x' (s.th.pc + 4)) ∧
     (∀ i k, i = .sysw a k ∨ i = .sysx d a k → user = false →
       let old : Word := if i = .sysx d a k ∧ d ≠ 0 then s.sysRead k.toNat else s.rs d
       (k = 0x010 → canonical (s.rs a) = true → (s.rs a).toNat % 4 = 0 →
         ∃ t, exec i s = .next t ∧ t.th.pc = s.th.pc + 4 ∧ t.rs d = old ∧ t.myCtx.trapvec = s.rs a ∧ t.mem = s.mem) ∧
       (k = 0x060 →
         ∃ t, exec i s = .next t ∧ t.th.pc = s.th.pc + 4 ∧ t.rs d = old ∧ t.myCtx.framePool = s.rs a ∧ t.mem = s.mem) ∧
       (k = 0x070 →
         ∃ t, exec i s = .next t ∧ t.th.pc = s.th.pc + 4 ∧ t.rs d = old ∧ t.mem = s.mem ∧
           (t.quire s.myQuire).rampUp.toNat = max (bits (s.rs a) 11 0) (max s.dev.rampFloorUp.toNat 1) ∧
           (t.quire s.myQuire).rampDown.toNat = max (bits (s.rs a) 23 12) (max s.dev.rampFloorDown.toNat 1) ∧
           (t.quire s.myQuire).rampSlots = (s.quire s.myQuire).rampSlots))) ∧
  (∀ (s : State),
     (∀ a d i, i = .sysw a 0x041 ∨ i = .sysx d a 0x041 → s.th.mode = .supervisor →
       let v := s.rs a
       let k := s.myCore
       let old : Word := if i = .sysx d a 0x041 ∧ d ≠ 0 then (s.core k).bankrole else s.rs d
       ((s.core k).switching ≠ none → ∃ t, exec i s = .next t ∧ OnlyThread s t { s.th with wait := .retry }) ∧
       (∀ c n, (s.core k).switching = none → bankRefusal s k v = some (c, n) → Traps i s c (BitVec.ofNat 64 n)) ∧
       ((s.core k).switching = none → bankRefusal s k v = none →
         ((∀ b, b < 3 → roleIn v b = (s.core k).role b) → Quiet s →
           ∃ x st, Completes i s x (s.th.pc + 4) ∧ x = (if i = .sysw a 0x041 then s.th else s.th.ws d old st)) ∧
         ((∃ b, b < 3 ∧ roleIn v b ≠ (s.core k).role b) →
           ∃ t, exec i s = .next t ∧ t.th.wait = .bank k ∧ t.th.pc = s.th.pc ∧ t.rs d = old ∧
             (t.core k).switching =
               some (BitVec.ofNat 2 (roleIn v 0), BitVec.ofNat 2 (roleIn v 1), BitVec.ofNat 2 (roleIn v 2), s.cur) ∧
             ∀ b, b < 3 → (t.core k).role b = (s.core k).role b ∧
               (t.core k).busy.getLsbD b = decide (roleIn v b ≠ (s.core k).role b)))) ∧
     (∀ k r0 r1 r2 n, (s.core k).switching = some (r0, r1, r2, n) → (s.thr n).wait = .bank k → Quiet { s with cur := n } →
       ∃ t, exec (.bankSwitchDone k) s = .next t ∧ (t.core k).role0 = r0 ∧ (t.core k).role1 = r1 ∧ (t.core k).role2 = r2 ∧
         (t.core k).switching = none ∧ (t.core k).busy = 0 ∧ (t.thr n).wait = .none ∧ (t.thr n).pc = (s.thr n).pc + 4 ∧
         (∀ b off, off < 65536 → [r0, r1, r2][b]? = some 1 → (s.core k).role b ≠ 1 →
           byteAt t.mem (2 ^ 52 + k / 192 * 0x3000000 + (k % 192 * 262144 + b * 65536 + off)) = 0)) ∧
     (∀ q c, ∃ t, exec (.qflagsUpdate q c) s = .next t ∧ t.threads = s.threads ∧ t.mem = s.mem ∧
       tget 0 (t.quire q).qflags c = s.flagsOf q c ∧ ∀ k, k < 5 → (s.flagsOf q c).getLsbD k =
         s.threads.any fun e => e.1 / 768 == q && e.2.ctx == c && e.2.work != .free && e.2.fctl.getLsbD k) ∧
     (∀ q n, s.present q = true → ∃ t, exec (.rampRateUpdate q n) s = .next t ∧
       (t.quire q).rampSlots = (s.quire q).rampSlots + BitVec.ofNat 32 n ∧ t.threads = s.threads ∧ t.mem = s.mem))

/-! Gain heaps and sequence units. -/

namespace Sys2Proof.Says

/-- The key operations (R203, R364): function, registers, and whether it releases. -/
def keyForm : Instr → Option (KeyFn × SReg × SReg × SReg × Bool)
  | .ghPush d a b rel => some (.push, d, a, b, rel)
  | .ghAdd d a b rel => some (.add, d, a, b, rel)
  | .ghSet d a b rel => some (.set, d, a, b, rel)
  | _ => none

/-- The value an engine holds for a key (R199, R203): of its running record, else of its entry, else zero. -/
def valueOf (e : HeapEng) (k : Nat) : BitVec 32 :=
  match hget e.running k, hget e.entries k with
  | some r, _ => r.v
  | none, some r => r.v
  | none, none => 0

/-- The value that an operation gives a key (R203): ADD rounds its sum to nearest even. -/
def newValue (e : HeapEng) (fn : KeyFn) (k : Nat) (x : BitVec 32) : BitVec 32 :=
  if fn = .add ∧ ((hget e.running k).isSome || (hget e.entries k).isSome) then
    BitVec.ofNat 32 (fAddBits fp32 0 (valueOf e k).toNat x.toNat).1
  else x

/-- An engine's residual is the exact sum of the magnitudes that it holds, each key in one place (R199, R207). -/
def ResidualExact (e : HeapEng) : Prop :=
  ((e.entries ++ e.running).map HEntry.key).Nodup ∧ e.acc = ((e.entries ++ e.running).map fun x => absUnits x.v).sum

/-- The release that a GH instruction asks for. -/
def releaseFor (s : State) (rel : Bool) : Act? := if rel then s.release .device else .ok s

/-- What an engine holds of a key once an operation has given it a value (R203): a running record keeps running; an entry, and a key that
is neither, is stored unless the value is a zero. PUSH gives the payload; ADD and SET keep it, and take TPAYLOAD on insert. -/
def HeldAs (e e' : HeapEng) (fn : KeyFn) (k : Nat) (v : BitVec 32) (pay tpay : Word) : Prop :=
  match hget e.running k, hget e.entries k with
  | some r, _ => hget e'.running k = some { r with v := v, payload := if fn = .push then pay else r.payload } ∧
      hget e'.entries k = hget e.entries k
  | none, some r => hget e'.running k = none ∧
      hget e'.entries k = if absUnits v = 0 then none else some { r with v := v, payload := if fn = .push then pay else r.payload }
  | none, none => hget e'.running k = none ∧
      hget e'.entries k = if absUnits v = 0 then none else some { key := k, v := v, payload := if fn = .push then pay else tpay }

end Sys2Proof.Says

/-- One key operation (R199, R200, R203, R207): the key's value is the new one, sign and all, with the payload of its function, and
every other key keeps its own; a value of zero leaves nothing stored. The result word holds the old or new value with the running and
inserted bits and zeros above them, and the residual stays the exact sum of the magnitudes. -/
def Obligations.KeyOperations : Prop :=
  ∀ (e e' : HeapEng) (fn : KeyFn) (k : Nat) (x : BitVec 32) (pay tpay w : Word),
    ResidualExact e → e.keyOp fn k x pay tpay = .ok (e', w) →
    let v := newValue e fn k x
    ResidualExact e' ∧ (absUnits v ≠ 0 → valueOf e' k = v) ∧ (absUnits v = 0 → absUnits (valueOf e' k) = 0) ∧
    HeldAs e e' fn k v pay tpay ∧
    (∀ j, j ≠ k → hget e'.entries j = hget e.entries j ∧ hget e'.running j = hget e.running j) ∧
    e' = { e with acc := e'.acc, entries := e'.entries, running := e'.running } ∧
    bits w 31 0 = (if fn = .set then valueOf e k else v).toNat ∧ bit w 32 = (hget e.running k).isSome ∧
    bit w 33 = ((hget e.running k).isNone && (hget e.entries k).isNone && decide (absUnits v ≠ 0)) ∧ bits w 63 34 = 0 ∧
    e'.acc < 2 ^ 288

/-- GH.PUSH, GH.ADD and GH.SET (R200, R203, R364) of a key under 2^32 that its engine takes: the engine becomes what the key
operation makes of it, ADD and SET write its result word; a greater key traps. GH.DONE (R206) ends the key's running record once in a
heap task, storing it where its side value is not a zero; with no room it traps, and out of a heap task, or again, it is illegal.
GH.SUM, GH.CFG and GH.DUMP (R205, R207, R210). -/
def Obligations.HeapInstructions : Prop :=
  (∀ (i : Instr) (fn : KeyFn) (d a b : SReg) (rel : Bool) (s : State) (l : Nat) (h : HeapBinding), Quiet s →
     keyForm i = some (fn, d, a, b, rel) → s.myHeap = some (l, h) →
     ((s.rs a).toNat ≥ 2 ^ 32 → Traps i s 0x01 (s.rs a)) ∧
     (∀ s₁ e w, (s.rs a).toNat < 2 ^ 32 → releaseFor s rel = .ok s₁ →
       (s₁.eng (h.home (s.rs a).toNat)).keyOp fn (s.rs a).toNat ((s.rs b).setWidth 32) (s.rs d) h.tpayload = .ok (e, w) →
       ∃ t, exec i s = .next t ∧ t.th.pc = s.th.pc + 4 ∧ t.mem = s₁.mem ∧
         (t.eng (h.home (s.rs a).toNat)).entries = e.entries ∧ (t.eng (h.home (s.rs a).toNat)).running = e.running ∧
         (t.eng (h.home (s.rs a).toNat)).acc = e.acc ∧
         t.rs d = (if d = 0 then 0 else if fn = .push then s.rs d else w))) ∧
  (∀ (s : State) (l : Nat) (h : HeapBinding), Quiet s → s.myHeap = some (l, h) →
     (∀ rel k s₁, s.th.work = .heapTask l k false → releaseFor s rel = .ok s₁ →
       (CanEnd (s₁.eng (h.home k)) k →
         ∃ t, exec (.ghDone rel) s = .next t ∧ t.th.pc = s.th.pc + 4 ∧ t.th.work = .heapTask l k true ∧
           Ended (s₁.eng (h.home k)) (t.eng (h.home k)) k ∧ t.mem = s₁.mem) ∧
       (¬CanEnd (s₁.eng (h.home k)) k → Traps (.ghDone rel) s 0x0A (BitVec.ofNat 64 k))) ∧
     (∀ rel, (∀ k, s.th.work ≠ .heapTask l k false) → Traps (.ghDone rel) s 0x01 0) ∧
     (∀ d a, s.rs a = 1 → ∃ st, Completes (.ghSum d a) s (s.th.ws d (accFp64 (s.heapSum h)) st) (s.th.pc + 4)) ∧
     (∀ d a, s.rs a = 0 → h.quires.contains s.myQuire = true →
       ∃ st, Completes (.ghSum d a) s (s.th.ws d (accFp64 (s.eng s.myQuire).acc) st) (s.th.pc + 4)) ∧
     (∀ a b, s.rs a = 0 → badFp32 ((s.rs b).setWidth 32) = false → (s.rs b).getLsbD 31 = false →
       ∃ t, exec (.ghCfg a b) s = .next t ∧ t.th.pc = s.th.pc + 4 ∧ t.mem = s.mem ∧
         ∀ q ∈ h.quires, (t.eng q).floor = (s.rs b).setWidth 32) ∧
     (∀ a b, s.rs a = 1 → (s.rs b).getLsbD 63 = false → bits (s.rs b) 62 52 ≠ 2047 →
       ∃ t, exec (.ghCfg a b) s = .next t ∧ t.th.pc = s.th.pc + 4 ∧ t.mem = s.mem ∧ ∀ q ∈ h.quires, (t.eng q).tol = s.rs b) ∧
     (∀ d a b s₁, s.dumpStores (s.rs a) ((s.dumpRecords h).take (s.rs b).toNat) = .ok s₁ →
       ∃ t, exec (.ghDump d a b) s = .next t ∧ t.th.pc = s.th.pc + 4 ∧ t.mem = s₁.mem ∧
         t.rs d = (if d = 0 then 0 else BitVec.ofNat 64 (s.dumpRecords h).length)))

/-- TK.OPEN, TK.RELEASE, TK.DISARM, TK.BUDGET, TK.READ and TK.ARM on legal operands (R213, R214, R217, R218, R223): the record
that the identifier names changes as the rule says and a dead identifier is an engine error. Which free record TK.OPEN takes, the
lowest, and that a fresh counter counts no token until TK.BUDGET has ranged it, are the model's choices (logs 20, 69). -/
def Obligations.SequenceRecords : Prop :=
  ∀ (d a b : SReg) (s : State), Quiet s →
    let x := s.rs a
    let y := s.rs b
    (∀ f, ((x.toNat < 4 ∧ f = x.toNat) ∨ (x = 4 ∧ f = folioOf s.myQuire)) →
      (∀ n, s.freeSeq f 0 16384 = some n →
        (s.seqRec f n).isOpen = false ∧
        ∃ t, exec (.tkOpen d a) s = .next t ∧ t.th.pc = s.th.pc + 4 ∧ t.mem = s.mem ∧
          t.rs d = (if d = 0 then 0 else BitVec.ofNat 64 (seqId f (s.seqRec f n).gen n)) ∧
          t.seqRec f n = { SeqRec.fresh s.th.ctx with gen := (s.seqRec f n).gen }) ∧
      (s.freeSeq f 0 16384 = none →
        ∃ st, Completes (.tkOpen d a) s (s.th.ws d (BitVec.allOnes 64) st) (s.th.pc + 4))) ∧
    (x.toNat < 2 ^ 20 → (s.seqRec (idFolio x) (idRec x)).isOpen = false → Traps (.tkRelease a) s 0x15 x) ∧
    (∀ r, s.liveSeq x = .ok r →
      (x.toNat < 2 ^ 20 →
        ∃ t, exec (.tkRelease a) s = .next t ∧ t.th.pc = s.th.pc + 4 ∧ t.mem = s.mem ∧
          t.seqRec (idFolio x) (idRec x) = { SeqRec.reset with gen := (r.gen + 1) % 16 }) ∧
      (x.toNat < 2 ^ 29 →
        ∃ t, exec (.tkDisarm a) s = .next t ∧ t.th.pc = s.th.pc + 4 ∧ t.mem = s.mem ∧
          (x.getLsbD 28 = true → (t.seqRec (idFolio x) (idRec x)).stopped = false) ∧
          ∀ k, k < 8 → k < r.bms.length →
            ((t.seqRec (idFolio x) (idRec x)).bm k).armed = (if x.getLsbD (20 + k) then false else (r.bm k).armed)) ∧
      (x.toNat < 2 ^ 22 → y.toNat < 2 ^ 48 → bits y 23 0 ≤ bits y 47 24 →
        ∃ t, exec (.tkBudget a b) s = .next t ∧ t.th.pc = s.th.pc + 4 ∧ t.mem = s.mem ∧
          t.seqRec (idFolio x) (idRec x) = { r with lo := setNth r.lo (bits x 21 20) (bits y 23 0)
                                                    hi := setNth r.hi (bits x 21 20) (bits y 47 24)
                                                    ranged := setNth r.ranged (bits x 21 20) true
                                                    cnt := setNth r.cnt (bits x 21 20) 0 }) ∧
      (x.toNat < 2 ^ 20 → y.toNat ≤ 20 →
        ∃ st, Completes (.tkRead d a b) s (s.th.ws d (BitVec.ofNat 64 (r.readSel y.toNat)) st) (s.th.pc + 4)) ∧
      (∀ bs s₁, x.toNat < 2 ^ 23 → y.toNat % 64 = 0 → s.armLoad y 64 (s.ss b) = .ok (bs, s₁) → descOk (wordsOf bs) = true →
        let bm := bookmarkOf (wordsOf bs)
        (bm.action = 1 ∨ bm.action = 2 →
          ∃ t, exec (.tkArm a b) s = .next t ∧ t.th.pc = s.th.pc + 4 ∧ t.mem = s₁.mem ∧
            t.seqRec (idFolio x) (idRec x) = r.setBm (bits x 22 20) bm) ∧
        (∀ ts s₂, bm.action = 3 → bm.addr.toNat % 4 = 0 →
          s₁.armList bm.addr (bits (nth 0 (wordsOf bs) 0) 25 21) = .ok (ts, s₂) → (∀ n ∈ ts, n < 2 ^ 24) →
          ∃ t, exec (.tkArm a b) s = .next t ∧ t.th.pc = s.th.pc + 4 ∧
            t.seqRec (idFolio x) (idRec x) = r.setBm (bits x 22 20) { bm with forced := ts }) ∧
        (∀ site s₂, bm.action = 4 → bm.addr.toNat % 8 = 0 → s₁.translate .store bm.addr = .ok (site, s₂) → site.kind ≤ 3 →
          ∃ t, exec (.tkArm a b) s = .next t ∧ t.th.pc = s.th.pc + 4 ∧
            t.seqRec (idFolio x) (idRec x) = r.setBm (bits x 22 20) bm)))

/-- TK.COMMIT and TK.PEEK (R216, R219 to R222): a PEEK changes nothing but its result; it foretells the result of a COMMIT on which no
bookmark hits or whose bookmark stops or injects without a trap; such a COMMIT leaves the record that the scan and the bookmark's
action make. FORK opens the lowest free record (log 20) as a copy of the record as the hit left it, not stopped, its own generation kept
and the winning bookmark disarmed, and EXTRA names it; with none free EXTRA is all ones. NOTIFY releases the thread's stores at system
scope and stores VALUE at ADDR; where that store is refused the COMMIT stands and an engine error follows it, even where a watch
trap would. A watch trap follows the COMMIT. That NOTIFY stores with the rights of the committing thread's mode, and that a site of a kind
above 3 refuses it, are the model's choices (log 71). -/
def Obligations.SequenceCommits : Prop :=
  ∀ (d a : SReg) (vb : Fin 64) (s : State) (r : SeqRec) (n : Nat), Quiet s → commitCount (s.rs a) = .ok n →
    s.liveSeq (s.rs a) = .ok r →
    let x := s.rs a
    let toks := tokensOf (s.rv (regOf vb)) n
    (∃ st, Completes (.tkPeek d a vb) s (s.th.ws d (r.peek toks) st) (s.th.pc + 4)) ∧
    (r.stopped = true → ∃ st, Completes (.tkCommit d a vb) s (s.th.ws d (r.peek toks) st) (s.th.pc + 4)) ∧
    (r.stopped = false → (r.scan 0 toks).win = none →
      ∃ t, exec (.tkCommit d a vb) s = .next t ∧ t.th.pc = s.th.pc + 4 ∧ t.mem = s.mem ∧
        t.rs d = (if d = 0 then 0 else r.peek toks) ∧ t.seqRec (idFolio x) (idRec x) = toks.foldl SeqRec.append r) ∧
    (∀ w, r.stopped = false → (r.scan 0 toks).win = some w →
      let rec' := (r.scan 0 toks).r
      let b := rec'.bm w
      (b.action = 1 ∨ b.action = 3 → b.trap = false →
        ∃ t, exec (.tkCommit d a vb) s = .next t ∧ t.th.pc = s.th.pc + 4 ∧ t.mem = s.mem ∧
          t.rs d = (if d = 0 then 0 else r.peek toks) ∧ t.seqRec (idFolio x) (idRec x) = rec'.acted w) ∧
      (b.action = 2 → b.trap = false → s.freeSeq (idFolio x) 0 16384 = none →
        ∃ t, exec (.tkCommit d a vb) s = .next t ∧ t.th.pc = s.th.pc + 4 ∧
          t.rs d = (if d = 0 then 0 else commitWord (r.scan 0 toks).count 2 w 0xFFFFF false) ∧
          t.seqRec (idFolio x) (idRec x) = rec'.acted w) ∧
      (∀ k, b.action = 2 → b.trap = false → s.freeSeq (idFolio x) 0 16384 = some k →
        (s.seqRec (idFolio x) k).isOpen = false ∧
        ∃ t, exec (.tkCommit d a vb) s = .next t ∧ t.th.pc = s.th.pc + 4 ∧ t.mem = s.mem ∧
          t.rs d = (if d = 0 then 0 else
            commitWord (r.scan 0 toks).count 2 w (seqId (idFolio x) (s.seqRec (idFolio x) k).gen k) false) ∧
          t.seqRec (idFolio x) (idRec x) = rec'.acted w ∧
          t.seqRec (idFolio x) k =
            { rec'.setBm w { b with armed := false } with
                isOpen := true, stopped := false, stopBm := 0, gen := (s.seqRec (idFolio x) k).gen }) ∧
      (∀ s₁, b.action = 4 → s.release .system = .ok s₁ →
        (∀ site, s₁.unitSite s.th.ctx s.th.mode .store s.myQuire b.addr = .ok site → site.kind ≤ 3 →
          (site.kind = 2 → s₁.dev.cxl = 3) → (site.kind = 3 → s₁.portUp site.key = true) → b.trap = false →
          ∃ t, exec (.tkCommit d a vb) s = .next t ∧ t.th.pc = s.th.pc + 4 ∧
            t.rs d = (if d = 0 then 0 else commitWord (r.scan 0 toks).count 4 w 0 false) ∧
            t.seqRec (idFolio x) (idRec x) = rec'.acted w ∧ Written s₁.mem t.mem site.key (leBytes 8 b.value.toNat)) ∧
        ((∀ site, s₁.unitSite s.th.ctx s.th.mode .store s.myQuire b.addr = .ok site → 3 < site.kind) →
          s.th.mode = .user → s.myCtx.trapvec ≠ 0 →
          ∃ t, exec (.tkCommit d a vb) s = .next t ∧ t.th.mode = .supervisor ∧ t.th.pc = s.myCtx.trapvec ∧
            t.th.trapCause = 0x15 ∧ t.th.trapVal = b.addr ∧ t.th.trapPc = s.th.pc + 4 ∧ t.mem = s₁.mem ∧
            t.rs d = (if d = 0 then 0 else commitWord (r.scan 0 toks).count 4 w 0 true) ∧
            t.seqRec (idFolio x) (idRec x) = rec'.acted w)) ∧
      (b.action = 1 → b.trap = true → s.th.mode = .user → s.myCtx.trapvec ≠ 0 →
        ∃ t, exec (.tkCommit d a vb) s = .next t ∧ t.th.mode = .supervisor ∧ t.th.pc = s.myCtx.trapvec ∧
          t.th.trapCause = 0x0B ∧ t.th.trapVal = watchVal x rec'.pos w ∧ t.th.trapPc = s.th.pc + 4 ∧
          t.rs d = (if d = 0 then 0 else commitWord (r.scan 0 toks).count 1 w 0 true)))

/-! The signature fields. -/

namespace Sys2Proof.Says

/-- A selector of region n of folio f and a port that the thread's context owns (R394). -/
def Selects (s : State) (v : Word) (f n port : Nat) : Prop :=
  f < 4 ∧ n < 16 ∧ port < 80 ∧ v = BitVec.ofNat 64 (64 * port + 16 * f + n) ∧ (s.region f n).width ≠ 0 ∧
    (s.region f n).owner = s.th.ctx

/-- The thread waits for a step of region n of folio f, with its pc at its instruction. -/
def WaitsAt (s t : State) (w : Wait) : Prop := t.th.wait = w ∧ t.th.pc = s.th.pc

/-- Configuration rejected for a reason (R80, R227): SUB holds it as well. -/
def Rejects (i : Instr) (s : State) (reason : Nat) : Prop :=
  ∃ t, exec i s = .next t ∧
    OnlyThread s t (s.th.takeTrap s.myCtx.trapvec (atTrap s.th 0x12 (BitVec.ofNat 64 reason) reason))

/-- A waiting thread has completed its instruction. -/
def Resumed (s t : State) (n : Nat) : Prop := (t.thr n).wait = .none ∧ (t.thr n).pc = (s.thr n).pc + 4

end Sys2Proof.Says

/-- Configuring a region (R84, R394 to R396): SG.LOAD begins a load into the shadow plane and waits, the load's end completes it;
SG.COMMIT of a complete shadow waits for its broadcast, which swaps the planes of an idle region, makes its invocation number 0, empties
its tiles but for the tokens on their way over open gutters and completes it; without a complete shadow it is rejected with reason 0x0D.
A load that was issued again at restore is joined by an SG.LOAD that names its descriptor (R243, R395). That the broadcast completes the
lowest-numbered waiting thread, and that those tokens stay on their way, are the model's choices (logs 61, 64). -/
def Obligations.RegionConfiguration : Prop :=
  ∀ (a b : SReg) (s : State) (f n : Nat), Selects s (s.rs a) f n 0 →
    (∀ ws s₁, (s.rs b).toNat % 64 = 0 → (s.drain s.cur).readDescriptor (s.rs b) = .ok (ws, s₁) →
      let p := planeOf (s.rs b) ws
      (p.width ≠ (s.region f n).width → Rejects (.sgLoad a b) s 0x08) ∧
      (p.width = (s.region f n).width → (∀ q x k j, (s.region f n).shadow ≠ .loading q x k j) →
        s.waitersOf (.sgLoad (16 * f + n)) = [] →
        ∃ t, exec (.sgLoad a b) s = .next t ∧ WaitsAt s t (.sgLoad (16 * f + n)) ∧
          (t.region f n).shadow = .loading p (nth 0 ws 0) (bits (nth 0 ws 1) 31 0) false ∧
          (t.region f n).active = (s.region f n).active) ∧
      (∀ q x k, p.width = (s.region f n).width → (s.region f n).shadow = .loading q x k true → q.desc = s.rs b →
        ∃ t, exec (.sgLoad a b) s = .next t ∧ WaitsAt s t (.sgLoad (16 * f + n)) ∧ t.region f n = s.region f n)) ∧
    (∀ p image len j m, (s.region f n).shadow = .loading p image len j → s.waitersOf (.sgLoad (16 * f + n)) = [m] →
      Quiet { s with cur := m } →
      (∀ rs s₁, s.loadImage f (s.region f n) p image len = (.ok rs, s₁) →
        ∃ t, exec (.imageLoadComplete f n) s = .next t ∧ Resumed s t m ∧ t.mem = s₁.mem ∧
          t.region f n = { s.region f n with shadow := .complete { p with recs := rs } }) ∧
      (∀ w s₁, s.loadImage f (s.region f n) p image len = (.error w, s₁) → (s.thr m).mode = .user → (s.ctx (s.thr m).ctx).trapvec ≠ 0 →
        ∃ t, exec (.imageLoadComplete f n) s = .next t ∧ (t.region f n).shadow = .none ∧ (t.thr m).trapCause = 0x12 ∧
          (t.thr m).trapVal = w ∧ (t.thr m).mode = .supervisor)) ∧
    (∀ p, (s.region f n).shadow = .complete p →
      ∃ t, exec (.sgCommit a) s = .next t ∧ OnlyThread s t { s.th with wait := .sgCommit (16 * f + n) }) ∧
    ((∀ p, (s.region f n).shadow ≠ .complete p) → Rejects (.sgCommit a) s 0x0D) ∧
    (∀ p m, (s.region f n).shadow = .complete p → (s.waitersOf (.sgCommit (16 * f + n))).head? = some m →
      Quiet { s with cur := m } → (s.region f n).phase = .idle → (s.region f n).frozen = false →
      (s.region f n).streams = [] → (s.region f n).crossing = none →
      ∃ t, exec (.commitBroadcast f n) s = .next t ∧ Resumed s t m ∧
        t.region f n = { s.region f n with active := some p, shadow := .none, invNo := 0, fifo := p.fifo } ∧
        ∀ c r, (s.region f n).first ≤ c → c < (s.region f n).first + (s.region f n).width → c < 40 → r < 36 →
          t.ftile f c r = { FTile.reset with late := s.lateOf f (s.region f n) c r })

/-- Streams and freezes (R91, R246, R397 to R400): SG.STREAM puts a legal descriptor at its port's scoreboard, or with four commands there
waits with the pattern that it copied at issue and puts that one once there is room; SG.SBAR ends once the thread's commands are complete, SG.WAIT with nothing running and no fault returns the stream status and clears it, SG.FREEZE
freezes a region in debug mode, with its route registers flushed, and SG.THAW thaws it. -/
def Obligations.StreamsAndFreezes : Prop :=
  ∀ (d a b : SReg) (s : State) (f n port : Nat), Quiet s → Selects s (s.rs a) f n port →
    (∀ s₁ ws s₂ pl rd, (∀ g k j q, s.th.wait ≠ .stream g k j q) → (s.rs b).toNat % 64 = 0 → s.release .device = .ok s₁ →
      s₁.readDescriptor (s.rs b) = .ok (ws, s₂) → patternFault ws = none → (s₁.region f n).active = some pl →
      pl.recAt (if port < 40 then port else port - 40) (if port < 40 then 0 else 35) = some rd → rd.kind = 3 →
      rd.bySrc = true → rd.storer = (Pattern.ofWords ws).storer →
      (((s₁.region f n).streams.filter fun x => x.port == port).length < 4 →
        ∃ t, exec (.sgStream a b) s = .next t ∧ t.th.pc = s.th.pc + 4 ∧
          (t.region f n).streams = (s₁.region f n).streams ++
            [{ thread := s.cur, port := port, pattern := Pattern.ofWords ws, num := (s₁.region f n).nextStream
               cycle := s₁.cycle }]) ∧
      (4 ≤ ((s₁.region f n).streams.filter fun x => x.port == port).length →
        ∃ t, exec (.sgStream a b) s = .next t ∧ OnlyThread s₂ t { s₂.th with wait := .stream f n port (Pattern.ofWords ws) })) ∧
    (∀ q, s.th.wait = .stream f n port q →
      (((s.region f n).streams.filter fun x => x.port == port).length < 4 →
        ∃ t, exec (.sgStream a b) s = .next t ∧ t.th.pc = s.th.pc + 4 ∧ t.mem = s.mem ∧
          (t.region f n).streams = (s.region f n).streams ++
            [{ thread := s.cur, port := port, pattern := q, num := (s.region f n).nextStream, cycle := s.cycle }]) ∧
      (4 ≤ ((s.region f n).streams.filter fun x => x.port == port).length →
        ∃ t, exec (.sgStream a b) s = .next t ∧ OnlyThread s t { s.th with wait := .stream f n port q })) ∧
    (port = 0 → ((s.region f n).streams.any fun x => x.thread == s.cur) = false →
      Completes (.sgSbar a) s s.th (s.th.pc + 4)) ∧
    (port = 0 → (s.region f n).inv ≠ some .stream → (s.region f n).streams = [] → (s.region f n).faultNew = false →
      (s.rs b = 0 →
        ∃ t, exec (.sgWait d a b) s = .next t ∧ t.th.pc = s.th.pc + 4 ∧ t.mem = s.mem ∧
          t.rs d = (if d = 0 then 0 else (s.region f n).status) ∧ (t.region f n).status = 0) ∧
      (∀ site s₁, s.rs b ≠ 0 → (s.rs b).toNat % 8 = 0 → s.translate .store (s.rs b) = .ok (site, s₁) → site.kind ≤ 2 →
        bit (s.region f n).status 63 = true →
        ∃ t, exec (.sgWait d a b) s = .next t ∧ t.th.pc = s.th.pc + 4 ∧
          t.rs d = (if d = 0 then 0 else (s.region f n).status) ∧ wordAt t.mem site.key = (s.region f n).status)) ∧
    (port = 0 → (s.region f n).debug = true →
      ∃ t, exec (.sgFreeze a) s = .next t ∧ t.th.pc = s.th.pc + 4 ∧ t.mem = s.mem ∧
        t.region f n = (if (s.region f n).frozen then { s.region f n with preempted := false } else { s.region f n with frozen := true }) ∧ t.ftiles = (s.freeze f n).ftiles) ∧
    (port = 0 → (s.region f n).debug = false → Rejects (.sgFreeze a) s 0x0F) ∧
    (port = 0 →
      ∃ t, exec (.sgThaw a) s = .next t ∧ t.th.pc = s.th.pc + 4 ∧ t.mem = s.mem ∧
        t.region f n = { s.region f n with frozen := false, preempted := false })

namespace Sys2Proof.Says

/-- A rule firing: OP code, folio, column, row and slot (R294). -/
def firing : Instr → Option (Nat × Nat × Nat × Nat × Nat)
  | .sigNop f c r k => some (0x00, f, c, r, k)
  | .sigMov f c r k => some (0x01, f, c, r, k)
  | .sigDup f c r k => some (0x02, f, c, r, k)
  | .sigEmit f c r k => some (0x03, f, c, r, k)
  | .sigAdd f c r k => some (0x04, f, c, r, k)
  | .sigSub f c r k => some (0x05, f, c, r, k)
  | .sigMul f c r k => some (0x06, f, c, r, k)
  | .sigFma f c r k => some (0x07, f, c, r, k)
  | .sigMin f c r k => some (0x08, f, c, r, k)
  | .sigMax f c r k => some (0x09, f, c, r, k)
  | .sigAnd f c r k => some (0x0A, f, c, r, k)
  | .sigOr f c r k => some (0x0B, f, c, r, k)
  | .sigXor f c r k => some (0x0C, f, c, r, k)
  | .sigShl f c r k => some (0x0D, f, c, r, k)
  | .sigShr f c r k => some (0x0E, f, c, r, k)
  | .sigSha f c r k => some (0x0F, f, c, r, k)
  | .sigPcmp f c r k => some (0x10, f, c, r, k)
  | .sigSel f c r k => some (0x11, f, c, r, k)
  | .sigSteer f c r k => some (0x12, f, c, r, k)
  | .sigGate f c r k => some (0x13, f, c, r, k)
  | .sigMerge f c r k => some (0x14, f, c, r, k)
  | .sigIter f c r k => some (0x15, f, c, r, k)
  | .sigAcc f c r k => some (0x16, f, c, r, k)
  | .sigNzsend f c r k => some (0x17, f, c, r, k)
  | .sigSink f c r k => some (0x18, f, c, r, k)
  | .sigCvt f c r k => some (0x19, f, c, r, k)
  | .sigLd f c r k => some (0x1A, f, c, r, k)
  | .sigSt f c r k => some (0x1B, f, c, r, k)
  | .sigAtAdd f c r k => some (0x1C, f, c, r, k)
  | .sigAtMin f c r k => some (0x1D, f, c, r, k)
  | .sigAtMax f c r k => some (0x1E, f, c, r, k)
  | .sigAtOr f c r k => some (0x1F, f, c, r, k)
  | .sigAtAnd f c r k => some (0x20, f, c, r, k)
  | .sigAtXor f c r k => some (0x21, f, c, r, k)
  | .sigAtSwap f c r k => some (0x22, f, c, r, k)
  | .sigAtCas f c r k => some (0x23, f, c, r, k)
  | .sigAtTas f c r k => some (0x24, f, c, r, k)
  | .sigCall f c r k => some (0x25, f, c, r, k)
  | .sigRet f c r k => some (0x26, f, c, r, k)
  | .sigRed f c r k => some (0x27, f, c, r, k)
  | .sigDiv f c r k => some (0x28, f, c, r, k)
  | .sigSqrt f c r k => some (0x29, f, c, r, k)
  | _ => none

/-- A lane under an element kind (R129, R325). -/
def kindLane (flt : FloatLane) (int : IntLane) (k : Fmt ⊕ IFmt) (rm x y : Nat) : FRes :=
  match k with
  | .inl f => flt f rm x y
  | .inr t => ((int t.signed t.w x y % 2 ^ t.w).toNat, 0)

/-- A quotient of lanes (R145). -/
def intQuot : IntLane := fun g w x y => quot (laneVal g w x) (laneVal g w y)

/-- The two-operand operations of a PE by OP code (R294): on floats, on integers. -/
def peLane : Nat → Option (FloatLane × IntLane)
  | 0x04 => some (fAddBits, intAdd)
  | 0x05 => some (fSubBits, intSub)
  | 0x06 => some (fMulBits, intMul)
  | 0x08 => some (fun f _ => fMinBits f, intMin)
  | 0x09 => some (fun f _ => fMaxBits f, intMax)
  | 0x0A => some (noFlt, intAnd)
  | 0x0B => some (noFlt, intOr)
  | 0x0C => some (noFlt, intXor)
  | 0x0D => some (noFlt, intShl)
  | 0x0E => some (noFlt, intShr)
  | 0x0F => some (noFlt, intSha)
  | 0x28 => some (fDivBits, intQuot)
  | _ => none

/-- The value and flags of a PE's operation with a result (R294, R361, R370, R376, R393, R406), from its tile, the iteration, its
rule and the three operands. -/
def peValue (rd : TileRec) (x : FTile) (iter : List Nat) (ru : Rule) (a b c : Word) : Option (Word × FFlags) :=
  match peLane ru.op with
  | some (flt, int) =>
    some (onLanes rd.ty (fun l => kindLane flt int (formatOf rd.ty) rd.rm (nth 0 l 0) (nth 0 l 1)) [a, b])
  | none =>
    match ru.op with
    | 0x01 => some (a, 0)
    | 0x07 =>
      some (onLanes rd.ty (fun l => match formatOf rd.ty with
        | .inl f => fFmaBits f rd.rm (nth 0 l 0) (nth 0 l 1) (nth 0 l 2)
        | .inr t => ((nth 0 l 0 * nth 0 l 1 + nth 0 l 2) % 2 ^ t.w, 0)) [a, b, c])
    | 0x11 => some (if x.q.getLsbD (ru.imm16.toNat % 8) then a else b, 0)
    | 0x15 => some (BitVec.ofNat 64 (nth 0 iter (ru.imm16.toNat % 4)), 0)
    | 0x16 =>
      some (onLanes rd.ty (fun l => kindLane fAddBits intAdd (formatOf rd.ty) rd.rm (nth 0 l 0) (nth 0 l 1))
        [nth 0 x.e ru.dst, a])
    | 0x29 =>
      some (onLanes rd.ty (fun l => match formatOf rd.ty with
        | .inl f => fSqrtBits f rd.rm (nth 0 l 0)
        | .inr _ => (nth 0 l 0, 0)) [a])
    | _ => none

/-- What a rule does at its one beat: the element register written, what it sends, the flags raised, PCMP's predicate. -/
structure Acts where
  reg   : Option (Nat × Word)
  sends : List (Nat × TokKind × Word)
  flags : FFlags
  pred  : Option Bool

/-- A value on every ENQ output with a kind. -/
def everywhere (ru : Rule) (k : TokKind) (v : Word) : List (Nat × TokKind × Word) :=
  ((List.range 4).filter ru.enq.getLsbD).map fun o => (o, k, v)

/-- The operations of a PE that do not gather (R294, R347, R348, R363, R374, R376, R382, R385, R403, R409). -/
def peActs (rd : TileRec) (x : FTile) (iter : List Nat) (ru : Rule) : Option Acts :=
  let a := sourceWord x ru 0 ru.srcA
  let b := sourceWord x ru 0 ru.srcB
  let c := sourceWord x ru 0 ru.srcC
  let k := tokKindOf ru.okind
  match peValue rd x iter ru a b c with
  | some v =>
    some (if ru.dst < 8 then ⟨some (ru.dst, v.1), [], v.2, none⟩ else ⟨none, everywhere ru k v.1, v.2, none⟩)
  | none =>
    match ru.op with
    | 0x00 => some ⟨none, [], 0, none⟩
    | 0x02 => some ⟨if ru.dst < 8 then some (ru.dst, a) else none, everywhere ru k a, 0, none⟩
    | 0x03 => some ⟨none, everywhere ru k (BitVec.ofNat 64 (a.toNat % 2 ^ 32 * 2 ^ 32 + b.toNat % 2 ^ 32)), 0, none⟩
    | 0x10 =>
      let r := peCompare rd.ty (ru.imm16.toNat % 8) a b
      some ⟨none, [], r.2, some r.1⟩
    | 0x12 => some ⟨none, [(nth 0 ((List.range 4).filter ru.enq.getLsbD) (if peZero rd.ty b then 0 else 1), k, a)], 0, none⟩
    | 0x13 => some ⟨none, if peZero rd.ty b then [] else everywhere ru k a, 0, none⟩
    | 0x14 =>
      match ((List.range 4).find? fun i => ru.deq.getLsbD i && !(x.inp i).isEmpty) with
      | some i => (x.inp i).head?.map fun t => ⟨none, everywhere ru t.kind t.payload, 0, none⟩
      | none => none
    | 0x17 => some ⟨none, if peZero rd.ty a then [] else everywhere ru k a, 0, none⟩
    | 0x18 => some ⟨none, [], 0, none⟩
    | _ => none

/-- The predicates after a rule (R293): QW's, then PCMP's own. -/
def predAfter (ru : Rule) (q : Preds) (p : Option Bool) (j : Nat) : Bool :=
  match p with
  | some b => if j = ru.pcmpt then b else if ru.qw.getLsbD j then ru.qv.getLsbD j else q.getLsbD j
  | none => if ru.qw.getLsbD j then ru.qv.getLsbD j else q.getLsbD j

/-- Kinds and payloads of the tokens of a channel. -/
def seen (ts : List Token) : List (TokKind × Word) := ts.map fun t => (t.kind, t.payload)

/-- Channels of a tile after a rule: each dequeued input without its head, each output with what the rule sent on it. -/
def Moved (x y : FTile) (deq : List Nat) (sends : List (Nat × TokKind × Word)) : Prop :=
  (∀ k, y.inp k = if k ∈ deq then (x.inp k).drop 1 else x.inp k) ∧
    ∀ o, o < x.outs.length → seen (y.out o) = seen (x.out o) ++ sends.filterMap fun e => if e.1 = o then some e.2 else none

/-- A tile whose picker fires one slot in a cycle (R74), alone and single-beat, on tokens without poison: the region, the record
and the rule. -/
structure Fires (s : State) (i : Instr) (f c r n slot : Nat) (rd : TileRec) (ru : Rule) : Prop where
  names   : firing i = some (ru.op, f, c, r, slot)
  live    : ∃ g, s.liveTile f c r = some (n, g, rd)
  rule    : rd.rules[slot]? = some ru
  picked  : s.pick { f := f, n := n, c := c, r := r } rd = [slot]
  heads   : readsEmpty (s.ftile f c r) ru = false
  clean   : poisonOf (s.ftile f c r) (dequeued (s.ftile f c r) ru) = none

end Sys2Proof.Says

/-- The rules of a PE (R71 to R75, R292 to R294, R325): a single-beat rule that fires alone dequeues its inputs, writes its
element register or sends its tokens with the value its operation gives, sets its predicates and raises its flags, and changes no
memory and no thread. -/
def Obligations.PeRules : Prop :=
  ∀ (i : Instr) (s : State) (f c r n slot : Nat) (rd : TileRec) (ru : Rule) (x : FTile) (k : Acts),
    Fires s i f c r n slot rd ru → rd.kind = 0 → ru.nmin = 0 → x = s.ftile f c r → peActs rd x (s.region f n).iter ru = some k →
    ∃ t, exec i s = .next t ∧ Moved x (t.ftile f c r) (dequeued x ru) k.sends ∧
      (∀ j, j < x.e.length → nth 0 (t.ftile f c r).e j = (match k.reg with
        | some (m, v) => if j = m then v else nth 0 x.e j
        | none => nth 0 x.e j)) ∧
      (∀ j, j < 8 → (t.ftile f c r).q.getLsbD j = predAfter ru x.q k.pred j) ∧
      (t.region f n).flags = (s.region f n).flags ||| k.flags ∧ t.mem = s.mem ∧ t.threads = s.threads

/-- Rules that gather their beats (R75, R105, R107, R388): the first beat of RED, CALL or RET keeps its value and its place; the
last beat of a RED sends the tree of R148 over all its values, that of a CALL or RET leaves the call or the results to the
crossing unit and ends the data phase. -/
def Obligations.GatheringRules : Prop :=
  ∀ (s : State) (f c r n slot : Nat) (rd : TileRec) (ru : Rule) (x : FTile), rd.kind = 0 → x = s.ftile f c r →
    (∀ i, Fires s i f c r n slot rd ru → ru.op = 0x25 ∨ ru.op = 0x26 ∨ ru.op = 0x27 → 1 ≤ ru.nmin →
      ∃ t b, exec i s = .next t ∧ Moved x (t.ftile f c r) (dequeued x ru) [] ∧ (t.ftile f c r).beat ru.op = some b ∧
        b.slot = slot ∧ b.next = 1 ∧ b.vals = [sourceWord x ru 0 ru.srcA] ∧ b.err = none ∧ t.mem = s.mem) ∧
    (∀ g b path, s.liveTile f c r = some (n, g, rd) → rd.rules[slot]? = some ru → path = onA ru.op →
      (if path then x.beatA else x.beatB) = some b → b.slot = slot → b.next = ru.nmin → b.err = none →
      beatReady x ru b = true → readsEmpty x ru = false → poisonOf x (dequeued x ru) = none →
      let vals := b.vals ++ [sourceWord x ru 0 ru.srcA]
      (ru.op = 0x27 →
        ∃ t, exec (.nBeatRuleBeat f c r path) s = .next t ∧ (t.ftile f c r).beatA = none ∧
          Moved x (t.ftile f c r) (dequeued x ru) (if ru.dst < 8 then [] else everywhere ru (tokKindOf ru.okind)
            (peReduce rd.ty rd.rm (ru.imm16.toNat % 8) vals).1)) ∧
      (∀ frame, ru.op = 0x26 → g.inv = some (.activation frame) →
        ∃ t, exec (.nBeatRuleBeat f c r path) s = .next t ∧ (t.region f n).phase = .draining ∧
          (t.region f n).crossing = some (.ret (nth 0 vals 0) (nth 0 vals 1)) ∧ t.mem = s.mem) ∧
      (∀ caller fr s₁, ru.op = 0x25 → g.inv = some (.activation caller) → tagOf (nth 0 vals 0) = 0 →
        (targetOf (nth 0 vals 0)).toNat % 4 = 0 → s.popFrame g.owner false = (.ok fr, s₁) →
        ∃ t, exec (.nBeatRuleBeat f c r path) s = .next t ∧ (t.region f n).phase = .draining ∧
          (t.region f n).crossing = some (.call (nth 0 vals 0) fr.toNat caller (ru.imm16.toNat % 64) 0
            ((vals.drop 1).take (ru.imm16.toNat / 64 % 16)) (vals.drop (1 + ru.imm16.toNat / 64 % 16))) ∧ t.mem = s₁.mem))

namespace Sys2Proof.Says

/-- The new value of the field's atomics by OP code (R294, R333): signed minimum and maximum, compare and swap with C, test and
set. -/
def fieldAtomic (op : Nat) (old b c : Word) : Word :=
  match op with
  | 0x1C => BitVec.ofNat 64 (old.toNat + b.toNat)
  | 0x1D => if b.toInt < old.toInt then b else old
  | 0x1E => if old.toInt < b.toInt then b else old
  | 0x1F => old ||| b
  | 0x20 => old &&& b
  | 0x21 => old ^^^ b
  | 0x22 => b
  | 0x23 => if old = b then c else old
  | _ => 1

/-- An offset in a tile's buffer (R76). -/
def Inside (a : Word) : Prop := a.toNat % 8 = 0 ∧ a.toNat < 65536

/-- The number that n bytes of memory from a key make, lowest first. -/
def numberAt (m : List Host.Cell) (key n : Nat) : Nat := leNat ((List.range n).map fun k => byteAt m (key + k))

/-- A tile of folio f reads n bytes at an address for a context with user rights, and they lie, whole, at a site (R81, R371). -/
def TileReads (s : State) (owner f : Nat) (va : Word) (n : Nat) (site : Site) : Prop :=
  va.toNat % n = 0 ∧ s.unitSite owner .user .load (4 * f) va = .ok site ∧ site.kind ≤ 4 ∧
    (site.kind = 4 → s.peerServes site n = true) ∧ (site.kind = 3 → s.portUp site.key = true)

end Sys2Proof.Says

/-- The rules of a memory tile (R76, R77, R333, R371, R408): in buffer role LD gives the 8 bytes at its offset, ST writes them and
sends ORD, an atomic does both; in FIFO role LD takes the oldest entry and ST appends. An edge LD gives the 8 bytes at its address,
an edge ST or atomic becomes a held entry and changes no memory (R86, R87, R331); a converter of scalar formats takes an element and
keeps its converted value, sends it on, and forwards control tokens (R78, R343). -/
def Obligations.MemoryTileRules : Prop :=
  (∀ (i : Instr) (s : State) (f c r n slot : Nat) (rd : TileRec) (ru : Rule) (x : FTile),
     Fires s i f c r n slot rd ru → rd.kind = 1 → ru.nmin = 0 → x = s.ftile f c r →
     let a := sourceWord x ru 0 ru.srcA
     let b := sourceWord x ru 0 ru.srcB
     let cc := sourceWord x ru 0 ru.srcC
     let out := fun v : Word => if ru.dst < 8 then [] else everywhere ru (tokKindOf ru.okind) v
     (rd.role = 0 → Inside a → ru.op = 0x1A →
       ∃ t, exec i s = .next t ∧ Moved x (t.ftile f c r) (channels ru.deq) (out (x.ram a.toNat)) ∧
         (ru.dst < x.e.length → ru.dst < 8 → nth 0 (t.ftile f c r).e ru.dst = x.ram a.toNat) ∧
         (t.ftile f c r).mem = x.mem ∧ t.mem = s.mem) ∧
     (rd.role = 0 → Inside a → ru.op = 0x1B →
       ∃ t, exec i s = .next t ∧ Moved x (t.ftile f c r) (channels ru.deq) (everywhere ru .ord 0) ∧
         (∀ k, Inside (BitVec.ofNat 64 k) → k < 65536 →
           (t.ftile f c r).ram k = if k = a.toNat then b else x.ram k) ∧ t.mem = s.mem) ∧
     (rd.role = 0 → Inside a → 0x1C ≤ ru.op → ru.op ≤ 0x24 →
       ∃ t, exec i s = .next t ∧
         Moved x (t.ftile f c r) (channels ru.deq) (if ru.dst = 12 then everywhere ru .ord 0 else out (x.ram a.toNat)) ∧
         (∀ k, Inside (BitVec.ofNat 64 k) → k < 65536 →
           (t.ftile f c r).ram k = if k = a.toNat then fieldAtomic ru.op (x.ram a.toNat) b cc else x.ram k) ∧ t.mem = s.mem) ∧
     (∀ v src rest, rd.role = 1 → ru.op = 0x1A → x.fifo = (v, src) :: rest →
       ∃ t, exec i s = .next t ∧ Moved x (t.ftile f c r) (channels ru.deq) (out v) ∧ (t.ftile f c r).fifo = rest) ∧
     (rd.role = 1 → ru.op = 0x1B →
       ∃ t, exec i s = .next t ∧ Moved x (t.ftile f c r) (channels ru.deq) (everywhere ru .ord 0) ∧
         (t.ftile f c r).fifo.map (·.1) = x.fifo.map (·.1) ++ [b])) ∧
  (∀ (i : Instr) (s : State) (f c r n slot : Nat) (rd : TileRec) (ru : Rule) (x : FTile),
     Fires s i f c r n slot rd ru → ru.nmin = 0 → x = s.ftile f c r →
     let a := sourceWord x ru 0 ru.srcA
     let b := sourceWord x ru 0 ru.srcB
     (∀ site, rd.kind = 3 → ru.op = 0x1A → TileReads s (s.region f n).owner f a 8 site →
       (s.request site).poisoned site.key 8 = false →
       let v := BitVec.ofNat 64 (numberAt s.mem site.key 8)
       ∃ t, exec i s = .next t ∧ t.mem = s.mem ∧ Moved x (t.ftile f c r) (channels ru.deq)
         (if ru.dst < 8 then [] else everywhere ru (tokKindOf ru.okind) v) ∧
         (ru.dst < x.e.length → ru.dst < 8 → nth 0 (t.ftile f c r).e ru.dst = v)) ∧
     (∀ site, rd.kind = 3 → ru.op = 0x1B → s.storerSite (s.region f n).owner f a 8 false = .ok site → x.held = [] →
       ∃ t h, exec i s = .next t ∧ t.mem = s.mem ∧ (t.ftile f c r).held = [h] ∧ h.via.va = a ∧
         h.bytes = cellsFrom site.key (leBytes 8 b.toNat) ∧ Moved x (t.ftile f c r) (channels ru.deq) (everywhere ru .ord 0)) ∧
     (∀ site, rd.kind = 3 → 0x1C ≤ ru.op → ru.op ≤ 0x24 → s.storerSite (s.region f n).owner f a 8 true = .ok site →
       x.held.length < 1024 →
       ∃ t h, exec i s = .next t ∧ t.mem = s.mem ∧ (t.ftile f c r).held = x.held ++ [h] ∧ h.via.va = a ∧ h.key = site.key ∧
         h.atomic = some (ru.op, b, sourceWord x ru 0 ru.srcC)) ∧
     (∀ k rest, rd.kind = 2 → ru.op = 0x19 → isBlock rd.frm = false → isBlock rd.tgt = false → x.convO = [] →
       x.inp 0 = k :: rest →
       (k.kind = .data →
         ∃ t, exec i s = .next t ∧ (t.ftile f c r).inp 0 = rest ∧
           (t.ftile f c r).convO = (tokenElements rd.frm k.payload).map fun e =>
             (false, elementOf (formatOf rd.tgt) (toScalar rd.frm rd.tgt (x.convE.getD 0) e).1)) ∧
       (k.kind ≠ .data → x.conv = [] → 0 < x.outs.length →
         ∃ t, exec i s = .next t ∧ (t.ftile f c r).inp 0 = rest ∧
           seen ((t.ftile f c r).out 0) = seen (x.out 0) ++ [(k.kind, k.payload)])) ∧
     (∀ w rest, rd.kind = 2 → ru.op = 0x19 → x.convO = (false, w) :: rest → 0 < x.outs.length →
       ∃ t, exec i s = .next t ∧ (t.ftile f c r).convO = rest ∧ seen ((t.ftile f c r).out 0) = seen (x.out 0) ++ [(.data, w)]))

/-- Tokens on their way (R70, R81 to R83, R87, R92): a token moves one hop, or from the last hop to its receiver's input, whether
its sender's region runs or is idle; before a
closed gutter it drops and the sender's data phase ends; one that a replaced configuration left on its way moves and drops likewise,
behind the earlier ones for its input; a pass-through passes a token from iN to oN. A loader sends the bytes of its pattern's next
elements and then EOS; a storer takes a DATA token into a held entry. None of them changes memory. That a hop holds four tokens
(log 45), that a replaced configuration leaves tokens on their way (log 64), and that a loader answers on o0 and a storer sends its ORD on
the outputs that routes bind (log 55) are the model's choices. -/
def Obligations.FieldTokens : Prop :=
  ∀ (s : State) (f c r n : Nat) (rd : TileRec) (x : FTile), s.regionAt f c = some n → (s.region f n).recAt c r = some rd →
    (s.region f n).frozen = false → x = s.ftile f c r →
    let g := s.region f n
    (∀ o pos rt path tok, o < 4 → g.path rd o = some (rt, path) → stageHead x o pos = some tok →
      s.blocked f c path pos = false →
      (pos + 1 < stagesOf path → (x.hop o pos).length < 4 → o < x.hops.length →
        ∃ t, exec (.tokenHop f c r o pos) s = .next t ∧ (t.ftile f c r).hop o pos = x.hop o pos ++ [tok] ∧ t.mem = s.mem) ∧
      (∀ m, let dc := ((g.first : Int) + rt.dcol).toNat
        pos + 1 = stagesOf path → s.regionAt f dc = some m → (dc, rt.drow) ≠ (c, r) →
        ((s.ftile f dc rt.drow).inp rt.din).length < inCap ((s.region f m).recAt dc rt.drow) rt.din →
        rt.din < (s.ftile f dc rt.drow).ins.length → dc < 40 → c < 40 → r < 36 → rt.drow < 36 →
        ∃ t, exec (.tokenHop f c r o pos) s = .next t ∧ t.mem = s.mem ∧
          seen ((t.ftile f dc rt.drow).inp rt.din) = seen ((s.ftile f dc rt.drow).inp rt.din) ++ [(tok.kind, tok.payload)])) ∧
    (∀ o rt path pos, g.phase ≠ .idle → g.path rd o = some (rt, path) → s.dropStage f c x o path = some pos →
      ∃ t, exec (.gutterDrop f c r o) s = .next t ∧ t.mem = s.mem ∧ (t.region f n).drops = g.drops + 1 ∧
        (t.region f n).phase = .draining) ∧
    (∀ o tok rest, o < 4 → rd.kind = 4 → x.inp o = tok :: rest → (x.out o).length < 4 → o < x.ins.length → o < x.outs.length →
      ∃ t, exec (.tokenHop f c r (o + 5) 0) s = .next t ∧ t.mem = s.mem ∧ (t.ftile f c r).inp o = rest ∧
        (t.ftile f c r).out o = x.out o ++ [tok]) ∧
    (∀ i y, x.late[i]? = some y →
      let same := fun z : Late => z.col == y.col && z.row == y.row && z.inp == y.inp
      let path := routePath c r y.col y.row
      ((x.late.take i).any fun z => same z && decide (z.pos ≤ y.pos)) = false →
      (s.blocked f c path y.pos = true →
        ∃ t, exec (.tokenHop f c r 4 i) s = .next t ∧ t.mem = s.mem ∧ (t.ftile f c r).late = x.late.eraseIdx i) ∧
      (s.blocked f c path y.pos = false → y.pos + 1 < stagesOf path →
        (x.late.filter fun z => same z && z.pos == y.pos + 1).length < 4 →
        ∃ t, exec (.tokenHop f c r 4 i) s = .next t ∧ t.mem = s.mem ∧ (t.ftile f c r).late[i]? = some { y with pos := y.pos + 1 })) ∧
    (∀ p num s₁, g.phase = .running → rd.kind = 3 → rd.storer = false →
      s.takeCmd { f := f, n := n, c := c, r := r } rd = some (p, num, s₁) →
      let y := s₁.ftile f c r
      y.roomOut 0 = true → 0 < y.outs.length →
      (y.pos = p.total → ∃ t, exec (.loaderReadResponse f c r) s = .next t ∧ t.mem = s.mem ∧
        seen ((t.ftile f c r).out 0) = seen (y.out 0) ++ [(.eos, 0)] ∧ (t.ftile f c r).cmd = none) ∧
      (∀ v s₂, let k := min p.perToken (p.total - y.pos)
        y.pos ≠ p.total → p.indirect = false →
        s₁.readElements { f := f, n := n, c := c, r := r } p y.pos k = .ok (v, false, s₂) →
        ∃ t, exec (.loaderReadResponse f c r) s = .next t ∧ t.mem = s.mem ∧ (t.ftile f c r).pos = y.pos + k ∧
          seen ((t.ftile f c r).out 0) = seen (y.out 0) ++ [(.data, BitVec.ofNat 64 v)]) ∧
      (∀ sites : Nat → Site, let k := min p.perToken (p.total - y.pos)
        y.pos ≠ p.total → p.indirect = false → s₁.poison = [] →
        (∀ j, j < k → TileReads s₁ g.owner f (p.addr (y.pos + j)) p.esize (sites j)) →
        ∃ t, exec (.loaderReadResponse f c r) s = .next t ∧ t.mem = s.mem ∧ (t.ftile f c r).pos = y.pos + k ∧
          seen ((t.ftile f c r).out 0) = seen (y.out 0) ++ [(.data, BitVec.ofNat 64
            ((List.range k).foldr (fun j v => numberAt s.mem (sites j).key p.esize + 2 ^ (8 * p.esize) * v) 0))])) ∧
    (∀ p num s₁ k rest site, g.phase = .running → rd.kind = 3 → rd.storer = true →
      s.takeCmd { f := f, n := n, c := c, r := r } rd = some (p, num, s₁) →
      let y := s₁.ftile f c r
      p.indirect = false → y.indexed = false → p.esize = 8 → y.pos < p.total → y.held = [] → y.inp 0 = k :: rest → k.kind = .data →
      rd.bound.all y.roomOut = true → s₁.storerSite g.owner f (p.addr y.pos) 8 false = .ok site →
      ∃ t h, exec (.storerAccept f c r) s = .next t ∧ t.mem = s.mem ∧ (t.ftile f c r).inp 0 = rest ∧
        (t.ftile f c r).held = [h] ∧ h.via.va = p.addr y.pos ∧ h.bytes = cellsFrom site.key (leBytes 8 k.payload.toNat))

/-- The life of an invocation (R84, R86 to R90, R101, R102, R399): an idle region starts its next activation or stream work with
the entry tokens on i0 of the entry tile: the frame, the resume point and the two results, or four zeros for stream work; a first
invocation leaves STATE 1 in its frame, and a continuation takes its iteration from the frame and gives the callee frames that wait
for it back. The drain ends an invocation and leaves the region idle with the stream's status or the results of a RET, a data phase past
its drain bound is discarded, and an enqueue held for a full activation FIFO enters it. The crossing unit (R105 to R107): it keeps a
callback packet for a tag-00 callee and sends it to a core of the pool's mask; a return resumes the thread suspended on its frame at
the stored address with the results in a0 and a1. That the entry tokens queue at an entry tile without a record, and that a discarded
stream invocation adds its strays to the status, are the model's choices (logs 94, 95). -/
def Obligations.InvocationsAndCalls : Prop :=
  (∀ (s : State) (f n : Nat) (p : Plane),
     let g := s.region f n
     g.active = some p →
     (g.phase = .idle → g.frozen = false → g.crossing = none → (s.ctx g.owner).inn = true → (s.ctx g.owner).leaving = false →
       g.width ≠ 0 →
       (∀ e s₁, s.startsFifo g = true → s.fifoTake g.owner g.fifo = some (e, s₁) →
         let frame := frameVa e.frame
         let s₂ := s₁.meetFrame g.owner frame
         ∃ t, exec (.invocationStart f n) s = .next t ∧ (t.region f n).phase = .running ∧
           (t.region f n).inv = some (.activation e.frame) ∧ (t.region f n).invNo = g.invNo + 1 ∧
           (t.region f n).iter = [if e.cont then bits ((s₂.frameWord g.owner (frame + 0x18)).getD 0) 63 32 else 0, 0, 0, 0] ∧
           (e.cont = false → t.mem = (s₂.setStatus g.owner frame (withState 1)).mem ∧ t.freeAtStart = s.freeAtStart) ∧
           (e.cont = true → t.mem = (s₂.freeCallees g.owner e.frame).mem ∧
             t.freeAtStart = s.freeAtStart.filter fun x => !(x.1 == g.owner && x.2.1 == e.frame)) ∧
           (0 < (s.ftile f (g.first + p.ecol) p.erow).ins.length →
             seen ((t.ftile f (g.first + p.ecol) p.erow).inp 0) = seen ((s.ftile f (g.first + p.ecol) p.erow).inp 0) ++
               [(.data, frame), (.data, BitVec.ofNat 64 e.resume), (.data, e.a0), (.data, e.a1)])) ∧
       (s.startsFifo g = false → g.streams ≠ [] →
         ∃ t, exec (.invocationStart f n) s = .next t ∧ t.mem = s.mem ∧ (t.region f n).phase = .running ∧
           (t.region f n).inv = some .stream ∧ (t.region f n).iter = [0, 0, 0, 0] ∧ (t.region f n).invNo = g.invNo + 1 ∧
           (0 < (s.ftile f (g.first + p.ecol) p.erow).ins.length →
             seen ((t.ftile f (g.first + p.ecol) p.erow).inp 0) =
               seen ((s.ftile f (g.first + p.ecol) p.erow).inp 0) ++ List.replicate 4 (.data, 0)))) ∧
     (g.phase = .draining → g.frozen = false → (∀ rd ∈ p.recs, s.dropsOf f g rd = []) →
       let strays := g.stray + p.recs.foldl (fun k rd => k + s.straysOf f g rd) (s.idleStrays f g p)
       (g.bad = none → s.heldDiscard f g p = none → g.inv = some .stream →
         ∃ t, exec (.invocationEnd f n) s = .next t ∧ (t.region f n).phase = .idle ∧ (t.region f n).inv = none ∧
           (t.region f n).status = addStatus g.status strays g.invFlags false ∧
           (t.region f n).flags = g.flags) ∧
       (∀ fr a b, g.bad = none → s.heldDiscard f g p = none → g.inv = some (.activation fr) → g.crossing = some (.ret a b) →
         ∃ t, exec (.invocationEnd f n) s = .next t ∧ (t.region f n).phase = .idle ∧ t.returns = s.returns ++ [(g.owner, fr)]) ∧
       (∀ d, g.bad = some d → g.inv = some .stream →
         ∃ t, exec (.invocationEnd f n) s = .next t ∧ (t.region f n).phase = .idle ∧ (t.region f n).fault = d.cause ∧
           (t.region f n).faultNew = true ∧ (t.region f n).status = addStatus g.status strays g.invFlags true)) ∧
     (g.phase = .running → g.frozen = false → g.bad = none →
       ∃ t d, exec (.drainBoundExpiry f n) s = .next t ∧ (t.region f n).phase = .draining ∧ (t.region f n).bad = some d ∧
         d.cause = 0 ∧ t.mem = s.mem) ∧
     (∀ c k e site, (s.enqueues.find? fun y => y.ctx == c && y.fifo == k) = some e → s.fifoSite c k = some site →
       s.fifoCount site < 63 → e.frame < 2 ^ 64 →
       ∃ t, exec (.activationEnqueue c k) s = .next t ∧ t.enqueues = s.enqueues.erase e ∧
         wordAt t.mem (site.key + 8) = wordAt s.mem (site.key + 8) + 1 ∧
         (wordAt t.mem (site.key + 0x20 + 32 * ((wordAt s.mem (site.key + 8)).toNat % 63))).toNat = e.frame)) ∧
  (∀ (s : State),
     (∀ f n p callee fr caller resume k args live, (s.region f n).active = some p → (s.region f n).phase = .idle →
       (s.region f n).crossing = some (.call callee fr caller resume k args live) → tagOf callee = 0 →
       ∃ t, exec (.crossingCall f n) s = .next t ∧ (t.region f n).crossing = none ∧
         t.callbacks = s.callbacks ++ [((s.region f n).owner, fr)] ∧ t.threads = s.threads) ∧
     (∀ idx core c fr mask label, s.callbacks[idx]? = some (c, fr) → ((s.callbacks.take idx).any fun e => e.1 == c) = false →
       (s.ctx c).inn = true → (s.meetPool c).callbackPool c = some (mask, label) → core < 3072 → s.present (core / 192) = true →
       (s.ctx c).allowed.getLsbD (core / 192) = true → mask / 2 ^ (core / 192) % 2 = 1 → s.maySend c core = true →
       ∃ t q, exec (.callbackPacketSend idx core) s = .next t ∧ t.net = s.net ++ [q] ∧ q.ctx = c ∧ q.dst = core ∧
         q.label = label ∧ q.frame = some fr ∧ t.callbacks = dropNth s.callbacks idx) ∧
     (∀ idx c fr cont status m,
       let s₀ := ({ s with returns := dropNth s.returns idx } : State).meetFrame c (frameVa fr)
       let s₁ := s₀.setStatus c (frameVa fr) (withState 2)
       s.returns[idx]? = some (c, fr) → (s.ctx c).inn = true → s₀.frameWord c (frameVa fr + 0x18) = some status →
       bits status 3 0 ≠ 4 → s₀.frameWord c (frameVa fr + 8) = some cont → tagOf cont = 0 →
       s₁.suspended c (frameVa fr) = some m → Quiet { s₁ with cur := m } →
       ∃ t, exec (.returnDelivery idx) s = .next t ∧ (t.thr m).wait = .none ∧ (t.thr m).pc = targetOf cont ∧
         (t.thr m).rs 8 = (s₁.frameWord c (frameVa fr + 0x28)).getD 0 ∧
         (t.thr m).rs 9 = (s₁.frameWord c (frameVa fr + 0x30)).getD 0 ∧ t.returns = dropNth s.returns idx))

/-! Launches, packets and tasks. -/

/-- Launch queues (R32 to R35), for a device with a trained port: a push joins a queue with fewer than 128 slots taken and halts a full
one; ABORT drops the head launch, which ends at once where none of its WIDs has begun, or without a head the oldest that waits;
LQSTAT's bits clear where 1 is written. Host writes of BAR0 through a trained port act at their offsets (R5, R247, R249): LQPUSH, LQCTL with
ENABLE, SERIAL and ABORT, LQSTAT, and the mailbox. That clearing REJ leaves REASON and LQERRHDR is the model's choice (log 25). -/
def Obligations.LaunchQueues : Prop :=
  ∀ (s : State) (c q : Nat) (v : Word), (s.ctx c).live = true → q < 16 → s.dev.ports ≠ 0 → s.dev.state ≠ 2 →
    ((s.lq c q).depth < 128 →
      ∃ t, exec (.lqpush c q v) s = .next t ∧ t.lq c q = { s.lq c q with pending := (s.lq c q).pending ++ [v] } ∧
        t.mem = s.mem ∧ t.threads = s.threads) ∧
    (128 ≤ (s.lq c q).depth →
      ∃ t, exec (.lqpush c q v) s = .next t ∧ t.lq c q = { s.lq c q with ovf := true } ∧ t.mem = s.mem) ∧
    (∀ h rest, (s.lq c q).head = none → (s.lq c q).pending = h :: rest →
      ∃ t, exec (.lqctlAbort c q) s = .next t ∧ t.lq c q = { s.lq c q with pending := rest, aborted := true } ∧
        t.mem = s.mem) ∧
    (∀ h l, (s.lq c q).head = some h → s.launch h = some l →
      (s.launchBusy h = true →
        ∃ t, exec (.lqctlAbort c q) s = .next t ∧ t.lq c q = { s.lq c q with head := none, aborted := true } ∧
          t.launch h = some { l with aborted := true } ∧ t.mem = s.mem ∧ t.threads = s.threads) ∧
      (s.launchBusy h = false → l.halted = 0 → l.heap = none →
        ∃ t, exec (.lqctlAbort c q) s = .next t ∧ t.lq c q = { s.lq c q with head := none, aborted := true } ∧
          t.launch h = none ∧ t.mem = s.mem ∧ t.threads = s.threads)) ∧
    (∃ t, exec (.lqstatClear c q v) s = .next t ∧ t.mem = s.mem ∧
      t.lq c q = { s.lq c q with aborted := (s.lq c q).aborted && !v.getLsbD 3, ovf := (s.lq c q).ovf && !v.getLsbD 2
                                 rej := (s.lq c q).rej && !v.getLsbD 0 }) ∧
    (∀ port, c < 64 → s.dev.ports.getLsbD port = true →
      let at_ := fun off : Nat => ({ port := port, addr := 0x1000 * c + 0x40 * q + off } : PortAddr)
      let x := { s.lq c q with enable := v.getLsbD 0, serial := v.getLsbD 1 }
      (∃ t, exec (.registerWrite (at_ 0) v) s = .next t ∧ exec (.lqpush c q v) s = .next t) ∧
      (∃ t, exec (.registerWrite (at_ 0x10) v) s = .next t ∧ exec (.lqstatClear c q v) s = .next t) ∧
      ((v.getLsbD 2 = false →
        (x.head = none → ∃ t, exec (.registerWrite (at_ 8) v) s = .next t ∧ t.lq c q = x ∧ t.mem = s.mem) ∧
        (∀ h l, x.head = some h → s.launch h = some l →
          ∃ t, exec (.registerWrite (at_ 8) v) s = .next t ∧ t.mem = s.mem ∧
            t.lq c q = if s.allOut h l = true ∧ x.serial = false then { x with head := none } else x))) ∧
      (v.getLsbD 2 = true →
        (∀ h rest, x.head = none → x.pending = h :: rest →
          ∃ t, exec (.registerWrite (at_ 8) v) s = .next t ∧ t.lq c q = { x with pending := rest, aborted := true } ∧ t.mem = s.mem) ∧
        (∀ h l, x.head = some h → s.launch h = some l → s.launchBusy h = true →
          ∃ t, exec (.registerWrite (at_ 8) v) s = .next t ∧ t.lq c q = { x with head := none, aborted := true } ∧
            t.launch h = some { l with aborted := true } ∧ t.mem = s.mem))) ∧
    (∀ port off, s.dev.ports.getLsbD port = true → off < 0x100 → off % 8 = 0 →
      ∃ t, exec (.registerWrite { port := port, addr := 0x50000 + off } v) s = .next t ∧ t.mem = s.mem ∧
        BitVec.ofNat 64 (leNat ((List.range 8).map fun i => tget 0 t.mailbox.req (off + i))) = v)

/-- Launches (R24, R28, R30, R31, R34, R36, R37, R198): the head of an enabled queue is read, and launches, its waits watched, or is
rejected with its reason; a store that brings a watched word to its minimum hits the watch; a wait whose watch is hit, or whose word has
reached its minimum when it is read, is seen, and one whose word has not is watched, or polled again; a heap binds its engines; a WID
starts on an offered thread with its argument, its WID and its entry; a group of any size reserves free threads and starts on them as one
act; a launch with every WID halted completes, its context's stores performed. That an unreadable header is rejected with reason 0x01,
and which threads a group takes for which of its WIDs, are the model's choices (logs 30, 118). -/
def Obligations.Launches : Prop :=
  ∀ (s : State),
    (∀ c q hdr rest ws, (s.ctx c).inn = true → (s.ctx c).leaving = false → (s.lq c q).enable = true → (s.lq c q).rej = false →
      (s.lq c q).ovf = false → ((s.lq c q).serial = true → s.earlierRuns c q = false) → q < 16 → (s.lq c q).head = none → (s.lq c q).pending = hdr :: rest →
      let s₁ := if hdr.toNat % 64 = 0 then s.meetUnit c .user .load 0 (fun k => k ≤ 4) hdr 3 else s
      let s₂ := s₁.meetHeapDesc c ws
      (s₁.headerWords c hdr = none →
        ∃ t, exec (.launchHead c q) s = .next t ∧ t.lq c q =
          { s.lq c q with pending := rest, reason := 0x01, rej := true, errHdr := hdr }) ∧
      (s₁.headerWords c hdr = some ws → s₂.headerReason c ws ≠ 0 →
        ∃ t, exec (.launchHead c q) s = .next t ∧ t.lq c q =
          { s.lq c q with pending := rest, reason := BitVec.ofNat 8 (s₂.headerReason c ws), rej := true, errHdr := hdr }) ∧
      (s₁.headerWords c hdr = some ws → s₂.headerReason c ws = 0 →
        ∃ t, exec (.launchHead c q) s = .next t ∧ (t.lq c q).head = some s.nextLaunch ∧ (t.lq c q).pending = rest ∧
          t.launch s.nextLaunch = some (s₂.launchFrom c q hdr ws) ∧ t.mem = s.mem ∧
          ∀ k site m, k < 4 → nth 0 ws (12 + 2 * k) ≠ 0 → s₂.waitSite (s₂.launchFrom c q hdr ws) k = some (site, m) → site.kind ≠ 3 →
            ∃ w ∈ t.watches, w.launch = s.nextLaunch ∧ w.k = k ∧ w.key = site.key ∧ w.min = m)) ∧
    (∀ w cells, w ∈ s.watches → (∃ x ∈ cells, w.key ≤ x.1 ∧ x.1 < w.key + 8) → w.min ≤ wordAt (setCells s.mem cells) w.key →
      { w with hit := true } ∈ (s.writeCells cells).watches) ∧
    (∀ n l k, s.launch n = some l →
      (s.watchHit n k = true →
        ∃ t, exec (.launchWaitSatisfied n k) s = .next t ∧ t.launch n = some { l with seen := setNth l.seen k true } ∧ t.mem = s.mem) ∧
      (∀ site m, s.watchHit n k = false → s.waitSite l k = some (site, m) → site.kind ≠ 3 →
        ((s.request site).waitReached site m = some true →
          ∃ t, exec (.launchWaitSatisfied n k) s = .next t ∧ t.launch n = some { l with seen := setNth l.seen k true } ∧
            t.mem = s.mem) ∧
        ((s.request site).waitReached site m ≠ some true →
          ∃ t, exec (.launchWaitSatisfied n k) s = .next t ∧ t.launch n = some l ∧ t.mem = s.mem ∧
            ∃ w ∈ t.watches, w.launch = n ∧ w.k = k ∧ w.key = site.key ∧ w.min = m)) ∧
      (∀ site m, s.waitSite l k = some (site, m) → site.kind = 3 →
        (s.waitReached site m = some true →
          ∃ t, exec (.kind3WaitPoll n k) s = .next t ∧ t.launch n = some { l with seen := setNth l.seen k true } ∧ t.mem = s.mem) ∧
        (s.waitReached site m ≠ some true → exec (.kind3WaitPoll n k) s = .next s))) ∧
    (∀ n l h, s.launch n = some l → l.heap = some h → h.bound = false → h.ended = false → l.aborted = false →
      (s.ctx l.ctx).inn = true → (s.ctx l.ctx).leaving = false →
      (∀ q ∈ h.quires, (s.eng q).launch = none ∧ (s.quire q).stopped = false) →
      ∃ t, exec (.heapBind n) s = .next t ∧ t.launch n = some { l with heap := some { h with bound := true } } ∧
        ∀ q ∈ h.quires, t.eng q = { HeapEng.reset with launch := some n, floor := h.floor, tol := h.tol }) ∧
    (∀ n l k, s.launch n = some l → s.offered k 2 = true → s.pickLaunch (quireOf (coreOf k)) = some n → l.cores = 0 →
      ∃ t l', exec (.widStart n k) s = .next t ∧ (t.thr k).work = .wid n l.nextUnit ∧ (t.thr k).pc = targetOf l.entry ∧
        (t.thr k).mode = .user ∧ (t.thr k).ctx = l.ctx ∧ (t.thr k).rs 8 = l.arg ∧ (t.thr k).rs 9 = l.widOf l.nextUnit ∧
        t.launch n = some l' ∧ l'.nextUnit = l.nextUnit + 1 ∧ l'.running = l.running + 1 ∧ t.mem = s.mem) ∧
    (∀ n l q, s.launch n = some l → q < 16 → l.cores ≠ 0 →
      ((s.quire q).resv = none → s.pickLaunch q = some n →
        ∃ t, exec (.groupStart n q) s = .next t ∧ t.threads = s.threads ∧
          (t.quire q).resv = some { launch := n, unit := l.nextUnit, threads := (s.freeIn q).take l.unitSize }) ∧
      (∀ rv, (s.quire q).resv = some rv → rv.launch = n → l.unitSize ≤ rv.threads.length → rv.threads.Nodup →
        (s.ctx l.ctx).inn = true → (s.ctx l.ctx).leaving = false → (s.lq l.ctx l.q).enable = true →
        (s.lq l.ctx l.q).isHalted = false → (rv.threads.any s.isReserve) = false →
        ∃ t, exec (.groupStart n q) s = .next t ∧ (t.quire q).resv = none ∧
          t.launch n = some { l with running := l.running + l.unitSize } ∧
          (∀ k a, rv.threads[k]? = some a → (t.thr a).work = .wid n (rv.unit * l.unitSize + k) ∧ (t.thr a).ctx = l.ctx ∧
            (t.thr a).mode = .user ∧ (t.thr a).pc = targetOf l.entry ∧ (t.thr a).rs 8 = l.arg ∧
            (t.thr a).rs 9 = l.widOf (rv.unit * l.unitSize + k)) ∧
          ∀ a, a ∉ rv.threads → t.thr a = s.thr a)) ∧
    (∀ n l, s.launch n = some l → ((l.aborted = false ∧ l.heap = none) ∨ ∃ h, l.heap = some h ∧ h.ended = true) →
      s.allOut n l = true → l.halted = l.wids → s.launchBusy n = false → (s.collations.filter fun x => x.launch == n) = [] →
      (l.compl = 0 → ∃ t, exec (.launchComplete n) s = .next t ∧ t.launch n = none ∧ t.mem = (s.deliverCtx l.ctx).mem ∧
        (t.lq l.ctx l.q).done = (s.lq l.ctx l.q).done + 1) ∧
      (∀ s₁, l.compl ≠ 0 →
        ((s.deliverCtx l.ctx).meetUnit l.ctx .user .atomic 0 (fun k => k ≤ 4) l.compl 1).unitAdd64 l.ctx l.compl l.incr = some s₁ →
        ∃ t, exec (.launchComplete n) s = .next t ∧ t.launch n = none ∧ t.mem = s₁.mem))

/-- Packets and tasks (R42, R44, R106, R204, R208, R209, R211, R244): an arrived packet joins its queue or waits for the core to accept
it; the picker of a core serves the first ready context after the one it started last, on a reserve thread of those with handler
reserve 1, and starts a handler with the packet's words, a callback task with its frame's arguments in a0 to a7, the frame in s6, the
link of its return in ln and STATE 1 in the frame, and a heap engine its best entry as a task, whose key then runs; two equal good waves
end a heap, an aborted one is unbound. When a core keeps a packet deferred (log 34), when a start on a reserve thread is left to the
other contexts (log 143), and that a callback frame which cannot be read is faulted and starts nothing (log 150) are the model's
choices. -/
def Obligations.PacketsAndTasks : Prop :=
  ∀ (s : State),
    (∀ idx p, s.net[idx]? = some p → earlierOnWay s.net idx p = false →
      let join := s.accepts p.ctx p.dst && (s.mail p.ctx p.dst).deferred.isEmpty && s.queueRoom p.ctx p.dst
      ∃ t, exec (.packetArrival idx) s = .next t ∧ t.net = dropNth s.net idx ∧ t.mem = s.mem ∧
        (join = true → (t.mail p.ctx p.dst).queue = (s.mail p.ctx p.dst).queue ++ [p]) ∧
        (join = false → (t.mail p.ctx p.dst).deferred = (s.mail p.ctx p.dst).deferred ++ [p])) ∧
    (∀ c k p rest, (s.mail c k).deferred = p :: rest → p.ctx = c → p.dst = k → s.accepts c k = true → s.queueRoom c k = true →
      ∃ t, exec (.packetDeferredAccept c k) s = .next t ∧ (t.mail c k).deferred = rest ∧
        (t.mail c k).queue = (s.mail c k).queue ++ [p]) ∧
    (∀ n c l p, s.offered n 0 = true → s.pickHandler n = some (c, l, p) →
      (p.frame = none →
        ∃ t, exec (.handlerStart n) s = .next t ∧ (t.thr n).work = .handler ∧ (t.thr n).mode = .user ∧
          (t.thr n).pc = tget 0 (s.mail c (coreOf n)).handlers l ∧ (t.thr n).rs 8 = p.w0 ∧ (t.thr n).rs 9 = p.w1 ∧
          (t.thr n).rs 10 = BitVec.ofNat 64 (coreOf p.thread) ∧ (t.thr n).rs 11 = BitVec.ofNat 64 l ∧
          (t.mail c (coreOf n)).queue = (s.mail c (coreOf n)).queue.erase p) ∧
      (∀ fr callee as, let s₁ := s.meetFrame c (frameVa fr)
        p.frame = some fr → s₁.frameWord c (frameVa fr) = some callee → s₁.frameWords c (frameVa fr + 0x40) 8 = some as →
        ∃ t, exec (.callbackTaskStart n) s = .next t ∧ (t.thr n).work = .callback fr ∧ (t.thr n).pc = targetOf callee ∧
          (t.thr n).mode = .user ∧ (t.thr n).ctx = c ∧ (t.thr n).rs 6 = frameVa fr ∧
          (t.thr n).rs 1 = 0x8000000000000000 ||| ((frameVa fr).setWidth 56).setWidth 64 ∧
          (∀ k : Fin 8, (t.thr n).rs (Fin.ofNat 64 (8 + k.val)) = nth 0 as k.val) ∧
          t.mem = (((s₁.consume c (coreOf n) l p).turn n 0).setStatus c (frameVa fr) (withState 1)).mem ∧
          (t.mail c (coreOf n)).queue = (s.mail c (coreOf n)).queue.erase p) ∧
      (∀ fr cause, let s₁ := (((s.meetFrame c (frameVa fr)).consume c (coreOf n) l p).turn n 0)
        p.frame = some fr → s₁.unitWord c .user (frameVa fr) (fun k => k ≤ 2) = .error cause →
        ∃ t, exec (.callbackTaskStart n) s = .next t ∧ t = s₁.crossingFault c (frameVa fr) cause ∧
          (t.mail c (coreOf n)).queue = (s.mail c (coreOf n)).queue.erase p)) ∧
    (∀ k c l p, (s.consume c k l p).threads = s.threads ∧ (s.consume c k l p).mem = s.mem ∧
      ((s.consume c k l p).core k).lastCtx = c ∧ ((s.consume c k l p).mail c k).lastLabel = l) ∧
    (∀ k b c, s.pickCtx k b = some c → ∃ j, j < 64 ∧ c = ((s.core k).lastCtx + 1 + j) % 64 ∧ s.readyOn c k = true ∧
      (b = true → (s.ctx c).reserve = true) ∧
      ∀ i, i < j → let y := ((s.core k).lastCtx + 1 + i) % 64
        ¬(s.readyOn y k = true ∧ (b = true → (s.ctx y).reserve = true))) ∧
    (∀ n m l h e, s.offered n 1 = true → (s.eng (quireOf (coreOf n))).launch = some m → s.launch m = some l →
      l.heap = some h → bestEntry (s.eng (quireOf (coreOf n))).entries = some e →
      ∃ t, exec (.heapDispatch n) s = .next t ∧ (t.thr n).work = .heapTask m e.key false ∧
        (t.thr n).pc = targetOf h.template ∧ (t.thr n).rs 8 = BitVec.ofNat 64 e.key ∧ (t.thr n).rs 9 = e.v.setWidth 64 ∧
        (t.thr n).rs 10 = e.payload ∧ (t.thr n).heapId = h.desc ∧
        (t.eng (quireOf (coreOf n))).entries = hdel (s.eng (quireOf (coreOf n))).entries e.key ∧
        (t.eng (quireOf (coreOf n))).running = hput (s.eng (quireOf (coreOf n))).running { e with v := 0 } ∧
        (t.eng (quireOf (coreOf n))).acc = (s.eng (quireOf (coreOf n))).acc - absUnits e.v ∧ t.mem = s.mem) ∧
    (∀ n l h, s.launch n = some l → s.heapOf n = some h →
      (l.aborted = false → (s.ctx l.ctx).inn = true →
        ((h.quires.map s.eng).any fun e => e.running.isEmpty && !e.hasAbove) = true →
        ((s.readWave l h).good = false ∨ h.wave ≠ some (s.readWave l h) →
          ∃ t, exec (.terminationWave n) s = .next t ∧ t.mem = s.mem ∧
            t.launch n = some { l with heap := some { h with wave := some (s.readWave l h) } }) ∧
        ((s.readWave l h).good = true → h.wave = some (s.readWave l h) →
          belowTol (s.heapSum h) ((h.quires.map s.eng).headD HeapEng.reset).tol = true →
          ∃ t, exec (.terminationWave n) s = .next t ∧ (∀ q ∈ h.quires, t.eng q = HeapEng.reset) ∧
            t.launch n = some { l with heap := some { h with bound := false, ended := true, wave := none } })) ∧
      (l.aborted = true → s.launchBusy n = false →
        ∃ t, exec (.heapAbortUnbind n) s = .next t ∧ t.launch n = none ∧ ∀ q ∈ h.quires, t.eng q = HeapEng.reset))

/-! The caches, the outside and firmware. -/

namespace Sys2Proof.Says

/-- An event answers a next state that leaves memory and the threads as they are, and a unit of coherence as a test says. -/
def Unit' (i : Instr) (s : State) (u : Nat) (p : CUnit → Prop) : Prop :=
  ∃ t, exec i s = .next t ∧ t.mem = s.mem ∧ t.threads = s.threads ∧ p (t.cunit u)

end Sys2Proof.Says

/-- The directory protocol (R163 to R166, R170): what GetS, GetM, Upgrade, PutM and PutO do at the home, what a cache does at a
forward or an invalidation, what evictions and the host's snoops leave. The host asks only for device memory that it reaches, a quire
L2 only for a unit that it does not hold. The model's choice is what an owner that asks again gets, the home's own copy (log 107). No
step of it changes memory or a thread. -/
def Obligations.CoherenceSteps : Prop :=
  ∀ (s : State) (u r c : Nat),
    let x := s.cunit u
    (∀ g, s.mayServe r u g = true → s.mayAsk r u g = true → s.grainOf (u / 16) = g →
      (x.dir = .u → r < 16 → Unit' (.gets r u g) s u fun y => y.dir = .x ∧ y.owner = r ∧ y.cache r = .e) ∧
      (x.dir = .u → 16 ≤ r → Unit' (.gets r u g) s u fun y => y.dir = .s ∧ y.holds r = true) ∧
      (x.dir = .s → Unit' (.gets r u g) s u fun y => y.dir = .s ∧ y.holds r = true ∧ (r < 16 → y.cache r = .s)) ∧
      (x.dir = .x ∨ x.dir = .o → x.owner ≠ r →
        Unit' (.gets r u g) s u fun y => y.serving = some (r, .s) ∧ y.msgs = [(x.owner, .fwdGetS)]) ∧
      (x.dir = .x → x.owner = r → Unit' (.gets r u g) s u fun y => y.dir = .x ∧ y.cache r = .e) ∧
      (x.dir = .o → x.owner = r → Unit' (.gets r u g) s u fun y => y.dir = .s ∧ y.holds r = true ∧ y.cache r = .s)) ∧
    (∀ g i, s.mayServe r u g = true → s.grainOf (u / 16) = g → r < 16 →
      (i = .getm r u g ∧ s.copyAt r u g = .i) ∨ (i = .upgrade r u g ∧ s.copyAt r u g ≠ .m ∧ s.copyAt r u g ≠ .e) →
      let fwd := if x.owner = r then [] else [(x.owner, HomeMsg.fwdGetM)]
      let all := fwd ++ (sharersBut x.vec r).map fun c => (c, HomeMsg.inv)
      (x.dir = .u → Unit' i s u fun y => y.dir = .x ∧ y.owner = r ∧ y.cache r = .m ∧ y.serving = none) ∧
      (x.dir = .s → sharersBut x.vec r = [] → Unit' i s u fun y => y.dir = .x ∧ y.owner = r ∧ y.cache r = .m) ∧
      (x.dir = .s → sharersBut x.vec r ≠ [] →
        Unit' i s u fun y => y.serving = some (r, .m) ∧ y.msgs = (sharersBut x.vec r).map fun c => (c, .inv)) ∧
      (x.dir = .x → x.owner ≠ r → Unit' i s u fun y => y.serving = some (r, .m) ∧ y.msgs = [(x.owner, .fwdGetM)]) ∧
      (x.dir = .x → x.owner = r → Unit' i s u fun y => y.dir = .x ∧ y.owner = r ∧ y.cache r = .m ∧ y.serving = none) ∧
      (x.dir = .o → all ≠ [] → Unit' i s u fun y => y.serving = some (r, .m) ∧ y.msgs = all) ∧
      (x.dir = .o → all = [] → Unit' i s u fun y => y.dir = .x ∧ y.owner = r ∧ y.cache r = .m ∧ y.serving = none)) ∧
    (x.serving = none → x.owner = r → x.cache r = .i → x.stale.contains r = false →
      (x.dir = .x → tget Moesi.i x.writing r = .m →
        Unit' (.putm r u) s u fun y => y.dir = .u ∧ tget Moesi.i y.writing r = .i) ∧
      (x.dir = .o → tget Moesi.i x.writing r = .o →
        Unit' (.puto r u) s u fun y => y.dir = (if x.vec = 0 then .u else .s) ∧ tget Moesi.i y.writing r = .i)) ∧
    (c ≠ r → r < 16 → c < 16 →
      (x.msgs = [(c, .fwdGetS)] → x.serving = some (r, .s) → x.dir = .x → x.owner = c → x.cache c = .m → hostHome u = false →
        Unit' (.fwdGets c u) s u fun y => y.cache c = .o ∧ y.cache r = .s ∧ y.dir = .o ∧ y.owner = c ∧ y.msgs = []) ∧
      (x.msgs = [(c, .fwdGetM)] → x.serving = some (r, .m) →
        Unit' (.fwdGetm c u) s u fun y => y.cache c = .i ∧ y.cache r = .m ∧ y.dir = .x ∧ y.owner = r) ∧
      (x.msgs = [(c, .inv)] → x.serving = some (r, .m) →
        Unit' (.inv c u) s u fun y => y.cache c = .i ∧ y.cache r = .m ∧ y.dir = .x ∧ y.owner = r)) ∧
    (x.cache c = .s ∨ x.cache c = .e → Unit' (.l2Eviction c u) s u fun y => y.cache c = .i ∧ y.writing = x.writing) ∧
    (x.cache c = .m ∨ x.cache c = .o →
      Unit' (.l2Eviction c u) s u fun y => y.cache c = .i ∧ tget Moesi.i y.writing c = x.cache c) ∧
    (∀ line, ∃ t, exec (.homeTagEviction line) s = .next t ∧ t.grainOf line = 3 ∧ t.mem = s.mem ∧ t.threads = s.threads ∧
      ∀ v ∈ s.unitsOfLine line, (t.cunit v).dir = .u ∧ (t.cunit v).caches = []) ∧
    (∀ pa, s.hostUnit pa = u → hostHome u = true → s.dev.cxl = 3 → x.msgs = [] → x.serving = none →
      (x.dir = .x → x.cache x.owner = .m → Unit' (.snpdata pa) s u fun y => y.dir = .s ∧ y.cache x.owner = .s) ∧
      Unit' (.snpinv pa) s u (fun y => y.dir = .u ∧ y.caches = []) ∧ exec (.snpcur pa) s = .next s)

namespace Sys2Proof.Says

/-- The mailbox serves a command for a context (R257, R258). -/
def Serving (s : State) (code c : Nat) : Prop :=
  s.mailbox.busy = true ∧ bits (s.mailRequest 0) 15 0 = code ∧ bits (s.mailRequest 0) 21 16 = c ∧ bits (s.mailRequest 0) 63 22 = 0

/-- The command has ended with a result (R257). -/
def Answered (t : State) (r : Nat) : Prop :=
  t.mailbox.result = BitVec.ofNat 8 r ∧ t.mailbox.done = true ∧ t.mailbox.busy = false

/-- The event answers a state in which its command has ended with a result and a test holds. -/
def Serves (i : Instr) (s : State) (r : Nat) (p : State → Prop) : Prop :=
  ∃ t, exec i s = .next t ∧ Answered t r ∧ p t

/-- The save area of a context lies from a key on in one stretch of memory of kind 0 or 1, and holds nothing of what maps it (R238). -/
def AreaAt (s : State) (acc : Acc) (c key : Nat) : Prop :=
  ∀ (m : List Host.Cell) (off : Nat), (∀ k, k < key ∨ key + 0x0A447000 ≤ k → byteAt m k = byteAt s.mem k) → off < 0x0A447000 →
    off % 8 = 0 → ∃ site, State.unitSite { s with mem := m } c .supervisor acc 0 ((s.ctx c).saveBase + BitVec.ofNat 64 off) = .ok site ∧
      site.kind ≤ 1 ∧ site.key = key + off

/-- The record of a thread (R239, R241). -/
def ThreadSaved (m : List Host.Cell) (x : Thread) (slot key : Nat) : Prop :=
  let w := fun off : Nat => wordAt m (key + off)
  (∀ r : SReg, w (8 * r.val) = x.rs r) ∧
  (∀ (r : VReg) i, i < 8 → w (0x200 + 64 * r.val + 8 * i) = BitVec.ofNat 64 (laneOf 64 (x.rv r) i)) ∧
  (∀ p : PReg, w (0xA00 + 8 * p.val) = x.rp p) ∧
  w 0xA40 = (if x.trapDbl then x.trapPc else x.pc) ∧ w 0xA48 = x.fctl.setWidth 64 ∧ w 0xA50 = x.wid ∧ w 0xA58 = x.waitLimit ∧
  w 0xA68 = x.heapId ∧ w 0xA78 = x.trapScratch ∧
  (∀ f, x.wait = .crossing f → w 0xA70 = BitVec.ofNat 64 f) ∧ ((∀ f, x.wait ≠ .crossing f) → w 0xA70 = 0) ∧
  bits (w 0xA60) 2 0 = x.work.code.toNat ∧ bits (w 0xA60) 4 3 = x.waitCode ∧ bit (w 0xA60) 5 = x.halted ∧
  bits (w 0xA60) 13 7 = x.stepctl.toNat ∧ bits (w 0xA60) 23 14 = slot % 1024 ∧ bits (w 0xA60) 39 24 = 0 ∧
  bits (w 0xA60) 47 40 = (if x.trapDbl then x.trapCause.toNat else 0) ∧
  bits (w 0xA60) 55 48 = (if x.trapDbl then x.dcause.toNat else 0) ∧ bits (w 0xA60) 63 56 = 0

/-- The header of a region (R242). -/
def HeaderSaved (m : List Host.Cell) (g : Region) (n key : Nat) : Prop :=
  let w := fun off : Nat => wordAt m (key + off)
  bit (w 0) 0 = true ∧ bit (w 0) 1 = g.frozen ∧ bit (w 0) 2 = g.loadDesc.isSome ∧ bit (w 0) 3 = g.debug ∧ bits (w 0) 9 4 = g.first ∧
  bits (w 0) 15 10 = g.width ∧ bits (w 0) 19 16 = n ∧ bits (w 0) 63 20 = 0 ∧
  (∀ p, g.active = some p → w 8 = p.desc) ∧ w 0x10 = g.loadDesc.getD 0 ∧
  (∀ f, g.inv = some (.activation f) → w 0x18 = BitVec.ofNat 64 f) ∧ ((∀ f, g.inv ≠ some (.activation f)) → w 0x18 = g.status) ∧
  (∀ k, k < 4 → natAt m (key + 0x20 + 4 * k) 4 = nth 0 g.iter k % 2 ^ 32) ∧ w 0x30 = BitVec.ofNat 64 g.invNo ∧
  natAt m (key + 0x38) 4 = g.stray % 2 ^ 32 ∧ natAt m (key + 0x3C) 4 = g.flags.toNat

/-- A thread comes back from its record (R237, R239). -/
def ThreadBack (m : List Host.Cell) (x : Thread) (key : Nat) : Prop :=
  let w := fun off : Nat => wordAt m (key + off)
  (∀ r : SReg, r ≠ 0 → x.rs r = w (8 * r.val)) ∧
  (∀ (r : VReg) i, i < 8 → BitVec.ofNat 64 (laneOf 64 (x.rv r) i) = w (0x200 + 64 * r.val + 8 * i)) ∧
  (∀ p : PReg, p ≠ 0 → x.rp p = w (0xA00 + 8 * p.val)) ∧ x.fctl = (w 0xA48).setWidth 8 ∧ x.wid = w 0xA50 ∧
  x.waitLimit = w 0xA58 ∧ x.heapId = w 0xA68 ∧ x.trapScratch = w 0xA78 ∧ x.halted = bit (w 0xA60) 5

end Sys2Proof.Says

/-- Clasp firmware's commands on contexts (R20, R43, R53, R82, R234 to R237, R256 to R258, R261, R262): each legal one does its work and
answers 0, an illegal one answers its reason; a doorbell during one sets OVR, and a code that no command has answers 0xFF. A
creation and a destruction leave every tile descriptor of the context free (R57); a creation gives BANKROLE and MXRAMP their reset values
where the context may run (R6). A switch-out of a context, once its stores are performed, leaves in its save area the header, the record
of every thread, both sets of every array with a gang of it and the header of every region (R127, R238, R239, R241, R242), and its
threads free and its arrays without the gang; a switch-in of a saved one gives every thread back what its record holds, and one whose
area is not valid fails (R237, R240). The model's choices among these are the reasons
that the rules do not number and the details that they leave open: that a creation does not switch in (log 21), what of its request is
checked (log 82), that a destruction is one act (log 83), that a pre-emption takes two (log 84), the reasons of a switch-in (log 89) and
of a region table (log 90), how a repair takes spares (log 91), that the certificate stands in Mailbox.cert beside the response buffer
(log 92), the tables of tiles by context (log 131), that a creation leaves a bank its role while another context's things lie in it
(log 142), and that a saved array's entries lie row by row (log 153). -/
def Obligations.MailboxCommands : Prop :=
  ∀ (s : State) (c : Nat),
    (Serving s 0x0001 c → ∀ req,
      (s.dev.state ≠ 2 → (s.ctx c).live = false → req.pools.all s.poolOk = true → poolsApart req.pools = true →
        req.saveBase.toNat % 4096 = 0 → req.root % 2 ^ 20 = 0 →
        Serves (.createContext req) s 0 fun t => t.ctx c = ctxOf req ∧
          (∀ k n, n < 32 → (t.core k).tile c n = Tile.reset) ∧
          (∀ q, s.present q = true → req.allowed.getLsbD q = true → (t.quire q).mxramp = BitVec.ofNat 64 (800 * 2 ^ 12 + 800)) ∧
          ((s.cores.map (·.1)).Nodup →
            (∀ k, (s.core k).switching = none ∧ ∀ b, b < 3 → (s.core k).role b = if b = 0 then 0 else 1) → t.mem = s.mem) ∧
          ∀ k b, (s.cores.map (·.1)).Nodup → b < 3 → s.present (k / 192) = true → req.allowed.getLsbD (k / 192) = true → (s.core k).switching = none →
            ((s.core k).tiles.all fun e => e.2.st == .free) = true → s.fifoInUse k b = false →
            s.inPool (k / 192) (k % 192 * 262144 + b * 65536) 65536 = false → (t.core k).role b = if b = 0 then 0 else 1) ∧
      (s.dev.state ≠ 2 → (s.ctx c).live = false → req.root % 2 ^ 20 ≠ 0 →
        Serves (.createContext req) s 2 fun t => t.ctxs = s.ctxs) ∧
      ((s.ctx c).live = true → Serves (.createContext req) s 1 fun t => t.ctxs = s.ctxs)) ∧
    (Serving s 0x0002 c →
      ((s.ctx c).live = true → Serves .destroyContext s 0 fun t => (t.ctx c).live = false ∧
        (∀ k n, n < 32 → (t.core k).tile c n = Tile.reset) ∧ (∀ p ∈ t.net, p.ctx ≠ c) ∧ ∀ n l, t.launch n = some l → l.ctx ≠ c) ∧
      ((s.ctx c).live = false → Serves .destroyContext s 2 fun t => t.ctxs = s.ctxs)) ∧
    (Serving s 0x0003 c → (s.ctx c).live = true → (s.ctx c).inn = true →
      (s.stopped c = true → Serves .switchOut s 0 fun t => (t.ctx c).inn = false ∧ (t.ctx c).leaving = false ∧
        ∀ key, let s₁ := s.settleCtx c
          c < 64 → AreaAt s₁ .store c key → (s₁.threads.map (·.1)).Nodup → (s₁.arrays.map (·.1)).Nodup →
          (s₁.regions.map (·.1)).Nodup → (∀ e ∈ s₁.threads, e.1 < 12288) → (∀ e ∈ s₁.arrays, e.1 < 192) →
          (∀ e ∈ s₁.regions, e.1 < 64 ∧ e.2.first + e.2.width ≤ 40) →
          wordAt t.mem key = BitVec.ofNat 64 (1 + (if (s.ctx c).debug then 2 else 0) + 4 * c) ∧
          (∀ q, q < 16 → (wordAt t.mem (key + 8)).getLsbD q = (s₁.threadsOf c).any fun e => e.1 / 768 == q) ∧
          (∀ r, r < 64 → (wordAt t.mem (key + 0x10)).getLsbD r = (s₁.regionsOf c).any fun e => 16 * e.1 + e.2.1 == r) ∧
          wordAt t.mem (key + 0x18) = 0 ∧
          (∀ n, (s₁.thr n).work ≠ .free → (s₁.thr n).ctx = c →
            ThreadSaved t.mem (s₁.thr n) (s₁.slotOf (s₁.thr n)) (key + 0x1000 + 2688 * n) ∧ (t.thr n).work = .free) ∧
          (∀ q j, j < 12 → (s₁.array q j).gang ≠ 0 → (s₁.array q j).ctx = c →
            (t.array q j).gang = 0 ∧ ∀ set i, set < 2 → i < 16384 →
              wordAt t.mem (key + 0x01F81000 + 262272 * (12 * q + j) + 131072 * set + 8 * i) =
                BitVec.ofNat 64 ((s₁.array q j).entry set i)) ∧
          ∀ f n, n < 16 → (s₁.region f n).width ≠ 0 → (s₁.region f n).owner = c →
            HeaderSaved t.mem (s₁.region f n) n (key + 0x04F87000 + 0x01398000 * f + 0x1000 * n)) ∧
      (s.stopped c = false → (s.ctx c).leaving = false →
        ∃ t, exec .switchOut s = .next t ∧ (t.ctx c).leaving = true ∧ t.mem = s.mem ∧ t.threads = s.threads)) ∧
    (Serving s 0x0004 c → (s.ctx c).live = true → (s.ctx c).inn = false → ∀ vs ms,
      (∀ s₁, (s.saved.find? fun e => e.1 == c) = none → s.giveSlices c vs (s.quiresOf c) = some s₁ →
        Serves (.switchIn vs ms) s 0 fun t => (t.ctx c).inn = true ∧ (t.ctx c).leaving = false) ∧
      (s.giveSlices c vs (s.quiresOf c) = none → Serves (.switchIn vs ms) s 3 fun t => t.ctxs = s.ctxs) ∧
      (∀ x s₁ key, (s.saved.find? fun e => e.1 == c) = some (c, x) → s.giveSlices c vs (s.quiresOf c) = some s₁ →
        AreaAt s .load c key → AreaAt s₁ .load c key → s.poison = [] → s₁.poison = [] →
        (bit (wordAt s.mem key) 0 = false → Serves (.switchIn vs ms) s 1 fun t => t.ctxs = s.ctxs ∧ t.threads = s.threads) ∧
        (bit (wordAt s.mem key) 0 = true → s.partsFree x = false →
          Serves (.switchIn vs ms) s 3 fun t => t.ctxs = s.ctxs ∧ t.threads = s.threads) ∧
        (bit (wordAt s.mem key) 0 = true → s.partsFree x = true →
          (x.regions.all fun e => s.fits c e.1 (newPlace ms e.1) e.2) = true → (x.threads.map (·.1)).Nodup →
          (∀ e ∈ x.threads, e.1 < 12288) →
          Serves (.switchIn vs ms) s 0 fun t => (t.ctx c).inn = true ∧ (t.ctx c).leaving = false ∧
            ∀ n y, (n, y) ∈ x.threads → ThreadBack s₁.mem (t.thr n) (key + 0x1000 + 2688 * n) ∧
              (y.trapDbl = false → (t.thr n).pc = wordAt s₁.mem (key + 0x1000 + 2688 * n + 0xA40))))) ∧
    (Serving s 0x0005 c → ∀ req : RegionReq, req.folio < 4 → s.dev.fields.getLsbD req.folio = true →
      req.entries.length ≤ 16 → entriesOk 0 req.entries = true →
      (req.entries.all fun e => decide (e.owner < 64) && (s.ctx e.owner).live) = true →
      (((List.range 16).any fun n => s.affects req.folio req.entries n && (s.region req.folio n).runs) = false →
        Serves (.setRegionTable req) s 0 fun t => ∀ n, n < 16 → t.region req.folio n = s.wanted req.folio req.entries n) ∧
      (((List.range 16).any fun n => s.affects req.folio req.entries n && (s.region req.folio n).runs) = true →
        Serves (.setRegionTable req) s 1 fun t => t.regions = s.regions)) ∧
    (Serving s 0x0006 c → Serves .attest s 0 fun t => t.mailbox.resp =
      putBytes [] 0 (s.dev.report ((List.range 4).flatMap fun k => leBytes 8 (s.mailRequest (k + 1)).toNat)) ∧
        t.mailbox.cert = Config.certificate) ∧
    (Serving s 0x0008 c →
      (∀ q failing buffer, s.present q = true → (s.eng q).launch = none → s.contextsOn q = [] →
        buffer + Config.windowBytes ≤ 2 ^ 39 → (∀ k ∈ failing, k < 192) →
        let used := tget 0 s.dev.spares q
        let lost := failing.eraseDups
        Serves (.repair (.quire q failing buffer)) s 0 fun t => t.dev.generation = s.dev.generation + 1 ∧
          (used + lost.length ≤ 8 → t.dev.coreTable = remapCores s.dev.coreTable q lost used ∧
            tget 0 t.dev.spares q = used + lost.length) ∧
          (8 < used + lost.length → t.dev.present.getLsbD q = false)) ∧
      (∀ f k : Nat, f < 4 → k < 40 → s.regionAt f k = none →
        (s.dev.spareUsed f = false →
          Serves (.repair (.column f k)) s 0 fun t => t.dev.colTable = tput s.dev.colTable (40 * f + k) 40) ∧
        (s.dev.spareUsed f = true → Serves (.repair (.column f k)) s 1 fun t => t.dev = s.dev))) ∧
    (Serving s 0x0009 c → ∀ image : Signed,
      (verifies image = true →
        Serves (.updateMainFirmware image.body ⟨image.key, image.sig⟩) s 0 fun t => t.dev.mainImage = image.body ∧
          t.dev.generation = s.dev.generation + 1) ∧
      (verifies image = false → Serves (.updateMainFirmware image.body ⟨image.key, image.sig⟩) s 1 fun t => t.dev = s.dev)) ∧
    (s.mailbox.busy = true → bits (s.mailRequest 0) 15 0 = 0 ∨ 9 < bits (s.mailRequest 0) 15 0 →
      Serves .unknownCommand s 0xFF fun t => t.ctxs = s.ctxs) ∧
    (s.mailbox.busy = true → s.dev.ports ≠ 0 →
      ∃ t, exec .mbdoorWriteWhileBusy s = .next t ∧ t.mailbox = { s.mailbox with ovr := true } ∧ t.mem = s.mem) ∧
    ((s.ctx c).leaving = true → ((s.threadsOf c).any fun e => e.2.mode == .supervisor && !e.2.halted) = true →
      ∃ t, exec (.supervisorBoundExpiry c) s = .next t ∧ (t.ctx c).leaving = false ∧ t.mem = s.mem ∧
        (s.mailbox.busy = true → bits (s.mailRequest 0) 15 0 = 3 → Answered t 3)) ∧
    (∀ f n, (s.region f n).width ≠ 0 → (s.ctx (s.region f n).owner).leaving = true → (s.region f n).phase ≠ .idle →
      (s.region f n).frozen = false →
      ∃ t, exec (.preemptionBoundExpiry f n) s = .next t ∧ t.mem = s.mem ∧
        t.region f n = { s.region f n with frozen := true, preempted := true })

/-- What comes from outside (R168, R172, R175, R251, R252): a write of the host over CXL.mem within a decoded and exported range or of a peer within its range puts its
bytes into memory and changes no other byte, a host read changes none, a refused kind-4 store is dropped and kept for the
report, an error poisons its unit, a link or a port that fails goes down. Starts and losses of power (R255, R259): with verified
images the device comes up with nothing of its own memory, threads or contexts left and memory outside it kept; where an image or a
block does not verify it stays down, and so it is after a power failure, in service or within a step of a start, none of them after
the one at which no image verifies. The model's choices among these are that the bring-up record holds the last start alone (log
77), that lost memory reads zero (log 80), what a start without an image leaves (log 81), that a block which fails stops the start (log 130), and how ranges come to be exported (log 74). -/
def Obligations.OutsideAndPower : Prop :=
  (∀ (s : State),
     (∀ port pa, s.cxlMem port pa 1 = true →
       ∃ t, exec (.hostCxlMemAccess ⟨port, pa⟩ none) s = .next t ∧ t.mem = s.mem ∧ t.threads = s.threads) ∧
     (∀ port pa bs, s.cxlMem port pa bs.length = true → pa % 64 + bs.length ≤ 64 →
       ∃ t, exec (.hostCxlMemAccess ⟨port, pa⟩ (some bs)) s = .next t ∧ Written s.mem t.mem pa bs ∧ t.threads = s.threads) ∧
     (∀ k pa bs, s.dev.zorey.isSome = true → s.dev.links ≠ 0 → s.peerMay k pa bs.length = true →
       s.deviceSpan pa bs.length = true → pa % 64 + bs.length ≤ 64 →
       ∃ t, exec (.peerAccess k pa (some bs)) s = .next t ∧ Written s.mem t.mem pa bs ∧ t.threads = s.threads) ∧
     (∀ k i e, (s.core k).wbuf[i]? = some e → e.kind = 4 → 2 ^ 50 ≤ 64 * e.line →
       ∃ t, exec (.kind4StoreFailure k i) s = .next t ∧ t.mem = s.mem ∧ (t.core k).wbuf = dropNth (s.core k).wbuf i ∧
         (t.thr e.thread).peerDrops = (s.thr e.thread).peerDrops + 1 ∧
         (t.thr e.thread).peerFail = some ((s.thr e.thread).peerFail.getD e.via.va)) ∧
     (∀ key g u, s.poisonUnit key g = some u →
       ∃ t, exec (.poisonDetect key g) s = .next t ∧ t.mem = s.mem ∧ u ∈ t.poison ∧ ∀ p ∈ s.poison, p ∈ t.poison) ∧
     (∀ k, k < 18 → s.dev.links.getLsbD k = true →
       ∃ t, exec (.zoreyLinkDown k) s = .next t ∧ t.mem = s.mem ∧
         ∀ j, j < 18 → t.dev.links.getLsbD j = (s.dev.links.getLsbD j && decide (j ≠ k))) ∧
     (∀ k, k < 2 → s.dev.ports.getLsbD k = true →
       ∃ t, exec (.hostPortTrainingLoss k) s = .next t ∧ t.dev.ports.getLsbD k = false ∧ t.dev.cxl.getLsbD k = false)) ∧
  (∀ (s : State) (o : StartOutcome),
     let d := s.dev
     (∀ a b, d.verify = .ok (a, b) →
       ∃ t, exec (.deviceStart o) s = .next t ∧ t.dev.power = true ∧ t.threads = [] ∧ t.ctxs = [] ∧
         (∀ k, k < 2 ^ 50 ∨ 2 ^ 52 ≤ k → byteAt t.mem k = 0) ∧
         (∀ k, 2 ^ 50 ≤ k → k < 2 ^ 52 → byteAt t.mem k = byteAt s.mem k) ∧ ∀ e ∈ t.dev.record, e.finished = true) ∧
     (∀ k, d.verify = .error k →
       ∃ t, exec (.deviceStart o) s = .next t ∧ t.dev.power = false ∧ t.threads = [] ∧
         ∃ e ∈ t.dev.record, e.finished = false) ∧
     (d.power = true →
       ∃ t, exec (.powerFail 0 0) s = .next t ∧ t.dev.power = false ∧ t.dev.record = d.record ∧ t.threads = [] ∧
         ∀ k, k < 2 ^ 50 ∨ 2 ^ 52 ≤ k → byteAt t.mem k = 0) ∧
     (∀ step sub, d.power = false → step ≠ 0 → (step, sub) ∈ d.plan →
       (d.reaches step = true →
         ∃ t, exec (.powerFail step sub) s = .next t ∧ t.dev.power = false ∧ t.threads = [] ∧
           ∃ e ∈ t.dev.record, e.finished = false) ∧
       (d.reaches step = false → exec (.powerFail step sub) s = .next s)))

namespace Sys2Proof.Says

/-- The ten operations of the debug port (R245, R246). -/
def debugOperation : Instr → Bool
  | .debugHaltThread _ => true
  | .debugResumeThread _ _ => true
  | .debugReadThread _ _ => true
  | .debugWriteThread _ _ _ => true
  | .debugWriteStepState _ _ _ => true
  | .debugFreezeRegion _ _ => true
  | .debugStepRegion _ _ => true
  | .debugThawRegion _ _ => true
  | .debugReadRegion _ _ _ => true
  | .debugWriteRegion _ _ _ _ => true
  | _ => false

/-- A region in debug mode of a context (R82, R246). -/
def InDebug (s : State) (c f n : Nat) : Prop :=
  (s.region f n).width ≠ 0 ∧ (s.region f n).owner = c ∧ (s.region f n).debug = true

end Sys2Proof.Says

/-- The debug port (R65 to R67, R245, R246) serves mailbox command 0x0007 for a live context (R258). Without the debug flag each of
its ten operations answers 1 and changes nothing. With it, on a thread of the context: debugHaltThread asks for the halt, and an
armed WAITV or a WAITE returns; debugResumeThread ends the halt, after a double trap at the pc it gives; on a halted one debugReadThread
answers a word of its record and debugWriteThread writes one; debugWriteStepState writes STEPCTL and the breakpoints, of a free thread
too. On a region in debug mode: debugFreezeRegion freezes and debugThawRegion thaws it, one that a pre-emption froze too, and
debugStepRegion leaves a frozen one frozen after its cycle. On a frozen region, in debug mode or not: debugReadRegion answers a word of
its state and debugWriteRegion writes one. Of a context that is out, the halted threads and frozen regions are read and written in its
save area (R240). The order within a cycle (log 134), the words of the forms private to the device (log 146), the header words that a
write puts back (log 174) and that a saved region is not stepped (log 173) are the model's choice. -/
def Obligations.DebugPort : Prop :=
  ∀ (s : State) (c : Nat), Serving s 0x0007 c → (s.ctx c).live = true →
    ((s.ctx c).debug = false → ∀ i, debugOperation i = true →
      ∃ t, exec i s = .next t ∧ Answered t 1 ∧ t.threads = s.threads ∧ t.regions = s.regions ∧ t.ftiles = s.ftiles ∧
        t.mem = s.mem) ∧
    ((s.ctx c).debug = true →
      (∀ n, (s.thr n).work ≠ .free → (s.thr n).ctx = c →
        ((s.thr n).halted = false → (s.thr n).waiting = false →
          ∃ t, exec (.debugHaltThread n) s = .next t ∧ Answered t 0 ∧ t.thr n = { s.thr n with haltAsked := true } ∧
            t.mem = s.mem) ∧
        ((s.thr n).halted = false → (s.thr n).waiting = true →
          ∃ t, exec (.debugHaltThread n) s = .next t ∧ Answered t 0 ∧ (t.thr n).wait = .none) ∧
        (∀ pc, ∃ t, exec (.debugResumeThread n pc) s = .next t ∧ Answered t 0 ∧ t.mem = s.mem ∧ t.thr n =
          if (s.thr n).trapDbl then { s.thr n with halted := false, haltAsked := false, pc := pc, trapDbl := false, dcause := 0 }
          else { s.thr n with halted := false, haltAsked := false }) ∧
        ((s.thr n).halted = true →
          (∀ k, k < 336 →
            ∃ t, exec (.debugReadThread n (8 * k)) s = .next t ∧ Answered t 0 ∧ t.threads = s.threads ∧
              t.mailbox.resp = putBytes [] 0 (leBytes 8 ((s.thr n).recWord (s.slotOf (s.thr n)) k).toNat)) ∧
          (∀ r : SReg, ∃ t, exec (.debugReadThread n (8 * r.val)) s = .next t ∧ Answered t 0 ∧
            t.mailbox.resp = putBytes [] 0 (leBytes 8 ((s.thr n).rs r).toNat)) ∧
          (∀ k v, k < 336 →
            ∃ t, exec (.debugWriteThread n (8 * k) v) s = .next t ∧ Answered t 0 ∧ t.mem = s.mem ∧
              t.thr n = s.putThreadWord n (s.thr n) k v) ∧
          (∀ (r : SReg) (v : Word), r ≠ 0 →
            ∃ t, exec (.debugWriteThread n (8 * r.val) v) s = .next t ∧ Answered t 0 ∧ (t.thr n).rs r = v))) ∧
      (∀ n st b0 b1 b2 b3, n < Config.threads → (s.thr n).ctx = c ∨ (s.thr n).work = .free →
        canonical b0 = true → canonical b1 = true → canonical b2 = true → canonical b3 = true →
        ∃ t, exec (.debugWriteStepState n st [b0, b1, b2, b3]) s = .next t ∧ Answered t 0 ∧ t.mem = s.mem ∧
          (t.thr n).stepctl = st.setWidth 7 ∧ (t.thr n).work = (s.thr n).work ∧ (t.thr n).brk[0] = b0 &&& ~~~3 ∧
          (t.thr n).brk[1] = b1 &&& ~~~3 ∧ (t.thr n).brk[2] = b2 &&& ~~~3 ∧ (t.thr n).brk[3] = b3 &&& ~~~3) ∧
      (∀ n x, (s.thr n).work = .free ∨ (s.thr n).ctx ≠ c → ((s.savedOf c).threads.find? fun e => e.1 == n) = some (n, x) →
        let s₁ := s.meetThread c n
        let th := s₁.loadThread c n x
        th.halted = true → ∀ k, k < 336 →
          (∃ t, exec (.debugReadThread n (8 * k)) s = .next t ∧ Answered t 0 ∧ t.threads = s.threads ∧ t.mem = s.mem ∧
            t.mailbox.resp = putBytes [] 0 (leBytes 8 (th.recWord (s₁.slotOf th) k).toNat)) ∧
          ∀ v, ∃ t, exec (.debugWriteThread n (8 * k) v) s = .next t ∧ Answered t 0 ∧ t.threads = s.threads ∧
            t.mem = (s₁.saveThread c n (s.putThreadWord n th k v)).mem) ∧
      (∀ f n, (s.ctx c).inn = true → InDebug s c f n →
        (∃ t, exec (.debugFreezeRegion f n) s = .next t ∧ Answered t 0 ∧ t.mem = s.mem ∧ t.ftiles = (s.freeze f n).ftiles ∧
          t.region f n =
            if (s.region f n).frozen then { s.region f n with preempted := false } else { s.region f n with frozen := true }) ∧
        (∃ t, exec (.debugThawRegion f n) s = .next t ∧ Answered t 0 ∧ t.mem = s.mem ∧ t.ftiles = s.ftiles ∧
          t.region f n = { s.region f n with frozen := false, preempted := false }) ∧
        ((s.region f n).frozen = true →
          ∃ t, exec (.debugStepRegion f n) s = .next t ∧ Answered t 0 ∧ (t.region f n).frozen = true ∧
            t.ftiles = (s.stepRegion f n).ftiles ∧ t.mem = (s.stepRegion f n).mem)) ∧
      (∀ f n, (s.ctx c).inn = true → (s.region f n).width ≠ 0 → (s.region f n).owner = c → (s.region f n).frozen = true →
        ∀ off x, (s.region f n).part n off = some x →
          (let s₁ := s.meetPart f n (s.region f n) x
           ∃ t, exec (.debugReadRegion f n off) s = .next t ∧ Answered t 0 ∧ t.regions = s₁.regions ∧ t.mem = s₁.mem ∧
            t.mailbox.resp = putBytes [] 0 (leBytes 8 (s.partWord f n (s.region f n) x).toNat) ∧
            ((∀ k, x ≠ .fault k) → t.regions = s.regions ∧ t.mem = s.mem)) ∧
          ∀ v, ∃ t, exec (.debugWriteRegion f n off v) s = .next t ∧ Answered t 0 ∧
            ((∀ k, x ≠ .fault k) → t.threads = s.threads ∧ t.mem = s.mem) ∧
            t.regions = (s.putPart f n (s.region f n) v x).regions ∧ t.ftiles = (s.putPart f n (s.region f n) v x).ftiles ∧
            t.mem = (s.putPart f n (s.region f n) v x).mem) ∧
      (∀ f n g, (s.ctx c).inn = false → ((s.savedOf c).regions.find? fun e => e.1 == 16 * f + n) = some (16 * f + n, g) →
        (g.debug = true →
          (∃ t, exec (.debugFreezeRegion f n) s = .next t ∧ Answered t 0 ∧ t.regions = s.regions ∧
            tget g (t.savedOf c).regions (16 * f + n) = { g with preempted := false }) ∧
          (∃ t, exec (.debugThawRegion f n) s = .next t ∧ Answered t 0 ∧ t.regions = s.regions ∧
            tget g (t.savedOf c).regions (16 * f + n) = { g with preempted := g.frozen }) ∧
          (∃ t, exec (.debugStepRegion f n) s = .next t ∧ Answered t 1 ∧ t.regions = s.regions ∧ t.ftiles = s.ftiles)) ∧
        (g.frozen = true → ∀ off x, g.part n off = some x →
          (let s₁ := s.meetSaved c (folioOff f + off) 1
           ∀ w, s₁.savedWord c (folioOff f + off) = some w →
            ∃ t, exec (.debugReadRegion f n off) s = .next t ∧ Answered t 0 ∧ t.mem = s.mem ∧
              t.mailbox.resp = putBytes [] 0 (leBytes 8 w.toNat)) ∧
          ∀ v, ∃ t, exec (.debugWriteRegion f n off v) s = .next t ∧ Answered t 0 ∧ t.regions = s.regions ∧
            t.mem = (s.saveAt c (folioOff f + off) [v]).mem)))

/-! Encoding, the step and reset. -/

namespace Sys2Proof.Says

/-- The issuing thread's fetch at an address gives a word: the one it has fetched there since its last ISYNC, or the four bytes that
translation and memory give once the core's own stores to the line have reached it (R193, R229). -/
def FetchesWord (s : State) (va : Word) (w : Nat) (s' : State) : Prop :=
  va.toNat % 4 = 0 ∧
    ((tget none (s.th.ibuf.map fun e => (e.1, some e.2)) va.toNat = some w ∧ s' = s) ∨
     (tget none (s.th.ibuf.map fun e => (e.1, some e.2)) va.toNat = none ∧
      ∃ site s₁, s.translateFor s.myCore s.myQuire s.th.ctx s.th.mode .fetch va = .ok (site, s₁) ∧
        (s₁.meets site).poisoned site.key 4 = false ∧
        (let r := (s₁.readSite site 4).2.2
         w = natAt r.mem site.key 4 ∧ s' = r.setTh { r.th with ibuf := tput r.th.ibuf va.toNat w })))

/-- The words of the instruction at an address: one, or an IMM chain of two or three (R277). -/
inductive FetchesWords : State → Word → List Nat → State → Prop where
  | one {s s' va w} : FetchesWord s va w s' → w % 128 ≠ 127 → FetchesWords s va [w] s'
  | two {s s₁ s' va v w} : FetchesWord s va v s₁ → v % 128 = 127 → FetchesWord s₁ (va + 4) w s' → w % 128 ≠ 127 →
      FetchesWords s va [v, w] s'
  | three {s s₁ s₂ s' va u v w} : FetchesWord s va u s₁ → u % 128 = 127 → FetchesWord s₁ (va + 4) v s₂ → v % 128 = 127 →
      FetchesWord s₂ (va + 8) w s' → FetchesWords s va [u, v, w] s'

/-- An answer of thread n's instruction as a step takes it: one that would change a byte of a pinned line leaves the state as it was,
and the thread issues again. -/
def issued (s : State) (n : Nat) : Out → Out
  | .next t => if s.hitsPin t then .next (s.setThr n { s.thr n with wait := .retry }) else .next t
  | o => o

/-- An answer of a scheduled event as a step takes it: one that would change a byte of a pinned line does not happen yet. -/
def happened (s : State) : Out → Out
  | .next t => if s.hitsPin t then .next s else .next t
  | o => o

/-- What a step answers after an instruction of a core's thread: its answer, the picker's rotation and the passing of time. -/
def after (core n : Nat) : Out → Out
  | .next t => .next (t.setCore core { t.core core with lastIssue := n % 4 }).tick
  | o => o

/-- Nothing is scheduled and thread n is the first of its core's order that can use the slot (R39). -/
structure Turn (s : State) (n : Nat) : Prop where
  quiet   : s.agenda = [] ∧ s.dev.power = true
  first   : ∃ pre post, s.pickOrder s.myCore = pre ++ n :: post ∧ ∀ m ∈ pre, s.mayIssue m = false
  able    : s.mayIssue n = true ∧ (s.thr n).yielded = false ∧ (s.thr n).wait = .none
  noHalt  : (s.thr n).haltAsked = false ∧ (s.thr n).breakpoint = none

end Sys2Proof.Says

/-- Decoding the words that a well-formed instruction encodes to, with any bytes after them, gives the instruction and those
bytes. -/
def Obligations.DecodeEncode : Prop :=
  ∀ (i : Instr) (rest : List Byte), i.wellFormed = true → encode i ≠ [] →
    decode (wordsBytes (encode i) ++ rest) = .ok (i, rest)

/-- What decodes is a well-formed instruction and the bytes taken are exactly the words it encodes to, so that no two encodings
decode to one instruction, or it is an IMM chain before an instruction that takes no immediate (R276 to R281). -/
def Obligations.EncodeDecode : Prop :=
  ∀ (bs rest : List Byte) (i : Instr), decode bs = .ok (i, rest) →
    (i.wellFormed = true ∧ bs = wordsBytes (encode i) ++ rest) ∨ ∃ first second, i = .imm first second .notBearing

/-- Words written out bit by bit from the encoding tables (R277 to R290), the words of Example 15.1 among them, decode to what they
stand for, and illegal ones do not decode. -/
def Obligations.DecodeWords : Prop :=
  decodeTableWord 32 0x00CA2423 = some (.ldD 8 17 .acquire .device 1) ∧ decodeTableWord 32 0x00D22423 = none ∧
  decodeTableWord 32 0x80490800 = some (.addW 16 8 9) ∧ decodeTableWord 32 0x00000043 = none ∧
  decodeTableWord 64 (0x0400007F + 2 ^ 32 * 0x17) = some (.imm 0x80000 none .notBearing) ∧
  decodeTableWord 32 (0x02 + 3 * 2 ^ 7 + 4 * 2 ^ 13 + 0x1FFF * 2 ^ 19) = some (.addi 3 4 (-1)) ∧
  decodeTableWord 64 (0x7F + 1 * 2 ^ 7 + 2 ^ 32 * (0x02 + 3 * 2 ^ 7 + 4 * 2 ^ 13 + 5 * 2 ^ 19)) = some (.imm 1 none (.addi 3 4 5)) ∧
  decodeTableWord 32 (0x11 + 5 * 2 ^ 7 + 6 * 2 ^ 13 + 0x1FFC * 2 ^ 19) = some (.bNe 5 6 (-4)) ∧
  decodeTableWord 32 (0x2A + 3 * 2 ^ 7 + 2 * 2 ^ 13 + 0x1FF * 2 ^ 23) = some (.stW 3 2 .plain .thread (-1)) ∧
  decodeTableWord 32 (0x40 + 3 * 2 ^ 7 + 4 * 2 ^ 13 + 5 * 2 ^ 19 + (64 + 2) * 2 ^ 25) = some (.fMul 3 4 5 .f32) ∧
  decodeTableWord 32 (0x48 + 1 * 2 ^ 7 + 2 * 2 ^ 12 + 3 * 2 ^ 17 + 4 * 2 ^ 22 + (13 * 8 + 7) * 2 ^ 25) = some (.vDiv 1 2 3 4 .f64) ∧
  decodeTableWord 32 (0x48 + 1 * 2 ^ 7 + 2 * 2 ^ 12 + 3 * 2 ^ 17 + 4 * 2 ^ 22 + (13 * 8 + 2) * 2 ^ 25) = none ∧
  decodeTableWord 32 (0x53 + 1 * 2 ^ 7 + 2 * 2 ^ 10 + 6 * 2 ^ 13 + 7 * 2 ^ 19) = some (.pcmp 1 .lt 6 7) ∧
  decodeTableWord 32 (0x72 + 8 * 2 ^ 7 + 9 * 2 ^ 13 + 0x017 * 2 ^ 19) = some (.sysx 8 9 0x017)

/-- A step with nothing scheduled runs the instruction that the bytes at the pc of the core's next thread decode to; a word that
does not decode is illegal instruction, a fetch that faults takes its fault; a scheduled event of the device happens alone, and
without power nothing runs (R39, R229, R259, R277). What would change a byte of a pinned line waits (R122). The model's choices are the
agenda and its order (log 96), the fault without power (log 98), the passing of time (log 8) and the whole line that a pin guards (log
137). -/
def Obligations.StepRunsDecoded : Prop :=
  ∀ (s : State),
    (∀ n, Turn s n →
      let s₀ : State := { s with cur := n }
      (∀ i s₁, s₀.fetchInstr = (.instr i, s₁) → step s = after s.myCore n (issued s₀ n (exec i s₁))) ∧
      (∀ s₁, s₀.fetchInstr = (.illegal, s₁) → step s = after s.myCore n (issued s₀ n (exec .illegalInstruction s₁))) ∧
      (∀ c a s₁, s₀.fetchInstr = (.fault c a, s₁) →
        step s = after s.myCore n (issued s₀ n (exec .instructionFetchFault s₁)))) ∧
    (∀ ws s₁, FetchesWords s s.th.pc ws s₁ →
      (∀ i rest, decode (wordsBytes ws) = .ok (i, rest) → s.fetchInstr = (.instr i, s₁)) ∧
      (∀ e, decode (wordsBytes ws) = .error e → s.fetchInstr = (.illegal, s₁))) ∧
    (∀ i rest, s.agenda = .event i :: rest → s.dev.power = true → Instr.scheduled i = true →
      step s = tickOut (happened { s with agenda := rest } (exec i { s with agenda := rest }))) ∧
    (s.agenda = [] → s.dev.power = false → step s = .fault .noPower)

/-- The machine right after reset: every thread free in user mode and its registers at their reset values (R6, R51, R66), among them
the general, vector and predicate registers, the pc and the trap registers, zero by the model's choice (log 4); MXRAMP's rates at 800
with no slot counted, and its floors 800 (R48, R49), bank 0 of every core cache and banks 1 and 2 scratchpad (R53), every launch queue
disabled and empty (R33), no context live, no gang, no record open, no translation cached, and memory in its canonical form with
nothing listed, reading zero by the model's choice (log 5). -/
def Obligations.ResetState : Prop :=
  let s := State.reset
  (∀ n, (s.thr n).work = .free ∧ (s.thr n).mode = .user ∧ (s.thr n).wait = .none ∧ (s.thr n).stepctl = 0 ∧ (s.thr n).fctl = 0) ∧
    (∀ n, (∀ r, (s.thr n).rs r = 0) ∧ (∀ r, (s.thr n).rv r = 0) ∧ (∀ r, (s.thr n).rp r = if r = 0 then BitVec.allOnes 64 else 0) ∧
      (s.thr n).pc = 0 ∧ (s.thr n).waitLimit = 0 ∧ (s.thr n).wid = 0 ∧ (s.thr n).widShape = 0 ∧ (s.thr n).heapId = 0 ∧
      (∀ k, k < 4 → (s.thr n).brk[k]? = some 0)) ∧
    (∀ n, (s.thr n).trapCause = 0 ∧ (s.thr n).trapPc = 0 ∧ (s.thr n).trapVal = 0 ∧ (s.thr n).trapFrame = 0 ∧
      (s.thr n).trapIter = 0 ∧ (s.thr n).trapScratch = 0 ∧ (s.thr n).dcause = 0 ∧ (s.thr n).trapSub = 0 ∧
      (s.thr n).trapFrec = false ∧ (s.thr n).trapKind = 0 ∧ (s.thr n).trapDbl = false ∧ (s.thr n).trapPost = false) ∧
    (∀ q, (s.quire q).mxramp = BitVec.ofNat 64 (800 * 2 ^ 12 + 800) ∧ (s.quire q).qflags = []) ∧
    s.dev.rampFloorUp = 800 ∧ s.dev.rampFloorDown = 800 ∧
    (∀ k, (s.core k).role0 = 0 ∧ (s.core k).role1 = 1 ∧ (s.core k).role2 = 1 ∧ (s.core k).busy = 0) ∧
    (∀ c q, (s.ctx c).live = false ∧ (s.lq c q).enable = false ∧ (s.lq c q).depth = 0 ∧ (s.lq c q).isHalted = false) ∧
    (∀ q j, (s.array q j).gang = 0) ∧ (∀ f r, (s.seqRec f r).isOpen = false) ∧ s.tlbs = [] ∧ s.agenda = [] ∧
    MemCanonical s ∧ ∀ k, byteAt s.mem k = 0

/-- Every step keeps memory in its canonical form: addresses strictly rise and no entry equals what an unlisted address reads
as. -/
def Obligations.MemoryStaysCanonical : Prop :=
  ∀ (s t : State), MemCanonical s → step s = .next t → MemCanonical t

/-- Registers (R50): a write of a scalar, vector or predicate register is what the next read of it gives and changes no other; a
write of s0 or p0 is discarded, s0 reads 0 and p0 all ones. -/
def Obligations.RegisterWrites : Prop :=
  ∀ (x : Thread) (st : Nat),
    x.rs 0 = 0 ∧ x.rp 0 = BitVec.allOnes 64 ∧
    (∀ (r : SReg) (v : Word), (r = 0 → x.ws r v st = x) ∧ (r ≠ 0 → (x.ws r v st).rs r = v) ∧
      ∀ k, k ≠ r → (x.ws r v st).rs k = x.rs k) ∧
    (∀ (r : VReg) (v : Vec), (x.wv r v st).rv r = v ∧ ∀ k, k ≠ r → (x.wv r v st).rv k = x.rv k) ∧
    (∀ (r : PReg) (v : Word), (r = 0 → x.wp r v st = x) ∧ (r ≠ 0 → (x.wp r v st).rp r = v) ∧
      ∀ k, k ≠ r → (x.wp r v st).rp k = x.rp k)
end

