-- ==== Sys2Proof/Laws/State.lean ====
section
/-! SUPPORT. The fields of the state that each update of one part leaves as they are, and what is read back after it. -/

namespace Sys2Proof.Machine

@[simp] theorem State.setThr_mem (s : State) (n : Nat) (t : Thread) : (s.setThr n t).mem = s.mem := rfl
@[simp] theorem State.setThr_poison (s : State) (n : Nat) (t : Thread) : (s.setThr n t).poison = s.poison := rfl
@[simp] theorem State.setThr_cores (s : State) (n : Nat) (t : Thread) : (s.setThr n t).cores = s.cores := rfl
@[simp] theorem State.setThr_quires (s : State) (n : Nat) (t : Thread) : (s.setThr n t).quires = s.quires := rfl
@[simp] theorem State.setThr_ctxs (s : State) (n : Nat) (t : Thread) : (s.setThr n t).ctxs = s.ctxs := rfl
@[simp] theorem State.setThr_launches (s : State) (n : Nat) (t : Thread) : (s.setThr n t).launches = s.launches := rfl
@[simp] theorem State.setThr_nextLaunch (s : State) (n : Nat) (t : Thread) : (s.setThr n t).nextLaunch = s.nextLaunch := rfl
@[simp] theorem State.setThr_lastServed (s : State) (n : Nat) (t : Thread) : (s.setThr n t).lastServed = s.lastServed := rfl
@[simp] theorem State.setThr_mails (s : State) (n : Nat) (t : Thread) : (s.setThr n t).mails = s.mails := rfl
@[simp] theorem State.setThr_net (s : State) (n : Nat) (t : Thread) : (s.setThr n t).net = s.net := rfl
@[simp] theorem State.setThr_tlbs (s : State) (n : Nat) (t : Thread) : (s.setThr n t).tlbs = s.tlbs := rfl
@[simp] theorem State.setThr_collations (s : State) (n : Nat) (t : Thread) : (s.setThr n t).collations = s.collations := rfl
@[simp] theorem State.setThr_regions (s : State) (n : Nat) (t : Thread) : (s.setThr n t).regions = s.regions := rfl
@[simp] theorem State.setThr_ftiles (s : State) (n : Nat) (t : Thread) : (s.setThr n t).ftiles = s.ftiles := rfl
@[simp] theorem State.setThr_arrays (s : State) (n : Nat) (t : Thread) : (s.setThr n t).arrays = s.arrays := rfl
@[simp] theorem State.setThr_seqs (s : State) (n : Nat) (t : Thread) : (s.setThr n t).seqs = s.seqs := rfl
@[simp] theorem State.setThr_units (s : State) (n : Nat) (t : Thread) : (s.setThr n t).units = s.units := rfl
@[simp] theorem State.setThr_grains (s : State) (n : Nat) (t : Thread) : (s.setThr n t).grains = s.grains := rfl
@[simp] theorem State.setThr_enqueues (s : State) (n : Nat) (t : Thread) : (s.setThr n t).enqueues = s.enqueues := rfl
@[simp] theorem State.setThr_callbacks (s : State) (n : Nat) (t : Thread) : (s.setThr n t).callbacks = s.callbacks := rfl
@[simp] theorem State.setThr_returns (s : State) (n : Nat) (t : Thread) : (s.setThr n t).returns = s.returns := rfl
@[simp] theorem State.setThr_freeAtStart (s : State) (n : Nat) (t : Thread) : (s.setThr n t).freeAtStart = s.freeAtStart := rfl
@[simp] theorem State.setThr_arrivals (s : State) (n : Nat) (t : Thread) : (s.setThr n t).arrivals = s.arrivals := rfl
@[simp] theorem State.setThr_saved (s : State) (n : Nat) (t : Thread) : (s.setThr n t).saved = s.saved := rfl
@[simp] theorem State.setThr_mailbox (s : State) (n : Nat) (t : Thread) : (s.setThr n t).mailbox = s.mailbox := rfl
@[simp] theorem State.setThr_dev (s : State) (n : Nat) (t : Thread) : (s.setThr n t).dev = s.dev := rfl
@[simp] theorem State.setThr_cycle (s : State) (n : Nat) (t : Thread) : (s.setThr n t).cycle = s.cycle := rfl
@[simp] theorem State.setThr_time (s : State) (n : Nat) (t : Thread) : (s.setThr n t).time = s.time := rfl
@[simp] theorem State.setThr_cur (s : State) (n : Nat) (t : Thread) : (s.setThr n t).cur = s.cur := rfl
@[simp] theorem State.setThr_agenda (s : State) (n : Nat) (t : Thread) : (s.setThr n t).agenda = s.agenda := rfl
@[simp] theorem State.setThr_free (s : State) (n : Nat) (t : Thread) : (s.setThr n t).free = s.free := rfl
@[simp] theorem State.setThr_monitors (s : State) (n : Nat) (t : Thread) : (s.setThr n t).monitors = s.monitors := rfl
@[simp] theorem State.setThr_watches (s : State) (n : Nat) (t : Thread) : (s.setThr n t).watches = s.watches := rfl
@[simp] theorem State.setThr_turned (s : State) (n : Nat) (t : Thread) : (s.setThr n t).turned = s.turned := rfl
@[simp] theorem State.setThr_hostData (s : State) (n : Nat) (t : Thread) : (s.setThr n t).hostData = s.hostData := rfl

@[simp] theorem State.setCore_mem (s : State) (c : Nat) (x : Core) : (s.setCore c x).mem = s.mem := rfl
@[simp] theorem State.setCore_poison (s : State) (c : Nat) (x : Core) : (s.setCore c x).poison = s.poison := rfl
@[simp] theorem State.setCore_threads (s : State) (c : Nat) (x : Core) : (s.setCore c x).threads = s.threads := rfl
@[simp] theorem State.setCore_quires (s : State) (c : Nat) (x : Core) : (s.setCore c x).quires = s.quires := rfl
@[simp] theorem State.setCore_ctxs (s : State) (c : Nat) (x : Core) : (s.setCore c x).ctxs = s.ctxs := rfl
@[simp] theorem State.setCore_launches (s : State) (c : Nat) (x : Core) : (s.setCore c x).launches = s.launches := rfl
@[simp] theorem State.setCore_nextLaunch (s : State) (c : Nat) (x : Core) : (s.setCore c x).nextLaunch = s.nextLaunch := rfl
@[simp] theorem State.setCore_lastServed (s : State) (c : Nat) (x : Core) : (s.setCore c x).lastServed = s.lastServed := rfl
@[simp] theorem State.setCore_mails (s : State) (c : Nat) (x : Core) : (s.setCore c x).mails = s.mails := rfl
@[simp] theorem State.setCore_net (s : State) (c : Nat) (x : Core) : (s.setCore c x).net = s.net := rfl
@[simp] theorem State.setCore_tlbs (s : State) (c : Nat) (x : Core) : (s.setCore c x).tlbs = s.tlbs := rfl
@[simp] theorem State.setCore_collations (s : State) (c : Nat) (x : Core) : (s.setCore c x).collations = s.collations := rfl
@[simp] theorem State.setCore_regions (s : State) (c : Nat) (x : Core) : (s.setCore c x).regions = s.regions := rfl
@[simp] theorem State.setCore_ftiles (s : State) (c : Nat) (x : Core) : (s.setCore c x).ftiles = s.ftiles := rfl
@[simp] theorem State.setCore_arrays (s : State) (c : Nat) (x : Core) : (s.setCore c x).arrays = s.arrays := rfl
@[simp] theorem State.setCore_seqs (s : State) (c : Nat) (x : Core) : (s.setCore c x).seqs = s.seqs := rfl
@[simp] theorem State.setCore_units (s : State) (c : Nat) (x : Core) : (s.setCore c x).units = s.units := rfl
@[simp] theorem State.setCore_grains (s : State) (c : Nat) (x : Core) : (s.setCore c x).grains = s.grains := rfl
@[simp] theorem State.setCore_enqueues (s : State) (c : Nat) (x : Core) : (s.setCore c x).enqueues = s.enqueues := rfl
@[simp] theorem State.setCore_callbacks (s : State) (c : Nat) (x : Core) : (s.setCore c x).callbacks = s.callbacks := rfl
@[simp] theorem State.setCore_returns (s : State) (c : Nat) (x : Core) : (s.setCore c x).returns = s.returns := rfl
@[simp] theorem State.setCore_freeAtStart (s : State) (c : Nat) (x : Core) : (s.setCore c x).freeAtStart = s.freeAtStart := rfl
@[simp] theorem State.setCore_arrivals (s : State) (c : Nat) (x : Core) : (s.setCore c x).arrivals = s.arrivals := rfl
@[simp] theorem State.setCore_saved (s : State) (c : Nat) (x : Core) : (s.setCore c x).saved = s.saved := rfl
@[simp] theorem State.setCore_mailbox (s : State) (c : Nat) (x : Core) : (s.setCore c x).mailbox = s.mailbox := rfl
@[simp] theorem State.setCore_dev (s : State) (c : Nat) (x : Core) : (s.setCore c x).dev = s.dev := rfl
@[simp] theorem State.setCore_cycle (s : State) (c : Nat) (x : Core) : (s.setCore c x).cycle = s.cycle := rfl
@[simp] theorem State.setCore_time (s : State) (c : Nat) (x : Core) : (s.setCore c x).time = s.time := rfl
@[simp] theorem State.setCore_cur (s : State) (c : Nat) (x : Core) : (s.setCore c x).cur = s.cur := rfl
@[simp] theorem State.setCore_agenda (s : State) (c : Nat) (x : Core) : (s.setCore c x).agenda = s.agenda := rfl
@[simp] theorem State.setCore_free (s : State) (c : Nat) (x : Core) : (s.setCore c x).free = s.free := rfl
@[simp] theorem State.setCore_monitors (s : State) (c : Nat) (x : Core) : (s.setCore c x).monitors = s.monitors := rfl
@[simp] theorem State.setCore_watches (s : State) (c : Nat) (x : Core) : (s.setCore c x).watches = s.watches := rfl
@[simp] theorem State.setCore_turned (s : State) (c : Nat) (x : Core) : (s.setCore c x).turned = s.turned := rfl
@[simp] theorem State.setCore_hostData (s : State) (c : Nat) (x : Core) : (s.setCore c x).hostData = s.hostData := rfl

@[simp] theorem State.setQuire_mem (s : State) (q : Nat) (x : Quire) : (s.setQuire q x).mem = s.mem := rfl
@[simp] theorem State.setQuire_poison (s : State) (q : Nat) (x : Quire) : (s.setQuire q x).poison = s.poison := rfl
@[simp] theorem State.setQuire_threads (s : State) (q : Nat) (x : Quire) : (s.setQuire q x).threads = s.threads := rfl
@[simp] theorem State.setQuire_cores (s : State) (q : Nat) (x : Quire) : (s.setQuire q x).cores = s.cores := rfl
@[simp] theorem State.setQuire_ctxs (s : State) (q : Nat) (x : Quire) : (s.setQuire q x).ctxs = s.ctxs := rfl
@[simp] theorem State.setQuire_launches (s : State) (q : Nat) (x : Quire) : (s.setQuire q x).launches = s.launches := rfl
@[simp] theorem State.setQuire_nextLaunch (s : State) (q : Nat) (x : Quire) : (s.setQuire q x).nextLaunch = s.nextLaunch := rfl
@[simp] theorem State.setQuire_lastServed (s : State) (q : Nat) (x : Quire) : (s.setQuire q x).lastServed = s.lastServed := rfl
@[simp] theorem State.setQuire_mails (s : State) (q : Nat) (x : Quire) : (s.setQuire q x).mails = s.mails := rfl
@[simp] theorem State.setQuire_net (s : State) (q : Nat) (x : Quire) : (s.setQuire q x).net = s.net := rfl
@[simp] theorem State.setQuire_tlbs (s : State) (q : Nat) (x : Quire) : (s.setQuire q x).tlbs = s.tlbs := rfl
@[simp] theorem State.setQuire_collations (s : State) (q : Nat) (x : Quire) : (s.setQuire q x).collations = s.collations := rfl
@[simp] theorem State.setQuire_regions (s : State) (q : Nat) (x : Quire) : (s.setQuire q x).regions = s.regions := rfl
@[simp] theorem State.setQuire_ftiles (s : State) (q : Nat) (x : Quire) : (s.setQuire q x).ftiles = s.ftiles := rfl
@[simp] theorem State.setQuire_arrays (s : State) (q : Nat) (x : Quire) : (s.setQuire q x).arrays = s.arrays := rfl
@[simp] theorem State.setQuire_seqs (s : State) (q : Nat) (x : Quire) : (s.setQuire q x).seqs = s.seqs := rfl
@[simp] theorem State.setQuire_units (s : State) (q : Nat) (x : Quire) : (s.setQuire q x).units = s.units := rfl
@[simp] theorem State.setQuire_grains (s : State) (q : Nat) (x : Quire) : (s.setQuire q x).grains = s.grains := rfl
@[simp] theorem State.setQuire_enqueues (s : State) (q : Nat) (x : Quire) : (s.setQuire q x).enqueues = s.enqueues := rfl
@[simp] theorem State.setQuire_callbacks (s : State) (q : Nat) (x : Quire) : (s.setQuire q x).callbacks = s.callbacks := rfl
@[simp] theorem State.setQuire_returns (s : State) (q : Nat) (x : Quire) : (s.setQuire q x).returns = s.returns := rfl
@[simp] theorem State.setQuire_freeAtStart (s : State) (q : Nat) (x : Quire) : (s.setQuire q x).freeAtStart = s.freeAtStart := rfl
@[simp] theorem State.setQuire_arrivals (s : State) (q : Nat) (x : Quire) : (s.setQuire q x).arrivals = s.arrivals := rfl
@[simp] theorem State.setQuire_saved (s : State) (q : Nat) (x : Quire) : (s.setQuire q x).saved = s.saved := rfl
@[simp] theorem State.setQuire_mailbox (s : State) (q : Nat) (x : Quire) : (s.setQuire q x).mailbox = s.mailbox := rfl
@[simp] theorem State.setQuire_dev (s : State) (q : Nat) (x : Quire) : (s.setQuire q x).dev = s.dev := rfl
@[simp] theorem State.setQuire_cycle (s : State) (q : Nat) (x : Quire) : (s.setQuire q x).cycle = s.cycle := rfl
@[simp] theorem State.setQuire_time (s : State) (q : Nat) (x : Quire) : (s.setQuire q x).time = s.time := rfl
@[simp] theorem State.setQuire_cur (s : State) (q : Nat) (x : Quire) : (s.setQuire q x).cur = s.cur := rfl
@[simp] theorem State.setQuire_agenda (s : State) (q : Nat) (x : Quire) : (s.setQuire q x).agenda = s.agenda := rfl
@[simp] theorem State.setQuire_free (s : State) (q : Nat) (x : Quire) : (s.setQuire q x).free = s.free := rfl
@[simp] theorem State.setQuire_monitors (s : State) (q : Nat) (x : Quire) : (s.setQuire q x).monitors = s.monitors := rfl
@[simp] theorem State.setQuire_watches (s : State) (q : Nat) (x : Quire) : (s.setQuire q x).watches = s.watches := rfl
@[simp] theorem State.setQuire_turned (s : State) (q : Nat) (x : Quire) : (s.setQuire q x).turned = s.turned := rfl
@[simp] theorem State.setQuire_hostData (s : State) (q : Nat) (x : Quire) : (s.setQuire q x).hostData = s.hostData := rfl

@[simp] theorem State.setCtx_mem (s : State) (c : Nat) (x : Ctx) : (s.setCtx c x).mem = s.mem := rfl
@[simp] theorem State.setCtx_poison (s : State) (c : Nat) (x : Ctx) : (s.setCtx c x).poison = s.poison := rfl
@[simp] theorem State.setCtx_threads (s : State) (c : Nat) (x : Ctx) : (s.setCtx c x).threads = s.threads := rfl
@[simp] theorem State.setCtx_cores (s : State) (c : Nat) (x : Ctx) : (s.setCtx c x).cores = s.cores := rfl
@[simp] theorem State.setCtx_quires (s : State) (c : Nat) (x : Ctx) : (s.setCtx c x).quires = s.quires := rfl
@[simp] theorem State.setCtx_launches (s : State) (c : Nat) (x : Ctx) : (s.setCtx c x).launches = s.launches := rfl
@[simp] theorem State.setCtx_nextLaunch (s : State) (c : Nat) (x : Ctx) : (s.setCtx c x).nextLaunch = s.nextLaunch := rfl
@[simp] theorem State.setCtx_lastServed (s : State) (c : Nat) (x : Ctx) : (s.setCtx c x).lastServed = s.lastServed := rfl
@[simp] theorem State.setCtx_mails (s : State) (c : Nat) (x : Ctx) : (s.setCtx c x).mails = s.mails := rfl
@[simp] theorem State.setCtx_net (s : State) (c : Nat) (x : Ctx) : (s.setCtx c x).net = s.net := rfl
@[simp] theorem State.setCtx_tlbs (s : State) (c : Nat) (x : Ctx) : (s.setCtx c x).tlbs = s.tlbs := rfl
@[simp] theorem State.setCtx_collations (s : State) (c : Nat) (x : Ctx) : (s.setCtx c x).collations = s.collations := rfl
@[simp] theorem State.setCtx_regions (s : State) (c : Nat) (x : Ctx) : (s.setCtx c x).regions = s.regions := rfl
@[simp] theorem State.setCtx_ftiles (s : State) (c : Nat) (x : Ctx) : (s.setCtx c x).ftiles = s.ftiles := rfl
@[simp] theorem State.setCtx_arrays (s : State) (c : Nat) (x : Ctx) : (s.setCtx c x).arrays = s.arrays := rfl
@[simp] theorem State.setCtx_seqs (s : State) (c : Nat) (x : Ctx) : (s.setCtx c x).seqs = s.seqs := rfl
@[simp] theorem State.setCtx_units (s : State) (c : Nat) (x : Ctx) : (s.setCtx c x).units = s.units := rfl
@[simp] theorem State.setCtx_grains (s : State) (c : Nat) (x : Ctx) : (s.setCtx c x).grains = s.grains := rfl
@[simp] theorem State.setCtx_enqueues (s : State) (c : Nat) (x : Ctx) : (s.setCtx c x).enqueues = s.enqueues := rfl
@[simp] theorem State.setCtx_callbacks (s : State) (c : Nat) (x : Ctx) : (s.setCtx c x).callbacks = s.callbacks := rfl
@[simp] theorem State.setCtx_returns (s : State) (c : Nat) (x : Ctx) : (s.setCtx c x).returns = s.returns := rfl
@[simp] theorem State.setCtx_freeAtStart (s : State) (c : Nat) (x : Ctx) : (s.setCtx c x).freeAtStart = s.freeAtStart := rfl
@[simp] theorem State.setCtx_arrivals (s : State) (c : Nat) (x : Ctx) : (s.setCtx c x).arrivals = s.arrivals := rfl
@[simp] theorem State.setCtx_saved (s : State) (c : Nat) (x : Ctx) : (s.setCtx c x).saved = s.saved := rfl
@[simp] theorem State.setCtx_mailbox (s : State) (c : Nat) (x : Ctx) : (s.setCtx c x).mailbox = s.mailbox := rfl
@[simp] theorem State.setCtx_dev (s : State) (c : Nat) (x : Ctx) : (s.setCtx c x).dev = s.dev := rfl
@[simp] theorem State.setCtx_cycle (s : State) (c : Nat) (x : Ctx) : (s.setCtx c x).cycle = s.cycle := rfl
@[simp] theorem State.setCtx_time (s : State) (c : Nat) (x : Ctx) : (s.setCtx c x).time = s.time := rfl
@[simp] theorem State.setCtx_cur (s : State) (c : Nat) (x : Ctx) : (s.setCtx c x).cur = s.cur := rfl
@[simp] theorem State.setCtx_agenda (s : State) (c : Nat) (x : Ctx) : (s.setCtx c x).agenda = s.agenda := rfl
@[simp] theorem State.setCtx_free (s : State) (c : Nat) (x : Ctx) : (s.setCtx c x).free = s.free := rfl
@[simp] theorem State.setCtx_monitors (s : State) (c : Nat) (x : Ctx) : (s.setCtx c x).monitors = s.monitors := rfl
@[simp] theorem State.setCtx_watches (s : State) (c : Nat) (x : Ctx) : (s.setCtx c x).watches = s.watches := rfl
@[simp] theorem State.setCtx_turned (s : State) (c : Nat) (x : Ctx) : (s.setCtx c x).turned = s.turned := rfl
@[simp] theorem State.setCtx_hostData (s : State) (c : Nat) (x : Ctx) : (s.setCtx c x).hostData = s.hostData := rfl

@[simp] theorem State.setMail_mem (s : State) (c k : Nat) (x : Mail) : (s.setMail c k x).mem = s.mem := rfl
@[simp] theorem State.setMail_poison (s : State) (c k : Nat) (x : Mail) : (s.setMail c k x).poison = s.poison := rfl
@[simp] theorem State.setMail_threads (s : State) (c k : Nat) (x : Mail) : (s.setMail c k x).threads = s.threads := rfl
@[simp] theorem State.setMail_cores (s : State) (c k : Nat) (x : Mail) : (s.setMail c k x).cores = s.cores := rfl
@[simp] theorem State.setMail_quires (s : State) (c k : Nat) (x : Mail) : (s.setMail c k x).quires = s.quires := rfl
@[simp] theorem State.setMail_ctxs (s : State) (c k : Nat) (x : Mail) : (s.setMail c k x).ctxs = s.ctxs := rfl
@[simp] theorem State.setMail_launches (s : State) (c k : Nat) (x : Mail) : (s.setMail c k x).launches = s.launches := rfl
@[simp] theorem State.setMail_nextLaunch (s : State) (c k : Nat) (x : Mail) : (s.setMail c k x).nextLaunch = s.nextLaunch := rfl
@[simp] theorem State.setMail_lastServed (s : State) (c k : Nat) (x : Mail) : (s.setMail c k x).lastServed = s.lastServed := rfl
@[simp] theorem State.setMail_net (s : State) (c k : Nat) (x : Mail) : (s.setMail c k x).net = s.net := rfl
@[simp] theorem State.setMail_tlbs (s : State) (c k : Nat) (x : Mail) : (s.setMail c k x).tlbs = s.tlbs := rfl
@[simp] theorem State.setMail_collations (s : State) (c k : Nat) (x : Mail) : (s.setMail c k x).collations = s.collations := rfl
@[simp] theorem State.setMail_regions (s : State) (c k : Nat) (x : Mail) : (s.setMail c k x).regions = s.regions := rfl
@[simp] theorem State.setMail_ftiles (s : State) (c k : Nat) (x : Mail) : (s.setMail c k x).ftiles = s.ftiles := rfl
@[simp] theorem State.setMail_arrays (s : State) (c k : Nat) (x : Mail) : (s.setMail c k x).arrays = s.arrays := rfl
@[simp] theorem State.setMail_seqs (s : State) (c k : Nat) (x : Mail) : (s.setMail c k x).seqs = s.seqs := rfl
@[simp] theorem State.setMail_units (s : State) (c k : Nat) (x : Mail) : (s.setMail c k x).units = s.units := rfl
@[simp] theorem State.setMail_grains (s : State) (c k : Nat) (x : Mail) : (s.setMail c k x).grains = s.grains := rfl
@[simp] theorem State.setMail_enqueues (s : State) (c k : Nat) (x : Mail) : (s.setMail c k x).enqueues = s.enqueues := rfl
@[simp] theorem State.setMail_callbacks (s : State) (c k : Nat) (x : Mail) : (s.setMail c k x).callbacks = s.callbacks := rfl
@[simp] theorem State.setMail_returns (s : State) (c k : Nat) (x : Mail) : (s.setMail c k x).returns = s.returns := rfl
@[simp] theorem State.setMail_freeAtStart (s : State) (c k : Nat) (x : Mail) : (s.setMail c k x).freeAtStart = s.freeAtStart := rfl
@[simp] theorem State.setMail_arrivals (s : State) (c k : Nat) (x : Mail) : (s.setMail c k x).arrivals = s.arrivals := rfl
@[simp] theorem State.setMail_saved (s : State) (c k : Nat) (x : Mail) : (s.setMail c k x).saved = s.saved := rfl
@[simp] theorem State.setMail_mailbox (s : State) (c k : Nat) (x : Mail) : (s.setMail c k x).mailbox = s.mailbox := rfl
@[simp] theorem State.setMail_dev (s : State) (c k : Nat) (x : Mail) : (s.setMail c k x).dev = s.dev := rfl
@[simp] theorem State.setMail_cycle (s : State) (c k : Nat) (x : Mail) : (s.setMail c k x).cycle = s.cycle := rfl
@[simp] theorem State.setMail_time (s : State) (c k : Nat) (x : Mail) : (s.setMail c k x).time = s.time := rfl
@[simp] theorem State.setMail_cur (s : State) (c k : Nat) (x : Mail) : (s.setMail c k x).cur = s.cur := rfl
@[simp] theorem State.setMail_agenda (s : State) (c k : Nat) (x : Mail) : (s.setMail c k x).agenda = s.agenda := rfl
@[simp] theorem State.setMail_free (s : State) (c k : Nat) (x : Mail) : (s.setMail c k x).free = s.free := rfl
@[simp] theorem State.setMail_monitors (s : State) (c k : Nat) (x : Mail) : (s.setMail c k x).monitors = s.monitors := rfl
@[simp] theorem State.setMail_watches (s : State) (c k : Nat) (x : Mail) : (s.setMail c k x).watches = s.watches := rfl
@[simp] theorem State.setMail_turned (s : State) (c k : Nat) (x : Mail) : (s.setMail c k x).turned = s.turned := rfl
@[simp] theorem State.setMail_hostData (s : State) (c k : Nat) (x : Mail) : (s.setMail c k x).hostData = s.hostData := rfl

@[simp] theorem State.setLaunch_mem (s : State) (l : Nat) (x : Launch) : (s.setLaunch l x).mem = s.mem := rfl
@[simp] theorem State.setLaunch_poison (s : State) (l : Nat) (x : Launch) : (s.setLaunch l x).poison = s.poison := rfl
@[simp] theorem State.setLaunch_threads (s : State) (l : Nat) (x : Launch) : (s.setLaunch l x).threads = s.threads := rfl
@[simp] theorem State.setLaunch_cores (s : State) (l : Nat) (x : Launch) : (s.setLaunch l x).cores = s.cores := rfl
@[simp] theorem State.setLaunch_quires (s : State) (l : Nat) (x : Launch) : (s.setLaunch l x).quires = s.quires := rfl
@[simp] theorem State.setLaunch_ctxs (s : State) (l : Nat) (x : Launch) : (s.setLaunch l x).ctxs = s.ctxs := rfl
@[simp] theorem State.setLaunch_nextLaunch (s : State) (l : Nat) (x : Launch) : (s.setLaunch l x).nextLaunch = s.nextLaunch := rfl
@[simp] theorem State.setLaunch_lastServed (s : State) (l : Nat) (x : Launch) : (s.setLaunch l x).lastServed = s.lastServed := rfl
@[simp] theorem State.setLaunch_mails (s : State) (l : Nat) (x : Launch) : (s.setLaunch l x).mails = s.mails := rfl
@[simp] theorem State.setLaunch_net (s : State) (l : Nat) (x : Launch) : (s.setLaunch l x).net = s.net := rfl
@[simp] theorem State.setLaunch_tlbs (s : State) (l : Nat) (x : Launch) : (s.setLaunch l x).tlbs = s.tlbs := rfl
@[simp] theorem State.setLaunch_collations (s : State) (l : Nat) (x : Launch) : (s.setLaunch l x).collations = s.collations := rfl
@[simp] theorem State.setLaunch_regions (s : State) (l : Nat) (x : Launch) : (s.setLaunch l x).regions = s.regions := rfl
@[simp] theorem State.setLaunch_ftiles (s : State) (l : Nat) (x : Launch) : (s.setLaunch l x).ftiles = s.ftiles := rfl
@[simp] theorem State.setLaunch_arrays (s : State) (l : Nat) (x : Launch) : (s.setLaunch l x).arrays = s.arrays := rfl
@[simp] theorem State.setLaunch_seqs (s : State) (l : Nat) (x : Launch) : (s.setLaunch l x).seqs = s.seqs := rfl
@[simp] theorem State.setLaunch_units (s : State) (l : Nat) (x : Launch) : (s.setLaunch l x).units = s.units := rfl
@[simp] theorem State.setLaunch_grains (s : State) (l : Nat) (x : Launch) : (s.setLaunch l x).grains = s.grains := rfl
@[simp] theorem State.setLaunch_enqueues (s : State) (l : Nat) (x : Launch) : (s.setLaunch l x).enqueues = s.enqueues := rfl
@[simp] theorem State.setLaunch_callbacks (s : State) (l : Nat) (x : Launch) : (s.setLaunch l x).callbacks = s.callbacks := rfl
@[simp] theorem State.setLaunch_returns (s : State) (l : Nat) (x : Launch) : (s.setLaunch l x).returns = s.returns := rfl
@[simp] theorem State.setLaunch_freeAtStart (s : State) (l : Nat) (x : Launch) : (s.setLaunch l x).freeAtStart = s.freeAtStart := rfl
@[simp] theorem State.setLaunch_arrivals (s : State) (l : Nat) (x : Launch) : (s.setLaunch l x).arrivals = s.arrivals := rfl
@[simp] theorem State.setLaunch_saved (s : State) (l : Nat) (x : Launch) : (s.setLaunch l x).saved = s.saved := rfl
@[simp] theorem State.setLaunch_mailbox (s : State) (l : Nat) (x : Launch) : (s.setLaunch l x).mailbox = s.mailbox := rfl
@[simp] theorem State.setLaunch_dev (s : State) (l : Nat) (x : Launch) : (s.setLaunch l x).dev = s.dev := rfl
@[simp] theorem State.setLaunch_cycle (s : State) (l : Nat) (x : Launch) : (s.setLaunch l x).cycle = s.cycle := rfl
@[simp] theorem State.setLaunch_time (s : State) (l : Nat) (x : Launch) : (s.setLaunch l x).time = s.time := rfl
@[simp] theorem State.setLaunch_cur (s : State) (l : Nat) (x : Launch) : (s.setLaunch l x).cur = s.cur := rfl
@[simp] theorem State.setLaunch_agenda (s : State) (l : Nat) (x : Launch) : (s.setLaunch l x).agenda = s.agenda := rfl
@[simp] theorem State.setLaunch_free (s : State) (l : Nat) (x : Launch) : (s.setLaunch l x).free = s.free := rfl
@[simp] theorem State.setLaunch_monitors (s : State) (l : Nat) (x : Launch) : (s.setLaunch l x).monitors = s.monitors := rfl
@[simp] theorem State.setLaunch_watches (s : State) (l : Nat) (x : Launch) : (s.setLaunch l x).watches = s.watches := rfl
@[simp] theorem State.setLaunch_turned (s : State) (l : Nat) (x : Launch) : (s.setLaunch l x).turned = s.turned := rfl
@[simp] theorem State.setLaunch_hostData (s : State) (l : Nat) (x : Launch) : (s.setLaunch l x).hostData = s.hostData := rfl

@[simp] theorem State.dropLaunch_mem (s : State) (l : Nat) : (s.dropLaunch l).mem = s.mem := rfl
@[simp] theorem State.dropLaunch_poison (s : State) (l : Nat) : (s.dropLaunch l).poison = s.poison := rfl
@[simp] theorem State.dropLaunch_threads (s : State) (l : Nat) : (s.dropLaunch l).threads = s.threads := rfl
@[simp] theorem State.dropLaunch_cores (s : State) (l : Nat) : (s.dropLaunch l).cores = s.cores := rfl
@[simp] theorem State.dropLaunch_quires (s : State) (l : Nat) : (s.dropLaunch l).quires = s.quires := rfl
@[simp] theorem State.dropLaunch_ctxs (s : State) (l : Nat) : (s.dropLaunch l).ctxs = s.ctxs := rfl
@[simp] theorem State.dropLaunch_nextLaunch (s : State) (l : Nat) : (s.dropLaunch l).nextLaunch = s.nextLaunch := rfl
@[simp] theorem State.dropLaunch_lastServed (s : State) (l : Nat) : (s.dropLaunch l).lastServed = s.lastServed := rfl
@[simp] theorem State.dropLaunch_mails (s : State) (l : Nat) : (s.dropLaunch l).mails = s.mails := rfl
@[simp] theorem State.dropLaunch_net (s : State) (l : Nat) : (s.dropLaunch l).net = s.net := rfl
@[simp] theorem State.dropLaunch_tlbs (s : State) (l : Nat) : (s.dropLaunch l).tlbs = s.tlbs := rfl
@[simp] theorem State.dropLaunch_collations (s : State) (l : Nat) : (s.dropLaunch l).collations = s.collations := rfl
@[simp] theorem State.dropLaunch_regions (s : State) (l : Nat) : (s.dropLaunch l).regions = s.regions := rfl
@[simp] theorem State.dropLaunch_ftiles (s : State) (l : Nat) : (s.dropLaunch l).ftiles = s.ftiles := rfl
@[simp] theorem State.dropLaunch_arrays (s : State) (l : Nat) : (s.dropLaunch l).arrays = s.arrays := rfl
@[simp] theorem State.dropLaunch_seqs (s : State) (l : Nat) : (s.dropLaunch l).seqs = s.seqs := rfl
@[simp] theorem State.dropLaunch_units (s : State) (l : Nat) : (s.dropLaunch l).units = s.units := rfl
@[simp] theorem State.dropLaunch_grains (s : State) (l : Nat) : (s.dropLaunch l).grains = s.grains := rfl
@[simp] theorem State.dropLaunch_enqueues (s : State) (l : Nat) : (s.dropLaunch l).enqueues = s.enqueues := rfl
@[simp] theorem State.dropLaunch_callbacks (s : State) (l : Nat) : (s.dropLaunch l).callbacks = s.callbacks := rfl
@[simp] theorem State.dropLaunch_returns (s : State) (l : Nat) : (s.dropLaunch l).returns = s.returns := rfl
@[simp] theorem State.dropLaunch_freeAtStart (s : State) (l : Nat) : (s.dropLaunch l).freeAtStart = s.freeAtStart := rfl
@[simp] theorem State.dropLaunch_arrivals (s : State) (l : Nat) : (s.dropLaunch l).arrivals = s.arrivals := rfl
@[simp] theorem State.dropLaunch_saved (s : State) (l : Nat) : (s.dropLaunch l).saved = s.saved := rfl
@[simp] theorem State.dropLaunch_mailbox (s : State) (l : Nat) : (s.dropLaunch l).mailbox = s.mailbox := rfl
@[simp] theorem State.dropLaunch_dev (s : State) (l : Nat) : (s.dropLaunch l).dev = s.dev := rfl
@[simp] theorem State.dropLaunch_cycle (s : State) (l : Nat) : (s.dropLaunch l).cycle = s.cycle := rfl
@[simp] theorem State.dropLaunch_time (s : State) (l : Nat) : (s.dropLaunch l).time = s.time := rfl
@[simp] theorem State.dropLaunch_cur (s : State) (l : Nat) : (s.dropLaunch l).cur = s.cur := rfl
@[simp] theorem State.dropLaunch_agenda (s : State) (l : Nat) : (s.dropLaunch l).agenda = s.agenda := rfl
@[simp] theorem State.dropLaunch_free (s : State) (l : Nat) : (s.dropLaunch l).free = s.free := rfl
@[simp] theorem State.dropLaunch_monitors (s : State) (l : Nat) : (s.dropLaunch l).monitors = s.monitors := rfl
@[simp] theorem State.dropLaunch_turned (s : State) (l : Nat) : (s.dropLaunch l).turned = s.turned := rfl
@[simp] theorem State.dropLaunch_hostData (s : State) (l : Nat) : (s.dropLaunch l).hostData = s.hostData := rfl

@[simp] theorem State.setRegion_mem (s : State) (f n : Nat) (x : Region) : (s.setRegion f n x).mem = s.mem := rfl
@[simp] theorem State.setRegion_poison (s : State) (f n : Nat) (x : Region) : (s.setRegion f n x).poison = s.poison := rfl
@[simp] theorem State.setRegion_threads (s : State) (f n : Nat) (x : Region) : (s.setRegion f n x).threads = s.threads := rfl
@[simp] theorem State.setRegion_cores (s : State) (f n : Nat) (x : Region) : (s.setRegion f n x).cores = s.cores := rfl
@[simp] theorem State.setRegion_quires (s : State) (f n : Nat) (x : Region) : (s.setRegion f n x).quires = s.quires := rfl
@[simp] theorem State.setRegion_ctxs (s : State) (f n : Nat) (x : Region) : (s.setRegion f n x).ctxs = s.ctxs := rfl
@[simp] theorem State.setRegion_launches (s : State) (f n : Nat) (x : Region) : (s.setRegion f n x).launches = s.launches := rfl
@[simp] theorem State.setRegion_nextLaunch (s : State) (f n : Nat) (x : Region) : (s.setRegion f n x).nextLaunch = s.nextLaunch := rfl
@[simp] theorem State.setRegion_lastServed (s : State) (f n : Nat) (x : Region) : (s.setRegion f n x).lastServed = s.lastServed := rfl
@[simp] theorem State.setRegion_mails (s : State) (f n : Nat) (x : Region) : (s.setRegion f n x).mails = s.mails := rfl
@[simp] theorem State.setRegion_net (s : State) (f n : Nat) (x : Region) : (s.setRegion f n x).net = s.net := rfl
@[simp] theorem State.setRegion_tlbs (s : State) (f n : Nat) (x : Region) : (s.setRegion f n x).tlbs = s.tlbs := rfl
@[simp] theorem State.setRegion_collations (s : State) (f n : Nat) (x : Region) : (s.setRegion f n x).collations = s.collations := rfl
@[simp] theorem State.setRegion_ftiles (s : State) (f n : Nat) (x : Region) : (s.setRegion f n x).ftiles = s.ftiles := rfl
@[simp] theorem State.setRegion_arrays (s : State) (f n : Nat) (x : Region) : (s.setRegion f n x).arrays = s.arrays := rfl
@[simp] theorem State.setRegion_seqs (s : State) (f n : Nat) (x : Region) : (s.setRegion f n x).seqs = s.seqs := rfl
@[simp] theorem State.setRegion_units (s : State) (f n : Nat) (x : Region) : (s.setRegion f n x).units = s.units := rfl
@[simp] theorem State.setRegion_grains (s : State) (f n : Nat) (x : Region) : (s.setRegion f n x).grains = s.grains := rfl
@[simp] theorem State.setRegion_enqueues (s : State) (f n : Nat) (x : Region) : (s.setRegion f n x).enqueues = s.enqueues := rfl
@[simp] theorem State.setRegion_callbacks (s : State) (f n : Nat) (x : Region) : (s.setRegion f n x).callbacks = s.callbacks := rfl
@[simp] theorem State.setRegion_returns (s : State) (f n : Nat) (x : Region) : (s.setRegion f n x).returns = s.returns := rfl
@[simp] theorem State.setRegion_freeAtStart (s : State) (f n : Nat) (x : Region) : (s.setRegion f n x).freeAtStart = s.freeAtStart := rfl
@[simp] theorem State.setRegion_arrivals (s : State) (f n : Nat) (x : Region) : (s.setRegion f n x).arrivals = s.arrivals := rfl
@[simp] theorem State.setRegion_saved (s : State) (f n : Nat) (x : Region) : (s.setRegion f n x).saved = s.saved := rfl
@[simp] theorem State.setRegion_mailbox (s : State) (f n : Nat) (x : Region) : (s.setRegion f n x).mailbox = s.mailbox := rfl
@[simp] theorem State.setRegion_dev (s : State) (f n : Nat) (x : Region) : (s.setRegion f n x).dev = s.dev := rfl
@[simp] theorem State.setRegion_cycle (s : State) (f n : Nat) (x : Region) : (s.setRegion f n x).cycle = s.cycle := rfl
@[simp] theorem State.setRegion_time (s : State) (f n : Nat) (x : Region) : (s.setRegion f n x).time = s.time := rfl
@[simp] theorem State.setRegion_cur (s : State) (f n : Nat) (x : Region) : (s.setRegion f n x).cur = s.cur := rfl
@[simp] theorem State.setRegion_agenda (s : State) (f n : Nat) (x : Region) : (s.setRegion f n x).agenda = s.agenda := rfl
@[simp] theorem State.setRegion_free (s : State) (f n : Nat) (x : Region) : (s.setRegion f n x).free = s.free := rfl
@[simp] theorem State.setRegion_monitors (s : State) (f n : Nat) (x : Region) : (s.setRegion f n x).monitors = s.monitors := rfl
@[simp] theorem State.setRegion_watches (s : State) (f n : Nat) (x : Region) : (s.setRegion f n x).watches = s.watches := rfl
@[simp] theorem State.setRegion_turned (s : State) (f n : Nat) (x : Region) : (s.setRegion f n x).turned = s.turned := rfl
@[simp] theorem State.setRegion_hostData (s : State) (f n : Nat) (x : Region) : (s.setRegion f n x).hostData = s.hostData := rfl

@[simp] theorem State.setFtile_mem (s : State) (f c r : Nat) (x : FTile) : (s.setFtile f c r x).mem = s.mem := rfl
@[simp] theorem State.setFtile_poison (s : State) (f c r : Nat) (x : FTile) : (s.setFtile f c r x).poison = s.poison := rfl
@[simp] theorem State.setFtile_threads (s : State) (f c r : Nat) (x : FTile) : (s.setFtile f c r x).threads = s.threads := rfl
@[simp] theorem State.setFtile_cores (s : State) (f c r : Nat) (x : FTile) : (s.setFtile f c r x).cores = s.cores := rfl
@[simp] theorem State.setFtile_quires (s : State) (f c r : Nat) (x : FTile) : (s.setFtile f c r x).quires = s.quires := rfl
@[simp] theorem State.setFtile_ctxs (s : State) (f c r : Nat) (x : FTile) : (s.setFtile f c r x).ctxs = s.ctxs := rfl
@[simp] theorem State.setFtile_launches (s : State) (f c r : Nat) (x : FTile) : (s.setFtile f c r x).launches = s.launches := rfl
@[simp] theorem State.setFtile_nextLaunch (s : State) (f c r : Nat) (x : FTile) : (s.setFtile f c r x).nextLaunch = s.nextLaunch := rfl
@[simp] theorem State.setFtile_lastServed (s : State) (f c r : Nat) (x : FTile) : (s.setFtile f c r x).lastServed = s.lastServed := rfl
@[simp] theorem State.setFtile_mails (s : State) (f c r : Nat) (x : FTile) : (s.setFtile f c r x).mails = s.mails := rfl
@[simp] theorem State.setFtile_net (s : State) (f c r : Nat) (x : FTile) : (s.setFtile f c r x).net = s.net := rfl
@[simp] theorem State.setFtile_tlbs (s : State) (f c r : Nat) (x : FTile) : (s.setFtile f c r x).tlbs = s.tlbs := rfl
@[simp] theorem State.setFtile_collations (s : State) (f c r : Nat) (x : FTile) : (s.setFtile f c r x).collations = s.collations := rfl
@[simp] theorem State.setFtile_regions (s : State) (f c r : Nat) (x : FTile) : (s.setFtile f c r x).regions = s.regions := rfl
@[simp] theorem State.setFtile_arrays (s : State) (f c r : Nat) (x : FTile) : (s.setFtile f c r x).arrays = s.arrays := rfl
@[simp] theorem State.setFtile_seqs (s : State) (f c r : Nat) (x : FTile) : (s.setFtile f c r x).seqs = s.seqs := rfl
@[simp] theorem State.setFtile_units (s : State) (f c r : Nat) (x : FTile) : (s.setFtile f c r x).units = s.units := rfl
@[simp] theorem State.setFtile_grains (s : State) (f c r : Nat) (x : FTile) : (s.setFtile f c r x).grains = s.grains := rfl
@[simp] theorem State.setFtile_enqueues (s : State) (f c r : Nat) (x : FTile) : (s.setFtile f c r x).enqueues = s.enqueues := rfl
@[simp] theorem State.setFtile_callbacks (s : State) (f c r : Nat) (x : FTile) : (s.setFtile f c r x).callbacks = s.callbacks := rfl
@[simp] theorem State.setFtile_returns (s : State) (f c r : Nat) (x : FTile) : (s.setFtile f c r x).returns = s.returns := rfl
@[simp] theorem State.setFtile_freeAtStart (s : State) (f c r : Nat) (x : FTile) : (s.setFtile f c r x).freeAtStart = s.freeAtStart := rfl
@[simp] theorem State.setFtile_arrivals (s : State) (f c r : Nat) (x : FTile) : (s.setFtile f c r x).arrivals = s.arrivals := rfl
@[simp] theorem State.setFtile_saved (s : State) (f c r : Nat) (x : FTile) : (s.setFtile f c r x).saved = s.saved := rfl
@[simp] theorem State.setFtile_mailbox (s : State) (f c r : Nat) (x : FTile) : (s.setFtile f c r x).mailbox = s.mailbox := rfl
@[simp] theorem State.setFtile_dev (s : State) (f c r : Nat) (x : FTile) : (s.setFtile f c r x).dev = s.dev := rfl
@[simp] theorem State.setFtile_cycle (s : State) (f c r : Nat) (x : FTile) : (s.setFtile f c r x).cycle = s.cycle := rfl
@[simp] theorem State.setFtile_time (s : State) (f c r : Nat) (x : FTile) : (s.setFtile f c r x).time = s.time := rfl
@[simp] theorem State.setFtile_cur (s : State) (f c r : Nat) (x : FTile) : (s.setFtile f c r x).cur = s.cur := rfl
@[simp] theorem State.setFtile_agenda (s : State) (f c r : Nat) (x : FTile) : (s.setFtile f c r x).agenda = s.agenda := rfl
@[simp] theorem State.setFtile_free (s : State) (f c r : Nat) (x : FTile) : (s.setFtile f c r x).free = s.free := rfl
@[simp] theorem State.setFtile_monitors (s : State) (f c r : Nat) (x : FTile) : (s.setFtile f c r x).monitors = s.monitors := rfl
@[simp] theorem State.setFtile_watches (s : State) (f c r : Nat) (x : FTile) : (s.setFtile f c r x).watches = s.watches := rfl
@[simp] theorem State.setFtile_turned (s : State) (f c r : Nat) (x : FTile) : (s.setFtile f c r x).turned = s.turned := rfl
@[simp] theorem State.setFtile_hostData (s : State) (f c r : Nat) (x : FTile) : (s.setFtile f c r x).hostData = s.hostData := rfl

@[simp] theorem State.setArray_mem (s : State) (q j : Nat) (x : JArray) : (s.setArray q j x).mem = s.mem := rfl
@[simp] theorem State.setArray_poison (s : State) (q j : Nat) (x : JArray) : (s.setArray q j x).poison = s.poison := rfl
@[simp] theorem State.setArray_threads (s : State) (q j : Nat) (x : JArray) : (s.setArray q j x).threads = s.threads := rfl
@[simp] theorem State.setArray_cores (s : State) (q j : Nat) (x : JArray) : (s.setArray q j x).cores = s.cores := rfl
@[simp] theorem State.setArray_quires (s : State) (q j : Nat) (x : JArray) : (s.setArray q j x).quires = s.quires := rfl
@[simp] theorem State.setArray_ctxs (s : State) (q j : Nat) (x : JArray) : (s.setArray q j x).ctxs = s.ctxs := rfl
@[simp] theorem State.setArray_launches (s : State) (q j : Nat) (x : JArray) : (s.setArray q j x).launches = s.launches := rfl
@[simp] theorem State.setArray_nextLaunch (s : State) (q j : Nat) (x : JArray) : (s.setArray q j x).nextLaunch = s.nextLaunch := rfl
@[simp] theorem State.setArray_lastServed (s : State) (q j : Nat) (x : JArray) : (s.setArray q j x).lastServed = s.lastServed := rfl
@[simp] theorem State.setArray_mails (s : State) (q j : Nat) (x : JArray) : (s.setArray q j x).mails = s.mails := rfl
@[simp] theorem State.setArray_net (s : State) (q j : Nat) (x : JArray) : (s.setArray q j x).net = s.net := rfl
@[simp] theorem State.setArray_tlbs (s : State) (q j : Nat) (x : JArray) : (s.setArray q j x).tlbs = s.tlbs := rfl
@[simp] theorem State.setArray_collations (s : State) (q j : Nat) (x : JArray) : (s.setArray q j x).collations = s.collations := rfl
@[simp] theorem State.setArray_regions (s : State) (q j : Nat) (x : JArray) : (s.setArray q j x).regions = s.regions := rfl
@[simp] theorem State.setArray_ftiles (s : State) (q j : Nat) (x : JArray) : (s.setArray q j x).ftiles = s.ftiles := rfl
@[simp] theorem State.setArray_seqs (s : State) (q j : Nat) (x : JArray) : (s.setArray q j x).seqs = s.seqs := rfl
@[simp] theorem State.setArray_units (s : State) (q j : Nat) (x : JArray) : (s.setArray q j x).units = s.units := rfl
@[simp] theorem State.setArray_grains (s : State) (q j : Nat) (x : JArray) : (s.setArray q j x).grains = s.grains := rfl
@[simp] theorem State.setArray_enqueues (s : State) (q j : Nat) (x : JArray) : (s.setArray q j x).enqueues = s.enqueues := rfl
@[simp] theorem State.setArray_callbacks (s : State) (q j : Nat) (x : JArray) : (s.setArray q j x).callbacks = s.callbacks := rfl
@[simp] theorem State.setArray_returns (s : State) (q j : Nat) (x : JArray) : (s.setArray q j x).returns = s.returns := rfl
@[simp] theorem State.setArray_freeAtStart (s : State) (q j : Nat) (x : JArray) : (s.setArray q j x).freeAtStart = s.freeAtStart := rfl
@[simp] theorem State.setArray_arrivals (s : State) (q j : Nat) (x : JArray) : (s.setArray q j x).arrivals = s.arrivals := rfl
@[simp] theorem State.setArray_saved (s : State) (q j : Nat) (x : JArray) : (s.setArray q j x).saved = s.saved := rfl
@[simp] theorem State.setArray_mailbox (s : State) (q j : Nat) (x : JArray) : (s.setArray q j x).mailbox = s.mailbox := rfl
@[simp] theorem State.setArray_dev (s : State) (q j : Nat) (x : JArray) : (s.setArray q j x).dev = s.dev := rfl
@[simp] theorem State.setArray_cycle (s : State) (q j : Nat) (x : JArray) : (s.setArray q j x).cycle = s.cycle := rfl
@[simp] theorem State.setArray_time (s : State) (q j : Nat) (x : JArray) : (s.setArray q j x).time = s.time := rfl
@[simp] theorem State.setArray_cur (s : State) (q j : Nat) (x : JArray) : (s.setArray q j x).cur = s.cur := rfl
@[simp] theorem State.setArray_agenda (s : State) (q j : Nat) (x : JArray) : (s.setArray q j x).agenda = s.agenda := rfl
@[simp] theorem State.setArray_free (s : State) (q j : Nat) (x : JArray) : (s.setArray q j x).free = s.free := rfl
@[simp] theorem State.setArray_monitors (s : State) (q j : Nat) (x : JArray) : (s.setArray q j x).monitors = s.monitors := rfl
@[simp] theorem State.setArray_watches (s : State) (q j : Nat) (x : JArray) : (s.setArray q j x).watches = s.watches := rfl
@[simp] theorem State.setArray_turned (s : State) (q j : Nat) (x : JArray) : (s.setArray q j x).turned = s.turned := rfl
@[simp] theorem State.setArray_hostData (s : State) (q j : Nat) (x : JArray) : (s.setArray q j x).hostData = s.hostData := rfl

@[simp] theorem State.setSeqRec_mem (s : State) (f r : Nat) (x : SeqRec) : (s.setSeqRec f r x).mem = s.mem := rfl
@[simp] theorem State.setSeqRec_poison (s : State) (f r : Nat) (x : SeqRec) : (s.setSeqRec f r x).poison = s.poison := rfl
@[simp] theorem State.setSeqRec_threads (s : State) (f r : Nat) (x : SeqRec) : (s.setSeqRec f r x).threads = s.threads := rfl
@[simp] theorem State.setSeqRec_cores (s : State) (f r : Nat) (x : SeqRec) : (s.setSeqRec f r x).cores = s.cores := rfl
@[simp] theorem State.setSeqRec_quires (s : State) (f r : Nat) (x : SeqRec) : (s.setSeqRec f r x).quires = s.quires := rfl
@[simp] theorem State.setSeqRec_ctxs (s : State) (f r : Nat) (x : SeqRec) : (s.setSeqRec f r x).ctxs = s.ctxs := rfl
@[simp] theorem State.setSeqRec_launches (s : State) (f r : Nat) (x : SeqRec) : (s.setSeqRec f r x).launches = s.launches := rfl
@[simp] theorem State.setSeqRec_nextLaunch (s : State) (f r : Nat) (x : SeqRec) : (s.setSeqRec f r x).nextLaunch = s.nextLaunch := rfl
@[simp] theorem State.setSeqRec_lastServed (s : State) (f r : Nat) (x : SeqRec) : (s.setSeqRec f r x).lastServed = s.lastServed := rfl
@[simp] theorem State.setSeqRec_mails (s : State) (f r : Nat) (x : SeqRec) : (s.setSeqRec f r x).mails = s.mails := rfl
@[simp] theorem State.setSeqRec_net (s : State) (f r : Nat) (x : SeqRec) : (s.setSeqRec f r x).net = s.net := rfl
@[simp] theorem State.setSeqRec_tlbs (s : State) (f r : Nat) (x : SeqRec) : (s.setSeqRec f r x).tlbs = s.tlbs := rfl
@[simp] theorem State.setSeqRec_collations (s : State) (f r : Nat) (x : SeqRec) : (s.setSeqRec f r x).collations = s.collations := rfl
@[simp] theorem State.setSeqRec_regions (s : State) (f r : Nat) (x : SeqRec) : (s.setSeqRec f r x).regions = s.regions := rfl
@[simp] theorem State.setSeqRec_ftiles (s : State) (f r : Nat) (x : SeqRec) : (s.setSeqRec f r x).ftiles = s.ftiles := rfl
@[simp] theorem State.setSeqRec_arrays (s : State) (f r : Nat) (x : SeqRec) : (s.setSeqRec f r x).arrays = s.arrays := rfl
@[simp] theorem State.setSeqRec_units (s : State) (f r : Nat) (x : SeqRec) : (s.setSeqRec f r x).units = s.units := rfl
@[simp] theorem State.setSeqRec_grains (s : State) (f r : Nat) (x : SeqRec) : (s.setSeqRec f r x).grains = s.grains := rfl
@[simp] theorem State.setSeqRec_enqueues (s : State) (f r : Nat) (x : SeqRec) : (s.setSeqRec f r x).enqueues = s.enqueues := rfl
@[simp] theorem State.setSeqRec_callbacks (s : State) (f r : Nat) (x : SeqRec) : (s.setSeqRec f r x).callbacks = s.callbacks := rfl
@[simp] theorem State.setSeqRec_returns (s : State) (f r : Nat) (x : SeqRec) : (s.setSeqRec f r x).returns = s.returns := rfl
@[simp] theorem State.setSeqRec_freeAtStart (s : State) (f r : Nat) (x : SeqRec) : (s.setSeqRec f r x).freeAtStart = s.freeAtStart := rfl
@[simp] theorem State.setSeqRec_arrivals (s : State) (f r : Nat) (x : SeqRec) : (s.setSeqRec f r x).arrivals = s.arrivals := rfl
@[simp] theorem State.setSeqRec_saved (s : State) (f r : Nat) (x : SeqRec) : (s.setSeqRec f r x).saved = s.saved := rfl
@[simp] theorem State.setSeqRec_mailbox (s : State) (f r : Nat) (x : SeqRec) : (s.setSeqRec f r x).mailbox = s.mailbox := rfl
@[simp] theorem State.setSeqRec_dev (s : State) (f r : Nat) (x : SeqRec) : (s.setSeqRec f r x).dev = s.dev := rfl
@[simp] theorem State.setSeqRec_cycle (s : State) (f r : Nat) (x : SeqRec) : (s.setSeqRec f r x).cycle = s.cycle := rfl
@[simp] theorem State.setSeqRec_time (s : State) (f r : Nat) (x : SeqRec) : (s.setSeqRec f r x).time = s.time := rfl
@[simp] theorem State.setSeqRec_cur (s : State) (f r : Nat) (x : SeqRec) : (s.setSeqRec f r x).cur = s.cur := rfl
@[simp] theorem State.setSeqRec_agenda (s : State) (f r : Nat) (x : SeqRec) : (s.setSeqRec f r x).agenda = s.agenda := rfl
@[simp] theorem State.setSeqRec_free (s : State) (f r : Nat) (x : SeqRec) : (s.setSeqRec f r x).free = s.free := rfl
@[simp] theorem State.setSeqRec_monitors (s : State) (f r : Nat) (x : SeqRec) : (s.setSeqRec f r x).monitors = s.monitors := rfl
@[simp] theorem State.setSeqRec_watches (s : State) (f r : Nat) (x : SeqRec) : (s.setSeqRec f r x).watches = s.watches := rfl
@[simp] theorem State.setSeqRec_turned (s : State) (f r : Nat) (x : SeqRec) : (s.setSeqRec f r x).turned = s.turned := rfl
@[simp] theorem State.setSeqRec_hostData (s : State) (f r : Nat) (x : SeqRec) : (s.setSeqRec f r x).hostData = s.hostData := rfl

@[simp] theorem Thread.ws_v (t : Thread) (r : SReg) (x : Word) (n : Nat) : (t.ws r x n).v = t.v := by
  unfold Thread.ws; split <;> rfl
@[simp] theorem Thread.ws_p (t : Thread) (r : SReg) (x : Word) (n : Nat) : (t.ws r x n).p = t.p := by
  unfold Thread.ws; split <;> rfl
@[simp] theorem Thread.ws_vStamp (t : Thread) (r : SReg) (x : Word) (n : Nat) : (t.ws r x n).vStamp = t.vStamp := by
  unfold Thread.ws; split <;> rfl
@[simp] theorem Thread.ws_pStamp (t : Thread) (r : SReg) (x : Word) (n : Nat) : (t.ws r x n).pStamp = t.pStamp := by
  unfold Thread.ws; split <;> rfl
@[simp] theorem Thread.ws_pc (t : Thread) (r : SReg) (x : Word) (n : Nat) : (t.ws r x n).pc = t.pc := by
  unfold Thread.ws; split <;> rfl
@[simp] theorem Thread.ws_mode (t : Thread) (r : SReg) (x : Word) (n : Nat) : (t.ws r x n).mode = t.mode := by
  unfold Thread.ws; split <;> rfl
@[simp] theorem Thread.ws_fctl (t : Thread) (r : SReg) (x : Word) (n : Nat) : (t.ws r x n).fctl = t.fctl := by
  unfold Thread.ws; split <;> rfl
@[simp] theorem Thread.ws_wid (t : Thread) (r : SReg) (x : Word) (n : Nat) : (t.ws r x n).wid = t.wid := by
  unfold Thread.ws; split <;> rfl
@[simp] theorem Thread.ws_widShape (t : Thread) (r : SReg) (x : Word) (n : Nat) : (t.ws r x n).widShape = t.widShape := by
  unfold Thread.ws; split <;> rfl
@[simp] theorem Thread.ws_waitLimit (t : Thread) (r : SReg) (x : Word) (n : Nat) : (t.ws r x n).waitLimit = t.waitLimit := by
  unfold Thread.ws; split <;> rfl
@[simp] theorem Thread.ws_heapId (t : Thread) (r : SReg) (x : Word) (n : Nat) : (t.ws r x n).heapId = t.heapId := by
  unfold Thread.ws; split <;> rfl
@[simp] theorem Thread.ws_trapCause (t : Thread) (r : SReg) (x : Word) (n : Nat) : (t.ws r x n).trapCause = t.trapCause := by
  unfold Thread.ws; split <;> rfl
@[simp] theorem Thread.ws_trapPc (t : Thread) (r : SReg) (x : Word) (n : Nat) : (t.ws r x n).trapPc = t.trapPc := by
  unfold Thread.ws; split <;> rfl
@[simp] theorem Thread.ws_trapVal (t : Thread) (r : SReg) (x : Word) (n : Nat) : (t.ws r x n).trapVal = t.trapVal := by
  unfold Thread.ws; split <;> rfl
@[simp] theorem Thread.ws_trapFrame (t : Thread) (r : SReg) (x : Word) (n : Nat) : (t.ws r x n).trapFrame = t.trapFrame := by
  unfold Thread.ws; split <;> rfl
@[simp] theorem Thread.ws_trapIter (t : Thread) (r : SReg) (x : Word) (n : Nat) : (t.ws r x n).trapIter = t.trapIter := by
  unfold Thread.ws; split <;> rfl
@[simp] theorem Thread.ws_trapScratch (t : Thread) (r : SReg) (x : Word) (n : Nat) : (t.ws r x n).trapScratch = t.trapScratch := by
  unfold Thread.ws; split <;> rfl
@[simp] theorem Thread.ws_dcause (t : Thread) (r : SReg) (x : Word) (n : Nat) : (t.ws r x n).dcause = t.dcause := by
  unfold Thread.ws; split <;> rfl
@[simp] theorem Thread.ws_trapSub (t : Thread) (r : SReg) (x : Word) (n : Nat) : (t.ws r x n).trapSub = t.trapSub := by
  unfold Thread.ws; split <;> rfl
@[simp] theorem Thread.ws_trapFrec (t : Thread) (r : SReg) (x : Word) (n : Nat) : (t.ws r x n).trapFrec = t.trapFrec := by
  unfold Thread.ws; split <;> rfl
@[simp] theorem Thread.ws_trapKind (t : Thread) (r : SReg) (x : Word) (n : Nat) : (t.ws r x n).trapKind = t.trapKind := by
  unfold Thread.ws; split <;> rfl
@[simp] theorem Thread.ws_trapDbl (t : Thread) (r : SReg) (x : Word) (n : Nat) : (t.ws r x n).trapDbl = t.trapDbl := by
  unfold Thread.ws; split <;> rfl
@[simp] theorem Thread.ws_trapPost (t : Thread) (r : SReg) (x : Word) (n : Nat) : (t.ws r x n).trapPost = t.trapPost := by
  unfold Thread.ws; split <;> rfl
@[simp] theorem Thread.ws_stepctl (t : Thread) (r : SReg) (x : Word) (n : Nat) : (t.ws r x n).stepctl = t.stepctl := by
  unfold Thread.ws; split <;> rfl
@[simp] theorem Thread.ws_brk (t : Thread) (r : SReg) (x : Word) (n : Nat) : (t.ws r x n).brk = t.brk := by
  unfold Thread.ws; split <;> rfl
@[simp] theorem Thread.ws_halted (t : Thread) (r : SReg) (x : Word) (n : Nat) : (t.ws r x n).halted = t.halted := by
  unfold Thread.ws; split <;> rfl
@[simp] theorem Thread.ws_haltAsked (t : Thread) (r : SReg) (x : Word) (n : Nat) : (t.ws r x n).haltAsked = t.haltAsked := by
  unfold Thread.ws; split <;> rfl
@[simp] theorem Thread.ws_yielded (t : Thread) (r : SReg) (x : Word) (n : Nat) : (t.ws r x n).yielded = t.yielded := by
  unfold Thread.ws; split <;> rfl
@[simp] theorem Thread.ws_packet (t : Thread) (r : SReg) (x : Word) (n : Nat) : (t.ws r x n).packet = t.packet := by
  unfold Thread.ws; split <;> rfl
@[simp] theorem Thread.ws_work (t : Thread) (r : SReg) (x : Word) (n : Nat) : (t.ws r x n).work = t.work := by
  unfold Thread.ws; split <;> rfl
@[simp] theorem Thread.ws_ctx (t : Thread) (r : SReg) (x : Word) (n : Nat) : (t.ws r x n).ctx = t.ctx := by
  unfold Thread.ws; split <;> rfl
@[simp] theorem Thread.ws_wait (t : Thread) (r : SReg) (x : Word) (n : Nat) : (t.ws r x n).wait = t.wait := by
  unfold Thread.ws; split <;> rfl
@[simp] theorem Thread.ws_ibuf (t : Thread) (r : SReg) (x : Word) (n : Nat) : (t.ws r x n).ibuf = t.ibuf := by
  unfold Thread.ws; split <;> rfl
@[simp] theorem Thread.ws_cmds (t : Thread) (r : SReg) (x : Word) (n : Nat) : (t.ws r x n).cmds = t.cmds := by
  unfold Thread.ws; split <;> rfl
@[simp] theorem Thread.ws_peerFail (t : Thread) (r : SReg) (x : Word) (n : Nat) : (t.ws r x n).peerFail = t.peerFail := by
  unfold Thread.ws; split <;> rfl
@[simp] theorem Thread.ws_peerDrops (t : Thread) (r : SReg) (x : Word) (n : Nat) : (t.ws r x n).peerDrops = t.peerDrops := by
  unfold Thread.ws; split <;> rfl
@[simp] theorem Thread.ws_removed (t : Thread) (r : SReg) (x : Word) (n : Nat) : (t.ws r x n).removed = t.removed := by
  unfold Thread.ws; split <;> rfl

@[simp] theorem Thread.wp_s (t : Thread) (r : PReg) (x : Word) (n : Nat) : (t.wp r x n).s = t.s := by
  unfold Thread.wp; split <;> rfl
@[simp] theorem Thread.wp_v (t : Thread) (r : PReg) (x : Word) (n : Nat) : (t.wp r x n).v = t.v := by
  unfold Thread.wp; split <;> rfl
@[simp] theorem Thread.wp_sStamp (t : Thread) (r : PReg) (x : Word) (n : Nat) : (t.wp r x n).sStamp = t.sStamp := by
  unfold Thread.wp; split <;> rfl
@[simp] theorem Thread.wp_vStamp (t : Thread) (r : PReg) (x : Word) (n : Nat) : (t.wp r x n).vStamp = t.vStamp := by
  unfold Thread.wp; split <;> rfl
@[simp] theorem Thread.wp_pc (t : Thread) (r : PReg) (x : Word) (n : Nat) : (t.wp r x n).pc = t.pc := by
  unfold Thread.wp; split <;> rfl
@[simp] theorem Thread.wp_mode (t : Thread) (r : PReg) (x : Word) (n : Nat) : (t.wp r x n).mode = t.mode := by
  unfold Thread.wp; split <;> rfl
@[simp] theorem Thread.wp_fctl (t : Thread) (r : PReg) (x : Word) (n : Nat) : (t.wp r x n).fctl = t.fctl := by
  unfold Thread.wp; split <;> rfl
@[simp] theorem Thread.wp_wid (t : Thread) (r : PReg) (x : Word) (n : Nat) : (t.wp r x n).wid = t.wid := by
  unfold Thread.wp; split <;> rfl
@[simp] theorem Thread.wp_widShape (t : Thread) (r : PReg) (x : Word) (n : Nat) : (t.wp r x n).widShape = t.widShape := by
  unfold Thread.wp; split <;> rfl
@[simp] theorem Thread.wp_waitLimit (t : Thread) (r : PReg) (x : Word) (n : Nat) : (t.wp r x n).waitLimit = t.waitLimit := by
  unfold Thread.wp; split <;> rfl
@[simp] theorem Thread.wp_heapId (t : Thread) (r : PReg) (x : Word) (n : Nat) : (t.wp r x n).heapId = t.heapId := by
  unfold Thread.wp; split <;> rfl
@[simp] theorem Thread.wp_trapCause (t : Thread) (r : PReg) (x : Word) (n : Nat) : (t.wp r x n).trapCause = t.trapCause := by
  unfold Thread.wp; split <;> rfl
@[simp] theorem Thread.wp_trapPc (t : Thread) (r : PReg) (x : Word) (n : Nat) : (t.wp r x n).trapPc = t.trapPc := by
  unfold Thread.wp; split <;> rfl
@[simp] theorem Thread.wp_trapVal (t : Thread) (r : PReg) (x : Word) (n : Nat) : (t.wp r x n).trapVal = t.trapVal := by
  unfold Thread.wp; split <;> rfl
@[simp] theorem Thread.wp_trapFrame (t : Thread) (r : PReg) (x : Word) (n : Nat) : (t.wp r x n).trapFrame = t.trapFrame := by
  unfold Thread.wp; split <;> rfl
@[simp] theorem Thread.wp_trapIter (t : Thread) (r : PReg) (x : Word) (n : Nat) : (t.wp r x n).trapIter = t.trapIter := by
  unfold Thread.wp; split <;> rfl
@[simp] theorem Thread.wp_trapScratch (t : Thread) (r : PReg) (x : Word) (n : Nat) : (t.wp r x n).trapScratch = t.trapScratch := by
  unfold Thread.wp; split <;> rfl
@[simp] theorem Thread.wp_dcause (t : Thread) (r : PReg) (x : Word) (n : Nat) : (t.wp r x n).dcause = t.dcause := by
  unfold Thread.wp; split <;> rfl
@[simp] theorem Thread.wp_trapSub (t : Thread) (r : PReg) (x : Word) (n : Nat) : (t.wp r x n).trapSub = t.trapSub := by
  unfold Thread.wp; split <;> rfl
@[simp] theorem Thread.wp_trapFrec (t : Thread) (r : PReg) (x : Word) (n : Nat) : (t.wp r x n).trapFrec = t.trapFrec := by
  unfold Thread.wp; split <;> rfl
@[simp] theorem Thread.wp_trapKind (t : Thread) (r : PReg) (x : Word) (n : Nat) : (t.wp r x n).trapKind = t.trapKind := by
  unfold Thread.wp; split <;> rfl
@[simp] theorem Thread.wp_trapDbl (t : Thread) (r : PReg) (x : Word) (n : Nat) : (t.wp r x n).trapDbl = t.trapDbl := by
  unfold Thread.wp; split <;> rfl
@[simp] theorem Thread.wp_trapPost (t : Thread) (r : PReg) (x : Word) (n : Nat) : (t.wp r x n).trapPost = t.trapPost := by
  unfold Thread.wp; split <;> rfl
@[simp] theorem Thread.wp_stepctl (t : Thread) (r : PReg) (x : Word) (n : Nat) : (t.wp r x n).stepctl = t.stepctl := by
  unfold Thread.wp; split <;> rfl
@[simp] theorem Thread.wp_brk (t : Thread) (r : PReg) (x : Word) (n : Nat) : (t.wp r x n).brk = t.brk := by
  unfold Thread.wp; split <;> rfl
@[simp] theorem Thread.wp_halted (t : Thread) (r : PReg) (x : Word) (n : Nat) : (t.wp r x n).halted = t.halted := by
  unfold Thread.wp; split <;> rfl
@[simp] theorem Thread.wp_haltAsked (t : Thread) (r : PReg) (x : Word) (n : Nat) : (t.wp r x n).haltAsked = t.haltAsked := by
  unfold Thread.wp; split <;> rfl
@[simp] theorem Thread.wp_yielded (t : Thread) (r : PReg) (x : Word) (n : Nat) : (t.wp r x n).yielded = t.yielded := by
  unfold Thread.wp; split <;> rfl
@[simp] theorem Thread.wp_packet (t : Thread) (r : PReg) (x : Word) (n : Nat) : (t.wp r x n).packet = t.packet := by
  unfold Thread.wp; split <;> rfl
@[simp] theorem Thread.wp_work (t : Thread) (r : PReg) (x : Word) (n : Nat) : (t.wp r x n).work = t.work := by
  unfold Thread.wp; split <;> rfl
@[simp] theorem Thread.wp_ctx (t : Thread) (r : PReg) (x : Word) (n : Nat) : (t.wp r x n).ctx = t.ctx := by
  unfold Thread.wp; split <;> rfl
@[simp] theorem Thread.wp_wait (t : Thread) (r : PReg) (x : Word) (n : Nat) : (t.wp r x n).wait = t.wait := by
  unfold Thread.wp; split <;> rfl
@[simp] theorem Thread.wp_ibuf (t : Thread) (r : PReg) (x : Word) (n : Nat) : (t.wp r x n).ibuf = t.ibuf := by
  unfold Thread.wp; split <;> rfl
@[simp] theorem Thread.wp_cmds (t : Thread) (r : PReg) (x : Word) (n : Nat) : (t.wp r x n).cmds = t.cmds := by
  unfold Thread.wp; split <;> rfl
@[simp] theorem Thread.wp_peerFail (t : Thread) (r : PReg) (x : Word) (n : Nat) : (t.wp r x n).peerFail = t.peerFail := by
  unfold Thread.wp; split <;> rfl
@[simp] theorem Thread.wp_peerDrops (t : Thread) (r : PReg) (x : Word) (n : Nat) : (t.wp r x n).peerDrops = t.peerDrops := by
  unfold Thread.wp; split <;> rfl
@[simp] theorem Thread.wp_removed (t : Thread) (r : PReg) (x : Word) (n : Nat) : (t.wp r x n).removed = t.removed := by
  unfold Thread.wp; split <;> rfl

@[simp] theorem Thread.wv_s (t : Thread) (r : VReg) (x : Vec) (n : Nat) : (t.wv r x n).s = t.s := rfl
@[simp] theorem Thread.wv_p (t : Thread) (r : VReg) (x : Vec) (n : Nat) : (t.wv r x n).p = t.p := rfl
@[simp] theorem Thread.wv_sStamp (t : Thread) (r : VReg) (x : Vec) (n : Nat) : (t.wv r x n).sStamp = t.sStamp := rfl
@[simp] theorem Thread.wv_pStamp (t : Thread) (r : VReg) (x : Vec) (n : Nat) : (t.wv r x n).pStamp = t.pStamp := rfl
@[simp] theorem Thread.wv_pc (t : Thread) (r : VReg) (x : Vec) (n : Nat) : (t.wv r x n).pc = t.pc := rfl
@[simp] theorem Thread.wv_mode (t : Thread) (r : VReg) (x : Vec) (n : Nat) : (t.wv r x n).mode = t.mode := rfl
@[simp] theorem Thread.wv_fctl (t : Thread) (r : VReg) (x : Vec) (n : Nat) : (t.wv r x n).fctl = t.fctl := rfl
@[simp] theorem Thread.wv_wid (t : Thread) (r : VReg) (x : Vec) (n : Nat) : (t.wv r x n).wid = t.wid := rfl
@[simp] theorem Thread.wv_widShape (t : Thread) (r : VReg) (x : Vec) (n : Nat) : (t.wv r x n).widShape = t.widShape := rfl
@[simp] theorem Thread.wv_waitLimit (t : Thread) (r : VReg) (x : Vec) (n : Nat) : (t.wv r x n).waitLimit = t.waitLimit := rfl
@[simp] theorem Thread.wv_heapId (t : Thread) (r : VReg) (x : Vec) (n : Nat) : (t.wv r x n).heapId = t.heapId := rfl
@[simp] theorem Thread.wv_trapCause (t : Thread) (r : VReg) (x : Vec) (n : Nat) : (t.wv r x n).trapCause = t.trapCause := rfl
@[simp] theorem Thread.wv_trapPc (t : Thread) (r : VReg) (x : Vec) (n : Nat) : (t.wv r x n).trapPc = t.trapPc := rfl
@[simp] theorem Thread.wv_trapVal (t : Thread) (r : VReg) (x : Vec) (n : Nat) : (t.wv r x n).trapVal = t.trapVal := rfl
@[simp] theorem Thread.wv_trapFrame (t : Thread) (r : VReg) (x : Vec) (n : Nat) : (t.wv r x n).trapFrame = t.trapFrame := rfl
@[simp] theorem Thread.wv_trapIter (t : Thread) (r : VReg) (x : Vec) (n : Nat) : (t.wv r x n).trapIter = t.trapIter := rfl
@[simp] theorem Thread.wv_trapScratch (t : Thread) (r : VReg) (x : Vec) (n : Nat) : (t.wv r x n).trapScratch = t.trapScratch := rfl
@[simp] theorem Thread.wv_dcause (t : Thread) (r : VReg) (x : Vec) (n : Nat) : (t.wv r x n).dcause = t.dcause := rfl
@[simp] theorem Thread.wv_trapSub (t : Thread) (r : VReg) (x : Vec) (n : Nat) : (t.wv r x n).trapSub = t.trapSub := rfl
@[simp] theorem Thread.wv_trapFrec (t : Thread) (r : VReg) (x : Vec) (n : Nat) : (t.wv r x n).trapFrec = t.trapFrec := rfl
@[simp] theorem Thread.wv_trapKind (t : Thread) (r : VReg) (x : Vec) (n : Nat) : (t.wv r x n).trapKind = t.trapKind := rfl
@[simp] theorem Thread.wv_trapDbl (t : Thread) (r : VReg) (x : Vec) (n : Nat) : (t.wv r x n).trapDbl = t.trapDbl := rfl
@[simp] theorem Thread.wv_trapPost (t : Thread) (r : VReg) (x : Vec) (n : Nat) : (t.wv r x n).trapPost = t.trapPost := rfl
@[simp] theorem Thread.wv_stepctl (t : Thread) (r : VReg) (x : Vec) (n : Nat) : (t.wv r x n).stepctl = t.stepctl := rfl
@[simp] theorem Thread.wv_brk (t : Thread) (r : VReg) (x : Vec) (n : Nat) : (t.wv r x n).brk = t.brk := rfl
@[simp] theorem Thread.wv_halted (t : Thread) (r : VReg) (x : Vec) (n : Nat) : (t.wv r x n).halted = t.halted := rfl
@[simp] theorem Thread.wv_haltAsked (t : Thread) (r : VReg) (x : Vec) (n : Nat) : (t.wv r x n).haltAsked = t.haltAsked := rfl
@[simp] theorem Thread.wv_yielded (t : Thread) (r : VReg) (x : Vec) (n : Nat) : (t.wv r x n).yielded = t.yielded := rfl
@[simp] theorem Thread.wv_packet (t : Thread) (r : VReg) (x : Vec) (n : Nat) : (t.wv r x n).packet = t.packet := rfl
@[simp] theorem Thread.wv_work (t : Thread) (r : VReg) (x : Vec) (n : Nat) : (t.wv r x n).work = t.work := rfl
@[simp] theorem Thread.wv_ctx (t : Thread) (r : VReg) (x : Vec) (n : Nat) : (t.wv r x n).ctx = t.ctx := rfl
@[simp] theorem Thread.wv_wait (t : Thread) (r : VReg) (x : Vec) (n : Nat) : (t.wv r x n).wait = t.wait := rfl
@[simp] theorem Thread.wv_ibuf (t : Thread) (r : VReg) (x : Vec) (n : Nat) : (t.wv r x n).ibuf = t.ibuf := rfl
@[simp] theorem Thread.wv_cmds (t : Thread) (r : VReg) (x : Vec) (n : Nat) : (t.wv r x n).cmds = t.cmds := rfl
@[simp] theorem Thread.wv_peerFail (t : Thread) (r : VReg) (x : Vec) (n : Nat) : (t.wv r x n).peerFail = t.peerFail := rfl
@[simp] theorem Thread.wv_peerDrops (t : Thread) (r : VReg) (x : Vec) (n : Nat) : (t.wv r x n).peerDrops = t.peerDrops := rfl
@[simp] theorem Thread.wv_removed (t : Thread) (r : VReg) (x : Vec) (n : Nat) : (t.wv r x n).removed = t.removed := rfl

@[simp] theorem Thread.orFlags_s (t : Thread) (f : BitVec 5) : (t.orFlags f).s = t.s := rfl
@[simp] theorem Thread.orFlags_v (t : Thread) (f : BitVec 5) : (t.orFlags f).v = t.v := rfl
@[simp] theorem Thread.orFlags_p (t : Thread) (f : BitVec 5) : (t.orFlags f).p = t.p := rfl
@[simp] theorem Thread.orFlags_sStamp (t : Thread) (f : BitVec 5) : (t.orFlags f).sStamp = t.sStamp := rfl
@[simp] theorem Thread.orFlags_vStamp (t : Thread) (f : BitVec 5) : (t.orFlags f).vStamp = t.vStamp := rfl
@[simp] theorem Thread.orFlags_pStamp (t : Thread) (f : BitVec 5) : (t.orFlags f).pStamp = t.pStamp := rfl
@[simp] theorem Thread.orFlags_pc (t : Thread) (f : BitVec 5) : (t.orFlags f).pc = t.pc := rfl
@[simp] theorem Thread.orFlags_mode (t : Thread) (f : BitVec 5) : (t.orFlags f).mode = t.mode := rfl
@[simp] theorem Thread.orFlags_wid (t : Thread) (f : BitVec 5) : (t.orFlags f).wid = t.wid := rfl
@[simp] theorem Thread.orFlags_widShape (t : Thread) (f : BitVec 5) : (t.orFlags f).widShape = t.widShape := rfl
@[simp] theorem Thread.orFlags_waitLimit (t : Thread) (f : BitVec 5) : (t.orFlags f).waitLimit = t.waitLimit := rfl
@[simp] theorem Thread.orFlags_heapId (t : Thread) (f : BitVec 5) : (t.orFlags f).heapId = t.heapId := rfl
@[simp] theorem Thread.orFlags_trapCause (t : Thread) (f : BitVec 5) : (t.orFlags f).trapCause = t.trapCause := rfl
@[simp] theorem Thread.orFlags_trapPc (t : Thread) (f : BitVec 5) : (t.orFlags f).trapPc = t.trapPc := rfl
@[simp] theorem Thread.orFlags_trapVal (t : Thread) (f : BitVec 5) : (t.orFlags f).trapVal = t.trapVal := rfl
@[simp] theorem Thread.orFlags_trapFrame (t : Thread) (f : BitVec 5) : (t.orFlags f).trapFrame = t.trapFrame := rfl
@[simp] theorem Thread.orFlags_trapIter (t : Thread) (f : BitVec 5) : (t.orFlags f).trapIter = t.trapIter := rfl
@[simp] theorem Thread.orFlags_trapScratch (t : Thread) (f : BitVec 5) : (t.orFlags f).trapScratch = t.trapScratch := rfl
@[simp] theorem Thread.orFlags_dcause (t : Thread) (f : BitVec 5) : (t.orFlags f).dcause = t.dcause := rfl
@[simp] theorem Thread.orFlags_trapSub (t : Thread) (f : BitVec 5) : (t.orFlags f).trapSub = t.trapSub := rfl
@[simp] theorem Thread.orFlags_trapFrec (t : Thread) (f : BitVec 5) : (t.orFlags f).trapFrec = t.trapFrec := rfl
@[simp] theorem Thread.orFlags_trapKind (t : Thread) (f : BitVec 5) : (t.orFlags f).trapKind = t.trapKind := rfl
@[simp] theorem Thread.orFlags_trapDbl (t : Thread) (f : BitVec 5) : (t.orFlags f).trapDbl = t.trapDbl := rfl
@[simp] theorem Thread.orFlags_trapPost (t : Thread) (f : BitVec 5) : (t.orFlags f).trapPost = t.trapPost := rfl
@[simp] theorem Thread.orFlags_stepctl (t : Thread) (f : BitVec 5) : (t.orFlags f).stepctl = t.stepctl := rfl
@[simp] theorem Thread.orFlags_brk (t : Thread) (f : BitVec 5) : (t.orFlags f).brk = t.brk := rfl
@[simp] theorem Thread.orFlags_halted (t : Thread) (f : BitVec 5) : (t.orFlags f).halted = t.halted := rfl
@[simp] theorem Thread.orFlags_haltAsked (t : Thread) (f : BitVec 5) : (t.orFlags f).haltAsked = t.haltAsked := rfl
@[simp] theorem Thread.orFlags_yielded (t : Thread) (f : BitVec 5) : (t.orFlags f).yielded = t.yielded := rfl
@[simp] theorem Thread.orFlags_packet (t : Thread) (f : BitVec 5) : (t.orFlags f).packet = t.packet := rfl
@[simp] theorem Thread.orFlags_work (t : Thread) (f : BitVec 5) : (t.orFlags f).work = t.work := rfl
@[simp] theorem Thread.orFlags_ctx (t : Thread) (f : BitVec 5) : (t.orFlags f).ctx = t.ctx := rfl
@[simp] theorem Thread.orFlags_wait (t : Thread) (f : BitVec 5) : (t.orFlags f).wait = t.wait := rfl
@[simp] theorem Thread.orFlags_ibuf (t : Thread) (f : BitVec 5) : (t.orFlags f).ibuf = t.ibuf := rfl
@[simp] theorem Thread.orFlags_cmds (t : Thread) (f : BitVec 5) : (t.orFlags f).cmds = t.cmds := rfl
@[simp] theorem Thread.orFlags_peerFail (t : Thread) (f : BitVec 5) : (t.orFlags f).peerFail = t.peerFail := rfl
@[simp] theorem Thread.orFlags_peerDrops (t : Thread) (f : BitVec 5) : (t.orFlags f).peerDrops = t.peerDrops := rfl
@[simp] theorem Thread.orFlags_removed (t : Thread) (f : BitVec 5) : (t.orFlags f).removed = t.removed := rfl
@[simp] theorem Thread.endSkip_s (t : Thread) : t.endSkip.s = t.s := by
  unfold Thread.endSkip Thread.clearSkip; split <;> rfl
@[simp] theorem Thread.endSkip_v (t : Thread) : t.endSkip.v = t.v := by
  unfold Thread.endSkip Thread.clearSkip; split <;> rfl
@[simp] theorem Thread.endSkip_p (t : Thread) : t.endSkip.p = t.p := by
  unfold Thread.endSkip Thread.clearSkip; split <;> rfl
@[simp] theorem Thread.endSkip_sStamp (t : Thread) : t.endSkip.sStamp = t.sStamp := by
  unfold Thread.endSkip Thread.clearSkip; split <;> rfl
@[simp] theorem Thread.endSkip_vStamp (t : Thread) : t.endSkip.vStamp = t.vStamp := by
  unfold Thread.endSkip Thread.clearSkip; split <;> rfl
@[simp] theorem Thread.endSkip_pStamp (t : Thread) : t.endSkip.pStamp = t.pStamp := by
  unfold Thread.endSkip Thread.clearSkip; split <;> rfl
@[simp] theorem Thread.endSkip_pc (t : Thread) : t.endSkip.pc = t.pc := by
  unfold Thread.endSkip Thread.clearSkip; split <;> rfl
@[simp] theorem Thread.endSkip_mode (t : Thread) : t.endSkip.mode = t.mode := by
  unfold Thread.endSkip Thread.clearSkip; split <;> rfl
@[simp] theorem Thread.endSkip_fctl (t : Thread) : t.endSkip.fctl = t.fctl := by
  unfold Thread.endSkip Thread.clearSkip; split <;> rfl
@[simp] theorem Thread.endSkip_wid (t : Thread) : t.endSkip.wid = t.wid := by
  unfold Thread.endSkip Thread.clearSkip; split <;> rfl
@[simp] theorem Thread.endSkip_widShape (t : Thread) : t.endSkip.widShape = t.widShape := by
  unfold Thread.endSkip Thread.clearSkip; split <;> rfl
@[simp] theorem Thread.endSkip_waitLimit (t : Thread) : t.endSkip.waitLimit = t.waitLimit := by
  unfold Thread.endSkip Thread.clearSkip; split <;> rfl
@[simp] theorem Thread.endSkip_heapId (t : Thread) : t.endSkip.heapId = t.heapId := by
  unfold Thread.endSkip Thread.clearSkip; split <;> rfl
@[simp] theorem Thread.endSkip_trapCause (t : Thread) : t.endSkip.trapCause = t.trapCause := by
  unfold Thread.endSkip Thread.clearSkip; split <;> rfl
@[simp] theorem Thread.endSkip_trapPc (t : Thread) : t.endSkip.trapPc = t.trapPc := by
  unfold Thread.endSkip Thread.clearSkip; split <;> rfl
@[simp] theorem Thread.endSkip_trapVal (t : Thread) : t.endSkip.trapVal = t.trapVal := by
  unfold Thread.endSkip Thread.clearSkip; split <;> rfl
@[simp] theorem Thread.endSkip_trapFrame (t : Thread) : t.endSkip.trapFrame = t.trapFrame := by
  unfold Thread.endSkip Thread.clearSkip; split <;> rfl
@[simp] theorem Thread.endSkip_trapIter (t : Thread) : t.endSkip.trapIter = t.trapIter := by
  unfold Thread.endSkip Thread.clearSkip; split <;> rfl
@[simp] theorem Thread.endSkip_trapScratch (t : Thread) : t.endSkip.trapScratch = t.trapScratch := by
  unfold Thread.endSkip Thread.clearSkip; split <;> rfl
@[simp] theorem Thread.endSkip_dcause (t : Thread) : t.endSkip.dcause = t.dcause := by
  unfold Thread.endSkip Thread.clearSkip; split <;> rfl
@[simp] theorem Thread.endSkip_trapSub (t : Thread) : t.endSkip.trapSub = t.trapSub := by
  unfold Thread.endSkip Thread.clearSkip; split <;> rfl
@[simp] theorem Thread.endSkip_trapFrec (t : Thread) : t.endSkip.trapFrec = t.trapFrec := by
  unfold Thread.endSkip Thread.clearSkip; split <;> rfl
@[simp] theorem Thread.endSkip_trapKind (t : Thread) : t.endSkip.trapKind = t.trapKind := by
  unfold Thread.endSkip Thread.clearSkip; split <;> rfl
@[simp] theorem Thread.endSkip_trapDbl (t : Thread) : t.endSkip.trapDbl = t.trapDbl := by
  unfold Thread.endSkip Thread.clearSkip; split <;> rfl
@[simp] theorem Thread.endSkip_trapPost (t : Thread) : t.endSkip.trapPost = t.trapPost := by
  unfold Thread.endSkip Thread.clearSkip; split <;> rfl
@[simp] theorem Thread.endSkip_brk (t : Thread) : t.endSkip.brk = t.brk := by
  unfold Thread.endSkip Thread.clearSkip; split <;> rfl
@[simp] theorem Thread.endSkip_halted (t : Thread) : t.endSkip.halted = t.halted := by
  unfold Thread.endSkip Thread.clearSkip; split <;> rfl
@[simp] theorem Thread.endSkip_haltAsked (t : Thread) : t.endSkip.haltAsked = t.haltAsked := by
  unfold Thread.endSkip Thread.clearSkip; split <;> rfl
@[simp] theorem Thread.endSkip_yielded (t : Thread) : t.endSkip.yielded = t.yielded := by
  unfold Thread.endSkip Thread.clearSkip; split <;> rfl
@[simp] theorem Thread.endSkip_packet (t : Thread) : t.endSkip.packet = t.packet := by
  unfold Thread.endSkip Thread.clearSkip; split <;> rfl
@[simp] theorem Thread.endSkip_work (t : Thread) : t.endSkip.work = t.work := by
  unfold Thread.endSkip Thread.clearSkip; split <;> rfl
@[simp] theorem Thread.endSkip_ctx (t : Thread) : t.endSkip.ctx = t.ctx := by
  unfold Thread.endSkip Thread.clearSkip; split <;> rfl
@[simp] theorem Thread.endSkip_wait (t : Thread) : t.endSkip.wait = t.wait := by
  unfold Thread.endSkip Thread.clearSkip; split <;> rfl
@[simp] theorem Thread.endSkip_ibuf (t : Thread) : t.endSkip.ibuf = t.ibuf := by
  unfold Thread.endSkip Thread.clearSkip; split <;> rfl
@[simp] theorem Thread.endSkip_cmds (t : Thread) : t.endSkip.cmds = t.cmds := by
  unfold Thread.endSkip Thread.clearSkip; split <;> rfl
@[simp] theorem Thread.endSkip_peerFail (t : Thread) : t.endSkip.peerFail = t.peerFail := by
  unfold Thread.endSkip Thread.clearSkip; split <;> rfl
@[simp] theorem Thread.endSkip_peerDrops (t : Thread) : t.endSkip.peerDrops = t.peerDrops := by
  unfold Thread.endSkip Thread.clearSkip; split <;> rfl
@[simp] theorem Thread.endSkip_removed (t : Thread) : t.endSkip.removed = t.removed := by
  unfold Thread.endSkip Thread.clearSkip; split <;> rfl

end Sys2Proof.Machine
end

