-- ==== Sys2Proof/Laws/Tables.lean ====
section
/-! SUPPORT. Tables and memory: a read after a write, the canonical form, and the same of every part of the state. -/

namespace Sys2Proof.Machine

section tables

variable {α : Type} (d : α)

@[simp] theorem tget_nil (k : Nat) : tget d [] k = d := rfl

theorem tget_terase (t : Table α) (k j : Nat) : tget d (terase t k) j = if j = k then d else tget d t j := by
  fun_induction terase t k <;> grind [tget]

theorem tget_tput (t : Table α) (k j : Nat) (v : α) : tget d (tput t k v) j = if j = k then v else tget d t j := by
  fun_induction tput t k v <;> grind [tget]

/-- A read after a write: the value written at its key, what was there at every other. -/
@[simp] theorem tget_tset [DecidableEq α] (t : Table α) (k j : Nat) (v : α) :
    tget d (tset d t k v) j = if j = k then v else tget d t j := by
  unfold tset
  split
  · rw [tget_terase]; grind
  · rw [tget_tput]

theorem tsorted_mono {lo lo' : Nat} (t : Table α) (h : lo ≤ lo') (w : tsorted lo' t = true) : tsorted lo t = true := by
  cases t <;> grind [tsorted]

theorem tsorted_terase (t : Table α) (lo k : Nat) (w : tsorted lo t = true) : tsorted lo (terase t k) = true := by
  induction t generalizing lo with
  | nil => rfl
  | cons e t ih =>
    simp only [tsorted, Bool.and_eq_true, decide_eq_true_eq] at w
    unfold terase
    split
    · exact tsorted_mono _ (by omega) (ih _ w.2)
    · simp [tsorted, w.1, ih _ w.2]

theorem tsorted_tput (t : Table α) (lo k : Nat) (v : α) (h : lo ≤ k) (w : tsorted lo t = true) :
    tsorted lo (tput t k v) = true := by
  fun_induction tput t k v generalizing lo <;> grind [tsorted, tsorted_mono]

theorem all_terase (p : Nat × α → Bool) (t : Table α) (k : Nat) (w : t.all p = true) : (terase t k).all p = true := by
  fun_induction terase t k <;> simp_all

theorem all_tput (p : Nat × α → Bool) (t : Table α) (k : Nat) (v : α) (h : p (k, v) = true) (w : t.all p = true) :
    (tput t k v).all p = true := by
  fun_induction tput t k v <;> simp_all

/-- A write keeps the canonical form of a table. -/
theorem twf_tset [DecidableEq α] (t : Table α) (k : Nat) (v : α) (w : twf d t = true) : twf d (tset d t k v) = true := by
  simp only [twf, Bool.and_eq_true] at w ⊢
  unfold tset
  split
  · exact ⟨tsorted_terase t 0 k w.1, all_terase _ t k w.2⟩
  · exact ⟨tsorted_tput t 0 k v (Nat.zero_le k) w.1, all_tput _ t k v (by simpa using ‹¬v = d›) w.2⟩

theorem tsorted_filter (p : Nat × α → Bool) (t : Table α) (lo : Nat) (w : tsorted lo t = true) :
    tsorted lo (t.filter p) = true := by
  induction t generalizing lo with
  | nil => rfl
  | cons e t ih =>
    simp only [tsorted, Bool.and_eq_true, decide_eq_true_eq] at w
    by_cases h : p e = true
    · simp [h, tsorted, w.1, ih _ w.2]
    · simp only [List.filter_cons, h]
      exact tsorted_mono _ (by omega) (ih _ w.2)

/-- Keeping only some entries keeps the canonical form of a table. -/
theorem twf_filter [DecidableEq α] (p : Nat × α → Bool) (t : Table α) (w : twf d t = true) : twf d (t.filter p) = true := by
  simp only [twf, Bool.and_eq_true, List.all_eq_true] at w ⊢
  exact ⟨tsorted_filter p t 0 w.1, fun e he => w.2 e (List.mem_filter.mp he).1⟩

end tables

/-! Memory. -/

/-- A read of one byte after a write of one byte. -/
@[simp] theorem byteAt_setByte (m : List Host.Cell) (k j : Nat) (b : Byte) :
    byteAt (setByte m k b) j = if j = k then b else byteAt m j := tget_tset 0 m k j b

theorem setByte_wf (m : List Host.Cell) (k : Nat) (b : Byte) (w : Memory.wf m = true) : Memory.wf (setByte m k b) = true :=
  twf_tset 0 m k b w

theorem setBytes_wf (m : List Host.Cell) (k : Nat) (bs : List Byte) (w : Memory.wf m = true) :
    Memory.wf (setBytes m k bs) = true := by
  fun_induction setBytes m k bs with
  | case1 => exact w
  | case2 m k b bs ih => exact ih (setByte_wf m k b w)

theorem setCells_wf (m cs : List Host.Cell) (w : Memory.wf m = true) : Memory.wf (setCells m cs) = true := by
  fun_induction setCells m cs with
  | case1 => exact w
  | case2 m k b cs ih => exact ih (setByte_wf m k b w)

theorem filter_wf (m : List Host.Cell) (p : Host.Cell → Bool) (w : Memory.wf m = true) : Memory.wf (m.filter p) = true :=
  twf_filter 0 p m w

/-- A write of n bytes leaves every byte outside them. -/
theorem byteAt_setBytes_outside (m : List Host.Cell) (k j : Nat) (bs : List Byte) (h : j < k ∨ k + bs.length ≤ j) :
    byteAt (setBytes m k bs) j = byteAt m j := by
  fun_induction setBytes m k bs with
  | case1 => rfl
  | case2 m k b bs ih =>
    rw [ih (by simp at h; omega), byteAt_setByte, if_neg (by simp at h; omega)]

/-- A write of n bytes puts each at its place. -/
theorem byteAt_setBytes_inside (m : List Host.Cell) (k i : Nat) (bs : List Byte) (h : i < bs.length) :
    byteAt (setBytes m k bs) (k + i) = bs[i] := by
  fun_induction setBytes m k bs generalizing i with
  | case1 => simp at h
  | case2 m k b bs ih =>
    cases i with
    | zero => simp [byteAt_setBytes_outside]
    | succ i => simpa [Nat.add_assoc, Nat.add_comm 1 i] using ih i (by simpa using h)

@[simp] theorem leBytes_length (n x : Nat) : (leBytes n x).length = n := by
  induction n generalizing x <;> simp_all [leBytes]

@[simp] theorem bytesAt_length (m : List Host.Cell) (k n : Nat) : (bytesAt m k n).length = n := by
  induction n generalizing k <;> simp_all [bytesAt]

/-- The bytes of a number read back as it, modulo their width (R3). -/
theorem leNat_leBytes (n x : Nat) : leNat (leBytes n x) = x % 256 ^ n := by
  induction n generalizing x with
  | zero => simp [leBytes, leNat, Nat.mod_one]
  | succ n ih => simp [leBytes, leNat, ih, Nat.pow_succ', Nat.mod_mul]

/-! What is read back after an update of one part of the state. -/

@[simp] theorem State.thr_setThr (s : State) (n m : Nat) (t : Thread) :
    (s.setThr n t).thr m = if m = n then t else s.thr m := tget_tset _ _ _ _ _
@[simp] theorem State.core_setCore (s : State) (n m : Nat) (x : Core) :
    (s.setCore n x).core m = if m = n then x else s.core m := tget_tset _ _ _ _ _
@[simp] theorem State.quire_setQuire (s : State) (n m : Nat) (x : Quire) :
    (s.setQuire n x).quire m = if m = n then x else s.quire m := tget_tset _ _ _ _ _
@[simp] theorem State.ctx_setCtx (s : State) (n m : Nat) (x : Ctx) :
    (s.setCtx n x).ctx m = if m = n then x else s.ctx m := tget_tset _ _ _ _ _
@[simp] theorem State.setTh_cur (s : State) (t : Thread) : (s.setTh t).cur = s.cur := rfl
@[simp] theorem State.setTh_mem (s : State) (t : Thread) : (s.setTh t).mem = s.mem := rfl
@[simp] theorem State.setTh_ctxs (s : State) (t : Thread) : (s.setTh t).ctxs = s.ctxs := rfl
@[simp] theorem State.thr_setTh (s : State) (m : Nat) (t : Thread) :
    (s.setTh t).thr m = if m = s.cur then t else s.thr m := State.thr_setThr s s.cur m t
@[simp] theorem State.th_setTh (s : State) (t : Thread) : (s.setTh t).th = t := by simp [State.th]
@[simp] theorem State.ctx_setThr (s : State) (n c : Nat) (t : Thread) : (s.setThr n t).ctx c = s.ctx c := rfl
@[simp] theorem State.ctx_setTh (s : State) (c : Nat) (t : Thread) : (s.setTh t).ctx c = s.ctx c := rfl
@[simp] theorem State.setTh_threads_only (s : State) (t : Thread) (ts : Table Thread) :
    { s.setTh t with threads := ts } = { s with threads := ts } := rfl
@[simp] theorem State.setThr_threads_only (s : State) (n : Nat) (t : Thread) (ts : Table Thread) :
    { s.setThr n t with threads := ts } = { s with threads := ts } := rfl

end Sys2Proof.Machine
end

