-- ==== Sys2Proof/Laws/Complete.lean ====
section
/-! SUPPORT. What completing, jumping, trapping and waiting do to the issuing thread, said once for every instruction. -/

namespace Sys2Proof

open Machine

/-! The steps of an instruction's own effect, in its do blocks. -/

theorem ok_bind {ε α β : Type} (a : α) (f : α → Except ε β) : ((Except.ok a : Except ε α) >>= f) = f a := rfl

theorem error_bind {ε α β : Type} (e : ε) (f : α → Except ε β) : ((Except.error e : Except ε α) >>= f) = .error e := rfl

theorem trapV_bind {α β : Type} (c : Nat) (v : Word) (f : α → Except Stop β) : ((trapV c v : Except Stop α) >>= f) = trapV c v := rfl

theorem block_bind {α β : Type} (f : α → Except Stop β) : ((block : Except Stop α) >>= f) = block := rfl

theorem need_true (n : Nat) (v : Word) : need true n v = .ok () := rfl

theorem need_false (n : Nat) (v : Word) : need false n v = trapV n v := rfl

theorem needOrWait_true : needOrWait true = .ok () := rfl

theorem needOrWait_false : needOrWait false = block := rfl

/-- The mode and the stepping of the issuing thread are all that Quiet reads. -/
theorem quiet_of {s t : State} (h : Quiet s) (hm : t.th.mode = s.th.mode) (hs : t.th.stepctl = s.th.stepctl) : Quiet t := by
  simpa [Quiet, Thread.stepping, hm, hs] using h

/-- The mode and the stepping of a thread are what Quiet reads. -/
theorem quiet_setTh {s : State} {x : Thread} (h : Quiet s) (hm : x.mode = s.th.mode) (hs : x.stepctl = s.th.stepctl) :
    Quiet (s.setTh x) := by
  simpa [Quiet, Thread.stepping, hm, hs] using h

theorem onlyThread_setTh (s : State) (x : Thread) : OnlyThread s (s.setTh x) x :=
  ⟨rfl, fun n => State.thr_setTh s n x⟩

/-- A second update of the issuing thread hides the first. -/
theorem onlyThread_setTh_setTh (s : State) (x y : Thread) : OnlyThread s ((s.setTh x).setTh y) y :=
  ⟨rfl, fun n => by by_cases h : n = s.cur <;> simp [h]⟩

/-- An update of a thread that is the only change leaves it the only change. -/
theorem OnlyThread.setTh {s t : State} {x : Thread} (h : OnlyThread s t x) (y : Thread) : OnlyThread s (t.setTh y) y := by
  have hc : t.cur = s.cur := by rw [h.1]
  refine ⟨by rw [h.1]; rfl, fun n => ?_⟩
  rw [State.thr_setTh, hc, h.2]
  split <;> simp_all

/-- The mode and stepping of the thread as it stands after an instruction without a step trap. -/
theorem afterStep_quiet (s : State) (was : Mode) (h : was = .supervisor ∨ s.th.stepping = false) : s.afterStep s.cur was = s := by
  unfold State.afterStep
  obtain h | h := h
  · simp [h]
  · have : (s.thr s.cur).stepping = false := h
    simp [this]

theorem stepping_endSkip (t : Thread) : t.endSkip.stepping = t.stepping := by
  unfold Thread.endSkip Thread.clearSkip Thread.stepping
  split
  · simp only [BitVec.getLsbD_and]
    simp
  · rfl

/-- A thread that has moved on steps as it did. -/
theorem stepping_moved (t : Thread) (pc : Word) : (moved t pc).stepping = t.stepping := stepping_endSkip t

/-- An instruction that completes without a step trap moves its thread on and nothing else. -/
theorem retire_eq (s : State) (h : Quiet s) (n : Nat) :
    s.retire n = s.setTh (moved s.th (s.th.pc + BitVec.ofNat 64 (4 * n))) :=
  afterStep_quiet (s.setTh (moved s.th (s.th.pc + BitVec.ofNat 64 (4 * n)))) s.th.mode
    (by rw [State.th_setTh, stepping_moved]; exact h)

theorem jump_eq (s : State) (h : Quiet s) (target : Word) : s.jump target = s.setTh (moved s.th target) :=
  afterStep_quiet (s.setTh (moved s.th target)) s.th.mode (by rw [State.th_setTh, stepping_moved]; exact h)

/-- A register instruction whose own effect leaves the thread x completes with x moved on by n words. -/
theorem completes_retire {i : Instr} {s : State} {x : Thread} {n : Nat} (h : Quiet s) (hm : x.mode = s.th.mode)
    (hs : x.stepctl = s.th.stepctl) (hp : x.pc = s.th.pc) (he : exec i s = finish s (.ok ((s.setTh x).retire n))) :
    Completes i s x (s.th.pc + BitVec.ofNat 64 (4 * n)) := by
  refine ⟨_, by rw [he]; rfl, ?_⟩
  rw [retire_eq _ (quiet_setTh h hm hs), State.th_setTh, hp]
  exact onlyThread_setTh_setTh s x _

theorem completes_jump {i : Instr} {s : State} {x : Thread} {target : Word} (h : Quiet s) (hm : x.mode = s.th.mode)
    (hs : x.stepctl = s.th.stepctl) (he : exec i s = finish s (.ok ((s.setTh x).jump target))) :
    Completes i s x target := by
  refine ⟨_, by rw [he]; rfl, ?_⟩
  rw [jump_eq _ (quiet_setTh h hm hs), State.th_setTh]
  exact onlyThread_setTh_setTh s x _

/-- A precise trap changes the issuing thread and nothing else. -/
theorem traps_of {i : Instr} {s : State} {cause : Nat} {val : Word} (he : exec i s = finish s (trapV cause val)) :
    Traps i s cause val := by
  refine ⟨_, by rw [he]; rfl, ?_⟩
  exact onlyThread_setTh s _

end Sys2Proof
end

