-- ==== Sys2Proof/Laws/Delivery.lean ====
section
/-! SUPPORT. What the coherence protocol and the write buffers can change, said once for every access of memory. -/

namespace Sys2Proof.Machine

/-- t is s with nothing changed but the directory, the grains, the caches of the fabric and the marks of poison. -/
def OnlyCaches (s t : State) : Prop :=
  t = { s with units := t.units, grains := t.grains, ftiles := t.ftiles, poison := t.poison }

theorem OnlyCaches.refl (s : State) : OnlyCaches s s := rfl

theorem OnlyCaches.trans {s t u : State} (h : OnlyCaches s t) (k : OnlyCaches t u) : OnlyCaches s u := by
  unfold OnlyCaches at *
  generalize t.units = un, t.grains = gr, t.ftiles = ft, t.poison = po at h
  subst h
  exact k

theorem OnlyCaches.mem {s t : State} (h : OnlyCaches s t) : t.mem = s.mem := by rw [h]
theorem OnlyCaches.threads {s t : State} (h : OnlyCaches s t) : t.threads = s.threads := by rw [h]
theorem OnlyCaches.cores {s t : State} (h : OnlyCaches s t) : t.cores = s.cores := by rw [h]
theorem OnlyCaches.cur {s t : State} (h : OnlyCaches s t) : t.cur = s.cur := by rw [h]

theorem onlyCaches_setCunit (s : State) (u : Nat) (x : CUnit) : OnlyCaches s (s.setCunit u x) := rfl

/-- A fold of steps each of which only changes the caches only changes them. -/
theorem onlyCaches_foldl {α : Type} (f : State → α → State) (h : ∀ s a, OnlyCaches s (f s a)) (l : List α) (s : State) :
    OnlyCaches s (l.foldl f s) := by
  induction l generalizing s with
  | nil => exact .refl s
  | cons a l ih => exact (h s a).trans (ih (f s a))

/-- t is s with nothing changed but the directory, the grains and the caches of the fabric. -/
def OnlyDirectory (s t : State) : Prop := t = { s with units := t.units, grains := t.grains, ftiles := t.ftiles }

theorem OnlyDirectory.refl (s : State) : OnlyDirectory s s := rfl

theorem OnlyDirectory.trans {s t u : State} (h : OnlyDirectory s t) (k : OnlyDirectory t u) : OnlyDirectory s u := by
  unfold OnlyDirectory at *
  generalize t.units = un, t.grains = gr, t.ftiles = ft at h
  subst h
  exact k

theorem OnlyDirectory.poison {s t : State} (h : OnlyDirectory s t) : t.poison = s.poison := by rw [h]
theorem OnlyDirectory.onlyCaches {s t : State} (h : OnlyDirectory s t) : OnlyCaches s t := by
  unfold OnlyDirectory at h
  generalize t.units = un, t.grains = gr, t.ftiles = ft at h
  subst h
  rfl

theorem onlyDirectory_setCunit (s : State) (u : Nat) (x : CUnit) : OnlyDirectory s (s.setCunit u x) := rfl

/-- A fold of steps each of which only changes the directory only changes it. -/
theorem onlyDirectory_foldl {α : Type} (f : State → α → State) (h : ∀ s a, OnlyDirectory s (f s a)) (l : List α) (s : State) :
    OnlyDirectory s (l.foldl f s) := by
  induction l generalizing s with
  | nil => exact .refl s
  | cons a l ih => exact (h s a).trans (ih (f s a))

theorem onlyDirectory_dropCopy (s : State) (u c : Nat) : OnlyDirectory s (s.dropCopy u c) := by
  simp only [State.dropCopy]
  split <;> rfl

theorem onlyDirectory_answer (s : State) (c u : Nat) (m : HomeMsg) : OnlyDirectory s (s.answer c u m) := by
  unfold State.answer
  cases m with
  | inv => exact (onlyDirectory_setCunit s u _).trans (onlyDirectory_dropCopy _ u c)
  | fwdGetM => exact onlyDirectory_setCunit s u _
  | fwdGetS => simp only; split <;> exact onlyDirectory_setCunit s u _

theorem onlyDirectory_grant (s : State) (u : Nat) : OnlyDirectory s (s.grant u) := by
  simp only [State.grant]
  repeat' split
  all_goals first | exact .refl s | exact onlyDirectory_setCunit s u _

theorem onlyDirectory_settle (s : State) (u : Nat) : OnlyDirectory s (s.settle u) :=
  (onlyDirectory_foldl (fun s (m : Nat × HomeMsg) => s.answer m.1 u m.2) (fun s m => onlyDirectory_answer s m.1 u m.2) _ s).trans (onlyDirectory_grant _ u)

theorem onlyDirectory_recallUnit (s : State) (u : Nat) : OnlyDirectory s (s.recallUnit u) :=
  ((onlyDirectory_settle s u).trans (onlyDirectory_foldl _ (fun s c => onlyDirectory_dropCopy s u c) _ _)).trans (onlyDirectory_setCunit _ u _)

theorem onlyDirectory_hostGiveUp (s : State) (u : Nat) : OnlyDirectory s (s.hostGiveUp u) := onlyDirectory_setCunit s u _

theorem onlyDirectory_recallLine (s : State) (line : Nat) : OnlyDirectory s (s.recallLine line) :=
  (onlyDirectory_foldl _ (fun s u => (onlyDirectory_recallUnit s u).trans (onlyDirectory_hostGiveUp _ u)) (s.unitsOfLine line) s).trans rfl

theorem onlyCaches_grant (s : State) (u : Nat) : OnlyCaches s (s.grant u) := (onlyDirectory_grant s u).onlyCaches
theorem onlyCaches_settle (s : State) (u : Nat) : OnlyCaches s (s.settle u) := (onlyDirectory_settle s u).onlyCaches
theorem onlyCaches_recallUnit (s : State) (u : Nat) : OnlyCaches s (s.recallUnit u) := (onlyDirectory_recallUnit s u).onlyCaches
theorem onlyCaches_recallLine (s : State) (line : Nat) : OnlyCaches s (s.recallLine line) :=
  (onlyDirectory_recallLine s line).onlyCaches

theorem onlyCaches_hostObtain (s : State) (u : Nat) (own : Bool) : OnlyCaches s (s.hostObtain u own) := by
  simp only [State.hostObtain]
  split
  · exact onlyCaches_setCunit s u _
  · exact .refl s

theorem onlyCaches_adoptGrain (s : State) (line g : Nat) : OnlyCaches s (s.adoptGrain line g) := by
  simp only [State.adoptGrain]
  split
  · exact .refl s
  · split
    · rfl
    · exact (onlyCaches_recallLine s line).trans rfl

theorem onlyCaches_homeGetS (s : State) (r u : Nat) : OnlyCaches s (s.homeGetS r u) := by
  simp only [State.homeGetS]
  have h := onlyCaches_hostObtain s u ((s.cunit u).dir == .u && r < 16)
  repeat' split
  all_goals exact h.trans (onlyCaches_setCunit _ u _)

theorem onlyCaches_homeGetM (s : State) (r u : Nat) : OnlyCaches s (s.homeGetM r u) :=
  (onlyCaches_hostObtain s u true).trans ((onlyCaches_setCunit _ u _).trans (onlyCaches_grant _ u))

theorem onlyCaches_homePut (s : State) (r u : Nat) : OnlyCaches s (s.homePut r u) := by
  simp only [State.homePut]
  repeat' split
  all_goals exact onlyCaches_setCunit s u _

theorem onlyCaches_flushPut (s : State) (r u : Nat) : OnlyCaches s (s.flushPut r u) := by
  unfold State.flushPut
  split
  · exact .refl s
  · exact onlyCaches_homePut s r u

/-- A request for every sector of a span changes the caches alone where the request for each does. -/
theorem onlyCaches_overSectors (f : State → Nat → State) (h : ∀ s a, OnlyCaches s (f s a)) (s : State) (pa n : Nat) :
    OnlyCaches s (s.overSectors f pa n) := onlyCaches_foldl f h _ s

/-- What a cache's request for a unit does before the directory answers. -/
theorem onlyCaches_ask (s : State) (q u line g : Nat) : OnlyCaches s (((s.adoptGrain line g).settle u).flushPut q u) :=
  (onlyCaches_adoptGrain s line g).trans ((onlyCaches_settle _ u).trans (onlyCaches_flushPut _ q u))

/-- A read of a cache changes the caches alone (R163, R164). -/
theorem onlyCaches_loadUnit (s : State) (q g pa : Nat) : OnlyCaches s (s.loadUnit q g pa) := by
  simp only [State.loadUnit]
  split
  · exact (onlyCaches_ask s q _ _ g).trans ((onlyCaches_homeGetS _ q _).trans (onlyCaches_settle _ _))
  all_goals exact onlyCaches_ask s q _ _ g

theorem onlyCaches_cohLoad (s : State) (q pa n g : Nat) : OnlyCaches s (s.cohLoad q pa n g) :=
  onlyCaches_overSectors _ (fun s a => onlyCaches_loadUnit s q g a) s pa n

/-- A write of a cache changes the caches alone (R163). -/
theorem onlyCaches_storeUnit (s : State) (q g pa : Nat) : OnlyCaches s (s.storeUnit q g pa) := by
  simp only [State.storeUnit]
  split
  · exact onlyCaches_ask s q _ _ g
  · exact (onlyCaches_ask s q _ _ g).trans (onlyCaches_setCunit _ _ _)
  all_goals exact (onlyCaches_ask s q _ _ g).trans ((onlyCaches_homeGetM _ q _).trans (onlyCaches_settle _ _))

theorem onlyCaches_cohStore (s : State) (q pa n g : Nat) : OnlyCaches s (s.cohStore q pa n g) :=
  onlyCaches_overSectors _ (fun s a => onlyCaches_storeUnit s q g a) s pa n

/-- An atomic at the home changes the caches alone (R166). -/
theorem onlyCaches_atomicUnit (s : State) (g pa : Nat) : OnlyCaches s (s.atomicUnit g pa) :=
  (onlyCaches_adoptGrain s _ g).trans ((onlyCaches_recallUnit _ _).trans (onlyCaches_hostObtain _ _ true))

theorem onlyCaches_cohAtomic (s : State) (pa n g : Nat) : OnlyCaches s (s.cohAtomic pa n g) :=
  onlyCaches_overSectors _ (fun s a => onlyCaches_atomicUnit s g a) s pa n

theorem onlyCaches_writeUnit (s : State) (g pa : Nat) : OnlyCaches s (s.writeUnit g pa) :=
  (onlyCaches_atomicUnit s g pa).trans (onlyCaches_setCunit _ _ _)

theorem onlyCaches_cohWrite (s : State) (pa n g : Nat) : OnlyCaches s (s.cohWrite pa n g) :=
  onlyCaches_overSectors _ (fun s a => onlyCaches_writeUnit s g a) s pa n

/-- A request of an access at its home changes the caches alone (R161). -/
theorem onlyCaches_request (s : State) (site : Site) : OnlyCaches s (s.request site) := by
  unfold State.request
  split
  · exact onlyCaches_adoptGrain s _ _
  · exact .refl s

/-- Where nothing is poisoned a request poisons nothing (R168). -/
theorem poison_request (s : State) (site : Site) (h : s.poison = []) : (s.request site).poison = [] := by
  unfold State.request State.adoptGrain
  repeat' split
  all_goals first | exact h | simp [State.spreadPoison, (onlyDirectory_recallLine s _).poison, h]

theorem onlyCaches_cohFabric (s : State) (f pa g : Nat) : OnlyCaches s (s.cohFabric f pa g) :=
  (onlyCaches_adoptGrain s _ g).trans ((onlyCaches_settle _ _).trans ((onlyCaches_homeGetS _ _ _).trans (onlyCaches_settle _ _)))

/-! The write buffer. -/

/-- A thread with other counts of failed stores to peers, and nothing else other. -/
def SameBut (x y : Thread) : Prop := y = { x with peerFail := y.peerFail, peerDrops := y.peerDrops }

theorem SameBut.refl (x : Thread) : SameBut x x := rfl
theorem SameBut.trans {x y z : Thread} (h : SameBut x y) (k : SameBut y z) : SameBut x z := by
  unfold SameBut at *
  rw [k, h]
theorem SameBut.rs {x y : Thread} (h : SameBut x y) (r : SReg) : y.rs r = x.rs r := by rw [h]; rfl
theorem SameBut.mode {x y : Thread} (h : SameBut x y) : y.mode = x.mode := by rw [h]
theorem SameBut.stepctl {x y : Thread} (h : SameBut x y) : y.stepctl = x.stepctl := by rw [h]
theorem SameBut.pc {x y : Thread} (h : SameBut x y) : y.pc = x.pc := by rw [h]
theorem SameBut.wait {x y : Thread} (h : SameBut x y) : y.wait = x.wait := by rw [h]
theorem SameBut.ctx {x y : Thread} (h : SameBut x y) : y.ctx = x.ctx := by rw [h]
theorem SameBut.work {x y : Thread} (h : SameBut x y) : y.work = x.work := by rw [h]

/-- What performing stores can change: memory, the caches, the monitors and watched waits that a write hits, and the counts of failed
stores. -/
structure Performed (s t : State) : Prop where
  only : t = { s with mem := t.mem, threads := t.threads, units := t.units, grains := t.grains, ftiles := t.ftiles, poison := t.poison, monitors := t.monitors, watches := t.watches }
  thr  : ∀ n, SameBut (s.thr n) (t.thr n)

theorem Performed.refl (s : State) : Performed s s := ⟨rfl, fun _ => .refl _⟩
theorem Performed.trans {s t u : State} (h : Performed s t) (k : Performed t u) : Performed s u :=
  ⟨by
    have a := h.only
    have b := k.only
    generalize t.mem = m, t.threads = th, t.units = un, t.grains = gr, t.ftiles = ft, t.poison = po, t.monitors = mo, t.watches = wa at a
    subst a
    exact b, fun n => (h.thr n).trans (k.thr n)⟩
theorem OnlyCaches.performed {s t : State} (h : OnlyCaches s t) : Performed s t :=
  ⟨by rw [h], fun n => by rw [h]; exact .refl _⟩

theorem performed_peerDrop (s : State) (e : Pending) : Performed s (s.peerDrop e) := by
  refine ⟨rfl, fun n => ?_⟩
  simp only [State.peerDrop, State.countDrop, State.thr_setThr]
  split
  · subst n; rfl
  · rfl

/-- A write at its site changes memory, the marks of poison and the monitors it hits (R65, R168). -/
theorem performed_writeCells (s : State) (cells : List Host.Cell) : Performed s (s.writeCells cells) := by
  unfold State.writeCells State.touch
  split <;> exact ⟨rfl, fun _ => .refl _⟩

/-- A store that is performed (R160, R163, R175). -/
theorem performed_performStore (s : State) (q : Nat) (e : Pending) : Performed s (s.performStore q e) := by
  unfold State.performStore
  split
  · exact .refl s
  · split
    · exact performed_peerDrop s e
    · simp only
      have k : ∀ t : State, OnlyCaches s t → Performed s (t.writeCells e.cells) :=
        fun t h => h.performed.trans (performed_writeCells t e.cells)
      apply k
      repeat' split
      all_goals with_reducible first | apply onlyCaches_cohWrite | apply onlyCaches_cohStore | exact OnlyCaches.refl s

theorem performed_foldl (f : State → Pending → State) (h : ∀ s a, Performed s (f s a)) (l : List Pending) (s : State) :
    Performed s (l.foldl f s) := by
  induction l generalizing s with
  | nil => exact .refl s
  | cons a l ih => exact (h s a).trans (ih (f s a))

/-- What a delivery of buffered stores can change: beside what performing them changes, the buffers and L1 copies of cores, which
only lose entries, and the pins of joint operands that come before them (R122). -/
structure Delivered (s t : State) : Prop where
  only : t = { s with mem := t.mem, threads := t.threads, cores := t.cores, units := t.units, grains := t.grains, ftiles := t.ftiles, poison := t.poison, monitors := t.monitors, watches := t.watches, arrays := t.arrays }
  thr  : ∀ n, SameBut (s.thr n) (t.thr n)
  core : ∀ k, t.core k = { s.core k with wbuf := (t.core k).wbuf, l1 := (t.core k).l1 }
  wbuf : ∀ k, (t.core k).wbuf.Sublist (s.core k).wbuf
  l1   : ∀ k, (t.core k).l1.Sublist (s.core k).l1

theorem Delivered.refl (s : State) : Delivered s s := ⟨rfl, fun _ => .refl _, fun _ => rfl, fun _ => .refl _, fun _ => .refl _⟩

theorem Delivered.trans {s t u : State} (h : Delivered s t) (k : Delivered t u) : Delivered s u :=
  ⟨by
    have a := h.only
    have b := k.only
    generalize t.mem = m, t.threads = th, t.cores = co, t.units = un, t.grains = gr, t.ftiles = ft, t.poison = po, t.monitors = mo, t.watches = wa, t.arrays = ar at a
    subst a
    exact b, fun n => (h.thr n).trans (k.thr n), fun n => by rw [k.core n, h.core n], fun n => (k.wbuf n).trans (h.wbuf n),
    fun n => (k.l1 n).trans (h.l1 n)⟩

/-- Changes of the caches and of the arrays alone leave what a delivery leaves. -/
theorem delivered_of_pins {s t : State}
    (h : t = { s with units := t.units, grains := t.grains, ftiles := t.ftiles, poison := t.poison, arrays := t.arrays }) :
    Delivered s t :=
  ⟨by rw [h], fun n => by rw [h]; exact .refl _, fun n => by rw [h]; rfl, fun n => by rw [h]; exact .refl _,
    fun n => by rw [h]; exact .refl _⟩

theorem OnlyCaches.delivered {s t : State} (h : OnlyCaches s t) : Delivered s t := delivered_of_pins (by rw [h])

/-- A fold of steps that each leave what a delivery leaves. -/
theorem delivered_foldl {α : Type} (f : State → α → State) (h : ∀ s a, Delivered s (f s a)) (l : List α) (s : State) :
    Delivered s (l.foldl f s) := by
  induction l generalizing s with
  | nil => exact .refl s
  | cons a l ih => exact (h s a).trans (ih (f s a))

/-- A core that only gives up buffered stores and L1 lines, with nothing else changed. -/
theorem delivered_setCore (s : State) (c : Nat) (w : List Pending) (l : List L1Line) (hw : w.Sublist (s.core c).wbuf)
    (hl : l.Sublist (s.core c).l1) : Delivered s (s.setCore c { s.core c with wbuf := w, l1 := l }) := by
  refine ⟨rfl, fun n => .refl _, fun k => ?_, fun k => ?_, fun k => ?_⟩ <;> rw [State.core_setCore] <;> split
  case refine_1.isTrue => subst k; rfl
  case refine_1.isFalse => rfl
  case refine_2.isTrue => subst k; exact hw
  case refine_2.isFalse => exact .refl _
  case refine_3.isTrue => subst k; exact hl
  case refine_3.isFalse => exact .refl _

theorem Performed.delivered {s t : State} (h : Performed s t) : Delivered s t := by
  have hc : ∀ k, t.core k = s.core k := by intro k; rw [h.only]; rfl
  exact ⟨by rw [h.only], h.thr, fun k => by rw [hc], fun k => by simp [hc], fun k => by simp [hc]⟩

theorem delivered_deliverWhere (s : State) (c : Nat) (sel : Nat → Bool) : Delivered s (s.deliverWhere c sel) :=
  (delivered_setCore s c _ _ List.filter_sublist (.refl _)).trans
    (performed_foldl (fun s e => s.performStore (quireOf c) e) (fun s e => performed_performStore s _ e) _ _).delivered

theorem delivered_deliverLine (s : State) (c key : Nat) : Delivered s (s.deliverLine c key) := by
  unfold State.deliverLine
  split
  · exact .refl s
  · exact delivered_deliverWhere s c _

theorem delivered_l1Leave (s : State) (c line : Nat) : Delivered s (s.l1Leave c line) := by
  simp only [State.l1Leave]
  split
  · exact delivered_setCore s c _ _ (.refl _) List.filter_sublist
  · exact .refl s

theorem delivered_l1Drop (s : State) (c key : Nat) : Delivered s (s.l1Drop c key) := by
  simp only [State.l1Drop]
  split
  · exact delivered_setCore s c _ _ (.refl _) List.filter_sublist
  · exact .refl s

/-- What an operand read meets, at its members' buffers and L1s and at the home (R122, R160, R161). -/
theorem delivered_meetOperand (s : State) (q j : Nat) (site : Site) : Delivered s (s.meetOperand q j site) :=
  (delivered_foldl _ (fun s _ => (delivered_foldl _ (fun s _ => delivered_deliverLine s _ _) _ s).trans (delivered_l1Leave _ _ _)) _ s).trans
    (onlyCaches_request _ site).delivered

/-- Pinning the units of an operand changes the caches and the array's pins, beside what its read meets (R122). -/
theorem delivered_pinUnit (s : State) (q j op : Nat) (va : Word) : Delivered s (s.pinUnit q j op va) := by
  simp only [State.pinUnit]
  split
  · exact .refl s
  · split
    · exact .refl s
    · exact (delivered_meetOperand s q j _).trans (delivered_of_pins rfl)

theorem delivered_pinWhere (s : State) (n : Nat) (sel : Word → Bool) : Delivered s (s.pinWhere n sel) := by
  simp only [State.pinWhere]
  split
  · exact delivered_foldl _ (fun s i => delivered_foldl _ (fun s span => delivered_foldl _ (fun s va => delivered_pinUnit s _ _ _ va) _ s) _ s) _ s
  · exact .refl s

theorem delivered_drain (s : State) (n : Nat) : Delivered s (s.drain n) := by
  simp only [State.drain]
  have h : Delivered s (s.pinAll n) := delivered_pinWhere s n _
  split
  · exact h
  · exact h.trans (delivered_deliverWhere _ _ _)

/-- A release that does not report leaves what a delivery leaves (R160, R175). -/
theorem delivered_release {s t : State} {sc : Scope} (h : s.release sc = .ok t) : Delivered s t := by
  simp only [State.release] at h
  split at h
  · cases h; exact .refl s
  · split at h
    · cases h
    · split at h
      · cases h
      · cases h; exact delivered_drain s s.cur

theorem delivered_releaseIf {s t : State} {sem : Sem} {sc : Scope} (h : s.releaseIf sem sc = .ok t) : Delivered s t := by
  cases sem <;> simp only [State.releaseIf] at h
  case release => exact delivered_release h
  case acqRel => exact delivered_release h
  all_goals cases h; exact .refl s

/-! Translation, acquires and loads. -/

/-- A leaf found or walked to fills the translation cache and does nothing else (R158). -/
theorem leafFor_same {s s' : State} {core ctx va pb : Nat} {e : Word} {ok : Word → Nat → Bool}
    (h : s.leafFor core ctx va ok = some (e, pb, s')) : s' = { s with tlbs := s'.tlbs } := by
  have hw : ∀ e pb, s.cacheLeaf core ctx va e pb = { s with tlbs := (s.cacheLeaf core ctx va e pb).tlbs } := by
    intro e pb; unfold State.cacheLeaf; split <;> rfl
  unfold State.leafFor at h
  cases hk : s.walk (s.ctx ctx).root va with
  | none =>
    simp only [hk] at h
    split at h
    · split at h <;> cases h; rfl
    · cases h
  | some w =>
    obtain ⟨a, b⟩ := w
    simp only [hk] at h
    split at h
    · split at h
      · cases h; rfl
      · cases h; exact hw _ _
    · cases h; exact hw _ _

/-- Translation fills the translation cache and does nothing else (R158). -/
theorem translate_same {s s₁ : State} {acc : Acc} {va : Word} {site : Site} (h : s.translate acc va = .ok (site, s₁)) :
    s₁ = { s with tlbs := s₁.tlbs } := by
  unfold State.translate at h
  split at h
  · rename_i r hr
    cases h
    unfold State.translateFor at hr
    split at hr
    · cases hr
    · simp only at hr
      split at hr
      · cases hr
      · rename_i e pb s' hl
        split at hr
        · simp only [Except.ok.injEq, Prod.mk.injEq] at hr
          obtain ⟨_, rfl⟩ := hr
          exact leafFor_same hl
        · cases hr
  · cases h

/-- An acquire clears the L1 and does nothing else (R160). -/
theorem clearL1_only (s : State) (c : Nat) : s.clearL1 c = { s with cores := (s.clearL1 c).cores } := by
  unfold State.clearL1; split <;> rfl
theorem acquireIf_only (s : State) (sem : Sem) (sc : Scope) : s.acquireIf sem sc = { s with cores := (s.acquireIf sem sc).cores } := by
  cases sem <;> simp only [State.acquireIf] <;> try rfl
  all_goals unfold State.acquire; split
  all_goals first | rfl | exact clearL1_only s _

/-- A read of a site delivers what stands before it and changes the caches (R160). -/
theorem delivered_readSite (s : State) (site : Site) (n : Nat) : Delivered s (s.readSite site n).2.2 := by
  unfold State.readSite
  simp only
  have h := delivered_deliverLine s s.myCore site.key
  split
  · exact h.trans (onlyCaches_cohLoad _ _ _ _ _).delivered
  · exact h.trans (onlyCaches_request _ _).delivered

/-- A read past the L1 leaves no copy of the line in it (R155, R186). -/
theorem delivered_readPast (s : State) (site : Site) (n : Nat) : Delivered s (s.readPast site n).2.2 :=
  (delivered_readSite s site n).trans (delivered_l1Drop _ _ _)

/-- What a thread's load does before it reads: its operand reads come first, and a sibling's store to the line is delivered. -/
theorem Delivered.th {s t : State} (h : Delivered s t) : SameBut s.th t.th ∧ t.cur = s.cur := by
  have hc : t.cur = s.cur := by rw [h.only]
  exact ⟨by unfold State.th; rw [hc]; exact h.thr _, hc⟩

/-- A load leaves the issuing thread, the counts of failed stores apart. -/
theorem loadAt_th (s : State) (site : Site) (n st : Nat) :
   let r := (s.loadAt site n st)
   SameBut s.th r.2.2.th ∧ r.2.2.cur = s.cur := by
  simp only [State.loadAt]
  have h : Delivered s (s.pinTouched s.cur (BitVec.ofNat 64 site.key)) := delivered_pinWhere s _ _
  generalize s.pinTouched s.cur (BitVec.ofNat 64 site.key) = u at h
  have h : Delivered s (if u.siblingStore site.key then u.deliverLine u.myCore site.key else u) := by
    split
    · exact h.trans (delivered_deliverLine u _ _)
    · exact h
  generalize (if u.siblingStore site.key = true then u.deliverLine u.myCore site.key else u) = v at h
  repeat' split
  all_goals first
    | exact h.th
    | exact (h.trans (delivered_readPast v _ _)).th
    | exact (h.trans (delivered_readSite v _ _)).th

end Sys2Proof.Machine
end

