-- ==== Sys2Proof/Laws/PerInstr.lean ====
section
/-! SUPPORT. Statements per instruction: the word that an instruction encodes to is 32 bits wide and its OP, function code and
fields decode to the instruction. -/

namespace Sys2Proof.Laws.RoundTrip

/-- A well-formed instruction of one word is what its word decodes to. -/
def Statement (i : Instr) : Prop :=
  i.wellFormed = true → encode i = [encodeWord i] → encodeWord i < 2 ^ 32 ∧ decodeOp (encodeWord i) = .ok i

/-! Fields. -/

theorem sreg_of {w lo : Nat} {r : SReg} (h : w / 2 ^ lo % 64 = r.val) : sreg w lo = r := Fin.ext h

theorem vreg_of {w lo : Nat} {r : VReg} (h : w / 2 ^ lo % 32 = r.val) : vreg w lo = r := Fin.ext h

theorem preg_of {w lo : Nat} {r : PReg} (h : w / 2 ^ lo % 8 = r.val) : preg w lo = r := Fin.ext h

theorem fin_of {n w lo : Nat} [NeZero n] {r : Fin n} (h : w / 2 ^ lo % n = r.val) : Fin.ofNat n (w / 2 ^ lo) = r := Fin.ext h

theorem bv_of {n w lo : Nat} {x : BitVec n} (h : w / 2 ^ lo % 2 ^ n = x.toNat) : BitVec.ofNat n (w / 2 ^ lo) = x :=
  BitVec.eq_of_toNat_eq (by simpa using h)

theorem zero_of {w lo n : Nat} (h : w / 2 ^ lo % 2 ^ n = 0) : (fld w lo n == 0) = true := beq_iff_eq.mpr h

theorem bool_of {w lo : Nat} {b : Bool} (h : w / 2 ^ lo % 2 ^ 1 = b.toNat) : (fld w lo 1 == 1) = b := by
  have h : fld w lo 1 = b.toNat := h
  rw [h]
  cases b <;> rfl

theorem toNat_lt (b : Bool) : b.toNat < 2 := by cases b <;> decide

theorem sem_lt (x : Sem) : x.code < 4 := by cases x <;> decide

theorem sem_of {w lo n : Nat} {x : Sem} (h : w / 2 ^ lo % 2 ^ n = x.code) : Sem.ofCode (fld w lo n) = x := by
  have h : fld w lo n = x.code := h
  rw [h]
  cases x <;> rfl

theorem scope_lt (x : Scope) : x.code < 4 := by cases x <;> decide

theorem scope_of {w lo n : Nat} {x : Scope} (h : w / 2 ^ lo % 2 ^ n = x.code) : Scope.ofCode (fld w lo n) = x := by
  have h : fld w lo n = x.code := h
  rw [h]
  cases x <;> rfl

theorem xsize_lt (x : XSize) : x.code < 8 := by cases x <;> decide

theorem xsize_of {w lo n : Nat} {x : XSize} (h : w / 2 ^ lo % 2 ^ n = x.code) : XSize.ofCode (fld w lo n) = x := by
  have h : fld w lo n = x.code := h
  rw [h]
  cases x <;> rfl

theorem fprec_lt (x : FPrec) : x.code < 2 := by cases x <;> decide

theorem fprec_of {w lo n : Nat} {x : FPrec} (h : w / 2 ^ lo % 2 ^ n = x.code) : FPrec.ofCode (fld w lo n) = x := by
  have h : fld w lo n = x.code := h
  rw [h]
  cases x <;> rfl

theorem cvttype_lt (x : CvtType) : x.code < 8 := by cases x <;> decide

theorem cvttype_of {w lo n : Nat} {x : CvtType} (h : w / 2 ^ lo % 2 ^ n = x.code) : CvtType.ofCode (fld w lo n) = x := by
  have h : fld w lo n = x.code := h
  rw [h]
  cases x <;> rfl

theorem vtype_lt (x : VType) : x.code < 8 := by cases x <;> decide

theorem vtype_of {w lo n : Nat} {x : VType} (h : w / 2 ^ lo % 2 ^ n = x.code) : VType.ofCode (fld w lo n) = x := by
  have h : fld w lo n = x.code := h
  rw [h]
  cases x <;> rfl

theorem fmatype_lt (x : FmaType) : x.code < 4 := by cases x <;> decide

theorem fmatype_of {w lo n : Nat} {x : FmaType} (h : w / 2 ^ lo % 2 ^ n = x.code) : FmaType.ofCode (fld w lo n) = x := by
  have h : fld w lo n = x.code := h
  rw [h]
  cases x <;> rfl

theorem ewidth_lt (x : EWidth) : x.code < 4 := by cases x <;> decide

theorem ewidth_of {w lo n : Nat} {x : EWidth} (h : w / 2 ^ lo % 2 ^ n = x.code) : EWidth.ofCode (fld w lo n) = x := by
  have h : fld w lo n = x.code := h
  rw [h]
  cases x <;> rfl

theorem bpmode_lt (x : BpMode) : x.code < 4 := by cases x <;> decide

theorem bpmode_of {w lo n : Nat} {x : BpMode} (h : w / 2 ^ lo % 2 ^ n = x.code) : BpMode.ofCode? (fld w lo n) = some x := by
  have h : fld w lo n = x.code := h
  rw [h]
  cases x <;> rfl

theorem fencekind_lt (x : FenceKind) : x.code < 4 := by cases x <;> decide

theorem fencekind_of {w lo n : Nat} {x : FenceKind} (h : w / 2 ^ lo % 2 ^ n = x.code) : FenceKind.ofCode? (fld w lo n) = some x := by
  have h : fld w lo n = x.code := h
  rw [h]
  cases x <;> rfl

theorem engine_lt (x : Engine) : x.code < 3 := by cases x <;> decide

theorem engine_of {w lo n : Nat} {x : Engine} (h : w / 2 ^ lo % 2 ^ n = x.code) : Engine.ofCode? (fld w lo n) = some x := by
  have h : fld w lo n = x.code := h
  rw [h]
  cases x <;> rfl

theorem vcond_lt (x : VCond) : x.code < 6 := by cases x <;> decide

theorem vcond_of {w lo n : Nat} {x : VCond} (h : w / 2 ^ lo % 2 ^ n = x.code) : VCond.ofCode? (fld w lo n) = some x := by
  have h : fld w lo n = x.code := h
  rw [h]
  cases x <;> rfl

theorem pcond_lt (x : PCond) : x.code < 6 := by cases x <;> decide

theorem pcond_of {w lo n : Nat} {x : PCond} (h : w / 2 ^ lo % 2 ^ n = x.code) : PCond.ofCode? (fld w lo n) = some x := by
  have h : fld w lo n = x.code := h
  rw [h]
  cases x <;> rfl

/-! The OP and its function code. -/

theorem op_of {w k : Nat} {r : Except Reject Instr} (h : w % 2 ^ 7 = k) (hr : decodeOpBy k w = r) : decodeOp w = r := by
  have h : fld w 0 7 = k := by rw [← h, fld, Nat.pow_zero, Nat.div_one]
  rw [decodeOp, h, hr]

theorem inta_of {w k : Nat} {r : Except Reject Instr} (h : w / 2 ^ 25 % 2 ^ 7 = k) (hr : decodeIntaBy k w = r) : decodeInta w = r := by
  have h : fld w 25 7 = k := h
  rw [decodeInta, h, hr]

theorem intm_of {w k : Nat} {r : Except Reject Instr} (h : w / 2 ^ 25 % 2 ^ 7 = k) (hr : decodeIntmBy k w = r) : decodeIntm w = r := by
  have h : fld w 25 7 = k := h
  rw [decodeIntm, h, hr]

theorem callr_of {w k : Nat} {r : Except Reject Instr} (h : w / 2 ^ 29 % 2 ^ 1 = k) (hr : decodeCallrBy k w = r) : decodeCallr w = r := by
  have h : fld w 29 1 = k := h
  rw [decodeCallr, h, hr]

theorem sys_of {w k : Nat} {r : Except Reject Instr} (h : w / 2 ^ 25 % 2 ^ 7 = k) (hr : decodeSysBy k w = r) : decodeSys w = r := by
  have h : fld w 25 7 = k := h
  rw [decodeSys, h, hr]

theorem ata_of {w k : Nat} {r : Except Reject Instr} (h : w / 2 ^ 29 % 2 ^ 3 = k) (hr : decodeAtABy k w = r) : decodeAtA w = r := by
  have h : fld w 29 3 = k := h
  rw [decodeAtA, h, hr]

theorem atw_of {w k : Nat} {r : Except Reject Instr} (h : w / 2 ^ 29 % 2 ^ 3 = k) (hr : decodeAtWBy k w = r) : decodeAtW w = r := by
  have h : fld w 29 3 = k := h
  rw [decodeAtW, h, hr]

theorem atn_of {w k : Nat} {r : Except Reject Instr} (h : w / 2 ^ 29 % 2 ^ 3 = k) (hr : decodeAtNBy k w = r) : decodeAtN w = r := by
  have h : fld w 29 3 = k := h
  rw [decodeAtN, h, hr]

theorem waitv_of {w k : Nat} {r : Except Reject Instr} (h : w / 2 ^ 29 % 2 ^ 3 = k) (hr : decodeWaitvBy k w = r) : decodeWaitv w = r := by
  have h : fld w 29 3 = k := h
  rw [decodeWaitv, h, hr]

theorem bar_of {w k : Nat} {r : Except Reject Instr} (h : w / 2 ^ 25 % 2 ^ 7 = k) (hr : decodeBarBy k w = r) : decodeBar w = r := by
  have h : fld w 25 7 = k := h
  rw [decodeBar, h, hr]

theorem tl_of {w k : Nat} {r : Except Reject Instr} (h : w / 2 ^ 25 % 2 ^ 7 = k) (hr : decodeTlBy k w = r) : decodeTl w = r := by
  have h : fld w 25 7 = k := h
  rw [decodeTl, h, hr]

theorem fa_of {w k : Nat} {r : Except Reject Instr} (h : w / 2 ^ 25 % 2 ^ 6 = k) (hr : decodeFaBy k w = r) : decodeFa w = r := by
  have h : fld w 25 6 = k := h
  rw [decodeFa, h, hr]

theorem va_of {w k : Nat} {r : Except Reject Instr} (h : w / 2 ^ 28 % 2 ^ 4 = k) (hr : decodeVaBy k w = r) : decodeVa w = r := by
  have h : fld w 28 4 = k := h
  rw [decodeVa, h, hr]

theorem vred_of {w k : Nat} {r : Except Reject Instr} (h : w / 2 ^ 28 % 2 ^ 4 = k) (hr : decodeVredBy k w = r) : decodeVred w = r := by
  have h : fld w 28 4 = k := h
  rw [decodeVred, h, hr]

theorem vmov_of {w k : Nat} {r : Except Reject Instr} (h : w / 2 ^ 24 % 2 ^ 3 = k) (hr : decodeVmovBy k w = r) : decodeVmov w = r := by
  have h : fld w 24 3 = k := h
  rw [decodeVmov, h, hr]

theorem vsf_of {w k : Nat} {r : Except Reject Instr} (h : w / 2 ^ 25 % 2 ^ 7 = k) (hr : decodeVsfBy k w = r) : decodeVsf w = r := by
  have h : fld w 25 7 = k := h
  rw [decodeVsf, h, hr]

theorem mx_of {w k : Nat} {r : Except Reject Instr} (h : w / 2 ^ 25 % 2 ^ 7 = k) (hr : decodeMxBy k w = r) : decodeMx w = r := by
  have h : fld w 25 7 = k := h
  rw [decodeMx, h, hr]

theorem sg_of {w k : Nat} {r : Except Reject Instr} (h : w / 2 ^ 25 % 2 ^ 7 = k) (hr : decodeSgBy k w = r) : decodeSg w = r := by
  have h : fld w 25 7 = k := h
  rw [decodeSg, h, hr]

theorem pl_of {w k : Nat} {r : Except Reject Instr} (h : w / 2 ^ 16 % 2 ^ 3 = k) (hr : decodePlBy k w = r) : decodePl w = r := by
  have h : fld w 16 3 = k := h
  rw [decodePl, h, hr]

theorem gh_of {w k : Nat} {r : Except Reject Instr} (h : w / 2 ^ 25 % 2 ^ 6 = k) (hr : decodeGhBy k w = r) : decodeGh w = r := by
  have h : fld w 25 6 = k := h
  rw [decodeGh, h, hr]

theorem tk_of {w k : Nat} {r : Except Reject Instr} (h : w / 2 ^ 25 % 2 ^ 7 = k) (hr : decodeTkBy k w = r) : decodeTk w = r := by
  have h : fld w 25 7 = k := h
  rw [decodeTk, h, hr]

theorem xl_of {w k : Nat} {r : Except Reject Instr} (h : w / 2 ^ 25 % 2 ^ 7 = k) (hr : decodeXlBy k w = r) : decodeXl w = r := by
  have h : fld w 25 7 = k := h
  rw [decodeXl, h, hr]

/-! The fields of a word, one lemma per arrangement of fields. -/

theorem shape1 {w op fn x y z : Nat} (ho : op < 128) (hf : fn < 128) (hx : x < 64) (hy : y < 64) (hz : z < 64)
    (hw : w = op + fn * 33554432 + x * 128 + y * 8192 + z * 524288) :
    w < 2 ^ 32 ∧ w % 2 ^ 7 = op ∧ w / 2 ^ 25 % 2 ^ 7 = fn ∧ w / 2 ^ 7 % 2 ^ 6 = x ∧ w / 2 ^ 13 % 2 ^ 6 = y ∧ w / 2 ^ 19 % 2 ^ 6 = z := by
  omega

theorem shape2 {w op fn x y : Nat} (ho : op < 128) (hf : fn < 128) (hx : x < 64) (hy : y < 64)
    (hw : w = op + fn * 33554432 + x * 128 + y * 8192) :
    w < 2 ^ 32 ∧ w % 2 ^ 7 = op ∧ w / 2 ^ 25 % 2 ^ 7 = fn ∧ w / 2 ^ 19 % 2 ^ 6 = 0 ∧ w / 2 ^ 7 % 2 ^ 6 = x ∧ w / 2 ^ 13 % 2 ^ 6 = y := by
  omega

theorem shape3 {w op fn x y z : Nat} (ho : op < 128) (hf : fn < 128) (hx : x < 64) (hy : y < 64) (hz : z < 8)
    (hw : w = op + fn * 33554432 + x * 128 + y * 8192 + z * 524288) :
    w < 2 ^ 32 ∧ w % 2 ^ 7 = op ∧ w / 2 ^ 25 % 2 ^ 7 = fn ∧ w / 2 ^ 22 % 2 ^ 3 = 0 ∧ w / 2 ^ 7 % 2 ^ 6 = x ∧ w / 2 ^ 13 % 2 ^ 6 = y ∧ w / 2 ^ 19 % 2 ^ 3 = z := by
  omega

theorem shape4 {w op x y z : Nat} (ho : op < 128) (hx : x < 64) (hy : y < 64) (hz : z < 8192)
    (hw : w = op + x * 128 + y * 8192 + z * 524288) :
    w < 2 ^ 32 ∧ w % 2 ^ 7 = op ∧ w / 2 ^ 7 % 2 ^ 6 = x ∧ w / 2 ^ 13 % 2 ^ 6 = y ∧ w / 2 ^ 19 % 2 ^ 13 = z := by
  omega

theorem shape5 {w op x y z : Nat} (ho : op < 128) (hx : x < 64) (hy : y < 64) (hz : z < 64)
    (hw : w = op + x * 128 + y * 8192 + z * 524288) :
    w < 2 ^ 32 ∧ w % 2 ^ 7 = op ∧ w / 2 ^ 25 % 2 ^ 7 = 0 ∧ w / 2 ^ 7 % 2 ^ 6 = x ∧ w / 2 ^ 13 % 2 ^ 6 = y ∧ w / 2 ^ 19 % 2 ^ 6 = z := by
  omega

theorem shape6 {w op x y : Nat} (ho : op < 128) (hx : x < 64) (hy : y < 524288)
    (hw : w = op + x * 128 + y * 8192) :
    w < 2 ^ 32 ∧ w % 2 ^ 7 = op ∧ w / 2 ^ 7 % 2 ^ 6 = x ∧ w / 2 ^ 13 % 2 ^ 19 = y := by
  omega

theorem shape7 {w op x y z : Nat} (ho : op < 128) (hx : x < 8) (hy : y < 4) (hz : z < 524288)
    (hw : w = op + x * 128 + y * 1024 + z * 8192) :
    w < 2 ^ 32 ∧ w % 2 ^ 7 = op ∧ w / 2 ^ 7 % 2 ^ 3 = x ∧ w / 2 ^ 10 % 2 ^ 3 = y ∧ w / 2 ^ 13 % 2 ^ 19 = z := by
  omega

theorem shape8 {w op x : Nat} (ho : op < 128) (hx : x < 524288)
    (hw : w = op + x * 8192) :
    w < 2 ^ 32 ∧ w % 2 ^ 7 = op ∧ w / 2 ^ 7 % 2 ^ 6 = 0 ∧ w / 2 ^ 13 % 2 ^ 19 = x := by
  omega

theorem shape9 {w op fn x y z : Nat} (ho : op < 128) (hf : fn < 2) (hx : x < 64) (hy : y < 64) (hz : z < 16)
    (hw : w = op + fn * 536870912 + x * 128 + y * 8192 + z * 33554432) :
    w < 2 ^ 32 ∧ w % 2 ^ 7 = op ∧ w / 2 ^ 29 % 2 ^ 1 = fn ∧ w / 2 ^ 19 % 2 ^ 6 = 0 ∧ w / 2 ^ 30 % 2 ^ 2 = 0 ∧ w / 2 ^ 7 % 2 ^ 6 = x ∧ w / 2 ^ 13 % 2 ^ 6 = y ∧ w / 2 ^ 25 % 2 ^ 4 = z := by
  omega

theorem shape10 {w op x : Nat} (ho : op < 128) (hx : x < 64)
    (hw : w = op + x * 8192) :
    w < 2 ^ 32 ∧ w % 2 ^ 7 = op ∧ w / 2 ^ 7 % 2 ^ 6 = 0 ∧ w / 2 ^ 19 % 2 ^ 13 = 0 ∧ w / 2 ^ 13 % 2 ^ 6 = x := by
  omega

theorem shape11 {w op fn x : Nat} (ho : op < 128) (hf : fn < 128) (hx : x < 64)
    (hw : w = op + fn * 33554432 + x * 524288) :
    w < 2 ^ 32 ∧ w % 2 ^ 7 = op ∧ w / 2 ^ 25 % 2 ^ 7 = fn ∧ w / 2 ^ 7 % 2 ^ 12 = 0 ∧ w / 2 ^ 19 % 2 ^ 6 = x := by
  omega

theorem shape12 {w op fn : Nat} (ho : op < 128) (hf : fn < 128)
    (hw : w = op + fn * 33554432) :
    w < 2 ^ 32 ∧ w % 2 ^ 7 = op ∧ w / 2 ^ 25 % 2 ^ 7 = fn ∧ w / 2 ^ 7 % 2 ^ 18 = 0 := by
  omega

theorem shape13 {w op x y z u v : Nat} (ho : op < 128) (hx : x < 64) (hy : y < 64) (hz : z < 4) (hu : u < 4) (hv : v < 512)
    (hw : w = op + x * 128 + y * 8192 + z * 524288 + u * 2097152 + v * 8388608) :
    w < 2 ^ 32 ∧ w % 2 ^ 7 = op ∧ w / 2 ^ 7 % 2 ^ 6 = x ∧ w / 2 ^ 13 % 2 ^ 6 = y ∧ w / 2 ^ 19 % 2 ^ 2 = z ∧ w / 2 ^ 21 % 2 ^ 2 = u ∧ w / 2 ^ 23 % 2 ^ 9 = v := by
  omega

theorem shape14 {w op x y z u v t : Nat} (ho : op < 128) (hx : x < 64) (hy : y < 64) (hz : z < 64) (hu : u < 8) (hv : v < 4) (ht : t < 4)
    (hw : w = op + x * 128 + y * 8192 + z * 524288 + u * 33554432 + v * 268435456 + t * 1073741824) :
    w < 2 ^ 32 ∧ w % 2 ^ 7 = op ∧ w / 2 ^ 7 % 2 ^ 6 = x ∧ w / 2 ^ 13 % 2 ^ 6 = y ∧ w / 2 ^ 19 % 2 ^ 6 = z ∧ w / 2 ^ 25 % 2 ^ 3 = u ∧ w / 2 ^ 28 % 2 ^ 2 = v ∧ w / 2 ^ 30 % 2 ^ 2 = t := by
  omega

theorem shape15 {w op x y z : Nat} (ho : op < 128) (hx : x < 4) (hy : y < 64) (hz : z < 512)
    (hw : w = op + x * 128 + y * 8192 + z * 8388608) :
    w < 2 ^ 32 ∧ w % 2 ^ 7 = op ∧ w / 2 ^ 9 % 2 ^ 4 = 0 ∧ w / 2 ^ 19 % 2 ^ 4 = 0 ∧ w / 2 ^ 7 % 2 ^ 2 = x ∧ w / 2 ^ 13 % 2 ^ 6 = y ∧ w / 2 ^ 23 % 2 ^ 9 = z := by
  omega

theorem shape16 {w op fn x y z u v : Nat} (ho : op < 128) (hf : fn < 8) (hx : x < 64) (hy : y < 64) (hz : z < 64) (hu : u < 4) (hv : v < 4)
    (hw : w = op + fn * 536870912 + x * 128 + y * 8192 + z * 524288 + u * 33554432 + v * 134217728) :
    w < 2 ^ 32 ∧ w % 2 ^ 7 = op ∧ w / 2 ^ 29 % 2 ^ 3 = fn ∧ w / 2 ^ 7 % 2 ^ 6 = x ∧ w / 2 ^ 13 % 2 ^ 6 = y ∧ w / 2 ^ 19 % 2 ^ 6 = z ∧ w / 2 ^ 25 % 2 ^ 2 = u ∧ w / 2 ^ 27 % 2 ^ 2 = v := by
  omega

theorem shape17 {w op x y z u v : Nat} (ho : op < 128) (hx : x < 64) (hy : y < 64) (hz : z < 64) (hu : u < 4) (hv : v < 4)
    (hw : w = op + x * 128 + y * 8192 + z * 524288 + u * 33554432 + v * 134217728) :
    w < 2 ^ 32 ∧ w % 2 ^ 7 = op ∧ w / 2 ^ 29 % 2 ^ 3 = 0 ∧ w / 2 ^ 7 % 2 ^ 6 = x ∧ w / 2 ^ 13 % 2 ^ 6 = y ∧ w / 2 ^ 19 % 2 ^ 6 = z ∧ w / 2 ^ 25 % 2 ^ 2 = u ∧ w / 2 ^ 27 % 2 ^ 2 = v := by
  omega

theorem shape18 {w op x y : Nat} (ho : op < 128) (hx : x < 4) (hy : y < 4)
    (hw : w = op + x * 128 + y * 1024) :
    w < 2 ^ 32 ∧ w % 2 ^ 7 = op ∧ w / 2 ^ 12 % 2 ^ 20 = 0 ∧ w / 2 ^ 7 % 2 ^ 3 = x ∧ w / 2 ^ 10 % 2 ^ 2 = y := by
  omega

theorem shape19 {w op fn x y : Nat} (ho : op < 128) (hf : fn < 128) (hx : x < 64) (hy : y < 64)
    (hw : w = op + fn * 33554432 + x * 8192 + y * 524288) :
    w < 2 ^ 32 ∧ w % 2 ^ 7 = op ∧ w / 2 ^ 25 % 2 ^ 7 = fn ∧ w / 2 ^ 7 % 2 ^ 6 = 0 ∧ w / 2 ^ 13 % 2 ^ 6 = x ∧ w / 2 ^ 19 % 2 ^ 6 = y := by
  omega

theorem shape20 {w op x : Nat} (ho : op < 128) (hx : x < 4096)
    (hw : w = op + x * 524288) :
    w < 2 ^ 32 ∧ w % 2 ^ 7 = op ∧ w / 2 ^ 7 % 2 ^ 12 = 0 ∧ w / 2 ^ 31 % 2 ^ 1 = 0 ∧ w / 2 ^ 19 % 2 ^ 12 = x := by
  omega

theorem shape21 {w op : Nat} (ho : op < 128)
    (hw : w = op) :
    w < 2 ^ 32 ∧ w % 2 ^ 7 = op ∧ w / 2 ^ 7 % 2 ^ 25 = 0 := by
  omega

theorem shape22 {w op x y : Nat} (ho : op < 128) (hx : x < 64) (hy : y < 64)
    (hw : w = op + x * 8192 + y * 524288) :
    w < 2 ^ 32 ∧ w % 2 ^ 7 = op ∧ w / 2 ^ 7 % 2 ^ 6 = 0 ∧ w / 2 ^ 25 % 2 ^ 7 = 0 ∧ w / 2 ^ 13 % 2 ^ 6 = x ∧ w / 2 ^ 19 % 2 ^ 6 = y := by
  omega

theorem shape23 {w op x y : Nat} (ho : op < 128) (hx : x < 64) (hy : y < 16)
    (hw : w = op + x * 8192 + y * 33554432) :
    w < 2 ^ 32 ∧ w % 2 ^ 7 = op ∧ w / 2 ^ 7 % 2 ^ 6 = 0 ∧ w / 2 ^ 19 % 2 ^ 6 = 0 ∧ w / 2 ^ 29 % 2 ^ 3 = 0 ∧ w / 2 ^ 13 % 2 ^ 6 = x ∧ w / 2 ^ 25 % 2 ^ 4 = y := by
  omega

theorem shape24 {w op x y z : Nat} (ho : op < 128) (hx : x < 3) (hy : y < 64) (hz : z < 64)
    (hw : w = op + x * 128 + y * 8192 + z * 524288) :
    w < 2 ^ 32 ∧ w % 2 ^ 7 = op ∧ w / 2 ^ 25 % 2 ^ 7 = 0 ∧ w / 2 ^ 7 % 2 ^ 6 = x ∧ w / 2 ^ 13 % 2 ^ 6 = y ∧ w / 2 ^ 19 % 2 ^ 6 = z := by
  omega

theorem shape25 {w op x y : Nat} (ho : op < 128) (hx : x < 64) (hy : y < 3)
    (hw : w = op + x * 128 + y * 33554432) :
    w < 2 ^ 32 ∧ w % 2 ^ 7 = op ∧ w / 2 ^ 13 % 2 ^ 12 = 0 ∧ w / 2 ^ 27 % 2 ^ 5 = 0 ∧ w / 2 ^ 7 % 2 ^ 6 = x ∧ w / 2 ^ 25 % 2 ^ 2 = y := by
  omega

theorem shape26 {w op fn x : Nat} (ho : op < 128) (hf : fn < 128) (hx : x < 64)
    (hw : w = op + fn * 33554432 + x * 8192) :
    w < 2 ^ 32 ∧ w % 2 ^ 7 = op ∧ w / 2 ^ 25 % 2 ^ 7 = fn ∧ w / 2 ^ 7 % 2 ^ 6 = 0 ∧ w / 2 ^ 19 % 2 ^ 6 = 0 ∧ w / 2 ^ 13 % 2 ^ 6 = x := by
  omega

theorem shape27 {w op fn x y z u : Nat} (ho : op < 128) (hf : fn < 64) (hx : x < 64) (hy : y < 64) (hz : z < 64) (hu : u < 2)
    (hw : w = op + fn * 33554432 + x * 128 + y * 8192 + z * 524288 + u * 2147483648) :
    w < 2 ^ 32 ∧ w % 2 ^ 7 = op ∧ w / 2 ^ 25 % 2 ^ 6 = fn ∧ w / 2 ^ 7 % 2 ^ 6 = x ∧ w / 2 ^ 13 % 2 ^ 6 = y ∧ w / 2 ^ 19 % 2 ^ 6 = z ∧ w / 2 ^ 31 % 2 ^ 1 = u := by
  omega

theorem shape28 {w op fn x y z : Nat} (ho : op < 128) (hf : fn < 64) (hx : x < 64) (hy : y < 64) (hz : z < 2)
    (hw : w = op + fn * 33554432 + x * 128 + y * 8192 + z * 2147483648) :
    w < 2 ^ 32 ∧ w % 2 ^ 7 = op ∧ w / 2 ^ 25 % 2 ^ 6 = fn ∧ w / 2 ^ 19 % 2 ^ 6 = 0 ∧ w / 2 ^ 7 % 2 ^ 6 = x ∧ w / 2 ^ 13 % 2 ^ 6 = y ∧ w / 2 ^ 31 % 2 ^ 1 = z := by
  omega

theorem shape29 {w op x y z u v : Nat} (ho : op < 128) (hx : x < 64) (hy : y < 64) (hz : z < 64) (hu : u < 64) (hv : v < 2)
    (hw : w = op + x * 128 + y * 8192 + z * 524288 + u * 33554432 + v * 2147483648) :
    w < 2 ^ 32 ∧ w % 2 ^ 7 = op ∧ w / 2 ^ 7 % 2 ^ 6 = x ∧ w / 2 ^ 13 % 2 ^ 6 = y ∧ w / 2 ^ 19 % 2 ^ 6 = z ∧ w / 2 ^ 25 % 2 ^ 6 = u ∧ w / 2 ^ 31 % 2 ^ 1 = v := by
  omega

theorem shape30 {w op x y z u : Nat} (ho : op < 128) (hx : x < 64) (hy : y < 64) (hz : z < 8) (hu : u < 8)
    (hw : w = op + x * 128 + y * 8192 + z * 33554432 + u * 268435456) :
    w < 2 ^ 32 ∧ w % 2 ^ 7 = op ∧ w / 2 ^ 19 % 2 ^ 6 = 0 ∧ w / 2 ^ 31 % 2 ^ 1 = 0 ∧ w / 2 ^ 7 % 2 ^ 6 = x ∧ w / 2 ^ 13 % 2 ^ 6 = y ∧ w / 2 ^ 25 % 2 ^ 3 = z ∧ w / 2 ^ 28 % 2 ^ 3 = u := by
  omega

theorem shape31 {w op x y z u v t : Nat} (ho : op < 128) (hx : x < 32) (hy : y < 64) (hz : z < 8) (hu : u < 4) (hv : v < 4) (ht : t < 128)
    (hw : w = op + x * 128 + y * 4096 + z * 262144 + u * 2097152 + v * 8388608 + t * 33554432) :
    w < 2 ^ 32 ∧ w % 2 ^ 7 = op ∧ w / 2 ^ 7 % 2 ^ 5 = x ∧ w / 2 ^ 12 % 2 ^ 6 = y ∧ w / 2 ^ 18 % 2 ^ 3 = z ∧ w / 2 ^ 21 % 2 ^ 2 = u ∧ w / 2 ^ 23 % 2 ^ 2 = v ∧ w / 2 ^ 25 % 2 ^ 7 = t := by
  omega

theorem shape32 {w op x y z u v : Nat} (ho : op < 128) (hx : x < 32) (hy : y < 32) (hz : z < 8) (hu : u < 64) (hv : v < 2)
    (hw : w = op + x * 128 + y * 4096 + z * 4194304 + u * 33554432 + v * 2147483648) :
    w < 2 ^ 32 ∧ w % 2 ^ 7 = op ∧ w / 2 ^ 17 % 2 ^ 5 = 0 ∧ w / 2 ^ 7 % 2 ^ 5 = x ∧ w / 2 ^ 12 % 2 ^ 5 = y ∧ w / 2 ^ 22 % 2 ^ 3 = z ∧ w / 2 ^ 25 % 2 ^ 6 = u ∧ w / 2 ^ 31 % 2 ^ 1 = v := by
  omega

theorem shape33 {w op fn x y z u v : Nat} (ho : op < 128) (hf : fn < 16) (hx : x < 32) (hy : y < 32) (hz : z < 32) (hu : u < 8) (hv : v < 8)
    (hw : w = op + fn * 268435456 + x * 128 + y * 4096 + z * 131072 + u * 4194304 + v * 33554432) :
    w < 2 ^ 32 ∧ w % 2 ^ 7 = op ∧ w / 2 ^ 28 % 2 ^ 4 = fn ∧ w / 2 ^ 7 % 2 ^ 5 = x ∧ w / 2 ^ 12 % 2 ^ 5 = y ∧ w / 2 ^ 17 % 2 ^ 5 = z ∧ w / 2 ^ 22 % 2 ^ 3 = u ∧ w / 2 ^ 25 % 2 ^ 3 = v := by
  omega

theorem shape34 {w op fn x y z u : Nat} (ho : op < 128) (hf : fn < 16) (hx : x < 32) (hy : y < 32) (hz : z < 8) (hu : u < 8)
    (hw : w = op + fn * 268435456 + x * 128 + y * 4096 + z * 4194304 + u * 33554432) :
    w < 2 ^ 32 ∧ w % 2 ^ 7 = op ∧ w / 2 ^ 28 % 2 ^ 4 = fn ∧ w / 2 ^ 17 % 2 ^ 5 = 0 ∧ w / 2 ^ 7 % 2 ^ 5 = x ∧ w / 2 ^ 12 % 2 ^ 5 = y ∧ w / 2 ^ 22 % 2 ^ 3 = z ∧ w / 2 ^ 25 % 2 ^ 3 = u := by
  omega

theorem shape35 {w op x y z u v t : Nat} (ho : op < 128) (hx : x < 32) (hy : y < 32) (hz : z < 32) (hu : u < 32) (hv : v < 8) (ht : t < 4)
    (hw : w = op + x * 128 + y * 4096 + z * 131072 + u * 4194304 + v * 134217728 + t * 1073741824) :
    w < 2 ^ 32 ∧ w % 2 ^ 7 = op ∧ w / 2 ^ 7 % 2 ^ 5 = x ∧ w / 2 ^ 12 % 2 ^ 5 = y ∧ w / 2 ^ 17 % 2 ^ 5 = z ∧ w / 2 ^ 22 % 2 ^ 5 = u ∧ w / 2 ^ 27 % 2 ^ 3 = v ∧ w / 2 ^ 30 % 2 ^ 2 = t := by
  omega

theorem shape36 {w op x y z u v t : Nat} (ho : op < 128) (hx : x < 8) (hy : y < 32) (hz : z < 32) (hu : u < 8) (hv : v < 8) (ht : t < 6)
    (hw : w = op + x * 128 + y * 4096 + z * 131072 + u * 4194304 + v * 33554432 + t * 268435456) :
    w < 2 ^ 32 ∧ w % 2 ^ 7 = op ∧ w / 2 ^ 10 % 2 ^ 2 = 0 ∧ w / 2 ^ 31 % 2 ^ 1 = 0 ∧ w / 2 ^ 7 % 2 ^ 3 = x ∧ w / 2 ^ 12 % 2 ^ 5 = y ∧ w / 2 ^ 17 % 2 ^ 5 = z ∧ w / 2 ^ 22 % 2 ^ 3 = u ∧ w / 2 ^ 25 % 2 ^ 3 = v ∧ w / 2 ^ 28 % 2 ^ 3 = t := by
  omega

theorem shape37 {w op x y z u v : Nat} (ho : op < 128) (hx : x < 32) (hy : y < 32) (hz : z < 8) (hu : u < 8) (hv : v < 8)
    (hw : w = op + x * 128 + y * 4096 + z * 4194304 + u * 33554432 + v * 268435456) :
    w < 2 ^ 32 ∧ w % 2 ^ 7 = op ∧ w / 2 ^ 17 % 2 ^ 5 = 0 ∧ w / 2 ^ 31 % 2 ^ 1 = 0 ∧ w / 2 ^ 7 % 2 ^ 5 = x ∧ w / 2 ^ 12 % 2 ^ 5 = y ∧ w / 2 ^ 22 % 2 ^ 3 = z ∧ w / 2 ^ 25 % 2 ^ 3 = u ∧ w / 2 ^ 28 % 2 ^ 3 = v := by
  omega

theorem shape38 {w op x y z u v : Nat} (ho : op < 128) (hx : x < 32) (hy : y < 32) (hz : z < 32) (hu : u < 8) (hv : v < 4)
    (hw : w = op + x * 128 + y * 4096 + z * 131072 + u * 4194304 + v * 33554432) :
    w < 2 ^ 32 ∧ w % 2 ^ 7 = op ∧ w / 2 ^ 27 % 2 ^ 5 = 0 ∧ w / 2 ^ 7 % 2 ^ 5 = x ∧ w / 2 ^ 12 % 2 ^ 5 = y ∧ w / 2 ^ 17 % 2 ^ 5 = z ∧ w / 2 ^ 22 % 2 ^ 3 = u ∧ w / 2 ^ 25 % 2 ^ 2 = v := by
  omega

theorem shape39 {w op fn x y z : Nat} (ho : op < 128) (hf : fn < 8) (hx : x < 32) (hy : y < 64) (hz : z < 4)
    (hw : w = op + fn * 16777216 + x * 128 + y * 4096 + z * 134217728) :
    w < 2 ^ 32 ∧ w % 2 ^ 7 = op ∧ w / 2 ^ 24 % 2 ^ 3 = fn ∧ w / 2 ^ 18 % 2 ^ 6 = 0 ∧ w / 2 ^ 29 % 2 ^ 3 = 0 ∧ w / 2 ^ 7 % 2 ^ 5 = x ∧ w / 2 ^ 12 % 2 ^ 6 = y ∧ w / 2 ^ 27 % 2 ^ 2 = z := by
  omega

theorem shape40 {w op fn x y z u : Nat} (ho : op < 128) (hf : fn < 8) (hx : x < 32) (hy : y < 64) (hz : z < 64) (hu : u < 4)
    (hw : w = op + fn * 16777216 + x * 128 + y * 4096 + z * 262144 + u * 134217728) :
    w < 2 ^ 32 ∧ w % 2 ^ 7 = op ∧ w / 2 ^ 24 % 2 ^ 3 = fn ∧ w / 2 ^ 29 % 2 ^ 3 = 0 ∧ w / 2 ^ 7 % 2 ^ 5 = x ∧ w / 2 ^ 12 % 2 ^ 6 = y ∧ w / 2 ^ 18 % 2 ^ 6 = z ∧ w / 2 ^ 27 % 2 ^ 2 = u := by
  omega

theorem shape41 {w op fn x y : Nat} (ho : op < 128) (hf : fn < 8) (hx : x < 8) (hy : y < 64)
    (hw : w = op + fn * 16777216 + x * 128 + y * 4096) :
    w < 2 ^ 32 ∧ w % 2 ^ 7 = op ∧ w / 2 ^ 24 % 2 ^ 3 = fn ∧ w / 2 ^ 10 % 2 ^ 2 = 0 ∧ w / 2 ^ 18 % 2 ^ 6 = 0 ∧ w / 2 ^ 27 % 2 ^ 5 = 0 ∧ w / 2 ^ 7 % 2 ^ 3 = x ∧ w / 2 ^ 12 % 2 ^ 6 = y := by
  omega

theorem shape42 {w op fn x y z : Nat} (ho : op < 128) (hf : fn < 128) (hx : x < 32) (hy : y < 32) (hz : z < 8)
    (hw : w = op + fn * 33554432 + x * 128 + y * 4096 + z * 4194304) :
    w < 2 ^ 32 ∧ w % 2 ^ 7 = op ∧ w / 2 ^ 25 % 2 ^ 7 = fn ∧ w / 2 ^ 17 % 2 ^ 5 = 0 ∧ w / 2 ^ 7 % 2 ^ 5 = x ∧ w / 2 ^ 12 % 2 ^ 5 = y ∧ w / 2 ^ 22 % 2 ^ 3 = z := by
  omega

theorem shape43 {w op fn x : Nat} (ho : op < 128) (hf : fn < 128) (hx : x < 64)
    (hw : w = op + fn * 33554432 + x * 128) :
    w < 2 ^ 32 ∧ w % 2 ^ 7 = op ∧ w / 2 ^ 25 % 2 ^ 7 = fn ∧ w / 2 ^ 13 % 2 ^ 12 = 0 ∧ w / 2 ^ 7 % 2 ^ 6 = x := by
  omega

theorem shape44 {w op fn x y z : Nat} (ho : op < 128) (hf : fn < 8) (hx : x < 8) (hy : y < 8) (hz : z < 8)
    (hw : w = op + fn * 65536 + x * 128 + y * 1024 + z * 8192) :
    w < 2 ^ 32 ∧ w % 2 ^ 7 = op ∧ w / 2 ^ 16 % 2 ^ 3 = fn ∧ w / 2 ^ 19 % 2 ^ 13 = 0 ∧ w / 2 ^ 7 % 2 ^ 3 = x ∧ w / 2 ^ 10 % 2 ^ 3 = y ∧ w / 2 ^ 13 % 2 ^ 3 = z := by
  omega

theorem shape45 {w op fn x y : Nat} (ho : op < 128) (hf : fn < 8) (hx : x < 8) (hy : y < 8)
    (hw : w = op + fn * 65536 + x * 128 + y * 1024) :
    w < 2 ^ 32 ∧ w % 2 ^ 7 = op ∧ w / 2 ^ 16 % 2 ^ 3 = fn ∧ w / 2 ^ 13 % 2 ^ 3 = 0 ∧ w / 2 ^ 19 % 2 ^ 13 = 0 ∧ w / 2 ^ 7 % 2 ^ 3 = x ∧ w / 2 ^ 10 % 2 ^ 3 = y := by
  omega

theorem shape46 {w op fn x : Nat} (ho : op < 128) (hf : fn < 8) (hx : x < 8)
    (hw : w = op + fn * 65536 + x * 128) :
    w < 2 ^ 32 ∧ w % 2 ^ 7 = op ∧ w / 2 ^ 16 % 2 ^ 3 = fn ∧ w / 2 ^ 10 % 2 ^ 6 = 0 ∧ w / 2 ^ 19 % 2 ^ 13 = 0 ∧ w / 2 ^ 7 % 2 ^ 3 = x := by
  omega

theorem shape47 {w op x y z u : Nat} (ho : op < 128) (hx : x < 8) (hy : y < 6) (hz : z < 64) (hu : u < 64)
    (hw : w = op + x * 128 + y * 1024 + z * 8192 + u * 524288) :
    w < 2 ^ 32 ∧ w % 2 ^ 7 = op ∧ w / 2 ^ 25 % 2 ^ 7 = 0 ∧ w / 2 ^ 7 % 2 ^ 3 = x ∧ w / 2 ^ 10 % 2 ^ 3 = y ∧ w / 2 ^ 13 % 2 ^ 6 = z ∧ w / 2 ^ 19 % 2 ^ 6 = u := by
  omega

theorem shape48 {w op fn x : Nat} (ho : op < 128) (hf : fn < 64) (hx : x < 2)
    (hw : w = op + fn * 33554432 + x * 2147483648) :
    w < 2 ^ 32 ∧ w % 2 ^ 7 = op ∧ w / 2 ^ 25 % 2 ^ 6 = fn ∧ w / 2 ^ 7 % 2 ^ 18 = 0 ∧ w / 2 ^ 31 % 2 ^ 1 = x := by
  omega

theorem shape49 {w op fn x y : Nat} (ho : op < 128) (hf : fn < 64) (hx : x < 64) (hy : y < 64)
    (hw : w = op + fn * 33554432 + x * 128 + y * 8192) :
    w < 2 ^ 32 ∧ w % 2 ^ 7 = op ∧ w / 2 ^ 25 % 2 ^ 6 = fn ∧ w / 2 ^ 19 % 2 ^ 6 = 0 ∧ w / 2 ^ 31 % 2 ^ 1 = 0 ∧ w / 2 ^ 7 % 2 ^ 6 = x ∧ w / 2 ^ 13 % 2 ^ 6 = y := by
  omega

theorem shape50 {w op fn x y : Nat} (ho : op < 128) (hf : fn < 64) (hx : x < 64) (hy : y < 64)
    (hw : w = op + fn * 33554432 + x * 8192 + y * 524288) :
    w < 2 ^ 32 ∧ w % 2 ^ 7 = op ∧ w / 2 ^ 25 % 2 ^ 6 = fn ∧ w / 2 ^ 7 % 2 ^ 6 = 0 ∧ w / 2 ^ 31 % 2 ^ 1 = 0 ∧ w / 2 ^ 13 % 2 ^ 6 = x ∧ w / 2 ^ 19 % 2 ^ 6 = y := by
  omega

theorem shape51 {w op fn x y z : Nat} (ho : op < 128) (hf : fn < 64) (hx : x < 64) (hy : y < 64) (hz : z < 64)
    (hw : w = op + fn * 33554432 + x * 128 + y * 8192 + z * 524288) :
    w < 2 ^ 32 ∧ w % 2 ^ 7 = op ∧ w / 2 ^ 25 % 2 ^ 6 = fn ∧ w / 2 ^ 31 % 2 ^ 1 = 0 ∧ w / 2 ^ 7 % 2 ^ 6 = x ∧ w / 2 ^ 13 % 2 ^ 6 = y ∧ w / 2 ^ 19 % 2 ^ 6 = z := by
  omega

theorem shape52 {w op x y : Nat} (ho : op < 128) (hx : x < 64) (hy : y < 4096)
    (hw : w = op + x * 128 + y * 524288) :
    w < 2 ^ 32 ∧ w % 2 ^ 7 = op ∧ w / 2 ^ 13 % 2 ^ 6 = 0 ∧ w / 2 ^ 31 % 2 ^ 1 = 0 ∧ w / 2 ^ 7 % 2 ^ 6 = x ∧ w / 2 ^ 19 % 2 ^ 12 = y := by
  omega

theorem shape53 {w op x y : Nat} (ho : op < 128) (hx : x < 64) (hy : y < 4096)
    (hw : w = op + x * 8192 + y * 524288) :
    w < 2 ^ 32 ∧ w % 2 ^ 7 = op ∧ w / 2 ^ 7 % 2 ^ 6 = 0 ∧ w / 2 ^ 31 % 2 ^ 1 = 0 ∧ w / 2 ^ 13 % 2 ^ 6 = x ∧ w / 2 ^ 19 % 2 ^ 12 = y := by
  omega

theorem shape54 {w op x y z : Nat} (ho : op < 128) (hx : x < 64) (hy : y < 64) (hz : z < 4096)
    (hw : w = op + x * 128 + y * 8192 + z * 524288) :
    w < 2 ^ 32 ∧ w % 2 ^ 7 = op ∧ w / 2 ^ 31 % 2 ^ 1 = 0 ∧ w / 2 ^ 7 % 2 ^ 6 = x ∧ w / 2 ^ 13 % 2 ^ 6 = y ∧ w / 2 ^ 19 % 2 ^ 12 = z := by
  omega

/-! One lemma per instruction. -/

theorem add (d : SReg) (a : SReg) (b : SReg) : Statement (.add d a b) := by
  have key : ∀ w, w = 0 + 0 * 33554432 + d.val * 128 + a.val * 8192 + b.val * 524288 →
      w < 2 ^ 32 ∧ decodeOp w = .ok (.add d a b) := by
    intro w hw
    obtain ⟨hl, ho, hf, f0, f1, f2⟩ := shape1 (op := 0) (fn := 0) (by decide) (by decide) d.isLt a.isLt b.isLt hw
    refine ⟨hl, op_of ho ?_⟩
    refine inta_of hf ?_
    show (Except.ok (Instr.add (sreg w 7) (sreg w 13) (sreg w 19))) = _
    rw [sreg_of f0, sreg_of f1, sreg_of f2]
  exact fun _ _ => key _ rfl

theorem addW (d : SReg) (a : SReg) (b : SReg) : Statement (.addW d a b) := by
  have key : ∀ w, w = 0 + 64 * 33554432 + d.val * 128 + a.val * 8192 + b.val * 524288 →
      w < 2 ^ 32 ∧ decodeOp w = .ok (.addW d a b) := by
    intro w hw
    obtain ⟨hl, ho, hf, f0, f1, f2⟩ := shape1 (op := 0) (fn := 64) (by decide) (by decide) d.isLt a.isLt b.isLt hw
    refine ⟨hl, op_of ho ?_⟩
    refine inta_of hf ?_
    show (Except.ok (Instr.addW (sreg w 7) (sreg w 13) (sreg w 19))) = _
    rw [sreg_of f0, sreg_of f1, sreg_of f2]
  exact fun _ _ => key _ rfl

theorem sub (d : SReg) (a : SReg) (b : SReg) : Statement (.sub d a b) := by
  have key : ∀ w, w = 0 + 1 * 33554432 + d.val * 128 + a.val * 8192 + b.val * 524288 →
      w < 2 ^ 32 ∧ decodeOp w = .ok (.sub d a b) := by
    intro w hw
    obtain ⟨hl, ho, hf, f0, f1, f2⟩ := shape1 (op := 0) (fn := 1) (by decide) (by decide) d.isLt a.isLt b.isLt hw
    refine ⟨hl, op_of ho ?_⟩
    refine inta_of hf ?_
    show (Except.ok (Instr.sub (sreg w 7) (sreg w 13) (sreg w 19))) = _
    rw [sreg_of f0, sreg_of f1, sreg_of f2]
  exact fun _ _ => key _ rfl

theorem subW (d : SReg) (a : SReg) (b : SReg) : Statement (.subW d a b) := by
  have key : ∀ w, w = 0 + 65 * 33554432 + d.val * 128 + a.val * 8192 + b.val * 524288 →
      w < 2 ^ 32 ∧ decodeOp w = .ok (.subW d a b) := by
    intro w hw
    obtain ⟨hl, ho, hf, f0, f1, f2⟩ := shape1 (op := 0) (fn := 65) (by decide) (by decide) d.isLt a.isLt b.isLt hw
    refine ⟨hl, op_of ho ?_⟩
    refine inta_of hf ?_
    show (Except.ok (Instr.subW (sreg w 7) (sreg w 13) (sreg w 19))) = _
    rw [sreg_of f0, sreg_of f1, sreg_of f2]
  exact fun _ _ => key _ rfl

theorem and (d : SReg) (a : SReg) (b : SReg) : Statement (.and d a b) := by
  have key : ∀ w, w = 0 + 2 * 33554432 + d.val * 128 + a.val * 8192 + b.val * 524288 →
      w < 2 ^ 32 ∧ decodeOp w = .ok (.and d a b) := by
    intro w hw
    obtain ⟨hl, ho, hf, f0, f1, f2⟩ := shape1 (op := 0) (fn := 2) (by decide) (by decide) d.isLt a.isLt b.isLt hw
    refine ⟨hl, op_of ho ?_⟩
    refine inta_of hf ?_
    show (Except.ok (Instr.and (sreg w 7) (sreg w 13) (sreg w 19))) = _
    rw [sreg_of f0, sreg_of f1, sreg_of f2]
  exact fun _ _ => key _ rfl

theorem andW (d : SReg) (a : SReg) (b : SReg) : Statement (.andW d a b) := by
  have key : ∀ w, w = 0 + 66 * 33554432 + d.val * 128 + a.val * 8192 + b.val * 524288 →
      w < 2 ^ 32 ∧ decodeOp w = .ok (.andW d a b) := by
    intro w hw
    obtain ⟨hl, ho, hf, f0, f1, f2⟩ := shape1 (op := 0) (fn := 66) (by decide) (by decide) d.isLt a.isLt b.isLt hw
    refine ⟨hl, op_of ho ?_⟩
    refine inta_of hf ?_
    show (Except.ok (Instr.andW (sreg w 7) (sreg w 13) (sreg w 19))) = _
    rw [sreg_of f0, sreg_of f1, sreg_of f2]
  exact fun _ _ => key _ rfl

theorem or (d : SReg) (a : SReg) (b : SReg) : Statement (.or d a b) := by
  have key : ∀ w, w = 0 + 3 * 33554432 + d.val * 128 + a.val * 8192 + b.val * 524288 →
      w < 2 ^ 32 ∧ decodeOp w = .ok (.or d a b) := by
    intro w hw
    obtain ⟨hl, ho, hf, f0, f1, f2⟩ := shape1 (op := 0) (fn := 3) (by decide) (by decide) d.isLt a.isLt b.isLt hw
    refine ⟨hl, op_of ho ?_⟩
    refine inta_of hf ?_
    show (Except.ok (Instr.or (sreg w 7) (sreg w 13) (sreg w 19))) = _
    rw [sreg_of f0, sreg_of f1, sreg_of f2]
  exact fun _ _ => key _ rfl

theorem orW (d : SReg) (a : SReg) (b : SReg) : Statement (.orW d a b) := by
  have key : ∀ w, w = 0 + 67 * 33554432 + d.val * 128 + a.val * 8192 + b.val * 524288 →
      w < 2 ^ 32 ∧ decodeOp w = .ok (.orW d a b) := by
    intro w hw
    obtain ⟨hl, ho, hf, f0, f1, f2⟩ := shape1 (op := 0) (fn := 67) (by decide) (by decide) d.isLt a.isLt b.isLt hw
    refine ⟨hl, op_of ho ?_⟩
    refine inta_of hf ?_
    show (Except.ok (Instr.orW (sreg w 7) (sreg w 13) (sreg w 19))) = _
    rw [sreg_of f0, sreg_of f1, sreg_of f2]
  exact fun _ _ => key _ rfl

theorem xor (d : SReg) (a : SReg) (b : SReg) : Statement (.xor d a b) := by
  have key : ∀ w, w = 0 + 4 * 33554432 + d.val * 128 + a.val * 8192 + b.val * 524288 →
      w < 2 ^ 32 ∧ decodeOp w = .ok (.xor d a b) := by
    intro w hw
    obtain ⟨hl, ho, hf, f0, f1, f2⟩ := shape1 (op := 0) (fn := 4) (by decide) (by decide) d.isLt a.isLt b.isLt hw
    refine ⟨hl, op_of ho ?_⟩
    refine inta_of hf ?_
    show (Except.ok (Instr.xor (sreg w 7) (sreg w 13) (sreg w 19))) = _
    rw [sreg_of f0, sreg_of f1, sreg_of f2]
  exact fun _ _ => key _ rfl

theorem xorW (d : SReg) (a : SReg) (b : SReg) : Statement (.xorW d a b) := by
  have key : ∀ w, w = 0 + 68 * 33554432 + d.val * 128 + a.val * 8192 + b.val * 524288 →
      w < 2 ^ 32 ∧ decodeOp w = .ok (.xorW d a b) := by
    intro w hw
    obtain ⟨hl, ho, hf, f0, f1, f2⟩ := shape1 (op := 0) (fn := 68) (by decide) (by decide) d.isLt a.isLt b.isLt hw
    refine ⟨hl, op_of ho ?_⟩
    refine inta_of hf ?_
    show (Except.ok (Instr.xorW (sreg w 7) (sreg w 13) (sreg w 19))) = _
    rw [sreg_of f0, sreg_of f1, sreg_of f2]
  exact fun _ _ => key _ rfl

theorem andn (d : SReg) (a : SReg) (b : SReg) : Statement (.andn d a b) := by
  have key : ∀ w, w = 0 + 5 * 33554432 + d.val * 128 + a.val * 8192 + b.val * 524288 →
      w < 2 ^ 32 ∧ decodeOp w = .ok (.andn d a b) := by
    intro w hw
    obtain ⟨hl, ho, hf, f0, f1, f2⟩ := shape1 (op := 0) (fn := 5) (by decide) (by decide) d.isLt a.isLt b.isLt hw
    refine ⟨hl, op_of ho ?_⟩
    refine inta_of hf ?_
    show (Except.ok (Instr.andn (sreg w 7) (sreg w 13) (sreg w 19))) = _
    rw [sreg_of f0, sreg_of f1, sreg_of f2]
  exact fun _ _ => key _ rfl

theorem andnW (d : SReg) (a : SReg) (b : SReg) : Statement (.andnW d a b) := by
  have key : ∀ w, w = 0 + 69 * 33554432 + d.val * 128 + a.val * 8192 + b.val * 524288 →
      w < 2 ^ 32 ∧ decodeOp w = .ok (.andnW d a b) := by
    intro w hw
    obtain ⟨hl, ho, hf, f0, f1, f2⟩ := shape1 (op := 0) (fn := 69) (by decide) (by decide) d.isLt a.isLt b.isLt hw
    refine ⟨hl, op_of ho ?_⟩
    refine inta_of hf ?_
    show (Except.ok (Instr.andnW (sreg w 7) (sreg w 13) (sreg w 19))) = _
    rw [sreg_of f0, sreg_of f1, sreg_of f2]
  exact fun _ _ => key _ rfl

theorem shl (d : SReg) (a : SReg) (b : SReg) : Statement (.shl d a b) := by
  have key : ∀ w, w = 0 + 6 * 33554432 + d.val * 128 + a.val * 8192 + b.val * 524288 →
      w < 2 ^ 32 ∧ decodeOp w = .ok (.shl d a b) := by
    intro w hw
    obtain ⟨hl, ho, hf, f0, f1, f2⟩ := shape1 (op := 0) (fn := 6) (by decide) (by decide) d.isLt a.isLt b.isLt hw
    refine ⟨hl, op_of ho ?_⟩
    refine inta_of hf ?_
    show (Except.ok (Instr.shl (sreg w 7) (sreg w 13) (sreg w 19))) = _
    rw [sreg_of f0, sreg_of f1, sreg_of f2]
  exact fun _ _ => key _ rfl

theorem shlW (d : SReg) (a : SReg) (b : SReg) : Statement (.shlW d a b) := by
  have key : ∀ w, w = 0 + 70 * 33554432 + d.val * 128 + a.val * 8192 + b.val * 524288 →
      w < 2 ^ 32 ∧ decodeOp w = .ok (.shlW d a b) := by
    intro w hw
    obtain ⟨hl, ho, hf, f0, f1, f2⟩ := shape1 (op := 0) (fn := 70) (by decide) (by decide) d.isLt a.isLt b.isLt hw
    refine ⟨hl, op_of ho ?_⟩
    refine inta_of hf ?_
    show (Except.ok (Instr.shlW (sreg w 7) (sreg w 13) (sreg w 19))) = _
    rw [sreg_of f0, sreg_of f1, sreg_of f2]
  exact fun _ _ => key _ rfl

theorem shr (d : SReg) (a : SReg) (b : SReg) : Statement (.shr d a b) := by
  have key : ∀ w, w = 0 + 7 * 33554432 + d.val * 128 + a.val * 8192 + b.val * 524288 →
      w < 2 ^ 32 ∧ decodeOp w = .ok (.shr d a b) := by
    intro w hw
    obtain ⟨hl, ho, hf, f0, f1, f2⟩ := shape1 (op := 0) (fn := 7) (by decide) (by decide) d.isLt a.isLt b.isLt hw
    refine ⟨hl, op_of ho ?_⟩
    refine inta_of hf ?_
    show (Except.ok (Instr.shr (sreg w 7) (sreg w 13) (sreg w 19))) = _
    rw [sreg_of f0, sreg_of f1, sreg_of f2]
  exact fun _ _ => key _ rfl

theorem shrW (d : SReg) (a : SReg) (b : SReg) : Statement (.shrW d a b) := by
  have key : ∀ w, w = 0 + 71 * 33554432 + d.val * 128 + a.val * 8192 + b.val * 524288 →
      w < 2 ^ 32 ∧ decodeOp w = .ok (.shrW d a b) := by
    intro w hw
    obtain ⟨hl, ho, hf, f0, f1, f2⟩ := shape1 (op := 0) (fn := 71) (by decide) (by decide) d.isLt a.isLt b.isLt hw
    refine ⟨hl, op_of ho ?_⟩
    refine inta_of hf ?_
    show (Except.ok (Instr.shrW (sreg w 7) (sreg w 13) (sreg w 19))) = _
    rw [sreg_of f0, sreg_of f1, sreg_of f2]
  exact fun _ _ => key _ rfl

theorem sha (d : SReg) (a : SReg) (b : SReg) : Statement (.sha d a b) := by
  have key : ∀ w, w = 0 + 8 * 33554432 + d.val * 128 + a.val * 8192 + b.val * 524288 →
      w < 2 ^ 32 ∧ decodeOp w = .ok (.sha d a b) := by
    intro w hw
    obtain ⟨hl, ho, hf, f0, f1, f2⟩ := shape1 (op := 0) (fn := 8) (by decide) (by decide) d.isLt a.isLt b.isLt hw
    refine ⟨hl, op_of ho ?_⟩
    refine inta_of hf ?_
    show (Except.ok (Instr.sha (sreg w 7) (sreg w 13) (sreg w 19))) = _
    rw [sreg_of f0, sreg_of f1, sreg_of f2]
  exact fun _ _ => key _ rfl

theorem shaW (d : SReg) (a : SReg) (b : SReg) : Statement (.shaW d a b) := by
  have key : ∀ w, w = 0 + 72 * 33554432 + d.val * 128 + a.val * 8192 + b.val * 524288 →
      w < 2 ^ 32 ∧ decodeOp w = .ok (.shaW d a b) := by
    intro w hw
    obtain ⟨hl, ho, hf, f0, f1, f2⟩ := shape1 (op := 0) (fn := 72) (by decide) (by decide) d.isLt a.isLt b.isLt hw
    refine ⟨hl, op_of ho ?_⟩
    refine inta_of hf ?_
    show (Except.ok (Instr.shaW (sreg w 7) (sreg w 13) (sreg w 19))) = _
    rw [sreg_of f0, sreg_of f1, sreg_of f2]
  exact fun _ _ => key _ rfl

theorem slt (d : SReg) (a : SReg) (b : SReg) : Statement (.slt d a b) := by
  have key : ∀ w, w = 0 + 9 * 33554432 + d.val * 128 + a.val * 8192 + b.val * 524288 →
      w < 2 ^ 32 ∧ decodeOp w = .ok (.slt d a b) := by
    intro w hw
    obtain ⟨hl, ho, hf, f0, f1, f2⟩ := shape1 (op := 0) (fn := 9) (by decide) (by decide) d.isLt a.isLt b.isLt hw
    refine ⟨hl, op_of ho ?_⟩
    refine inta_of hf ?_
    show (Except.ok (Instr.slt (sreg w 7) (sreg w 13) (sreg w 19))) = _
    rw [sreg_of f0, sreg_of f1, sreg_of f2]
  exact fun _ _ => key _ rfl

theorem sltW (d : SReg) (a : SReg) (b : SReg) : Statement (.sltW d a b) := by
  have key : ∀ w, w = 0 + 73 * 33554432 + d.val * 128 + a.val * 8192 + b.val * 524288 →
      w < 2 ^ 32 ∧ decodeOp w = .ok (.sltW d a b) := by
    intro w hw
    obtain ⟨hl, ho, hf, f0, f1, f2⟩ := shape1 (op := 0) (fn := 73) (by decide) (by decide) d.isLt a.isLt b.isLt hw
    refine ⟨hl, op_of ho ?_⟩
    refine inta_of hf ?_
    show (Except.ok (Instr.sltW (sreg w 7) (sreg w 13) (sreg w 19))) = _
    rw [sreg_of f0, sreg_of f1, sreg_of f2]
  exact fun _ _ => key _ rfl

theorem sltn (d : SReg) (a : SReg) (b : SReg) : Statement (.sltn d a b) := by
  have key : ∀ w, w = 0 + 10 * 33554432 + d.val * 128 + a.val * 8192 + b.val * 524288 →
      w < 2 ^ 32 ∧ decodeOp w = .ok (.sltn d a b) := by
    intro w hw
    obtain ⟨hl, ho, hf, f0, f1, f2⟩ := shape1 (op := 0) (fn := 10) (by decide) (by decide) d.isLt a.isLt b.isLt hw
    refine ⟨hl, op_of ho ?_⟩
    refine inta_of hf ?_
    show (Except.ok (Instr.sltn (sreg w 7) (sreg w 13) (sreg w 19))) = _
    rw [sreg_of f0, sreg_of f1, sreg_of f2]
  exact fun _ _ => key _ rfl

theorem sltnW (d : SReg) (a : SReg) (b : SReg) : Statement (.sltnW d a b) := by
  have key : ∀ w, w = 0 + 74 * 33554432 + d.val * 128 + a.val * 8192 + b.val * 524288 →
      w < 2 ^ 32 ∧ decodeOp w = .ok (.sltnW d a b) := by
    intro w hw
    obtain ⟨hl, ho, hf, f0, f1, f2⟩ := shape1 (op := 0) (fn := 74) (by decide) (by decide) d.isLt a.isLt b.isLt hw
    refine ⟨hl, op_of ho ?_⟩
    refine inta_of hf ?_
    show (Except.ok (Instr.sltnW (sreg w 7) (sreg w 13) (sreg w 19))) = _
    rw [sreg_of f0, sreg_of f1, sreg_of f2]
  exact fun _ _ => key _ rfl

theorem min (d : SReg) (a : SReg) (b : SReg) : Statement (.min d a b) := by
  have key : ∀ w, w = 0 + 11 * 33554432 + d.val * 128 + a.val * 8192 + b.val * 524288 →
      w < 2 ^ 32 ∧ decodeOp w = .ok (.min d a b) := by
    intro w hw
    obtain ⟨hl, ho, hf, f0, f1, f2⟩ := shape1 (op := 0) (fn := 11) (by decide) (by decide) d.isLt a.isLt b.isLt hw
    refine ⟨hl, op_of ho ?_⟩
    refine inta_of hf ?_
    show (Except.ok (Instr.min (sreg w 7) (sreg w 13) (sreg w 19))) = _
    rw [sreg_of f0, sreg_of f1, sreg_of f2]
  exact fun _ _ => key _ rfl

theorem minW (d : SReg) (a : SReg) (b : SReg) : Statement (.minW d a b) := by
  have key : ∀ w, w = 0 + 75 * 33554432 + d.val * 128 + a.val * 8192 + b.val * 524288 →
      w < 2 ^ 32 ∧ decodeOp w = .ok (.minW d a b) := by
    intro w hw
    obtain ⟨hl, ho, hf, f0, f1, f2⟩ := shape1 (op := 0) (fn := 75) (by decide) (by decide) d.isLt a.isLt b.isLt hw
    refine ⟨hl, op_of ho ?_⟩
    refine inta_of hf ?_
    show (Except.ok (Instr.minW (sreg w 7) (sreg w 13) (sreg w 19))) = _
    rw [sreg_of f0, sreg_of f1, sreg_of f2]
  exact fun _ _ => key _ rfl

theorem max (d : SReg) (a : SReg) (b : SReg) : Statement (.max d a b) := by
  have key : ∀ w, w = 0 + 12 * 33554432 + d.val * 128 + a.val * 8192 + b.val * 524288 →
      w < 2 ^ 32 ∧ decodeOp w = .ok (.max d a b) := by
    intro w hw
    obtain ⟨hl, ho, hf, f0, f1, f2⟩ := shape1 (op := 0) (fn := 12) (by decide) (by decide) d.isLt a.isLt b.isLt hw
    refine ⟨hl, op_of ho ?_⟩
    refine inta_of hf ?_
    show (Except.ok (Instr.max (sreg w 7) (sreg w 13) (sreg w 19))) = _
    rw [sreg_of f0, sreg_of f1, sreg_of f2]
  exact fun _ _ => key _ rfl

theorem maxW (d : SReg) (a : SReg) (b : SReg) : Statement (.maxW d a b) := by
  have key : ∀ w, w = 0 + 76 * 33554432 + d.val * 128 + a.val * 8192 + b.val * 524288 →
      w < 2 ^ 32 ∧ decodeOp w = .ok (.maxW d a b) := by
    intro w hw
    obtain ⟨hl, ho, hf, f0, f1, f2⟩ := shape1 (op := 0) (fn := 76) (by decide) (by decide) d.isLt a.isLt b.isLt hw
    refine ⟨hl, op_of ho ?_⟩
    refine inta_of hf ?_
    show (Except.ok (Instr.maxW (sreg w 7) (sreg w 13) (sreg w 19))) = _
    rw [sreg_of f0, sreg_of f1, sreg_of f2]
  exact fun _ _ => key _ rfl

theorem minn (d : SReg) (a : SReg) (b : SReg) : Statement (.minn d a b) := by
  have key : ∀ w, w = 0 + 13 * 33554432 + d.val * 128 + a.val * 8192 + b.val * 524288 →
      w < 2 ^ 32 ∧ decodeOp w = .ok (.minn d a b) := by
    intro w hw
    obtain ⟨hl, ho, hf, f0, f1, f2⟩ := shape1 (op := 0) (fn := 13) (by decide) (by decide) d.isLt a.isLt b.isLt hw
    refine ⟨hl, op_of ho ?_⟩
    refine inta_of hf ?_
    show (Except.ok (Instr.minn (sreg w 7) (sreg w 13) (sreg w 19))) = _
    rw [sreg_of f0, sreg_of f1, sreg_of f2]
  exact fun _ _ => key _ rfl

theorem minnW (d : SReg) (a : SReg) (b : SReg) : Statement (.minnW d a b) := by
  have key : ∀ w, w = 0 + 77 * 33554432 + d.val * 128 + a.val * 8192 + b.val * 524288 →
      w < 2 ^ 32 ∧ decodeOp w = .ok (.minnW d a b) := by
    intro w hw
    obtain ⟨hl, ho, hf, f0, f1, f2⟩ := shape1 (op := 0) (fn := 77) (by decide) (by decide) d.isLt a.isLt b.isLt hw
    refine ⟨hl, op_of ho ?_⟩
    refine inta_of hf ?_
    show (Except.ok (Instr.minnW (sreg w 7) (sreg w 13) (sreg w 19))) = _
    rw [sreg_of f0, sreg_of f1, sreg_of f2]
  exact fun _ _ => key _ rfl

theorem maxn (d : SReg) (a : SReg) (b : SReg) : Statement (.maxn d a b) := by
  have key : ∀ w, w = 0 + 14 * 33554432 + d.val * 128 + a.val * 8192 + b.val * 524288 →
      w < 2 ^ 32 ∧ decodeOp w = .ok (.maxn d a b) := by
    intro w hw
    obtain ⟨hl, ho, hf, f0, f1, f2⟩ := shape1 (op := 0) (fn := 14) (by decide) (by decide) d.isLt a.isLt b.isLt hw
    refine ⟨hl, op_of ho ?_⟩
    refine inta_of hf ?_
    show (Except.ok (Instr.maxn (sreg w 7) (sreg w 13) (sreg w 19))) = _
    rw [sreg_of f0, sreg_of f1, sreg_of f2]
  exact fun _ _ => key _ rfl

theorem maxnW (d : SReg) (a : SReg) (b : SReg) : Statement (.maxnW d a b) := by
  have key : ∀ w, w = 0 + 78 * 33554432 + d.val * 128 + a.val * 8192 + b.val * 524288 →
      w < 2 ^ 32 ∧ decodeOp w = .ok (.maxnW d a b) := by
    intro w hw
    obtain ⟨hl, ho, hf, f0, f1, f2⟩ := shape1 (op := 0) (fn := 78) (by decide) (by decide) d.isLt a.isLt b.isLt hw
    refine ⟨hl, op_of ho ?_⟩
    refine inta_of hf ?_
    show (Except.ok (Instr.maxnW (sreg w 7) (sreg w 13) (sreg w 19))) = _
    rw [sreg_of f0, sreg_of f1, sreg_of f2]
  exact fun _ _ => key _ rfl

theorem clz (d : SReg) (a : SReg) : Statement (.clz d a) := by
  have key : ∀ w, w = 0 + 15 * 33554432 + d.val * 128 + a.val * 8192 →
      w < 2 ^ 32 ∧ decodeOp w = .ok (.clz d a) := by
    intro w hw
    obtain ⟨hl, ho, hf, z0, f0, f1⟩ := shape2 (op := 0) (fn := 15) (by decide) (by decide) d.isLt a.isLt hw
    refine ⟨hl, op_of ho ?_⟩
    refine inta_of hf ?_
    show (if fld w 19 6 == 0 then Except.ok (Instr.clz (sreg w 7) (sreg w 13)) else _) = _
    rw [zero_of z0, sreg_of f0, sreg_of f1]
    rfl
  exact fun _ _ => key _ rfl

theorem ctz (d : SReg) (a : SReg) : Statement (.ctz d a) := by
  have key : ∀ w, w = 0 + 16 * 33554432 + d.val * 128 + a.val * 8192 →
      w < 2 ^ 32 ∧ decodeOp w = .ok (.ctz d a) := by
    intro w hw
    obtain ⟨hl, ho, hf, z0, f0, f1⟩ := shape2 (op := 0) (fn := 16) (by decide) (by decide) d.isLt a.isLt hw
    refine ⟨hl, op_of ho ?_⟩
    refine inta_of hf ?_
    show (if fld w 19 6 == 0 then Except.ok (Instr.ctz (sreg w 7) (sreg w 13)) else _) = _
    rw [zero_of z0, sreg_of f0, sreg_of f1]
    rfl
  exact fun _ _ => key _ rfl

theorem popc (d : SReg) (a : SReg) : Statement (.popc d a) := by
  have key : ∀ w, w = 0 + 17 * 33554432 + d.val * 128 + a.val * 8192 →
      w < 2 ^ 32 ∧ decodeOp w = .ok (.popc d a) := by
    intro w hw
    obtain ⟨hl, ho, hf, z0, f0, f1⟩ := shape2 (op := 0) (fn := 17) (by decide) (by decide) d.isLt a.isLt hw
    refine ⟨hl, op_of ho ?_⟩
    refine inta_of hf ?_
    show (if fld w 19 6 == 0 then Except.ok (Instr.popc (sreg w 7) (sreg w 13)) else _) = _
    rw [zero_of z0, sreg_of f0, sreg_of f1]
    rfl
  exact fun _ _ => key _ rfl

theorem brev (d : SReg) (a : SReg) : Statement (.brev d a) := by
  have key : ∀ w, w = 0 + 18 * 33554432 + d.val * 128 + a.val * 8192 →
      w < 2 ^ 32 ∧ decodeOp w = .ok (.brev d a) := by
    intro w hw
    obtain ⟨hl, ho, hf, z0, f0, f1⟩ := shape2 (op := 0) (fn := 18) (by decide) (by decide) d.isLt a.isLt hw
    refine ⟨hl, op_of ho ?_⟩
    refine inta_of hf ?_
    show (if fld w 19 6 == 0 then Except.ok (Instr.brev (sreg w 7) (sreg w 13)) else _) = _
    rw [zero_of z0, sreg_of f0, sreg_of f1]
    rfl
  exact fun _ _ => key _ rfl

theorem bswap (d : SReg) (a : SReg) : Statement (.bswap d a) := by
  have key : ∀ w, w = 0 + 19 * 33554432 + d.val * 128 + a.val * 8192 →
      w < 2 ^ 32 ∧ decodeOp w = .ok (.bswap d a) := by
    intro w hw
    obtain ⟨hl, ho, hf, z0, f0, f1⟩ := shape2 (op := 0) (fn := 19) (by decide) (by decide) d.isLt a.isLt hw
    refine ⟨hl, op_of ho ?_⟩
    refine inta_of hf ?_
    show (if fld w 19 6 == 0 then Except.ok (Instr.bswap (sreg w 7) (sreg w 13)) else _) = _
    rw [zero_of z0, sreg_of f0, sreg_of f1]
    rfl
  exact fun _ _ => key _ rfl

theorem sel (d : SReg) (a : SReg) (p : PReg) : Statement (.sel d a p) := by
  have key : ∀ w, w = 0 + 20 * 33554432 + d.val * 128 + a.val * 8192 + p.val * 524288 →
      w < 2 ^ 32 ∧ decodeOp w = .ok (.sel d a p) := by
    intro w hw
    obtain ⟨hl, ho, hf, z0, f0, f1, f2⟩ := shape3 (op := 0) (fn := 20) (by decide) (by decide) d.isLt a.isLt p.isLt hw
    refine ⟨hl, op_of ho ?_⟩
    refine inta_of hf ?_
    show (if fld w 22 3 == 0 then Except.ok (Instr.sel (sreg w 7) (sreg w 13) (preg w 19)) else _) = _
    rw [zero_of z0, sreg_of f0, sreg_of f1, preg_of f2]
    rfl
  exact fun _ _ => key _ rfl

theorem mul (d : SReg) (a : SReg) (b : SReg) : Statement (.mul d a b) := by
  have key : ∀ w, w = 1 + 0 * 33554432 + d.val * 128 + a.val * 8192 + b.val * 524288 →
      w < 2 ^ 32 ∧ decodeOp w = .ok (.mul d a b) := by
    intro w hw
    obtain ⟨hl, ho, hf, f0, f1, f2⟩ := shape1 (op := 1) (fn := 0) (by decide) (by decide) d.isLt a.isLt b.isLt hw
    refine ⟨hl, op_of ho ?_⟩
    refine intm_of hf ?_
    show (Except.ok (Instr.mul (sreg w 7) (sreg w 13) (sreg w 19))) = _
    rw [sreg_of f0, sreg_of f1, sreg_of f2]
  exact fun _ _ => key _ rfl

theorem mulW (d : SReg) (a : SReg) (b : SReg) : Statement (.mulW d a b) := by
  have key : ∀ w, w = 1 + 64 * 33554432 + d.val * 128 + a.val * 8192 + b.val * 524288 →
      w < 2 ^ 32 ∧ decodeOp w = .ok (.mulW d a b) := by
    intro w hw
    obtain ⟨hl, ho, hf, f0, f1, f2⟩ := shape1 (op := 1) (fn := 64) (by decide) (by decide) d.isLt a.isLt b.isLt hw
    refine ⟨hl, op_of ho ?_⟩
    refine intm_of hf ?_
    show (Except.ok (Instr.mulW (sreg w 7) (sreg w 13) (sreg w 19))) = _
    rw [sreg_of f0, sreg_of f1, sreg_of f2]
  exact fun _ _ => key _ rfl

theorem mulh (d : SReg) (a : SReg) (b : SReg) : Statement (.mulh d a b) := by
  have key : ∀ w, w = 1 + 1 * 33554432 + d.val * 128 + a.val * 8192 + b.val * 524288 →
      w < 2 ^ 32 ∧ decodeOp w = .ok (.mulh d a b) := by
    intro w hw
    obtain ⟨hl, ho, hf, f0, f1, f2⟩ := shape1 (op := 1) (fn := 1) (by decide) (by decide) d.isLt a.isLt b.isLt hw
    refine ⟨hl, op_of ho ?_⟩
    refine intm_of hf ?_
    show (Except.ok (Instr.mulh (sreg w 7) (sreg w 13) (sreg w 19))) = _
    rw [sreg_of f0, sreg_of f1, sreg_of f2]
  exact fun _ _ => key _ rfl

theorem mulhn (d : SReg) (a : SReg) (b : SReg) : Statement (.mulhn d a b) := by
  have key : ∀ w, w = 1 + 2 * 33554432 + d.val * 128 + a.val * 8192 + b.val * 524288 →
      w < 2 ^ 32 ∧ decodeOp w = .ok (.mulhn d a b) := by
    intro w hw
    obtain ⟨hl, ho, hf, f0, f1, f2⟩ := shape1 (op := 1) (fn := 2) (by decide) (by decide) d.isLt a.isLt b.isLt hw
    refine ⟨hl, op_of ho ?_⟩
    refine intm_of hf ?_
    show (Except.ok (Instr.mulhn (sreg w 7) (sreg w 13) (sreg w 19))) = _
    rw [sreg_of f0, sreg_of f1, sreg_of f2]
  exact fun _ _ => key _ rfl

theorem mulhsn (d : SReg) (a : SReg) (b : SReg) : Statement (.mulhsn d a b) := by
  have key : ∀ w, w = 1 + 3 * 33554432 + d.val * 128 + a.val * 8192 + b.val * 524288 →
      w < 2 ^ 32 ∧ decodeOp w = .ok (.mulhsn d a b) := by
    intro w hw
    obtain ⟨hl, ho, hf, f0, f1, f2⟩ := shape1 (op := 1) (fn := 3) (by decide) (by decide) d.isLt a.isLt b.isLt hw
    refine ⟨hl, op_of ho ?_⟩
    refine intm_of hf ?_
    show (Except.ok (Instr.mulhsn (sreg w 7) (sreg w 13) (sreg w 19))) = _
    rw [sreg_of f0, sreg_of f1, sreg_of f2]
  exact fun _ _ => key _ rfl

theorem div (d : SReg) (a : SReg) (b : SReg) : Statement (.div d a b) := by
  have key : ∀ w, w = 1 + 4 * 33554432 + d.val * 128 + a.val * 8192 + b.val * 524288 →
      w < 2 ^ 32 ∧ decodeOp w = .ok (.div d a b) := by
    intro w hw
    obtain ⟨hl, ho, hf, f0, f1, f2⟩ := shape1 (op := 1) (fn := 4) (by decide) (by decide) d.isLt a.isLt b.isLt hw
    refine ⟨hl, op_of ho ?_⟩
    refine intm_of hf ?_
    show (Except.ok (Instr.div (sreg w 7) (sreg w 13) (sreg w 19))) = _
    rw [sreg_of f0, sreg_of f1, sreg_of f2]
  exact fun _ _ => key _ rfl

theorem divW (d : SReg) (a : SReg) (b : SReg) : Statement (.divW d a b) := by
  have key : ∀ w, w = 1 + 68 * 33554432 + d.val * 128 + a.val * 8192 + b.val * 524288 →
      w < 2 ^ 32 ∧ decodeOp w = .ok (.divW d a b) := by
    intro w hw
    obtain ⟨hl, ho, hf, f0, f1, f2⟩ := shape1 (op := 1) (fn := 68) (by decide) (by decide) d.isLt a.isLt b.isLt hw
    refine ⟨hl, op_of ho ?_⟩
    refine intm_of hf ?_
    show (Except.ok (Instr.divW (sreg w 7) (sreg w 13) (sreg w 19))) = _
    rw [sreg_of f0, sreg_of f1, sreg_of f2]
  exact fun _ _ => key _ rfl

theorem divn (d : SReg) (a : SReg) (b : SReg) : Statement (.divn d a b) := by
  have key : ∀ w, w = 1 + 5 * 33554432 + d.val * 128 + a.val * 8192 + b.val * 524288 →
      w < 2 ^ 32 ∧ decodeOp w = .ok (.divn d a b) := by
    intro w hw
    obtain ⟨hl, ho, hf, f0, f1, f2⟩ := shape1 (op := 1) (fn := 5) (by decide) (by decide) d.isLt a.isLt b.isLt hw
    refine ⟨hl, op_of ho ?_⟩
    refine intm_of hf ?_
    show (Except.ok (Instr.divn (sreg w 7) (sreg w 13) (sreg w 19))) = _
    rw [sreg_of f0, sreg_of f1, sreg_of f2]
  exact fun _ _ => key _ rfl

theorem divnW (d : SReg) (a : SReg) (b : SReg) : Statement (.divnW d a b) := by
  have key : ∀ w, w = 1 + 69 * 33554432 + d.val * 128 + a.val * 8192 + b.val * 524288 →
      w < 2 ^ 32 ∧ decodeOp w = .ok (.divnW d a b) := by
    intro w hw
    obtain ⟨hl, ho, hf, f0, f1, f2⟩ := shape1 (op := 1) (fn := 69) (by decide) (by decide) d.isLt a.isLt b.isLt hw
    refine ⟨hl, op_of ho ?_⟩
    refine intm_of hf ?_
    show (Except.ok (Instr.divnW (sreg w 7) (sreg w 13) (sreg w 19))) = _
    rw [sreg_of f0, sreg_of f1, sreg_of f2]
  exact fun _ _ => key _ rfl

theorem rem (d : SReg) (a : SReg) (b : SReg) : Statement (.rem d a b) := by
  have key : ∀ w, w = 1 + 6 * 33554432 + d.val * 128 + a.val * 8192 + b.val * 524288 →
      w < 2 ^ 32 ∧ decodeOp w = .ok (.rem d a b) := by
    intro w hw
    obtain ⟨hl, ho, hf, f0, f1, f2⟩ := shape1 (op := 1) (fn := 6) (by decide) (by decide) d.isLt a.isLt b.isLt hw
    refine ⟨hl, op_of ho ?_⟩
    refine intm_of hf ?_
    show (Except.ok (Instr.rem (sreg w 7) (sreg w 13) (sreg w 19))) = _
    rw [sreg_of f0, sreg_of f1, sreg_of f2]
  exact fun _ _ => key _ rfl

theorem remW (d : SReg) (a : SReg) (b : SReg) : Statement (.remW d a b) := by
  have key : ∀ w, w = 1 + 70 * 33554432 + d.val * 128 + a.val * 8192 + b.val * 524288 →
      w < 2 ^ 32 ∧ decodeOp w = .ok (.remW d a b) := by
    intro w hw
    obtain ⟨hl, ho, hf, f0, f1, f2⟩ := shape1 (op := 1) (fn := 70) (by decide) (by decide) d.isLt a.isLt b.isLt hw
    refine ⟨hl, op_of ho ?_⟩
    refine intm_of hf ?_
    show (Except.ok (Instr.remW (sreg w 7) (sreg w 13) (sreg w 19))) = _
    rw [sreg_of f0, sreg_of f1, sreg_of f2]
  exact fun _ _ => key _ rfl

theorem remn (d : SReg) (a : SReg) (b : SReg) : Statement (.remn d a b) := by
  have key : ∀ w, w = 1 + 7 * 33554432 + d.val * 128 + a.val * 8192 + b.val * 524288 →
      w < 2 ^ 32 ∧ decodeOp w = .ok (.remn d a b) := by
    intro w hw
    obtain ⟨hl, ho, hf, f0, f1, f2⟩ := shape1 (op := 1) (fn := 7) (by decide) (by decide) d.isLt a.isLt b.isLt hw
    refine ⟨hl, op_of ho ?_⟩
    refine intm_of hf ?_
    show (Except.ok (Instr.remn (sreg w 7) (sreg w 13) (sreg w 19))) = _
    rw [sreg_of f0, sreg_of f1, sreg_of f2]
  exact fun _ _ => key _ rfl

theorem remnW (d : SReg) (a : SReg) (b : SReg) : Statement (.remnW d a b) := by
  have key : ∀ w, w = 1 + 71 * 33554432 + d.val * 128 + a.val * 8192 + b.val * 524288 →
      w < 2 ^ 32 ∧ decodeOp w = .ok (.remnW d a b) := by
    intro w hw
    obtain ⟨hl, ho, hf, f0, f1, f2⟩ := shape1 (op := 1) (fn := 71) (by decide) (by decide) d.isLt a.isLt b.isLt hw
    refine ⟨hl, op_of ho ?_⟩
    refine intm_of hf ?_
    show (Except.ok (Instr.remnW (sreg w 7) (sreg w 13) (sreg w 19))) = _
    rw [sreg_of f0, sreg_of f1, sreg_of f2]
  exact fun _ _ => key _ rfl

theorem addi (d : SReg) (a : SReg) (imm : BitVec 13) : Statement (.addi d a imm) := by
  have key : ∀ w, w = 2 + d.val * 128 + a.val * 8192 + imm.toNat * 524288 →
      w < 2 ^ 32 ∧ decodeOp w = .ok (.addi d a imm) := by
    intro w hw
    obtain ⟨hl, ho, f0, f1, f2⟩ := shape4 (op := 2) (by decide) d.isLt a.isLt imm.isLt hw
    refine ⟨hl, op_of ho ?_⟩
    show (Except.ok (Instr.addi (sreg w 7) (sreg w 13) (BitVec.ofNat 13 (w / 2 ^ 19)))) = _
    rw [sreg_of f0, sreg_of f1, bv_of f2]
  exact fun _ _ => key _ rfl

theorem andi (d : SReg) (a : SReg) (imm : BitVec 13) : Statement (.andi d a imm) := by
  have key : ∀ w, w = 3 + d.val * 128 + a.val * 8192 + imm.toNat * 524288 →
      w < 2 ^ 32 ∧ decodeOp w = .ok (.andi d a imm) := by
    intro w hw
    obtain ⟨hl, ho, f0, f1, f2⟩ := shape4 (op := 3) (by decide) d.isLt a.isLt imm.isLt hw
    refine ⟨hl, op_of ho ?_⟩
    show (Except.ok (Instr.andi (sreg w 7) (sreg w 13) (BitVec.ofNat 13 (w / 2 ^ 19)))) = _
    rw [sreg_of f0, sreg_of f1, bv_of f2]
  exact fun _ _ => key _ rfl

theorem ori (d : SReg) (a : SReg) (imm : BitVec 13) : Statement (.ori d a imm) := by
  have key : ∀ w, w = 4 + d.val * 128 + a.val * 8192 + imm.toNat * 524288 →
      w < 2 ^ 32 ∧ decodeOp w = .ok (.ori d a imm) := by
    intro w hw
    obtain ⟨hl, ho, f0, f1, f2⟩ := shape4 (op := 4) (by decide) d.isLt a.isLt imm.isLt hw
    refine ⟨hl, op_of ho ?_⟩
    show (Except.ok (Instr.ori (sreg w 7) (sreg w 13) (BitVec.ofNat 13 (w / 2 ^ 19)))) = _
    rw [sreg_of f0, sreg_of f1, bv_of f2]
  exact fun _ _ => key _ rfl

theorem xori (d : SReg) (a : SReg) (imm : BitVec 13) : Statement (.xori d a imm) := by
  have key : ∀ w, w = 5 + d.val * 128 + a.val * 8192 + imm.toNat * 524288 →
      w < 2 ^ 32 ∧ decodeOp w = .ok (.xori d a imm) := by
    intro w hw
    obtain ⟨hl, ho, f0, f1, f2⟩ := shape4 (op := 5) (by decide) d.isLt a.isLt imm.isLt hw
    refine ⟨hl, op_of ho ?_⟩
    show (Except.ok (Instr.xori (sreg w 7) (sreg w 13) (BitVec.ofNat 13 (w / 2 ^ 19)))) = _
    rw [sreg_of f0, sreg_of f1, bv_of f2]
  exact fun _ _ => key _ rfl

theorem shli (d : SReg) (a : SReg) (n : BitVec 6) : Statement (.shli d a n) := by
  have key : ∀ w, w = 6 + d.val * 128 + a.val * 8192 + n.toNat * 524288 →
      w < 2 ^ 32 ∧ decodeOp w = .ok (.shli d a n) := by
    intro w hw
    obtain ⟨hl, ho, z0, f0, f1, f2⟩ := shape5 (op := 6) (by decide) d.isLt a.isLt n.isLt hw
    refine ⟨hl, op_of ho ?_⟩
    show (if fld w 25 7 == 0 then Except.ok (Instr.shli (sreg w 7) (sreg w 13) (BitVec.ofNat 6 (w / 2 ^ 19))) else _) = _
    rw [zero_of z0, sreg_of f0, sreg_of f1, bv_of f2]
    rfl
  exact fun _ _ => key _ rfl

theorem shri (d : SReg) (a : SReg) (n : BitVec 6) : Statement (.shri d a n) := by
  have key : ∀ w, w = 7 + d.val * 128 + a.val * 8192 + n.toNat * 524288 →
      w < 2 ^ 32 ∧ decodeOp w = .ok (.shri d a n) := by
    intro w hw
    obtain ⟨hl, ho, z0, f0, f1, f2⟩ := shape5 (op := 7) (by decide) d.isLt a.isLt n.isLt hw
    refine ⟨hl, op_of ho ?_⟩
    show (if fld w 25 7 == 0 then Except.ok (Instr.shri (sreg w 7) (sreg w 13) (BitVec.ofNat 6 (w / 2 ^ 19))) else _) = _
    rw [zero_of z0, sreg_of f0, sreg_of f1, bv_of f2]
    rfl
  exact fun _ _ => key _ rfl

theorem shai (d : SReg) (a : SReg) (n : BitVec 6) : Statement (.shai d a n) := by
  have key : ∀ w, w = 8 + d.val * 128 + a.val * 8192 + n.toNat * 524288 →
      w < 2 ^ 32 ∧ decodeOp w = .ok (.shai d a n) := by
    intro w hw
    obtain ⟨hl, ho, z0, f0, f1, f2⟩ := shape5 (op := 8) (by decide) d.isLt a.isLt n.isLt hw
    refine ⟨hl, op_of ho ?_⟩
    show (if fld w 25 7 == 0 then Except.ok (Instr.shai (sreg w 7) (sreg w 13) (BitVec.ofNat 6 (w / 2 ^ 19))) else _) = _
    rw [zero_of z0, sreg_of f0, sreg_of f1, bv_of f2]
    rfl
  exact fun _ _ => key _ rfl

theorem slti (d : SReg) (a : SReg) (imm : BitVec 13) : Statement (.slti d a imm) := by
  have key : ∀ w, w = 9 + d.val * 128 + a.val * 8192 + imm.toNat * 524288 →
      w < 2 ^ 32 ∧ decodeOp w = .ok (.slti d a imm) := by
    intro w hw
    obtain ⟨hl, ho, f0, f1, f2⟩ := shape4 (op := 9) (by decide) d.isLt a.isLt imm.isLt hw
    refine ⟨hl, op_of ho ?_⟩
    show (Except.ok (Instr.slti (sreg w 7) (sreg w 13) (BitVec.ofNat 13 (w / 2 ^ 19)))) = _
    rw [sreg_of f0, sreg_of f1, bv_of f2]
  exact fun _ _ => key _ rfl

theorem sltni (d : SReg) (a : SReg) (imm : BitVec 13) : Statement (.sltni d a imm) := by
  have key : ∀ w, w = 10 + d.val * 128 + a.val * 8192 + imm.toNat * 524288 →
      w < 2 ^ 32 ∧ decodeOp w = .ok (.sltni d a imm) := by
    intro w hw
    obtain ⟨hl, ho, f0, f1, f2⟩ := shape4 (op := 10) (by decide) d.isLt a.isLt imm.isLt hw
    refine ⟨hl, op_of ho ?_⟩
    show (Except.ok (Instr.sltni (sreg w 7) (sreg w 13) (BitVec.ofNat 13 (w / 2 ^ 19)))) = _
    rw [sreg_of f0, sreg_of f1, bv_of f2]
  exact fun _ _ => key _ rfl

theorem lih (d : SReg) (imm : BitVec 19) : Statement (.lih d imm) := by
  have key : ∀ w, w = 11 + d.val * 128 + imm.toNat * 8192 →
      w < 2 ^ 32 ∧ decodeOp w = .ok (.lih d imm) := by
    intro w hw
    obtain ⟨hl, ho, f0, f1⟩ := shape6 (op := 11) (by decide) d.isLt imm.isLt hw
    refine ⟨hl, op_of ho ?_⟩
    show (Except.ok (Instr.lih (sreg w 7) (BitVec.ofNat 19 (w / 2 ^ 13)))) = _
    rw [sreg_of f0, bv_of f1]
  exact fun _ _ => key _ rfl

theorem addpc (d : SReg) (imm : BitVec 19) : Statement (.addpc d imm) := by
  have key : ∀ w, w = 12 + d.val * 128 + imm.toNat * 8192 →
      w < 2 ^ 32 ∧ decodeOp w = .ok (.addpc d imm) := by
    intro w hw
    obtain ⟨hl, ho, f0, f1⟩ := shape6 (op := 12) (by decide) d.isLt imm.isLt hw
    refine ⟨hl, op_of ho ?_⟩
    show (Except.ok (Instr.addpc (sreg w 7) (BitVec.ofNat 19 (w / 2 ^ 13)))) = _
    rw [sreg_of f0, bv_of f1]
  exact fun _ _ => key _ rfl

theorem imm (p : BitVec 25) (q : Option (BitVec 25)) (t : ImmTail) : Statement (.imm p q t) := by
  intro _ h
  cases q with
  | none => exact absurd (congrArg List.length h) (show (2 : Nat) ≠ 1 by decide)
  | some q => exact absurd (congrArg List.length h) (show (3 : Nat) ≠ 1 by decide)

theorem bEq (a : SReg) (b : SReg) (imm : BitVec 13) : Statement (.bEq a b imm) := by
  have key : ∀ w, w = 16 + a.val * 128 + b.val * 8192 + imm.toNat * 524288 →
      w < 2 ^ 32 ∧ decodeOp w = .ok (.bEq a b imm) := by
    intro w hw
    obtain ⟨hl, ho, f0, f1, f2⟩ := shape4 (op := 16) (by decide) a.isLt b.isLt imm.isLt hw
    refine ⟨hl, op_of ho ?_⟩
    show (Except.ok (Instr.bEq (sreg w 7) (sreg w 13) (BitVec.ofNat 13 (w / 2 ^ 19)))) = _
    rw [sreg_of f0, sreg_of f1, bv_of f2]
  exact fun _ _ => key _ rfl

theorem bNe (a : SReg) (b : SReg) (imm : BitVec 13) : Statement (.bNe a b imm) := by
  have key : ∀ w, w = 17 + a.val * 128 + b.val * 8192 + imm.toNat * 524288 →
      w < 2 ^ 32 ∧ decodeOp w = .ok (.bNe a b imm) := by
    intro w hw
    obtain ⟨hl, ho, f0, f1, f2⟩ := shape4 (op := 17) (by decide) a.isLt b.isLt imm.isLt hw
    refine ⟨hl, op_of ho ?_⟩
    show (Except.ok (Instr.bNe (sreg w 7) (sreg w 13) (BitVec.ofNat 13 (w / 2 ^ 19)))) = _
    rw [sreg_of f0, sreg_of f1, bv_of f2]
  exact fun _ _ => key _ rfl

theorem bLt (a : SReg) (b : SReg) (imm : BitVec 13) : Statement (.bLt a b imm) := by
  have key : ∀ w, w = 18 + a.val * 128 + b.val * 8192 + imm.toNat * 524288 →
      w < 2 ^ 32 ∧ decodeOp w = .ok (.bLt a b imm) := by
    intro w hw
    obtain ⟨hl, ho, f0, f1, f2⟩ := shape4 (op := 18) (by decide) a.isLt b.isLt imm.isLt hw
    refine ⟨hl, op_of ho ?_⟩
    show (Except.ok (Instr.bLt (sreg w 7) (sreg w 13) (BitVec.ofNat 13 (w / 2 ^ 19)))) = _
    rw [sreg_of f0, sreg_of f1, bv_of f2]
  exact fun _ _ => key _ rfl

theorem bGe (a : SReg) (b : SReg) (imm : BitVec 13) : Statement (.bGe a b imm) := by
  have key : ∀ w, w = 19 + a.val * 128 + b.val * 8192 + imm.toNat * 524288 →
      w < 2 ^ 32 ∧ decodeOp w = .ok (.bGe a b imm) := by
    intro w hw
    obtain ⟨hl, ho, f0, f1, f2⟩ := shape4 (op := 19) (by decide) a.isLt b.isLt imm.isLt hw
    refine ⟨hl, op_of ho ?_⟩
    show (Except.ok (Instr.bGe (sreg w 7) (sreg w 13) (BitVec.ofNat 13 (w / 2 ^ 19)))) = _
    rw [sreg_of f0, sreg_of f1, bv_of f2]
  exact fun _ _ => key _ rfl

theorem bLtn (a : SReg) (b : SReg) (imm : BitVec 13) : Statement (.bLtn a b imm) := by
  have key : ∀ w, w = 20 + a.val * 128 + b.val * 8192 + imm.toNat * 524288 →
      w < 2 ^ 32 ∧ decodeOp w = .ok (.bLtn a b imm) := by
    intro w hw
    obtain ⟨hl, ho, f0, f1, f2⟩ := shape4 (op := 20) (by decide) a.isLt b.isLt imm.isLt hw
    refine ⟨hl, op_of ho ?_⟩
    show (Except.ok (Instr.bLtn (sreg w 7) (sreg w 13) (BitVec.ofNat 13 (w / 2 ^ 19)))) = _
    rw [sreg_of f0, sreg_of f1, bv_of f2]
  exact fun _ _ => key _ rfl

theorem bGen (a : SReg) (b : SReg) (imm : BitVec 13) : Statement (.bGen a b imm) := by
  have key : ∀ w, w = 21 + a.val * 128 + b.val * 8192 + imm.toNat * 524288 →
      w < 2 ^ 32 ∧ decodeOp w = .ok (.bGen a b imm) := by
    intro w hw
    obtain ⟨hl, ho, f0, f1, f2⟩ := shape4 (op := 21) (by decide) a.isLt b.isLt imm.isLt hw
    refine ⟨hl, op_of ho ?_⟩
    show (Except.ok (Instr.bGen (sreg w 7) (sreg w 13) (BitVec.ofNat 13 (w / 2 ^ 19)))) = _
    rw [sreg_of f0, sreg_of f1, bv_of f2]
  exact fun _ _ => key _ rfl

theorem bp (p : PReg) (mode : BpMode) (imm : BitVec 19) : Statement (.bp p mode imm) := by
  have key : ∀ w, w = 22 + p.val * 128 + mode.code * 1024 + imm.toNat * 8192 →
      w < 2 ^ 32 ∧ decodeOp w = .ok (.bp p mode imm) := by
    intro w hw
    obtain ⟨hl, ho, f0, f1, f2⟩ := shape7 (op := 22) (by decide) p.isLt (bpmode_lt mode) imm.isLt hw
    refine ⟨hl, op_of ho ?_⟩
    show (match BpMode.ofCode? (fld w 10 3) with | some mode => Except.ok (Instr.bp (preg w 7) mode (BitVec.ofNat 19 (w / 2 ^ 13))) | none => _) = _
    rw [preg_of f0, bpmode_of f1, bv_of f2]
  exact fun _ _ => key _ rfl

theorem j (imm : BitVec 19) : Statement (.j imm) := by
  have key : ∀ w, w = 23 + imm.toNat * 8192 →
      w < 2 ^ 32 ∧ decodeOp w = .ok (.j imm) := by
    intro w hw
    obtain ⟨hl, ho, z0, f0⟩ := shape8 (op := 23) (by decide) imm.isLt hw
    refine ⟨hl, op_of ho ?_⟩
    show (if fld w 7 6 == 0 then Except.ok (Instr.j (BitVec.ofNat 19 (w / 2 ^ 13))) else _) = _
    rw [zero_of z0, bv_of f0]
    rfl
  exact fun _ _ => key _ rfl

theorem call (d : SReg) (imm : BitVec 19) : Statement (.call d imm) := by
  have key : ∀ w, w = 24 + d.val * 128 + imm.toNat * 8192 →
      w < 2 ^ 32 ∧ decodeOp w = .ok (.call d imm) := by
    intro w hw
    obtain ⟨hl, ho, f0, f1⟩ := shape6 (op := 24) (by decide) d.isLt imm.isLt hw
    refine ⟨hl, op_of ho ?_⟩
    show (Except.ok (Instr.call (sreg w 7) (BitVec.ofNat 19 (w / 2 ^ 13)))) = _
    rw [sreg_of f0, bv_of f1]
  exact fun _ _ => key _ rfl

theorem callr (d : SReg) (a : SReg) (argc : Fin 16) : Statement (.callr d a argc) := by
  have key : ∀ w, w = 25 + 0 * 536870912 + d.val * 128 + a.val * 8192 + argc.val * 33554432 →
      w < 2 ^ 32 ∧ decodeOp w = .ok (.callr d a argc) := by
    intro w hw
    obtain ⟨hl, ho, hf, z0, z1, f0, f1, f2⟩ := shape9 (op := 25) (fn := 0) (by decide) (by decide) d.isLt a.isLt argc.isLt hw
    refine ⟨hl, op_of ho ?_⟩
    refine callr_of hf ?_
    show (if fld w 19 6 == 0 && fld w 30 2 == 0 then Except.ok (Instr.callr (sreg w 7) (sreg w 13) (Fin.ofNat 16 (w / 2 ^ 25))) else _) = _
    rw [zero_of z0, zero_of z1, sreg_of f0, sreg_of f1, fin_of (n := 16) f2]
    rfl
  exact fun _ _ => key _ rfl

theorem callrV (d : SReg) (a : SReg) (argc : Fin 16) : Statement (.callrV d a argc) := by
  have key : ∀ w, w = 25 + 1 * 536870912 + d.val * 128 + a.val * 8192 + argc.val * 33554432 →
      w < 2 ^ 32 ∧ decodeOp w = .ok (.callrV d a argc) := by
    intro w hw
    obtain ⟨hl, ho, hf, z0, z1, f0, f1, f2⟩ := shape9 (op := 25) (fn := 1) (by decide) (by decide) d.isLt a.isLt argc.isLt hw
    refine ⟨hl, op_of ho ?_⟩
    refine callr_of hf ?_
    show (if fld w 19 6 == 0 && fld w 30 2 == 0 then Except.ok (Instr.callrV (sreg w 7) (sreg w 13) (Fin.ofNat 16 (w / 2 ^ 25))) else _) = _
    rw [zero_of z0, zero_of z1, sreg_of f0, sreg_of f1, fin_of (n := 16) f2]
    rfl
  exact fun _ _ => key _ rfl

theorem jr (a : SReg) : Statement (.jr a) := by
  have key : ∀ w, w = 26 + a.val * 8192 →
      w < 2 ^ 32 ∧ decodeOp w = .ok (.jr a) := by
    intro w hw
    obtain ⟨hl, ho, z0, z1, f0⟩ := shape10 (op := 26) (by decide) a.isLt hw
    refine ⟨hl, op_of ho ?_⟩
    show (if fld w 7 6 == 0 && fld w 19 13 == 0 then Except.ok (Instr.jr (sreg w 13)) else _) = _
    rw [zero_of z0, zero_of z1, sreg_of f0]
    rfl
  exact fun _ _ => key _ rfl

theorem ret (a : SReg) : Statement (.ret a) := by
  have key : ∀ w, w = 27 + a.val * 8192 →
      w < 2 ^ 32 ∧ decodeOp w = .ok (.ret a) := by
    intro w hw
    obtain ⟨hl, ho, z0, z1, f0⟩ := shape10 (op := 27) (by decide) a.isLt hw
    refine ⟨hl, op_of ho ?_⟩
    show (if fld w 7 6 == 0 && fld w 19 13 == 0 then Except.ok (Instr.ret (sreg w 13)) else _) = _
    rw [zero_of z0, zero_of z1, sreg_of f0]
    rfl
  exact fun _ _ => key _ rfl

theorem trap (n : BitVec 6) : Statement (.trap n) := by
  have key : ∀ w, w = 28 + 0 * 33554432 + n.toNat * 524288 →
      w < 2 ^ 32 ∧ decodeOp w = .ok (.trap n) := by
    intro w hw
    obtain ⟨hl, ho, hf, z0, f0⟩ := shape11 (op := 28) (fn := 0) (by decide) (by decide) n.isLt hw
    refine ⟨hl, op_of ho ?_⟩
    refine sys_of hf ?_
    show (if fld w 7 12 == 0 then Except.ok (Instr.trap (BitVec.ofNat 6 (w / 2 ^ 19))) else _) = _
    rw [zero_of z0, bv_of f0]
    rfl
  exact fun _ _ => key _ rfl

theorem brk : Statement (.brk) := by
  have key : ∀ w, w = 28 + 1 * 33554432 →
      w < 2 ^ 32 ∧ decodeOp w = .ok (.brk) := by
    intro w hw
    obtain ⟨hl, ho, hf, z0⟩ := shape12 (op := 28) (fn := 1) (by decide) (by decide) hw
    refine ⟨hl, op_of ho ?_⟩
    refine sys_of hf ?_
    show (if fld w 7 18 == 0 then Except.ok (Instr.brk) else _) = _
    rw [zero_of z0]
    rfl
  exact fun _ _ => key _ rfl

theorem eret : Statement (.eret) := by
  have key : ∀ w, w = 28 + 2 * 33554432 →
      w < 2 ^ 32 ∧ decodeOp w = .ok (.eret) := by
    intro w hw
    obtain ⟨hl, ho, hf, z0⟩ := shape12 (op := 28) (fn := 2) (by decide) (by decide) hw
    refine ⟨hl, op_of ho ?_⟩
    refine sys_of hf ?_
    show (if fld w 7 18 == 0 then Except.ok (Instr.eret) else _) = _
    rw [zero_of z0]
    rfl
  exact fun _ _ => key _ rfl

theorem isync : Statement (.isync) := by
  have key : ∀ w, w = 28 + 3 * 33554432 →
      w < 2 ^ 32 ∧ decodeOp w = .ok (.isync) := by
    intro w hw
    obtain ⟨hl, ho, hf, z0⟩ := shape12 (op := 28) (fn := 3) (by decide) (by decide) hw
    refine ⟨hl, op_of ho ?_⟩
    refine sys_of hf ?_
    show (if fld w 7 18 == 0 then Except.ok (Instr.isync) else _) = _
    rw [zero_of z0]
    rfl
  exact fun _ _ => key _ rfl

theorem yield : Statement (.yield) := by
  have key : ∀ w, w = 28 + 4 * 33554432 →
      w < 2 ^ 32 ∧ decodeOp w = .ok (.yield) := by
    intro w hw
    obtain ⟨hl, ho, hf, z0⟩ := shape12 (op := 28) (fn := 4) (by decide) (by decide) hw
    refine ⟨hl, op_of ho ?_⟩
    refine sys_of hf ?_
    show (if fld w 7 18 == 0 then Except.ok (Instr.yield) else _) = _
    rw [zero_of z0]
    rfl
  exact fun _ _ => key _ rfl

theorem halt : Statement (.halt) := by
  have key : ∀ w, w = 28 + 5 * 33554432 →
      w < 2 ^ 32 ∧ decodeOp w = .ok (.halt) := by
    intro w hw
    obtain ⟨hl, ho, hf, z0⟩ := shape12 (op := 28) (fn := 5) (by decide) (by decide) hw
    refine ⟨hl, op_of ho ?_⟩
    refine sys_of hf ?_
    show (if fld w 7 18 == 0 then Except.ok (Instr.halt) else _) = _
    rw [zero_of z0]
    rfl
  exact fun _ _ => key _ rfl

theorem waite : Statement (.waite) := by
  have key : ∀ w, w = 28 + 6 * 33554432 →
      w < 2 ^ 32 ∧ decodeOp w = .ok (.waite) := by
    intro w hw
    obtain ⟨hl, ho, hf, z0⟩ := shape12 (op := 28) (fn := 6) (by decide) (by decide) hw
    refine ⟨hl, op_of ho ?_⟩
    refine sys_of hf ?_
    show (if fld w 7 18 == 0 then Except.ok (Instr.waite) else _) = _
    rw [zero_of z0]
    rfl
  exact fun _ _ => key _ rfl

theorem ldB (t : SReg) (base : SReg) (sem : Sem) (scope : Scope) (off : BitVec 9) : Statement (.ldB t base sem scope off) := by
  have key : ∀ w, w = 32 + t.val * 128 + base.val * 8192 + sem.code * 524288 + scope.code * 2097152 + off.toNat * 8388608 →
      w < 2 ^ 32 ∧ decodeOp w = .ok (.ldB t base sem scope off) := by
    intro w hw
    obtain ⟨hl, ho, f0, f1, f2, f3, f4⟩ := shape13 (op := 32) (by decide) t.isLt base.isLt (sem_lt sem) (scope_lt scope) off.isLt hw
    refine ⟨hl, op_of ho ?_⟩
    show (Except.ok (Instr.ldB (sreg w 7) (sreg w 13) (Sem.ofCode (fld w 19 2)) (Scope.ofCode (fld w 21 2)) (BitVec.ofNat 9 (w / 2 ^ 23)))) = _
    rw [sreg_of f0, sreg_of f1, sem_of f2, scope_of f3, bv_of f4]
  exact fun _ _ => key _ rfl

theorem ldH (t : SReg) (base : SReg) (sem : Sem) (scope : Scope) (off : BitVec 9) : Statement (.ldH t base sem scope off) := by
  have key : ∀ w, w = 33 + t.val * 128 + base.val * 8192 + sem.code * 524288 + scope.code * 2097152 + off.toNat * 8388608 →
      w < 2 ^ 32 ∧ decodeOp w = .ok (.ldH t base sem scope off) := by
    intro w hw
    obtain ⟨hl, ho, f0, f1, f2, f3, f4⟩ := shape13 (op := 33) (by decide) t.isLt base.isLt (sem_lt sem) (scope_lt scope) off.isLt hw
    refine ⟨hl, op_of ho ?_⟩
    show (Except.ok (Instr.ldH (sreg w 7) (sreg w 13) (Sem.ofCode (fld w 19 2)) (Scope.ofCode (fld w 21 2)) (BitVec.ofNat 9 (w / 2 ^ 23)))) = _
    rw [sreg_of f0, sreg_of f1, sem_of f2, scope_of f3, bv_of f4]
  exact fun _ _ => key _ rfl

theorem ldW (t : SReg) (base : SReg) (sem : Sem) (scope : Scope) (off : BitVec 9) : Statement (.ldW t base sem scope off) := by
  have key : ∀ w, w = 34 + t.val * 128 + base.val * 8192 + sem.code * 524288 + scope.code * 2097152 + off.toNat * 8388608 →
      w < 2 ^ 32 ∧ decodeOp w = .ok (.ldW t base sem scope off) := by
    intro w hw
    obtain ⟨hl, ho, f0, f1, f2, f3, f4⟩ := shape13 (op := 34) (by decide) t.isLt base.isLt (sem_lt sem) (scope_lt scope) off.isLt hw
    refine ⟨hl, op_of ho ?_⟩
    show (Except.ok (Instr.ldW (sreg w 7) (sreg w 13) (Sem.ofCode (fld w 19 2)) (Scope.ofCode (fld w 21 2)) (BitVec.ofNat 9 (w / 2 ^ 23)))) = _
    rw [sreg_of f0, sreg_of f1, sem_of f2, scope_of f3, bv_of f4]
  exact fun _ _ => key _ rfl

theorem ldD (t : SReg) (base : SReg) (sem : Sem) (scope : Scope) (off : BitVec 9) : Statement (.ldD t base sem scope off) := by
  have key : ∀ w, w = 35 + t.val * 128 + base.val * 8192 + sem.code * 524288 + scope.code * 2097152 + off.toNat * 8388608 →
      w < 2 ^ 32 ∧ decodeOp w = .ok (.ldD t base sem scope off) := by
    intro w hw
    obtain ⟨hl, ho, f0, f1, f2, f3, f4⟩ := shape13 (op := 35) (by decide) t.isLt base.isLt (sem_lt sem) (scope_lt scope) off.isLt hw
    refine ⟨hl, op_of ho ?_⟩
    show (Except.ok (Instr.ldD (sreg w 7) (sreg w 13) (Sem.ofCode (fld w 19 2)) (Scope.ofCode (fld w 21 2)) (BitVec.ofNat 9 (w / 2 ^ 23)))) = _
    rw [sreg_of f0, sreg_of f1, sem_of f2, scope_of f3, bv_of f4]
  exact fun _ _ => key _ rfl

theorem ldNb (t : SReg) (base : SReg) (sem : Sem) (scope : Scope) (off : BitVec 9) : Statement (.ldNb t base sem scope off) := by
  have key : ∀ w, w = 36 + t.val * 128 + base.val * 8192 + sem.code * 524288 + scope.code * 2097152 + off.toNat * 8388608 →
      w < 2 ^ 32 ∧ decodeOp w = .ok (.ldNb t base sem scope off) := by
    intro w hw
    obtain ⟨hl, ho, f0, f1, f2, f3, f4⟩ := shape13 (op := 36) (by decide) t.isLt base.isLt (sem_lt sem) (scope_lt scope) off.isLt hw
    refine ⟨hl, op_of ho ?_⟩
    show (Except.ok (Instr.ldNb (sreg w 7) (sreg w 13) (Sem.ofCode (fld w 19 2)) (Scope.ofCode (fld w 21 2)) (BitVec.ofNat 9 (w / 2 ^ 23)))) = _
    rw [sreg_of f0, sreg_of f1, sem_of f2, scope_of f3, bv_of f4]
  exact fun _ _ => key _ rfl

theorem ldNh (t : SReg) (base : SReg) (sem : Sem) (scope : Scope) (off : BitVec 9) : Statement (.ldNh t base sem scope off) := by
  have key : ∀ w, w = 37 + t.val * 128 + base.val * 8192 + sem.code * 524288 + scope.code * 2097152 + off.toNat * 8388608 →
      w < 2 ^ 32 ∧ decodeOp w = .ok (.ldNh t base sem scope off) := by
    intro w hw
    obtain ⟨hl, ho, f0, f1, f2, f3, f4⟩ := shape13 (op := 37) (by decide) t.isLt base.isLt (sem_lt sem) (scope_lt scope) off.isLt hw
    refine ⟨hl, op_of ho ?_⟩
    show (Except.ok (Instr.ldNh (sreg w 7) (sreg w 13) (Sem.ofCode (fld w 19 2)) (Scope.ofCode (fld w 21 2)) (BitVec.ofNat 9 (w / 2 ^ 23)))) = _
    rw [sreg_of f0, sreg_of f1, sem_of f2, scope_of f3, bv_of f4]
  exact fun _ _ => key _ rfl

theorem ldNw (t : SReg) (base : SReg) (sem : Sem) (scope : Scope) (off : BitVec 9) : Statement (.ldNw t base sem scope off) := by
  have key : ∀ w, w = 38 + t.val * 128 + base.val * 8192 + sem.code * 524288 + scope.code * 2097152 + off.toNat * 8388608 →
      w < 2 ^ 32 ∧ decodeOp w = .ok (.ldNw t base sem scope off) := by
    intro w hw
    obtain ⟨hl, ho, f0, f1, f2, f3, f4⟩ := shape13 (op := 38) (by decide) t.isLt base.isLt (sem_lt sem) (scope_lt scope) off.isLt hw
    refine ⟨hl, op_of ho ?_⟩
    show (Except.ok (Instr.ldNw (sreg w 7) (sreg w 13) (Sem.ofCode (fld w 19 2)) (Scope.ofCode (fld w 21 2)) (BitVec.ofNat 9 (w / 2 ^ 23)))) = _
    rw [sreg_of f0, sreg_of f1, sem_of f2, scope_of f3, bv_of f4]
  exact fun _ _ => key _ rfl

theorem ldQ (t : SReg) (base : SReg) (sem : Sem) (scope : Scope) (off : BitVec 9) : Statement (.ldQ t base sem scope off) := by
  have key : ∀ w, w = 39 + t.val * 128 + base.val * 8192 + sem.code * 524288 + scope.code * 2097152 + off.toNat * 8388608 →
      w < 2 ^ 32 ∧ decodeOp w = .ok (.ldQ t base sem scope off) := by
    intro w hw
    obtain ⟨hl, ho, f0, f1, f2, f3, f4⟩ := shape13 (op := 39) (by decide) t.isLt base.isLt (sem_lt sem) (scope_lt scope) off.isLt hw
    refine ⟨hl, op_of ho ?_⟩
    show (Except.ok (Instr.ldQ (sreg w 7) (sreg w 13) (Sem.ofCode (fld w 19 2)) (Scope.ofCode (fld w 21 2)) (BitVec.ofNat 9 (w / 2 ^ 23)))) = _
    rw [sreg_of f0, sreg_of f1, sem_of f2, scope_of f3, bv_of f4]
  exact fun _ _ => key _ rfl

theorem stB (t : SReg) (base : SReg) (sem : Sem) (scope : Scope) (off : BitVec 9) : Statement (.stB t base sem scope off) := by
  have key : ∀ w, w = 40 + t.val * 128 + base.val * 8192 + sem.code * 524288 + scope.code * 2097152 + off.toNat * 8388608 →
      w < 2 ^ 32 ∧ decodeOp w = .ok (.stB t base sem scope off) := by
    intro w hw
    obtain ⟨hl, ho, f0, f1, f2, f3, f4⟩ := shape13 (op := 40) (by decide) t.isLt base.isLt (sem_lt sem) (scope_lt scope) off.isLt hw
    refine ⟨hl, op_of ho ?_⟩
    show (Except.ok (Instr.stB (sreg w 7) (sreg w 13) (Sem.ofCode (fld w 19 2)) (Scope.ofCode (fld w 21 2)) (BitVec.ofNat 9 (w / 2 ^ 23)))) = _
    rw [sreg_of f0, sreg_of f1, sem_of f2, scope_of f3, bv_of f4]
  exact fun _ _ => key _ rfl

theorem stH (t : SReg) (base : SReg) (sem : Sem) (scope : Scope) (off : BitVec 9) : Statement (.stH t base sem scope off) := by
  have key : ∀ w, w = 41 + t.val * 128 + base.val * 8192 + sem.code * 524288 + scope.code * 2097152 + off.toNat * 8388608 →
      w < 2 ^ 32 ∧ decodeOp w = .ok (.stH t base sem scope off) := by
    intro w hw
    obtain ⟨hl, ho, f0, f1, f2, f3, f4⟩ := shape13 (op := 41) (by decide) t.isLt base.isLt (sem_lt sem) (scope_lt scope) off.isLt hw
    refine ⟨hl, op_of ho ?_⟩
    show (Except.ok (Instr.stH (sreg w 7) (sreg w 13) (Sem.ofCode (fld w 19 2)) (Scope.ofCode (fld w 21 2)) (BitVec.ofNat 9 (w / 2 ^ 23)))) = _
    rw [sreg_of f0, sreg_of f1, sem_of f2, scope_of f3, bv_of f4]
  exact fun _ _ => key _ rfl

theorem stW (t : SReg) (base : SReg) (sem : Sem) (scope : Scope) (off : BitVec 9) : Statement (.stW t base sem scope off) := by
  have key : ∀ w, w = 42 + t.val * 128 + base.val * 8192 + sem.code * 524288 + scope.code * 2097152 + off.toNat * 8388608 →
      w < 2 ^ 32 ∧ decodeOp w = .ok (.stW t base sem scope off) := by
    intro w hw
    obtain ⟨hl, ho, f0, f1, f2, f3, f4⟩ := shape13 (op := 42) (by decide) t.isLt base.isLt (sem_lt sem) (scope_lt scope) off.isLt hw
    refine ⟨hl, op_of ho ?_⟩
    show (Except.ok (Instr.stW (sreg w 7) (sreg w 13) (Sem.ofCode (fld w 19 2)) (Scope.ofCode (fld w 21 2)) (BitVec.ofNat 9 (w / 2 ^ 23)))) = _
    rw [sreg_of f0, sreg_of f1, sem_of f2, scope_of f3, bv_of f4]
  exact fun _ _ => key _ rfl

theorem stD (t : SReg) (base : SReg) (sem : Sem) (scope : Scope) (off : BitVec 9) : Statement (.stD t base sem scope off) := by
  have key : ∀ w, w = 43 + t.val * 128 + base.val * 8192 + sem.code * 524288 + scope.code * 2097152 + off.toNat * 8388608 →
      w < 2 ^ 32 ∧ decodeOp w = .ok (.stD t base sem scope off) := by
    intro w hw
    obtain ⟨hl, ho, f0, f1, f2, f3, f4⟩ := shape13 (op := 43) (by decide) t.isLt base.isLt (sem_lt sem) (scope_lt scope) off.isLt hw
    refine ⟨hl, op_of ho ?_⟩
    show (Except.ok (Instr.stD (sreg w 7) (sreg w 13) (Sem.ofCode (fld w 19 2)) (Scope.ofCode (fld w 21 2)) (BitVec.ofNat 9 (w / 2 ^ 23)))) = _
    rw [sreg_of f0, sreg_of f1, sem_of f2, scope_of f3, bv_of f4]
  exact fun _ _ => key _ rfl

theorem stQ (t : SReg) (base : SReg) (sem : Sem) (scope : Scope) (off : BitVec 9) : Statement (.stQ t base sem scope off) := by
  have key : ∀ w, w = 44 + t.val * 128 + base.val * 8192 + sem.code * 524288 + scope.code * 2097152 + off.toNat * 8388608 →
      w < 2 ^ 32 ∧ decodeOp w = .ok (.stQ t base sem scope off) := by
    intro w hw
    obtain ⟨hl, ho, f0, f1, f2, f3, f4⟩ := shape13 (op := 44) (by decide) t.isLt base.isLt (sem_lt sem) (scope_lt scope) off.isLt hw
    refine ⟨hl, op_of ho ?_⟩
    show (Except.ok (Instr.stQ (sreg w 7) (sreg w 13) (Sem.ofCode (fld w 19 2)) (Scope.ofCode (fld w 21 2)) (BitVec.ofNat 9 (w / 2 ^ 23)))) = _
    rw [sreg_of f0, sreg_of f1, sem_of f2, scope_of f3, bv_of f4]
  exact fun _ _ => key _ rfl

theorem ldx (d : SReg) (a : SReg) (b : SReg) (size : XSize) (sem : Sem) (scope : Scope) : Statement (.ldx d a b size sem scope) := by
  have key : ∀ w, w = 45 + d.val * 128 + a.val * 8192 + b.val * 524288 + size.code * 33554432 + sem.code * 268435456 + scope.code * 1073741824 →
      w < 2 ^ 32 ∧ decodeOp w = .ok (.ldx d a b size sem scope) := by
    intro w hw
    obtain ⟨hl, ho, f0, f1, f2, f3, f4, f5⟩ := shape14 (op := 45) (by decide) d.isLt a.isLt b.isLt (xsize_lt size) (sem_lt sem) (scope_lt scope) hw
    refine ⟨hl, op_of ho ?_⟩
    show (Except.ok (Instr.ldx (sreg w 7) (sreg w 13) (sreg w 19) (XSize.ofCode (fld w 25 3)) (Sem.ofCode (fld w 28 2)) (Scope.ofCode (fld w 30 2)))) = _
    rw [sreg_of f0, sreg_of f1, sreg_of f2, xsize_of f3, sem_of f4, scope_of f5]
  exact fun _ _ => key _ rfl

theorem stx (d : SReg) (a : SReg) (b : SReg) (size : XSize) (sem : Sem) (scope : Scope) : Statement (.stx d a b size sem scope) := by
  have key : ∀ w, w = 46 + d.val * 128 + a.val * 8192 + b.val * 524288 + size.code * 33554432 + sem.code * 268435456 + scope.code * 1073741824 →
      w < 2 ^ 32 ∧ decodeOp w = .ok (.stx d a b size sem scope) := by
    intro w hw
    obtain ⟨hl, ho, f0, f1, f2, f3, f4, f5⟩ := shape14 (op := 46) (by decide) d.isLt a.isLt b.isLt (xsize_lt size) (sem_lt sem) (scope_lt scope) hw
    refine ⟨hl, op_of ho ?_⟩
    show (Except.ok (Instr.stx (sreg w 7) (sreg w 13) (sreg w 19) (XSize.ofCode (fld w 25 3)) (Sem.ofCode (fld w 28 2)) (Scope.ofCode (fld w 30 2)))) = _
    rw [sreg_of f0, sreg_of f1, sreg_of f2, xsize_of f3, sem_of f4, scope_of f5]
  exact fun _ _ => key _ rfl

theorem pf (hint : BitVec 2) (base : SReg) (off : BitVec 9) : Statement (.pf hint base off) := by
  have key : ∀ w, w = 47 + hint.toNat * 128 + base.val * 8192 + off.toNat * 8388608 →
      w < 2 ^ 32 ∧ decodeOp w = .ok (.pf hint base off) := by
    intro w hw
    obtain ⟨hl, ho, z0, z1, f0, f1, f2⟩ := shape15 (op := 47) (by decide) hint.isLt base.isLt off.isLt hw
    refine ⟨hl, op_of ho ?_⟩
    show (if fld w 9 4 == 0 && fld w 19 4 == 0 then Except.ok (Instr.pf (BitVec.ofNat 2 (w / 2 ^ 7)) (sreg w 13) (BitVec.ofNat 9 (w / 2 ^ 23))) else _) = _
    rw [zero_of z0, zero_of z1, bv_of f0, sreg_of f1, bv_of f2]
    rfl
  exact fun _ _ => key _ rfl

theorem atAAdd (d : SReg) (a : SReg) (b : SReg) (sem : Sem) (scope : Scope) : Statement (.atAAdd d a b sem scope) := by
  have key : ∀ w, w = 48 + 0 * 536870912 + d.val * 128 + a.val * 8192 + b.val * 524288 + sem.code * 33554432 + scope.code * 134217728 →
      w < 2 ^ 32 ∧ decodeOp w = .ok (.atAAdd d a b sem scope) := by
    intro w hw
    obtain ⟨hl, ho, hf, f0, f1, f2, f3, f4⟩ := shape16 (op := 48) (fn := 0) (by decide) (by decide) d.isLt a.isLt b.isLt (sem_lt sem) (scope_lt scope) hw
    refine ⟨hl, op_of ho ?_⟩
    refine ata_of hf ?_
    show (Except.ok (Instr.atAAdd (sreg w 7) (sreg w 13) (sreg w 19) (Sem.ofCode (fld w 25 2)) (Scope.ofCode (fld w 27 2)))) = _
    rw [sreg_of f0, sreg_of f1, sreg_of f2, sem_of f3, scope_of f4]
  exact fun _ _ => key _ rfl

theorem atAAnd (d : SReg) (a : SReg) (b : SReg) (sem : Sem) (scope : Scope) : Statement (.atAAnd d a b sem scope) := by
  have key : ∀ w, w = 48 + 1 * 536870912 + d.val * 128 + a.val * 8192 + b.val * 524288 + sem.code * 33554432 + scope.code * 134217728 →
      w < 2 ^ 32 ∧ decodeOp w = .ok (.atAAnd d a b sem scope) := by
    intro w hw
    obtain ⟨hl, ho, hf, f0, f1, f2, f3, f4⟩ := shape16 (op := 48) (fn := 1) (by decide) (by decide) d.isLt a.isLt b.isLt (sem_lt sem) (scope_lt scope) hw
    refine ⟨hl, op_of ho ?_⟩
    refine ata_of hf ?_
    show (Except.ok (Instr.atAAnd (sreg w 7) (sreg w 13) (sreg w 19) (Sem.ofCode (fld w 25 2)) (Scope.ofCode (fld w 27 2)))) = _
    rw [sreg_of f0, sreg_of f1, sreg_of f2, sem_of f3, scope_of f4]
  exact fun _ _ => key _ rfl

theorem atAOr (d : SReg) (a : SReg) (b : SReg) (sem : Sem) (scope : Scope) : Statement (.atAOr d a b sem scope) := by
  have key : ∀ w, w = 48 + 2 * 536870912 + d.val * 128 + a.val * 8192 + b.val * 524288 + sem.code * 33554432 + scope.code * 134217728 →
      w < 2 ^ 32 ∧ decodeOp w = .ok (.atAOr d a b sem scope) := by
    intro w hw
    obtain ⟨hl, ho, hf, f0, f1, f2, f3, f4⟩ := shape16 (op := 48) (fn := 2) (by decide) (by decide) d.isLt a.isLt b.isLt (sem_lt sem) (scope_lt scope) hw
    refine ⟨hl, op_of ho ?_⟩
    refine ata_of hf ?_
    show (Except.ok (Instr.atAOr (sreg w 7) (sreg w 13) (sreg w 19) (Sem.ofCode (fld w 25 2)) (Scope.ofCode (fld w 27 2)))) = _
    rw [sreg_of f0, sreg_of f1, sreg_of f2, sem_of f3, scope_of f4]
  exact fun _ _ => key _ rfl

theorem atAXor (d : SReg) (a : SReg) (b : SReg) (sem : Sem) (scope : Scope) : Statement (.atAXor d a b sem scope) := by
  have key : ∀ w, w = 48 + 3 * 536870912 + d.val * 128 + a.val * 8192 + b.val * 524288 + sem.code * 33554432 + scope.code * 134217728 →
      w < 2 ^ 32 ∧ decodeOp w = .ok (.atAXor d a b sem scope) := by
    intro w hw
    obtain ⟨hl, ho, hf, f0, f1, f2, f3, f4⟩ := shape16 (op := 48) (fn := 3) (by decide) (by decide) d.isLt a.isLt b.isLt (sem_lt sem) (scope_lt scope) hw
    refine ⟨hl, op_of ho ?_⟩
    refine ata_of hf ?_
    show (Except.ok (Instr.atAXor (sreg w 7) (sreg w 13) (sreg w 19) (Sem.ofCode (fld w 25 2)) (Scope.ofCode (fld w 27 2)))) = _
    rw [sreg_of f0, sreg_of f1, sreg_of f2, sem_of f3, scope_of f4]
  exact fun _ _ => key _ rfl

theorem atASwap (d : SReg) (a : SReg) (b : SReg) (sem : Sem) (scope : Scope) : Statement (.atASwap d a b sem scope) := by
  have key : ∀ w, w = 48 + 4 * 536870912 + d.val * 128 + a.val * 8192 + b.val * 524288 + sem.code * 33554432 + scope.code * 134217728 →
      w < 2 ^ 32 ∧ decodeOp w = .ok (.atASwap d a b sem scope) := by
    intro w hw
    obtain ⟨hl, ho, hf, f0, f1, f2, f3, f4⟩ := shape16 (op := 48) (fn := 4) (by decide) (by decide) d.isLt a.isLt b.isLt (sem_lt sem) (scope_lt scope) hw
    refine ⟨hl, op_of ho ?_⟩
    refine ata_of hf ?_
    show (Except.ok (Instr.atASwap (sreg w 7) (sreg w 13) (sreg w 19) (Sem.ofCode (fld w 25 2)) (Scope.ofCode (fld w 27 2)))) = _
    rw [sreg_of f0, sreg_of f1, sreg_of f2, sem_of f3, scope_of f4]
  exact fun _ _ => key _ rfl

theorem atAMin (d : SReg) (a : SReg) (b : SReg) (sem : Sem) (scope : Scope) : Statement (.atAMin d a b sem scope) := by
  have key : ∀ w, w = 48 + 5 * 536870912 + d.val * 128 + a.val * 8192 + b.val * 524288 + sem.code * 33554432 + scope.code * 134217728 →
      w < 2 ^ 32 ∧ decodeOp w = .ok (.atAMin d a b sem scope) := by
    intro w hw
    obtain ⟨hl, ho, hf, f0, f1, f2, f3, f4⟩ := shape16 (op := 48) (fn := 5) (by decide) (by decide) d.isLt a.isLt b.isLt (sem_lt sem) (scope_lt scope) hw
    refine ⟨hl, op_of ho ?_⟩
    refine ata_of hf ?_
    show (Except.ok (Instr.atAMin (sreg w 7) (sreg w 13) (sreg w 19) (Sem.ofCode (fld w 25 2)) (Scope.ofCode (fld w 27 2)))) = _
    rw [sreg_of f0, sreg_of f1, sreg_of f2, sem_of f3, scope_of f4]
  exact fun _ _ => key _ rfl

theorem atAMax (d : SReg) (a : SReg) (b : SReg) (sem : Sem) (scope : Scope) : Statement (.atAMax d a b sem scope) := by
  have key : ∀ w, w = 48 + 6 * 536870912 + d.val * 128 + a.val * 8192 + b.val * 524288 + sem.code * 33554432 + scope.code * 134217728 →
      w < 2 ^ 32 ∧ decodeOp w = .ok (.atAMax d a b sem scope) := by
    intro w hw
    obtain ⟨hl, ho, hf, f0, f1, f2, f3, f4⟩ := shape16 (op := 48) (fn := 6) (by decide) (by decide) d.isLt a.isLt b.isLt (sem_lt sem) (scope_lt scope) hw
    refine ⟨hl, op_of ho ?_⟩
    refine ata_of hf ?_
    show (Except.ok (Instr.atAMax (sreg w 7) (sreg w 13) (sreg w 19) (Sem.ofCode (fld w 25 2)) (Scope.ofCode (fld w 27 2)))) = _
    rw [sreg_of f0, sreg_of f1, sreg_of f2, sem_of f3, scope_of f4]
  exact fun _ _ => key _ rfl

theorem atAFadd (d : SReg) (a : SReg) (b : SReg) (sem : Sem) (scope : Scope) : Statement (.atAFadd d a b sem scope) := by
  have key : ∀ w, w = 48 + 7 * 536870912 + d.val * 128 + a.val * 8192 + b.val * 524288 + sem.code * 33554432 + scope.code * 134217728 →
      w < 2 ^ 32 ∧ decodeOp w = .ok (.atAFadd d a b sem scope) := by
    intro w hw
    obtain ⟨hl, ho, hf, f0, f1, f2, f3, f4⟩ := shape16 (op := 48) (fn := 7) (by decide) (by decide) d.isLt a.isLt b.isLt (sem_lt sem) (scope_lt scope) hw
    refine ⟨hl, op_of ho ?_⟩
    refine ata_of hf ?_
    show (Except.ok (Instr.atAFadd (sreg w 7) (sreg w 13) (sreg w 19) (Sem.ofCode (fld w 25 2)) (Scope.ofCode (fld w 27 2)))) = _
    rw [sreg_of f0, sreg_of f1, sreg_of f2, sem_of f3, scope_of f4]
  exact fun _ _ => key _ rfl

theorem atWAdd (d : SReg) (a : SReg) (b : SReg) (sem : Sem) (scope : Scope) : Statement (.atWAdd d a b sem scope) := by
  have key : ∀ w, w = 49 + 0 * 536870912 + d.val * 128 + a.val * 8192 + b.val * 524288 + sem.code * 33554432 + scope.code * 134217728 →
      w < 2 ^ 32 ∧ decodeOp w = .ok (.atWAdd d a b sem scope) := by
    intro w hw
    obtain ⟨hl, ho, hf, f0, f1, f2, f3, f4⟩ := shape16 (op := 49) (fn := 0) (by decide) (by decide) d.isLt a.isLt b.isLt (sem_lt sem) (scope_lt scope) hw
    refine ⟨hl, op_of ho ?_⟩
    refine atw_of hf ?_
    show (Except.ok (Instr.atWAdd (sreg w 7) (sreg w 13) (sreg w 19) (Sem.ofCode (fld w 25 2)) (Scope.ofCode (fld w 27 2)))) = _
    rw [sreg_of f0, sreg_of f1, sreg_of f2, sem_of f3, scope_of f4]
  exact fun _ _ => key _ rfl

theorem atWAnd (d : SReg) (a : SReg) (b : SReg) (sem : Sem) (scope : Scope) : Statement (.atWAnd d a b sem scope) := by
  have key : ∀ w, w = 49 + 1 * 536870912 + d.val * 128 + a.val * 8192 + b.val * 524288 + sem.code * 33554432 + scope.code * 134217728 →
      w < 2 ^ 32 ∧ decodeOp w = .ok (.atWAnd d a b sem scope) := by
    intro w hw
    obtain ⟨hl, ho, hf, f0, f1, f2, f3, f4⟩ := shape16 (op := 49) (fn := 1) (by decide) (by decide) d.isLt a.isLt b.isLt (sem_lt sem) (scope_lt scope) hw
    refine ⟨hl, op_of ho ?_⟩
    refine atw_of hf ?_
    show (Except.ok (Instr.atWAnd (sreg w 7) (sreg w 13) (sreg w 19) (Sem.ofCode (fld w 25 2)) (Scope.ofCode (fld w 27 2)))) = _
    rw [sreg_of f0, sreg_of f1, sreg_of f2, sem_of f3, scope_of f4]
  exact fun _ _ => key _ rfl

theorem atWOr (d : SReg) (a : SReg) (b : SReg) (sem : Sem) (scope : Scope) : Statement (.atWOr d a b sem scope) := by
  have key : ∀ w, w = 49 + 2 * 536870912 + d.val * 128 + a.val * 8192 + b.val * 524288 + sem.code * 33554432 + scope.code * 134217728 →
      w < 2 ^ 32 ∧ decodeOp w = .ok (.atWOr d a b sem scope) := by
    intro w hw
    obtain ⟨hl, ho, hf, f0, f1, f2, f3, f4⟩ := shape16 (op := 49) (fn := 2) (by decide) (by decide) d.isLt a.isLt b.isLt (sem_lt sem) (scope_lt scope) hw
    refine ⟨hl, op_of ho ?_⟩
    refine atw_of hf ?_
    show (Except.ok (Instr.atWOr (sreg w 7) (sreg w 13) (sreg w 19) (Sem.ofCode (fld w 25 2)) (Scope.ofCode (fld w 27 2)))) = _
    rw [sreg_of f0, sreg_of f1, sreg_of f2, sem_of f3, scope_of f4]
  exact fun _ _ => key _ rfl

theorem atWXor (d : SReg) (a : SReg) (b : SReg) (sem : Sem) (scope : Scope) : Statement (.atWXor d a b sem scope) := by
  have key : ∀ w, w = 49 + 3 * 536870912 + d.val * 128 + a.val * 8192 + b.val * 524288 + sem.code * 33554432 + scope.code * 134217728 →
      w < 2 ^ 32 ∧ decodeOp w = .ok (.atWXor d a b sem scope) := by
    intro w hw
    obtain ⟨hl, ho, hf, f0, f1, f2, f3, f4⟩ := shape16 (op := 49) (fn := 3) (by decide) (by decide) d.isLt a.isLt b.isLt (sem_lt sem) (scope_lt scope) hw
    refine ⟨hl, op_of ho ?_⟩
    refine atw_of hf ?_
    show (Except.ok (Instr.atWXor (sreg w 7) (sreg w 13) (sreg w 19) (Sem.ofCode (fld w 25 2)) (Scope.ofCode (fld w 27 2)))) = _
    rw [sreg_of f0, sreg_of f1, sreg_of f2, sem_of f3, scope_of f4]
  exact fun _ _ => key _ rfl

theorem atWSwap (d : SReg) (a : SReg) (b : SReg) (sem : Sem) (scope : Scope) : Statement (.atWSwap d a b sem scope) := by
  have key : ∀ w, w = 49 + 4 * 536870912 + d.val * 128 + a.val * 8192 + b.val * 524288 + sem.code * 33554432 + scope.code * 134217728 →
      w < 2 ^ 32 ∧ decodeOp w = .ok (.atWSwap d a b sem scope) := by
    intro w hw
    obtain ⟨hl, ho, hf, f0, f1, f2, f3, f4⟩ := shape16 (op := 49) (fn := 4) (by decide) (by decide) d.isLt a.isLt b.isLt (sem_lt sem) (scope_lt scope) hw
    refine ⟨hl, op_of ho ?_⟩
    refine atw_of hf ?_
    show (Except.ok (Instr.atWSwap (sreg w 7) (sreg w 13) (sreg w 19) (Sem.ofCode (fld w 25 2)) (Scope.ofCode (fld w 27 2)))) = _
    rw [sreg_of f0, sreg_of f1, sreg_of f2, sem_of f3, scope_of f4]
  exact fun _ _ => key _ rfl

theorem atWMin (d : SReg) (a : SReg) (b : SReg) (sem : Sem) (scope : Scope) : Statement (.atWMin d a b sem scope) := by
  have key : ∀ w, w = 49 + 5 * 536870912 + d.val * 128 + a.val * 8192 + b.val * 524288 + sem.code * 33554432 + scope.code * 134217728 →
      w < 2 ^ 32 ∧ decodeOp w = .ok (.atWMin d a b sem scope) := by
    intro w hw
    obtain ⟨hl, ho, hf, f0, f1, f2, f3, f4⟩ := shape16 (op := 49) (fn := 5) (by decide) (by decide) d.isLt a.isLt b.isLt (sem_lt sem) (scope_lt scope) hw
    refine ⟨hl, op_of ho ?_⟩
    refine atw_of hf ?_
    show (Except.ok (Instr.atWMin (sreg w 7) (sreg w 13) (sreg w 19) (Sem.ofCode (fld w 25 2)) (Scope.ofCode (fld w 27 2)))) = _
    rw [sreg_of f0, sreg_of f1, sreg_of f2, sem_of f3, scope_of f4]
  exact fun _ _ => key _ rfl

theorem atWMax (d : SReg) (a : SReg) (b : SReg) (sem : Sem) (scope : Scope) : Statement (.atWMax d a b sem scope) := by
  have key : ∀ w, w = 49 + 6 * 536870912 + d.val * 128 + a.val * 8192 + b.val * 524288 + sem.code * 33554432 + scope.code * 134217728 →
      w < 2 ^ 32 ∧ decodeOp w = .ok (.atWMax d a b sem scope) := by
    intro w hw
    obtain ⟨hl, ho, hf, f0, f1, f2, f3, f4⟩ := shape16 (op := 49) (fn := 6) (by decide) (by decide) d.isLt a.isLt b.isLt (sem_lt sem) (scope_lt scope) hw
    refine ⟨hl, op_of ho ?_⟩
    refine atw_of hf ?_
    show (Except.ok (Instr.atWMax (sreg w 7) (sreg w 13) (sreg w 19) (Sem.ofCode (fld w 25 2)) (Scope.ofCode (fld w 27 2)))) = _
    rw [sreg_of f0, sreg_of f1, sreg_of f2, sem_of f3, scope_of f4]
  exact fun _ _ => key _ rfl

theorem atWFadd (d : SReg) (a : SReg) (b : SReg) (sem : Sem) (scope : Scope) : Statement (.atWFadd d a b sem scope) := by
  have key : ∀ w, w = 49 + 7 * 536870912 + d.val * 128 + a.val * 8192 + b.val * 524288 + sem.code * 33554432 + scope.code * 134217728 →
      w < 2 ^ 32 ∧ decodeOp w = .ok (.atWFadd d a b sem scope) := by
    intro w hw
    obtain ⟨hl, ho, hf, f0, f1, f2, f3, f4⟩ := shape16 (op := 49) (fn := 7) (by decide) (by decide) d.isLt a.isLt b.isLt (sem_lt sem) (scope_lt scope) hw
    refine ⟨hl, op_of ho ?_⟩
    refine atw_of hf ?_
    show (Except.ok (Instr.atWFadd (sreg w 7) (sreg w 13) (sreg w 19) (Sem.ofCode (fld w 25 2)) (Scope.ofCode (fld w 27 2)))) = _
    rw [sreg_of f0, sreg_of f1, sreg_of f2, sem_of f3, scope_of f4]
  exact fun _ _ => key _ rfl

theorem atNMinn (d : SReg) (a : SReg) (b : SReg) (sem : Sem) (scope : Scope) : Statement (.atNMinn d a b sem scope) := by
  have key : ∀ w, w = 50 + 0 * 536870912 + d.val * 128 + a.val * 8192 + b.val * 524288 + sem.code * 33554432 + scope.code * 134217728 →
      w < 2 ^ 32 ∧ decodeOp w = .ok (.atNMinn d a b sem scope) := by
    intro w hw
    obtain ⟨hl, ho, hf, f0, f1, f2, f3, f4⟩ := shape16 (op := 50) (fn := 0) (by decide) (by decide) d.isLt a.isLt b.isLt (sem_lt sem) (scope_lt scope) hw
    refine ⟨hl, op_of ho ?_⟩
    refine atn_of hf ?_
    show (Except.ok (Instr.atNMinn (sreg w 7) (sreg w 13) (sreg w 19) (Sem.ofCode (fld w 25 2)) (Scope.ofCode (fld w 27 2)))) = _
    rw [sreg_of f0, sreg_of f1, sreg_of f2, sem_of f3, scope_of f4]
  exact fun _ _ => key _ rfl

theorem atNMaxn (d : SReg) (a : SReg) (b : SReg) (sem : Sem) (scope : Scope) : Statement (.atNMaxn d a b sem scope) := by
  have key : ∀ w, w = 50 + 1 * 536870912 + d.val * 128 + a.val * 8192 + b.val * 524288 + sem.code * 33554432 + scope.code * 134217728 →
      w < 2 ^ 32 ∧ decodeOp w = .ok (.atNMaxn d a b sem scope) := by
    intro w hw
    obtain ⟨hl, ho, hf, f0, f1, f2, f3, f4⟩ := shape16 (op := 50) (fn := 1) (by decide) (by decide) d.isLt a.isLt b.isLt (sem_lt sem) (scope_lt scope) hw
    refine ⟨hl, op_of ho ?_⟩
    refine atn_of hf ?_
    show (Except.ok (Instr.atNMaxn (sreg w 7) (sreg w 13) (sreg w 19) (Sem.ofCode (fld w 25 2)) (Scope.ofCode (fld w 27 2)))) = _
    rw [sreg_of f0, sreg_of f1, sreg_of f2, sem_of f3, scope_of f4]
  exact fun _ _ => key _ rfl

theorem atNIncw (d : SReg) (a : SReg) (b : SReg) (sem : Sem) (scope : Scope) : Statement (.atNIncw d a b sem scope) := by
  have key : ∀ w, w = 50 + 2 * 536870912 + d.val * 128 + a.val * 8192 + b.val * 524288 + sem.code * 33554432 + scope.code * 134217728 →
      w < 2 ^ 32 ∧ decodeOp w = .ok (.atNIncw d a b sem scope) := by
    intro w hw
    obtain ⟨hl, ho, hf, f0, f1, f2, f3, f4⟩ := shape16 (op := 50) (fn := 2) (by decide) (by decide) d.isLt a.isLt b.isLt (sem_lt sem) (scope_lt scope) hw
    refine ⟨hl, op_of ho ?_⟩
    refine atn_of hf ?_
    show (Except.ok (Instr.atNIncw (sreg w 7) (sreg w 13) (sreg w 19) (Sem.ofCode (fld w 25 2)) (Scope.ofCode (fld w 27 2)))) = _
    rw [sreg_of f0, sreg_of f1, sreg_of f2, sem_of f3, scope_of f4]
  exact fun _ _ => key _ rfl

theorem atNDecw (d : SReg) (a : SReg) (b : SReg) (sem : Sem) (scope : Scope) : Statement (.atNDecw d a b sem scope) := by
  have key : ∀ w, w = 50 + 3 * 536870912 + d.val * 128 + a.val * 8192 + b.val * 524288 + sem.code * 33554432 + scope.code * 134217728 →
      w < 2 ^ 32 ∧ decodeOp w = .ok (.atNDecw d a b sem scope) := by
    intro w hw
    obtain ⟨hl, ho, hf, f0, f1, f2, f3, f4⟩ := shape16 (op := 50) (fn := 3) (by decide) (by decide) d.isLt a.isLt b.isLt (sem_lt sem) (scope_lt scope) hw
    refine ⟨hl, op_of ho ?_⟩
    refine atn_of hf ?_
    show (Except.ok (Instr.atNDecw (sreg w 7) (sreg w 13) (sreg w 19) (Sem.ofCode (fld w 25 2)) (Scope.ofCode (fld w 27 2)))) = _
    rw [sreg_of f0, sreg_of f1, sreg_of f2, sem_of f3, scope_of f4]
  exact fun _ _ => key _ rfl

theorem atNFmin (d : SReg) (a : SReg) (b : SReg) (sem : Sem) (scope : Scope) : Statement (.atNFmin d a b sem scope) := by
  have key : ∀ w, w = 50 + 4 * 536870912 + d.val * 128 + a.val * 8192 + b.val * 524288 + sem.code * 33554432 + scope.code * 134217728 →
      w < 2 ^ 32 ∧ decodeOp w = .ok (.atNFmin d a b sem scope) := by
    intro w hw
    obtain ⟨hl, ho, hf, f0, f1, f2, f3, f4⟩ := shape16 (op := 50) (fn := 4) (by decide) (by decide) d.isLt a.isLt b.isLt (sem_lt sem) (scope_lt scope) hw
    refine ⟨hl, op_of ho ?_⟩
    refine atn_of hf ?_
    show (Except.ok (Instr.atNFmin (sreg w 7) (sreg w 13) (sreg w 19) (Sem.ofCode (fld w 25 2)) (Scope.ofCode (fld w 27 2)))) = _
    rw [sreg_of f0, sreg_of f1, sreg_of f2, sem_of f3, scope_of f4]
  exact fun _ _ => key _ rfl

theorem atNFmax (d : SReg) (a : SReg) (b : SReg) (sem : Sem) (scope : Scope) : Statement (.atNFmax d a b sem scope) := by
  have key : ∀ w, w = 50 + 5 * 536870912 + d.val * 128 + a.val * 8192 + b.val * 524288 + sem.code * 33554432 + scope.code * 134217728 →
      w < 2 ^ 32 ∧ decodeOp w = .ok (.atNFmax d a b sem scope) := by
    intro w hw
    obtain ⟨hl, ho, hf, f0, f1, f2, f3, f4⟩ := shape16 (op := 50) (fn := 5) (by decide) (by decide) d.isLt a.isLt b.isLt (sem_lt sem) (scope_lt scope) hw
    refine ⟨hl, op_of ho ?_⟩
    refine atn_of hf ?_
    show (Except.ok (Instr.atNFmax (sreg w 7) (sreg w 13) (sreg w 19) (Sem.ofCode (fld w 25 2)) (Scope.ofCode (fld w 27 2)))) = _
    rw [sreg_of f0, sreg_of f1, sreg_of f2, sem_of f3, scope_of f4]
  exact fun _ _ => key _ rfl

theorem atCas (d : SReg) (a : SReg) (b : SReg) (sem : Sem) (scope : Scope) : Statement (.atCas d a b sem scope) := by
  have key : ∀ w, w = 51 + d.val * 128 + a.val * 8192 + b.val * 524288 + sem.code * 33554432 + scope.code * 134217728 →
      w < 2 ^ 32 ∧ decodeOp w = .ok (.atCas d a b sem scope) := by
    intro w hw
    obtain ⟨hl, ho, z0, f0, f1, f2, f3, f4⟩ := shape17 (op := 51) (by decide) d.isLt a.isLt b.isLt (sem_lt sem) (scope_lt scope) hw
    refine ⟨hl, op_of ho ?_⟩
    show (if fld w 29 3 == 0 then Except.ok (Instr.atCas (sreg w 7) (sreg w 13) (sreg w 19) (Sem.ofCode (fld w 25 2)) (Scope.ofCode (fld w 27 2))) else _) = _
    rw [zero_of z0, sreg_of f0, sreg_of f1, sreg_of f2, sem_of f3, scope_of f4]
    rfl
  exact fun _ _ => key _ rfl

theorem atCas2 (d : SReg) (a : SReg) (b : SReg) (sem : Sem) (scope : Scope) : Statement (.atCas2 d a b sem scope) := by
  have key : ∀ w, w = 52 + d.val * 128 + a.val * 8192 + b.val * 524288 + sem.code * 33554432 + scope.code * 134217728 →
      w < 2 ^ 32 ∧ decodeOp w = .ok (.atCas2 d a b sem scope) := by
    intro w hw
    obtain ⟨hl, ho, z0, f0, f1, f2, f3, f4⟩ := shape17 (op := 52) (by decide) d.isLt a.isLt b.isLt (sem_lt sem) (scope_lt scope) hw
    refine ⟨hl, op_of ho ?_⟩
    show (if fld w 29 3 == 0 then Except.ok (Instr.atCas2 (sreg w 7) (sreg w 13) (sreg w 19) (Sem.ofCode (fld w 25 2)) (Scope.ofCode (fld w 27 2))) else _) = _
    rw [zero_of z0, sreg_of f0, sreg_of f1, sreg_of f2, sem_of f3, scope_of f4]
    rfl
  exact fun _ _ => key _ rfl

theorem fence (kind : FenceKind) (scope : Scope) : Statement (.fence kind scope) := by
  have key : ∀ w, w = 53 + kind.code * 128 + scope.code * 1024 →
      w < 2 ^ 32 ∧ decodeOp w = .ok (.fence kind scope) := by
    intro w hw
    obtain ⟨hl, ho, z0, f0, f1⟩ := shape18 (op := 53) (by decide) (fencekind_lt kind) (scope_lt scope) hw
    refine ⟨hl, op_of ho ?_⟩
    show (if fld w 12 20 == 0 then match FenceKind.ofCode? (fld w 7 3) with | some kind => Except.ok (Instr.fence kind (Scope.ofCode (fld w 10 2))) | none => _ else _) = _
    rw [zero_of z0, fencekind_of f0, scope_of f1]
    rfl
  exact fun _ _ => key _ rfl

theorem waitv (d : SReg) (a : SReg) (b : SReg) (sem : Sem) (scope : Scope) : Statement (.waitv d a b sem scope) := by
  have key : ∀ w, w = 54 + 0 * 536870912 + d.val * 128 + a.val * 8192 + b.val * 524288 + sem.code * 33554432 + scope.code * 134217728 →
      w < 2 ^ 32 ∧ decodeOp w = .ok (.waitv d a b sem scope) := by
    intro w hw
    obtain ⟨hl, ho, hf, f0, f1, f2, f3, f4⟩ := shape16 (op := 54) (fn := 0) (by decide) (by decide) d.isLt a.isLt b.isLt (sem_lt sem) (scope_lt scope) hw
    refine ⟨hl, op_of ho ?_⟩
    refine waitv_of hf ?_
    show (Except.ok (Instr.waitv (sreg w 7) (sreg w 13) (sreg w 19) (Sem.ofCode (fld w 25 2)) (Scope.ofCode (fld w 27 2)))) = _
    rw [sreg_of f0, sreg_of f1, sreg_of f2, sem_of f3, scope_of f4]
  exact fun _ _ => key _ rfl

theorem waitvW (d : SReg) (a : SReg) (b : SReg) (sem : Sem) (scope : Scope) : Statement (.waitvW d a b sem scope) := by
  have key : ∀ w, w = 54 + 1 * 536870912 + d.val * 128 + a.val * 8192 + b.val * 524288 + sem.code * 33554432 + scope.code * 134217728 →
      w < 2 ^ 32 ∧ decodeOp w = .ok (.waitvW d a b sem scope) := by
    intro w hw
    obtain ⟨hl, ho, hf, f0, f1, f2, f3, f4⟩ := shape16 (op := 54) (fn := 1) (by decide) (by decide) d.isLt a.isLt b.isLt (sem_lt sem) (scope_lt scope) hw
    refine ⟨hl, op_of ho ?_⟩
    refine waitv_of hf ?_
    show (Except.ok (Instr.waitvW (sreg w 7) (sreg w 13) (sreg w 19) (Sem.ofCode (fld w 25 2)) (Scope.ofCode (fld w 27 2)))) = _
    rw [sreg_of f0, sreg_of f1, sreg_of f2, sem_of f3, scope_of f4]
  exact fun _ _ => key _ rfl

theorem barInit (a : SReg) (b : SReg) : Statement (.barInit a b) := by
  have key : ∀ w, w = 55 + 0 * 33554432 + a.val * 8192 + b.val * 524288 →
      w < 2 ^ 32 ∧ decodeOp w = .ok (.barInit a b) := by
    intro w hw
    obtain ⟨hl, ho, hf, z0, f0, f1⟩ := shape19 (op := 55) (fn := 0) (by decide) (by decide) a.isLt b.isLt hw
    refine ⟨hl, op_of ho ?_⟩
    refine bar_of hf ?_
    show (if fld w 7 6 == 0 then Except.ok (Instr.barInit (sreg w 13) (sreg w 19)) else _) = _
    rw [zero_of z0, sreg_of f0, sreg_of f1]
    rfl
  exact fun _ _ => key _ rfl

theorem barArrive (d : SReg) (a : SReg) : Statement (.barArrive d a) := by
  have key : ∀ w, w = 55 + 1 * 33554432 + d.val * 128 + a.val * 8192 →
      w < 2 ^ 32 ∧ decodeOp w = .ok (.barArrive d a) := by
    intro w hw
    obtain ⟨hl, ho, hf, z0, f0, f1⟩ := shape2 (op := 55) (fn := 1) (by decide) (by decide) d.isLt a.isLt hw
    refine ⟨hl, op_of ho ?_⟩
    refine bar_of hf ?_
    show (if fld w 19 6 == 0 then Except.ok (Instr.barArrive (sreg w 7) (sreg w 13)) else _) = _
    rw [zero_of z0, sreg_of f0, sreg_of f1]
    rfl
  exact fun _ _ => key _ rfl

theorem barWait (d : SReg) (a : SReg) (b : SReg) : Statement (.barWait d a b) := by
  have key : ∀ w, w = 55 + 2 * 33554432 + d.val * 128 + a.val * 8192 + b.val * 524288 →
      w < 2 ^ 32 ∧ decodeOp w = .ok (.barWait d a b) := by
    intro w hw
    obtain ⟨hl, ho, hf, f0, f1, f2⟩ := shape1 (op := 55) (fn := 2) (by decide) (by decide) d.isLt a.isLt b.isLt hw
    refine ⟨hl, op_of ho ?_⟩
    refine bar_of hf ?_
    show (Except.ok (Instr.barWait (sreg w 7) (sreg w 13) (sreg w 19))) = _
    rw [sreg_of f0, sreg_of f1, sreg_of f2]
  exact fun _ _ => key _ rfl

theorem barExpect (a : SReg) (b : SReg) : Statement (.barExpect a b) := by
  have key : ∀ w, w = 55 + 3 * 33554432 + a.val * 8192 + b.val * 524288 →
      w < 2 ^ 32 ∧ decodeOp w = .ok (.barExpect a b) := by
    intro w hw
    obtain ⟨hl, ho, hf, z0, f0, f1⟩ := shape19 (op := 55) (fn := 3) (by decide) (by decide) a.isLt b.isLt hw
    refine ⟨hl, op_of ho ?_⟩
    refine bar_of hf ?_
    show (if fld w 7 6 == 0 then Except.ok (Instr.barExpect (sreg w 13) (sreg w 19)) else _) = _
    rw [zero_of z0, sreg_of f0, sreg_of f1]
    rfl
  exact fun _ _ => key _ rfl

theorem barArrivex (d : SReg) (a : SReg) (b : SReg) : Statement (.barArrivex d a b) := by
  have key : ∀ w, w = 55 + 4 * 33554432 + d.val * 128 + a.val * 8192 + b.val * 524288 →
      w < 2 ^ 32 ∧ decodeOp w = .ok (.barArrivex d a b) := by
    intro w hw
    obtain ⟨hl, ho, hf, f0, f1, f2⟩ := shape1 (op := 55) (fn := 4) (by decide) (by decide) d.isLt a.isLt b.isLt hw
    refine ⟨hl, op_of ho ?_⟩
    refine bar_of hf ?_
    show (Except.ok (Instr.barArrivex (sreg w 7) (sreg w 13) (sreg w 19))) = _
    rw [sreg_of f0, sreg_of f1, sreg_of f2]
  exact fun _ _ => key _ rfl

theorem barLvl (b : SReg) : Statement (.barLvl b) := by
  have key : ∀ w, w = 55 + 5 * 33554432 + b.val * 524288 →
      w < 2 ^ 32 ∧ decodeOp w = .ok (.barLvl b) := by
    intro w hw
    obtain ⟨hl, ho, hf, z0, f0⟩ := shape11 (op := 55) (fn := 5) (by decide) (by decide) b.isLt hw
    refine ⟨hl, op_of ho ?_⟩
    refine bar_of hf ?_
    show (if fld w 7 12 == 0 then Except.ok (Instr.barLvl (sreg w 19)) else _) = _
    rw [zero_of z0, sreg_of f0]
    rfl
  exact fun _ _ => key _ rfl

theorem gang (g : Fin 4096) : Statement (.gang g) := by
  intro hg _
  have key : ∀ w, w = 56 + g.val * 524288 →
      w < 2 ^ 32 ∧ decodeOp w = .ok (.gang g) := by
    intro w hw
    obtain ⟨hl, ho, z0, z1, f0⟩ := shape20 (op := 56) (by decide) g.isLt hw
    refine ⟨hl, op_of ho ?_⟩
    show (if fld w 7 12 == 0 && fld w 31 1 == 0 then if fld w 19 12 == 0 then Except.ok Instr.gangLeave
      else Except.ok (Instr.gang (Fin.ofNat 4096 (w / 2 ^ 19))) else _) = _
    have hg : g.val ≠ 0 := fun e => by rw [show g = 0 from Fin.ext e] at hg; exact nomatch hg
    rw [zero_of z0, zero_of z1, show (fld w 19 12 == 0) = false from beq_false_of_ne (fun e => hg (f0.symm.trans e)), fin_of (n := 4096) f0]
    rfl
  exact key _ rfl

theorem gangLeave : Statement (.gangLeave) := by
  have key : ∀ w, w = 56 →
      w < 2 ^ 32 ∧ decodeOp w = .ok (.gangLeave) := by
    intro w hw
    obtain ⟨hl, ho, z0⟩ := shape21 (op := 56) (by decide) hw
    refine ⟨hl, op_of ho ?_⟩
    show (if fld w 7 12 == 0 && fld w 31 1 == 0 then if fld w 19 12 == 0 then Except.ok Instr.gangLeave
      else Except.ok (Instr.gang (Fin.ofNat 4096 (w / 2 ^ 19))) else _) = _
    subst hw
    rfl
  exact fun _ _ => key _ rfl

theorem msg (d : SReg) (a : SReg) (b : SReg) : Statement (.msg d a b) := by
  have key : ∀ w, w = 57 + d.val * 128 + a.val * 8192 + b.val * 524288 →
      w < 2 ^ 32 ∧ decodeOp w = .ok (.msg d a b) := by
    intro w hw
    obtain ⟨hl, ho, z0, f0, f1, f2⟩ := shape5 (op := 57) (by decide) d.isLt a.isLt b.isLt hw
    refine ⟨hl, op_of ho ?_⟩
    show (if fld w 25 7 == 0 then Except.ok (Instr.msg (sreg w 7) (sreg w 13) (sreg w 19)) else _) = _
    rw [zero_of z0, sreg_of f0, sreg_of f1, sreg_of f2]
    rfl
  exact fun _ _ => key _ rfl

theorem hbind (a : SReg) (b : SReg) : Statement (.hbind a b) := by
  have key : ∀ w, w = 58 + a.val * 8192 + b.val * 524288 →
      w < 2 ^ 32 ∧ decodeOp w = .ok (.hbind a b) := by
    intro w hw
    obtain ⟨hl, ho, z0, z1, f0, f1⟩ := shape22 (op := 58) (by decide) a.isLt b.isLt hw
    refine ⟨hl, op_of ho ?_⟩
    show (if fld w 7 6 == 0 && fld w 25 7 == 0 then Except.ok (Instr.hbind (sreg w 13) (sreg w 19)) else _) = _
    rw [zero_of z0, zero_of z1, sreg_of f0, sreg_of f1]
    rfl
  exact fun _ _ => key _ rfl

theorem tend : Statement (.tend) := by
  have key : ∀ w, w = 59 →
      w < 2 ^ 32 ∧ decodeOp w = .ok (.tend) := by
    intro w hw
    obtain ⟨hl, ho, z0⟩ := shape21 (op := 59) (by decide) hw
    refine ⟨hl, op_of ho ?_⟩
    show (if fld w 7 25 == 0 then Except.ok (Instr.tend) else _) = _
    rw [zero_of z0]
    rfl
  exact fun _ _ => key _ rfl

theorem spawn (a : SReg) (q : Fin 16) : Statement (.spawn a q) := by
  have key : ∀ w, w = 60 + a.val * 8192 + q.val * 33554432 →
      w < 2 ^ 32 ∧ decodeOp w = .ok (.spawn a q) := by
    intro w hw
    obtain ⟨hl, ho, z0, z1, z2, f0, f1⟩ := shape23 (op := 60) (by decide) a.isLt q.isLt hw
    refine ⟨hl, op_of ho ?_⟩
    show (if fld w 7 6 == 0 && fld w 19 6 == 0 && fld w 29 3 == 0 then Except.ok (Instr.spawn (sreg w 13) (Fin.ofNat 16 (w / 2 ^ 25))) else _) = _
    rw [zero_of z0, zero_of z1, zero_of z2, sreg_of f0, fin_of (n := 16) f1]
    rfl
  exact fun _ _ => key _ rfl

theorem enq (e : Engine) (a : SReg) (b : SReg) : Statement (.enq e a b) := by
  have key : ∀ w, w = 61 + e.code * 128 + a.val * 8192 + b.val * 524288 →
      w < 2 ^ 32 ∧ decodeOp w = .ok (.enq e a b) := by
    intro w hw
    obtain ⟨hl, ho, z0, f0, f1, f2⟩ := shape24 (op := 61) (by decide) (engine_lt e) a.isLt b.isLt hw
    refine ⟨hl, op_of ho ?_⟩
    show (if fld w 25 7 == 0 then match Engine.ofCode? (fld w 7 6) with | some e => Except.ok (Instr.enq e (sreg w 13) (sreg w 19)) | none => _ else _) = _
    rw [zero_of z0, engine_of f0, sreg_of f1, sreg_of f2]
    rfl
  exact fun _ _ => key _ rfl

theorem deq (d : SReg) (e : Engine) : Statement (.deq d e) := by
  have key : ∀ w, w = 62 + d.val * 128 + e.code * 33554432 →
      w < 2 ^ 32 ∧ decodeOp w = .ok (.deq d e) := by
    intro w hw
    obtain ⟨hl, ho, z0, z1, f0, f1⟩ := shape25 (op := 62) (by decide) d.isLt (engine_lt e) hw
    refine ⟨hl, op_of ho ?_⟩
    show (if fld w 13 12 == 0 && fld w 27 5 == 0 then match Engine.ofCode? (fld w 25 2) with | some e => Except.ok (Instr.deq (sreg w 7) e) | none => _ else _) = _
    rw [zero_of z0, zero_of z1, sreg_of f0, engine_of f1]
    rfl
  exact fun _ _ => key _ rfl

theorem tlAlloc (a : SReg) (b : SReg) : Statement (.tlAlloc a b) := by
  have key : ∀ w, w = 63 + 0 * 33554432 + a.val * 8192 + b.val * 524288 →
      w < 2 ^ 32 ∧ decodeOp w = .ok (.tlAlloc a b) := by
    intro w hw
    obtain ⟨hl, ho, hf, z0, f0, f1⟩ := shape19 (op := 63) (fn := 0) (by decide) (by decide) a.isLt b.isLt hw
    refine ⟨hl, op_of ho ?_⟩
    refine tl_of hf ?_
    show (if fld w 7 6 == 0 then Except.ok (Instr.tlAlloc (sreg w 13) (sreg w 19)) else _) = _
    rw [zero_of z0, sreg_of f0, sreg_of f1]
    rfl
  exact fun _ _ => key _ rfl

theorem tlFree (a : SReg) : Statement (.tlFree a) := by
  have key : ∀ w, w = 63 + 1 * 33554432 + a.val * 8192 →
      w < 2 ^ 32 ∧ decodeOp w = .ok (.tlFree a) := by
    intro w hw
    obtain ⟨hl, ho, hf, z0, z1, f0⟩ := shape26 (op := 63) (fn := 1) (by decide) (by decide) a.isLt hw
    refine ⟨hl, op_of ho ?_⟩
    refine tl_of hf ?_
    show (if fld w 7 6 == 0 && fld w 19 6 == 0 then Except.ok (Instr.tlFree (sreg w 13)) else _) = _
    rw [zero_of z0, zero_of z1, sreg_of f0]
    rfl
  exact fun _ _ => key _ rfl

theorem tlState (d : SReg) (a : SReg) : Statement (.tlState d a) := by
  have key : ∀ w, w = 63 + 2 * 33554432 + d.val * 128 + a.val * 8192 →
      w < 2 ^ 32 ∧ decodeOp w = .ok (.tlState d a) := by
    intro w hw
    obtain ⟨hl, ho, hf, z0, f0, f1⟩ := shape2 (op := 63) (fn := 2) (by decide) (by decide) d.isLt a.isLt hw
    refine ⟨hl, op_of ho ?_⟩
    refine tl_of hf ?_
    show (if fld w 19 6 == 0 then Except.ok (Instr.tlState (sreg w 7) (sreg w 13)) else _) = _
    rw [zero_of z0, sreg_of f0, sreg_of f1]
    rfl
  exact fun _ _ => key _ rfl

theorem tlWait (a : SReg) (b : SReg) : Statement (.tlWait a b) := by
  have key : ∀ w, w = 63 + 3 * 33554432 + a.val * 8192 + b.val * 524288 →
      w < 2 ^ 32 ∧ decodeOp w = .ok (.tlWait a b) := by
    intro w hw
    obtain ⟨hl, ho, hf, z0, f0, f1⟩ := shape19 (op := 63) (fn := 3) (by decide) (by decide) a.isLt b.isLt hw
    refine ⟨hl, op_of ho ?_⟩
    refine tl_of hf ?_
    show (if fld w 7 6 == 0 then Except.ok (Instr.tlWait (sreg w 13) (sreg w 19)) else _) = _
    rw [zero_of z0, sreg_of f0, sreg_of f1]
    rfl
  exact fun _ _ => key _ rfl

theorem fAdd (d : SReg) (a : SReg) (b : SReg) (p : FPrec) : Statement (.fAdd d a b p) := by
  have key : ∀ w, w = 64 + 0 * 33554432 + d.val * 128 + a.val * 8192 + b.val * 524288 + p.code * 2147483648 →
      w < 2 ^ 32 ∧ decodeOp w = .ok (.fAdd d a b p) := by
    intro w hw
    obtain ⟨hl, ho, hf, f0, f1, f2, f3⟩ := shape27 (op := 64) (fn := 0) (by decide) (by decide) d.isLt a.isLt b.isLt (fprec_lt p) hw
    refine ⟨hl, op_of ho ?_⟩
    refine fa_of hf ?_
    show (Except.ok (Instr.fAdd (sreg w 7) (sreg w 13) (sreg w 19) (FPrec.ofCode (fld w 31 1)))) = _
    rw [sreg_of f0, sreg_of f1, sreg_of f2, fprec_of f3]
  exact fun _ _ => key _ rfl

theorem fSub (d : SReg) (a : SReg) (b : SReg) (p : FPrec) : Statement (.fSub d a b p) := by
  have key : ∀ w, w = 64 + 1 * 33554432 + d.val * 128 + a.val * 8192 + b.val * 524288 + p.code * 2147483648 →
      w < 2 ^ 32 ∧ decodeOp w = .ok (.fSub d a b p) := by
    intro w hw
    obtain ⟨hl, ho, hf, f0, f1, f2, f3⟩ := shape27 (op := 64) (fn := 1) (by decide) (by decide) d.isLt a.isLt b.isLt (fprec_lt p) hw
    refine ⟨hl, op_of ho ?_⟩
    refine fa_of hf ?_
    show (Except.ok (Instr.fSub (sreg w 7) (sreg w 13) (sreg w 19) (FPrec.ofCode (fld w 31 1)))) = _
    rw [sreg_of f0, sreg_of f1, sreg_of f2, fprec_of f3]
  exact fun _ _ => key _ rfl

theorem fMul (d : SReg) (a : SReg) (b : SReg) (p : FPrec) : Statement (.fMul d a b p) := by
  have key : ∀ w, w = 64 + 2 * 33554432 + d.val * 128 + a.val * 8192 + b.val * 524288 + p.code * 2147483648 →
      w < 2 ^ 32 ∧ decodeOp w = .ok (.fMul d a b p) := by
    intro w hw
    obtain ⟨hl, ho, hf, f0, f1, f2, f3⟩ := shape27 (op := 64) (fn := 2) (by decide) (by decide) d.isLt a.isLt b.isLt (fprec_lt p) hw
    refine ⟨hl, op_of ho ?_⟩
    refine fa_of hf ?_
    show (Except.ok (Instr.fMul (sreg w 7) (sreg w 13) (sreg w 19) (FPrec.ofCode (fld w 31 1)))) = _
    rw [sreg_of f0, sreg_of f1, sreg_of f2, fprec_of f3]
  exact fun _ _ => key _ rfl

theorem fDiv (d : SReg) (a : SReg) (b : SReg) (p : FPrec) : Statement (.fDiv d a b p) := by
  have key : ∀ w, w = 64 + 3 * 33554432 + d.val * 128 + a.val * 8192 + b.val * 524288 + p.code * 2147483648 →
      w < 2 ^ 32 ∧ decodeOp w = .ok (.fDiv d a b p) := by
    intro w hw
    obtain ⟨hl, ho, hf, f0, f1, f2, f3⟩ := shape27 (op := 64) (fn := 3) (by decide) (by decide) d.isLt a.isLt b.isLt (fprec_lt p) hw
    refine ⟨hl, op_of ho ?_⟩
    refine fa_of hf ?_
    show (Except.ok (Instr.fDiv (sreg w 7) (sreg w 13) (sreg w 19) (FPrec.ofCode (fld w 31 1)))) = _
    rw [sreg_of f0, sreg_of f1, sreg_of f2, fprec_of f3]
  exact fun _ _ => key _ rfl

theorem fSqrt (d : SReg) (a : SReg) (p : FPrec) : Statement (.fSqrt d a p) := by
  have key : ∀ w, w = 64 + 4 * 33554432 + d.val * 128 + a.val * 8192 + p.code * 2147483648 →
      w < 2 ^ 32 ∧ decodeOp w = .ok (.fSqrt d a p) := by
    intro w hw
    obtain ⟨hl, ho, hf, z0, f0, f1, f2⟩ := shape28 (op := 64) (fn := 4) (by decide) (by decide) d.isLt a.isLt (fprec_lt p) hw
    refine ⟨hl, op_of ho ?_⟩
    refine fa_of hf ?_
    show (if fld w 19 6 == 0 then Except.ok (Instr.fSqrt (sreg w 7) (sreg w 13) (FPrec.ofCode (fld w 31 1))) else _) = _
    rw [zero_of z0, sreg_of f0, sreg_of f1, fprec_of f2]
    rfl
  exact fun _ _ => key _ rfl

theorem fMin (d : SReg) (a : SReg) (b : SReg) (p : FPrec) : Statement (.fMin d a b p) := by
  have key : ∀ w, w = 64 + 5 * 33554432 + d.val * 128 + a.val * 8192 + b.val * 524288 + p.code * 2147483648 →
      w < 2 ^ 32 ∧ decodeOp w = .ok (.fMin d a b p) := by
    intro w hw
    obtain ⟨hl, ho, hf, f0, f1, f2, f3⟩ := shape27 (op := 64) (fn := 5) (by decide) (by decide) d.isLt a.isLt b.isLt (fprec_lt p) hw
    refine ⟨hl, op_of ho ?_⟩
    refine fa_of hf ?_
    show (Except.ok (Instr.fMin (sreg w 7) (sreg w 13) (sreg w 19) (FPrec.ofCode (fld w 31 1)))) = _
    rw [sreg_of f0, sreg_of f1, sreg_of f2, fprec_of f3]
  exact fun _ _ => key _ rfl

theorem fMax (d : SReg) (a : SReg) (b : SReg) (p : FPrec) : Statement (.fMax d a b p) := by
  have key : ∀ w, w = 64 + 6 * 33554432 + d.val * 128 + a.val * 8192 + b.val * 524288 + p.code * 2147483648 →
      w < 2 ^ 32 ∧ decodeOp w = .ok (.fMax d a b p) := by
    intro w hw
    obtain ⟨hl, ho, hf, f0, f1, f2, f3⟩ := shape27 (op := 64) (fn := 6) (by decide) (by decide) d.isLt a.isLt b.isLt (fprec_lt p) hw
    refine ⟨hl, op_of ho ?_⟩
    refine fa_of hf ?_
    show (Except.ok (Instr.fMax (sreg w 7) (sreg w 13) (sreg w 19) (FPrec.ofCode (fld w 31 1)))) = _
    rw [sreg_of f0, sreg_of f1, sreg_of f2, fprec_of f3]
  exact fun _ _ => key _ rfl

theorem fClass (d : SReg) (a : SReg) (p : FPrec) : Statement (.fClass d a p) := by
  have key : ∀ w, w = 64 + 7 * 33554432 + d.val * 128 + a.val * 8192 + p.code * 2147483648 →
      w < 2 ^ 32 ∧ decodeOp w = .ok (.fClass d a p) := by
    intro w hw
    obtain ⟨hl, ho, hf, z0, f0, f1, f2⟩ := shape28 (op := 64) (fn := 7) (by decide) (by decide) d.isLt a.isLt (fprec_lt p) hw
    refine ⟨hl, op_of ho ?_⟩
    refine fa_of hf ?_
    show (if fld w 19 6 == 0 then Except.ok (Instr.fClass (sreg w 7) (sreg w 13) (FPrec.ofCode (fld w 31 1))) else _) = _
    rw [zero_of z0, sreg_of f0, sreg_of f1, fprec_of f2]
    rfl
  exact fun _ _ => key _ rfl

theorem fCeq (d : SReg) (a : SReg) (b : SReg) (p : FPrec) : Statement (.fCeq d a b p) := by
  have key : ∀ w, w = 64 + 8 * 33554432 + d.val * 128 + a.val * 8192 + b.val * 524288 + p.code * 2147483648 →
      w < 2 ^ 32 ∧ decodeOp w = .ok (.fCeq d a b p) := by
    intro w hw
    obtain ⟨hl, ho, hf, f0, f1, f2, f3⟩ := shape27 (op := 64) (fn := 8) (by decide) (by decide) d.isLt a.isLt b.isLt (fprec_lt p) hw
    refine ⟨hl, op_of ho ?_⟩
    refine fa_of hf ?_
    show (Except.ok (Instr.fCeq (sreg w 7) (sreg w 13) (sreg w 19) (FPrec.ofCode (fld w 31 1)))) = _
    rw [sreg_of f0, sreg_of f1, sreg_of f2, fprec_of f3]
  exact fun _ _ => key _ rfl

theorem fClt (d : SReg) (a : SReg) (b : SReg) (p : FPrec) : Statement (.fClt d a b p) := by
  have key : ∀ w, w = 64 + 9 * 33554432 + d.val * 128 + a.val * 8192 + b.val * 524288 + p.code * 2147483648 →
      w < 2 ^ 32 ∧ decodeOp w = .ok (.fClt d a b p) := by
    intro w hw
    obtain ⟨hl, ho, hf, f0, f1, f2, f3⟩ := shape27 (op := 64) (fn := 9) (by decide) (by decide) d.isLt a.isLt b.isLt (fprec_lt p) hw
    refine ⟨hl, op_of ho ?_⟩
    refine fa_of hf ?_
    show (Except.ok (Instr.fClt (sreg w 7) (sreg w 13) (sreg w 19) (FPrec.ofCode (fld w 31 1)))) = _
    rw [sreg_of f0, sreg_of f1, sreg_of f2, fprec_of f3]
  exact fun _ _ => key _ rfl

theorem fCle (d : SReg) (a : SReg) (b : SReg) (p : FPrec) : Statement (.fCle d a b p) := by
  have key : ∀ w, w = 64 + 10 * 33554432 + d.val * 128 + a.val * 8192 + b.val * 524288 + p.code * 2147483648 →
      w < 2 ^ 32 ∧ decodeOp w = .ok (.fCle d a b p) := by
    intro w hw
    obtain ⟨hl, ho, hf, f0, f1, f2, f3⟩ := shape27 (op := 64) (fn := 10) (by decide) (by decide) d.isLt a.isLt b.isLt (fprec_lt p) hw
    refine ⟨hl, op_of ho ?_⟩
    refine fa_of hf ?_
    show (Except.ok (Instr.fCle (sreg w 7) (sreg w 13) (sreg w 19) (FPrec.ofCode (fld w 31 1)))) = _
    rw [sreg_of f0, sreg_of f1, sreg_of f2, fprec_of f3]
  exact fun _ _ => key _ rfl

theorem fFma (d : SReg) (a : SReg) (b : SReg) (c : SReg) (p : FPrec) : Statement (.fFma d a b c p) := by
  have key : ∀ w, w = 65 + d.val * 128 + a.val * 8192 + b.val * 524288 + c.val * 33554432 + p.code * 2147483648 →
      w < 2 ^ 32 ∧ decodeOp w = .ok (.fFma d a b c p) := by
    intro w hw
    obtain ⟨hl, ho, f0, f1, f2, f3, f4⟩ := shape29 (op := 65) (by decide) d.isLt a.isLt b.isLt c.isLt (fprec_lt p) hw
    refine ⟨hl, op_of ho ?_⟩
    show (Except.ok (Instr.fFma (sreg w 7) (sreg w 13) (sreg w 19) (sreg w 25) (FPrec.ofCode (fld w 31 1)))) = _
    rw [sreg_of f0, sreg_of f1, sreg_of f2, sreg_of f3, fprec_of f4]
  exact fun _ _ => key _ rfl

theorem fCvt (d : SReg) (a : SReg) (frm : CvtType) (tgt : CvtType) : Statement (.fCvt d a frm tgt) := by
  have key : ∀ w, w = 66 + d.val * 128 + a.val * 8192 + frm.code * 33554432 + tgt.code * 268435456 →
      w < 2 ^ 32 ∧ decodeOp w = .ok (.fCvt d a frm tgt) := by
    intro w hw
    obtain ⟨hl, ho, z0, z1, f0, f1, f2, f3⟩ := shape30 (op := 66) (by decide) d.isLt a.isLt (cvttype_lt frm) (cvttype_lt tgt) hw
    refine ⟨hl, op_of ho ?_⟩
    show (if fld w 19 6 == 0 && fld w 31 1 == 0 then Except.ok (Instr.fCvt (sreg w 7) (sreg w 13) (CvtType.ofCode (fld w 25 3)) (CvtType.ofCode (fld w 28 3))) else _) = _
    rw [zero_of z0, zero_of z1, sreg_of f0, sreg_of f1, cvttype_of f2, cvttype_of f3]
    rfl
  exact fun _ _ => key _ rfl

theorem vLd (vd : VReg) (base : SReg) (pm : PReg) (sem : Sem) (scope : Scope) (off : BitVec 7) : Statement (.vLd vd base pm sem scope off) := by
  have key : ∀ w, w = 68 + vd.val * 128 + base.val * 4096 + pm.val * 262144 + sem.code * 2097152 + scope.code * 8388608 + off.toNat * 33554432 →
      w < 2 ^ 32 ∧ decodeOp w = .ok (.vLd vd base pm sem scope off) := by
    intro w hw
    obtain ⟨hl, ho, f0, f1, f2, f3, f4, f5⟩ := shape31 (op := 68) (by decide) vd.isLt base.isLt pm.isLt (sem_lt sem) (scope_lt scope) off.isLt hw
    refine ⟨hl, op_of ho ?_⟩
    show (Except.ok (Instr.vLd (vreg w 7) (sreg w 12) (preg w 18) (Sem.ofCode (fld w 21 2)) (Scope.ofCode (fld w 23 2)) (BitVec.ofNat 7 (w / 2 ^ 25)))) = _
    rw [vreg_of f0, sreg_of f1, preg_of f2, sem_of f3, scope_of f4, bv_of f5]
  exact fun _ _ => key _ rfl

theorem vSt (vd : VReg) (base : SReg) (pm : PReg) (sem : Sem) (scope : Scope) (off : BitVec 7) : Statement (.vSt vd base pm sem scope off) := by
  have key : ∀ w, w = 69 + vd.val * 128 + base.val * 4096 + pm.val * 262144 + sem.code * 2097152 + scope.code * 8388608 + off.toNat * 33554432 →
      w < 2 ^ 32 ∧ decodeOp w = .ok (.vSt vd base pm sem scope off) := by
    intro w hw
    obtain ⟨hl, ho, f0, f1, f2, f3, f4, f5⟩ := shape31 (op := 69) (by decide) vd.isLt base.isLt pm.isLt (sem_lt sem) (scope_lt scope) off.isLt hw
    refine ⟨hl, op_of ho ?_⟩
    show (Except.ok (Instr.vSt (vreg w 7) (sreg w 12) (preg w 18) (Sem.ofCode (fld w 21 2)) (Scope.ofCode (fld w 23 2)) (BitVec.ofNat 7 (w / 2 ^ 25)))) = _
    rw [vreg_of f0, sreg_of f1, preg_of f2, sem_of f3, scope_of f4, bv_of f5]
  exact fun _ _ => key _ rfl

theorem vLdx (vd : VReg) (vi : VReg) (pm : PReg) (base : SReg) (wide : Bool) : Statement (.vLdx vd vi pm base wide) := by
  have key : ∀ w, w = 70 + vd.val * 128 + vi.val * 4096 + pm.val * 4194304 + base.val * 33554432 + wide.toNat * 2147483648 →
      w < 2 ^ 32 ∧ decodeOp w = .ok (.vLdx vd vi pm base wide) := by
    intro w hw
    obtain ⟨hl, ho, z0, f0, f1, f2, f3, f4⟩ := shape32 (op := 70) (by decide) vd.isLt vi.isLt pm.isLt base.isLt (toNat_lt wide) hw
    refine ⟨hl, op_of ho ?_⟩
    show (if fld w 17 5 == 0 then Except.ok (Instr.vLdx (vreg w 7) (vreg w 12) (preg w 22) (sreg w 25) (fld w 31 1 == 1)) else _) = _
    rw [zero_of z0, vreg_of f0, vreg_of f1, preg_of f2, sreg_of f3, bool_of f4]
    rfl
  exact fun _ _ => key _ rfl

theorem vStx (vd : VReg) (vi : VReg) (pm : PReg) (base : SReg) (wide : Bool) : Statement (.vStx vd vi pm base wide) := by
  have key : ∀ w, w = 71 + vd.val * 128 + vi.val * 4096 + pm.val * 4194304 + base.val * 33554432 + wide.toNat * 2147483648 →
      w < 2 ^ 32 ∧ decodeOp w = .ok (.vStx vd vi pm base wide) := by
    intro w hw
    obtain ⟨hl, ho, z0, f0, f1, f2, f3, f4⟩ := shape32 (op := 71) (by decide) vd.isLt vi.isLt pm.isLt base.isLt (toNat_lt wide) hw
    refine ⟨hl, op_of ho ?_⟩
    show (if fld w 17 5 == 0 then Except.ok (Instr.vStx (vreg w 7) (vreg w 12) (preg w 22) (sreg w 25) (fld w 31 1 == 1)) else _) = _
    rw [zero_of z0, vreg_of f0, vreg_of f1, preg_of f2, sreg_of f3, bool_of f4]
    rfl
  exact fun _ _ => key _ rfl

theorem vAdd (vd : VReg) (va : VReg) (vb : VReg) (pm : PReg) (ty : VType) : Statement (.vAdd vd va vb pm ty) := by
  have key : ∀ w, w = 72 + 0 * 268435456 + vd.val * 128 + va.val * 4096 + vb.val * 131072 + pm.val * 4194304 + ty.code * 33554432 →
      w < 2 ^ 32 ∧ decodeOp w = .ok (.vAdd vd va vb pm ty) := by
    intro w hw
    obtain ⟨hl, ho, hf, f0, f1, f2, f3, f4⟩ := shape33 (op := 72) (fn := 0) (by decide) (by decide) vd.isLt va.isLt vb.isLt pm.isLt (vtype_lt ty) hw
    refine ⟨hl, op_of ho ?_⟩
    refine va_of hf ?_
    show (Except.ok (Instr.vAdd (vreg w 7) (vreg w 12) (vreg w 17) (preg w 22) (VType.ofCode (fld w 25 3)))) = _
    rw [vreg_of f0, vreg_of f1, vreg_of f2, preg_of f3, vtype_of f4]
  exact fun _ _ => key _ rfl

theorem vSub (vd : VReg) (va : VReg) (vb : VReg) (pm : PReg) (ty : VType) : Statement (.vSub vd va vb pm ty) := by
  have key : ∀ w, w = 72 + 1 * 268435456 + vd.val * 128 + va.val * 4096 + vb.val * 131072 + pm.val * 4194304 + ty.code * 33554432 →
      w < 2 ^ 32 ∧ decodeOp w = .ok (.vSub vd va vb pm ty) := by
    intro w hw
    obtain ⟨hl, ho, hf, f0, f1, f2, f3, f4⟩ := shape33 (op := 72) (fn := 1) (by decide) (by decide) vd.isLt va.isLt vb.isLt pm.isLt (vtype_lt ty) hw
    refine ⟨hl, op_of ho ?_⟩
    refine va_of hf ?_
    show (Except.ok (Instr.vSub (vreg w 7) (vreg w 12) (vreg w 17) (preg w 22) (VType.ofCode (fld w 25 3)))) = _
    rw [vreg_of f0, vreg_of f1, vreg_of f2, preg_of f3, vtype_of f4]
  exact fun _ _ => key _ rfl

theorem vMul (vd : VReg) (va : VReg) (vb : VReg) (pm : PReg) (ty : VType) : Statement (.vMul vd va vb pm ty) := by
  have key : ∀ w, w = 72 + 2 * 268435456 + vd.val * 128 + va.val * 4096 + vb.val * 131072 + pm.val * 4194304 + ty.code * 33554432 →
      w < 2 ^ 32 ∧ decodeOp w = .ok (.vMul vd va vb pm ty) := by
    intro w hw
    obtain ⟨hl, ho, hf, f0, f1, f2, f3, f4⟩ := shape33 (op := 72) (fn := 2) (by decide) (by decide) vd.isLt va.isLt vb.isLt pm.isLt (vtype_lt ty) hw
    refine ⟨hl, op_of ho ?_⟩
    refine va_of hf ?_
    show (Except.ok (Instr.vMul (vreg w 7) (vreg w 12) (vreg w 17) (preg w 22) (VType.ofCode (fld w 25 3)))) = _
    rw [vreg_of f0, vreg_of f1, vreg_of f2, preg_of f3, vtype_of f4]
  exact fun _ _ => key _ rfl

theorem vMin (vd : VReg) (va : VReg) (vb : VReg) (pm : PReg) (ty : VType) : Statement (.vMin vd va vb pm ty) := by
  have key : ∀ w, w = 72 + 3 * 268435456 + vd.val * 128 + va.val * 4096 + vb.val * 131072 + pm.val * 4194304 + ty.code * 33554432 →
      w < 2 ^ 32 ∧ decodeOp w = .ok (.vMin vd va vb pm ty) := by
    intro w hw
    obtain ⟨hl, ho, hf, f0, f1, f2, f3, f4⟩ := shape33 (op := 72) (fn := 3) (by decide) (by decide) vd.isLt va.isLt vb.isLt pm.isLt (vtype_lt ty) hw
    refine ⟨hl, op_of ho ?_⟩
    refine va_of hf ?_
    show (Except.ok (Instr.vMin (vreg w 7) (vreg w 12) (vreg w 17) (preg w 22) (VType.ofCode (fld w 25 3)))) = _
    rw [vreg_of f0, vreg_of f1, vreg_of f2, preg_of f3, vtype_of f4]
  exact fun _ _ => key _ rfl

theorem vMax (vd : VReg) (va : VReg) (vb : VReg) (pm : PReg) (ty : VType) : Statement (.vMax vd va vb pm ty) := by
  have key : ∀ w, w = 72 + 4 * 268435456 + vd.val * 128 + va.val * 4096 + vb.val * 131072 + pm.val * 4194304 + ty.code * 33554432 →
      w < 2 ^ 32 ∧ decodeOp w = .ok (.vMax vd va vb pm ty) := by
    intro w hw
    obtain ⟨hl, ho, hf, f0, f1, f2, f3, f4⟩ := shape33 (op := 72) (fn := 4) (by decide) (by decide) vd.isLt va.isLt vb.isLt pm.isLt (vtype_lt ty) hw
    refine ⟨hl, op_of ho ?_⟩
    refine va_of hf ?_
    show (Except.ok (Instr.vMax (vreg w 7) (vreg w 12) (vreg w 17) (preg w 22) (VType.ofCode (fld w 25 3)))) = _
    rw [vreg_of f0, vreg_of f1, vreg_of f2, preg_of f3, vtype_of f4]
  exact fun _ _ => key _ rfl

theorem vAnd (vd : VReg) (va : VReg) (vb : VReg) (pm : PReg) (ty : VType) : Statement (.vAnd vd va vb pm ty) := by
  have key : ∀ w, w = 72 + 5 * 268435456 + vd.val * 128 + va.val * 4096 + vb.val * 131072 + pm.val * 4194304 + ty.code * 33554432 →
      w < 2 ^ 32 ∧ decodeOp w = .ok (.vAnd vd va vb pm ty) := by
    intro w hw
    obtain ⟨hl, ho, hf, f0, f1, f2, f3, f4⟩ := shape33 (op := 72) (fn := 5) (by decide) (by decide) vd.isLt va.isLt vb.isLt pm.isLt (vtype_lt ty) hw
    refine ⟨hl, op_of ho ?_⟩
    refine va_of hf ?_
    show (Except.ok (Instr.vAnd (vreg w 7) (vreg w 12) (vreg w 17) (preg w 22) (VType.ofCode (fld w 25 3)))) = _
    rw [vreg_of f0, vreg_of f1, vreg_of f2, preg_of f3, vtype_of f4]
  exact fun _ _ => key _ rfl

theorem vOr (vd : VReg) (va : VReg) (vb : VReg) (pm : PReg) (ty : VType) : Statement (.vOr vd va vb pm ty) := by
  have key : ∀ w, w = 72 + 6 * 268435456 + vd.val * 128 + va.val * 4096 + vb.val * 131072 + pm.val * 4194304 + ty.code * 33554432 →
      w < 2 ^ 32 ∧ decodeOp w = .ok (.vOr vd va vb pm ty) := by
    intro w hw
    obtain ⟨hl, ho, hf, f0, f1, f2, f3, f4⟩ := shape33 (op := 72) (fn := 6) (by decide) (by decide) vd.isLt va.isLt vb.isLt pm.isLt (vtype_lt ty) hw
    refine ⟨hl, op_of ho ?_⟩
    refine va_of hf ?_
    show (Except.ok (Instr.vOr (vreg w 7) (vreg w 12) (vreg w 17) (preg w 22) (VType.ofCode (fld w 25 3)))) = _
    rw [vreg_of f0, vreg_of f1, vreg_of f2, preg_of f3, vtype_of f4]
  exact fun _ _ => key _ rfl

theorem vXor (vd : VReg) (va : VReg) (vb : VReg) (pm : PReg) (ty : VType) : Statement (.vXor vd va vb pm ty) := by
  have key : ∀ w, w = 72 + 7 * 268435456 + vd.val * 128 + va.val * 4096 + vb.val * 131072 + pm.val * 4194304 + ty.code * 33554432 →
      w < 2 ^ 32 ∧ decodeOp w = .ok (.vXor vd va vb pm ty) := by
    intro w hw
    obtain ⟨hl, ho, hf, f0, f1, f2, f3, f4⟩ := shape33 (op := 72) (fn := 7) (by decide) (by decide) vd.isLt va.isLt vb.isLt pm.isLt (vtype_lt ty) hw
    refine ⟨hl, op_of ho ?_⟩
    refine va_of hf ?_
    show (Except.ok (Instr.vXor (vreg w 7) (vreg w 12) (vreg w 17) (preg w 22) (VType.ofCode (fld w 25 3)))) = _
    rw [vreg_of f0, vreg_of f1, vreg_of f2, preg_of f3, vtype_of f4]
  exact fun _ _ => key _ rfl

theorem vShl (vd : VReg) (va : VReg) (vb : VReg) (pm : PReg) (ty : VType) : Statement (.vShl vd va vb pm ty) := by
  have key : ∀ w, w = 72 + 8 * 268435456 + vd.val * 128 + va.val * 4096 + vb.val * 131072 + pm.val * 4194304 + ty.code * 33554432 →
      w < 2 ^ 32 ∧ decodeOp w = .ok (.vShl vd va vb pm ty) := by
    intro w hw
    obtain ⟨hl, ho, hf, f0, f1, f2, f3, f4⟩ := shape33 (op := 72) (fn := 8) (by decide) (by decide) vd.isLt va.isLt vb.isLt pm.isLt (vtype_lt ty) hw
    refine ⟨hl, op_of ho ?_⟩
    refine va_of hf ?_
    show (Except.ok (Instr.vShl (vreg w 7) (vreg w 12) (vreg w 17) (preg w 22) (VType.ofCode (fld w 25 3)))) = _
    rw [vreg_of f0, vreg_of f1, vreg_of f2, preg_of f3, vtype_of f4]
  exact fun _ _ => key _ rfl

theorem vShr (vd : VReg) (va : VReg) (vb : VReg) (pm : PReg) (ty : VType) : Statement (.vShr vd va vb pm ty) := by
  have key : ∀ w, w = 72 + 9 * 268435456 + vd.val * 128 + va.val * 4096 + vb.val * 131072 + pm.val * 4194304 + ty.code * 33554432 →
      w < 2 ^ 32 ∧ decodeOp w = .ok (.vShr vd va vb pm ty) := by
    intro w hw
    obtain ⟨hl, ho, hf, f0, f1, f2, f3, f4⟩ := shape33 (op := 72) (fn := 9) (by decide) (by decide) vd.isLt va.isLt vb.isLt pm.isLt (vtype_lt ty) hw
    refine ⟨hl, op_of ho ?_⟩
    refine va_of hf ?_
    show (Except.ok (Instr.vShr (vreg w 7) (vreg w 12) (vreg w 17) (preg w 22) (VType.ofCode (fld w 25 3)))) = _
    rw [vreg_of f0, vreg_of f1, vreg_of f2, preg_of f3, vtype_of f4]
  exact fun _ _ => key _ rfl

theorem vSha (vd : VReg) (va : VReg) (vb : VReg) (pm : PReg) (ty : VType) : Statement (.vSha vd va vb pm ty) := by
  have key : ∀ w, w = 72 + 10 * 268435456 + vd.val * 128 + va.val * 4096 + vb.val * 131072 + pm.val * 4194304 + ty.code * 33554432 →
      w < 2 ^ 32 ∧ decodeOp w = .ok (.vSha vd va vb pm ty) := by
    intro w hw
    obtain ⟨hl, ho, hf, f0, f1, f2, f3, f4⟩ := shape33 (op := 72) (fn := 10) (by decide) (by decide) vd.isLt va.isLt vb.isLt pm.isLt (vtype_lt ty) hw
    refine ⟨hl, op_of ho ?_⟩
    refine va_of hf ?_
    show (Except.ok (Instr.vSha (vreg w 7) (vreg w 12) (vreg w 17) (preg w 22) (VType.ofCode (fld w 25 3)))) = _
    rw [vreg_of f0, vreg_of f1, vreg_of f2, preg_of f3, vtype_of f4]
  exact fun _ _ => key _ rfl

theorem vAbs (vd : VReg) (va : VReg) (pm : PReg) (ty : VType) : Statement (.vAbs vd va pm ty) := by
  have key : ∀ w, w = 72 + 11 * 268435456 + vd.val * 128 + va.val * 4096 + pm.val * 4194304 + ty.code * 33554432 →
      w < 2 ^ 32 ∧ decodeOp w = .ok (.vAbs vd va pm ty) := by
    intro w hw
    obtain ⟨hl, ho, hf, z0, f0, f1, f2, f3⟩ := shape34 (op := 72) (fn := 11) (by decide) (by decide) vd.isLt va.isLt pm.isLt (vtype_lt ty) hw
    refine ⟨hl, op_of ho ?_⟩
    refine va_of hf ?_
    show (if fld w 17 5 == 0 then Except.ok (Instr.vAbs (vreg w 7) (vreg w 12) (preg w 22) (VType.ofCode (fld w 25 3))) else _) = _
    rw [zero_of z0, vreg_of f0, vreg_of f1, preg_of f2, vtype_of f3]
    rfl
  exact fun _ _ => key _ rfl

theorem vNeg (vd : VReg) (va : VReg) (pm : PReg) (ty : VType) : Statement (.vNeg vd va pm ty) := by
  have key : ∀ w, w = 72 + 12 * 268435456 + vd.val * 128 + va.val * 4096 + pm.val * 4194304 + ty.code * 33554432 →
      w < 2 ^ 32 ∧ decodeOp w = .ok (.vNeg vd va pm ty) := by
    intro w hw
    obtain ⟨hl, ho, hf, z0, f0, f1, f2, f3⟩ := shape34 (op := 72) (fn := 12) (by decide) (by decide) vd.isLt va.isLt pm.isLt (vtype_lt ty) hw
    refine ⟨hl, op_of ho ?_⟩
    refine va_of hf ?_
    show (if fld w 17 5 == 0 then Except.ok (Instr.vNeg (vreg w 7) (vreg w 12) (preg w 22) (VType.ofCode (fld w 25 3))) else _) = _
    rw [zero_of z0, vreg_of f0, vreg_of f1, preg_of f2, vtype_of f3]
    rfl
  exact fun _ _ => key _ rfl

theorem vDiv (vd : VReg) (va : VReg) (vb : VReg) (pm : PReg) (ty : VType) : Statement (.vDiv vd va vb pm ty) := by
  have key : ∀ w, w = 72 + 13 * 268435456 + vd.val * 128 + va.val * 4096 + vb.val * 131072 + pm.val * 4194304 + ty.code * 33554432 →
      w < 2 ^ 32 ∧ decodeOp w = .ok (.vDiv vd va vb pm ty) := by
    intro w hw
    obtain ⟨hl, ho, hf, f0, f1, f2, f3, f4⟩ := shape33 (op := 72) (fn := 13) (by decide) (by decide) vd.isLt va.isLt vb.isLt pm.isLt (vtype_lt ty) hw
    refine ⟨hl, op_of ho ?_⟩
    refine va_of hf ?_
    show (Except.ok (Instr.vDiv (vreg w 7) (vreg w 12) (vreg w 17) (preg w 22) (VType.ofCode (fld w 25 3)))) = _
    rw [vreg_of f0, vreg_of f1, vreg_of f2, preg_of f3, vtype_of f4]
  exact fun _ _ => key _ rfl

theorem vMulh (vd : VReg) (va : VReg) (vb : VReg) (pm : PReg) (ty : VType) : Statement (.vMulh vd va vb pm ty) := by
  have key : ∀ w, w = 72 + 14 * 268435456 + vd.val * 128 + va.val * 4096 + vb.val * 131072 + pm.val * 4194304 + ty.code * 33554432 →
      w < 2 ^ 32 ∧ decodeOp w = .ok (.vMulh vd va vb pm ty) := by
    intro w hw
    obtain ⟨hl, ho, hf, f0, f1, f2, f3, f4⟩ := shape33 (op := 72) (fn := 14) (by decide) (by decide) vd.isLt va.isLt vb.isLt pm.isLt (vtype_lt ty) hw
    refine ⟨hl, op_of ho ?_⟩
    refine va_of hf ?_
    show (Except.ok (Instr.vMulh (vreg w 7) (vreg w 12) (vreg w 17) (preg w 22) (VType.ofCode (fld w 25 3)))) = _
    rw [vreg_of f0, vreg_of f1, vreg_of f2, preg_of f3, vtype_of f4]
  exact fun _ _ => key _ rfl

theorem vFma (vd : VReg) (va : VReg) (vb : VReg) (vc : VReg) (pm : PReg) (ty : FmaType) : Statement (.vFma vd va vb vc pm ty) := by
  have key : ∀ w, w = 73 + vd.val * 128 + va.val * 4096 + vb.val * 131072 + vc.val * 4194304 + pm.val * 134217728 + ty.code * 1073741824 →
      w < 2 ^ 32 ∧ decodeOp w = .ok (.vFma vd va vb vc pm ty) := by
    intro w hw
    obtain ⟨hl, ho, f0, f1, f2, f3, f4, f5⟩ := shape35 (op := 73) (by decide) vd.isLt va.isLt vb.isLt vc.isLt pm.isLt (fmatype_lt ty) hw
    refine ⟨hl, op_of ho ?_⟩
    show (Except.ok (Instr.vFma (vreg w 7) (vreg w 12) (vreg w 17) (vreg w 22) (preg w 27) (FmaType.ofCode (fld w 30 2)))) = _
    rw [vreg_of f0, vreg_of f1, vreg_of f2, vreg_of f3, preg_of f4, fmatype_of f5]
  exact fun _ _ => key _ rfl

theorem vCmp (pd : PReg) (va : VReg) (vb : VReg) (pm : PReg) (ty : VType) (cond : VCond) : Statement (.vCmp pd va vb pm ty cond) := by
  have key : ∀ w, w = 74 + pd.val * 128 + va.val * 4096 + vb.val * 131072 + pm.val * 4194304 + ty.code * 33554432 + cond.code * 268435456 →
      w < 2 ^ 32 ∧ decodeOp w = .ok (.vCmp pd va vb pm ty cond) := by
    intro w hw
    obtain ⟨hl, ho, z0, z1, f0, f1, f2, f3, f4, f5⟩ := shape36 (op := 74) (by decide) pd.isLt va.isLt vb.isLt pm.isLt (vtype_lt ty) (vcond_lt cond) hw
    refine ⟨hl, op_of ho ?_⟩
    show (if fld w 10 2 == 0 && fld w 31 1 == 0 then match VCond.ofCode? (fld w 28 3) with | some cond => Except.ok (Instr.vCmp (preg w 7) (vreg w 12) (vreg w 17) (preg w 22) (VType.ofCode (fld w 25 3)) cond) | none => _ else _) = _
    rw [zero_of z0, zero_of z1, preg_of f0, vreg_of f1, vreg_of f2, preg_of f3, vtype_of f4, vcond_of f5]
    rfl
  exact fun _ _ => key _ rfl

theorem vCvt (vd : VReg) (va : VReg) (pm : PReg) (frm : VType) (tgt : VType) : Statement (.vCvt vd va pm frm tgt) := by
  have key : ∀ w, w = 75 + vd.val * 128 + va.val * 4096 + pm.val * 4194304 + frm.code * 33554432 + tgt.code * 268435456 →
      w < 2 ^ 32 ∧ decodeOp w = .ok (.vCvt vd va pm frm tgt) := by
    intro w hw
    obtain ⟨hl, ho, z0, z1, f0, f1, f2, f3, f4⟩ := shape37 (op := 75) (by decide) vd.isLt va.isLt pm.isLt (vtype_lt frm) (vtype_lt tgt) hw
    refine ⟨hl, op_of ho ?_⟩
    show (if fld w 17 5 == 0 && fld w 31 1 == 0 then Except.ok (Instr.vCvt (vreg w 7) (vreg w 12) (preg w 22) (VType.ofCode (fld w 25 3)) (VType.ofCode (fld w 28 3))) else _) = _
    rw [zero_of z0, zero_of z1, vreg_of f0, vreg_of f1, preg_of f2, vtype_of f3, vtype_of f4]
    rfl
  exact fun _ _ => key _ rfl

theorem vRedAdd (vd : VReg) (va : VReg) (pm : PReg) (ty : VType) : Statement (.vRedAdd vd va pm ty) := by
  have key : ∀ w, w = 76 + 0 * 268435456 + vd.val * 128 + va.val * 4096 + pm.val * 4194304 + ty.code * 33554432 →
      w < 2 ^ 32 ∧ decodeOp w = .ok (.vRedAdd vd va pm ty) := by
    intro w hw
    obtain ⟨hl, ho, hf, z0, f0, f1, f2, f3⟩ := shape34 (op := 76) (fn := 0) (by decide) (by decide) vd.isLt va.isLt pm.isLt (vtype_lt ty) hw
    refine ⟨hl, op_of ho ?_⟩
    refine vred_of hf ?_
    show (if fld w 17 5 == 0 then Except.ok (Instr.vRedAdd (vreg w 7) (vreg w 12) (preg w 22) (VType.ofCode (fld w 25 3))) else _) = _
    rw [zero_of z0, vreg_of f0, vreg_of f1, preg_of f2, vtype_of f3]
    rfl
  exact fun _ _ => key _ rfl

theorem vRedMin (vd : VReg) (va : VReg) (pm : PReg) (ty : VType) : Statement (.vRedMin vd va pm ty) := by
  have key : ∀ w, w = 76 + 1 * 268435456 + vd.val * 128 + va.val * 4096 + pm.val * 4194304 + ty.code * 33554432 →
      w < 2 ^ 32 ∧ decodeOp w = .ok (.vRedMin vd va pm ty) := by
    intro w hw
    obtain ⟨hl, ho, hf, z0, f0, f1, f2, f3⟩ := shape34 (op := 76) (fn := 1) (by decide) (by decide) vd.isLt va.isLt pm.isLt (vtype_lt ty) hw
    refine ⟨hl, op_of ho ?_⟩
    refine vred_of hf ?_
    show (if fld w 17 5 == 0 then Except.ok (Instr.vRedMin (vreg w 7) (vreg w 12) (preg w 22) (VType.ofCode (fld w 25 3))) else _) = _
    rw [zero_of z0, vreg_of f0, vreg_of f1, preg_of f2, vtype_of f3]
    rfl
  exact fun _ _ => key _ rfl

theorem vRedMax (vd : VReg) (va : VReg) (pm : PReg) (ty : VType) : Statement (.vRedMax vd va pm ty) := by
  have key : ∀ w, w = 76 + 2 * 268435456 + vd.val * 128 + va.val * 4096 + pm.val * 4194304 + ty.code * 33554432 →
      w < 2 ^ 32 ∧ decodeOp w = .ok (.vRedMax vd va pm ty) := by
    intro w hw
    obtain ⟨hl, ho, hf, z0, f0, f1, f2, f3⟩ := shape34 (op := 76) (fn := 2) (by decide) (by decide) vd.isLt va.isLt pm.isLt (vtype_lt ty) hw
    refine ⟨hl, op_of ho ?_⟩
    refine vred_of hf ?_
    show (if fld w 17 5 == 0 then Except.ok (Instr.vRedMax (vreg w 7) (vreg w 12) (preg w 22) (VType.ofCode (fld w 25 3))) else _) = _
    rw [zero_of z0, vreg_of f0, vreg_of f1, preg_of f2, vtype_of f3]
    rfl
  exact fun _ _ => key _ rfl

theorem vRedAnd (vd : VReg) (va : VReg) (pm : PReg) (ty : VType) : Statement (.vRedAnd vd va pm ty) := by
  have key : ∀ w, w = 76 + 3 * 268435456 + vd.val * 128 + va.val * 4096 + pm.val * 4194304 + ty.code * 33554432 →
      w < 2 ^ 32 ∧ decodeOp w = .ok (.vRedAnd vd va pm ty) := by
    intro w hw
    obtain ⟨hl, ho, hf, z0, f0, f1, f2, f3⟩ := shape34 (op := 76) (fn := 3) (by decide) (by decide) vd.isLt va.isLt pm.isLt (vtype_lt ty) hw
    refine ⟨hl, op_of ho ?_⟩
    refine vred_of hf ?_
    show (if fld w 17 5 == 0 then Except.ok (Instr.vRedAnd (vreg w 7) (vreg w 12) (preg w 22) (VType.ofCode (fld w 25 3))) else _) = _
    rw [zero_of z0, vreg_of f0, vreg_of f1, preg_of f2, vtype_of f3]
    rfl
  exact fun _ _ => key _ rfl

theorem vRedOr (vd : VReg) (va : VReg) (pm : PReg) (ty : VType) : Statement (.vRedOr vd va pm ty) := by
  have key : ∀ w, w = 76 + 4 * 268435456 + vd.val * 128 + va.val * 4096 + pm.val * 4194304 + ty.code * 33554432 →
      w < 2 ^ 32 ∧ decodeOp w = .ok (.vRedOr vd va pm ty) := by
    intro w hw
    obtain ⟨hl, ho, hf, z0, f0, f1, f2, f3⟩ := shape34 (op := 76) (fn := 4) (by decide) (by decide) vd.isLt va.isLt pm.isLt (vtype_lt ty) hw
    refine ⟨hl, op_of ho ?_⟩
    refine vred_of hf ?_
    show (if fld w 17 5 == 0 then Except.ok (Instr.vRedOr (vreg w 7) (vreg w 12) (preg w 22) (VType.ofCode (fld w 25 3))) else _) = _
    rw [zero_of z0, vreg_of f0, vreg_of f1, preg_of f2, vtype_of f3]
    rfl
  exact fun _ _ => key _ rfl

theorem vRedXor (vd : VReg) (va : VReg) (pm : PReg) (ty : VType) : Statement (.vRedXor vd va pm ty) := by
  have key : ∀ w, w = 76 + 5 * 268435456 + vd.val * 128 + va.val * 4096 + pm.val * 4194304 + ty.code * 33554432 →
      w < 2 ^ 32 ∧ decodeOp w = .ok (.vRedXor vd va pm ty) := by
    intro w hw
    obtain ⟨hl, ho, hf, z0, f0, f1, f2, f3⟩ := shape34 (op := 76) (fn := 5) (by decide) (by decide) vd.isLt va.isLt pm.isLt (vtype_lt ty) hw
    refine ⟨hl, op_of ho ?_⟩
    refine vred_of hf ?_
    show (if fld w 17 5 == 0 then Except.ok (Instr.vRedXor (vreg w 7) (vreg w 12) (preg w 22) (VType.ofCode (fld w 25 3))) else _) = _
    rw [zero_of z0, vreg_of f0, vreg_of f1, preg_of f2, vtype_of f3]
    rfl
  exact fun _ _ => key _ rfl

theorem vPerm (vd : VReg) (va : VReg) (vb : VReg) (pm : PReg) (ew : EWidth) : Statement (.vPerm vd va vb pm ew) := by
  have key : ∀ w, w = 77 + vd.val * 128 + va.val * 4096 + vb.val * 131072 + pm.val * 4194304 + ew.code * 33554432 →
      w < 2 ^ 32 ∧ decodeOp w = .ok (.vPerm vd va vb pm ew) := by
    intro w hw
    obtain ⟨hl, ho, z0, f0, f1, f2, f3, f4⟩ := shape38 (op := 77) (by decide) vd.isLt va.isLt vb.isLt pm.isLt (ewidth_lt ew) hw
    refine ⟨hl, op_of ho ?_⟩
    show (if fld w 27 5 == 0 then Except.ok (Instr.vPerm (vreg w 7) (vreg w 12) (vreg w 17) (preg w 22) (EWidth.ofCode (fld w 25 2))) else _) = _
    rw [zero_of z0, vreg_of f0, vreg_of f1, vreg_of f2, preg_of f3, ewidth_of f4]
    rfl
  exact fun _ _ => key _ rfl

theorem vMovBcst (vd : VReg) (s : SReg) (ew : EWidth) : Statement (.vMovBcst vd s ew) := by
  have key : ∀ w, w = 78 + 0 * 16777216 + vd.val * 128 + s.val * 4096 + ew.code * 134217728 →
      w < 2 ^ 32 ∧ decodeOp w = .ok (.vMovBcst vd s ew) := by
    intro w hw
    obtain ⟨hl, ho, hf, z0, z1, f0, f1, f2⟩ := shape39 (op := 78) (fn := 0) (by decide) (by decide) vd.isLt s.isLt (ewidth_lt ew) hw
    refine ⟨hl, op_of ho ?_⟩
    refine vmov_of hf ?_
    show (if fld w 18 6 == 0 && fld w 29 3 == 0 then Except.ok (Instr.vMovBcst (vreg w 7) (sreg w 12) (EWidth.ofCode (fld w 27 2))) else _) = _
    rw [zero_of z0, zero_of z1, vreg_of f0, sreg_of f1, ewidth_of f2]
    rfl
  exact fun _ _ => key _ rfl

theorem vMovMovs (vd : VReg) (s : SReg) (idx : Fin 64) (ew : EWidth) : Statement (.vMovMovs vd s idx ew) := by
  have key : ∀ w, w = 78 + 1 * 16777216 + vd.val * 128 + s.val * 4096 + idx.val * 262144 + ew.code * 134217728 →
      w < 2 ^ 32 ∧ decodeOp w = .ok (.vMovMovs vd s idx ew) := by
    intro w hw
    obtain ⟨hl, ho, hf, z0, f0, f1, f2, f3⟩ := shape40 (op := 78) (fn := 1) (by decide) (by decide) vd.isLt s.isLt idx.isLt (ewidth_lt ew) hw
    refine ⟨hl, op_of ho ?_⟩
    refine vmov_of hf ?_
    show (if fld w 29 3 == 0 then Except.ok (Instr.vMovMovs (vreg w 7) (sreg w 12) (Fin.ofNat 64 (w / 2 ^ 18)) (EWidth.ofCode (fld w 27 2))) else _) = _
    rw [zero_of z0, vreg_of f0, sreg_of f1, fin_of (n := 64) f2, ewidth_of f3]
    rfl
  exact fun _ _ => key _ rfl

theorem vMovIns (vd : VReg) (s : SReg) (idx : Fin 64) (ew : EWidth) : Statement (.vMovIns vd s idx ew) := by
  have key : ∀ w, w = 78 + 2 * 16777216 + vd.val * 128 + s.val * 4096 + idx.val * 262144 + ew.code * 134217728 →
      w < 2 ^ 32 ∧ decodeOp w = .ok (.vMovIns vd s idx ew) := by
    intro w hw
    obtain ⟨hl, ho, hf, z0, f0, f1, f2, f3⟩ := shape40 (op := 78) (fn := 2) (by decide) (by decide) vd.isLt s.isLt idx.isLt (ewidth_lt ew) hw
    refine ⟨hl, op_of ho ?_⟩
    refine vmov_of hf ?_
    show (if fld w 29 3 == 0 then Except.ok (Instr.vMovIns (vreg w 7) (sreg w 12) (Fin.ofNat 64 (w / 2 ^ 18)) (EWidth.ofCode (fld w 27 2))) else _) = _
    rw [zero_of z0, vreg_of f0, sreg_of f1, fin_of (n := 64) f2, ewidth_of f3]
    rfl
  exact fun _ _ => key _ rfl

theorem vMovP2s (p : PReg) (s : SReg) : Statement (.vMovP2s p s) := by
  have key : ∀ w, w = 78 + 3 * 16777216 + p.val * 128 + s.val * 4096 →
      w < 2 ^ 32 ∧ decodeOp w = .ok (.vMovP2s p s) := by
    intro w hw
    obtain ⟨hl, ho, hf, z0, z1, z2, f0, f1⟩ := shape41 (op := 78) (fn := 3) (by decide) (by decide) p.isLt s.isLt hw
    refine ⟨hl, op_of ho ?_⟩
    refine vmov_of hf ?_
    show (if fld w 10 2 == 0 && fld w 18 6 == 0 && fld w 27 5 == 0 then Except.ok (Instr.vMovP2s (preg w 7) (sreg w 12)) else _) = _
    rw [zero_of z0, zero_of z1, zero_of z2, preg_of f0, sreg_of f1]
    rfl
  exact fun _ _ => key _ rfl

theorem vMovS2p (p : PReg) (s : SReg) : Statement (.vMovS2p p s) := by
  have key : ∀ w, w = 78 + 4 * 16777216 + p.val * 128 + s.val * 4096 →
      w < 2 ^ 32 ∧ decodeOp w = .ok (.vMovS2p p s) := by
    intro w hw
    obtain ⟨hl, ho, hf, z0, z1, z2, f0, f1⟩ := shape41 (op := 78) (fn := 4) (by decide) (by decide) p.isLt s.isLt hw
    refine ⟨hl, op_of ho ?_⟩
    refine vmov_of hf ?_
    show (if fld w 10 2 == 0 && fld w 18 6 == 0 && fld w 27 5 == 0 then Except.ok (Instr.vMovS2p (preg w 7) (sreg w 12)) else _) = _
    rw [zero_of z0, zero_of z1, zero_of z2, preg_of f0, sreg_of f1]
    rfl
  exact fun _ _ => key _ rfl

theorem vSfRcp (vd : VReg) (va : VReg) (pm : PReg) : Statement (.vSfRcp vd va pm) := by
  have key : ∀ w, w = 79 + 0 * 33554432 + vd.val * 128 + va.val * 4096 + pm.val * 4194304 →
      w < 2 ^ 32 ∧ decodeOp w = .ok (.vSfRcp vd va pm) := by
    intro w hw
    obtain ⟨hl, ho, hf, z0, f0, f1, f2⟩ := shape42 (op := 79) (fn := 0) (by decide) (by decide) vd.isLt va.isLt pm.isLt hw
    refine ⟨hl, op_of ho ?_⟩
    refine vsf_of hf ?_
    show (if fld w 17 5 == 0 then Except.ok (Instr.vSfRcp (vreg w 7) (vreg w 12) (preg w 22)) else _) = _
    rw [zero_of z0, vreg_of f0, vreg_of f1, preg_of f2]
    rfl
  exact fun _ _ => key _ rfl

theorem vSfRsqrt (vd : VReg) (va : VReg) (pm : PReg) : Statement (.vSfRsqrt vd va pm) := by
  have key : ∀ w, w = 79 + 1 * 33554432 + vd.val * 128 + va.val * 4096 + pm.val * 4194304 →
      w < 2 ^ 32 ∧ decodeOp w = .ok (.vSfRsqrt vd va pm) := by
    intro w hw
    obtain ⟨hl, ho, hf, z0, f0, f1, f2⟩ := shape42 (op := 79) (fn := 1) (by decide) (by decide) vd.isLt va.isLt pm.isLt hw
    refine ⟨hl, op_of ho ?_⟩
    refine vsf_of hf ?_
    show (if fld w 17 5 == 0 then Except.ok (Instr.vSfRsqrt (vreg w 7) (vreg w 12) (preg w 22)) else _) = _
    rw [zero_of z0, vreg_of f0, vreg_of f1, preg_of f2]
    rfl
  exact fun _ _ => key _ rfl

theorem vSfExp2 (vd : VReg) (va : VReg) (pm : PReg) : Statement (.vSfExp2 vd va pm) := by
  have key : ∀ w, w = 79 + 2 * 33554432 + vd.val * 128 + va.val * 4096 + pm.val * 4194304 →
      w < 2 ^ 32 ∧ decodeOp w = .ok (.vSfExp2 vd va pm) := by
    intro w hw
    obtain ⟨hl, ho, hf, z0, f0, f1, f2⟩ := shape42 (op := 79) (fn := 2) (by decide) (by decide) vd.isLt va.isLt pm.isLt hw
    refine ⟨hl, op_of ho ?_⟩
    refine vsf_of hf ?_
    show (if fld w 17 5 == 0 then Except.ok (Instr.vSfExp2 (vreg w 7) (vreg w 12) (preg w 22)) else _) = _
    rw [zero_of z0, vreg_of f0, vreg_of f1, preg_of f2]
    rfl
  exact fun _ _ => key _ rfl

theorem vSfLog2 (vd : VReg) (va : VReg) (pm : PReg) : Statement (.vSfLog2 vd va pm) := by
  have key : ∀ w, w = 79 + 3 * 33554432 + vd.val * 128 + va.val * 4096 + pm.val * 4194304 →
      w < 2 ^ 32 ∧ decodeOp w = .ok (.vSfLog2 vd va pm) := by
    intro w hw
    obtain ⟨hl, ho, hf, z0, f0, f1, f2⟩ := shape42 (op := 79) (fn := 3) (by decide) (by decide) vd.isLt va.isLt pm.isLt hw
    refine ⟨hl, op_of ho ?_⟩
    refine vsf_of hf ?_
    show (if fld w 17 5 == 0 then Except.ok (Instr.vSfLog2 (vreg w 7) (vreg w 12) (preg w 22)) else _) = _
    rw [zero_of z0, vreg_of f0, vreg_of f1, preg_of f2]
    rfl
  exact fun _ _ => key _ rfl

theorem mxCfg (a : SReg) (b : SReg) : Statement (.mxCfg a b) := by
  have key : ∀ w, w = 80 + 0 * 33554432 + a.val * 8192 + b.val * 524288 →
      w < 2 ^ 32 ∧ decodeOp w = .ok (.mxCfg a b) := by
    intro w hw
    obtain ⟨hl, ho, hf, z0, f0, f1⟩ := shape19 (op := 80) (fn := 0) (by decide) (by decide) a.isLt b.isLt hw
    refine ⟨hl, op_of ho ?_⟩
    refine mx_of hf ?_
    show (if fld w 7 6 == 0 then Except.ok (Instr.mxCfg (sreg w 13) (sreg w 19)) else _) = _
    rw [zero_of z0, sreg_of f0, sreg_of f1]
    rfl
  exact fun _ _ => key _ rfl

theorem mxZero (d : SReg) : Statement (.mxZero d) := by
  have key : ∀ w, w = 80 + 1 * 33554432 + d.val * 128 →
      w < 2 ^ 32 ∧ decodeOp w = .ok (.mxZero d) := by
    intro w hw
    obtain ⟨hl, ho, hf, z0, f0⟩ := shape43 (op := 80) (fn := 1) (by decide) (by decide) d.isLt hw
    refine ⟨hl, op_of ho ?_⟩
    refine mx_of hf ?_
    show (if fld w 13 12 == 0 then Except.ok (Instr.mxZero (sreg w 7)) else _) = _
    rw [zero_of z0, sreg_of f0]
    rfl
  exact fun _ _ => key _ rfl

theorem mxMma (d : SReg) (a : SReg) (b : SReg) : Statement (.mxMma d a b) := by
  have key : ∀ w, w = 80 + 2 * 33554432 + d.val * 128 + a.val * 8192 + b.val * 524288 →
      w < 2 ^ 32 ∧ decodeOp w = .ok (.mxMma d a b) := by
    intro w hw
    obtain ⟨hl, ho, hf, f0, f1, f2⟩ := shape1 (op := 80) (fn := 2) (by decide) (by decide) d.isLt a.isLt b.isLt hw
    refine ⟨hl, op_of ho ?_⟩
    refine mx_of hf ?_
    show (Except.ok (Instr.mxMma (sreg w 7) (sreg w 13) (sreg w 19))) = _
    rw [sreg_of f0, sreg_of f1, sreg_of f2]
  exact fun _ _ => key _ rfl

theorem mxDrain (d : SReg) : Statement (.mxDrain d) := by
  have key : ∀ w, w = 80 + 3 * 33554432 + d.val * 128 →
      w < 2 ^ 32 ∧ decodeOp w = .ok (.mxDrain d) := by
    intro w hw
    obtain ⟨hl, ho, hf, z0, f0⟩ := shape43 (op := 80) (fn := 3) (by decide) (by decide) d.isLt hw
    refine ⟨hl, op_of ho ?_⟩
    refine mx_of hf ?_
    show (if fld w 13 12 == 0 then Except.ok (Instr.mxDrain (sreg w 7)) else _) = _
    rw [zero_of z0, sreg_of f0]
    rfl
  exact fun _ _ => key _ rfl

theorem mxWait : Statement (.mxWait) := by
  have key : ∀ w, w = 80 + 4 * 33554432 →
      w < 2 ^ 32 ∧ decodeOp w = .ok (.mxWait) := by
    intro w hw
    obtain ⟨hl, ho, hf, z0⟩ := shape12 (op := 80) (fn := 4) (by decide) (by decide) hw
    refine ⟨hl, op_of ho ?_⟩
    refine mx_of hf ?_
    show (if fld w 7 18 == 0 then Except.ok (Instr.mxWait) else _) = _
    rw [zero_of z0]
    rfl
  exact fun _ _ => key _ rfl

theorem sgLoad (a : SReg) (b : SReg) : Statement (.sgLoad a b) := by
  have key : ∀ w, w = 81 + 0 * 33554432 + a.val * 8192 + b.val * 524288 →
      w < 2 ^ 32 ∧ decodeOp w = .ok (.sgLoad a b) := by
    intro w hw
    obtain ⟨hl, ho, hf, z0, f0, f1⟩ := shape19 (op := 81) (fn := 0) (by decide) (by decide) a.isLt b.isLt hw
    refine ⟨hl, op_of ho ?_⟩
    refine sg_of hf ?_
    show (if fld w 7 6 == 0 then Except.ok (Instr.sgLoad (sreg w 13) (sreg w 19)) else _) = _
    rw [zero_of z0, sreg_of f0, sreg_of f1]
    rfl
  exact fun _ _ => key _ rfl

theorem sgCommit (a : SReg) : Statement (.sgCommit a) := by
  have key : ∀ w, w = 81 + 1 * 33554432 + a.val * 8192 →
      w < 2 ^ 32 ∧ decodeOp w = .ok (.sgCommit a) := by
    intro w hw
    obtain ⟨hl, ho, hf, z0, z1, f0⟩ := shape26 (op := 81) (fn := 1) (by decide) (by decide) a.isLt hw
    refine ⟨hl, op_of ho ?_⟩
    refine sg_of hf ?_
    show (if fld w 7 6 == 0 && fld w 19 6 == 0 then Except.ok (Instr.sgCommit (sreg w 13)) else _) = _
    rw [zero_of z0, zero_of z1, sreg_of f0]
    rfl
  exact fun _ _ => key _ rfl

theorem sgStream (a : SReg) (b : SReg) : Statement (.sgStream a b) := by
  have key : ∀ w, w = 81 + 2 * 33554432 + a.val * 8192 + b.val * 524288 →
      w < 2 ^ 32 ∧ decodeOp w = .ok (.sgStream a b) := by
    intro w hw
    obtain ⟨hl, ho, hf, z0, f0, f1⟩ := shape19 (op := 81) (fn := 2) (by decide) (by decide) a.isLt b.isLt hw
    refine ⟨hl, op_of ho ?_⟩
    refine sg_of hf ?_
    show (if fld w 7 6 == 0 then Except.ok (Instr.sgStream (sreg w 13) (sreg w 19)) else _) = _
    rw [zero_of z0, sreg_of f0, sreg_of f1]
    rfl
  exact fun _ _ => key _ rfl

theorem sgSbar (a : SReg) : Statement (.sgSbar a) := by
  have key : ∀ w, w = 81 + 3 * 33554432 + a.val * 8192 →
      w < 2 ^ 32 ∧ decodeOp w = .ok (.sgSbar a) := by
    intro w hw
    obtain ⟨hl, ho, hf, z0, z1, f0⟩ := shape26 (op := 81) (fn := 3) (by decide) (by decide) a.isLt hw
    refine ⟨hl, op_of ho ?_⟩
    refine sg_of hf ?_
    show (if fld w 7 6 == 0 && fld w 19 6 == 0 then Except.ok (Instr.sgSbar (sreg w 13)) else _) = _
    rw [zero_of z0, zero_of z1, sreg_of f0]
    rfl
  exact fun _ _ => key _ rfl

theorem sgWait (d : SReg) (a : SReg) (b : SReg) : Statement (.sgWait d a b) := by
  have key : ∀ w, w = 81 + 4 * 33554432 + d.val * 128 + a.val * 8192 + b.val * 524288 →
      w < 2 ^ 32 ∧ decodeOp w = .ok (.sgWait d a b) := by
    intro w hw
    obtain ⟨hl, ho, hf, f0, f1, f2⟩ := shape1 (op := 81) (fn := 4) (by decide) (by decide) d.isLt a.isLt b.isLt hw
    refine ⟨hl, op_of ho ?_⟩
    refine sg_of hf ?_
    show (Except.ok (Instr.sgWait (sreg w 7) (sreg w 13) (sreg w 19))) = _
    rw [sreg_of f0, sreg_of f1, sreg_of f2]
  exact fun _ _ => key _ rfl

theorem sgFreeze (a : SReg) : Statement (.sgFreeze a) := by
  have key : ∀ w, w = 81 + 5 * 33554432 + a.val * 8192 →
      w < 2 ^ 32 ∧ decodeOp w = .ok (.sgFreeze a) := by
    intro w hw
    obtain ⟨hl, ho, hf, z0, z1, f0⟩ := shape26 (op := 81) (fn := 5) (by decide) (by decide) a.isLt hw
    refine ⟨hl, op_of ho ?_⟩
    refine sg_of hf ?_
    show (if fld w 7 6 == 0 && fld w 19 6 == 0 then Except.ok (Instr.sgFreeze (sreg w 13)) else _) = _
    rw [zero_of z0, zero_of z1, sreg_of f0]
    rfl
  exact fun _ _ => key _ rfl

theorem sgThaw (a : SReg) : Statement (.sgThaw a) := by
  have key : ∀ w, w = 81 + 6 * 33554432 + a.val * 8192 →
      w < 2 ^ 32 ∧ decodeOp w = .ok (.sgThaw a) := by
    intro w hw
    obtain ⟨hl, ho, hf, z0, z1, f0⟩ := shape26 (op := 81) (fn := 6) (by decide) (by decide) a.isLt hw
    refine ⟨hl, op_of ho ?_⟩
    refine sg_of hf ?_
    show (if fld w 7 6 == 0 && fld w 19 6 == 0 then Except.ok (Instr.sgThaw (sreg w 13)) else _) = _
    rw [zero_of z0, zero_of z1, sreg_of f0]
    rfl
  exact fun _ _ => key _ rfl

theorem plAnd (pd : PReg) (pa : PReg) (pb : PReg) : Statement (.plAnd pd pa pb) := by
  have key : ∀ w, w = 82 + 0 * 65536 + pd.val * 128 + pa.val * 1024 + pb.val * 8192 →
      w < 2 ^ 32 ∧ decodeOp w = .ok (.plAnd pd pa pb) := by
    intro w hw
    obtain ⟨hl, ho, hf, z0, f0, f1, f2⟩ := shape44 (op := 82) (fn := 0) (by decide) (by decide) pd.isLt pa.isLt pb.isLt hw
    refine ⟨hl, op_of ho ?_⟩
    refine pl_of hf ?_
    show (if fld w 19 13 == 0 then Except.ok (Instr.plAnd (preg w 7) (preg w 10) (preg w 13)) else _) = _
    rw [zero_of z0, preg_of f0, preg_of f1, preg_of f2]
    rfl
  exact fun _ _ => key _ rfl

theorem plOr (pd : PReg) (pa : PReg) (pb : PReg) : Statement (.plOr pd pa pb) := by
  have key : ∀ w, w = 82 + 1 * 65536 + pd.val * 128 + pa.val * 1024 + pb.val * 8192 →
      w < 2 ^ 32 ∧ decodeOp w = .ok (.plOr pd pa pb) := by
    intro w hw
    obtain ⟨hl, ho, hf, z0, f0, f1, f2⟩ := shape44 (op := 82) (fn := 1) (by decide) (by decide) pd.isLt pa.isLt pb.isLt hw
    refine ⟨hl, op_of ho ?_⟩
    refine pl_of hf ?_
    show (if fld w 19 13 == 0 then Except.ok (Instr.plOr (preg w 7) (preg w 10) (preg w 13)) else _) = _
    rw [zero_of z0, preg_of f0, preg_of f1, preg_of f2]
    rfl
  exact fun _ _ => key _ rfl

theorem plXor (pd : PReg) (pa : PReg) (pb : PReg) : Statement (.plXor pd pa pb) := by
  have key : ∀ w, w = 82 + 2 * 65536 + pd.val * 128 + pa.val * 1024 + pb.val * 8192 →
      w < 2 ^ 32 ∧ decodeOp w = .ok (.plXor pd pa pb) := by
    intro w hw
    obtain ⟨hl, ho, hf, z0, f0, f1, f2⟩ := shape44 (op := 82) (fn := 2) (by decide) (by decide) pd.isLt pa.isLt pb.isLt hw
    refine ⟨hl, op_of ho ?_⟩
    refine pl_of hf ?_
    show (if fld w 19 13 == 0 then Except.ok (Instr.plXor (preg w 7) (preg w 10) (preg w 13)) else _) = _
    rw [zero_of z0, preg_of f0, preg_of f1, preg_of f2]
    rfl
  exact fun _ _ => key _ rfl

theorem plAndn (pd : PReg) (pa : PReg) (pb : PReg) : Statement (.plAndn pd pa pb) := by
  have key : ∀ w, w = 82 + 3 * 65536 + pd.val * 128 + pa.val * 1024 + pb.val * 8192 →
      w < 2 ^ 32 ∧ decodeOp w = .ok (.plAndn pd pa pb) := by
    intro w hw
    obtain ⟨hl, ho, hf, z0, f0, f1, f2⟩ := shape44 (op := 82) (fn := 3) (by decide) (by decide) pd.isLt pa.isLt pb.isLt hw
    refine ⟨hl, op_of ho ?_⟩
    refine pl_of hf ?_
    show (if fld w 19 13 == 0 then Except.ok (Instr.plAndn (preg w 7) (preg w 10) (preg w 13)) else _) = _
    rw [zero_of z0, preg_of f0, preg_of f1, preg_of f2]
    rfl
  exact fun _ _ => key _ rfl

theorem plNot (pd : PReg) (pa : PReg) : Statement (.plNot pd pa) := by
  have key : ∀ w, w = 82 + 4 * 65536 + pd.val * 128 + pa.val * 1024 →
      w < 2 ^ 32 ∧ decodeOp w = .ok (.plNot pd pa) := by
    intro w hw
    obtain ⟨hl, ho, hf, z0, z1, f0, f1⟩ := shape45 (op := 82) (fn := 4) (by decide) (by decide) pd.isLt pa.isLt hw
    refine ⟨hl, op_of ho ?_⟩
    refine pl_of hf ?_
    show (if fld w 13 3 == 0 && fld w 19 13 == 0 then Except.ok (Instr.plNot (preg w 7) (preg w 10)) else _) = _
    rw [zero_of z0, zero_of z1, preg_of f0, preg_of f1]
    rfl
  exact fun _ _ => key _ rfl

theorem plSet (pd : PReg) : Statement (.plSet pd) := by
  have key : ∀ w, w = 82 + 5 * 65536 + pd.val * 128 →
      w < 2 ^ 32 ∧ decodeOp w = .ok (.plSet pd) := by
    intro w hw
    obtain ⟨hl, ho, hf, z0, z1, f0⟩ := shape46 (op := 82) (fn := 5) (by decide) (by decide) pd.isLt hw
    refine ⟨hl, op_of ho ?_⟩
    refine pl_of hf ?_
    show (if fld w 10 6 == 0 && fld w 19 13 == 0 then Except.ok (Instr.plSet (preg w 7)) else _) = _
    rw [zero_of z0, zero_of z1, preg_of f0]
    rfl
  exact fun _ _ => key _ rfl

theorem plClr (pd : PReg) : Statement (.plClr pd) := by
  have key : ∀ w, w = 82 + 6 * 65536 + pd.val * 128 →
      w < 2 ^ 32 ∧ decodeOp w = .ok (.plClr pd) := by
    intro w hw
    obtain ⟨hl, ho, hf, z0, z1, f0⟩ := shape46 (op := 82) (fn := 6) (by decide) (by decide) pd.isLt hw
    refine ⟨hl, op_of ho ?_⟩
    refine pl_of hf ?_
    show (if fld w 10 6 == 0 && fld w 19 13 == 0 then Except.ok (Instr.plClr (preg w 7)) else _) = _
    rw [zero_of z0, zero_of z1, preg_of f0]
    rfl
  exact fun _ _ => key _ rfl

theorem pcmp (pd : PReg) (cond : PCond) (a : SReg) (b : SReg) : Statement (.pcmp pd cond a b) := by
  have key : ∀ w, w = 83 + pd.val * 128 + cond.code * 1024 + a.val * 8192 + b.val * 524288 →
      w < 2 ^ 32 ∧ decodeOp w = .ok (.pcmp pd cond a b) := by
    intro w hw
    obtain ⟨hl, ho, z0, f0, f1, f2, f3⟩ := shape47 (op := 83) (by decide) pd.isLt (pcond_lt cond) a.isLt b.isLt hw
    refine ⟨hl, op_of ho ?_⟩
    show (if fld w 25 7 == 0 then match PCond.ofCode? (fld w 10 3) with | some cond => Except.ok (Instr.pcmp (preg w 7) cond (sreg w 13) (sreg w 19)) | none => _ else _) = _
    rw [zero_of z0, preg_of f0, pcond_of f1, sreg_of f2, sreg_of f3]
    rfl
  exact fun _ _ => key _ rfl

theorem ghPush (d : SReg) (a : SReg) (b : SReg) (rel : Bool) : Statement (.ghPush d a b rel) := by
  have key : ∀ w, w = 96 + 0 * 33554432 + d.val * 128 + a.val * 8192 + b.val * 524288 + rel.toNat * 2147483648 →
      w < 2 ^ 32 ∧ decodeOp w = .ok (.ghPush d a b rel) := by
    intro w hw
    obtain ⟨hl, ho, hf, f0, f1, f2, f3⟩ := shape27 (op := 96) (fn := 0) (by decide) (by decide) d.isLt a.isLt b.isLt (toNat_lt rel) hw
    refine ⟨hl, op_of ho ?_⟩
    refine gh_of hf ?_
    show (Except.ok (Instr.ghPush (sreg w 7) (sreg w 13) (sreg w 19) (fld w 31 1 == 1))) = _
    rw [sreg_of f0, sreg_of f1, sreg_of f2, bool_of f3]
  exact fun _ _ => key _ rfl

theorem ghAdd (d : SReg) (a : SReg) (b : SReg) (rel : Bool) : Statement (.ghAdd d a b rel) := by
  have key : ∀ w, w = 96 + 1 * 33554432 + d.val * 128 + a.val * 8192 + b.val * 524288 + rel.toNat * 2147483648 →
      w < 2 ^ 32 ∧ decodeOp w = .ok (.ghAdd d a b rel) := by
    intro w hw
    obtain ⟨hl, ho, hf, f0, f1, f2, f3⟩ := shape27 (op := 96) (fn := 1) (by decide) (by decide) d.isLt a.isLt b.isLt (toNat_lt rel) hw
    refine ⟨hl, op_of ho ?_⟩
    refine gh_of hf ?_
    show (Except.ok (Instr.ghAdd (sreg w 7) (sreg w 13) (sreg w 19) (fld w 31 1 == 1))) = _
    rw [sreg_of f0, sreg_of f1, sreg_of f2, bool_of f3]
  exact fun _ _ => key _ rfl

theorem ghSet (d : SReg) (a : SReg) (b : SReg) (rel : Bool) : Statement (.ghSet d a b rel) := by
  have key : ∀ w, w = 96 + 2 * 33554432 + d.val * 128 + a.val * 8192 + b.val * 524288 + rel.toNat * 2147483648 →
      w < 2 ^ 32 ∧ decodeOp w = .ok (.ghSet d a b rel) := by
    intro w hw
    obtain ⟨hl, ho, hf, f0, f1, f2, f3⟩ := shape27 (op := 96) (fn := 2) (by decide) (by decide) d.isLt a.isLt b.isLt (toNat_lt rel) hw
    refine ⟨hl, op_of ho ?_⟩
    refine gh_of hf ?_
    show (Except.ok (Instr.ghSet (sreg w 7) (sreg w 13) (sreg w 19) (fld w 31 1 == 1))) = _
    rw [sreg_of f0, sreg_of f1, sreg_of f2, bool_of f3]
  exact fun _ _ => key _ rfl

theorem ghDone (rel : Bool) : Statement (.ghDone rel) := by
  have key : ∀ w, w = 96 + 3 * 33554432 + rel.toNat * 2147483648 →
      w < 2 ^ 32 ∧ decodeOp w = .ok (.ghDone rel) := by
    intro w hw
    obtain ⟨hl, ho, hf, z0, f0⟩ := shape48 (op := 96) (fn := 3) (by decide) (by decide) (toNat_lt rel) hw
    refine ⟨hl, op_of ho ?_⟩
    refine gh_of hf ?_
    show (if fld w 7 18 == 0 then Except.ok (Instr.ghDone (fld w 31 1 == 1)) else _) = _
    rw [zero_of z0, bool_of f0]
    rfl
  exact fun _ _ => key _ rfl

theorem ghSum (d : SReg) (a : SReg) : Statement (.ghSum d a) := by
  have key : ∀ w, w = 96 + 4 * 33554432 + d.val * 128 + a.val * 8192 →
      w < 2 ^ 32 ∧ decodeOp w = .ok (.ghSum d a) := by
    intro w hw
    obtain ⟨hl, ho, hf, z0, z1, f0, f1⟩ := shape49 (op := 96) (fn := 4) (by decide) (by decide) d.isLt a.isLt hw
    refine ⟨hl, op_of ho ?_⟩
    refine gh_of hf ?_
    show (if fld w 19 6 == 0 && fld w 31 1 == 0 then Except.ok (Instr.ghSum (sreg w 7) (sreg w 13)) else _) = _
    rw [zero_of z0, zero_of z1, sreg_of f0, sreg_of f1]
    rfl
  exact fun _ _ => key _ rfl

theorem ghCfg (a : SReg) (b : SReg) : Statement (.ghCfg a b) := by
  have key : ∀ w, w = 96 + 5 * 33554432 + a.val * 8192 + b.val * 524288 →
      w < 2 ^ 32 ∧ decodeOp w = .ok (.ghCfg a b) := by
    intro w hw
    obtain ⟨hl, ho, hf, z0, z1, f0, f1⟩ := shape50 (op := 96) (fn := 5) (by decide) (by decide) a.isLt b.isLt hw
    refine ⟨hl, op_of ho ?_⟩
    refine gh_of hf ?_
    show (if fld w 7 6 == 0 && fld w 31 1 == 0 then Except.ok (Instr.ghCfg (sreg w 13) (sreg w 19)) else _) = _
    rw [zero_of z0, zero_of z1, sreg_of f0, sreg_of f1]
    rfl
  exact fun _ _ => key _ rfl

theorem ghDump (d : SReg) (a : SReg) (b : SReg) : Statement (.ghDump d a b) := by
  have key : ∀ w, w = 96 + 6 * 33554432 + d.val * 128 + a.val * 8192 + b.val * 524288 →
      w < 2 ^ 32 ∧ decodeOp w = .ok (.ghDump d a b) := by
    intro w hw
    obtain ⟨hl, ho, hf, z0, f0, f1, f2⟩ := shape51 (op := 96) (fn := 6) (by decide) (by decide) d.isLt a.isLt b.isLt hw
    refine ⟨hl, op_of ho ?_⟩
    refine gh_of hf ?_
    show (if fld w 31 1 == 0 then Except.ok (Instr.ghDump (sreg w 7) (sreg w 13) (sreg w 19)) else _) = _
    rw [zero_of z0, sreg_of f0, sreg_of f1, sreg_of f2]
    rfl
  exact fun _ _ => key _ rfl

theorem tkOpen (d : SReg) (a : SReg) : Statement (.tkOpen d a) := by
  have key : ∀ w, w = 97 + 0 * 33554432 + d.val * 128 + a.val * 8192 →
      w < 2 ^ 32 ∧ decodeOp w = .ok (.tkOpen d a) := by
    intro w hw
    obtain ⟨hl, ho, hf, z0, f0, f1⟩ := shape2 (op := 97) (fn := 0) (by decide) (by decide) d.isLt a.isLt hw
    refine ⟨hl, op_of ho ?_⟩
    refine tk_of hf ?_
    show (if fld w 19 6 == 0 then Except.ok (Instr.tkOpen (sreg w 7) (sreg w 13)) else _) = _
    rw [zero_of z0, sreg_of f0, sreg_of f1]
    rfl
  exact fun _ _ => key _ rfl

theorem tkRelease (a : SReg) : Statement (.tkRelease a) := by
  have key : ∀ w, w = 97 + 1 * 33554432 + a.val * 8192 →
      w < 2 ^ 32 ∧ decodeOp w = .ok (.tkRelease a) := by
    intro w hw
    obtain ⟨hl, ho, hf, z0, z1, f0⟩ := shape26 (op := 97) (fn := 1) (by decide) (by decide) a.isLt hw
    refine ⟨hl, op_of ho ?_⟩
    refine tk_of hf ?_
    show (if fld w 7 6 == 0 && fld w 19 6 == 0 then Except.ok (Instr.tkRelease (sreg w 13)) else _) = _
    rw [zero_of z0, zero_of z1, sreg_of f0]
    rfl
  exact fun _ _ => key _ rfl

theorem tkArm (a : SReg) (b : SReg) : Statement (.tkArm a b) := by
  have key : ∀ w, w = 97 + 2 * 33554432 + a.val * 8192 + b.val * 524288 →
      w < 2 ^ 32 ∧ decodeOp w = .ok (.tkArm a b) := by
    intro w hw
    obtain ⟨hl, ho, hf, z0, f0, f1⟩ := shape19 (op := 97) (fn := 2) (by decide) (by decide) a.isLt b.isLt hw
    refine ⟨hl, op_of ho ?_⟩
    refine tk_of hf ?_
    show (if fld w 7 6 == 0 then Except.ok (Instr.tkArm (sreg w 13) (sreg w 19)) else _) = _
    rw [zero_of z0, sreg_of f0, sreg_of f1]
    rfl
  exact fun _ _ => key _ rfl

theorem tkDisarm (a : SReg) : Statement (.tkDisarm a) := by
  have key : ∀ w, w = 97 + 3 * 33554432 + a.val * 8192 →
      w < 2 ^ 32 ∧ decodeOp w = .ok (.tkDisarm a) := by
    intro w hw
    obtain ⟨hl, ho, hf, z0, z1, f0⟩ := shape26 (op := 97) (fn := 3) (by decide) (by decide) a.isLt hw
    refine ⟨hl, op_of ho ?_⟩
    refine tk_of hf ?_
    show (if fld w 7 6 == 0 && fld w 19 6 == 0 then Except.ok (Instr.tkDisarm (sreg w 13)) else _) = _
    rw [zero_of z0, zero_of z1, sreg_of f0]
    rfl
  exact fun _ _ => key _ rfl

theorem tkBudget (a : SReg) (b : SReg) : Statement (.tkBudget a b) := by
  have key : ∀ w, w = 97 + 4 * 33554432 + a.val * 8192 + b.val * 524288 →
      w < 2 ^ 32 ∧ decodeOp w = .ok (.tkBudget a b) := by
    intro w hw
    obtain ⟨hl, ho, hf, z0, f0, f1⟩ := shape19 (op := 97) (fn := 4) (by decide) (by decide) a.isLt b.isLt hw
    refine ⟨hl, op_of ho ?_⟩
    refine tk_of hf ?_
    show (if fld w 7 6 == 0 then Except.ok (Instr.tkBudget (sreg w 13) (sreg w 19)) else _) = _
    rw [zero_of z0, sreg_of f0, sreg_of f1]
    rfl
  exact fun _ _ => key _ rfl

theorem tkCommit (d : SReg) (a : SReg) (vb : Fin 64) : Statement (.tkCommit d a vb) := by
  have key : ∀ w, w = 97 + 5 * 33554432 + d.val * 128 + a.val * 8192 + vb.val * 524288 →
      w < 2 ^ 32 ∧ decodeOp w = .ok (.tkCommit d a vb) := by
    intro w hw
    obtain ⟨hl, ho, hf, f0, f1, f2⟩ := shape1 (op := 97) (fn := 5) (by decide) (by decide) d.isLt a.isLt vb.isLt hw
    refine ⟨hl, op_of ho ?_⟩
    refine tk_of hf ?_
    show (Except.ok (Instr.tkCommit (sreg w 7) (sreg w 13) (Fin.ofNat 64 (w / 2 ^ 19)))) = _
    rw [sreg_of f0, sreg_of f1, fin_of (n := 64) f2]
  exact fun _ _ => key _ rfl

theorem tkPeek (d : SReg) (a : SReg) (vb : Fin 64) : Statement (.tkPeek d a vb) := by
  have key : ∀ w, w = 97 + 6 * 33554432 + d.val * 128 + a.val * 8192 + vb.val * 524288 →
      w < 2 ^ 32 ∧ decodeOp w = .ok (.tkPeek d a vb) := by
    intro w hw
    obtain ⟨hl, ho, hf, f0, f1, f2⟩ := shape1 (op := 97) (fn := 6) (by decide) (by decide) d.isLt a.isLt vb.isLt hw
    refine ⟨hl, op_of ho ?_⟩
    refine tk_of hf ?_
    show (Except.ok (Instr.tkPeek (sreg w 7) (sreg w 13) (Fin.ofNat 64 (w / 2 ^ 19)))) = _
    rw [sreg_of f0, sreg_of f1, fin_of (n := 64) f2]
  exact fun _ _ => key _ rfl

theorem tkRead (d : SReg) (a : SReg) (b : SReg) : Statement (.tkRead d a b) := by
  have key : ∀ w, w = 97 + 7 * 33554432 + d.val * 128 + a.val * 8192 + b.val * 524288 →
      w < 2 ^ 32 ∧ decodeOp w = .ok (.tkRead d a b) := by
    intro w hw
    obtain ⟨hl, ho, hf, f0, f1, f2⟩ := shape1 (op := 97) (fn := 7) (by decide) (by decide) d.isLt a.isLt b.isLt hw
    refine ⟨hl, op_of ho ?_⟩
    refine tk_of hf ?_
    show (Except.ok (Instr.tkRead (sreg w 7) (sreg w 13) (sreg w 19))) = _
    rw [sreg_of f0, sreg_of f1, sreg_of f2]
  exact fun _ _ => key _ rfl

theorem sysr (d : SReg) (reg : BitVec 12) : Statement (.sysr d reg) := by
  have key : ∀ w, w = 112 + d.val * 128 + reg.toNat * 524288 →
      w < 2 ^ 32 ∧ decodeOp w = .ok (.sysr d reg) := by
    intro w hw
    obtain ⟨hl, ho, z0, z1, f0, f1⟩ := shape52 (op := 112) (by decide) d.isLt reg.isLt hw
    refine ⟨hl, op_of ho ?_⟩
    show (if fld w 13 6 == 0 && fld w 31 1 == 0 then Except.ok (Instr.sysr (sreg w 7) (BitVec.ofNat 12 (w / 2 ^ 19))) else _) = _
    rw [zero_of z0, zero_of z1, sreg_of f0, bv_of f1]
    rfl
  exact fun _ _ => key _ rfl

theorem sysw (a : SReg) (reg : BitVec 12) : Statement (.sysw a reg) := by
  have key : ∀ w, w = 113 + a.val * 8192 + reg.toNat * 524288 →
      w < 2 ^ 32 ∧ decodeOp w = .ok (.sysw a reg) := by
    intro w hw
    obtain ⟨hl, ho, z0, z1, f0, f1⟩ := shape53 (op := 113) (by decide) a.isLt reg.isLt hw
    refine ⟨hl, op_of ho ?_⟩
    show (if fld w 7 6 == 0 && fld w 31 1 == 0 then Except.ok (Instr.sysw (sreg w 13) (BitVec.ofNat 12 (w / 2 ^ 19))) else _) = _
    rw [zero_of z0, zero_of z1, sreg_of f0, bv_of f1]
    rfl
  exact fun _ _ => key _ rfl

theorem sysx (d : SReg) (a : SReg) (reg : BitVec 12) : Statement (.sysx d a reg) := by
  have key : ∀ w, w = 114 + d.val * 128 + a.val * 8192 + reg.toNat * 524288 →
      w < 2 ^ 32 ∧ decodeOp w = .ok (.sysx d a reg) := by
    intro w hw
    obtain ⟨hl, ho, z0, f0, f1, f2⟩ := shape54 (op := 114) (by decide) d.isLt a.isLt reg.isLt hw
    refine ⟨hl, op_of ho ?_⟩
    show (if fld w 31 1 == 0 then Except.ok (Instr.sysx (sreg w 7) (sreg w 13) (BitVec.ofNat 12 (w / 2 ^ 19))) else _) = _
    rw [zero_of z0, sreg_of f0, sreg_of f1, bv_of f2]
    rfl
  exact fun _ _ => key _ rfl

theorem xlInvVa (a : SReg) : Statement (.xlInvVa a) := by
  have key : ∀ w, w = 115 + 0 * 33554432 + a.val * 8192 →
      w < 2 ^ 32 ∧ decodeOp w = .ok (.xlInvVa a) := by
    intro w hw
    obtain ⟨hl, ho, hf, z0, z1, f0⟩ := shape26 (op := 115) (fn := 0) (by decide) (by decide) a.isLt hw
    refine ⟨hl, op_of ho ?_⟩
    refine xl_of hf ?_
    show (if fld w 7 6 == 0 && fld w 19 6 == 0 then Except.ok (Instr.xlInvVa (sreg w 13)) else _) = _
    rw [zero_of z0, zero_of z1, sreg_of f0]
    rfl
  exact fun _ _ => key _ rfl

theorem xlInvCtx : Statement (.xlInvCtx) := by
  have key : ∀ w, w = 115 + 1 * 33554432 →
      w < 2 ^ 32 ∧ decodeOp w = .ok (.xlInvCtx) := by
    intro w hw
    obtain ⟨hl, ho, hf, z0⟩ := shape12 (op := 115) (fn := 1) (by decide) (by decide) hw
    refine ⟨hl, op_of ho ?_⟩
    refine xl_of hf ?_
    show (if fld w 7 18 == 0 then Except.ok (Instr.xlInvCtx) else _) = _
    rw [zero_of z0]
    rfl
  exact fun _ _ => key _ rfl

theorem xlSync : Statement (.xlSync) := by
  have key : ∀ w, w = 115 + 2 * 33554432 →
      w < 2 ^ 32 ∧ decodeOp w = .ok (.xlSync) := by
    intro w hw
    obtain ⟨hl, ho, hf, z0⟩ := shape12 (op := 115) (fn := 2) (by decide) (by decide) hw
    refine ⟨hl, op_of ho ?_⟩
    refine xl_of hf ?_
    show (if fld w 7 18 == 0 then Except.ok (Instr.xlSync) else _) = _
    rw [zero_of z0]
    rfl
  exact fun _ _ => key _ rfl

theorem sigNop (x0 : Nat) (x1 : Nat) (x2 : Nat) (x3 : Nat) : Statement (.sigNop x0 x1 x2 x3) := fun _ h => nomatch h

theorem sigMov (x0 : Nat) (x1 : Nat) (x2 : Nat) (x3 : Nat) : Statement (.sigMov x0 x1 x2 x3) := fun _ h => nomatch h

theorem sigDup (x0 : Nat) (x1 : Nat) (x2 : Nat) (x3 : Nat) : Statement (.sigDup x0 x1 x2 x3) := fun _ h => nomatch h

theorem sigEmit (x0 : Nat) (x1 : Nat) (x2 : Nat) (x3 : Nat) : Statement (.sigEmit x0 x1 x2 x3) := fun _ h => nomatch h

theorem sigAdd (x0 : Nat) (x1 : Nat) (x2 : Nat) (x3 : Nat) : Statement (.sigAdd x0 x1 x2 x3) := fun _ h => nomatch h

theorem sigSub (x0 : Nat) (x1 : Nat) (x2 : Nat) (x3 : Nat) : Statement (.sigSub x0 x1 x2 x3) := fun _ h => nomatch h

theorem sigMul (x0 : Nat) (x1 : Nat) (x2 : Nat) (x3 : Nat) : Statement (.sigMul x0 x1 x2 x3) := fun _ h => nomatch h

theorem sigFma (x0 : Nat) (x1 : Nat) (x2 : Nat) (x3 : Nat) : Statement (.sigFma x0 x1 x2 x3) := fun _ h => nomatch h

theorem sigMin (x0 : Nat) (x1 : Nat) (x2 : Nat) (x3 : Nat) : Statement (.sigMin x0 x1 x2 x3) := fun _ h => nomatch h

theorem sigMax (x0 : Nat) (x1 : Nat) (x2 : Nat) (x3 : Nat) : Statement (.sigMax x0 x1 x2 x3) := fun _ h => nomatch h

theorem sigAnd (x0 : Nat) (x1 : Nat) (x2 : Nat) (x3 : Nat) : Statement (.sigAnd x0 x1 x2 x3) := fun _ h => nomatch h

theorem sigOr (x0 : Nat) (x1 : Nat) (x2 : Nat) (x3 : Nat) : Statement (.sigOr x0 x1 x2 x3) := fun _ h => nomatch h

theorem sigXor (x0 : Nat) (x1 : Nat) (x2 : Nat) (x3 : Nat) : Statement (.sigXor x0 x1 x2 x3) := fun _ h => nomatch h

theorem sigShl (x0 : Nat) (x1 : Nat) (x2 : Nat) (x3 : Nat) : Statement (.sigShl x0 x1 x2 x3) := fun _ h => nomatch h

theorem sigShr (x0 : Nat) (x1 : Nat) (x2 : Nat) (x3 : Nat) : Statement (.sigShr x0 x1 x2 x3) := fun _ h => nomatch h

theorem sigSha (x0 : Nat) (x1 : Nat) (x2 : Nat) (x3 : Nat) : Statement (.sigSha x0 x1 x2 x3) := fun _ h => nomatch h

theorem sigPcmp (x0 : Nat) (x1 : Nat) (x2 : Nat) (x3 : Nat) : Statement (.sigPcmp x0 x1 x2 x3) := fun _ h => nomatch h

theorem sigSel (x0 : Nat) (x1 : Nat) (x2 : Nat) (x3 : Nat) : Statement (.sigSel x0 x1 x2 x3) := fun _ h => nomatch h

theorem sigSteer (x0 : Nat) (x1 : Nat) (x2 : Nat) (x3 : Nat) : Statement (.sigSteer x0 x1 x2 x3) := fun _ h => nomatch h

theorem sigGate (x0 : Nat) (x1 : Nat) (x2 : Nat) (x3 : Nat) : Statement (.sigGate x0 x1 x2 x3) := fun _ h => nomatch h

theorem sigMerge (x0 : Nat) (x1 : Nat) (x2 : Nat) (x3 : Nat) : Statement (.sigMerge x0 x1 x2 x3) := fun _ h => nomatch h

theorem sigIter (x0 : Nat) (x1 : Nat) (x2 : Nat) (x3 : Nat) : Statement (.sigIter x0 x1 x2 x3) := fun _ h => nomatch h

theorem sigAcc (x0 : Nat) (x1 : Nat) (x2 : Nat) (x3 : Nat) : Statement (.sigAcc x0 x1 x2 x3) := fun _ h => nomatch h

theorem sigNzsend (x0 : Nat) (x1 : Nat) (x2 : Nat) (x3 : Nat) : Statement (.sigNzsend x0 x1 x2 x3) := fun _ h => nomatch h

theorem sigSink (x0 : Nat) (x1 : Nat) (x2 : Nat) (x3 : Nat) : Statement (.sigSink x0 x1 x2 x3) := fun _ h => nomatch h

theorem sigCvt (x0 : Nat) (x1 : Nat) (x2 : Nat) (x3 : Nat) : Statement (.sigCvt x0 x1 x2 x3) := fun _ h => nomatch h

theorem sigLd (x0 : Nat) (x1 : Nat) (x2 : Nat) (x3 : Nat) : Statement (.sigLd x0 x1 x2 x3) := fun _ h => nomatch h

theorem sigSt (x0 : Nat) (x1 : Nat) (x2 : Nat) (x3 : Nat) : Statement (.sigSt x0 x1 x2 x3) := fun _ h => nomatch h

theorem sigAtAdd (x0 : Nat) (x1 : Nat) (x2 : Nat) (x3 : Nat) : Statement (.sigAtAdd x0 x1 x2 x3) := fun _ h => nomatch h

theorem sigAtMin (x0 : Nat) (x1 : Nat) (x2 : Nat) (x3 : Nat) : Statement (.sigAtMin x0 x1 x2 x3) := fun _ h => nomatch h

theorem sigAtMax (x0 : Nat) (x1 : Nat) (x2 : Nat) (x3 : Nat) : Statement (.sigAtMax x0 x1 x2 x3) := fun _ h => nomatch h

theorem sigAtOr (x0 : Nat) (x1 : Nat) (x2 : Nat) (x3 : Nat) : Statement (.sigAtOr x0 x1 x2 x3) := fun _ h => nomatch h

theorem sigAtAnd (x0 : Nat) (x1 : Nat) (x2 : Nat) (x3 : Nat) : Statement (.sigAtAnd x0 x1 x2 x3) := fun _ h => nomatch h

theorem sigAtXor (x0 : Nat) (x1 : Nat) (x2 : Nat) (x3 : Nat) : Statement (.sigAtXor x0 x1 x2 x3) := fun _ h => nomatch h

theorem sigAtSwap (x0 : Nat) (x1 : Nat) (x2 : Nat) (x3 : Nat) : Statement (.sigAtSwap x0 x1 x2 x3) := fun _ h => nomatch h

theorem sigAtCas (x0 : Nat) (x1 : Nat) (x2 : Nat) (x3 : Nat) : Statement (.sigAtCas x0 x1 x2 x3) := fun _ h => nomatch h

theorem sigAtTas (x0 : Nat) (x1 : Nat) (x2 : Nat) (x3 : Nat) : Statement (.sigAtTas x0 x1 x2 x3) := fun _ h => nomatch h

theorem sigCall (x0 : Nat) (x1 : Nat) (x2 : Nat) (x3 : Nat) : Statement (.sigCall x0 x1 x2 x3) := fun _ h => nomatch h

theorem sigRet (x0 : Nat) (x1 : Nat) (x2 : Nat) (x3 : Nat) : Statement (.sigRet x0 x1 x2 x3) := fun _ h => nomatch h

theorem sigRed (x0 : Nat) (x1 : Nat) (x2 : Nat) (x3 : Nat) : Statement (.sigRed x0 x1 x2 x3) := fun _ h => nomatch h

theorem sigDiv (x0 : Nat) (x1 : Nat) (x2 : Nat) (x3 : Nat) : Statement (.sigDiv x0 x1 x2 x3) := fun _ h => nomatch h

theorem sigSqrt (x0 : Nat) (x1 : Nat) (x2 : Nat) (x3 : Nat) : Statement (.sigSqrt x0 x1 x2 x3) := fun _ h => nomatch h

theorem nBeatRuleBeat (x0 : Nat) (x1 : Nat) (x2 : Nat) (x3 : Bool) : Statement (.nBeatRuleBeat x0 x1 x2 x3) := fun _ h => nomatch h

theorem lqpush (x0 : Nat) (x1 : Nat) (x2 : Word) : Statement (.lqpush x0 x1 x2) := fun _ h => nomatch h

theorem lqctlAbort (x0 : Nat) (x1 : Nat) : Statement (.lqctlAbort x0 x1) := fun _ h => nomatch h

theorem lqstatClear (x0 : Nat) (x1 : Nat) (x2 : Word) : Statement (.lqstatClear x0 x1 x2) := fun _ h => nomatch h

theorem registerWrite (x0 : PortAddr) (x1 : Word) : Statement (.registerWrite x0 x1) := fun _ h => nomatch h

theorem bankSwitchDone (x0 : Nat) : Statement (.bankSwitchDone x0) := fun _ h => nomatch h

theorem rampRateUpdate (x0 : Nat) (x1 : Nat) : Statement (.rampRateUpdate x0 x1) := fun _ h => nomatch h

theorem launchHead (x0 : Nat) (x1 : Nat) : Statement (.launchHead x0 x1) := fun _ h => nomatch h

theorem launchWaitSatisfied (x0 : Nat) (x1 : Nat) : Statement (.launchWaitSatisfied x0 x1) := fun _ h => nomatch h

theorem kind3WaitPoll (x0 : Nat) (x1 : Nat) : Statement (.kind3WaitPoll x0 x1) := fun _ h => nomatch h

theorem heapBind (x0 : Nat) : Statement (.heapBind x0) := fun _ h => nomatch h

theorem groupStart (x0 : Nat) (x1 : Nat) : Statement (.groupStart x0 x1) := fun _ h => nomatch h

theorem widStart (x0 : Nat) (x1 : Nat) : Statement (.widStart x0 x1) := fun _ h => nomatch h

theorem handlerStart (x0 : Nat) : Statement (.handlerStart x0) := fun _ h => nomatch h

theorem callbackTaskStart (x0 : Nat) : Statement (.callbackTaskStart x0) := fun _ h => nomatch h

theorem heapDispatch (x0 : Nat) : Statement (.heapDispatch x0) := fun _ h => nomatch h

theorem launchComplete (x0 : Nat) : Statement (.launchComplete x0) := fun _ h => nomatch h

theorem packetArrival (x0 : Nat) : Statement (.packetArrival x0) := fun _ h => nomatch h

theorem packetDeferredAccept (x0 : Nat) (x1 : Nat) : Statement (.packetDeferredAccept x0 x1) := fun _ h => nomatch h

theorem fifoPopComplete (x0 : Nat) : Statement (.fifoPopComplete x0) := fun _ h => nomatch h

theorem fifoPushComplete (x0 : Nat) : Statement (.fifoPushComplete x0) := fun _ h => nomatch h

theorem tileReady (x0 : Nat) (x1 : Nat) : Statement (.tileReady x0 x1) := fun _ h => nomatch h

theorem tileEmpty (x0 : Nat) (x1 : Nat) : Statement (.tileEmpty x0 x1) := fun _ h => nomatch h

theorem waitvWake (x0 : Nat) : Statement (.waitvWake x0) := fun _ h => nomatch h

theorem waitlimitExpiry (x0 : Nat) : Statement (.waitlimitExpiry x0) := fun _ h => nomatch h

theorem waiteWake (x0 : Nat) : Statement (.waiteWake x0) := fun _ h => nomatch h

theorem barWaitReturn (x0 : Nat) : Statement (.barWaitReturn x0) := fun _ h => nomatch h

theorem copy (x0 : Nat) : Statement (.copy x0) := fun _ h => nomatch h

theorem fill (x0 : Nat) : Statement (.fill x0) := fun _ h => nomatch h

theorem gather (x0 : Nat) : Statement (.gather x0) := fun _ h => nomatch h

theorem scatter (x0 : Nat) : Statement (.scatter x0) := fun _ h => nomatch h

theorem collate (x0 : Nat) : Statement (.collate x0) := fun _ h => nomatch h

theorem allred (x0 : Nat) (x1 : List Partial) : Statement (.allred x0 x1) := fun _ h => nomatch h

theorem imageLoadComplete (x0 : Nat) (x1 : Nat) : Statement (.imageLoadComplete x0 x1) := fun _ h => nomatch h

theorem commitBroadcast (x0 : Nat) (x1 : Nat) : Statement (.commitBroadcast x0 x1) := fun _ h => nomatch h

theorem invocationStart (x0 : Nat) (x1 : Nat) : Statement (.invocationStart x0 x1) := fun _ h => nomatch h

theorem loaderReadResponse (x0 : Nat) (x1 : Nat) (x2 : Nat) : Statement (.loaderReadResponse x0 x1 x2) := fun _ h => nomatch h

theorem storerAccept (x0 : Nat) (x1 : Nat) (x2 : Nat) : Statement (.storerAccept x0 x1 x2) := fun _ h => nomatch h

theorem gutterDrop (x0 : Nat) (x1 : Nat) (x2 : Nat) (x3 : Nat) : Statement (.gutterDrop x0 x1 x2 x3) := fun _ h => nomatch h

theorem invocationEnd (x0 : Nat) (x1 : Nat) : Statement (.invocationEnd x0 x1) := fun _ h => nomatch h

theorem drainBoundExpiry (x0 : Nat) (x1 : Nat) : Statement (.drainBoundExpiry x0 x1) := fun _ h => nomatch h

theorem crossingCall (x0 : Nat) (x1 : Nat) : Statement (.crossingCall x0 x1) := fun _ h => nomatch h

theorem activationEnqueue (x0 : Nat) (x1 : Nat) : Statement (.activationEnqueue x0 x1) := fun _ h => nomatch h

theorem callbackPacketSend (x0 : Nat) (x1 : Nat) : Statement (.callbackPacketSend x0 x1) := fun _ h => nomatch h

theorem returnDelivery (x0 : Nat) : Statement (.returnDelivery x0) := fun _ h => nomatch h

theorem jointCfg (x0 : Nat) (x1 : Nat) : Statement (.jointCfg x0 x1) := fun _ h => nomatch h

theorem jointZero (x0 : Nat) (x1 : Nat) : Statement (.jointZero x0 x1) := fun _ h => nomatch h

theorem jointMma (x0 : Nat) (x1 : Nat) : Statement (.jointMma x0 x1) := fun _ h => nomatch h

theorem jointDrain (x0 : Nat) (x1 : Nat) : Statement (.jointDrain x0 x1) := fun _ h => nomatch h

theorem terminationWave (x0 : Nat) : Statement (.terminationWave x0) := fun _ h => nomatch h

theorem heapAbortUnbind (x0 : Nat) : Statement (.heapAbortUnbind x0) := fun _ h => nomatch h

theorem gets (x0 : Nat) (x1 : Nat) (x2 : Nat) : Statement (.gets x0 x1 x2) := fun _ h => nomatch h

theorem getm (x0 : Nat) (x1 : Nat) (x2 : Nat) : Statement (.getm x0 x1 x2) := fun _ h => nomatch h

theorem upgrade (x0 : Nat) (x1 : Nat) (x2 : Nat) : Statement (.upgrade x0 x1 x2) := fun _ h => nomatch h

theorem putm (x0 : Nat) (x1 : Nat) : Statement (.putm x0 x1) := fun _ h => nomatch h

theorem puto (x0 : Nat) (x1 : Nat) : Statement (.puto x0 x1) := fun _ h => nomatch h

theorem fwdGets (x0 : Nat) (x1 : Nat) : Statement (.fwdGets x0 x1) := fun _ h => nomatch h

theorem fwdGetm (x0 : Nat) (x1 : Nat) : Statement (.fwdGetm x0 x1) := fun _ h => nomatch h

theorem inv (x0 : Nat) (x1 : Nat) : Statement (.inv x0 x1) := fun _ h => nomatch h

theorem l2Eviction (x0 : Nat) (x1 : Nat) : Statement (.l2Eviction x0 x1) := fun _ h => nomatch h

theorem homeTagEviction (x0 : Nat) : Statement (.homeTagEviction x0) := fun _ h => nomatch h

theorem snpdata (x0 : Nat) : Statement (.snpdata x0) := fun _ h => nomatch h

theorem snpinv (x0 : Nat) : Statement (.snpinv x0) := fun _ h => nomatch h

theorem snpcur (x0 : Nat) : Statement (.snpcur x0) := fun _ h => nomatch h

theorem hostCxlMemAccess (x0 : PortAddr) (x1 : Option (List Byte)) : Statement (.hostCxlMemAccess x0 x1) := fun _ h => nomatch h

theorem peerAccess (x0 : Nat) (x1 : Nat) (x2 : Option (List Byte)) : Statement (.peerAccess x0 x1 x2) := fun _ h => nomatch h

theorem kind4StoreFailure (x0 : Nat) (x1 : Nat) : Statement (.kind4StoreFailure x0 x1) := fun _ h => nomatch h

theorem poisonDetect (x0 : Nat) (x1 : Nat) : Statement (.poisonDetect x0 x1) := fun _ h => nomatch h

theorem zoreyLinkDown (x0 : Nat) : Statement (.zoreyLinkDown x0) := fun _ h => nomatch h

theorem hostPortTrainingLoss (x0 : Nat) : Statement (.hostPortTrainingLoss x0) := fun _ h => nomatch h

theorem deviceStart (x0 : StartOutcome) : Statement (.deviceStart x0) := fun _ h => nomatch h

theorem createContext (x0 : CreateReq) : Statement (.createContext x0) := fun _ h => nomatch h

theorem destroyContext : Statement (.destroyContext) := fun _ h => nomatch h

theorem switchOut : Statement (.switchOut) := fun _ h => nomatch h

theorem switchIn (x0 : List (Nat × Nat)) (x1 : List (Nat × Nat)) : Statement (.switchIn x0 x1) := fun _ h => nomatch h

theorem supervisorBoundExpiry (x0 : Nat) : Statement (.supervisorBoundExpiry x0) := fun _ h => nomatch h

theorem preemptionBoundExpiry (x0 : Nat) (x1 : Nat) : Statement (.preemptionBoundExpiry x0 x1) := fun _ h => nomatch h

theorem setRegionTable (x0 : RegionReq) : Statement (.setRegionTable x0) := fun _ h => nomatch h

theorem attest : Statement (.attest) := fun _ h => nomatch h

theorem repair (x0 : RepairReq) : Statement (.repair x0) := fun _ h => nomatch h

theorem updateMainFirmware (x0 : List Byte) (x1 : Seal) : Statement (.updateMainFirmware x0 x1) := fun _ h => nomatch h

theorem unknownCommand : Statement (.unknownCommand) := fun _ h => nomatch h

theorem debugHaltThread (x0 : Nat) : Statement (.debugHaltThread x0) := fun _ h => nomatch h

theorem debugResumeThread (x0 : Nat) (x1 : Word) : Statement (.debugResumeThread x0 x1) := fun _ h => nomatch h

theorem debugReadThread (x0 : Nat) (x1 : Nat) : Statement (.debugReadThread x0 x1) := fun _ h => nomatch h

theorem debugWriteThread (x0 : Nat) (x1 : Nat) (x2 : Word) : Statement (.debugWriteThread x0 x1 x2) := fun _ h => nomatch h

theorem debugWriteStepState (x0 : Nat) (x1 : Word) (x2 : List Word) : Statement (.debugWriteStepState x0 x1 x2) := fun _ h => nomatch h

theorem debugFreezeRegion (x0 : Nat) (x1 : Nat) : Statement (.debugFreezeRegion x0 x1) := fun _ h => nomatch h

theorem debugStepRegion (x0 : Nat) (x1 : Nat) : Statement (.debugStepRegion x0 x1) := fun _ h => nomatch h

theorem debugThawRegion (x0 : Nat) (x1 : Nat) : Statement (.debugThawRegion x0 x1) := fun _ h => nomatch h

theorem debugReadRegion (x0 : Nat) (x1 : Nat) (x2 : Nat) : Statement (.debugReadRegion x0 x1 x2) := fun _ h => nomatch h

theorem debugWriteRegion (x0 : Nat) (x1 : Nat) (x2 : Nat) (x3 : Word) : Statement (.debugWriteRegion x0 x1 x2 x3) := fun _ h => nomatch h

theorem illegalInstruction : Statement (.illegalInstruction) := fun _ h => nomatch h

theorem instructionFetchFault : Statement (.instructionFetchFault) := fun _ h => nomatch h

theorem tokenHop (x0 : Nat) (x1 : Nat) (x2 : Nat) (x3 : Nat) (x4 : Nat) : Statement (.tokenHop x0 x1 x2 x3 x4) := fun _ h => nomatch h

theorem qflagsUpdate (x0 : Nat) (x1 : Nat) : Statement (.qflagsUpdate x0 x1) := fun _ h => nomatch h

theorem powerFail (x0 : Nat) (x1 : Nat) : Statement (.powerFail x0 x1) := fun _ h => nomatch h

theorem mbdoorWriteWhileBusy : Statement (.mbdoorWriteWhileBusy) := fun _ h => nomatch h

end Sys2Proof.Laws.RoundTrip
end

