-- ==== Sys2Proof/Laws/Save.lean ====
section
/-! SUPPORT. What writing words of a save area changes: memory from the place that the area maps to, and nothing that an address or a
thread depends on. -/

namespace Sys2Proof.Machine

/-- t is s with nothing changed but memory, the marks of poison, the directory and the fabric's caches, monitors and watches. -/
def OnlyStored (s t : State) : Prop :=
  t = { s with mem := t.mem, poison := t.poison, units := t.units, grains := t.grains, ftiles := t.ftiles
               monitors := t.monitors, watches := t.watches }

theorem OnlyStored.refl (s : State) : OnlyStored s s := rfl

theorem OnlyStored.trans {s t u : State} (h : OnlyStored s t) (k : OnlyStored t u) : OnlyStored s u := by
  unfold OnlyStored at *
  generalize t.mem = me, t.poison = po, t.units = un, t.grains = gr, t.ftiles = ft, t.monitors = mo, t.watches = wa at h
  subst h
  exact k

theorem OnlyCaches.stored {s t : State} (h : OnlyCaches s t) : OnlyStored s t := by
  unfold OnlyCaches at h
  generalize t.units = un, t.grains = gr, t.ftiles = ft, t.poison = po at h
  subst h
  rfl

theorem onlyStored_unitWrite (s : State) (site : Site) (bs : List Byte) : OnlyStored s (s.unitWrite site bs) := by
  have h : OnlyCaches s (if site.atHome then s.cohWrite site.key bs.length site.grain else s) := by
    split
    · exact onlyCaches_cohWrite s _ _ _
    · exact .refl s
  refine h.stored.trans ?_
  simp only [State.unitWrite]
  generalize (if site.atHome = true then s.cohWrite site.key bs.length site.grain else s) = t
  unfold State.touch
  split <;> rfl

/-- The memory that a unit's write leaves. -/
theorem unitWrite_mem (s : State) (site : Site) (bs : List Byte) : (s.unitWrite site bs).mem = setBytes s.mem site.key bs := by
  have h : OnlyCaches s (if site.atHome then s.cohWrite site.key bs.length site.grain else s) := by
    split
    · exact onlyCaches_cohWrite s _ _ _
    · exact .refl s
  have k := h.mem
  simp only [State.unitWrite]
  generalize (if site.atHome = true then s.cohWrite site.key bs.length site.grain else s) = t at k
  unfold State.touch
  split <;> simp [k]

/-- Two states that agree in memory, cached translations, contexts and the device give every address of a unit the same site. -/
theorem unitSite_congr {s t : State} (hm : t.mem = s.mem) (ht : t.tlbs = s.tlbs) (hc : t.ctxs = s.ctxs) (hd : t.dev = s.dev)
    (c : Nat) (m : Mode) (acc : Acc) (q : Nat) (va : Word) : t.unitSite c m acc q va = s.unitSite c m acc q va := by
  have hk : ∀ k pa, t.kindAt k pa = s.kindAt k pa := fun k pa => by simp [State.kindAt, State.ownPeer, State.tierPa, hd]
  have hs : ∀ q va e pb, t.siteOf q va e pb = s.siteOf q va e pb := fun q va e pb => by simp [State.siteOf, State.ownPeer, hk, hd]
  have hf : ∀ va ls table, t.walkFrom va ls table = s.walkFrom va ls table := fun va ls => by
    induction ls with
    | nil => exact fun _ => rfl
    | cons l ls ih => exact fun table => by simp [State.walkFrom, State.ptrOk, State.tierPa, hd, hm, ih]
  have hx : t.ctx c = s.ctx c := by simp [State.ctx, hc]
  have hw : ∀ va, t.walk (s.ctx c).root va = s.walk (s.ctx c).root va := fun va => by simp [State.walk, hf, State.tierPa, hd]
  simp only [State.unitSite, State.translateFor, State.leafFor, hs, hx, ht, hw]
  generalize va.toNat % 2 ^ 56 = v
  by_cases h : canonical va = false
  · simp [h]
  · simp only [h]
    rcases s.walk (s.ctx c).root v with _ | ⟨e, pb⟩ <;> rcases findTlb s.tlbs 3072 c v with _ | x <;> simp only
    · by_cases b : permitted acc m x.pte (s.siteOf q v x.pte x.bits).kind = true <;> simp [b]
    · by_cases b : permitted acc m e (s.siteOf q v e pb).kind = true <;> simp [b]
    · by_cases b : permitted acc m x.pte (s.siteOf q v x.pte x.bits).kind = true
      · simp [b]
      · by_cases b' : permitted acc m e (s.siteOf q v e pb).kind = true <;> simp [b, b']

/-- A unit finds the same site in a state that differs by memory and what no translation reads. -/
theorem OnlyStored.unitSite {s t : State} (h : OnlyStored s t) (c : Nat) (m : Mode) (acc : Acc) (q : Nat) (va : Word) :
    t.unitSite c m acc q va = State.unitSite { s with mem := t.mem } c m acc q va :=
  unitSite_congr (t := t) (s := { s with mem := t.mem }) rfl (by rw [h]) (by rw [h]) (by rw [h]) c m acc q va

/-- Words written to a save area change nothing but memory and what stores change. -/
theorem onlyStored_saveWords (s : State) (c : Nat) (va : Word) (ws : List Word) : OnlyStored s (s.saveWords c va ws) := by
  induction ws generalizing s va with
  | nil => exact .refl s
  | cons w ws ih =>
    refine .trans ?_ (ih _ _)
    split
    · split
      · exact onlyStored_unitWrite s _ _
      · exact .refl s
    · exact .refl s

/-- The memory after words, each in its eight bytes, from a key on. -/
def setWords : List Host.Cell → Nat → List Word → List Host.Cell
  | m, _, [] => m
  | m, k, w :: ws => setWords (setBytes m k (leBytes 8 w.toNat)) (k + 8) ws

theorem byteAt_setWords_outside (m : List Host.Cell) (k j : Nat) (ws : List Word) (h : j < k ∨ k + 8 * ws.length ≤ j) :
    byteAt (setWords m k ws) j = byteAt m j := by
  induction ws generalizing m k with
  | nil => rfl
  | cons w ws ih =>
    rw [setWords, ih _ _ (by simp at h; omega), byteAt_setBytes_outside _ _ _ _ (by simp at h ⊢; omega)]

/-- Words written to an area lie from the key on that its addresses lead to, whatever the area holds. -/
theorem saveWords_mem {s t : State} {c key : Nat} {va : Word} (ws : List Word) (lo hi : Nat) (ht : OnlyStored s t)
    (ha : ∀ (m : List Host.Cell) i, (∀ k, k < lo ∨ hi ≤ k → byteAt m k = byteAt s.mem k) → i < ws.length →
      ∃ site, State.unitSite { s with mem := m } c .supervisor .store 0 (va + BitVec.ofNat 64 (8 * i)) = .ok site ∧ site.kind ≤ 1 ∧
        site.key = key + 8 * i)
    (hm : ∀ k, k < lo ∨ hi ≤ k → byteAt t.mem k = byteAt s.mem k) (hl : lo ≤ key) (hh : key + 8 * ws.length ≤ hi) :
    (t.saveWords c va ws).mem = setWords t.mem key ws := by
  induction ws generalizing t va key with
  | nil => rfl
  | cons w ws ih =>
    obtain ⟨site, e, k, y⟩ := ha t.mem 0 hm (by simp)
    simp only [Nat.mul_zero, BitVec.add_zero, Nat.add_zero] at e y
    rw [State.saveWords, ht.unitSite, e]
    simp only [k, if_true]
    have hw := unitWrite_mem t site (leBytes 8 w.toNat)
    rw [ih (ht.trans (onlyStored_unitWrite t site _)) (key := key + 8), hw, y, setWords]
    · intro m i h1 h2
      obtain ⟨x, e1, e2, e3⟩ := ha m (i + 1) h1 (by simpa using h2)
      refine ⟨x, ?_, e2, by omega⟩
      rw [← e1, show va + 8 + BitVec.ofNat 64 (8 * i) = va + BitVec.ofNat 64 (8 * (i + 1)) from by
        rw [Nat.mul_add, BitVec.ofNat_add, BitVec.add_assoc, BitVec.add_comm (8 : Word)]; rfl]
    · intro j h
      rw [hw, y, byteAt_setBytes_outside _ _ _ _ (by simp at hh ⊢; omega), hm j h]
    · omega
    · simp at hh; omega

end Sys2Proof.Machine
end

