-- ==== Sys2Proof/Tests/Slice0.lean ====
section
/-! SUPPORT. The model's own tests: ill-formed terms, words of the encoding tables, witnesses for the hypotheses of the
statements, and single steps on small states. Expected values come from the spec's examples and tables. -/

namespace Sys2Proof.Tests

open Machine Says

set_option Elab.async false

/-! Small states. -/

/-- A thread in user mode at pc 0 of context 0 on core 0, its code page mapped for everything. -/
def base : State := State.reset.withFetchWord 32 0x00000002

/-- The state with registers of the issuing thread set. -/
def withRegs (s : State) (l : List (SReg × Word)) : State :=
  s.setTh (l.foldl (fun t e => t.ws e.1 e.2 0) s.th)

/-- The state with virtual page 1 of context 0 mapped at core 0 to a physical address under a kind. -/
def withPage (s : State) (kind pa : Nat) : State :=
  { s with tlbs := [{ core := 0, ctx := 0, page := 1, bits := 12, pte := BitVec.ofNat 64 (0x9F + pa + kind * 2 ^ 57) }] }

/-- The state with bytes in memory. -/
def withBytes (s : State) (key : Nat) (bs : List Nat) : State := { s with mem := setBytes s.mem key (bs.map (BitVec.ofNat 8)) }

/-- The state in supervisor mode. -/
def inSuper (s : State) : State := s.setTh { s.th with mode := .supervisor }

/-- The instruction answers a next state of which a test holds. -/
def answers (i : Instr) (s : State) (p : State → Bool) : Bool :=
  match exec i s with
  | .next t => p t
  | _ => false

/-- The access answers a site and a state of which a test holds. -/
def okWith {ε α : Type} (r : Except ε α) (p : α → Bool) : Bool :=
  match r with
  | .ok x => p x
  | .error _ => false

/-! The checks of well-formedness (R103, R114, R176, R284 to R289). -/

theorem test_wf_sems : ¬Instr.wellFormed (.ldB 1 2 .release .device 0) ∧ ¬Instr.wellFormed (.ldH 1 2 .plain .quire 0) ∧
    ¬Instr.wellFormed (.ldW 1 2 .acqRel .thread 0) ∧ ¬Instr.wellFormed (.ldD 1 2 .acqRel .device 0) ∧
    ¬Instr.wellFormed (.ldNb 1 2 .release .system 0) ∧ ¬Instr.wellFormed (.ldNh 1 2 .plain .system 0) ∧
    ¬Instr.wellFormed (.ldNw 1 2 .release .quire 0) ∧ ¬Instr.wellFormed (.stB 1 2 .acquire .device 0) ∧
    ¬Instr.wellFormed (.stH 1 2 .plain .quire 0) ∧ ¬Instr.wellFormed (.stW 1 2 .acqRel .device 0) ∧
    ¬Instr.wellFormed (.stD 1 2 .acquire .thread 0) ∧ ¬Instr.wellFormed (.waitv 1 2 3 .release .device) ∧
    ¬Instr.wellFormed (.waitvW 1 2 3 .plain .device) ∧ ¬Instr.wellFormed (.vLd 1 2 0 .release .device 0) ∧
    ¬Instr.wellFormed (.vSt 1 2 0 .acquire .device 0) := by decide

theorem test_wf_pairs : ¬Instr.wellFormed (.ldQ 9 2 .plain .thread 0) ∧ ¬Instr.wellFormed (.ldQ 0 2 .plain .thread 0) ∧
    ¬Instr.wellFormed (.stQ 9 2 .plain .thread 0) ∧ ¬Instr.wellFormed (.ldx 9 1 2 .q .plain .thread) ∧
    ¬Instr.wellFormed (.stx 8 1 2 .nb .plain .thread) ∧ ¬Instr.wellFormed (.stx 0 1 2 .q .plain .thread) ∧
    ¬Instr.wellFormed (.atCas2 9 1 2 .plain .thread) ∧ ¬Instr.wellFormed (.atCas2 8 1 3 .plain .thread) ∧
    Instr.wellFormed (.atCas2 8 1 62 .plain .thread) := by decide

theorem test_wf_others : ¬Instr.wellFormed (.imm 1 none .notBearing) ∧ ¬Instr.wellFormed (.callr 1 2 9) ∧
    Instr.wellFormed (.callr 1 2 8) ∧ ¬Instr.wellFormed (.callrV 1 2 15) ∧ ¬Instr.wellFormed (.gang 0) ∧
    ¬Instr.wellFormed (.fCvt 1 2 .i64 .i32) ∧ ¬Instr.wellFormed (.fCvt 1 2 .f32 .f32) ∧
    ¬Instr.wellFormed (.tkCommit 1 2 32) ∧ ¬Instr.wellFormed (.tkPeek 1 2 63) := by decide

theorem test_wf_vectors : ¬Instr.wellFormed (.vAnd 1 2 3 0 .f32) ∧ ¬Instr.wellFormed (.vOr 1 2 3 0 .f64) ∧
    ¬Instr.wellFormed (.vXor 1 2 3 0 .bf16) ∧ ¬Instr.wellFormed (.vShl 1 2 3 0 .f32) ∧ ¬Instr.wellFormed (.vShr 1 2 3 0 .f32) ∧
    ¬Instr.wellFormed (.vSha 1 2 3 0 .f32) ∧ ¬Instr.wellFormed (.vAbs 1 2 0 .n32) ∧ ¬Instr.wellFormed (.vDiv 1 2 3 0 .i32) ∧
    ¬Instr.wellFormed (.vMulh 1 2 3 0 .f32) ∧ ¬Instr.wellFormed (.vCvt 1 2 0 .f32 .f32) ∧
    ¬Instr.wellFormed (.vRedAnd 1 2 0 .f32) ∧ ¬Instr.wellFormed (.vRedOr 1 2 0 .f32) ∧ ¬Instr.wellFormed (.vRedXor 1 2 0 .f64) ∧
    ¬Instr.wellFormed (.vMovMovs 1 2 8 .w64) ∧ ¬Instr.wellFormed (.vMovIns 1 2 16 .w32) := by decide

/-! Words written out from the encodings. The first group are the words that the reference entries of the spec give. -/

theorem test_decode_reference_words :
    decodeTableWord 32 0x004908D3 = some (.pcmp 1 .lt 8 9) ∧ decodeTableWord 32 0x000068D2 = some (.plAnd 1 2 3) ∧
    decodeTableWord 32 0x00041652 = some (.plNot 4 5) ∧ decodeTableWord 32 0x010100AF = some (.pf 1 8 2) ∧
    decodeTableWord 32 0x00080098 = some (.call 1 64) ∧ decodeTableWord 32 0x0602003C = some (.spawn 16 3) ∧
    decodeTableWord 32 0x008A003A = some (.hbind 16 17) ∧ decodeTableWord 32 0x000009B5 = some (.fence .full .device) ∧
    decodeTableWord 32 0x000004B5 = some (.fence .rel .quire) ∧ decodeTableWord 32 0x00008996 = some (.bp 3 .none 4) ∧
    decodeTableWord 32 0xFFFFC017 = some (.j (-2)) ∧ decodeTableWord 32 0x0200944F = some (.vSfRsqrt 8 9 0) ∧
    decodeTableWord 32 0x1001044E = some (.vMovBcst 8 16 .w32) ∧ decodeTableWord 32 0x190D044E = some (.vMovMovs 8 16 3 .w64) ∧
    decodeTableWord 32 0x0414944D = some (.vPerm 8 9 10 0 .w32) ∧ decodeTableWord 32 0x0000201B = some (.ret 1) ∧
    decodeTableWord 32 0x0002001A = some (.jr 16) ∧ decodeTableWord 32 0x3E80090B = some (.lih 18 0x1F400) ∧
    decodeTableWord 32 0x00280038 = some (.gang 5) ∧ decodeTableWord 32 0x00900870 = some (.sysr 16 0x012) ∧
    decodeTableWord 32 0x00920071 = some (.sysw 16 0x012) := by decide +kernel


/-! Witnesses: states and operands that meet the hypotheses of each statement together, with the effect that follows. -/

def regs12 (x y : Word) : State := withRegs base [(1, x), (2, y)]

theorem test_integer_results :
    Quiet (regs12 (-7) 2) ∧ intResult (regs12 (-7) 2) (.div 3 1 2) = some (3, -3) ∧
    intResult (regs12 (-7) 2) (.rem 3 1 2) = some (3, -1) ∧ intResult (regs12 5 0) (.divnW 3 1 2) = some (3, -1) ∧
    intResult (regs12 (BitVec.ofNat 64 (2 ^ 63)) (-1)) (.div 3 1 2) = some (3, BitVec.ofNat 64 (2 ^ 63)) ∧
    intResult (regs12 0x80000000 0) (.addW 3 1 2) = some (3, 0xFFFFFFFF80000000) := by
  unfold Quiet
  decide +kernel

theorem test_div_runs : answers (.div 3 1 2) (regs12 (-7) 2) (fun t => t.rs 3 == -3 && t.th.pc == 4) = true := by decide +kernel

/-- LIH of 0x1F400 writes 0x3E80_0000 (R373). -/
theorem test_lih_runs : answers (.lih 18 0x1F400) base (fun t => t.rs 18 == 0x3E800000) = true := by decide +kernel

theorem test_imm_chains :
    Quiet (regs12 1 0) ∧ tailResult (regs12 1 0) (longImm 1 none (tailImm (.addi 3 1 5))) (.addi 3 1 5) = some (3, 8198) ∧
    tailResult (regs12 1 0) (longImm 0x1FFFFFF (some 0x1FFFFFF) (tailImm (.sltni 3 1 0x1FFF))) (.sltni 3 1 0x1FFF) = some (3, 1) ∧
    answers (.imm 1 none (.addi 3 1 5)) (regs12 1 0) (fun t => t.rs 3 == 8198 && t.th.pc == 8) = true ∧
    answers (.imm 1 none .notBearing) base (fun t => t.th.dcause == 1 && t.th.halted) = true := by
  unfold Quiet
  decide +kernel

theorem test_branch_results :
    Quiet (regs12 (-1) 1) ∧ branchTo (regs12 (-1) 1) (.bLt 1 2 (-1)) = some (true, -4) ∧
    branchTo (regs12 (-1) 1) (.bLtn 1 2 2) = some (false, 8) ∧ branchTo base (.bp 0 .all 3) = some (true, 12) ∧
    answers (.bLt 1 2 (-1)) (regs12 (-1) 1) (fun t => t.th.pc == -4) = true := by
  unfold Quiet
  decide +kernel

/-! Memory. -/

/-- Data in the code page at 0x100, its address in register 2. -/
def mem2 : State := withRegs (withBytes base 0x14100 [0x81, 0x82, 0x83, 0x84, 0x85, 0x86, 0x87, 0xF8]) [(2, 0x100), (4, 0x1122334455667788)]

theorem test_loads_complete :
    Quiet mem2 ∧ loadForm mem2 (.ldB 3 2 .plain .thread 0) ≠ none ∧
    (∀ x ∈ loadForm mem2 (.ldH 3 2 .plain .thread 3), canonical x.ea = true ∧ x.ea.toNat % x.size = 0) ∧
    okWith (mem2.translate .load 0x100) (fun r => r.1.kind == 0 && okWith (r.2.siteReadable 0x100 r.1 8) (fun _ => true)) = true ∧
    answers (.ldB 3 2 .plain .thread 0) mem2 (fun t => t.rs 3 == -127 && t.th.pc == 4) = true ∧
    answers (.ldH 3 2 .plain .thread 3) mem2 (fun t => t.rs 3 == 0xFFFFFFFFFFFFF887) = true ∧
    answers (.ldQ 6 2 .acquire .device 0) mem2 (fun t => t.rs 6 == 0xF887868584838281 && t.rs 7 == 0) = true := by
  unfold Quiet
  decide +kernel

theorem test_loads_read_memory :
    (mem2.core mem2.myCore).wbuf = [] ∧ (mem2.core mem2.myCore).l1 = [] ∧
    okWith (mem2.translate .load 0x100) (fun r => decide (r.1.key % 64 + 8 ≤ 64)) = true ∧ natAt mem2.mem 0x14100 2 = 0x8281 ∧
    answers (.ldNh 3 2 .plain .thread 0) mem2 (fun t => t.rs 3 == 0x8281) = true := by decide +kernel

theorem test_stores_complete :
    Quiet mem2 ∧ storeForm mem2 (.stW 4 2 .release .quire 1) ≠ none ∧ okWith (mem2.translate .store 0x104) (fun r =>
      r.1.key == 0x14104 && okWith (r.2.releaseIf .release .quire) (fun _ => true)) = true ∧
    answers (.stW 4 2 .release .quire 1) mem2 (fun t => t.th.pc == 4 && t.mem == mem2.mem &&
      (t.core 0).wbuf.map Pending.cells == [[(0x14104, 0x88), (0x14105, 0x77), (0x14106, 0x66), (0x14107, 0x55)]]) = true := by
  unfold Quiet
  decide +kernel

/-- Data in a host page of kind 3 at virtual address 0x1000, and a wait between the halves of an LD.Q. -/
def host2 (w : Wait) : State :=
  let s := withBytes (withRegs (withPage base 3 (2 ^ 51)) [(2, 0x1000)]) (2 ^ 51) [1, 0, 0, 0, 0, 0, 0, 0, 2]
  s.setTh { s.th with wait := w }

theorem test_wide_loads_halve :
    Quiet (host2 .none) ∧ Quiet (host2 (.half true 2)) ∧
    okWith ((host2 .none).translate .load 0x1000) (fun r => r.1.kind == 3 && okWith (r.2.siteReadable 0x1000 r.1 16) fun _ => true) = true ∧
    answers (.ldQ 6 2 .plain .thread 0) (host2 .none) (fun t => t.th.pc == 0) = true ∧
    answers (.ldQ 6 2 .plain .thread 0) (host2 (.half true 2)) (fun t => t.rs 6 == 1 && t.rs 7 == 2 && t.th.pc == 4) = true ∧
    answers (.ldQ 6 2 .plain .thread 0) (host2 (.half false 1)) (fun t => t.rs 6 == 1 && t.rs 7 == 2 && t.th.pc == 4) = true := by
  unfold Quiet
  decide +kernel

/-- A buffered store of two bytes. -/
def pend : Pending := { thread := 0, ctx := 0, via := { va := 0, bits := 12, glob := false }, kind := 0, grain := 1, policy := 0, cells := cellsFrom 0x14106 [0, 9] }

theorem test_stores_write_their_bytes :
    pend.cells = cellsFrom 0x14106 [0, 9] ∧ natAt (mem2.performStore 0 pend).mem 0x14104 4 = 0x09008685 ∧
    ({ pend with kind := 3 } : Pending).kind = 3 ∧ base.portUp 0x14106 = true ∧ ({ pend with kind := 4 } : Pending).kind = 4 ∧
    ({ base with dev := { base.dev with zorey := some 0 } } : State).peerUp 0x14106 = true := by decide +kernel

theorem test_access_traps :
    canonical (fmAt (regs12 0 0x0080000000000000) 2 0 1) = false ∧
    canonical (fmAt (regs12 0 0xFF80000000000000) 2 0 1) = true ∧
    canonical (fmAt (regs12 0 6) 2 0 8) = true ∧ (fmAt (regs12 0 6) 2 0 8).toNat % 8 ≠ 0 ∧
    canonical (fmAt (regs12 0 0x2000) 2 0 8) = true ∧ (fmAt (regs12 0 0x2000) 2 0 8).toNat % 8 = 0 ∧
    ((regs12 0 0x2000).translateFor 0 0 0 .user .load 0x2000 matches .error 0x04) = true ∧
    answers (.ldB 3 2 .plain .thread 0) (regs12 0 0x0080000000000000) (fun t => t.th.dcause == 5) = true ∧
    answers (.stD 3 2 .plain .thread 0) (regs12 0 6) (fun t => t.th.dcause == 3 && t.th.trapVal == 6) = true ∧
    answers (.ldD 3 2 .plain .thread 0) (regs12 0 0x2000) (fun t => t.th.dcause == 4 && t.th.trapVal == 0x2000) = true := by
  decide +kernel

theorem test_atomics_complete :
    Quiet mem2 ∧ atomicForm mem2 (.atAAdd 3 2 4 .acqRel .device) ≠ none ∧
    okWith (mem2.translate .atomic 0x100) (fun r => r.1.kind == 0 && okWith (r.2.siteReadable 0x100 r.1 8) (fun _ => true) &&
      okWith (r.2.releaseIf .acqRel .device) (fun _ => true)) = true ∧
    answers (.atAAdd 3 2 4 .acqRel .device) mem2 (fun t => t.rs 3 == 0xF887868584838281 &&
      natAt t.mem 0x14100 8 == 0x09A9B9C9D9E9FA09) = true ∧
    answers (.atNIncw 3 2 4 .plain .quire) mem2 (fun t => t.rs 3 == 0x84838281 && natAt t.mem 0x14100 8 == 0xF887868500000000) = true ∧
    Instr.wellFormed (.atCas2 6 2 8 .plain .thread) = true ∧
    answers (.atCas2 6 2 8 .plain .thread) (withRegs mem2 [(6, 0xF887868584838281), (8, 5), (9, 6)]) (fun t =>
      natAt t.mem 0x14100 16 == 5 + 6 * 2 ^ 64 && t.rs 7 == 0) = true ∧
    answers (.atCas2 6 2 8 .plain .thread) mem2 (fun t => t.rs 6 == 0xF887868584838281 && t.mem == mem2.mem) = true := by
  unfold Quiet
  decide +kernel


/-- Bank 1 of core 0 in the FIFO role, page 1 on its first FIFO. -/
def fifoS (x : Fifo) : State :=
  let s := withRegs (withPage (base.setCore 0 { base.core 0 with role1 := 2 }) 6 0x10000) [(2, 0x1000), (4, 77)]
  s.setFifoAt 16 x

/-- The FIFO with a push of thread 0 held in the store path of its core. -/
def heldS (x : Fifo) : State :=
  (fifoS x).setCore 0 { (fifoS x).core 0 with pushes := [⟨0, 0, ⟨0x1000, 12, false⟩, 16, 8⟩] }

theorem test_fifo_accesses :
    Quiet (fifoS ⟨[5, 6], []⟩) ∧ fifoId 0 0x10000 = 16 ∧
    okWith ((fifoS ⟨[5, 6], []⟩).translate .load 0x1000) (fun r => r.1.kind == 6 && r.1.off == 0x10000 &&
      decide (r.2.bankAt 0 0x10000 8 = .fifo)) = true ∧
    answers (.ldD 3 2 .plain .thread 0) (fifoS ⟨[5, 6], []⟩) (fun t => t.rs 3 == 5 && (t.fifoAt 16).entries == [6]) = true ∧
    answers (.stD 4 2 .plain .thread 0) (fifoS ⟨List.replicate 511 1, []⟩) (fun t =>
      (t.fifoAt 16).entries == List.replicate 511 1 ++ [77] && t.th.pc == 4) = true ∧
    answers (.fifoPopComplete 0) ((fifoS ⟨[9], [0]⟩).setThr 0 { (fifoS ⟨[9], [0]⟩).thr 0 with wait := .fifoLoad 3 16 ⟨0x1000, 12, false⟩ })
      (fun t => t.rs 3 == 9 && t.th.wait == .none && t.th.pc == 4 && (t.fifoAt 16).loads == []) = true ∧
    answers (.stD 4 2 .plain .thread 0) (fifoS ⟨List.replicate 512 1, []⟩) (fun t =>
      (t.fifoAt 16).entries == List.replicate 512 1 && t.th.pc == 4 && t.th.wait == .none &&
      (t.core 0).pushes == [⟨0, 0, ⟨0x1000, 12, false⟩, 16, 77⟩]) = true ∧
    answers (.fifoPushComplete 0) (heldS ⟨[9], []⟩) (fun t => t.threads == (heldS ⟨[9], []⟩).threads &&
      (t.fifoAt 16).entries == [9, 8] && (t.core 0).pushes == []) = true := by
  unfold Quiet
  decide +kernel

/-- A core with a buffered store and an L1 line. -/
def buffered : State := base.setCore 0 { base.core 0 with wbuf := [pend], l1 := [{ line := 4, fill := 0, data := 0, stored := [] }] }

theorem test_fences_complete :
    Quiet buffered ∧ okWith (buffered.release .device) (fun t => (t.core 0).wbuf == [] && natAt t.mem 0x14106 2 == 0x0900) = true ∧
    answers (.fence .acq .quire) buffered (fun t => (t.core 0).l1 == [] && (t.core 0).wbuf == [pend]) = true ∧
    answers (.fence .full .device) buffered (fun t => (t.core 0).l1 == [] && (t.core 0).wbuf == [] && t.th.pc == 4) = true ∧
    answers (.pf 2 0 0) buffered (fun t => t.cores == buffered.cores && t.th.pc == 4) = true := by
  unfold Quiet
  decide +kernel

theorem test_waitv_results :
    okWith (mem2.waitvSite 0x100 8) (fun r => r.1.key == 0x14100) = true ∧ Quiet mem2 ∧
    natAt mem2.mem 0x14100 8 ≠ (mem2.rs 0).toNat % 2 ^ 64 ∧ natAt base.mem 0x14100 4 = (base.rs 0).toNat % 2 ^ 32 ∧
    answers (.waitv 3 2 0 .acquire .device) mem2 (fun t => t.rs 3 == 0xF887868584838281 && t.th.pc == 4) = true ∧
    answers (.waitvW 3 2 0 .plain .thread) (withRegs base [(2, 0x100)]) (fun t =>
      t.th.wait == .waitv 3 0x100 4 .plain .thread none && t.th.pc == 0 &&
      t.monitors == [(0, { key := 0x14100, hit := false })] &&
      (t.writeCells [(0x14103, 1)]).monitors == [(0, { key := 0x14100, hit := true })]) = true ∧
    answers (.waitvWake 0) (mem2.setThr 0 { mem2.thr 0 with wait := .waitv 3 0x100 8 .plain .thread none })
      (fun t => t.th.wait == .none && t.th.pc == 4 && t.rs 3 == 0xF887868584838281) = true := by
  unfold Quiet
  decide +kernel

/-- A barrier object at 0x100 with its expected count, arrived count and pending bytes. -/
def barS (arrived expected pending : Nat) : State :=
  withRegs { base with mem := setBytes base.mem 0x14100 (leBytes 16 (Bar.toNat ⟨7, arrived, expected, pending⟩)) } [(2, 0x100), (4, 3)]

/-- Launch 0 of context 0 with four WIDs in groups of two. -/
def launch2 : Launch :=
  { ctx := 0, q := 0, hdr := 0, entry := 0, flags := BitVec.ofNat 64 (2 + 1 * 2 ^ 3 + 1 * 2 ^ 9 + 1 * 2 ^ 44), extents := [2, 2], mask := 1, arg := 0, compl := 0
    incr := 0, slot := 0, slice := 0, waits := [], seen := [], nextUnit := 4, running := 4, halted := 0, aborted := false, heap := none }

theorem test_barriers_complete :
    Quiet (barS 1 2 0) ∧ okWith ((barS 1 2 0).barSite 0x100) (fun r => r.1.key == 0x14100 && r.1.kind == 0 &&
      (r.2.barAt r.1).phase == 7 && okWith (r.2.releaseIf .release (barScope r.1)) (fun _ => true)) = true ∧
    answers (.barInit 2 4) (barS 1 2 0) (fun t => Bar.ofNat (natAt t.mem 0x14100 16) == ⟨0, 0, 3, 0⟩) = true ∧
    answers (.barArrive 3 2) (barS 1 2 0) (fun t => t.rs 3 == 7 && Bar.ofNat (natAt t.mem 0x14100 16) == ⟨8, 0, 2, 0⟩) = true ∧
    answers (.barArrivex 3 2 4) (barS 1 2 0) (fun t => t.rs 3 == 7 && Bar.ofNat (natAt t.mem 0x14100 16) == ⟨7, 2, 2, 3⟩) = true ∧
    answers (.barExpect 2 4) (withRegs (barS 2 2 3) [(4, -3)]) (fun t => Bar.ofNat (natAt t.mem 0x14100 16) == ⟨8, 0, 2, 0⟩) = true ∧
    answers (.barWait 3 2 4) (barS 1 2 0) (fun t => t.rs 3 == 7 && t.th.pc == 4) = true ∧
    answers (.barWait 3 2 4) (withRegs (barS 1 2 0) [(4, 7)]) (fun t => t.th.wait == .barWait 3 0x100 0x14100 7 && t.th.pc == 0) = true ∧
    answers (.barWaitReturn 0) ((barS 1 2 0).setThr 0 { (barS 1 2 0).thr 0 with wait := .barWait 3 0x100 0x14100 6 })
      (fun t => t.rs 3 == 7 && t.th.pc == 4 && t.th.wait == .none) = true := by
  unfold Quiet
  decide +kernel

/-- Thread 1 waits at the object of barS. -/
def barTwo : State := (barS 1 2 0).setThr 1 { (barS 1 2 0).thr 0 with wait := .barWait 3 0x100 0x14100 7 }

theorem test_init_ends_waits :
    Quiet barTwo ∧ Quiet { barTwo with cur := 1 } ∧ (barTwo.thr 1).wait = .barWait 3 0x100 0x14100 7 ∧
    okWith (barTwo.barSite 0x100) (fun r => r.1.key == 0x14100 && r.2.threads.all (fun e => e.1 == 1 || e.2.wait == .none) &&
      let p := r.2.barPut r.1 ⟨0, 0, 3, 0⟩
      (p.thr 1).wait == .barWait 3 0x100 0x14100 7 && (r.2.thr 1).stepping == false &&
        okWith (State.translate { p with cur := 1 } .atomic 0x100) (fun x => x.1.key == 0x14100)) = true ∧
    answers (.barInit 2 4) barTwo (fun t => (t.thr 1).wait == .none && (t.thr 1).pc == 4 && (t.thr 1).rs 3 == 0) = true ∧
    answers (.barInit 2 4) (barTwo.setThr 1 { barTwo.thr 1 with wait := .barWait 3 0x100 0x14100 0 }) (fun t =>
      (t.thr 1).wait == .none && (t.thr 1).pc == 4 && (t.thr 1).rs 3 == 0) = true ∧
    answers (.barInit 2 0) barTwo (fun t => t.th.dcause == 1 && t.th.halted) = true := by
  unfold Quiet
  decide +kernel

/-- Two threads of one group of launch 0. -/
def lvlS (m : Nat) : State :=
  let s := withRegs (base.setLaunch 0 launch2) [(2, 1)]
  s.setThr 1 { s.thr 0 with work := .wid 0 m }

theorem test_level_barriers :
    Quiet (lvlS 1) ∧ (lvlS 1).th.work = .wid 0 0 ∧ (lvlS 1).launch 0 = some launch2 ∧ 1 ≤ launch2.cores ∧
    ((lvlS 1).quire 0).levels = [] ∧ (lvlS 1).groupThreads 0 launch2 1 0 = [0, 1] ∧ (lvlS 2).groupThreads 0 launch2 1 0 = [0] ∧
    answers (.barLvl 2) (lvlS 2) (fun t => t.th.wait == .none && t.th.pc == 4) = true ∧
    answers (.barLvl 2) (lvlS 1) (fun t => t.th.wait == .level 1 && t.th.pc == 0 && (t.quire 0).levels.length == 1) = true := by
  unfold Quiet
  decide +kernel

/-- The two threads of the group, the second of which has arrived and waits. -/
def lvlTwo : State :=
  let s := lvlS 1
  (s.setThr 1 { s.thr 1 with wait := .level 1 }).setQuire 0 { s.quire 0 with levels := [{ launch := 0, level := 1, group := 0, threads := [1] }] }

theorem test_level_barriers_release :
    Quiet lvlTwo ∧ lvlTwo.th.work = .wid 0 0 ∧ arrivals (lvlTwo.quire 0).levels 0 1 0 = [1] ∧
    okWith (lvlTwo.release .quire) (fun s => s.groupThreads 0 launch2 1 0 == [0, 1] && (s.thr 1).stepping == false) = true ∧
    answers (.barLvl 2) lvlTwo (fun t => t.th.wait == .none && t.th.pc == 4 && (t.thr 1).wait == .none && (t.thr 1).pc == 4 &&
      (t.quire 0).levels == []) = true ∧
    answers (.barLvl 2) (lvlS 1) (fun t => arrivals (t.quire 0).levels 0 1 0 == [0]) = true ∧
    answers (.barLvl 0) (lvlS 1) (fun t => t.th.dcause == 1) = true ∧
    answers (.barLvl 2) ((lvlS 1).setTh { (lvlS 1).th with work := .handler }) (fun t => t.th.dcause == 1) = true := by
  unfold Quiet
  decide +kernel

/-- The traps of a barrier object that would overflow or underflow (R63). -/
theorem test_barrier_traps :
    okWith ((barS 2 2 0).barSite 0x100) (fun r => okWith (r.2.release (barScope r.1)) (fun s => s.barAt r.1 == ⟨7, 2, 2, 0⟩)) = true ∧
    answers (.barArrive 3 2) (barS 2 2 0) (fun t => t.th.dcause == 8 && t.th.trapVal == 0x100) = true ∧
    answers (.barArrivex 3 2 4) (barS 1 2 (2 ^ 40 - 3)) (fun t => t.th.dcause == 8) = true ∧
    answers (.barExpect 2 4) (withRegs (barS 1 2 2) [(4, -3)]) (fun t => t.th.dcause == 9 && t.th.trapVal == 0x100) = true ∧
    answers (.barExpect 2 4) (barS 1 2 (2 ^ 40 - 3)) (fun t => t.th.dcause == 8 && t.th.trapVal == 0x100) = true := by
  decide +kernel

/-- Tile 5 of core 0 in a state. -/
def tileS (st : TileSt) (landed : Bool) : State :=
  let s := withRegs base [(2, 5), (4, 0x10000 + 64 * 2 ^ 18), (6, 3)]
  s.setCore 0 ((s.core 0).setTile 0 5 ⟨0x10000, 64, st, landed, []⟩)

theorem test_tiles_complete :
    Quiet (tileS .ready false) ∧ (withRegs base [(2, 5), (4, 0x10000 + 64 * 2 ^ 18)]).inPool 0 0x10000 64 = false ∧
    (tileS .ready false).firstFor ((tileS .ready false).myTile 5) .ready = true ∧ tileStOf 3 = .ready ∧
    answers (.tlAlloc 2 4) (withRegs base [(2, 5), (4, 0x10000 + 64 * 2 ^ 18)]) (fun t =>
      t.myTile 5 == ⟨0x10000, 64, .empty, false, []⟩ && t.th.pc == 4) = true ∧
    answers (.tlFree 2) (tileS .ready false) (fun t => (t.myTile 5).st == .free && t.th.pc == 4) = true ∧
    answers (.tlState 3 2) (tileS .draining false) (fun t => t.rs 3 == 4) = true ∧
    answers (.tlWait 2 6) (tileS .ready false) (fun t => t.th.pc == 4 && t.th.wait == .none) = true ∧
    answers (.tileReady 0 5) (tileS .filling true) (fun t => (t.myTile 5).st == .ready) = true ∧
    answers (.tileEmpty 0 5) (tileS .draining true) (fun t => (t.myTile 5).st == .empty) = true := by
  unfold Quiet
  decide +kernel


/-! Threads, messages and engines. -/

/-- The launch whose WID the base thread runs, one running. -/
def wid1 : State := base.setLaunch 0 { launch2 with flags := 2 + 1 * 2 ^ 3 + 1 * 2 ^ 9, extents := [2, 2] }

/-- The base thread doing other work. -/
def withWork (s : State) (w : Work) : State := s.setTh { s.th with work := w }

/-- Row 0 of quire 0 with its sixteen members: position k is held by thread 4 k. -/
def ganged : JArray :=
  { JArray.reset with gang := 7, formed := true, members := (List.range 16).map fun k => (k, 4 * k) }

theorem test_work_ends :
    wid1.th.work = .wid 0 0 ∧ wid1.gangMember 0 = false ∧ okWith (wid1.release .device) (fun t => decide (t.launch 0 = wid1.launch 0)) = true ∧
    answers .halt wid1 (fun t => (t.thr 0).work == .free && (t.launch 0).elim false fun l => l.halted == 1 && l.running == 3) = true ∧
    (wid1.setArray 0 0 ganged).gangMember 0 = true ∧
    answers .halt (wid1.setArray 0 0 ganged) (fun t => t.th.dcause == 1 && t.th.work == .wid 0 0) = true ∧
    (withWork base .handler).gangMember 0 = false ∧
    answers .tend (withWork base .handler) (fun t => (t.thr 0).work == .free) = true ∧
    answers .tend (withWork base (.heapTask 0 5 true)) (fun t => (t.thr 0).work == .free) = true ∧
    (withWork base (.heapTask 0 5 true)).holdsPush 0 = false ∧
    answers .tend base (fun t => t.th.dcause == 1 && t.th.work == .wid 0 0) = true := by decide +kernel

/-- A heap of launch 0 with the entries of its engine in quire 0, key 5 running with a side value. -/
def heapBound (entries : List HEntry) : State :=
  let h : HeapBinding := { desc := 0, template := 0, tpayload := 0, floor := 0, tol := 0, map := [0], dumpAddr := 0, dumpCap := 0
                           bound := true, ended := false, wave := none }
  let l : Launch := { launch2 with heap := some h }
  let s := withWork (base.setLaunch 0 l) (.heapTask 0 5 false)
  s.setEng 0 { s.eng 0 with entries := entries, running := [⟨5, 1, 9⟩] }

theorem test_work_ends_elsewhere :
    (withWork base (.heapTask 0 5 false)).heapOf 0 = none ∧
    answers .tend (withWork base (.heapTask 0 5 false)) (fun t => (t.thr 0).work == .free) = true ∧
    (heapBound []).heapOf 0 ≠ none ∧ (heapBound []).holdsPush 0 = false ∧ (heapBound []).gangMember 0 = false ∧
    toInsert ((heapBound []).eng 0) 5 = some ⟨5, 1, 9⟩ ∧ ((heapBound []).eng 0).entries.length < 16384 ∧
    answers .tend (heapBound []) (fun t => (t.thr 0).work == .free && (t.eng 0).entries == [⟨5, 1, 9⟩] && (t.eng 0).running == []) = true ∧
    answers .halt (withWork base .handler) (fun t => t.th.dcause == 1) = true ∧
    answers .halt (withWork base (.heapTask 0 5 false)) (fun t => t.th.dcause == 1) = true ∧
    answers .halt (withWork base (.callback 0x600)) (fun t => t.th.dcause == 1) = true ∧
    answers .tend (withWork base (.callback 0x600)) (fun t => t.th.dcause == 1) = true ∧
    answers .tend (withWork (base.setArray 0 0 ganged) .handler) (fun t => t.th.dcause == 1) = true := by decide +kernel

/-- A heap with 16,384 entries. -/
def heapFull : State := heapBound (List.replicate 16384 ⟨6, 1, 0⟩)

theorem test_tend_traps_on_a_full_heap : heapFull.th.work = .heapTask 0 5 false ∧ heapFull.heapOf 0 ≠ none ∧
    heapFull.gangMember 0 = false ∧ heapFull.holdsPush 0 = false ∧ ¬CanEnd (heapFull.eng 0) 5 := by
  refine ⟨by decide +kernel, by decide +kernel, by decide +kernel, by decide +kernel, ?_⟩
  have e : (heapFull.eng 0).entries = List.replicate 16384 ⟨6, 1, 0⟩ := rfl
  have r : toInsert (heapFull.eng 0) 5 = some ⟨5, 1, 9⟩ := rfl
  rw [CanEnd, e, r]
  simp only [List.length_replicate]
  decide

/-- The base thread after a packet, or waiting. -/
def pkt (p : Bool) (w : Wait) : State := base.setTh { base.th with packet := p, wait := w }

theorem test_waits_for_events :
    Quiet (pkt true .none) ∧ Quiet (pkt false .none) ∧ Quiet (pkt false (.waite none)) ∧
    answers .waite (pkt true .none) (fun t => t.th.pc == 4 && t.th.packet == false && t.th.wait == .none) = true ∧
    answers .waite (pkt false .none) (fun t => t.th.pc == 0 && t.th.wait == .waite none) = true ∧
    answers (.waiteWake 0) { pkt false (.waite none) with cur := 9 } (fun t => t.cur == 9 && (t.thr 0).pc == 4 && (t.thr 0).wait == .none) = true ∧
    (0 : Nat) ≤ base.cycle ∧ Quiet (pkt true (.waite (some 0))) ∧
    answers (.waitlimitExpiry 0) (pkt true (.waite (some 0))) (fun t => t.th.pc == 4 && t.th.packet == false && t.th.wait == .none) = true ∧
    okWith ((withBytes (pkt false (.waitv 3 0x100 8 .plain .thread (some 0))) 0x14100 [9]).waitvSite 0x100 8) (fun r => r.1.key == 0x14100) = true ∧
    answers (.waitlimitExpiry 0) (withBytes (pkt false (.waitv 3 0x100 8 .plain .thread (some 0))) 0x14100 [9]) (fun t =>
      t.th.pc == 4 && t.th.wait == .none && t.rs 3 == 9 && t.rs 4 == 0) = true := by
  unfold Quiet
  decide +kernel

theorem test_sends_and_binds :
    Quiet (regs12 (128 * 191 + 5) 9) ∧ base.present 0 = true ∧ base.myCtx.allowed.getLsbD 0 = true ∧
    (base.meetPool base.th.ctx).callbackLabel base.th.ctx ≠ some 5 ∧
    okWith (((regs12 (128 * 191 + 5) 9).meetPool 0).release .quire) (fun t => t.maySend 0 191) = true ∧
    answers (.msg 0 1 2) (regs12 (128 * 191 + 5) 9) (fun t => t.th.pc == 4 &&
      t.net == [{ ctx := 0, thread := 0, dst := 191, label := 5, w0 := 9, w1 := 0, two := false, frame := none }]) = true ∧
    tagOf 0x40 = 0 ∧ base.callbackLabel 0 ≠ some 127 ∧
    answers (.hbind 1 2) (regs12 127 0x40) (fun t => (t.mail 0 0).handlers == [(127, 0x40)] && t.th.pc == 4) = true ∧
    answers (.hbind 1 2) ((regs12 127 0).setMail 0 0 { Mail.reset with handlers := [(127, 0x40)] }) (fun t =>
      (t.mail 0 0).handlers == [] && t.th.pc == 4) = true ∧
    okWith ((regs12 0x8000 0).release .device) (fun t => decide ((t.lq 0 15).depth < 128)) = true ∧
    answers (.spawn 1 15) (regs12 0x8000 0) (fun t => (t.lq 0 15).pending == [0x8000] && t.th.pc == 4) = true := by
  unfold Quiet
  decide +kernel

/-- A COPY's command at the engine: its descriptor at 0x140 moves two bytes from 0x200 to 0x280, in descriptor order source,
destination, length and barrier (R352). -/
def copyS : State :=
  let s := withBytes (withBytes base 0x14140 (((List.range 64).map fun i =>
    if i = 1 then 2 else if i = 8 then 0x80 else if i = 9 then 2 else if i = 16 then 2 else 0))) 0x14200 [7, 9]
  withRegs s [(1, 0x4000000000000140), (2, 99)]

/-- A command of the copy engine. -/
def cmd (a : Word) (st : CmdState) : Cmd :=
  { engine := .copy, ctx := 0, work := .wid 0 0, a := a, b := 99, st := st, orphan := false }

theorem test_engine_fifos :
    Quiet copyS ∧ okWith (copyS.enqCheck .copy 0x4000000000000140 99) (fun _ => true) = true ∧ tagSv 99 = false ∧ tagDv 99 = false ∧
    copyS.th.queued .copy < 8 ∧ okWith (copyS.release (scopeOf (cmdScope 0x4000000000000140))) (fun _ => true) = true ∧
    answers (.enq .copy 1 2) copyS (fun t => t.th.pc == 4 && t.th.cmds == [cmd 0x4000000000000140 .pending]) = true ∧
    ([cmd 0 (.complete 0)].find? (Cmd.live 0 .copy)) = some (cmd 0 (.complete 0)) ∧
    answers (.deq 3 .copy) (base.setTh { base.th with cmds := [cmd 0x4000000000000140 (.complete 0)] }) (fun t =>
      t.rs 3 == 99 && t.th.cmds == []) = true ∧
    answers (.deq 3 .copy) (base.setTh { base.th with cmds := [cmd 0x4000000000000140 (.complete 0x12)] }) (fun t =>
      t.rs 3 == 99 + 0x12 * 2 ^ 48 && t.th.cmds == [] && t.th.dcause == 0x15) = true ∧
    answers (.deq 3 .copy) (base.setTh { base.th with cmds := [cmd 0 .pending] }) (fun t => t.th.wait == .retry && t.th.pc == 0) = true ∧
    answers (.enq .copy 1 2) (copyS.setTh { copyS.th with cmds := List.replicate 8 (cmd 0 .pending) }) (fun t =>
      t.th.wait == .retry && t.th.cmds.length == 8) = true ∧
    base.th.cmds.find? (Cmd.live 0 .gather) = none ∧
    answers (.deq 3 .gather) base (fun t => t.th.dcause == 0x15) = true := by
  unfold Quiet
  decide +kernel

/-- The copy engine's thread with its command at the head. -/
def engS : State := copyS.setTh { copyS.th with cmds := [cmd 0x4000000000000140 .pending] }

/-- The thread of a command. -/
def who0 : Who := { ctx := 0, core := 0, tile := (engS.core 0).tile 0, scratch := true }

theorem test_engines_complete :
    engineForm engS (.copy 0) ≠ none ∧ (engS.thr 0).cmds.find? (Cmd.runs .copy) = some (cmd 0x4000000000000140 .pending) ∧
    cmdCode 0x4000000000000140 = 0 ∧
    answers (.copy 0) engS (fun t => (t.thr 0).cmds == [cmd 0x4000000000000140 (.complete 0)] &&
      natAt t.mem 0x14280 3 == 0x0907) = true := by decide +kernel

theorem test_copy_moves_bytes :
    okWith (engS.cmdDescriptor who0 0x4000000000000140) (fun ds => okWith (copyRules 99 ds) (fun _ => true) && nth 0 ds 3 == 0 &&
      okWith (engS.copySource who0 99 (nth 0 ds 0) 2) (fun src => src.length == 2 &&
        okWith (engS.engineRead src) (fun bs => bs == [7, 9])) &&
      okWith (engS.copyDest who0 99 (nth 0 ds 1) 2) (fun dst => (dst.map Site.key).head? == some 0x14280)) = true ∧
    (engS.doCopy who0 0x4000000000000140 99).status = 0 ∧
    natAt (engS.doCopy who0 0x4000000000000140 99).s.mem 0x14280 3 = 0x0907 := by decide +kernel

/-- A descriptor of words at 0x140, with words at other addresses of the page. -/
def engDesc (ds : List Word) (more : List (Nat × List Word)) : State :=
  more.foldl (fun s e => { s with mem := setBytes s.mem (0x14000 + e.1) (e.2.flatMap fun (w : Word) => leBytes 8 w.toNat) })
    { base with mem := setBytes base.mem 0x14140 ((ds ++ List.replicate (8 - ds.length) 0 : List Word).flatMap fun (w : Word) => leBytes 8 w.toNat) }

/-- FILL of 16 bytes at 0x280, and its pattern (R352). -/
def fillS : State := engDesc [0x0102030405060708, 0x280, 16] []

/-- Two 32-bit elements with base 0x204, indices -1 and 2 at 0x300, gathered to 0x280 or scattered from there (R353). -/
def gatherS : State :=
  engDesc [0x204, 0x300, 0x280, 2 + 2 * 2 ^ 32] [(0x200, [0xB0000000A, 0xD0000000C]), (0x300, [0x2FFFFFFFF]), (0x280, [0x500000004])]

theorem test_fill_and_gather :
    okWith ((fillS.meetDesc who0 0x140).cmdDescriptor who0 0x140) (fun ds => nth 0 ds 2 == 16 && (ds.drop 4).all (· == 0) &&
      okWith ((fillS.meetDesc who0 0x140).copyDest who0 99 (nth 0 ds 1) 16) (fun d => d.length == 16)) = true ∧
    (fillS.doFill who0 0x140 99).status = 0 ∧
    natAt (fillS.doFill who0 0x140 99).s.mem 0x14280 17 = 0x01020304050607080102030405060708 ∧
    okWith ((gatherS.meetDesc who0 0x140).cmdDescriptor who0 0x140) (fun ds => okWith (gatherRules ds 4) (fun _ => true) &&
      okWith ((gatherS.meetDesc who0 0x140).engineSpan who0 .load 0x12 0x300 8) (fun xs =>
        elements ds 2 4 (bytesOf gatherS xs) == [0x200, 0x20C])) = true ∧
    (gatherS.doGather who0 0x140).status = 0 ∧ natAt (gatherS.doGather who0 0x140).s.mem 0x14280 8 = 0xD0000000A ∧
    (gatherS.doScatter who0 0x140).status = 0 ∧ natAt (gatherS.doScatter who0 0x140).s.mem 0x14200 16 = 0x50000000C0000000B00000004 := by
  decide +kernel

/-- An object at 0x400 of the command COLLATE, its result at 0x280, and a group at 0x440 of the devices 0 and 5, ALLRED's data at 0x200. -/
def collateS : State :=
  let s := engDesc [0x400, 0x200] [(0x400, [0x280]), (0x200, [1])]
  s.setLaunch 0 { launch2 with flags := BitVec.ofNat 64 (2 ^ 42) }
def allredS : State :=
  let s := engDesc [0x200, 0x280, 2 ^ 16, 0x440, 8] [(0x440, [2, 5 * 2 ^ 16]), (0x200, [1])]
  { s with dev := { s.dev with zorey := some 0, links := 1 } }

/-- What device 5 sends. -/
def fromFive : Partial := { dev := 5, failed := false, group := [0, 5], op := 0, ty := 0, seq := 8, data := 2 :: List.replicate 7 0 }

/-- A collective of this device ends with a status. -/
def endsWith (r : Option Done) (status : Nat) : Bool :=
  match r with
  | none => false
  | some d => d.status == status

theorem test_collate :
    okWith ((collateS.meetDesc who0 0x140).cmdDescriptor who0 0x140) (fun ds => (ds.drop 2).all (· == 0)) = true ∧
    okWith (((collateS.meetDesc who0 0x140).meetObject who0 0x400).collationSite who0 0x400) (fun x => x.key == 0x14400) = true ∧
    (((collateS.meetDesc who0 0x140).meetObject who0 0x480).collationSite who0 0x480 matches .ok _) = true ∧
    (collateS.doCollate who0 0x140 (.wid 0 3)).status = 0 ∧
    (collateS.doCollate who0 0x140 (.wid 0 3)).s.collations =
      [{ key := 0x14400, va := 0x400, ctx := 0, launch := 0, parts := [{ linear := 3, data := 1 }] }] ∧
    (collateS.doCollate who0 0x140 .handler).status = 2 ∧
    ((collateS.doCollate who0 0x140 (.wid 0 3)).s.doCollate who0 0x140 (.wid 0 3)).status = 3 ∧
    (((collateS.setLaunch 1 { launch2 with flags := BitVec.ofNat 64 (2 ^ 42) }).doCollate who0 0x140 (.wid 0 3)).s.doCollate who0 0x140
      (.wid 1 3)).status = 4 := by
  decide +kernel

theorem test_allred :
    okWith ((allredS.meetDesc who0 0x140).cmdDescriptor who0 0x140) allredOk = true ∧
    (endsWith (allredS.doAllred who0 0x140 [fromFive]) 0) = true ∧ allredS.doAllred who0 0x140 [] matches none ∧
    (allredS.doAllred who0 0x140 [fromFive]).elim 0 (fun r => natAt r.s.mem 0x14280 8) = 3 ∧
    endsWith (allredS.doAllred who0 0x140 [{ fromFive with seq := 9 }]) 5 = true ∧
    endsWith (allredS.doAllred who0 0x140 [{ fromFive with failed := true }]) 0x17 = true ∧
    endsWith (({ allredS with dev := { allredS.dev with zorey := some 1 } } : State).doAllred who0 0x140 [fromFive]) 6 = true := by
  decide +kernel

/-- A barrier object whose command moved two bytes: its pending count goes to 0, and it advances where all have arrived. -/
theorem test_command_barriers :
    ((barS 2 2 2).unitSite 0 .user .atomic 0 0x100 matches .ok _) = true ∧
    (Done.barrier ⟨barS 2 2 2, 0⟩ who0 0x100 2).status = 0 ∧
    Bar.ofNat (natAt (Done.barrier ⟨barS 2 2 2, 0⟩ who0 0x100 2).s.mem 0x14100 16) = ⟨8, 0, 2, 0⟩ ∧
    (Done.barrier ⟨barS 2 2 1, 0⟩ who0 0x100 2).status = 0x15 := by decide +kernel


/-- The base machine with the array of row 0. -/
def arrS (x : JArray) : State := base.setArray 0 0 x

theorem test_gangs_form_and_end :
    Quiet (arrS JArray.reset) ∧ okWith ((arrS JArray.reset).release .quire) (fun _ => true) = true ∧
    (arrS JArray.reset).myArray.hasMember 0 = false ∧ (arrS JArray.reset).myArray.gang = 0 ∧
    answers (.gang 4095) (arrS JArray.reset) (fun t => t.th.pc == 4 && t.th.wait == .gang 0 && t.myArray.gang == 4095 &&
      t.myArray.members == [(0, 0)] && t.myArray.cfg == 0) = true ∧
    (arrS { ganged with formed := false, members := ganged.members.drop 1 }).myArray.hasMember 0 = false ∧
    (ganged.members.drop 1).length = 15 ∧ ((ganged.members.drop 1).any fun e => e.1 == 0) = false ∧
    answers (.gang 7) (arrS { ganged with formed := false, members := ganged.members.drop 1 }) (fun t =>
      t.th.pc == 4 && t.th.wait == .none && t.myArray.formed && t.myArray.members == ganged.members) = true ∧
    ((ganged.members.drop 15).any fun e => e.1 == 0) = false ∧
    answers (.gang 7) (arrS { ganged with formed := false, members := ganged.members.drop 15 }) (fun t =>
      t.th.pc == 4 && t.th.wait == .gang 0 && !t.myArray.formed && t.myArray.members == [(0, 0), (15, 60)]) = true ∧
    Member (arrS ganged) ∧ ganged.contribs = [] ∧ ganged.doneFor 0 = true ∧ tget [] ganged.fails 0 = [] ∧
    answers .gangLeave (arrS ganged) (fun t => t.th.pc == 4 && t.myArray.left == [0] && t.myArray.gang == 7) = true ∧
    answers .gangLeave (arrS { ganged with left := (List.range 15).map (· + 1) }) (fun t => t.th.pc == 4 && t.myArray.gang == 0) = true := by
  unfold Quiet Member
  decide +kernel

/-- A gang with BF16 operands and FP32 results, its member's registers, and two megabytes of memory that it may read. -/
def mxS (d a b : Word) : State :=
  let s := withRegs (arrS { ganged with cfg := 0x10001000000 }) [(1, d), (2, a), (4, b)]
  { s with tlbs := [{ core := 3072, ctx := 0, page := 0, bits := 21, pte := 0x9F }] }

theorem test_joint_contributions :
    Quiet (mxS 0 0 0) ∧ Member (mxS 0 0 0) ∧ mxForm (mxS 0x10001000000 2 0) (.mxCfg 1 2) = some ⟨0, 0, 0x10001000000, 2⟩ ∧
    answers (.mxCfg 1 2) (mxS 0x10001000000 2 0) (fun t => t.th.pc == 4 && tget [] t.myArray.contribs 0 == [⟨0, 0, 0x10001000000, 2⟩] &&
      tget 0 t.myArray.issued 0 == 1) = true ∧
    answers (.mxZero 1) (mxS 0x10000 0 0) (fun t => tget [] t.myArray.contribs 0 == [⟨1, 0x10000, 0, 0⟩]) = true ∧
    answers (.mxDrain 1) (mxS 0x30000 0 0) (fun t => tget [] t.myArray.contribs 0 == [⟨3, 0x30000, 0, 0⟩]) = true ∧
    (mxS 0 0 0).myArray.cfgFor 0 = (0x10001000000, 0) ∧ rowBytes 0 32 = 64 * cfgLda 0x10001000000 ∧ cfgLdb 0x10001000000 = 1 ∧
    (mxS 0 0 0).spansFault 0 (operandSpans 0 32 0 0 8 1 ++ operandSpans 0 32 0 0x1000 128 1) = none ∧ (mxS 0 0 0).holdsPush 0 = false ∧
    answers (.mxMma 1 2 4) (mxS 32 0 0x1000) (fun t => t.th.pc == 4 && tget [] t.myArray.contribs 0 == [⟨2, 32, 0, 0x1000⟩]) = true ∧
    answers .mxWait (mxS 0 0 0) (fun t => t.th.pc == 4) = true := by
  unfold Quiet Member
  decide +kernel

/-- An MX.DRAIN to tile 5. -/
def drnS : State := { tileS .empty false with arrays := (mxS 0 0 0).arrays }

theorem test_drain_contributes :
    Quiet (withRegs drnS [(1, 5)]) ∧ Member (withRegs drnS [(1, 5)]) ∧ drainBytes (cfgOut (drnS.myArray.cfgFor 0).1) = 4096 ∧ (drnS.myTile 5).len = 64 ∧
    answers (.mxDrain 1) (withRegs (drnS.setMyTile 5 { drnS.myTile 5 with len := 4096 }) [(1, 5)]) (fun t =>
      t.th.pc == 4 && (t.myTile 5).st == .filling && tget [] t.myArray.contribs 0 == [⟨3, 5, 0, 0⟩]) = true ∧
    answers (.mxDrain 1) (withRegs drnS [(1, 5)]) (fun t => t.th.dcause == 7) = true := by
  unfold Quiet Member
  decide +kernel

/-- Every position has contributed; position 3 as given. -/
def readyS (k k3 : Contrib) : State :=
  base.setArray 0 0 { ganged with contribs := (List.range 16).map (fun p => (p, [if p = 3 then k3 else k])), cfg := 0x10001000000
                                  set0 := [(5, 9)], set1 := [(6, 8)] }

theorem test_joint_config_and_zero :
    ((readyS ⟨0, 0, 0x10001000000, 2⟩ ⟨0, 0, 0x10001000000, 2⟩).array 0 0).isReady = true ∧
    (∀ p, p < 16 → (((readyS ⟨0, 0, 0x10001000000, 2⟩ ⟨0, 7, 0x10001000000, 2⟩).array 0 0).headOf p).common = (0, 0x10001000000, 2)) ∧
    answers (.jointCfg 0 0) (readyS ⟨0, 0, 0x10001000000, 2⟩ ⟨0, 7, 0x10001000000, 2⟩) (fun t => (t.array 0 0).xoff == 2 &&
      (t.array 0 0).performed == 1 && (t.array 0 0).set0 == [(5, 9)] && (t.array 0 0).set1 == [(6, 8)]) = true ∧
    answers (.jointCfg 0 0) (readyS ⟨0, 0, 0x10001000033, 2⟩ ⟨0, 0, 0x10001000033, 2⟩) (fun t => (t.array 0 0).set0 == [] && (t.array 0 0).set1 == [] &&
      (t.array 0 0).cfg == 0x10001000033) = true ∧
    answers (.jointZero 0 0) (readyS ⟨1, 0x10000, 0, 0⟩ ⟨1, 0x10000, 0, 0⟩) (fun t => (t.array 0 0).set1 == [] && (t.array 0 0).set0 == [(5, 9)]) = true ∧
    ((readyS ⟨2, 32, 0, 0⟩ ⟨2, 64, 0, 0⟩).array 0 0).isReady = true ∧
    (((readyS ⟨2, 32, 0, 0⟩ ⟨2, 64, 0, 0⟩).array 0 0).headOf 3).common ≠ (((readyS ⟨2, 32, 0, 0⟩ ⟨2, 64, 0, 0⟩).array 0 0).headOf 0).common ∧
    answers (.jointMma 0 0) (readyS ⟨2, 32, 0, 0⟩ ⟨2, 64, 0, 0⟩) (fun t => tget [] (t.array 0 0).fails 15 == [(1, 1)] && (t.array 0 0).set0 == [(5, 9)]) = true := by
  decide +kernel


/-- A row read where no byte is poisoned carries no poison. -/
theorem operandBytes_clean (s : State) (h : s.poison = []) (x : JArray) (hx : x.pins = []) (va : Word) (n : Nat) :
    (s.operandBytes x va n).2 = false := by
  induction n generalizing va with
  | zero => rfl
  | succ n ih =>
    simp only [State.operandBytes, hx, List.find?_nil]
    split
    · simp [State.poisoned, h, ih]
    · simp [ih]

/-- A state with no mark of poison and no buffered store, and a fold of steps that keep it so. -/
def Clean (s : State) : Prop := s.poison = [] ∧ ∀ c, (s.core c).wbuf = []

theorem clean_foldl {α : Type} (f : State → α → State) (h : ∀ s a, Clean s → Clean (f s a)) (l : List α) (s : State) (c : Clean s) :
    Clean (l.foldl f s) := by
  induction l generalizing s with
  | nil => exact c
  | cons a l ih => exact ih _ (h s a c)

theorem clean_l1Leave (s : State) (core line : Nat) (h : Clean s) : Clean (s.l1Leave core line) := by
  simp only [State.l1Leave]
  split
  · refine ⟨h.1, fun c => ?_⟩
    rw [State.core_setCore]
    split
    · exact h.2 core
    · exact h.2 c
  · exact h

theorem clean_request (s : State) (site : Site) (h : Clean s) : Clean (s.request site) :=
  ⟨poison_request s site h.1, fun c => by rw [State.core, (onlyCaches_request s site).cores]; exact h.2 c⟩

theorem clean_readyOperands (s : State) (q j : Nat) (x : JArray) (h : Clean s) : Clean (s.readyOperands q j x) := by
  refine clean_foldl _ (fun s p h => clean_foldl _ (fun s va h => ?_) _ s h) _ s h
  unfold State.readyUnit
  split
  · exact h
  · split
    · exact h
    · refine clean_request _ _ (clean_foldl _ (fun s p h => clean_l1Leave _ _ _ (clean_foldl _ (fun s i h => ?_) _ s h)) _ s h)
      rw [State.deliverLine, if_pos (h.2 _)]
      exact h

/-- An MX.MMA with sixteen equal contributions of 32 BF16 elements a row. -/
def mmaS : State := readyS ⟨2, 32, 0, 0⟩ ⟨2, 32, 64, 0⟩

theorem clean_mma : Clean mmaS := by
  refine ⟨by decide +kernel, fun c => ?_⟩
  cases c with
  | zero => decide +kernel
  | succ n => rfl

theorem test_joint_multiply :
    (mmaS.array 0 0).isReady = true ∧ ((mmaS.array 0 0).headOf 0).fn = 2 ∧
    (∀ p, p < 16 → ((mmaS.array 0 0).headOf p).common = ((mmaS.array 0 0).headOf 0).common) ∧
    (mmaS.array 0 0).spoiled 0 = none ∧
    (∀ r, r < 128 → (aRow (mmaS.readyOperands 0 0 (mmaS.array 0 0)) (mmaS.array 0 0) r).2.2 = false ∧
      (bRow (mmaS.readyOperands 0 0 (mmaS.array 0 0)) (mmaS.array 0 0) r).2.2 = false) := by
  refine ⟨by decide +kernel, by decide +kernel, by decide +kernel, by decide +kernel, fun r _ => ⟨?_, ?_⟩⟩ <;>
    simp [aRow, bRow, State.operandRow, show inBlock (cfgIn (mmaS.array 0 0).cfg) = false from by decide +kernel,
      operandBytes_clean _ (clean_readyOperands mmaS 0 0 (mmaS.array 0 0) clean_mma).1 (mmaS.array 0 0) (by decide +kernel)]

/-- A record of a tile at column 0 of its region with one rule. -/
def recOf (kind row cfg : Nat) (rs : List Rule) : TileRec :=
  { col := 0, row := row, kind := kind, sink := false, sinkN := 0, cfg := BitVec.ofNat 64 cfg, e := [], memInit := [], pattern := none
    iterStrides := [], routes := [], conflict := 0, rules := rs }

/-- A plane with records. -/
def planeWith (rs : List TileRec) : Plane := { desc := 0, width := 2, ecol := 0, erow := 1, fifo := 0, recs := rs }

/-- Region 1 of folio 0 in columns 0 and 1, its data phase running. -/
def running (rs : List TileRec) : Region :=
  { Region.reset with width := 2, active := some (planeWith rs), phase := .running, inv := some .stream, invNo := 1 }

/-- A field whose tile of row r is x. -/
def fieldS (g : Region) (r : Nat) (x : FTile) : State := (base.setRegion 0 1 g).setFtile 0 0 r x

/-- A drain of the joint array of row 0 to its port. -/
def drainS (d : Word) (sent : Option Nat) : State :=
  (fieldS (running [recOf 3 0 4 []]) 0 FTile.reset).setArray 0 0
    { ganged with contribs := if sent.isSome then [] else (List.range 16).map fun p => (p, [⟨3, d, 0, 0⟩])
                  cfg := 0x10001000000, set0 := [(1, 0x3F800000)]
                  draining := sent.map fun n => { op := 1, set := 0, inv := none, sent := n } }

theorem test_joint_drains :
    ((drainS 0x20000 none).array 0 0).isReady = true ∧ (((drainS 0x20000 none).array 0 0).headOf 0).fn = 3 ∧
    (∀ p, p < 16 → (((drainS 0x20000 none).array 0 0).headOf p).common = (((drainS 0x20000 none).array 0 0).headOf 0).common) ∧
    bit (((drainS 5 none).array 0 0).headOf 0).d 17 = false ∧ ((drainS 5 none).array 0 0).isReady = true ∧
    (drainS 0x20000 none).regionAt 0 0 = some 1 ∧ drainPort 0 0 = (0, 0) ∧ ((drainS 0x20000 none).region 0 1).recAt 0 0 = some (recOf 3 0 4 []) ∧
    (recOf 3 0 4 []).drains = true ∧ ((drainS 0x20000 none).ftile 0 0 0).roomOut 0 = true ∧
    answers (.jointDrain 0 0) (drainS 0x20000 none) (fun t => (t.array 0 0).performed == 1 &&
      (t.array 0 0).draining == some { op := 1, set := 0, inv := none, sent := 0 }) = true ∧
    (drainS 0x20000 none).drainReceiver 0 1 ((drainS 0x20000 none).array 0 0) = none ∧
    answers (.jointDrain 0 0) (drainS 0x20000 (some 0)) (fun t => ((t.ftile 0 0 0).out 0).map (·.payload) == [0x3F80000000000000] &&
      (t.array 0 0).draining == some { op := 1, set := 0, inv := some 1, sent := 1 }) = true ∧
    answers (.jointDrain 0 0) (drainS 0x20000 (some 64)) (fun t => ((t.ftile 0 0 0).out 0).map (fun k => (k.kind, k.payload)) == [(.mark, 0)]) = true ∧
    ((drainS 0x20000 (some (65 * 128))).array 0 0).isReady = false ∧
    ((drainS 0x20000 (some (65 * 128))).array 0 0).drainToken 0 (65 * 128) = (.eos, 0) := by decide +kernel

/-- A drain of one entry to the sixteen members' tiles 5. -/
def drainT : State :=
  (upto 16).foldl (fun s k => s.setCore k ((s.core k).setTile 0 5 ⟨0x10000, 4096, .filling, false, []⟩)) (drainS 5 none)

theorem test_joint_drains_to_tiles :
    (drainT.array 0 0).isReady = true ∧ ((drainT.array 0 0).headOf 0).fn = 3 ∧ bit ((drainT.array 0 0).headOf 0).d 17 = false ∧
    (∀ p, p < 16 → ((drainT.array 0 0).headOf p).common = ((drainT.array 0 0).headOf 0).common) ∧
    (∀ p, p < 16 → ((drainT.core p).tile (drainT.array 0 0).ctx (bits ((drainT.array 0 0).headOf p).d 4 0)).st = .filling) ∧
    cfgLegal (drainT.array 0 0).cfg = true ∧ cfgOut (drainT.array 0 0).cfg = 0 ∧ outElement (drainT.array 0 0) 0 1 = 0x3F800000 ∧
    (∀ p, p < 16 → ((drainT.core p).tile 0 5).base + drainBytes 0 ≤ 262144) := by
  decide +kernel

/-! Floating point, predicates and vectors. -/

theorem test_float_results :
    Quiet (regs12 0x3FF0000000000000 0x4000000000000000) ∧
    floatResult (regs12 0x3FF0000000000000 0x4000000000000000) (.fAdd 3 1 2 .f64) = some (3, 0x4008000000000000, 0) ∧
    floatResult (regs12 0x3F800000 0x40400000) (.fDiv 3 1 2 .f32) = some (3, 0x3EAAAAAB, 1) ∧
    floatResult (regs12 0x7FC00000 0) (.fClt 3 1 2 .f32) = some (3, 0, 16) ∧ floatResult (regs12 5 0) (.fCvt 3 1 .i32 .f64) = some (3, 0x4014000000000000, 0) ∧
    answers (.fDiv 3 1 2 .f32) (regs12 0x3F800000 0x40400000) (fun t => t.rs 3 == 0x3EAAAAAB && t.th.fctl == 1 && t.th.pc == 4) = true := by
  unfold Quiet
  decide +kernel

theorem test_float_specials :
    FVal.of fp32 0x7F800001 = .nan false 1 true ∧ fAddBits fp32 0 0x7F800001 0x3F800000 = (0x7FC00001, 16) ∧
    FVal.of fp32 0x7F800000 = .inf false ∧ FVal.of fp32 0xFF800000 = .inf true ∧ fAddBits fp32 0 0x7F800000 0xFF800000 = (0x7FC00000, 16) ∧
    (FVal.of fp32 0x80000000).isZero = true ∧ fMulBits fp32 0 0x7F800000 0x80000000 = (0x7FC00000, 16) ∧
    fDivBits fp32 0 0 0x80000000 = (0x7FC00000, 16) ∧ fDivBits fp32 0 0x7F800000 0xFF800000 = (0x7FC00000, 16) ∧
    FVal.of fp32 0x3F800000 = .fin false 8388608 (-23) ∧ fDivBits fp32 0 0x3F800000 0x80000000 = (0xFF800000, 8) ∧
    FVal.of fp64 0xBFF0000000000000 = .fin true 4503599627370496 (-52) ∧ fSqrtBits fp64 0 0xBFF0000000000000 = (0x7FF8000000000000, 16) := by
  decide +kernel

/-- The remaining cases of R136 and R137: a NaN as second operand, differences, zero times infinity, and FMA. -/
theorem test_float_specials_more :
    (FVal.of fp32 0x3F800000).isNaN = false ∧ fSubBits fp32 0 0x3F800000 0xFF800001 = (0xFFC00001, 16) ∧
    fDivBits fp32 0 0x7F800000 0x7FC00005 = (0x7FC00005, 0) ∧ fMulBits fp32 0 0x80000000 0x7F800000 = (0x7FC00000, 16) ∧
    fSubBits fp32 0 0x7F800000 0x7F800000 = (0x7FC00000, 16) ∧ fSubBits fp32 0 0x7F800000 0xFF800000 = (0x7F800000, 0) ∧
    fAddBits fp32 0 0xFF800000 0x3F800000 = (0xFF800000, 0) ∧ fSqrtBits fp32 0 0xFF800000 = (0x7FC00000, 16) ∧
    fSqrtBits fp32 0 0x7F800003 = (0x7FC00003, 16) ∧
    fFmaBits fp32 0 0x7FC00001 0x3F800000 0x7F800002 = (0x7FC00001, 16) ∧ fFmaBits fp32 0 0x3F800000 0x7FC00003 0 = (0x7FC00003, 0) ∧
    fFmaBits fp32 0 0 0x7F800000 0x7FC00004 = (0x7FC00004, 16) ∧ fFmaBits fp32 0 0x3F800000 0x3F800000 0x7FC00004 = (0x7FC00004, 0) ∧
    fFmaBits fp32 0 0x7F800000 0 0 = (0x7FC00000, 16) ∧ fFmaBits fp32 0 0x7F800000 0x3F800000 0xFF800000 = (0x7FC00000, 16) ∧
    fFmaBits fp32 0 0x7F800000 0xBF800000 0 = (0xFF800000, 0) ∧ fFmaBits fp32 0 0x3F800000 0 0xFF800000 = (0xFF800000, 0) ∧
    fFmaBits fp32 0 0 0xBF800000 0x40000000 = (0x40000000, 0) ∧ fFmaBits fp32 0 0 0xBF800000 0 = (0, 0) ∧
    fFmaBits fp32 3 0 0xBF800000 0 = (0x80000000, 0) ∧ fFmaBits fp32 0 0 0xBF800000 0x80000000 = (0x80000000, 0) := by
  decide +kernel

theorem test_predicate_results :
    Quiet (regs12 (-1) 1) ∧ predResult (regs12 (-1) 1) (.pcmp 3 .lt 1 2) = some (3, BitVec.allOnes 64) ∧
    predResult (regs12 (-1) 1) (.pcmp 3 .ltn 1 2) = some (3, 0) ∧ predResult base (.plAndn 2 0 1) = some (2, BitVec.allOnes 64) ∧
    answers (.pcmp 3 .lt 1 2) (regs12 (-1) 1) (fun t => t.th.rp 3 == BitVec.allOnes 64 && t.th.pc == 4) = true ∧
    answers (.plNot 0 1) base (fun t => t.th.rp 0 == BitVec.allOnes 64 && t.th.pc == 4) = true ∧
    decodeTableWord 32 (0x53 + 3 * 2 ^ 7 + 5 * 2 ^ 10 + 1 * 2 ^ 13 + 2 * 2 ^ 19) = some (.pcmp 3 .gen 1 2) ∧
    decodeTableWord 32 (0x53 + 3 * 2 ^ 7 + 6 * 2 ^ 10 + 1 * 2 ^ 13 + 2 * 2 ^ 19) = none ∧
    decodeTableWord 32 (0x53 + 3 * 2 ^ 7 + 5 * 2 ^ 10 + 1 * 2 ^ 13 + 2 * 2 ^ 19 + 2 ^ 25) = none := by
  unfold Quiet
  decide +kernel

/-- Vectors 1 and 2, all lanes equal, and predicate 1. -/
def vecS (x y w : Nat) (p : Word) : State :=
  base.setTh { ((base.th.wv 1 (BitVec.ofNat 512 (packLanes w (List.replicate (512 / w) x))) 0).wv 2
    (BitVec.ofNat 512 (packLanes w (List.replicate (512 / w) y))) 0) with p := base.th.p.set 1 p }

theorem test_vector_lanes :
    Quiet (vecS 0x7F 1 8 0xFF) ∧ Instr.wellFormed (.vAdd 3 1 2 1 .i8) = true ∧
    (laneForm (vecS 0x7F 1 8 0xFF) (.vAdd 3 1 2 1 .i8)).elim 0 (fun x => (x.lane 63).1) = 128 ∧
    answers (.vAdd 3 1 2 1 .i8) (vecS 0x7F 1 8 0xFF) (fun t => t.th.rv 3 == 0x8080808080808080 && t.th.pc == 4) = true ∧
    answers (.vSfRcp 3 1 1) (vecS 0x40000000 0 32 0xFF0) (fun t => t.th.rv 3 == 0x3F0000003F00000000000000) = true ∧
    answers (.vPerm 3 1 2 0 .w64) (vecS 5 9 64 0) (fun t => laneOf 64 (t.th.rv 3) 7 == 5) = true := by
  unfold Quiet
  decide +kernel

theorem test_vector_others :
    Quiet (vecS 1 2 32 0xFF0) ∧
    answers (.vCmp 2 1 2 1 .i32 .lt) (vecS 1 2 32 0xFF0) (fun t => t.th.rp 2 == 0xFF0 && t.th.pc == 4) = true ∧
    answers (.vCvt 3 1 1 .f32 .i32) (vecS 0x3FC00000 2 32 0xF) (fun t => t.th.rv 3 == 2 && t.th.fctl == 1) = true ∧
    answers (.vCvt 3 1 1 .i32 .f64) (vecS 1 2 32 0xFF) (fun t => t.th.rv 3 == 0x3FF0000000000000) = true ∧
    reduceForm (.vRedAdd 3 1 1 .i32) ≠ none ∧
    answers (.vRedAdd 3 1 1 .i32) (vecS 1 2 32 0xFF0) (fun t => t.th.rv 3 == 2) = true ∧
    answers (.vRedAdd 3 1 0 .f32) (vecS 0x3F800000 2 32 0) (fun t => t.th.rv 3 == 0x41800000) = true ∧
    answers (.vMovMovs 1 5 7 .w64) (vecS 9 2 64 0) (fun t => t.rs 5 == 9) = true ∧
    answers (.vMovP2s 1 5) (vecS 9 2 64 0xF0) (fun t => t.rs 5 == 0xF0) = true := by
  unfold Quiet
  decide +kernel

/-- Vector 1 holds the indexes 0, 1, 2 and so on of words; 64 bytes at 0x140, stores of the pair at 0x180. -/
def vmemS (p : Word) : State :=
  let s := withRegs (withBytes base 0x14140 ((List.range 64).map (· + 1))) [(2, 0x140)]
  s.setTh { (s.th.wv 1 (BitVec.ofNat 512 (packLanes 32 (List.range 16))) 0) with p := s.th.p.set 1 p }

theorem test_vector_accesses :
    Quiet (vmemS 0x0F) ∧ okWith ((vmemS 0x0F).vsite .load 0x140) (fun r => r.1.key == 0x14140 && r.1.kind == 0 &&
      (List.range 64).all fun k => !(r.2.meets r.1).poisoned (r.1.key + k) 1) = true ∧
    answers (.vLd 3 2 1 .plain .thread 0) (vmemS 0x800000000000000F) (fun t => t.th.rv 3 == 0x4000000000000000 * 2 ^ 448 + 0x04030201 && t.th.pc == 4) = true ∧
    okWith ((vmemS 0x0F).vsite .store 0x180) (fun r => !(r.2.meets r.1).partPoison ((activeBytes 0x0F).map (r.1.key + ·)) &&
      okWith (r.2.releaseIf .release .quire) (fun _ => true)) = true ∧
    answers (.vSt 1 2 1 .release .quire 1) (vmemS 0x3C) (fun t => (t.core 0).wbuf.map Pending.cells ==
      [[(0x14182, 0), (0x14183, 0), (0x14184, 1), (0x14185, 0)]] && t.th.pc == 4) = true ∧
    answers (.vSt 1 2 1 .plain .thread 1) (vmemS 0) (fun t => (t.core 0).wbuf == [] && t.th.pc == 4) = true ∧
    okWith (State.laneSites .load 4 ((vmemS 0xF0F).eaLane 2 1 false) ((vmemS 0xF0F).activeLanes 1 false) (vmemS 0xF0F)) (fun r =>
      okWith (State.laneLoads 4 0 r.1 r.2) (fun x => x.1.length == 2)) = true ∧
    answers (.vLdx 3 1 1 2 false) (vmemS 0xF0F) (fun t => t.th.rv 3 == 0x0C0B0A090000000004030201 && t.th.pc == 4) = true ∧
    okWith (State.laneSites .store 4 ((vmemS 0xF0F).eaLane 2 1 false) ((vmemS 0xF0F).activeLanes 1 false) (vmemS 0xF0F)) (fun r =>
      okWith (State.laneStores 4 (laneOf 32 ((vmemS 0xF0F).rv 1)) r.1 r.2) (fun _ => true)) = true ∧
    answers (.vStx 1 1 1 2 false) (vmemS 0xF0F) (fun t => (t.core 0).wbuf.map (fun e => e.cells.map (·.1)) ==
      [[0x14140, 0x14141, 0x14142, 0x14143], [0x14148, 0x14149, 0x1414A, 0x1414B]]) = true := by
  unfold Quiet
  decide +kernel

/-- V.LDX of 8-byte elements from the FIFO of fifoS, lanes 0 and 1 active: both pop, or the load waits at the FIFO. -/
def popS (entries : List Word) : State := (fifoS ⟨entries, []⟩).setTh { (fifoS ⟨entries, []⟩).th with p := base.th.p.set 1 0xFFFF }

theorem test_vector_pops :
    Quiet (popS [5, 6]) ∧ okWith (State.laneSites .load 8 ((popS [5, 6]).eaLane 2 1 true) ((popS [5, 6]).activeLanes 1 true) (popS [5, 6]))
      (fun r => r.2.lanePops 8 r.1 == [16, 16] && r.2.mayPop 16 2 &&
        okWith (State.laneLoads 8 0 r.1 (r.2.unlistLoads 0)) fun x => x.1 == [(0, 5), (1, 6)]) = true ∧
    answers (.vLdx 3 1 1 2 true) (popS [5, 6]) (fun t => t.th.rv 3 == 5 + 6 * 2 ^ 64 && (t.fifoAt 16).entries == [] && t.th.pc == 4) = true ∧
    answers (.vLdx 3 1 1 2 true) (popS [5]) (fun t => t.th.wait == .retry && (t.fifoAt 16).loads == [0] && (t.fifoAt 16).entries == [5] &&
      t.th.pc == 0) = true := by
  unfold Quiet
  decide +kernel


/-! Calls, traps and system registers. -/

/-- A context with a pool of one frame at 0x600 behind the header at 0x400, vectors allowed or not. -/
def poolS (head vec : Nat) : State :=
  let s := withBytes base 0x14400 ((leBytes 8 head ++ leBytes 8 7 ++ leBytes 8 vec ++ leBytes 8 (5 * 2 ^ 16 + 3)).map (·.toNat))
  { s.setCtx 0 { s.ctx 0 with framePool := 0x400 } with
    tlbs := [{ core := 0, ctx := 0, page := 0, bits := 12, pte := 0x1409F }, { core := 3072, ctx := 0, page := 0, bits := 12, pte := 0x1409F }] }

/-- A call through register 2 to the signature descriptor at 0x4C0, whose FIFO is a number. -/
def crossS (head vec fifo : Nat) : State :=
  withRegs (withBytes (poolS head vec) 0x144D0 [fifo]) [(2, 0x40000000000004C0), (6, 0x700), (8, 11)]

theorem test_calls_and_jumps :
    Quiet (regs12 0 0x40) ∧ tagOf 0x40 = 0 ∧ (targetOf 0x40).toNat % 4 = 0 ∧
    answers (.call 1 (-1)) base (fun t => t.rs 1 == 4 && t.th.pc == -4) = true ∧
    answers (.callr 1 2 8) (regs12 0 0x40) (fun t => t.rs 1 == 4 && t.th.pc == 0x40) = true ∧
    answers (.callrV 1 2 0) (regs12 0 0x42) (fun t => t.th.dcause == 3 && t.th.trapVal == 0x42) = true ∧
    answers (.callr 1 2 0) (regs12 0 0x8000000000000040) (fun t => t.th.dcause == 1) = true ∧
    answers (.callr 1 2 0) (regs12 0 0x4000000000000020) (fun t => t.th.dcause == 3) = true ∧
    okWith ((crossS 0x600 1 1).release .device) (fun s => okWith (s.calleeFifo 0x4C0) (fun n => n.1 == 1 &&
      okWith (n.2.popFrame 0 true).1 (fun r => r == 0x600))) = true ∧
    answers (.callr 1 2 1) (crossS 0x600 1 1) (fun t => t.th.wait == .crossing 0x600 && t.th.pc == 4 && t.rs 1 == 4 &&
      wordAt t.mem 0x14608 == 4 && wordAt t.mem 0x14610 == 0x700 && wordAt t.mem 0x14640 == 11 && wordAt t.mem 0x14820 == 0x600) = true ∧
    okWith ((crossS 0 1 1).release .device) (fun s => okWith (s.calleeFifo 0x4C0) (fun n => (n.2.popFrame 0 false).1 matches .error 0)) = true ∧
    answers (.callr 1 2 1) (crossS 0 1 1) (fun t => t.th.dcause == 0x13 && t.th.trapVal == 0) = true ∧
    answers (.callrV 1 2 1) (crossS 0x600 0 1) (fun t => t.th.dcause == 0x13 && t.th.trapVal == 1) = true ∧
    answers (.callr 1 2 1) (crossS 0x600 0 0) (fun t => t.th.dcause == 1) = true ∧
    answers (.jr 2) (regs12 0 0xC000000000000044) (fun t => t.th.pc == 0x44) = true ∧
    answers (.ret 2) (regs12 0 0x46) (fun t => t.th.dcause == 3 && t.th.trapVal == 0x46) = true ∧
    answers (.ret 2) (regs12 0 0x8000000000000600) (fun t => t.th.dcause == 1) = true ∧
    (withWork (regs12 0 0x8000000000000600) (.callback 0x600)).gangMember 0 = false ∧
    answers (.ret 2) (withWork (regs12 0 0x8000000000000600) (.callback 0x600)) (fun t => (t.thr 0).work == .free && t.returns == [(0, 0x600)]) = true := by
  unfold Quiet
  decide +kernel

/-- Two cached translations of context 0 and one of context 1. -/
def xlS : State :=
  { inSuper (regs12 0 0x1000) with
    tlbs := [{ core := 0, ctx := 0, page := 1, bits := 12, pte := 0x9F }, { core := 9, ctx := 0, page := 2, bits := 12, pte := 0x9F },
      { core := 0, ctx := 1, page := 1, bits := 12, pte := 0x9F }] }

theorem test_system_instructions :
    answers (.trap 63) base (fun t => t.th.halted && t.th.trapCause == 0x14 && t.th.trapVal == 63 && t.th.trapPc == 4) = true ∧
    answers .brk base (fun t => t.th.dcause == 0x0C && t.th.trapVal == 4 && t.th.trapPc == 0) = true ∧
    answers .illegalInstruction base (fun t => t.th.dcause == 1) = true ∧
    ((base.setTh { base.th with pc := 0x1000 }).fetchInstr.1 matches .fault 0x04 0x1000) = true ∧
    answers .instructionFetchFault (base.setTh { base.th with pc := 0x1000 }) (fun t => t.th.dcause == 4 && t.th.trapVal == 0x1000) = true ∧
    base.th.mode = .user ∧ answers .eret base (fun t => t.th.dcause == 2) = true ∧ (inSuper base).th.mode = .supervisor ∧
    answers .eret ((inSuper base).setTh { (inSuper base).th with trapPc := 0x44 }) (fun t => t.th.mode == .user && t.th.pc == 0x44) = true ∧
    Quiet base ∧ answers .isync (base.setTh { base.th with ibuf := [(0, 1)] }) (fun t => t.th.ibuf == [] && t.th.pc == 4) = true ∧
    answers .yield base (fun t => t.th.yielded && t.th.pc == 4) = true ∧
    answers (.xlInvVa 2) base (fun t => t.th.dcause == 2) = true ∧ answers .xlInvCtx base (fun t => t.th.dcause == 2) = true ∧
    answers .xlSync base (fun t => t.th.dcause == 2) = true ∧ xlS.th.mode = .supervisor ∧ canonical (xlS.rs 2) = true ∧
    answers (.xlInvVa 2) xlS (fun t => t.tlbs.map (fun e => (e.ctx, e.page)) == [(0, 2), (1, 1)] && t.th.removed == [some 0x1000] && t.th.pc == 4) = true ∧
    canonical ((inSuper (regs12 0 0x0080000000000000)).rs 2) = false ∧
    answers (.xlInvVa 2) (inSuper (regs12 0 0x0080000000000000)) (fun t => t.th.removed == [] && t.th.pc == 4) = true ∧
    answers .xlInvCtx xlS (fun t => t.tlbs.map (fun e => (e.ctx, e.page)) == [(1, 1)] && t.th.pc == 4) = true ∧
    (xlS.setTh { xlS.th with removed := [none] }).heldThrough 0 [none] = false ∧ xlS.fifoThrough 0 [none] = false ∧
    xlS.pinnedBy 0 (anyCovers [none]) = false ∧
    answers .xlSync (xlS.setTh { xlS.th with removed := [none] }) (fun t => t.th.removed == [] && t.th.pc == 4) = true := by
  unfold Quiet
  decide +kernel

/-- The base thread with STEP set, halting with MODE. -/
def stepS (ctl : BitVec 7) (vec : Word) : State :=
  let s := regs12 5 6
  (s.setCtx 0 { s.ctx 0 with trapvec := vec }).setTh { s.th with stepctl := ctl }

theorem test_trap_entries :
    base.th.mode = .user ∧ (stepS 1 0x100).th.stepping = true ∧ (stepS 1 0x100).th.stepHalts = false ∧ (stepS 3 0x100).th.stepHalts = true ∧
    intResult (stepS 1 0x100) (.add 3 1 2) = some (3, 11) ∧
    answers (.add 3 1 2) (stepS 1 0x100) (fun t => t.rs 3 == 11 && t.th.pc == 0x100 && t.th.trapPc == 4 && t.th.trapCause == 0x0D &&
      t.th.mode == .supervisor && t.th.trapPost) = true ∧
    answers (.add 3 1 2) (stepS 3 0x100) (fun t => t.rs 3 == 11 && t.th.halted && t.th.pc == 4 && t.th.mode == .user) = true ∧
    answers .brk (stepS 0 0x100) (fun t => t.th.pc == 0x100 && t.th.mode == .supervisor && t.th.trapPc == 0 && t.th.dcause == 0) = true ∧
    answers .brk (inSuper (stepS 0 0x100)) (fun t => t.th.halted && t.th.trapDbl && t.th.dcause == 0x0C && t.th.pc == 0) = true := by decide +kernel

/-- Registers 1 and 2, in supervisor mode. -/
def supS (x y : Word) : State := inSuper (regs12 x y)

theorem test_system_registers :
    Quiet base ∧ Quiet (supS 0 0) ∧ accessCause true false 0x010 = some 2 ∧ accessCause true true 0x001 = some 1 ∧ accessCause false false 0x7FF = some 1 ∧
    answers (.sysr 3 0x010) base (fun t => t.th.dcause == 2) = true ∧ answers (.sysw 2 0x001) base (fun t => t.th.dcause == 1) = true ∧
    accessCause true false 0x003 = none ∧ answers (.sysr 3 0x004) (base.setTh { base.th with fctl := 3 }) (fun t => t.rs 3 == 0 && t.th.pc == 4) = true ∧
    held base.th 0x002 = some 0 ∧ accessCause true true 0x000 = none ∧ refusedValue 0x000 0xA0 = true ∧ refusedValue 0x000 0x9F = false ∧
    answers (.sysx 3 2 0x000) (regs12 0 0xA0) (fun t => t.th.dcause == 1) = true ∧
    answers (.sysx 3 2 0x000) (regs12 0 0x9F) (fun t => t.rs 3 == 0 && t.th.fctl == 0x9F && t.th.pc == 4) = true ∧
    (written base.th 0x000 0x9F).isSome = true ∧ refusedValue 0x024 0x0080000000000000 = true ∧
    answers (.sysw 2 0x024) (supS 0 0x0080000000000000) (fun t => t.th.dcause == 1) = true ∧
    answers (.sysw 2 0x024) (supS 0 0x47) (fun t => t.th.brk[3] == 0x44 && t.th.pc == 4) = true ∧
    answers (.sysr 3 0x016) ((supS 0 0).setTh { (supS 0 0).th with trapSub := 5, trapKind := 1, dcause := 3 }) (fun t => t.rs 3 == 0x30510) = true ∧
    answers (.sysr 3 0x040) ((supS 0 0).setQuire 0 { base.quire 0 with qflags := [(0, 9)] }) (fun t => t.rs 3 == 9) = true ∧
    answers (.sysw 2 0x016) (supS 0 0x5D2) (fun t => t.th.trapSub == 5 && t.th.trapFrec && t.th.trapKind == 5 && t.th.trapPost) = true ∧
    answers (.sysw 2 0x010) (supS 0 0x44) (fun t => t.myCtx.trapvec == 0x44 && t.th.pc == 4) = true ∧
    answers (.sysw 2 0x060) (supS 0 0x400) (fun t => t.myCtx.framePool == 0x400 && t.th.pc == 4) = true ∧
    ((supS 0 0xD4).core 0).switching = none ∧ bits (0xD4 : Word) 7 0 = 192 + 16 + 4 ∧
    answers (.sysw 2 0x041) (supS 0 0xD4) (fun t => t.th.pc == 4 && (t.core 0).switching == none) = true ∧
    okWith ((supS 0 0xC8).bankCheck 0 1 2) (fun _ => true) = true ∧ okWith ((supS 0 0xC8).bankCheck 0 2 0) (fun _ => true) = true ∧
    answers (.sysw 2 0x041) (supS 0 0xC8) (fun t => t.th.wait == .bank 0 && t.th.pc == 0 && (t.core 0).switching == some (0, 2, 0, 0)) = true ∧
    answers (.bankSwitchDone 0) (let s := base.setCore 0 { base.core 0 with role1 := 2, switching := some (0, 1, 1, 0) }
        (withBytes s (2 ^ 52 + 0x10008) [5]).setTh { s.th with wait := .bank 0 }) (fun t =>
      (t.core 0).role1 == 1 && (t.core 0).switching == none && t.th.pc == 4 && byteAt t.mem (2 ^ 52 + 0x10008) == 0) = true ∧
    answers (.qflagsUpdate 0 0) (base.setTh { base.th with fctl := 3 }) (fun t => tget 0 (t.quire 0).qflags 0 == 3) = true ∧
    base.present 0 = true ∧ answers (.rampRateUpdate 0 7) base (fun t => (t.quire 0).rampSlots == 7) = true := by
  unfold Quiet
  decide +kernel

/-- Refused and awaited writes of BANKROLE: the reserved field, a reserved role, a tile, a FIFO with an entry and a pool in a bank that
changes, and a switch under way. -/
def roleS (v : Word) (f : State → State) : State := f (supS 0 v)

theorem test_bank_roles :
    bankRefusal (supS 0 0x14) 0 0x14 = some (1, 3) ∧ answers (.sysw 2 0x041) (supS 0 0x14) (fun t => t.th.dcause == 1 && t.th.halted) = true ∧
    bankRefusal (supS 0 0xF4) 0 0xF4 = some (1, 2) ∧
    bankRefusal (roleS 0xD8 fun s => s.setCore 0 ((s.core 0).setTile 3 5 ⟨0x10000, 64, .empty, false, []⟩)) 0 0xD8 = some (7, 5) ∧
    answers (.sysx 3 2 0x041) (roleS 0xD8 fun s => s.setCore 0 ((s.core 0).setTile 3 5 ⟨0x10000, 64, .empty, false, []⟩)) (fun t =>
      t.th.dcause == 7 && t.th.halted && t.rs 3 == 0) = true ∧
    bankRefusal (roleS 0xD4 fun s => (s.setCore 0 { s.core 0 with role1 := 2 }).setFifoAt 16 ⟨[], [1]⟩) 0 0xD4 = some (1, 1) ∧
    bankRefusal (roleS 0xD8 fun s => s.setCtx 5 { s.ctx 5 with live := true, pools := [⟨0, 0x10000, 2⟩] }) 0 0xD8 = some (1, 1) ∧
    bankRefusal (supS 0 0xD4) 0 0xD4 = none ∧ roleIn 0xD4 1 = 1 ∧ ((supS 0 0xD4).core 0).role 1 = 1 ∧
    answers (.sysw 2 0x041) (roleS 0xD8 fun s => s.setCore 0 { s.core 0 with switching := some (0, 2, 1, 1) }) (fun t =>
      t.th.wait == .retry && t.th.pc == 0) = true ∧
    answers (.sysw 2 0x070) (supS 0 (5 + 900 * 2 ^ 12)) (fun t => (t.quire 0).rampUp == 800 && (t.quire 0).rampDown == 900 && t.th.pc == 4) = true ∧
    answers (.bankSwitchDone 0) (let s := base.setCore 0 { base.core 0 with role1 := 2, switching := some (1, 1, 1, 0) }
        (withBytes s (2 ^ 52 + 8) [5]).setTh { s.th with wait := .bank 0 }) (fun t =>
      (t.core 0).role0 == 1 && byteAt t.mem (2 ^ 52 + 8) == 0) = true := by
  decide +kernel

/-! Gain heaps and sequence units. -/

/-- A heap over quire 0, bound to launch 0. -/
def heap0 : HeapBinding :=
  { desc := 0x300, template := 0x40, tpayload := 77, floor := 0, tol := 0, map := List.replicate 32 0, dumpAddr := 0, dumpCap := 0
    bound := true, ended := false, wave := none }

/-- An engine with the value 1.0 of key 5 stored and 2.0 of key 9 running. -/
def eng0 : HeapEng :=
  { HeapEng.reset with launch := some 0, entries := [⟨5, 0x3F800000, 50⟩], running := [⟨9, 0x40000000, 90⟩], acc := absUnits 0x3F800000 + absUnits 0x40000000 }

theorem test_key_operations :
    ResidualExact eng0 ∧
    okWith (eng0.keyOp .add 5 0xBF800000 0 0) (fun r => r.1.entries == [] && r.2 == 0 && r.1.acc == absUnits 0x40000000) = true ∧
    okWith (eng0.keyOp .set 9 0 0 0) (fun r => r.2 == 0x140000000 && (hget r.1.running 9).isSome) = true ∧
    okWith (eng0.keyOp .push 7 0x40400000 8 3) (fun r => r.1.entries == [⟨5, 0x3F800000, 50⟩, ⟨7, 0x40400000, 8⟩] && bit r.2 33) = true ∧
    okWith (eng0.keyOp .push 7 0xC0400000 8 3) (fun r => valueOf r.1 7 == 0xC0400000 && bit r.2 33 && r.1.acc == eng0.acc + absUnits 0x40400000) = true ∧
    okWith (eng0.keyOp .set 9 0xBF800000 0 0) (fun r => valueOf r.1 9 == 0xBF800000 && !bit r.2 33 && bit r.2 32) = true ∧
    okWith (eng0.keyOp .set 7 0x80000000 0 0) (fun r => r.1 == eng0 && r.2 == 0) = true := by
  unfold ResidualExact
  decide +kernel

/-- A thread at a heap task of key 9, or a WID of the launch; registers 1 to 4. -/
def heapS (w : Work) (a b d : Word) : State :=
  let s := withRegs (base.setLaunch 0 { launch2 with heap := some heap0, flags := launch2.flags ||| BitVec.ofNat 64 (2 ^ 43) }) [(1, a), (2, b), (3, d)]
  (s.setEng 0 eng0).setTh { s.th with work := w }

theorem test_heap_instructions :
    Quiet (heapS (.wid 0 0) 0 0 0) ∧ (heapS (.wid 0 0) 0 0 0).myHeap = some (0, heap0) ∧ keyForm (.ghAdd 3 1 2 true) ≠ none ∧
    answers (.ghAdd 3 1 2 true) (heapS (.wid 0 0) 5 0x3F800000 0) (fun t => t.rs 3 == 0x40000000 && t.th.pc == 4 &&
      (t.eng 0).entries == [⟨5, 0x40000000, 50⟩]) = true ∧
    answers (.ghPush 3 1 2 false) (heapS (.wid 0 0) 0xFFFFFFFF 0x3F800000 8) (fun t => t.rs 3 == 8 && (t.eng 0).entries.length == 2) = true ∧
    answers (.ghSet 3 1 2 false) (heapS (.wid 0 0) 0x100000000 0 0) (fun t => t.th.dcause == 1 && t.th.trapVal == 0x100000000) = true ∧
    (heapS (.heapTask 0 9 false) 0 0 0).th.work = .heapTask 0 9 false ∧
    answers (.ghDone true) (heapS (.heapTask 0 9 false) 0 0 0) (fun t => t.th.work == .heapTask 0 9 true && (t.eng 0).running == [] &&
      (t.eng 0).entries.length == 2 && t.th.pc == 4) = true ∧
    CanEnd ((heapS (.heapTask 0 9 false) 0 0 0).eng 0) 9 ∧ answers (.ghDone false) (heapS (.heapTask 0 9 true) 0 0 0) (fun t => t.th.dcause == 1) = true ∧
    answers (.ghDone false) (heapS (.wid 0 0) 0 0 0) (fun t => t.th.dcause == 1) = true ∧
    answers (.ghSum 3 1) (heapS (.wid 0 0) 1 0 0) (fun t => t.rs 3 == 0x4008000000000000) = true ∧
    heap0.quires = [0] ∧ answers (.ghSum 3 1) (heapS (.wid 0 0) 0 0 0) (fun t => t.rs 3 == 0x4008000000000000) = true ∧
    badFp32 0x7F7FFFFF = false ∧ answers (.ghCfg 1 2) (heapS (.wid 0 0) 0 0x7F7FFFFF 0) (fun t => (t.eng 0).floor == 0x7F7FFFFF && t.th.pc == 4) = true ∧
    bits (0x7FEFFFFFFFFFFFFF : Word) 62 52 ≠ 2047 ∧
    answers (.ghCfg 1 2) (heapS (.wid 0 0) 1 0x7FEFFFFFFFFFFFFF 0) (fun t => (t.eng 0).tol == 0x7FEFFFFFFFFFFFFF && t.th.pc == 4) = true ∧
    okWith ((heapS (.wid 0 0) 0x180 2 0).dumpStores 0x180 (((heapS (.wid 0 0) 0x180 2 0).dumpRecords heap0).take 2)) (fun _ => true) = true ∧
    answers (.ghDump 3 1 2) (heapS (.wid 0 0) 0x180 1 0) (fun t => t.rs 3 == 2 && natAt t.mem 0x14180 16 == 0x3F80000000000005) = true := by
  unfold Quiet CanEnd
  decide +kernel

/-- A bookmark on the pattern of one token. -/
def bm5 (action : Nat) (trap : Bool) : Bookmark :=
  { Bookmark.reset with armed := true, action := action, trap := trap, len := 1, pat := [5, 0, 0, 0, 0, 0, 0, 0], forced := [8] }

/-- Record 2 of folio 0 open for context 0 with one bookmark; registers 1 and 2, tokens 4, 5, 6 in vector 1. -/
def seqS (a b : Word) (bm : Bookmark) : State :=
  let s := regs12 a b
  let s := s.setTh (s.th.wv 1 (BitVec.ofNat 512 (packLanes 32 [4, 5, 6])) 0)
  s.setSeqRec 0 2 ({ SeqRec.fresh 0 with gen := 3 }.setBm 7 bm)

/-- The descriptor of that bookmark at 0x140, an injection of the token at 0x1C0 or a notification there. -/
def descS (action : Nat) : State :=
  let w0 : Nat := action * 4 + 128 + (if action = 3 then 2 ^ 21 else 0)
  let addr : Nat := if 3 ≤ action then 0x1C0 else 0
  withBytes (seqS (0xC002 + 7 * 2 ^ 20) 0x140 Bookmark.reset) 0x14140
    ((leBytes 8 w0 ++ leBytes 8 0 ++ leBytes 8 5 ++ leBytes 24 0 ++ leBytes 8 addr ++ leBytes 8 0 ++ leBytes 64 0 ++ leBytes 4 9).map (·.toNat))

theorem test_sequence_records :
    Quiet (seqS 0 0 Bookmark.reset) ∧ (seqS 4 0 Bookmark.reset).freeSeq 0 0 16384 = some 0 ∧ folioOf (seqS 4 0 Bookmark.reset).myQuire = 0 ∧
    answers (.tkOpen 3 1) (seqS 4 0 Bookmark.reset) (fun t => t.rs 3 == 0 && (t.seqRec 0 0).isOpen && t.th.pc == 4) = true ∧
    answers (.tkOpen 3 1) (seqS 3 0 Bookmark.reset) (fun t => t.rs 3 == 0xC0000 && (t.seqRec 3 0).isOpen) = true ∧
    ((seqS 0xC003 0 Bookmark.reset).seqRec (idFolio 0xC003) (idRec 0xC003)).isOpen = false ∧
    answers (.tkRelease 1) (seqS 0xC003 0 Bookmark.reset) (fun t => t.th.dcause == 0x15 && t.th.trapVal == 0xC003) = true ∧
    okWith ((seqS 0xC002 0 Bookmark.reset).liveSeq 0xC002) (fun r => r.gen == 3) = true ∧
    answers (.tkRelease 1) (seqS 0xC002 0 Bookmark.reset) (fun t => (t.seqRec 0 2) == { SeqRec.reset with gen := 4 } && t.th.pc == 4) = true ∧
    answers (.tkDisarm 1) (seqS (0xC002 + 2 ^ 27 + 2 ^ 28) 0 (bm5 1 false)) (fun t => !((t.seqRec 0 2).bm 7).armed && t.th.pc == 4) = true ∧
    answers (.tkBudget 1 2) (seqS (0xC002 + 3 * 2 ^ 20) (5 + 9 * 2 ^ 24) Bookmark.reset) (fun t => (t.seqRec 0 2).lo == [0, 0, 0, 5] &&
      (t.seqRec 0 2).hi == [0, 0, 0, 9] && t.th.pc == 4) = true ∧
    answers (.tkRead 3 1 2) (seqS 0xC002 20 (bm5 1 false)) (fun t => t.rs 3 == 2 ^ 16) = true := by
  unfold Quiet
  decide +kernel

theorem test_sequence_arms :
    okWith ((descS 1).armLoad 0x140 64 0) (fun r => descOk (wordsOf r.1) && (bookmarkOf (wordsOf r.1)).action == 1) = true ∧
    answers (.tkArm 1 2) (descS 1) (fun t => (t.seqRec 0 2).bm 7 == { bm5 1 false with forced := [] } && t.th.pc == 4) = true ∧
    answers (.tkArm 1 2) (descS 3) (fun t => ((t.seqRec 0 2).bm 7).forced == [9] && t.th.pc == 4) = true ∧
    answers (.tkArm 1 2) (descS 4) (fun t => ((t.seqRec 0 2).bm 7).addr == 0x1C0 && t.th.pc == 4) = true := by decide +kernel

theorem test_sequence_commits :
    Quiet (seqS 0x30C002 0 (bm5 1 false)) ∧ okWith (commitCount 0x30C002) (fun n => n == 3) = true ∧
    tokensOf ((seqS 0x30C002 0 (bm5 1 false)).rv (regOf 1)) 3 = [4, 5, 6] ∧
    answers (.tkPeek 3 1 1) (seqS 0x30C002 0 (bm5 1 false)) (fun t => t.rs 3 == 2 + 32 + 7 * 2 ^ 8 && (t.seqRec 0 2).pos == 0) = true ∧
    answers (.tkCommit 3 1 1) (seqS 0x30C002 0 (bm5 1 false)) (fun t => t.rs 3 == 2 + 32 + 7 * 2 ^ 8 && (t.seqRec 0 2).stopped && t.th.pc == 4) = true ∧
    answers (.tkCommit 3 1 1) (seqS 0x30C002 0 Bookmark.reset) (fun t => t.rs 3 == 3 && (t.seqRec 0 2).h == [6, 5, 4, 0, 0, 0, 0, 0]) = true ∧
    answers (.tkCommit 3 1 1) (seqS 0x30C002 0 (bm5 3 false)) (fun t => t.rs 3 == 2 + 96 + 7 * 2 ^ 8 + 2 ^ 12 && (t.seqRec 0 2).h == [8, 5, 4, 0, 0, 0, 0, 0]) = true ∧
    answers (.tkCommit 3 1 1) ((seqS 0x30C002 0 (bm5 1 true)).setCtx 0 { base.ctx 0 with trapvec := 0x100 }) (fun t =>
      t.th.pc == 0x100 && t.th.mode == .supervisor && t.th.trapCause == 0x0B && t.th.trapVal == 0xC002 + 2 * 2 ^ 20 + 7 * 2 ^ 52 && t.th.trapPc == 4) = true := by
  unfold Quiet
  decide +kernel

/-- A bookmark that forks, or that stores 77 at an address. -/
def fork5 (trap : Bool) : Bookmark := { bm5 2 trap with forced := [] }
def notify5 (va : Word) : Bookmark := { bm5 4 false with forced := [], addr := va, value := 77 }

theorem test_forks_and_notifies :
    (seqS 0x30C002 0 (fork5 false)).freeSeq 0 0 16384 = some 0 ∧
    answers (.tkCommit 3 1 1) (seqS 0x30C002 0 (fork5 false)) (fun t => t.th.pc == 4 && bits (t.rs 3) 4 0 == 2 &&
      (t.seqRec 0 0).isOpen && !(t.seqRec 0 0).stopped && (t.seqRec 0 0).pos == 2 && !((t.seqRec 0 0).bm 7).armed && (t.seqRec 0 2).pos == 2) = true ∧
    okWith ((seqS 0x30C002 0 (notify5 0x140)).release .system) (fun s => okWith (s.unitSite 0 .user .store 0 0x140) fun x => x.key == 0x14140) = true ∧
    answers (.tkCommit 3 1 1) (seqS 0x30C002 0 (notify5 0x140)) (fun t => t.th.pc == 4 && natAt t.mem 0x14140 8 == 77) = true ∧
    ((seqS 0x30C002 0 (notify5 0x5000)).unitSite 0 .user .store 0 0x5000 matches .error _) = true ∧
    answers (.tkCommit 3 1 1) ((seqS 0x30C002 0 (notify5 0x5000)).setCtx 0 { base.ctx 0 with trapvec := 0x100 }) (fun t =>
      t.th.pc == 0x100 && t.th.trapCause == 0x15 && t.th.trapVal == 0x5000 && t.th.trapPc == 4 && (t.seqRec 0 2).pos == 2) = true := by
  decide +kernel

theorem tget_seqs (v : SeqRec) (n a k : Nat) (h : a ≤ k) (g : k < a + n) :
    tget SeqRec.reset ((List.range' a n).map fun i => (i, v)) k = v := by
  induction n generalizing a with
  | zero => omega
  | succ n ih =>
    rw [List.range'_succ, List.map_cons]
    by_cases e : a = k
    · simp [tget, e]
    · simp only [tget]
      simp [e]
      exact ih (a + 1) (by omega) (by omega)

theorem freeSeq_none (s : State) (f n k : Nat) (h : ∀ i, n ≤ i → i < n + k → (s.seqRec f i).isOpen = true) :
    s.freeSeq f n k = none := by
  induction k generalizing n with
  | zero => rfl
  | succ k ih =>
    rw [State.freeSeq, if_pos (h n (Nat.le_refl n) (by omega))]
    exact ih (n + 1) fun i a b => h i (by omega) (by omega)

/-- Every record of folio 0 open: none is free. -/
def fullS : State := { seqS 4 0 Bookmark.reset with seqs := (List.range' 0 16384).map fun i => (i, SeqRec.fresh 0) }

theorem test_no_free_record : fullS.freeSeq 0 0 16384 = none :=
  freeSeq_none _ _ _ _ fun i _ h => by
    rw [State.seqRec, show fullS.seqs = (List.range' 0 16384).map fun i => (i, SeqRec.fresh 0) from rfl,
      tget_seqs _ _ _ _ (by omega) (by omega)]
    rfl


/-! The signature fields. -/

/-- Region 1 of folio 0 as given, registers 1 and 2; units reach page 0 and the page of the code. -/
def sgS (g : Region) (a b : Word) : State := (regs12 a b).setRegion 0 1 g

/-- A signature descriptor of a width at 0x140 whose image of 64 bytes at 0x180 has no record. -/
def sgDesc (g : Region) (w : Nat) : State :=
  withBytes (sgS g 1 0x140) 0x14140 ((leBytes 8 0x180 ++ leBytes 8 (64 + w * 2 ^ 32) ++ leBytes 48 0 ++ leBytes 8 (w * 2 ^ 16)).map (·.toNat))

/-- A thread that waits for a step of the region. -/
def waits (s : State) (w : Wait) : State := s.setTh { s.th with wait := w }

/-- The empty plane of the descriptor. -/
def plane0 : Plane := { desc := 0x140, width := 2, ecol := 0, erow := 0, fifo := 0, recs := [] }

/-- A region of width 2 that runs nothing. -/
def idle2 : Region := { Region.reset with width := 2 }

theorem test_region_configuration :
    Selects (sgS idle2 1 0) 1 0 1 0 ∧ okWith (((sgDesc idle2 2).drain 0).readDescriptor 0x140) (fun ws => planeOf 0x140 ws.1 == plane0) = true ∧
    (sgDesc idle2 2).waitersOf (.sgLoad 1) = [] ∧
    answers (.sgLoad 1 2) (sgDesc idle2 3) (fun t => t.th.dcause == 0x12 && t.th.trapVal == 8 && t.th.trapSub == 8) = true ∧
    answers (.sgLoad 1 2) (sgDesc idle2 2) (fun t => t.th.wait == .sgLoad 1 && t.th.pc == 0 && (t.region 0 1).shadow == .loading plane0 0x180 64 false) = true ∧
    answers (.sgLoad 1 2) (sgDesc { idle2 with shadow := .loading plane0 0x180 64 true } 2) (fun t => t.th.wait == .sgLoad 1 && t.th.pc == 0 &&
      (t.region 0 1).shadow == .loading plane0 0x180 64 true) = true ∧
    (waits (sgDesc { idle2 with shadow := .loading plane0 0x180 64 false } 2) (.sgLoad 1)).waitersOf (.sgLoad 1) = [0] ∧ Quiet base ∧
    answers (.imageLoadComplete 0 1) (waits (sgDesc { idle2 with shadow := .loading plane0 0x180 64 false } 2) (.sgLoad 1)) (fun t =>
      t.th.wait == .none && t.th.pc == 4 && (t.region 0 1).shadow == .complete plane0) = true ∧
    answers (.imageLoadComplete 0 1) ((waits (sgDesc { idle2 with shadow := .loading plane0 0x180 63 false } 2) (.sgLoad 1)).setCtx 0
        { base.ctx 0 with trapvec := 0x100 }) (fun t => t.th.trapCause == 0x12 && t.th.trapVal == 7 && t.th.mode == .supervisor &&
      (t.region 0 1).shadow == .none) = true ∧
    answers (.sgCommit 1) (sgS { idle2 with shadow := .complete plane0 } 1 0) (fun t => t.th.wait == .sgCommit 1 && t.th.pc == 0) = true ∧
    answers (.sgCommit 1) (sgS idle2 1 0) (fun t => t.th.dcause == 0x12 && t.th.trapVal == 0x0D) = true ∧
    (waits (sgS { idle2 with shadow := .complete plane0 } 1 0) (.sgCommit 1)).waitersOf (.sgCommit 1) = [0] ∧
    answers (.commitBroadcast 0 1) ((waits (sgS { idle2 with shadow := .complete plane0 } 1 0) (.sgCommit 1)).setFtile 0 1 35 { FTile.reset with eos := 3 })
      (fun t => t.th.wait == .none && t.th.pc == 4 && (t.region 0 1).active == some plane0 && t.ftile 0 1 35 == FTile.reset) = true := by
  unfold Selects Quiet
  decide +kernel

/-- A loader pattern of two words from 0x1C0. -/
def pat2 (storer : Bool) : Pattern :=
  { base := 0x1C0, esize := 8, dims := 1, indirect := false, storer := storer, scope := 0, counts := [2, 0, 0, 0], strides := [8, 0, 0, 0] }

/-- Its stream descriptor at 0x140, for port 40 of the region: column 0 of row 35. -/
def strS : State :=
  withBytes (sgS { idle2 with active := some { plane0 with recs := [recOf 3 35 2 []] } } 0xA01 0x140) 0x14140
    ((leBytes 8 0x1C0 ++ leBytes 8 3 ++ leBytes 8 2 ++ leBytes 8 0 ++ leBytes 8 8 ++ leBytes 24 0).map (·.toNat))

theorem test_streams_and_freezes :
    Quiet strS ∧ Selects strS 0xA01 0 1 40 ∧ okWith (strS.release .device) (fun s => okWith (s.readDescriptor 0x140) (fun ws =>
      (patternFault ws.1).isNone && Pattern.ofWords ws.1 == pat2 false)) = true ∧ (recOf 3 35 2 []).bySrc = true ∧ (recOf 3 35 2 []).storer = false ∧
    answers (.sgStream 1 2) strS (fun t => t.th.pc == 4 && (t.region 0 1).streams.map (fun x => (x.port, x.pattern)) == [(40, pat2 false)]) = true ∧
    Selects (sgS idle2 1 0) 1 0 1 0 ∧ answers (.sgSbar 1) (sgS idle2 1 0) (fun t => t.th.pc == 4) = true ∧
    answers (.sgWait 3 1 2) (sgS { idle2 with status := 5 } 1 0) (fun t => t.rs 3 == 5 && (t.region 0 1).status == 0 && t.th.pc == 4) = true ∧
    okWith ((sgS idle2 1 0x1C0).translate .store 0x1C0) (fun r => r.1.kind == 0) = true ∧ bit (BitVec.ofNat 64 (2 ^ 63 + 5) : Word) 63 = true ∧
    answers (.sgWait 3 1 2) (sgS { idle2 with status := BitVec.ofNat 64 (2 ^ 63 + 5) } 1 0x1C0) (fun t => t.rs 3 == BitVec.ofNat 64 (2 ^ 63 + 5) &&
      wordAt t.mem 0x141C0 == BitVec.ofNat 64 (2 ^ 63 + 5) && t.th.pc == 4) = true ∧
    answers (.sgFreeze 1) (sgS { idle2 with debug := true } 1 0) (fun t => (t.region 0 1).frozen && t.th.pc == 4) = true ∧
    answers (.sgFreeze 1) (sgS idle2 1 0) (fun t => t.th.dcause == 0x12 && t.th.trapVal == 0x0F) = true ∧
    answers (.sgThaw 1) (sgS { idle2 with frozen := true } 1 0) (fun t => !(t.region 0 1).frozen && t.th.pc == 4) = true := by
  unfold Quiet Selects
  decide +kernel

/-- The scoreboard of port 40 with four commands, and a thread that waits with the pattern it copied. -/
def busyS (k : Nat) (w : Wait) : State :=
  let x : Stream := { thread := 9, port := 40, pattern := pat2 false, num := 0, cycle := 0 }
  let g := strS.region 0 1
  (waits strS w).setRegion 0 1 { g with streams := List.replicate k x }

theorem test_full_scoreboards :
    Quiet (busyS 4 .none) ∧ Selects (busyS 4 .none) 0xA01 0 1 40 ∧ (((busyS 4 .none).region 0 1).streams.filter fun x => x.port == 40).length = 4 ∧
    answers (.sgStream 1 2) (busyS 4 .none) (fun t => t.th.wait == .stream 0 1 40 (pat2 false) && t.th.pc == 0) = true ∧
    answers (.sgStream 1 2) (busyS 4 (.stream 0 1 40 (pat2 false))) (fun t => t.th.wait == .stream 0 1 40 (pat2 false) && t.th.pc == 0) = true ∧
    answers (.sgStream 1 2) (withBytes (busyS 3 (.stream 0 1 40 (pat2 true))) 0x14148 [99]) (fun t => t.th.wait == .none && t.th.pc == 4 &&
      ((t.region 0 1).streams.map (·.pattern)).getLast? == some (pat2 true)) = true ∧
    answers (.sgFreeze 1) (sgS { idle2 with debug := true, frozen := true, preempted := true } 1 0) (fun t =>
      (t.region 0 1).frozen && !(t.region 0 1).preempted && t.th.pc == 4) = true := by
  unfold Quiet Selects
  decide +kernel

/-- A rule of one beat on inputs i0 and i1 that sends its result on o0. -/
def rule2 (op : Nat) : Rule :=
  { imm16 := 0, nmin := 0, outreq := 0, inkind := [7, 7, 7, 7], inreq := 0, qval := 0, qcare := 0, pcmpt := 1, qv := 4, qw := 4, okind := 0
    enq := 1, deq := 3, srcC := 13, srcB := 9, srcA := 8, dst := 8, op := op }

/-- A token of data. -/
def tok (v : Word) : Token := { kind := .data, payload := v, src := [], arr := 0 }

/-- A tile with one token of data on i0 and one on i1. -/
def fed (v w : Word) : FTile := { FTile.reset with ins := [[tok v], [tok w], [], []] }

/-- A tile of a kind in row r that runs one rule. -/
def oneS (kind r cfg : Nat) (ru : Rule) (x : FTile) : State := fieldS (running [recOf kind r cfg [ru]]) r x

theorem fires_one (kind r cfg : Nat) (ru : Rule) (x : FTile) (i : Instr) (h : firing i = some (ru.op, 0, 0, r, 0))
    (h1 : ((oneS kind r cfg ru x).liveTile 0 0 r).isSome = true)
    (h2 : ((oneS kind r cfg ru x).liveTile 0 0 r).map (fun e => (e.1, e.2.2)) = some (1, recOf kind r cfg [ru]))
    (h3 : (oneS kind r cfg ru x).pick { f := 0, n := 1, c := 0, r := r } (recOf kind r cfg [ru]) = [0])
    (h4 : readsEmpty ((oneS kind r cfg ru x).ftile 0 0 r) ru = false)
    (h5 : poisonOf ((oneS kind r cfg ru x).ftile 0 0 r) (dequeued ((oneS kind r cfg ru x).ftile 0 0 r) ru) = none) :
    Fires (oneS kind r cfg ru x) i 0 0 r 1 0 (recOf kind r cfg [ru]) ru := by
  refine ⟨h, ?_, rfl, h3, h4, h5⟩
  obtain ⟨⟨n, g, d⟩, e⟩ := Option.isSome_iff_exists.1 h1
  rw [e] at h2
  cases h2
  exact ⟨g, e⟩

theorem test_pe_rules_fire :
    Fires (oneS 0 1 7 (rule2 0x04) (fed 5 6)) (.sigAdd 0 0 1 0) 0 0 1 1 0 (recOf 0 1 7 [rule2 0x04]) (rule2 0x04) := by
  refine fires_one _ _ _ _ _ _ ?_ ?_ ?_ ?_ ?_ ?_ <;> decide +kernel

/-- What a step of the field sends and leaves. -/
def sends (i : Instr) (s : State) (r : Nat) (p : FTile → List Word → Bool) : Bool :=
  answers i s fun t => p (t.ftile 0 0 r) (((t.ftile 0 0 r).out 0).map (·.payload))

theorem test_pe_rules :
    (recOf 0 1 7 [rule2 0x04]).kind = 0 ∧ (peActs (recOf 0 1 7 [rule2 0x04]) (fed 5 6) [0, 0, 0, 0] (rule2 0x04)).isSome = true ∧
    sends (.sigAdd 0 0 1 0) (oneS 0 1 3 (rule2 0x04) (fed 5 (-6))) 1 (fun t ws => ws == [-1] && t.ins == [[], [], [], []] && t.q == 4) = true ∧
    sends (.sigDiv 0 0 1 0) (oneS 0 1 3 (rule2 0x28) (fed (-7) 2)) 1 (fun _ ws => ws == [-3]) = true ∧
    sends (.sigEmit 0 0 1 0) (oneS 0 1 3 (rule2 0x03) (fed 5 6)) 1 (fun _ ws => ws == [0x500000006]) = true ∧
    sends (.sigGate 0 0 1 0) (oneS 0 1 3 (rule2 0x13) (fed 5 0)) 1 (fun _ ws => ws == []) = true ∧
    sends (.sigPcmp 0 0 1 0) (oneS 0 1 3 { rule2 0x10 with enq := 0, dst := 12 } (fed 5 5)) 1 (fun t ws => ws == [] && t.q == 6) = true ∧
    sends (.sigAcc 0 0 1 0) (oneS 0 1 3 { rule2 0x16 with enq := 0, dst := 2, srcB := 13, deq := 1 } { fed 5 6 with e := [0, 0, 9, 0, 0, 0, 0, 0] }) 1
      (fun t ws => ws == [] && t.e == [0, 0, 14, 0, 0, 0, 0, 0]) = true := by decide +kernel

/-- A rule of two beats on i0. -/
def beat2 (op enq dst imm : Nat) : Rule :=
  { rule2 op with nmin := 1, srcB := 13, inreq := 1, deq := 1, enq := BitVec.ofNat 4 enq, dst := dst, imm16 := BitVec.ofNat 16 imm }

/-- Two tokens on i0, or the second and a beat in progress. -/
def two (v w : Word) : FTile := { FTile.reset with ins := [[tok v, tok w], [], [], []] }
def mid (v w : Word) (onA : Bool) : FTile :=
  let b : Beat := { slot := 0, next := 1, vals := [v], err := none, src := [] }
  { FTile.reset with ins := [[tok w], [], [], []], beatA := if onA then some b else none, beatB := if onA then none else some b }

/-- A tile of an activation on frame 0x700, in a context with a pool. -/
def actS (ru : Rule) (x : FTile) : State :=
  let g := { running [recOf 0 1 3 [ru]] with inv := some (.activation 0x700) }
  ((poolS 0x600 1).setRegion 0 1 g).setFtile 0 0 1 x

theorem test_gathering_fires :
    Fires (oneS 0 1 3 (beat2 0x27 1 8 0) (two 5 6)) (.sigRed 0 0 1 0) 0 0 1 1 0 (recOf 0 1 3 [beat2 0x27 1 8 0]) (beat2 0x27 1 8 0) := by
  refine fires_one _ _ _ _ _ _ ?_ ?_ ?_ ?_ ?_ ?_ <;> decide +kernel

theorem test_gathering_rules :
    answers (.sigRed 0 0 1 0) (oneS 0 1 3 (beat2 0x27 1 8 0) (two 5 6)) (fun t => (t.ftile 0 0 1) == { mid 5 6 true with q := 0 }) = true ∧
    ((oneS 0 1 3 (beat2 0x27 1 8 0) (mid 5 6 true)).liveTile 0 0 1).isSome = true ∧
    beatReady (mid 5 6 true) (beat2 0x27 1 8 0) { slot := 0, next := 1, vals := [5], err := none, src := [] } = true ∧
    readsEmpty (mid 5 6 true) (beat2 0x27 1 8 0) = false ∧ poisonOf (mid 5 6 true) (dequeued (mid 5 6 true) (beat2 0x27 1 8 0)) = none ∧
    sends (.nBeatRuleBeat 0 0 1 true) (oneS 0 1 3 (beat2 0x27 1 8 0) (mid 5 6 true)) 1 (fun t ws => ws == [11] && t.beatA == none && t.ins == [[], [], [], []]) = true ∧
    answers (.nBeatRuleBeat 0 0 1 false) (actS (beat2 0x26 0 12 0) (mid 5 6 false)) (fun t => (t.region 0 1).phase == .draining &&
      (t.region 0 1).crossing == some (.ret 5 6)) = true ∧
    okWith ((actS (beat2 0x25 0 12 64) (mid 0x80 6 false)).popFrame 0 false).1 (fun r => r == 0x600) = true ∧
    answers (.nBeatRuleBeat 0 0 1 false) (actS (beat2 0x25 0 12 (64 + 3)) (mid 0x80 6 false)) (fun t => (t.region 0 1).phase == .draining &&
      (t.region 0 1).crossing == some (.call 0x80 0x600 0x700 3 0 [6] [])) = true := by decide +kernel

theorem test_memory_tile_fires :
    Fires (oneS 1 5 0 (rule2 0x1A) (fed 0xFFF8 6)) (.sigLd 0 0 5 0) 0 0 5 1 0 (recOf 1 5 0 [rule2 0x1A]) (rule2 0x1A) ∧
    Fires (oneS 3 0 0 (rule2 0x1B) (fed 0x1C0 6)) (.sigSt 0 0 0 0) 0 0 0 1 0 (recOf 3 0 0 [rule2 0x1B]) (rule2 0x1B) ∧
    Fires (oneS 2 8 0x142 (rule2 0x19) (fed 5 6)) (.sigCvt 0 0 8 0) 0 0 8 1 0 (recOf 2 8 0x142 [rule2 0x19]) (rule2 0x19) := by
  refine ⟨?_, ?_, ?_⟩ <;> refine fires_one _ _ _ _ _ _ ?_ ?_ ?_ ?_ ?_ ?_ <;> decide +kernel

theorem test_edge_tile_reads : ∃ site,
    TileReads (withBytes (oneS 3 0 0 (rule2 0x1A) (fed 0x1C0 6)) 0x141C0 [9]) 0 0 0x1C0 8 site ∧ site.key = 0x141C0 ∧
      numberAt (withBytes base 0x141C0 [9, 1]).mem 0x141C0 8 = 0x109 := by
  have h : okWith ((withBytes (oneS 3 0 0 (rule2 0x1A) (fed 0x1C0 6)) 0x141C0 [9]).unitSite 0 .user .load 0 0x1C0)
    (fun x => x.key == 0x141C0 && x.kind == 0) = true := by decide +kernel
  match e : (withBytes (oneS 3 0 0 (rule2 0x1A) (fed 0x1C0 6)) 0x141C0 [9]).unitSite 0 .user .load 0 0x1C0 with
  | .error _ => rw [e] at h; cases h
  | .ok site =>
    rw [e] at h
    simp only [okWith, Bool.and_eq_true, beq_iff_eq] at h
    exact ⟨site, ⟨by decide, e, by omega, by omega, by omega⟩, h.1, by decide +kernel⟩

theorem test_memory_tile_rules :
    Inside 0xFFF8 ∧ ¬Inside 0x10000 ∧
    sends (.sigLd 0 0 5 0) (oneS 1 5 0 (rule2 0x1A) ((fed 0xFFF8 6).setRam 0xFFF8 77)) 5 (fun t ws => ws == [77] && t.mem == [(0xFFF8, 77)]) = true ∧
    sends (.sigSt 0 0 5 0) (oneS 1 5 0 (rule2 0x1B) (fed 0xFFF8 6)) 5 (fun t ws => ws == [0] && t.ram 0xFFF8 == 6) = true ∧
    sends (.sigAtMax 0 0 5 0) (oneS 1 5 0 (rule2 0x1E) ((fed 0 6).setRam 0 (-5))) 5 (fun t ws => ws == [-5] && t.ram 0 == 6) = true ∧
    sends (.sigAtTas 0 0 5 0) (oneS 1 5 0 { rule2 0x24 with dst := 12 } (fed 8 6)) 5 (fun t ws => ws == [0] && t.ram 8 == 1) = true ∧
    sends (.sigLd 0 0 5 0) (oneS 1 5 1 (rule2 0x1A) { fed 0 6 with fifo := [(3, []), (4, [])] }) 5 (fun t ws => ws == [3] && t.fifo == [(4, [])]) = true ∧
    sends (.sigSt 0 0 5 0) (oneS 1 5 1 (rule2 0x1B) { fed 0 6 with fifo := [(3, [])] }) 5 (fun t ws => ws == [0] && t.fifo.map (·.1) == [3, 6]) = true ∧
    okWith ((oneS 3 0 0 (rule2 0x1A) (fed 0x1C0 6)).fieldLoad 0 0 0x1C0 8 5) (fun r => r.v == 0 && !r.bad) = true ∧
    sends (.sigLd 0 0 0 0) (withBytes (oneS 3 0 0 (rule2 0x1A) (fed 0x1C0 6)) 0x141C0 [9]) 0 (fun _ ws => ws == [9]) = true ∧
    okWith ((oneS 3 0 0 (rule2 0x1B) (fed 0x1C0 6)).storerSite 0 0 0x1C0 8 false) (fun x => x.key == 0x141C0) = true ∧
    sends (.sigSt 0 0 0 0) (oneS 3 0 0 (rule2 0x1B) (fed 0x1C0 6)) 0 (fun t ws => ws == [0] && t.held.map (·.bytes) == [cellsFrom 0x141C0 (leBytes 8 6)]) = true ∧
    sends (.sigAtAdd 0 0 0 0) (oneS 3 0 1 { rule2 0x1C with dst := 12, enq := 0 } (fed 0x1C0 6)) 0 (fun t _ => t.held.map (·.atomic) == [some (0x1C, 6, 0)]) = true ∧
    isBlock (recOf 2 8 0x142 []).frm = false ∧ isBlock (recOf 2 8 0x142 []).tgt = false ∧
    answers (.sigCvt 0 0 8 0) (oneS 2 8 0x142 (rule2 0x19) (fed 5 6)) (fun t => (t.ftile 0 0 8).inp 0 == [] &&
      (t.ftile 0 0 8).convO == [(false, 0x40A00000)]) = true ∧
    sends (.sigCvt 0 0 8 0) (oneS 2 8 0x142 (rule2 0x19) { fed 5 6 with convO := [(false, 7)] }) 8 (fun t ws => ws == [7] && t.convO == []) = true ∧
    sends (.sigCvt 0 0 8 0) (oneS 2 8 0x142 (rule2 0x19) { fed 5 6 with ins := [[{ tok 9 with kind := .mark }], [], [], []] }) 8 (fun t ws => ws == [9] && t.inp 0 == []) = true := by
  unfold Inside
  decide +kernel


/-- A route from output 0 to an input of the tile at column 0 and a row. -/
def routed (rd : TileRec) (dcol : Int) (drow : Nat) : TileRec :=
  { rd with routes := [some { dcol := dcol, drow := drow, din := 1, lane := 0, sfmt := 0, rfmt := 0 }, none, none, none] }

/-- A PE in row 1 with a token on output 0 and a route three rows down, or out over the region's eastern gutter. -/
def hopS (dcol : Int) (drow : Nat) : State := fieldS (running [routed (recOf 0 1 3 []) dcol drow]) 1 { FTile.reset with outs := [[tok 5], [], [], []] }

/-- An edge tile that runs a pattern from an element on. -/
def edgeS (cfg : Nat) (pos : Nat) (ins : List Token) : State :=
  fieldS (running [recOf 3 0 cfg []]) 0 { FTile.reset with ins := [ins, [], [], []], cmd := some (pat2 (cfg % 2 = 1), none), pos := pos }

theorem test_field_tokens :
    (hopS 0 4).regionAt 0 0 = some 1 ∧ ((hopS 0 4).region 0 1).recAt 0 1 = some (routed (recOf 0 1 3 []) 0 4) ∧
    (((hopS 0 4).region 0 1).path (routed (recOf 0 1 3 []) 0 4) 0).map (·.2) = some [(0, 2), (0, 3), (0, 4)] ∧
    (hopS 0 4).blocked 0 0 [(0, 2), (0, 3), (0, 4)] 0 = false ∧
    answers (.tokenHop 0 0 1 0 0) (hopS 0 4) (fun t => (t.ftile 0 0 1).hop 0 0 == [tok 5] && (t.ftile 0 0 1).out 0 == []) = true ∧
    stagesOf [((0 : Int), 2)] = 1 ∧ (hopS 0 2).regionAt 0 (0 : Nat) = some 1 ∧
    answers (.tokenHop 0 0 1 0 0) (hopS 0 2) (fun t => (t.ftile 0 0 2).inp 1 == [tok 5] && (t.ftile 0 0 1).out 0 == []) = true ∧
    (hopS 2 1).dropStage 0 0 ((hopS 2 1).ftile 0 0 1) 0 [(1, 1), (2, 1)] = none ∧
    ((hopS 2 1).setFtile 0 0 1 { FTile.reset with hops := [[[tok 5]], [], [], []] }).dropStage 0 0 { FTile.reset with hops := [[[tok 5]], [], [], []] } 0
      [(1, 1), (2, 1)] = some 1 ∧
    answers (.gutterDrop 0 0 1 0) ((hopS 2 1).setFtile 0 0 1 { FTile.reset with hops := [[[tok 5]], [], [], []] }) (fun t => (t.region 0 1).drops == 1 &&
      (t.region 0 1).phase == .draining && (t.region 0 1).bad.isSome) = true ∧
    ((edgeS 0 0 []).takeCmd { f := 0, n := 1, c := 0, r := 0 } (recOf 3 0 0 [])).isSome = true ∧ (pat2 false).total = 2 ∧
    answers (.loaderReadResponse 0 0 0) (edgeS 0 2 []) (fun t => seen ((t.ftile 0 0 0).out 0) == [(.eos, 0)] && (t.ftile 0 0 0).cmd == none) = true ∧
    okWith ((edgeS 0 1 []).readElements { f := 0, n := 1, c := 0, r := 0 } (pat2 false) 1 1) (fun r => r.1 == 0 && !r.2.1) = true ∧
    answers (.loaderReadResponse 0 0 0) (withBytes (edgeS 0 1 []) 0x141C8 [9]) (fun t => seen ((t.ftile 0 0 0).out 0) == [(.data, 9)] &&
      (t.ftile 0 0 0).pos == 2) = true ∧
    okWith ((edgeS 1 1 [tok 7]).storerSite 0 0 0x1C8 8 false) (fun x => x.key == 0x141C8) = true ∧ (pat2 true).addr 1 = 0x1C8 ∧
    (recOf 3 0 1 []).storer = true ∧ (recOf 3 0 1 []).bound = [] ∧
    answers (.storerAccept 0 0 0) (edgeS 1 1 [tok 7]) (fun t => (t.ftile 0 0 0).inp 0 == [] &&
      (t.ftile 0 0 0).held.map (fun h => (h.via.va, h.bytes)) == [(0x1C8, cellsFrom 0x141C8 (leBytes 8 7))]) = true := by decide +kernel

/-- A pass-through in row 1 with a token on i2. -/
def passS : State := fieldS (running [recOf 4 1 0 []]) 1 { FTile.reset with ins := [[], [], [tok 6], []] }

/-- A PE in row 1 that an earlier configuration left a token on its way, four rows down or two columns east. -/
def lateS (col row pos : Nat) : State :=
  fieldS (running [recOf 0 1 3 []]) 1 { FTile.reset with late := [{ col := col, row := row, inp := 1, pos := pos, tok := tok 9 }] }

theorem test_tokens_beside_routes :
    (passS.region 0 1).recAt 0 1 = some (recOf 4 1 0 []) ∧
    answers (.tokenHop 0 0 1 7 0) passS (fun t => (t.ftile 0 0 1).inp 2 == [] && (t.ftile 0 0 1).out 2 == [tok 6]) = true ∧
    stagesOf (routePath 0 1 0 5) = 4 ∧ (lateS 0 5 0).blocked 0 0 (routePath 0 1 0 5) 0 = false ∧
    answers (.tokenHop 0 0 1 4 0) (lateS 0 5 0) (fun t => (t.ftile 0 0 1).late.map (·.pos) == [1]) = true ∧
    (lateS 2 1 1).blocked 0 0 (routePath 0 1 2 1) 1 = true ∧
    answers (.tokenHop 0 0 1 4 0) (lateS 2 1 1) (fun t => (t.ftile 0 0 1).late == [] && t.mem == base.mem) = true ∧
    ((edgeS 0 1 []).takeCmd { f := 0, n := 1, c := 0, r := 0 } (recOf 3 0 0 [])).any (fun x => x.1 == pat2 false &&
      x.2.2.poison == [] && okWith (x.2.2.unitSite 0 .user .load 0 0x1C8) fun y => y.key == 0x141C8 && y.kind == 0) = true ∧
    (pat2 false).addr 1 = 0x1C8 ∧ (edgeS 1 1 [tok 7]).ftile 0 0 0 = { FTile.reset with ins := [[tok 7], [], [], []], cmd := some (pat2 true, none), pos := 1 } ∧
    FTile.reset.indexed = false := by decide +kernel

/-- A region with the plane of a PE in row 1, in a context whose activation FIFO 1 at 0x800 holds an entry for frame 0x700. -/
def invS (g : Region) (entries : Nat) : State :=
  let s := withBytes (poolS 0x600 0) 0x14808 ((leBytes 8 entries ++ leBytes 16 0 ++ leBytes 8 0x700).map (·.toNat))
  s.setRegion 0 1 { g with active := some (planeWith [recOf 0 1 3 []]) }

/-- The same region with a continuation of frame 0x700 at resume point 0x15, which waits to free a callee frame at 0x720 and is at
iteration 3. -/
def contS : State :=
  let s := invS { idle2 with fifo := 1 } 1
  { s with mem := setBytes (setBytes s.mem 0x14828 (leBytes 8 0x55)) 0x14718 (leBytes 8 (3 * 2 ^ 32 + 1))
           freeAtStart := [(0, 0x700, 0x720)] }

/-- A stream command of a thread. -/
def stream0 : Stream := { thread := 0, port := 1, pattern := pat2 false, num := 0, cycle := 0 }

theorem test_invocations :
    (invS { idle2 with fifo := 1 } 1).startsFifo { idle2 with fifo := 1, active := some (planeWith [recOf 0 1 3 []]) } = true ∧
    ((invS { idle2 with fifo := 1 } 1).fifoTake 0 1).map (fun r => (r.1.frame, r.1.cont)) = some (0x700, false) ∧
    answers (.invocationStart 0 1) (invS { idle2 with fifo := 1 } 1) (fun t => (t.region 0 1).phase == .running &&
      (t.region 0 1).inv == some (.activation 0x700) && (t.region 0 1).invNo == 1 && wordAt t.mem 0x14800 == 1) = true ∧
    seen (((invS { idle2 with fifo := 1 } 1).ftile 0 0 1).inp 0) = [] ∧ 0 < FTile.reset.ins.length ∧
    answers (.invocationStart 0 1) (invS { idle2 with fifo := 1 } 1) (fun t =>
      seen ((t.ftile 0 0 1).inp 0) == [(.data, 0x700), (.data, 0), (.data, 0), (.data, 0)] && (t.region 0 1).iter == [0, 0, 0, 0]) = true ∧
    (contS.fifoTake 0 1).map (fun r => (r.1.frame, r.1.cont, r.1.resume)) = some (0x700, true, 0x15) ∧
    answers (.invocationStart 0 1) contS (fun t => (t.region 0 1).iter == [3, 0, 0, 0] && t.freeAtStart == [] &&
      seen ((t.ftile 0 0 1).inp 0) == [(.data, 0x700), (.data, 0x15), (.data, 0), (.data, 0)]) = true ∧
    (invS { idle2 with streams := [stream0] } 0).startsFifo { idle2 with streams := [stream0], active := some (planeWith [recOf 0 1 3 []]) } = false ∧
    answers (.invocationStart 0 1) (invS { idle2 with streams := [stream0] } 0) (fun t => (t.region 0 1).inv == some .stream &&
      seen ((t.ftile 0 0 1).inp 0) == List.replicate 4 (.data, 0)) = true ∧
    (invS { idle2 with phase := .draining, inv := some .stream, stray := 2 } 0).dropsOf 0 { idle2 with phase := .draining, inv := some .stream, stray := 2 } (recOf 0 1 3 []) = [] ∧
    answers (.invocationEnd 0 1) ((invS { idle2 with phase := .draining, inv := some .stream, stray := 2 } 0).setFtile 0 0 1 (fed 5 6)) (fun t =>
      (t.region 0 1).phase == .idle && (t.region 0 1).inv == none && (t.region 0 1).status == BitVec.ofNat 64 (2 ^ 63 + 4)) = true ∧
    answers (.invocationEnd 0 1) (invS { idle2 with phase := .draining, inv := some (.activation 0x700), crossing := some (.ret 5 6) } 0) (fun t =>
      (t.region 0 1).phase == .idle && t.returns == [(0, 0x700)] && wordAt t.mem 0x14728 == 5 && wordAt t.mem 0x14730 == 6) = true ∧
    answers (.invocationEnd 0 1) (invS { idle2 with phase := .draining, inv := some .stream, bad := some ⟨0x11, 0, 1, none, none⟩ } 0) (fun t =>
      (t.region 0 1).phase == .idle && (t.region 0 1).fault == 0x11 && (t.region 0 1).faultNew && bit (t.region 0 1).status 37) = true ∧
    answers (.drainBoundExpiry 0 1) (invS { idle2 with phase := .running } 0) (fun t => (t.region 0 1).phase == .draining &&
      (t.region 0 1).bad == some ⟨0, 0, 0, none, none⟩) = true := by decide +kernel

/-- An entry that the crossing unit holds for FIFO 1. -/
def enq0 : Enqueue := { ctx := 0, fifo := 1, frame := 0x720, resume := 0, cont := false, a0 := 0, a1 := 0 }

/-- A thread suspended in a call on frame 0x700, whose frame holds a continuation and results. -/
def suspS : State :=
  waits (withBytes { poolS 0x600 0 with returns := [(0, 0x700)] } 0x14708 ((leBytes 8 0x44 ++ leBytes 16 0 ++ leBytes 8 0 ++ leBytes 8 5 ++ leBytes 8 6).map (·.toNat)))
    (.crossing 0x700)

theorem test_crossings :
    ((invS idle2 1).fifoSite 0 1).map (fun x => ((invS idle2 1).fifoCount x, x.key)) = some (1, 0x14800) ∧
    answers (.activationEnqueue 0 1) { invS idle2 1 with enqueues := [enq0] } (fun t => t.enqueues == [] && wordAt t.mem 0x14808 == 2 &&
      wordAt t.mem 0x14840 == 0x720) = true ∧
    answers (.crossingCall 0 1) (invS { idle2 with crossing := some (.call 0x80 0x600 0x700 3 0 [9] []) } 0) (fun t => t.callbacks == [(0, 0x600)] &&
      (t.region 0 1).crossing == none && wordAt t.mem 0x14600 == 0x80 && wordAt t.mem 0x14610 == 0x700 && wordAt t.mem 0x14640 == 9) = true ∧
    (poolS 0x600 0).callbackPool 0 = some (3, 5) ∧ (poolS 0x600 0).maySend 0 7 = true ∧
    answers (.callbackPacketSend 0 7) { poolS 0x600 0 with callbacks := [(0, 0x600)] } (fun t => t.callbacks == [] &&
      t.net.map (fun p => (p.ctx, p.dst, p.label, p.frame)) == [(0, 7, 5, some 0x600)]) = true ∧
    suspS.frameWord 0 0x718 = some 0 ∧ suspS.frameWord 0 0x708 = some 0x44 ∧ suspS.suspended 0 0x700 = some 0 ∧ Quiet base ∧
    answers (.returnDelivery 0) suspS (fun t => t.th.wait == .none && t.th.pc == 0x44 && t.rs 8 == 5 && t.rs 9 == 6 && t.returns == []) = true := by
  unfold Quiet
  decide +kernel

/-! Launches, packets and tasks. -/

/-- A header of launch2 with one WID of one level and a mask of quire 0. -/
def header1 : List Byte := leBytes 8 0x40 ++ leBytes 8 (1 + 1 * 2 ^ 3) ++ leBytes 8 1 ++ leBytes 16 0 ++ leBytes 8 1 ++ leBytes 8 7

/-- A queue of context 0 with a header at 0x200 behind it. -/
def lqS (x : LQueue) : State := (withBytes base 0x14200 (header1.map (·.toNat))).setLq 0 15 x

/-- An enabled queue. -/
def lq1 : LQueue := { LQueue.reset with enable := true, pending := [0x200] }

/-- A machine whose thread 0 is free, launch 0 at the head of queue 15 of context 0. -/
def startS (l : Launch) : State :=
  let s := (lqS { lq1 with head := some 0, pending := [] }).setLaunch 0 l
  withWork s .free

/-- The launch of header1. -/
def launch1 : Launch :=
  { ctx := 0, q := 15, hdr := 0x200, entry := 0x40, flags := 9, extents := [1, 0, 0, 0, 0, 0], mask := 1, arg := 7, compl := 0, incr := 0, slot := 0, slice := 0
    waits := [(0, 0), (0, 0), (0, 0), (0, 0)], seen := [true, true, true, true], nextUnit := 0, running := 0, halted := 0, aborted := false, heap := none }

theorem test_launch_queues :
    (base.ctx 0).live = true ∧ (lq1.depth < 128) ∧ 128 ≤ ({ lq1 with pending := List.replicate 128 0 } : LQueue).depth ∧
    answers (.lqpush 0 15 9) (lqS lq1) (fun t => (t.lq 0 15).pending == [0x200, 9] && !(t.lq 0 15).ovf) = true ∧
    answers (.lqpush 0 15 9) (lqS { lq1 with pending := List.replicate 128 0 }) (fun t => (t.lq 0 15).ovf && (t.lq 0 15).pending.length == 128) = true ∧
    answers (.lqctlAbort 0 15) (lqS lq1) (fun t => (t.lq 0 15) == { lq1 with pending := [], aborted := true }) = true ∧
    answers (.lqstatClear 0 15 9) (lqS { lq1 with aborted := true, ovf := true, rej := true }) (fun t => (t.lq 0 15) == { lq1 with ovf := true }) = true ∧
    base.dev.state ≠ 2 ∧ base.dev.ports.getLsbD 1 = true ∧ answers (.registerWrite ⟨1, 0x40 * 15 + 0x10⟩ 4) (lqS { lq1 with ovf := true }) (fun t => (t.lq 0 15) == lq1) = true ∧
    answers (.registerWrite ⟨0, 0x500F8⟩ 5) base (fun t => t.mailbox.req == [(0xF8, 5)]) = true := by decide +kernel

/-- The offset of queue 15 of context 0 in BAR0. -/
def lqAt (off : Nat) : PortAddr := { port := 1, addr := 0x40 * 15 + off }

theorem test_launch_queue_writes :
    answers (.registerWrite (lqAt 0) 9) (lqS lq1) (fun t => (t.lq 0 15).pending == [0x200, 9]) = true ∧
    answers (.registerWrite (lqAt 8) 2) (lqS lq1) (fun t => (t.lq 0 15) == { lq1 with enable := false, serial := true } && t.mem == (lqS lq1).mem) = true ∧
    answers (.registerWrite (lqAt 8) 5) (lqS lq1) (fun t => (t.lq 0 15) == { lq1 with pending := [], aborted := true }) = true ∧
    (startS launch1).launchBusy 0 = false ∧ (withWork (startS launch1) (.wid 0 0)).launchBusy 0 = true ∧
    answers (.registerWrite (lqAt 8) 1) (startS launch1) (fun t => (t.lq 0 15).head == some 0) = true ∧
    answers (.registerWrite (lqAt 8) 1) (startS { launch1 with nextUnit := 1 }) (fun t => (t.lq 0 15).head == none) = true ∧
    answers (.registerWrite (lqAt 8) 3) (startS { launch1 with nextUnit := 1 }) (fun t => (t.lq 0 15).head == some 0 && (t.lq 0 15).serial) = true ∧
    answers (.lqctlAbort 0 15) (startS launch1) (fun t => (t.lq 0 15).head == none && (t.lq 0 15).aborted && t.launch 0 == none) = true ∧
    answers (.lqctlAbort 0 15) (withWork (startS launch1) (.wid 0 0)) (fun t => (t.lq 0 15).head == none &&
      t.launch 0 == some { launch1 with aborted := true }) = true ∧
    answers (.registerWrite (lqAt 8) 5) (withWork (startS launch1) (.wid 0 0)) (fun t => (t.lq 0 15).head == none &&
      t.launch 0 == some { launch1 with aborted := true }) = true := by decide +kernel

theorem test_launch_heads :
    (lqS lq1).headerWords 0 0x200 ≠ none ∧ ((lqS lq1).headerWords 0 0x200).map ((lqS lq1).headerReason 0) = some 0 ∧
    answers (.launchHead 0 15) (lqS lq1) (fun t => (t.lq 0 15).head == some 0 && (t.lq 0 15).pending == [] && t.launch 0 == some launch1 && t.nextLaunch == 1) = true ∧
    (lqS lq1).headerWords 0 0x201 = none ∧
    (lqS { lq1 with serial := true }).earlierRuns 0 15 = false ∧
    answers (.launchHead 0 15) (lqS { lq1 with serial := true }) (fun t => (t.lq 0 15).head == some 0) = true ∧
    ((lqS lq1).setLaunch 0 launch1).earlierRuns 0 15 = true ∧
    answers (.launchHead 0 15) (lqS { lq1 with pending := [0x201] }) (fun t => (t.lq 0 15).reason == 1 && (t.lq 0 15).rej && (t.lq 0 15).errHdr == 0x201) = true ∧
    ((lqS lq1).headerWords 0 0x180).map ((lqS lq1).headerReason 0) = some 2 ∧
    answers (.launchHead 0 15) (lqS { lq1 with pending := [0x180] }) (fun t => (t.lq 0 15).reason == 2 && (t.lq 0 15).rej) = true := by decide +kernel

/-- A launch that waits for a word. -/
def waiting1 (a m : Word) : Launch := { launch1 with waits := [(a, m)], seen := [false] }

/-- Its monitor. -/
def watch1 (m : Word) (hit : Bool) : Watch := { launch := 0, k := 0, key := 0x14200, min := m, hit := hit }

/-- The launch waits for a word of host memory, which holds 7. -/
def hostWait (m : Word) : State :=
  let s := startS (waiting1 0x1000 m)
  withBytes { s with tlbs := { core := 3072, ctx := 0, page := 1, bits := 12, pte := BitVec.ofNat 64 (0x9F + 2 ^ 51 + 0x2000 + 3 * 2 ^ 57) } :: s.tlbs } (2 ^ 51 + 0x2000) [7]

theorem test_launch_waits :
    answers (.launchHead 0 15) (withBytes (lqS lq1) 0x14260 ((leBytes 8 0x300 ++ leBytes 8 5).map (·.toNat))) (fun t =>
      t.watches == [{ watch1 5 false with key := 0x14300 }] && (t.launch 0).map (·.seen) == some [false, true, true, true]) = true ∧
    ((startS (waiting1 0x200 0x40)).waitSite (waiting1 0x200 0x40) 0).map (fun x => (x.1.kind, x.1.key, x.2)) = some (0, 0x14200, 0x40) ∧
    ({ startS (waiting1 0x200 0x41) with watches := [watch1 0x41 false] }.writeCells (cellsFrom 0x14200 [0x42])).watches = [watch1 0x41 true] ∧
    { startS (waiting1 0x200 0x41) with watches := [watch1 0x41 true] }.watchHit 0 0 = true ∧
    answers (.launchWaitSatisfied 0 0) { startS (waiting1 0x200 0x41) with watches := [watch1 0x41 true] } (fun t => (t.launch 0).map (·.seen) == some [true]) = true ∧
    answers (.launchWaitSatisfied 0 0) (startS (waiting1 0x200 0x40)) (fun t => (t.launch 0).map (·.seen) == some [true]) = true ∧
    answers (.launchWaitSatisfied 0 0) (startS (waiting1 0x200 0x41)) (fun t => (t.launch 0).map (·.seen) == some [false] && t.watches == [watch1 0x41 false]) = true ∧
    ((hostWait 7).waitSite (waiting1 0x1000 7) 0).map (·.1.kind) = some 3 ∧
    answers (.kind3WaitPoll 0 0) (hostWait 7) (fun t => (t.launch 0).map (·.seen) == some [true]) = true ∧
    answers (.kind3WaitPoll 0 0) (hostWait 8) (fun t => t == hostWait 8) = true := by decide +kernel

theorem test_launches :
    heap0.quires = [0] ∧ ((startS launch1).ctx 0).leaving = false ∧ ((startS launch1).quire 0).stopped = false ∧
    answers (.heapBind 0) (startS { launch1 with heap := some { heap0 with bound := false, floor := 9 } }) (fun t => (t.eng 0).launch == some 0 &&
      (t.eng 0).floor == 9 && (t.launch 0).map (·.heap) == some (some { heap0 with floor := 9 })) = true ∧
    (startS launch1).offered 0 2 = true ∧ (startS launch1).pickLaunch 0 = some 0 ∧ launch1.cores = 0 ∧
    answers (.widStart 0 0) (startS launch1) (fun t => (t.thr 0).work == .wid 0 0 && (t.thr 0).pc == 0x40 && (t.thr 0).rs 8 == 7 && (t.thr 0).rs 9 == 0 &&
      (t.launch 0).map (fun l => (l.nextUnit, l.running)) == some (1, 1)) = true ∧
    (startS { launch1 with flags := BitVec.ofNat 64 (9 + 2 ^ 44) }).pickLaunch 0 = some 0 ∧
    (startS { launch1 with nextUnit := 1, halted := 1 }).allOut 0 { launch1 with nextUnit := 1, halted := 1 } = true ∧ launch1.wids = 1 ∧
    answers (.launchComplete 0) (startS { launch1 with nextUnit := 1, halted := 1 }) (fun t => t.launch 0 == none && (t.lq 0 15).done == 1 &&
      (t.lq 0 15).head == none) = true ∧
    ((startS launch1).unitAdd64 0 0x300 5).isSome = true ∧
    answers (.launchComplete 0) (startS { launch1 with nextUnit := 1, halted := 1, compl := 0x300, incr := 5 }) (fun t => wordAt t.mem 0x14300 == 5) = true := by
  decide +kernel

/-- Launch 0 with one group of one WID in quire 0. -/
def groupS : State := startS { launch1 with flags := BitVec.ofNat 64 (9 + 2 ^ 44), nextUnit := 1 }

theorem test_groups :
    ((startS { launch1 with flags := BitVec.ofNat 64 (9 + 2 ^ 44) }).quire 0).resv = none ∧
    answers (.groupStart 0 0) (startS { launch1 with flags := BitVec.ofNat 64 (9 + 2 ^ 44) }) (fun t =>
      (t.quire 0).resv == some { launch := 0, unit := 0, threads := [0] }) = true ∧
    ({ launch1 with flags := BitVec.ofNat 64 (9 + 2 ^ 44), nextUnit := 1 } : Launch).unitSize = 1 ∧
    answers (.groupStart 0 0) (groupS.setQuire 0 { groupS.quire 0 with resv := some { launch := 0, unit := 0, threads := [0] } }) (fun t =>
      (t.quire 0).resv == none && (t.thr 0).work == .wid 0 0 && (t.thr 0).pc == 0x40) = true ∧
    groupS.isReserve 0 = false ∧ (groupS.lq 0 15).isHalted = false := by decide +kernel

/-- A launch of one group of two WIDs and the two threads reserved for it. -/
def launch2w : Launch := { launch1 with flags := BitVec.ofNat 64 (9 + 2 ^ 44), extents := [2, 0, 0, 0, 0, 0], nextUnit := 1 }
def groupW : State :=
  let s := startS launch2w
  s.setQuire 0 { s.quire 0 with resv := some { launch := 0, unit := 0, threads := [0, 5] } }

theorem test_wide_group :
    launch2w.unitSize = 2 ∧ ([0, 5].any groupW.isReserve) = false ∧
    answers (.groupStart 0 0) groupW (fun t => (t.quire 0).resv == none && (t.thr 0).work == .wid 0 0 && (t.thr 5).work == .wid 0 1 &&
      (t.thr 5).pc == 0x40 && (t.thr 5).rs 8 == 7 && (t.thr 5).rs 9 == 1 && t.thr 4 == groupW.thr 4 &&
      (t.launch 0).map (·.running) == some 2) = true := by decide +kernel

/-- A packet to core 0 with a label. -/
def pkt0 (frame : Option Nat) : Packet := { ctx := 0, thread := 9, dst := 0, label := 5, w0 := 3, w1 := 4, two := true, frame := frame }

/-- Context 0 with a handler for the label, packets on the way and in the queue. -/
def mailS (net deferred queue : List Packet) : State :=
  withWork ({ poolS 0x600 0 with net := net }.setMail 0 0 { queue := queue, deferred := deferred, handlers := [(5, 0x80)], lastLabel := 127, passed := 0 }) .free

/-- Frame 0x700 of a callback with its callee and its first argument. -/
def frameS : State := withBytes (mailS [] [] [pkt0 (some 0x700)]) 0x14700 ((leBytes 8 0x84 ++ leBytes 56 0 ++ leBytes 8 11).map (·.toNat))

/-- A free thread in a quire whose engine is bound. -/
def engineS (l : Launch) (e : HeapEng) : State := (startS l).setEng 0 e

/-- A heap-bound launch with its one WID halted. -/
def hlaunch : Launch := { launch1 with flags := BitVec.ofNat 64 (9 + 2 ^ 43), nextUnit := 1, halted := 1, heap := some heap0 }

theorem test_packets_and_tasks :
    (mailS [pkt0 none] [] []).accepts 0 0 = true ∧ (mailS [pkt0 none] [] []).queueRoom 0 0 = true ∧ earlierOnWay [pkt0 none] 0 (pkt0 none) = false ∧
    answers (.packetArrival 0) (mailS [pkt0 none] [] []) (fun t => t.net == [] && (t.mail 0 0).queue == [pkt0 none]) = true ∧
    answers (.packetArrival 0) (mailS [pkt0 none] [pkt0 none] []) (fun t => (t.mail 0 0).queue == [] && (t.mail 0 0).deferred.length == 2) = true ∧
    answers (.packetDeferredAccept 0 0) (mailS [] [pkt0 none] []) (fun t => (t.mail 0 0).queue == [pkt0 none] && (t.mail 0 0).deferred == []) = true ∧
    (mailS [] [] [pkt0 none]).offered 0 0 = true ∧ (mailS [] [] [pkt0 none]).pickHandler 0 = some (0, 5, pkt0 none) ∧
    answers (.handlerStart 0) (mailS [] [] [pkt0 none]) (fun t => (t.thr 0).work == .handler && (t.thr 0).pc == 0x80 && (t.thr 0).rs 8 == 3 &&
      (t.thr 0).rs 9 == 4 && (t.thr 0).rs 10 == 2 && (t.thr 0).rs 11 == 5 && (t.mail 0 0).queue == []) = true ∧
    frameS.offered 0 0 = true ∧ frameS.pickHandler 0 = some (0, 5, pkt0 (some 0x700)) ∧ frameS.frameWord 0 0x700 = some 0x84 ∧
    frameS.frameWords 0 0x740 8 = some [11, 0, 0, 0, 0, 0, 0, 0] ∧
    answers (.callbackTaskStart 0) frameS (fun t => (t.thr 0).work == .callback 0x700 && (t.thr 0).pc == 0x84 && (t.thr 0).rs 6 == 0x700 && (t.thr 0).rs 8 == 11 &&
      (t.thr 0).rs 1 == 0x8000000000000700 && (t.thr 0).rs 15 == 0 && (wordAt t.mem 0x14718).extractLsb 3 0 == 1) = true ∧
    (mailS [] [] [pkt0 (some 0x9700)]).frameWord 0 0x9700 = none ∧
    (((((mailS [] [] [pkt0 (some 0x9700)]).meetFrame 0 (frameVa 0x9700)).consume 0 0 5 (pkt0 (some 0x9700))).turn 0 0).unitWord 0 .user (frameVa 0x9700)
      (fun k => k ≤ 2) matches .error _) = true ∧ (mailS [] [] [pkt0 none]).pickCtx 0 false = some 0 ∧
    (((mailS [] [] [pkt0 (some 0x9700)]).consume 0 0 5 (pkt0 (some 0x9700))).mail 0 0).queue = [] ∧
    (engineS hlaunch eng0).offered 0 1 = true ∧ bestEntry eng0.entries = some ⟨5, 0x3F800000, 50⟩ ∧
    answers (.heapDispatch 0) (engineS hlaunch eng0) (fun t => (t.thr 0).work == .heapTask 0 5 false && (t.thr 0).pc == 0x40 && (t.thr 0).rs 8 == 5 &&
      (t.thr 0).rs 9 == 0x3F800000 && (t.thr 0).rs 10 == 50 && (t.eng 0).entries == [] && (t.eng 0).running.length == 2 && hget (t.eng 0).running 5 == some ⟨5, 0, 50⟩ &&
      (t.eng 0).acc == absUnits 0x40000000) = true := by decide +kernel

theorem test_waves :
    (engineS hlaunch { eng0 with entries := [], running := [], acc := 0, tol := 1 }).heapOf 0 = some heap0 ∧
    ((engineS hlaunch { eng0 with entries := [], running := [], acc := 0, tol := 1 }).readWave hlaunch heap0).good = true ∧
    answers (.terminationWave 0) (engineS hlaunch { eng0 with entries := [], running := [], acc := 0, tol := 1 }) (fun t =>
      (t.launch 0).map (·.heap) == some (some { heap0 with wave := some ⟨0, 0, [0], true⟩ })) = true ∧
    belowTol 0 1 = true ∧
    answers (.terminationWave 0) (engineS { hlaunch with heap := some { heap0 with wave := some ⟨0, 0, [0], true⟩ } }
        { eng0 with entries := [], running := [], acc := 0, tol := 1 }) (fun t => t.eng 0 == HeapEng.reset &&
      (t.launch 0).map (·.heap) == some (some { heap0 with bound := false, ended := true }) && wordAt t.mem 0x14350 == 1) = true ∧
    (engineS { hlaunch with aborted := true } eng0).launchBusy 0 = false ∧
    answers (.heapAbortUnbind 0) (engineS { hlaunch with aborted := true } eng0) (fun t => t.launch 0 == none && t.eng 0 == HeapEng.reset) = true := by decide +kernel


/-! The caches. -/

/-- The machine with the grain of line 0 fixed at 4 sectors and one unit of it in a state. -/
def cohS (x : CUnit) : State := { base with grains := [(0, 1)] }.setCunit 4 x

/-- A unit with a directory state, an owner and caches. -/
def unit0 (d : Dir) (o : Nat) (cs : Table Moesi) : CUnit := { CUnit.reset with dir := d, owner := o, caches := cs }

/-- Unit 4 after an event of coherence. -/
def leaves (i : Instr) (s : State) (p : CUnit → Bool) : Bool :=
  answers i s fun t => t.mem == s.mem && t.threads == s.threads && p (t.cunit 4)

/-- The same with its memory offered to the host through port 0. -/
def offerS (x : CUnit) : State :=
  { cohS x with dev := { base.dev with cxl := 1, decoders := [(0, (0, 0x1000))], exported := [(0, 0x1000)] } }

theorem test_coherence_requests :
    (cohS CUnit.reset).mayServe 3 4 1 = true ∧ (cohS CUnit.reset).mayAsk 3 4 1 = true ∧ (offerS CUnit.reset).mayServe 20 4 1 = true ∧
    (offerS CUnit.reset).mayAsk 20 4 1 = true ∧ (cohS CUnit.reset).mayAsk 20 4 1 = false ∧ (cohS CUnit.reset).copyAt 3 4 1 = .i ∧
    (cohS { unit0 .s 0 [(3, .s)] with vec := 8 }).copyAt 3 4 1 = .s ∧ (cohS CUnit.reset).grainOf (4 / 16) = 1 ∧
    leaves (.gets 3 4 1) (cohS CUnit.reset) (fun y => y.dir == .x && y.owner == 3 && y.cache 3 == .e) = true ∧
    leaves (.gets 20 4 1) (offerS { CUnit.reset with dir := .s, vec := 2 }) (fun y => y.dir == .s && y.vec == 0x100002) = true ∧
    leaves (.gets 3 4 1) (cohS (unit0 .x 1 [(1, .m)])) (fun y => y.serving == some (3, .s) && y.msgs == [(1, .fwdGetS)]) = true ∧
    leaves (.gets 3 4 1) (cohS (unit0 .x 3 [])) (fun y => y.dir == .x && y.cache 3 == .e) = true ∧
    leaves (.gets 3 4 1) (cohS { unit0 .o 3 [] with vec := 2 }) (fun y => y.dir == .s && y.holds 3 && y.cache 3 == .s) = true ∧
    leaves (.gets 20 4 1) (offerS CUnit.reset) (fun y => y.dir == .s && y.holds 20) = true ∧
    leaves (.getm 3 4 1) (cohS (unit0 .x 3 [])) (fun y => y.dir == .x && y.owner == 3 && y.cache 3 == .m) = true ∧
    leaves (.upgrade 3 4 1) (cohS { unit0 .o 1 [(1, .o), (3, .s)] with vec := 8 }) (fun y => y.serving == some (3, .m) && y.msgs == [(1, .fwdGetM)]) = true ∧
    leaves (.upgrade 3 4 1) (cohS (unit0 .o 3 [(3, .o)])) (fun y => y.dir == .x && y.owner == 3 && y.cache 3 == .m && y.serving == none) = true ∧
    leaves (.getm 3 4 1) (cohS CUnit.reset) (fun y => y.dir == .x && y.owner == 3 && y.cache 3 == .m) = true ∧
    leaves (.upgrade 3 4 1) (cohS { unit0 .s 0 [(3, .s)] with vec := 8 }) (fun y => y.dir == .x && y.owner == 3 && y.cache 3 == .m) = true ∧
    leaves (.upgrade 3 4 1) (cohS { unit0 .s 0 [(3, .s), (5, .s)] with vec := 0x28 }) (fun y => y.serving == some (3, .m) && y.msgs == [(5, .inv)]) = true ∧
    leaves (.getm 3 4 1) (cohS (unit0 .x 1 [(1, .m)])) (fun y => y.serving == some (3, .m) && y.msgs == [(1, .fwdGetM)]) = true ∧
    leaves (.putm 3 4) (cohS { unit0 .x 3 [] with writing := [(3, .m)] }) (fun y => y == CUnit.reset) = true ∧
    leaves (.puto 3 4) (cohS { unit0 .o 3 [(2, .s)] with writing := [(3, .o)], vec := 4 }) (fun y => y.dir == .s && y.vec == 4 && y.writing == []) = true := by
  decide +kernel

theorem test_coherence_answers :
    leaves (.fwdGets 1 4) (cohS { unit0 .x 1 [(1, .m)] with msgs := [(1, .fwdGetS)], serving := some (3, .s) })
      (fun y => y.cache 1 == .o && y.cache 3 == .s && y.dir == .o && y.owner == 1 && y.msgs == []) = true ∧
    leaves (.fwdGetm 1 4) (cohS { unit0 .x 1 [(1, .m)] with msgs := [(1, .fwdGetM)], serving := some (3, .m) })
      (fun y => y.cache 1 == .i && y.cache 3 == .m && y.dir == .x && y.owner == 3) = true ∧
    leaves (.inv 5 4) (cohS { unit0 .s 0 [(3, .s), (5, .s)] with vec := 0x28, msgs := [(5, .inv)], serving := some (3, .m) })
      (fun y => y.cache 5 == .i && y.cache 3 == .m && y.dir == .x && y.owner == 3) = true ∧
    leaves (.l2Eviction 5 4) (cohS (unit0 .x 5 [(5, .e)])) (fun y => y.cache 5 == .i && y.writing == []) = true ∧
    leaves (.l2Eviction 5 4) (cohS (unit0 .x 5 [(5, .m)])) (fun y => y.cache 5 == .i && y.writing == [(5, .m)]) = true ∧
    answers (.homeTagEviction 0) (cohS (unit0 .x 5 [(5, .m)])) (fun t => t.grains == [] && t.cunit 4 == CUnit.reset) = true := by
  decide +kernel

/-- A unit of a line of the host, its port trained. -/
def hostS (x : CUnit) : State := { base with grains := [(2 ^ 42, 1)], dev := { base.dev with cxl := 3 } }.setCunit (2 ^ 46) x

theorem test_host_snoops :
    (hostS (unit0 .x 5 [(5, .m)])).hostUnit (2 ^ 51) = 2 ^ 46 ∧ hostHome (2 ^ 46) = true ∧ hostHome 4 = false ∧
    answers (.snpdata (2 ^ 51)) (hostS (unit0 .x 5 [(5, .m)])) (fun t => (t.cunit (2 ^ 46)).dir == .s && (t.cunit (2 ^ 46)).cache 5 == .s) = true ∧
    answers (.snpinv (2 ^ 51)) (hostS (unit0 .x 5 [(5, .m)])) (fun t => (t.cunit (2 ^ 46)).dir == .u && (t.cunit (2 ^ 46)).caches == []) = true ∧
    answers (.snpcur (2 ^ 51)) (hostS (unit0 .x 5 [(5, .m)])) (fun t => t == hostS (unit0 .x 5 [(5, .m)])) = true := by decide +kernel

/-! Firmware's commands. -/

/-- The state with a command in the mailbox for a context. -/
def asked (s : State) (code c : Nat) : State :=
  { s with mailbox := { Mailbox.reset with busy := true, req := putBytes [] 0 (leBytes 8 (code + c * 2 ^ 16)) } }

/-- The event answers a state whose command has ended with a result and of which a test holds. -/
def served (i : Instr) (s : State) (r : BitVec 8) (p : State → Bool) : Bool :=
  answers i s fun t => t.mailbox.result == r && t.mailbox.done && !t.mailbox.busy && p t

/-- A request of a context with a pool on quire 0. -/
def req0 : CreateReq :=
  { root := 0x200000, allowed := 1, reserve := false, stackBase := 0, stackStride := 0, framePool := 0, saveBase := 0x4000, fifoArea := 0
    trapvec := 0x80, debug := true, pools := [{ quire := 0, base := 0x10000, slots := 2 }] }

/-- Context 0 is leaving, its thread in supervisor mode. -/
def leavingS : State :=
  let s := inSuper base
  s.setCtx 0 { s.ctx 0 with leaving := true }

theorem test_context_commands :
    Serving (asked base 0x0001 5) 0x0001 5 ∧ base.dev.state ≠ 2 ∧ (base.ctx 5).live = false ∧ req0.pools.all base.poolOk = true ∧
    poolsApart req0.pools = true ∧ (base.ctx 0).live = true ∧ (base.ctx 0).inn = true ∧ base.stopped 0 = true ∧
    (inSuper base).stopped 0 = false ∧ (base.ctx 0).leaving = false ∧
    served (.createContext req0) (asked base 0x0001 5) 0 (fun t => t.ctx 5 == ctxOf req0) = true ∧
    served (.createContext req0) (asked (base.setCore 3 { base.core 3 with role1 := 2 }) 0x0001 5) 0 (fun t => (t.core 3).role 1 == 1 &&
      (t.quire 0).mxramp == BitVec.ofNat 64 (800 * 2 ^ 12 + 800) && t.mem == base.mem) = true ∧
    (base.cores.map (·.1)).Nodup ∧ base.fifoInUse 3 1 = false ∧ base.inPool 0 (3 * 262144 + 65536) 65536 = false ∧
    served (.createContext req0) (asked base 0x0001 0) 1 (fun t => t.ctxs == base.ctxs) = true ∧
    req0.root % 2 ^ 20 = 0 ∧ req0.saveBase.toNat % 4096 = 0 ∧
    served (.createContext { req0 with root := 0x180000 }) (asked base 0x0001 5) 2 (fun t => t.ctxs == base.ctxs) = true ∧
    served .destroyContext (asked base 0x0002 0) 0 (fun t => !(t.ctx 0).live && (t.thr 0).work == .free) = true ∧
    ((base.setCore 3 ((base.core 3).setTile 5 2 { Tile.reset with len := 64 })).core 3).tile 5 2 ≠ Tile.reset ∧
    served (.createContext req0) (asked (base.setCore 3 ((base.core 3).setTile 5 2 { Tile.reset with len := 64 })) 0x0001 5) 0 (fun t =>
      (t.core 3).tile 5 2 == Tile.reset) = true ∧
    served .destroyContext (asked (base.setCore 3 ((base.core 3).setTile 0 2 { Tile.reset with len := 64 })) 0x0002 0) 0 (fun t =>
      (t.core 3).tile 0 2 == Tile.reset) = true ∧
    served .destroyContext (asked base 0x0002 5) 2 (fun t => t.ctxs == base.ctxs) = true ∧
    answers .switchOut (asked (inSuper base) 0x0003 0) (fun t => (t.ctx 0).leaving && t.mem == base.mem) = true ∧
    Serving (asked leavingS 0x0003 0) 3 0 ∧
    ((leavingS.threadsOf 0).any fun e => e.2.mode == .supervisor && !e.2.halted) = true ∧
    served (.supervisorBoundExpiry 0) (asked leavingS 0x0003 0) 3 (fun t => !(t.ctx 0).leaving) = true := by
  unfold Serving
  decide +kernel

theorem test_switch_out : Serving (asked base 0x0003 0) 3 0 ∧ base.stopped 0 = true ∧ (base.ctx 0).live = true ∧ (base.ctx 0).inn = true := by
  unfold Serving
  decide +kernel

/-- Context 0 live and out, no thread of it anywhere. -/
def outS : State :=
  let s := withWork base .free
  (s.setCtx 0 { s.ctx 0 with inn := false }).setQuire 0 { s.quire 0 with slices := [] }

/-- The slices of quire 0 all held by other contexts. -/
def takenS : State := outS.setQuire 0 { outS.quire 0 with slices := (List.range 32).map (· + 1) }

theorem test_switch_in :
    Serving (asked outS 0x0004 0) 4 0 ∧ (outS.saved.find? fun e => e.1 == 0) = none ∧ (outS.giveSlices 0 [] (outS.quiresOf 0)).isSome = true ∧
    served (.switchIn [] []) (asked outS 0x0004 0) 0 (fun t => (t.ctx 0).inn && (t.quire 0).slices == [0]) = true ∧
    takenS.giveSlices 0 [] (takenS.quiresOf 0) = none ∧
    served (.switchIn [] []) (asked takenS 0x0004 0) 3 (fun t => t.ctxs == takenS.ctxs) = true := by
  unfold Serving
  decide +kernel

/-- A frozen region of 2 columns in debug mode. -/
def frozen2 : Region := { idle2 with debug := true, frozen := true, active := some plane0 }

/-- A word is what its bytes are. -/
theorem wordAt_same (m m' : List Host.Cell) (k : Nat) (h : ∀ j, k ≤ j → j < k + 8 → byteAt m j = byteAt m' j) :
    wordAt m k = wordAt m' k := by
  have g : ∀ n i, i + n ≤ 8 → bytesAt m (k + i) n = bytesAt m' (k + i) n := by
    intro n
    induction n with
    | zero => intro i _; rfl
    | succ n ih =>
      intro i hi
      rw [bytesAt, bytesAt, h (k + i) (by omega) (by omega)]
      exact congrArg _ (ih (i + 1) (by omega))
  simp only [wordAt, natAt]
  exact congrArg (fun l => BitVec.ofNat 64 (leNat l)) (g 8 0 (by omega))

/-- The tables of context 0 map its first GiB to the second one of memory. -/
def withArea (s : State) : State := { s with mem := setBytes s.mem 0x11000 (leBytes 8 0x4000009F) }

/-- The save area of context 0 lies there, whatever it holds. -/
theorem area (s : State) (acc : Acc) (ha : acc ≠ .fetch) (h1 : wordAt s.mem 0x100000 = 0x11001) (h2 : wordAt s.mem 0x11000 = 0x4000009F)
    (h3 : (s.ctx 0).root = 0x100000) (h4 : (s.ctx 0).saveBase = 0) (h5 : findTlb s.tlbs 3072 0 = fun _ => none) :
    AreaAt s acc 0 0x40000000 := by
  intro m off hm ho _
  have e1 : wordAt m 0x100000 = 0x11001 := by rw [wordAt_same m s.mem _ fun j a b => hm j (by omega), h1]
  have e2 : wordAt m 0x11000 = 0x4000009F := by rw [wordAt_same m s.mem _ fun j a b => hm j (by omega), h2]
  have hv : (0 + BitVec.ofNat 64 off : Word).toNat % 2 ^ 56 = off := by simp; omega
  have hc : canonical (0 + BitVec.ofNat 64 off) = true := by
    rw [canonical, beq_iff_eq, BitVec.signExtend_eq_setWidth_of_msb_false]
    · apply BitVec.eq_of_toNat_eq
      simp
      omega
    · rw [BitVec.msb_eq_false_iff_two_mul_lt]
      simp
      omega
  have hw : ({ s with mem := m } : State).walk ((State.ctx { s with mem := m } 0).root) off = some (0x4000009F, 30) := by
    have r : (State.ctx { s with mem := m } 0).root = 0x100000 := h3
    have d1 : off / 2 ^ 39 % 2 ^ 17 = 0 := by omega
    have d2 : off / 2 ^ 30 % 2 ^ 9 = 0 := by omega
    have p : ∀ t : State, t.ptrOk 0x11001 = true := fun t => by simp [State.ptrOk, State.tierPa, ptePa, bits]
    rw [r, State.walk, if_pos (by simp [State.tierPa]), walkLevels, State.walkFrom]
    simp only [d1, Nat.zero_mul, Nat.add_zero, e1]
    rw [if_neg (by decide), if_neg (by decide), if_neg (by decide), if_pos (p _), State.walkFrom]
    simp only [d2, Nat.zero_mul, Nat.add_zero, show ptePa 0x11001 = 0x11000 from by decide, e2]
    rw [if_neg (by decide), if_pos (by decide), if_neg (by decide), if_pos (by decide)]
    rfl
  have hk : ∀ q : Nat, (State.siteOf { s with mem := m } q off 0x4000009F 30) =
      { key := 0x40000000 + off, kind := 0, grain := 0, policy := 0, off := 0x40000000 + off, bits := 30, glob := false } := by
    intro q
    have a : ptePa 0x4000009F = 0x40000000 := by decide
    have b : off % 2 ^ 30 = off := by omega
    have c : State.kindAt { s with mem := m } 0 (0x40000000 + off) = 0 := if_pos (by omega)
    rw [State.siteOf, a, b, show pteKind 0x4000009F = 0 from by decide, c]
    rfl
  have hf : findTlb s.tlbs 3072 0 off = none := h5 ▸ rfl
  refine ⟨{ key := 0x40000000 + off, kind := 0, grain := 0, policy := 0, off := 0x40000000 + off, bits := 30, glob := false }, ?_, Nat.zero_le 1, rfl⟩
  have hp : permitted acc .supervisor 0x4000009F 0 = true := by
    cases acc <;> first | contradiction | decide
  rw [State.unitSite, State.translateFor, h4, hc, if_neg (by decide)]
  simp only [hv, State.leafFor, hf, hw, hk, hp, if_true]

/-- Context 0 with an area, a gang and a region to save. -/
def areaS : State := asked ((withArea base).setArray 0 0 ganged |>.setRegion 0 1 frozen2) 0x0003 0

theorem test_save_area : Serving areaS 3 0 ∧ areaS.stopped 0 = true ∧ (areaS.ctx 0).live = true ∧ (areaS.ctx 0).inn = true ∧
    AreaAt (areaS.settleCtx 0) .store 0 0x40000000 ∧ ((areaS.settleCtx 0).threads.map (·.1)).Nodup ∧
    ((areaS.settleCtx 0).arrays.map (·.1)).Nodup ∧ ((areaS.settleCtx 0).regions.map (·.1)).Nodup ∧
    (∀ e ∈ (areaS.settleCtx 0).threads, e.1 < 12288) ∧ (∀ e ∈ (areaS.settleCtx 0).arrays, e.1 < 192) ∧
    (∀ e ∈ (areaS.settleCtx 0).regions, e.1 < 64 ∧ e.2.first + e.2.width ≤ 40) ∧
    ((areaS.settleCtx 0).thr 0).work ≠ .free ∧ ((areaS.settleCtx 0).array 0 0).gang ≠ 0 ∧ ((areaS.settleCtx 0).region 0 1).width ≠ 0 := by
  refine ⟨by unfold Serving; decide +kernel, by decide +kernel, by decide +kernel, by decide +kernel,
    area _ _ (by decide) (by decide +kernel) (by decide +kernel) (by decide +kernel) (by decide +kernel) rfl, ?_⟩
  decide +kernel

/-- What is saved of context 0: a thread and a region. -/
def saved0 : Saved :=
  { threads := [(3, { base.thr 0 with halted := true })], arrays := [], regions := [(1, frozen2)], tiles := [], resvs := [], packets := [] }

/-- Context 0 out, its area valid or not. -/
def savedS (valid : Nat) : State :=
  { asked ((withArea outS).setRegion 0 1 idle2) 0x0004 0 with saved := [(0, saved0)], mem := setBytes (withArea outS).mem 0x40000000 (leBytes 8 valid) }

/-- The same once the slices are given. -/
def slicedS (valid : Nat) : State := ((savedS valid).giveSlices 0 [] ((savedS valid).quiresOf 0)).getD base

theorem test_saved_switch_in (valid : Nat) (h : valid = 0 ∨ valid = 1) :
    Serving (savedS valid) 4 0 ∧ ((savedS valid).saved.find? fun e => e.1 == 0) = some (0, saved0) ∧
    (savedS valid).giveSlices 0 [] ((savedS valid).quiresOf 0) = some (slicedS valid) ∧
    AreaAt (savedS valid) .load 0 0x40000000 ∧ AreaAt (slicedS valid) .load 0 0x40000000 ∧ (savedS valid).poison = [] ∧
    (slicedS valid).poison = [] ∧ bit (wordAt (savedS valid).mem 0x40000000) 0 = decide (valid = 1) ∧ (savedS valid).partsFree saved0 = true ∧
    ((savedS valid).setThr 3 (base.thr 0)).partsFree saved0 = false ∧
    (saved0.regions.all fun e => (savedS valid).fits 0 e.1 (newPlace [] e.1) e.2) = true ∧ (saved0.threads.map (·.1)).Nodup ∧
    ∀ e ∈ saved0.threads, e.1 < 12288 := by
  rcases h with rfl | rfl <;>
  refine ⟨by unfold Serving; decide +kernel, by decide +kernel, by decide +kernel,
    area _ _ (by decide) (by decide +kernel) (by decide +kernel) (by decide +kernel) (by decide +kernel) rfl,
    area _ _ (by decide) (by decide +kernel) (by decide +kernel) (by decide +kernel) (by decide +kernel) rfl, ?_⟩ <;>
  decide +kernel

/-- Quire 1 with six of its eight spare cores in use, field 0 with its spare column in use. -/
def sparedS : State := { base with dev := { base.dev with spares := [(1, 6)], colTable := [(3, 40)] } }

/-- A table of one region of 2 columns. -/
def table1 : RegionReq := { folio := 0, entries := [{ first := 0, width := 2, owner := 0, east := false, debug := true }] }

/-- Region 1 of field 0 has been told to run. -/
def runS : State := base.setRegion 0 1 { idle2 with phase := .running }

theorem test_device_commands :
    table1.folio < 4 ∧ base.dev.fields.getLsbD table1.folio = true ∧ entriesOk 0 table1.entries = true ∧
    ((List.range 16).any fun n => base.affects 0 table1.entries n && (base.region 0 n).runs) = false ∧
    ((List.range 16).any fun n => runS.affects 0 table1.entries n && (runS.region 0 n).runs) = true ∧
    served (.setRegionTable table1) (asked base 0x0005 0) 0 (fun t => t.region 0 0 == { idle2 with debug := true }) = true ∧
    served (.setRegionTable table1) (asked runS 0x0005 0) 1 (fun t => t.regions == runS.regions) = true ∧
    base.present 1 = true ∧ (base.eng 1).launch = none ∧ base.contextsOn 1 = [] ∧ base.regionAt 0 7 = none ∧
    served (.repair (.quire 1 [5, 9] 0x100000)) (asked sparedS 0x0008 0) 0 (fun t => tget 0 t.dev.coreTable 197 == 198 && tget 0 t.dev.coreTable 201 == 199 &&
      tget 0 t.dev.spares 1 == 8 && t.dev.generation == base.dev.generation + 1) = true ∧
    served (.repair (.quire 1 [5, 9, 10] 0x100000)) (asked sparedS 0x0008 0) 0 (fun t => !t.dev.present.getLsbD 1) = true ∧
    base.dev.spareUsed 0 = false ∧
    served (.repair (.column 0 7)) (asked base 0x0008 0) 0 (fun t => t.dev.colTable == [(7, 40)]) = true ∧
    sparedS.dev.spareUsed 0 = true ∧ sparedS.regionAt 0 7 = none ∧
    served (.repair (.column 0 7)) (asked sparedS 0x0008 0) 1 (fun t => t.dev == sparedS.dev) = true ∧
    base.dev.ports ≠ 0 ∧ served .unknownCommand (asked base 0x000A 0) 0xFF (fun t => t.ctxs == base.ctxs) = true ∧
    answers .mbdoorWriteWhileBusy (asked base 0x0001 0) (fun t => t.mailbox.ovr && t.mailbox.busy) = true ∧
    answers (.preemptionBoundExpiry 0 1) (runS.setCtx 0 { runS.ctx 0 with leaving := true }) (fun t => (t.region 0 1).frozen && (t.region 0 1).preempted) = true := by
  decide +kernel

/-- An image that Dipraken signed, and one without a signature. -/
def signedImage (body : List Byte) : Signed :=
  { body := body, key := Config.vendorKey, sig := leBytes 64 (Config.sm2One Config.vendorKey (Config.sm3 body)).toNat }
def unsigned : Signed := { body := [1, 2], key := Config.vendorKey, sig := [] }

theorem test_images : verifies (signedImage [1, 2]) = true ∧ verifies unsigned = false := by
  refine ⟨by simp [verifies, romKeyDigest, sm2Accepts, signedImage], ?_⟩
  have h : ∀ x : BitVec 512, (([] : List Byte) == leBytes 64 x.toNat) = false := fun x => by
    rw [beq_eq_false_iff_ne]
    exact fun e => by simpa [leBytes_length] using congrArg List.length e
  simp [verifies, sm2Accepts, unsigned, h]

theorem test_update : Serving (asked base 0x0009 0) 9 0 := by
  unfold Serving
  decide +kernel

/-! Outside and power. -/

/-- The machine with ports, links and a peer. -/
def outside0 : State := { base with dev := { base.dev with cxl := 3, ports := 3, links := 5, zorey := some 7, peers := [(9, 0x10000, 0x1000)], decoders := [(0, (0x10000, 0x100))], exported := [(0x10000, 0x1000)] } }

/-- A write buffer with a kind-4 store. -/
def kind4 : State := outside0.setCore 0 { outside0.core 0 with wbuf := [{ thread := 0, ctx := 0, via := ⟨0x1000, 12, false⟩, kind := 4, grain := 1, policy := 0, cells := cellsFrom (2 ^ 50 + 64) [5] }] }

theorem test_outside :
    outside0.deviceSpan 0x10040 1 = true ∧ outside0.deviceSpan 0x10040 2 = true ∧ outside0.peerMay 9 0x10040 2 = true ∧
    outside0.cxlMem 0 0x10040 2 = true ∧ outside0.cxlMem 1 0x10040 1 = false ∧ outside0.cxlMem 0 0x10100 1 = false ∧
    answers (.hostCxlMemAccess ⟨0, 0x10040⟩ none) outside0 (fun t => t.mem == outside0.mem) = true ∧
    answers (.hostCxlMemAccess ⟨0, 0x10040⟩ (some [7, 8])) outside0 (fun t => byteAt t.mem 0x10040 == 7 && byteAt t.mem 0x10041 == 8) = true ∧
    answers (.peerAccess 9 0x10040 (some [7, 8])) outside0 (fun t => byteAt t.mem 0x10041 == 8) = true ∧
    answers (.kind4StoreFailure 0 0) kind4 (fun t => (t.core 0).wbuf == [] && (t.thr 0).peerDrops == 1 && (t.thr 0).peerFail == some 0x1000) = true ∧
    base.poisonUnit 0x14086 1 = some (0x14080, 128) ∧ answers (.poisonDetect 0x14086 1) base (fun t => t.poison == [(0x14080, 128)]) = true ∧
    answers (.zoreyLinkDown 2) outside0 (fun t => t.dev.links == 1) = true ∧
    answers (.hostPortTrainingLoss 1) outside0 (fun t => t.dev.ports == 1 && t.dev.cxl == 1) = true := by decide +kernel

/-- A start that finds everything. -/
def start0 : StartOutcome :=
  { tier2 := true, quires := 0xFFFF, fields := 0xF, ports := 3, portLinks := [], cxl := 1, links := 0, zorey := none, peers := [] }

/-- Flash with signed images in the first slots, and one with no image. -/
def flashS (s : State) : State := (s.flash false 0 (signedImage [1])).flash true 0 (signedImage [2])

theorem signed_verifies (b : List Byte) : verifies (signedImage b) = true := by
  simp [verifies, romKeyDigest, sm2Accepts, signedImage]

theorem test_power :
    (flashS base).dev.verify = .ok (0, 0) ∧ base.dev.verify = .error 1 := by
  have e : verifies { body := [], key := [], sig := [] } = false := by
    have h : ∀ x : BitVec 512, (([] : List Byte) == leBytes 64 x.toNat) = false := fun x => by
      rw [beq_eq_false_iff_ne]
      exact fun e => by simpa [leBytes_length] using congrArg List.length e
    simp [verifies, sm2Accepts, h]
  have h1 : (flashS base).dev.claspImages = [signedImage [1], { body := [], key := [], sig := [] }] := rfl
  have h2 : (flashS base).dev.mainImages = [signedImage [2], { body := [], key := [], sig := [] }] := rfl
  have h3 : (flashS base).dev.firstSlot 1 (flashS base).dev.claspSlot = 0 := by decide +kernel
  have h4 : (flashS base).dev.firstSlot 2 (flashS base).dev.mainSlot = 0 := by decide +kernel
  have h5 : (flashS base).dev.blocks = [] := rfl
  have h6 : base.dev.claspImages = [] := rfl
  constructor
  · simp [Device.verify, pickSlot, slotImage, nth, h1, h2, h3, h4, h5, signed_verifies]
  · simp [Device.verify, pickSlot, slotImage, nth, h6, e]

theorem test_power_fails : base.dev.power = true ∧
    answers (.powerFail 0 0) (withBytes base (2 ^ 51) [6]) (fun t => !t.dev.power && t.mem == [(2 ^ 51, 6)]) = true := by decide +kernel

/-- A device without power and without an image. -/
def darkS : State := { base with dev := { base.dev with power := false } }

theorem test_power_fails_in_a_start : darkS.dev.reaches 1 = true ∧ darkS.dev.reaches 2 = false ∧ (1, 0) ∈ darkS.dev.plan ∧
    (2, 0) ∈ darkS.dev.plan ∧ ∃ t, exec (.powerFail 1 0) darkS = .next t ∧ t.dev.power = false := by
  have h : darkS.dev.verify = .error 1 := test_power.2
  have h1 : darkS.dev.reaches 1 = true := by simp [Device.reaches, h]
  have h2 : darkS.dev.plan.contains (1, 0) = true := by decide +kernel
  refine ⟨h1, by simp [Device.reaches, h], by decide +kernel, by decide +kernel, darkS.restart (darkS.dev.stoppedAt (1, 0)), ?_, rfl⟩
  show event darkS (if (1 : Nat) = 0 then _ else if darkS.dev.power = false ∧ darkS.dev.plan.contains (1, 0) = true ∧
    darkS.dev.reaches 1 = true then _ else _) = _
  rw [if_neg (by decide), if_pos ⟨rfl, h2, h1⟩]
  rfl

/-! The debug port. -/

/-- Context 0 with its debug flag, thread 0 halted as a test asks, and a region of it in debug mode. -/
def dbgS (halted : Bool) (g : Region) : State :=
  let s := base.setTh { base.th with halted := halted }
  asked ((s.setCtx 0 { s.ctx 0 with debug := true }).setRegion 0 1 g) 0x0007 0

theorem test_debug_threads :
    Serving (dbgS true idle2) 7 0 ∧ Serving (asked base 0x0007 0) 7 0 ∧ ((dbgS true idle2).ctx 0).debug = true ∧ (base.ctx 0).debug = false ∧
    (base.thr 0).work ≠ .free ∧ canonical 0x40 = true ∧
    served (.debugHaltThread 0) (asked base 0x0007 0) 1 (fun t => t.threads == base.threads) = true ∧
    served (.debugHaltThread 0) (dbgS false idle2) 0 (fun t => (t.thr 0).haltAsked) = true ∧
    served (.debugHaltThread 0) (waits (withRegs (dbgS false idle2) [(2, 0x100)]) (.waitv 3 0x100 8 .plain .thread none)) 0 (fun t =>
      (t.thr 0).wait == .none) = true ∧
    served (.debugHaltThread 0) (waits (dbgS false idle2) (.waite none)) 0 (fun t => (t.thr 0).wait == .none) = true ∧
    served (.debugResumeThread 0 0x80) (dbgS true idle2) 0 (fun t => !(t.thr 0).halted && (t.thr 0).pc == 0) = true ∧
    served (.debugResumeThread 0 0x80) ((dbgS true idle2).setTh { (dbgS true idle2).th with trapDbl := true }) 0 (fun t => !(t.thr 0).halted && (t.thr 0).pc == 0x80) = true ∧
    served (.debugReadThread 0 8) (withRegs (dbgS true idle2) [(1, 5)]) 0 (fun t => tget 0 t.mailbox.resp 0 == 5) = true ∧
    served (.debugWriteThread 0 (8 * 63) 0x40) (dbgS true idle2) 0 (fun t => (t.thr 0).rs 63 == 0x40) = true ∧
    ((dbgS false idle2).thr 1).work = .free ∧
    served (.debugWriteStepState 1 2 [0x40, 0, 0, 0]) (dbgS false idle2) 0 (fun t => (t.thr 1).stepctl == 2 && (t.thr 1).work == .free) = true ∧
    served (.debugWriteStepState 0 1 [0x40, 0, 0, 0]) (dbgS false idle2) 0 (fun t => (t.thr 0).stepctl == 1 && nth 0 (t.thr 0).brk.toList 0 == 0x40) = true := by
  unfold Serving
  decide +kernel

theorem test_debug_regions :
    served (.debugFreezeRegion 0 1) (dbgS false { idle2 with debug := true }) 0 (fun t => (t.region 0 1).frozen) = true ∧
    served (.debugThawRegion 0 1) (dbgS false frozen2) 0 (fun t => !(t.region 0 1).frozen) = true ∧
    served (.debugStepRegion 0 1) (dbgS false frozen2) 0 (fun t => (t.region 0 1).frozen) = true ∧
    frozen2.part 1 0x1000 = some (.head 0) ∧ InDebug (dbgS false frozen2) 0 0 1 ∧
    frozen2.part 1 0x1080 ≠ none ∧ frozen2.part 1 0x10300 ≠ none ∧
    served (.debugReadRegion 0 1 0x1080) (dbgS false frozen2) 0 (fun t => t.regions == (dbgS false frozen2).regions) = true ∧
    served (.debugReadRegion 0 1 0x10300) (dbgS false frozen2) 0 (fun t => t.regions == (dbgS false frozen2).regions) = true ∧
    served (.debugReadRegion 0 1 0x1000) (dbgS false frozen2) 0 (fun t => t.regions == (dbgS false frozen2).regions) = true ∧
    served (.debugWriteRegion 0 1 0x1008 0) (dbgS false frozen2) 0 (fun t => t.mem == base.mem) = true ∧
    served (.debugThawRegion 0 1) (dbgS false { frozen2 with preempted := true }) 0 (fun t => !(t.region 0 1).frozen && !(t.region 0 1).preempted) = true ∧
    served (.debugReadRegion 0 1 0x1000) (dbgS false { frozen2 with debug := false }) 0 (fun t => t.regions == (dbgS false { frozen2 with debug := false }).regions) = true ∧
    served (.debugReadRegion 0 1 0x1000) (asked base 0x0007 0) 1 (fun t => t.regions == base.regions) = true := by
  unfold InDebug
  decide +kernel

/-- Context 0 with its debug flag and out, the record of its thread 3 halted with 9 in s8. -/
def savedD : State :=
  let s := savedS 1
  let s := { s with mem := setBytes (setBytes s.mem (0x40001000 + 2688 * 3 + 0xA60) [0x21]) (0x40001000 + 2688 * 3 + 64) [9] }
  asked (s.setCtx 0 { s.ctx 0 with debug := true }) 0x0007 0

theorem test_debug_saved :
    Serving savedD 7 0 ∧ (savedD.ctx 0).debug = true ∧ (savedD.ctx 0).inn = false ∧ (savedD.thr 3).work = .free ∧
    (((savedD.savedOf 0).threads.find? fun e => e.1 == 3).isSome && ((savedD.savedOf 0).regions.find? fun e => e.1 == 1).isSome) = true ∧
    ((savedD.meetThread 0 3).loadThread 0 3 { base.thr 0 with halted := true }).halted = true ∧
    served (.debugFreezeRegion 0 1) savedD 0 (fun t => t.regions == savedD.regions) = true ∧
    served (.debugThawRegion 0 1) savedD 0 (fun t => (tget frozen2 (t.savedOf 0).regions 1).preempted) = true ∧
    served (.debugStepRegion 0 1) savedD 1 (fun t => t.regions == savedD.regions) = true ∧
    (savedD.meetSaved 0 (folioOff 0 + 0x1008) 1).savedWord 0 (folioOff 0 + 0x1008) = some 0 ∧
    served (.debugReadRegion 0 1 0x1008) savedD 0 (fun t => t.mem == savedD.mem) = true ∧
    served (.debugWriteRegion 0 1 0x1008 7) savedD 0 (fun t => wordAt t.mem (0x40000000 + folioOff 0 + 0x1008) == 7) = true := by
  unfold Serving
  decide +kernel

/-! The step. -/

/-- Thread 0 has its turn. -/
theorem base_turn : Turn base 0 where
  quiet := by decide +kernel
  first := ⟨[], [1, 2, 3], by decide +kernel, fun _ h => nomatch h⟩
  able := by decide +kernel
  noHalt := by decide +kernel

/-- A test of what the fetch of thread 0 gives. -/
def fetched (s : State) (p : Fetched → Bool) : Bool := p ({ s with cur := 0 } : State).fetchInstr.1

theorem test_step_fetch :
    fetched base (fun | .instr i => i == .addi 0 0 0 | _ => false) = true ∧
    fetched (State.reset.withFetchWord 32 0x43) (fun | .illegal => true | _ => false) = true ∧
    fetched (base.setTh { base.th with pc := 0x1000 }) (fun | .fault _ _ => true | _ => false) = true := by decide +kernel

theorem test_fetch_word : (0x00000002 : Nat) % 128 ≠ 127 ∧ ∃ s₁, FetchesWord base base.th.pc 0x00000002 s₁ := by
  refine ⟨by decide, ?_⟩
  have h : okWith (base.translateFor base.myCore base.myQuire base.th.ctx base.th.mode .fetch base.th.pc) (fun x =>
      !(x.2.meets x.1).poisoned x.1.key 4 && natAt (x.2.readSite x.1 4).2.2.mem x.1.key 4 == 2) = true := by decide +kernel
  revert h
  generalize hr : base.translateFor base.myCore base.myQuire base.th.ctx base.th.mode .fetch base.th.pc = r
  intro h
  match r, hr, h with
  | .ok (site, s₁), hr, h =>
    simp only [okWith, Bool.and_eq_true, Bool.not_eq_true', beq_iff_eq] at h
    exact ⟨_, by decide +kernel, .inr ⟨by decide +kernel, site, s₁, hr, h.1, h.2.symm, rfl⟩⟩

/-- A thread that has fetched an IMM chain. -/
def chainS : State := base.setTh { base.th with ibuf := [(0, 0x7F), (4, 0x02)] }

theorem test_fetch_chain : FetchesWords chainS chainS.th.pc [0x7F, 0x02] chainS ∧ (match decode (wordsBytes [0x7F, 0x02]) with
      | .ok x => x.1 == .imm 0 none (.addi 0 0 0)
      | .error _ => false) = true :=
  ⟨.two ⟨by decide +kernel, .inl ⟨by decide +kernel, rfl⟩⟩ (by decide) ⟨by decide +kernel, .inl ⟨by decide +kernel, rfl⟩⟩ (by decide), by decide +kernel⟩

theorem test_step_event : Instr.scheduled (.snpcur 0) = true := by decide +kernel

/-- A test of what a step answers. -/
def stepped (o : Out) (p : State → Bool) (f : Fault → Bool) : Bool :=
  match o with
  | .next t => p t
  | .fault x => f x
  | .refused _ => false

theorem test_step_runs : stepped (step base) (fun t => t.th.pc == 4 && decide (Memory.wf t.mem)) (fun _ => false) = true ∧
    stepped (step { State.reset with dev := { State.reset.dev with power := false } }) (fun _ => false) (· == .noPower) = true := by
  decide +kernel

/-- Row 0 of quire 0 keeps a pin on the line at 0x14000, and thread 0 has fetched an AT.ADD to the word at 0x100. -/
def pinnedS : State :=
  let s := withRegs base [(2, 0x100), (4, 5)]
  let p : Pin := { op := 0, key := 0x14000, via := ⟨0, 12, false⟩, bytes := [], bad := false, taken := false }
  (s.setTh { s.th with ibuf := [(0, nth 0 (encode (.atAAdd 3 2 4 .plain .device)) 0)] }).setArray 0 0 { ganged with pins := [p] }

theorem pinned_turn : Turn pinnedS 0 where
  quiet := by decide +kernel
  first := ⟨[], [1, 2, 3], by decide +kernel, fun _ h => nomatch h⟩
  able := by decide +kernel
  noHalt := by decide +kernel

theorem test_step_keeps_pinned_lines :
    answers (.atAAdd 3 2 4 .plain .device) pinnedS (fun t => wordAt t.mem 0x14100 != 0) = true ∧
    stepped (step pinnedS) (fun t => t.th.wait == .retry && t.th.pc == 0 && t.mem == pinnedS.mem) (fun _ => false) = true := by
  decide +kernel

/-- Every instruction that some word encodes has one; those of events have none. -/
theorem test_encode : encode (.addi 3 4 5) ≠ [] ∧ Instr.wellFormed (.addi 3 4 5) ∧ encode (.snpcur 0) = [] ∧
    (match decode (wordsBytes (encode (.addi 3 4 5))) with
      | .ok x => x.1 == .addi 3 4 5
      | .error _ => false) = true := by decide

end Sys2Proof.Tests
end

section
/-! SUPPORT. The integer row (R282, R145, R341): the values of its operations as integers, naturals and lists of bits, and the one
shape in which its instructions complete. -/

namespace Sys2Proof.IntegerRow

open Machine Says

/-! Arithmetic at a width, through the integer or the natural number that a word stands for. -/

section Width

variable {w : Nat} (x y : BitVec w)

theorem add_eq_ofInt : x + y = BitVec.ofInt w (x.toInt + y.toInt) := by
  rw [BitVec.ofInt_add, BitVec.ofInt_toInt, BitVec.ofInt_toInt]

theorem sub_eq_ofInt : x - y = BitVec.ofInt w (x.toInt - y.toInt) :=
  BitVec.eq_of_toInt_eq (by rw [BitVec.toInt_sub, BitVec.toInt_ofInt])

theorem mul_eq_ofInt : x * y = BitVec.ofInt w (x.toInt * y.toInt) := by
  rw [BitVec.ofInt_mul, BitVec.ofInt_toInt, BitVec.ofInt_toInt]

theorem shiftLeft_eq_ofNat (k : Nat) : x <<< k = BitVec.ofNat w (x.toNat * 2 ^ k) :=
  BitVec.eq_of_toNat_eq (by rw [BitVec.toNat_shiftLeft, BitVec.toNat_ofNat, Nat.shiftLeft_eq])

theorem ushiftRight_eq_ofNat (k : Nat) : x >>> k = BitVec.ofNat w (x.toNat / 2 ^ k) :=
  BitVec.eq_of_toNat_eq (by
    rw [BitVec.toNat_ushiftRight, BitVec.toNat_ofNat, Nat.shiftRight_eq_div_pow,
      Nat.mod_eq_of_lt (Nat.lt_of_le_of_lt (Nat.div_le_self _ _) x.isLt)])

theorem sshiftRight_eq_ofInt (k : Nat) : x.sshiftRight k = BitVec.ofInt w (x.toInt / 2 ^ k) := by
  rw [← BitVec.ofInt_toInt (x := x.sshiftRight k), BitVec.toInt_sshiftRight, Int.shiftRight_eq_div_pow]
  norm_cast

theorem minS_eq_ofInt : minS x y = BitVec.ofInt w (min x.toInt y.toInt) := by
  simp only [minS, BitVec.slt_iff_toInt_lt]
  split
  · next h => rw [Int.min_eq_left (Int.le_of_lt h), BitVec.ofInt_toInt]
  · next h => rw [Int.min_eq_right (Int.not_lt.mp h), BitVec.ofInt_toInt]

theorem maxS_eq_ofInt : maxS x y = BitVec.ofInt w (max x.toInt y.toInt) := by
  simp only [maxS, BitVec.slt_iff_toInt_lt]
  split
  · next h => rw [Int.max_eq_right (Int.le_of_lt h), BitVec.ofInt_toInt]
  · next h => rw [Int.max_eq_left (Int.not_lt.mp h), BitVec.ofInt_toInt]

theorem minU_eq_ofNat : minU x y = BitVec.ofNat w (min x.toNat y.toNat) := by
  simp only [minU, BitVec.ult_iff_toNat_lt]
  split
  · next h => rw [Nat.min_eq_left (Nat.le_of_lt h), BitVec.ofNat_toNat, BitVec.setWidth_eq]
  · next h => rw [Nat.min_eq_right (Nat.not_lt.mp h), BitVec.ofNat_toNat, BitVec.setWidth_eq]

theorem maxU_eq_ofNat : maxU x y = BitVec.ofNat w (max x.toNat y.toNat) := by
  simp only [maxU, BitVec.ult_iff_toNat_lt]
  split
  · next h => rw [Nat.max_eq_right (Nat.le_of_lt h), BitVec.ofNat_toNat, BitVec.setWidth_eq]
  · next h => rw [Nat.max_eq_left (Nat.not_lt.mp h), BitVec.ofNat_toNat, BitVec.setWidth_eq]

/-! Division and remainder, with the corners of R145. -/

theorem toInt_eq_zero_iff : y.toInt = 0 ↔ y = 0 := by
  rw [← BitVec.toInt_inj, BitVec.ofNat_eq_ofNat, BitVec.toInt_zero]

theorem toNat_eq_zero_iff : y.toNat = 0 ↔ y = 0 := by
  rw [← BitVec.toNat_inj, BitVec.ofNat_eq_ofNat, BitVec.toNat_zero]

theorem divS_eq_ofInt : divS x y = BitVec.ofInt w (quot x.toInt y.toInt) := by
  simp only [divS, quot, toInt_eq_zero_iff]
  split
  · rw [← BitVec.neg_one_eq_allOnes, BitVec.ofInt_neg]; rfl
  · exact BitVec.eq_of_toInt_eq (by rw [BitVec.toInt_sdiv, BitVec.toInt_ofInt])

theorem remS_eq_ofInt : remS x y = BitVec.ofInt w (remain x.toInt y.toInt) := by
  simp only [remS, remain, toInt_eq_zero_iff]
  split
  · rw [BitVec.ofInt_toInt]
  · rw [← BitVec.toInt_srem, BitVec.ofInt_toInt]

theorem divU_eq_ofNat : divU x y = BitVec.ofNat w (quotN w x.toNat y.toNat) := by
  simp only [divU, quotN, toNat_eq_zero_iff]
  split
  · exact BitVec.eq_of_toNat_eq (by
      rw [BitVec.toNat_allOnes, BitVec.toNat_ofNat, Nat.mod_eq_of_lt (Nat.sub_lt (Nat.two_pow_pos w) Nat.one_pos)])
  · rw [← BitVec.toNat_udiv, BitVec.ofNat_toNat, BitVec.setWidth_eq]

theorem remU_eq_ofNat : remU x y = BitVec.ofNat w (remainN x.toNat y.toNat) := by
  simp only [remU, remainN, toNat_eq_zero_iff]
  split
  · rw [BitVec.ofNat_toNat, BitVec.setWidth_eq]
  · rw [← BitVec.toNat_umod, BitVec.ofNat_toNat, BitVec.setWidth_eq]

end Width

/-! Comparisons. -/

theorem ofBool_decide (p : Prop) [Decidable p] : ofBool (decide p) = truth p := by
  simp [ofBool, truth]

theorem sltV_eq_truth (x y : Word) : sltV x y = truth (x.toInt < y.toInt) :=
  ofBool_decide (x.toInt < y.toInt)

theorem sltnV_eq_truth (x y : Word) : sltnV x y = truth (x.toNat < y.toNat) :=
  ofBool_decide (x.toNat < y.toNat)

theorem signExtend_sltV (x y : BitVec 32) : (sltV x y).signExtend 64 = truth (x.toInt < y.toInt) := by
  simp only [sltV, truth, BitVec.slt_iff_toInt_lt]
  split <;> rfl

theorem signExtend_sltnV (x y : BitVec 32) : (sltnV x y).signExtend 64 = truth (x.toNat < y.toNat) := by
  simp only [sltnV, truth, BitVec.ult_iff_toNat_lt]
  split <;> rfl

/-! The low 32 bits. -/

theorem toNat_low32 (x : Word) : (low32 x).toNat = nat32 x := BitVec.toNat_setWidth 32 x

/-- The low 5 bits of a count are those of its low 32 bits. -/
theorem toNat_low32_mod (x : Word) : (low32 x).toNat % 32 = x.toNat % 32 := by
  rw [toNat_low32, nat32]
  omega

theorem low32_andn (x y : Word) : low32 x &&& ~~~low32 y = low32 (x &&& ~~~y) := by
  rw [low32, low32, low32, BitVec.setWidth_and, BitVec.setWidth_not (by decide)]

theorem shl32_eq_ofNat (x y : Word) : shl32 (low32 x) (low32 y) = BitVec.ofNat 32 (nat32 x * 2 ^ (y.toNat % 32)) := by
  rw [shl32, shiftLeft_eq_ofNat, toNat_low32_mod, toNat_low32]

theorem shr32_eq_ofNat (x y : Word) : shr32 (low32 x) (low32 y) = BitVec.ofNat 32 (nat32 x / 2 ^ (y.toNat % 32)) := by
  rw [shr32, ushiftRight_eq_ofNat, toNat_low32_mod, toNat_low32]

theorem sha32_eq_ofInt (x y : Word) : sha32 (low32 x) (low32 y) = BitVec.ofInt 32 (int32 x / 2 ^ (y.toNat % 32)) := by
  rw [sha32, sshiftRight_eq_ofInt, toNat_low32_mod]
  rfl

/-! Counts of bits and reorderings (R341). -/

theorem leadingZeros_eq_length (x : Word) (n : Nat) :
    leadingZeros x n = ((List.range n).reverse.takeWhile fun i => !x.getLsbD i).length := by
  induction n with
  | zero => rfl
  | succ n ih =>
    rw [leadingZeros, List.range_succ, List.reverse_append, List.reverse_singleton, List.singleton_append, List.takeWhile_cons]
    cases x.getLsbD n <;> simp [ih, Nat.add_comm]

theorem trailingZeros_eq_length (x : Word) (i n : Nat) :
    trailingZeros x i n = ((List.range' i n).takeWhile fun i => !x.getLsbD i).length := by
  induction n generalizing i with
  | zero => rfl
  | succ n ih =>
    rw [trailingZeros, List.range'_succ, List.takeWhile_cons]
    cases x.getLsbD i <;> simp [ih, Nat.add_comm]

theorem popCount_eq_length (x : Word) (n : Nat) : popCount x n = ((List.range n).filter fun i => x.getLsbD i).length := by
  induction n with
  | zero => rfl
  | succ n ih =>
    rw [popCount, List.range_succ, List.filter_append, List.length_append, ih]
    cases h : x.getLsbD n <;> simp [h, Nat.add_comm]

/-- The low bits of a number add up to it. -/
theorem sum_testBit (m n : Nat) : ((List.range n).map fun i => (m.testBit i).toNat * 2 ^ i).sum = m % 2 ^ n := by
  induction n with
  | zero => simp [Nat.mod_one]
  | succ n ih =>
    rw [List.range_succ, List.map_append, List.sum_append, ih, Nat.mod_pow_succ, List.map_singleton, List.sum_singleton,
      Nat.toNat_testBit, Nat.mul_comm]

theorem bitReverse_eq_sum (x : Word) :
    bitReverse x = BitVec.ofNat 64 ((positions.map fun i => (x.getLsbD (63 - i)).toNat * 2 ^ i).sum) := by
  have hbit : ∀ i ∈ positions, (x.getLsbD (63 - i)).toNat * 2 ^ i = (x.reverse.toNat.testBit i).toNat * 2 ^ i := by
    intro i hi
    have hlt : i < 64 := List.mem_range.mp hi
    rw [BitVec.testBit_toNat, BitVec.getLsbD_reverse, BitVec.getMsbD_eq_getLsbD]
    simp [hlt]
  rw [List.map_congr_left hbit, positions, sum_testBit, Nat.mod_eq_of_lt x.reverse.isLt, BitVec.ofNat_toNat, BitVec.setWidth_eq]
  rfl

theorem leNat_append_singleton (bs : List Byte) (b : Byte) : leNat (bs ++ [b]) = leNat bs + 256 ^ bs.length * b.toNat := by
  induction bs with
  | nil => simp [leNat]
  | cons c bs ih =>
    rw [List.cons_append, leNat, leNat, ih, List.length_cons, Nat.pow_succ, Nat.mul_add, ← Nat.mul_assoc,
      Nat.mul_comm 256 (256 ^ _), Nat.add_assoc]

/-- Read from its highest byte down, byte i of n weighs as byte n - 1 - i. -/
theorem leNat_reverse_leBytes (n x : Nat) :
    leNat (leBytes n x).reverse = ((List.range n).map fun i => x / 2 ^ (8 * i) % 256 * 2 ^ (8 * n - 8 - 8 * i)).sum := by
  induction n generalizing x with
  | zero => rfl
  | succ n ih =>
    have hterm : ∀ i ∈ List.range n, x / 256 / 2 ^ (8 * i) % 256 * 2 ^ (8 * n - 8 - 8 * i) =
        x / 2 ^ (8 * (i + 1)) % 256 * 2 ^ (8 * (n + 1) - 8 - 8 * (i + 1)) := by
      intro i _
      rw [Nat.div_div_eq_div_mul, show 256 * 2 ^ (8 * i) = 2 ^ (8 * (i + 1)) from by
          rw [Nat.mul_add, Nat.pow_add, Nat.mul_comm],
        show 8 * (n + 1) - 8 - 8 * (i + 1) = 8 * n - 8 - 8 * i by omega]
    have hfirst : 256 ^ n * (BitVec.ofNat 8 x).toNat = x / 2 ^ (8 * 0) % 256 * 2 ^ (8 * (n + 1) - 8 - 8 * 0) := by
      rw [show 8 * (n + 1) - 8 - 8 * 0 = 8 * n by omega, Nat.pow_mul, Nat.pow_mul, Nat.pow_zero, Nat.div_one,
        BitVec.toNat_ofNat, Nat.mul_comm]
    rw [leBytes, List.reverse_cons, leNat_append_singleton, List.length_reverse, leBytes_length, ih, List.map_congr_left hterm,
      hfirst, List.range_succ_eq_map, List.map_cons, List.sum_cons, List.map_map, Nat.add_comm]
    rfl

theorem byteSwap_eq_sum (x : Word) :
    byteSwap x = BitVec.ofNat 64 (((List.range 8).map fun i => x.toNat / 2 ^ (8 * i) % 256 * 2 ^ (56 - 8 * i)).sum) := by
  rw [byteSwap, leNat_reverse_leBytes]

/-! Immediates (R279). -/

theorem toInt_imm13 (i : BitVec 13) : (imm13 i).toInt = i.toInt := BitVec.toInt_signExtend_of_le (by decide)

/-- A count of 6 bits is below 64. -/
theorem count_mod (n : BitVec 6) : (n.setWidth 64).toNat % 64 = n.toNat := by
  rw [BitVec.toNat_setWidth]
  omega

/-- A sign-extended immediate adds the integer that it stands for. -/
theorem add_signExtend {w : Nat} (x : Word) (i : BitVec w) : x + i.signExtend 64 = BitVec.ofInt 64 (x.toInt + i.toInt) := by
  rw [BitVec.ofInt_add, BitVec.ofInt_toInt]
  rfl

theorem slt64_imm13 (x : Word) (i : BitVec 13) : slt64 x (imm13 i) = truth (x.toInt < i.toInt) := by
  rw [← toInt_imm13]
  exact ofBool_decide _

theorem shl64_count (x : Word) (n : BitVec 6) : shl64 x (n.setWidth 64) = BitVec.ofNat 64 (x.toNat * 2 ^ n.toNat) := by
  rw [shl64, count_mod, shiftLeft_eq_ofNat]

theorem shr64_count (x : Word) (n : BitVec 6) : shr64 x (n.setWidth 64) = BitVec.ofNat 64 (x.toNat / 2 ^ n.toNat) := by
  rw [shr64, count_mod, ushiftRight_eq_ofNat]

theorem sha64_count (x : Word) (n : BitVec 6) : sha64 x (n.setWidth 64) = BitVec.ofInt 64 (x.toInt / 2 ^ n.toNat) := by
  rw [sha64, count_mod, sshiftRight_eq_ofInt]

theorem signExtend_shiftLeft (i : BitVec 19) : i.signExtend 64 <<< 13 = BitVec.ofInt 64 (i.toInt * 2 ^ 13) := by
  rw [BitVec.shiftLeft_eq_mul_twoPow, BitVec.ofInt_mul]
  rfl

theorem mulhUU_eq_ofInt (x y : Word) : mulhUU x y = BitVec.ofInt 64 ((x.toNat : Int) * y.toNat / 2 ^ 64) := by
  rw [mulhUU, ← BitVec.ofInt_natCast]
  norm_cast

/-! How an instruction of the row completes: it writes a register and moves on by one word. -/

section Completion

variable {s : State} {d a b : SReg} {v : Word} (i : Instr)

theorem completes_ws {st : Nat} (hq : Quiet s) (he : exec i s = finish s (.ok ((s.ws d v st).retire 1))) :
    ∃ st, Completes i s (s.th.ws d v st) (s.th.pc + 4) :=
  ⟨st, completes_retire (n := 1) hq (Thread.ws_mode ..) (Thread.ws_stepctl ..) (Thread.ws_pc ..) he⟩

theorem completes_alu3 (f : Word → Word → Word) (hq : Quiet s) (he : exec i s = alu3 f d a b s) (hv : f (s.rs a) (s.rs b) = v) :
    ∃ st, Completes i s (s.th.ws d v st) (s.th.pc + 4) :=
  completes_ws i hq (by rw [he, ← hv]; rfl)

/-- A .W form: the 32-bit result r of its operation, sign-extended. -/
theorem completes_alu3w (f : BitVec 32 → BitVec 32 → BitVec 32) {r : BitVec 32} (hq : Quiet s) (he : exec i s = alu3w f d a b s)
    (hr : f (low32 (s.rs a)) (low32 (s.rs b)) = r) : ∃ st, Completes i s (s.th.ws d (r.signExtend 64) st) (s.th.pc + 4) :=
  completes_alu3 i _ hq he (congrArg (BitVec.signExtend 64) hr)

/-- A .W form whose result is a natural number. -/
theorem completes_alu3w_ofNat (f : BitVec 32 → BitVec 32 → BitVec 32) {n : Nat} (hq : Quiet s) (he : exec i s = alu3w f d a b s)
    (hr : f (low32 (s.rs a)) (low32 (s.rs b)) = BitVec.ofNat 32 n) :
    ∃ st, Completes i s (s.th.ws d (word32 n) st) (s.th.pc + 4) :=
  completes_alu3w i f hq he (hr.trans (BitVec.ofInt_natCast 32 n).symm)

theorem completes_alu2 (f : Word → Word) (hq : Quiet s) (he : exec i s = alu2 f d a s) (hv : f (s.rs a) = v) :
    ∃ st, Completes i s (s.th.ws d v st) (s.th.pc + 4) :=
  completes_ws i hq (by rw [he, ← hv]; rfl)

theorem completes_aluImm (f : Word → Word → Word) {n : Word} (hq : Quiet s) (he : exec i s = aluImm f d a n 1 s)
    (hv : f (s.rs a) n = v) :
    ∃ st, Completes i s (s.th.ws d v st) (s.th.pc + 4) :=
  completes_ws i hq (by rw [he, ← hv]; rfl)

end Completion

/-- Settles O1: each instruction of the row completes in one of the shapes above, and its operation has the value of the rules. -/
theorem integerResults : Obligations.IntegerResults := by
  unfold Obligations.IntegerResults
  intro i s d v hq h
  unfold intResult at h
  split at h <;> cases h
  -- INTA (R282, R341)
  · exact completes_alu3 (.add ..) (· + ·) hq rfl (add_eq_ofInt _ _)
  · exact completes_alu3w (.addW ..) (· + ·) hq rfl (add_eq_ofInt _ _)
  · exact completes_alu3 (.sub ..) (· - ·) hq rfl (sub_eq_ofInt _ _)
  · exact completes_alu3w (.subW ..) (· - ·) hq rfl (sub_eq_ofInt _ _)
  · exact completes_alu3 (.and ..) (· &&& ·) hq rfl rfl
  · exact completes_alu3w (.andW ..) (· &&& ·) hq rfl BitVec.setWidth_and.symm
  · exact completes_alu3 (.or ..) (· ||| ·) hq rfl rfl
  · exact completes_alu3w (.orW ..) (· ||| ·) hq rfl BitVec.setWidth_or.symm
  · exact completes_alu3 (.xor ..) (· ^^^ ·) hq rfl rfl
  · exact completes_alu3w (.xorW ..) (· ^^^ ·) hq rfl BitVec.setWidth_xor.symm
  · exact completes_alu3 (.andn ..) (fun x y => x &&& ~~~y) hq rfl rfl
  · exact completes_alu3w (.andnW ..) (fun x y => x &&& ~~~y) hq rfl (low32_andn _ _)
  · exact completes_alu3 (.shl ..) shl64 hq rfl (shiftLeft_eq_ofNat _ _)
  · exact completes_alu3w_ofNat (.shlW ..) shl32 hq rfl (shl32_eq_ofNat _ _)
  · exact completes_alu3 (.shr ..) shr64 hq rfl (ushiftRight_eq_ofNat _ _)
  · exact completes_alu3w_ofNat (.shrW ..) shr32 hq rfl (shr32_eq_ofNat _ _)
  · exact completes_alu3 (.sha ..) sha64 hq rfl (sshiftRight_eq_ofInt _ _)
  · exact completes_alu3w (.shaW ..) sha32 hq rfl (sha32_eq_ofInt _ _)
  · exact completes_alu3 (.slt ..) sltV hq rfl (sltV_eq_truth _ _)
  · exact completes_alu3 (.sltW ..) (fun x y => (sltV (low32 x) (low32 y)).signExtend 64) hq rfl (signExtend_sltV _ _)
  · exact completes_alu3 (.sltn ..) sltnV hq rfl (sltnV_eq_truth _ _)
  · exact completes_alu3 (.sltnW ..) (fun x y => (sltnV (low32 x) (low32 y)).signExtend 64) hq rfl (signExtend_sltnV _ _)
  · exact completes_alu3 (.min ..) minS hq rfl (minS_eq_ofInt _ _)
  · exact completes_alu3w (.minW ..) minS hq rfl (minS_eq_ofInt _ _)
  · exact completes_alu3 (.max ..) maxS hq rfl (maxS_eq_ofInt _ _)
  · exact completes_alu3w (.maxW ..) maxS hq rfl (maxS_eq_ofInt _ _)
  · exact completes_alu3 (.minn ..) minU hq rfl (minU_eq_ofNat _ _)
  · exact completes_alu3w_ofNat (.minnW ..) minU hq rfl (minU_eq_ofNat _ _)
  · exact completes_alu3 (.maxn ..) maxU hq rfl (maxU_eq_ofNat _ _)
  · exact completes_alu3w_ofNat (.maxnW ..) maxU hq rfl (maxU_eq_ofNat _ _)
  · exact completes_alu2 (.clz ..) (fun x => BitVec.ofNat 64 (leadingZeros x 64))
      hq rfl (congrArg _ (leadingZeros_eq_length _ _))
  · exact completes_alu2 (.ctz ..) (fun x => BitVec.ofNat 64 (trailingZeros x 0 64))
      hq rfl (congrArg _ (trailingZeros_eq_length _ _ _))
  · exact completes_alu2 (.popc ..) (fun x => BitVec.ofNat 64 (popCount x 64))
      hq rfl (congrArg _ (popCount_eq_length _ _))
  · exact completes_alu2 (.brev ..) bitReverse hq rfl (bitReverse_eq_sum _)
  · exact completes_alu2 (.bswap ..) byteSwap hq rfl (byteSwap_eq_sum _)
  · exact completes_ws (.sel ..) hq rfl
  -- INTM (R282, R145)
  · exact completes_alu3 (.mul ..) (· * ·) hq rfl (mul_eq_ofInt _ _)
  · exact completes_alu3w (.mulW ..) (· * ·) hq rfl (mul_eq_ofInt _ _)
  · exact completes_alu3 (.mulh ..) mulhSS hq rfl rfl
  · exact completes_alu3 (.mulhn ..) mulhUU hq rfl (mulhUU_eq_ofInt _ _)
  · exact completes_alu3 (.mulhsn ..) mulhSU hq rfl rfl
  · exact completes_alu3 (.div ..) divS hq rfl (divS_eq_ofInt _ _)
  · exact completes_alu3w (.divW ..) divS hq rfl (divS_eq_ofInt _ _)
  · exact completes_alu3 (.divn ..) divU hq rfl (divU_eq_ofNat _ _)
  · exact completes_alu3w_ofNat (.divnW ..) divU hq rfl (divU_eq_ofNat _ _)
  · exact completes_alu3 (.rem ..) remS hq rfl (remS_eq_ofInt _ _)
  · exact completes_alu3w (.remW ..) remS hq rfl (remS_eq_ofInt _ _)
  · exact completes_alu3 (.remn ..) remU hq rfl (remU_eq_ofNat _ _)
  · exact completes_alu3w_ofNat (.remnW ..) remU hq rfl (remU_eq_ofNat _ _)
  -- immediates (R279, R282)
  · exact completes_aluImm (.addi ..) (· + ·) hq rfl (add_signExtend _ _)
  · exact completes_aluImm (.andi ..) (· &&& ·) hq rfl rfl
  · exact completes_aluImm (.ori ..) (· ||| ·) hq rfl rfl
  · exact completes_aluImm (.xori ..) (· ^^^ ·) hq rfl rfl
  · exact completes_aluImm (.shli ..) shl64 hq rfl (shl64_count _ _)
  · exact completes_aluImm (.shri ..) shr64 hq rfl (shr64_count _ _)
  · exact completes_aluImm (.shai ..) sha64 hq rfl (sha64_count _ _)
  · exact completes_aluImm (.slti ..) slt64 hq rfl (slt64_imm13 _ _)
  · exact completes_aluImm (.sltni ..) sltn64 hq rfl (ofBool_decide _)
  · exact signExtend_shiftLeft _ ▸ completes_ws (.lih ..) hq rfl
  · exact add_signExtend _ _ ▸ completes_ws (.addpc ..) hq rfl

end Sys2Proof.IntegerRow
end

section
/-! SUPPORT. The predicate row (R384, R387, R430): the one shape in which its instructions complete, the conditions of PCMP as
comparisons of integers, and what the words of OP 0x53 decode to. -/

namespace Sys2Proof.PredicateRow

open Machine

/-! How an instruction of the row completes: it writes a predicate register and moves on by one word. -/

section Completion

variable {s : State} {d : PReg} {v : Word}

theorem completes_wp {st : Nat} (i : Instr) (hq : Quiet s) (he : exec i s = finish s (.ok ((s.wp d v st).retire 1))) :
    ∃ st, Completes i s (s.th.wp d v st) (s.th.pc + 4) :=
  ⟨st, completes_retire (n := 1) hq (Thread.wp_mode ..) (Thread.wp_stepctl ..) (Thread.wp_pc ..) he⟩

/-- PCMP writes all ones where its condition, as any proposition p, holds, and zero otherwise (R384). -/
theorem completes_pcmp {a b : SReg} {c : PCond} {p : Prop} [Decidable p] (hq : Quiet s)
    (hc : pcond c (s.rs a) (s.rs b) = true ↔ p) :
    ∃ st, Completes (.pcmp d c a b) s (s.th.wp d (if p then BitVec.allOnes 64 else 0) st) (s.th.pc + 4) :=
  ite_congr (propext hc) (fun _ => rfl) (fun _ => rfl) ▸ completes_wp (.pcmp d c a b) hq rfl

end Completion

/-! The conditions of PCMP as comparisons of words, integers and naturals (R384). -/

section Conditions

variable (x y : Word)

theorem pcond_eq_iff : pcond .eq x y = true ↔ x = y := beq_iff_eq

theorem pcond_ne_iff : pcond .ne x y = true ↔ ¬x = y := bne_iff_ne

theorem pcond_lt_iff : pcond .lt x y = true ↔ x.toInt < y.toInt := BitVec.slt_iff_toInt_lt

theorem pcond_ge_iff : pcond .ge x y = true ↔ y.toInt ≤ x.toInt := by
  rw [pcond, Bool.not_eq_true', ← Bool.not_eq_true, BitVec.slt_iff_toInt_lt, Int.not_lt]

theorem pcond_ltn_iff : pcond .ltn x y = true ↔ x.toNat < y.toNat := BitVec.ult_iff_toNat_lt

theorem pcond_gen_iff : pcond .gen x y = true ↔ y.toNat ≤ x.toNat := by
  rw [pcond, Bool.not_eq_true', ← Bool.not_eq_true, BitVec.ult_iff_toNat_lt, Nat.not_lt]

end Conditions

/-- p0 reads all ones in every thread, whatever was written (R50). -/
theorem rp_zero (x : Thread) : x.rp 0 = BitVec.allOnes 64 := rfl

/-! Decoding. -/

/-- The first word of a list of words in memory order is read back (R3, R277). -/
theorem takeWord_wordsBytes_cons {w : Nat} (hw : w < 2 ^ 32) (ws : List Nat) :
    takeWord (wordsBytes (w :: ws)) = some (w, wordsBytes ws) := by
  simp only [wordsBytes, wordBytes, List.cons_append, List.nil_append, takeWord, BitVec.toNat_ofNat]
  congr 2
  omega

/-- A word other than IMM decodes by itself, with the bytes behind it left (R279, R280). -/
theorem decode_of_not_imm {bs r : List Byte} {w : Nat} (hw : takeWord bs = some (w, r)) (hop : fld w 0 7 ≠ 127) :
    decode bs = (decodeWord w).map (·, r) := by
  rw [decode, hw]
  simp only [beq_iff_eq, hop, if_false]
  cases decodeWord w <;> rfl

/-- Stated of the functions: applied to arguments, the kernel would evaluate the decoder on open bytes to compare the two sides. -/
theorem decodeTableWord_eq_fun :
    decodeTableWord = fun nbits w =>
      (decode (wordsBytes [w % 2 ^ nbits, w % 2 ^ nbits / 2 ^ 32, w % 2 ^ nbits / 2 ^ 64])).toOption.map Prod.fst := by
  delta decodeTableWord
  funext nbits w
  cases decode (wordsBytes [w % 2 ^ nbits, w % 2 ^ nbits / 2 ^ 32, w % 2 ^ nbits / 2 ^ 64]) <;> rfl

theorem decodeTableWord_of_not_imm {w : Nat} (hw : w < 2 ^ 32) (hop : fld w 0 7 ≠ 127) :
    decodeTableWord 32 w = (decodeWord w).toOption := by
  rw [decodeTableWord_eq_fun]
  dsimp only
  rw [Nat.mod_eq_of_lt hw, decode_of_not_imm (takeWord_wordsBytes_cons hw _) hop]
  cases decodeWord w <;> rfl

theorem pcond_ofCode?_eq_getElem? (c : Nat) : PCond.ofCode? c = [PCond.eq, .ne, .lt, .ge, .ltn, .gen][c]? := by
  match c with
  | 0 | 1 | 2 | 3 | 4 | 5 => rfl
  | _ + 6 => rfl

/-- The fields of an FPC word (R278). -/
theorem fpc_fields {w op p c a b z : Nat} (ho : op < 128) (hp : p < 8) (hc : c < 8) (ha : a < 64) (hb : b < 64) (hz : z < 128)
    (hw : w = op + p * 2 ^ 7 + c * 2 ^ 10 + a * 2 ^ 13 + b * 2 ^ 19 + z * 2 ^ 25) :
    w < 2 ^ 32 ∧ fld w 0 7 = op ∧ w / 2 ^ 7 % 8 = p ∧ fld w 10 3 = c ∧ w / 2 ^ 13 % 64 = a ∧ w / 2 ^ 19 % 64 = b ∧
      fld w 25 7 = z := by
  simp only [fld]
  omega

/-- A word of OP 0x53 is the comparison of its condition, where [31:25] is zero and the code has one (R384). -/
theorem decodeWord_pcmp {w : Nat} (hop : fld w 0 7 = 0x53) :
    (decodeWord w).toOption =
      if fld w 25 7 = 0 then (PCond.ofCode? (fld w 10 3)).map fun k => .pcmp (preg w 7) k (sreg w 13) (sreg w 19) else none := by
  rw [decodeWord, decodeOp, hop, decodeOpBy]
  by_cases hz : fld w 25 7 = 0
  · simp only [hz, beq_self_eq_true, if_true]
    cases PCond.ofCode? (fld w 10 3) <;> rfl
  · simp only [hz, beq_iff_eq, if_false]
    rfl

theorem decodeTableWord_pcmp (pd : PReg) (a b : SReg) {c z : Nat} (hc : c < 8) (hz : z < 128) :
    decodeTableWord 32 (0x53 + pd.val * 2 ^ 7 + c * 2 ^ 10 + a.val * 2 ^ 13 + b.val * 2 ^ 19 + z * 2 ^ 25) =
      if z = 0 then [PCond.eq, .ne, .lt, .ge, .ltn, .gen][c]?.map fun k => .pcmp pd k a b else none := by
  generalize hw : 0x53 + pd.val * 2 ^ 7 + c * 2 ^ 10 + a.val * 2 ^ 13 + b.val * 2 ^ 19 + z * 2 ^ 25 = w
  obtain ⟨hlt, hop, hpd, hcond, ha, hb, hzero⟩ := fpc_fields (by decide) pd.isLt hc a.isLt b.isLt hz hw.symm
  rw [decodeTableWord_of_not_imm hlt (by rw [hop]; decide), decodeWord_pcmp hop, hzero, hcond, pcond_ofCode?_eq_getElem?,
    Laws.RoundTrip.preg_of hpd, Laws.RoundTrip.sreg_of ha, Laws.RoundTrip.sreg_of hb]

/-- Settles O28: each instruction of the row completes by writing its predicate, PCMP by the integer reading of its condition, and
the words of OP 0x53 decode by their fields. -/
theorem predicateResults : Obligations.PredicateResults := by
  unfold Obligations.PredicateResults
  refine ⟨?results, fun x v st => (rp_zero (x.wp 0 v st)).trans (rp_zero x).symm, fun pd a b c z => decodeTableWord_pcmp pd a b,
    decodeTableWord_pcmp 1 8 9 (c := 2) (z := 0) (by decide) (by decide), fun _ => traps_of rfl⟩
  case results =>
    intro i s d v hq h
    unfold Says.predResult at h
    split at h <;> cases h
    -- PL (R387)
    · exact completes_wp (.plAnd ..) hq rfl
    · exact completes_wp (.plOr ..) hq rfl
    · exact completes_wp (.plXor ..) hq rfl
    · exact completes_wp (.plAndn ..) hq rfl
    · exact completes_wp (.plNot ..) hq rfl
    · exact completes_wp (.plSet ..) hq rfl
    · exact completes_wp (.plClr ..) hq rfl
    -- PCMP (R384)
    · exact completes_pcmp hq (pcond_eq_iff _ _)
    · rw [← ite_not]
      exact completes_pcmp hq (pcond_ne_iff _ _)
    · exact completes_pcmp hq (pcond_lt_iff _ _)
    · exact completes_pcmp hq (pcond_ge_iff _ _)
    · exact completes_pcmp hq (pcond_ltn_iff _ _)
    · exact completes_pcmp hq (pcond_gen_iff _ _)
    -- V.MOV.S2P (R430)
    · exact completes_wp (.vMovS2p ..) hq rfl

end Sys2Proof.PredicateRow
end
